-- ==== Sys2Proof/Word.lean ====
section
/-!
DEFINITION. The words of the machine: 64-bit scalar registers (R97), 32-bit lanes (R132), bytes, 18-bit stream PCs (R111).
Only names and the plainest arithmetic stand here.
-/

namespace Sys2Proof

/-- A scalar register, an address, a special register as software reads it (R97, R244). -/
abbrev Word := BitVec 64

/-- One lane of a vector register, one tile element, one mask (R132, R241, R242). -/
abbrev Lane := BitVec 32

/-- One byte of any memory (R4). -/
abbrev Byte := BitVec 8

/-- A stream PC counts words of its stream and is 18 bits wide (R19, R111, R244). -/
abbrev Pc := BitVec 18

/-- Scalar register number g0-g63 (R64). -/
abbrev GReg := BitVec 6

/-- Condition flag c0-c7 (R25). -/
abbrev CFlag := BitVec 3

/-- Token k0-k7 (R79). -/
abbrev Tok := BitVec 3

end Sys2Proof
end

