-- ==== Sys2Proof/Config.lean ====
section
/-!
DEFINITION. What one package fixes (R13-R16), and the free values: constants with no body, so that nothing in Lean can say
what they are. A free value stands where the spec leaves a value open (R8 "undefined"; assumption log 4).
-/

namespace Sys2Proof.Config

/-- Crew slots of a core (R16). -/
def slots (npu : Bool) : Nat := if npu then 8 else 16

/-- Cores of one kind on one die (R15). -/
def cores (npu : Bool) : Nat := if npu then 48 else 128

/-- Bytes of a core's scratchpad: 48 banks of 4 or 8 KiB (R16, R268). -/
def spadBytes (npu : Bool) : Nat := if npu then 393216 else 196608

/-- Rows of a core's scratchpad (R269). -/
def spadRows (npu : Bool) : Nat := if npu then 2048 else 1024

/-- The distance of two crews' context images (R347). -/
def imageStride : Nat := 0xA3000

/-- The ASID of the firmware, which owns the tray's window (R273): the spec gives none. DESIGN CHOICE (log 116). -/
opaque firmwareAsid : Nat

/-- A free 64-bit value, one for each count of `State.free`. DESIGN CHOICE (log 4). -/
opaque freeWord : Nat → BitVec 64

/-- A free lane (R88-R90), one for each count. DESIGN CHOICE (log 4). -/
opaque freeLane : Nat → BitVec 32

/-- A free byte (R196, R209), one for each count. -/
opaque freeByte : Nat → BitVec 8

/-- A byte of a data-queue entry whose bytes never arrived (R209), by job and position. -/
opaque lostByte : Nat → Nat → BitVec 8

/-- A free choice among alternatives the spec leaves open (R333 replacement), one for each count. -/
opaque freeChoice : Nat → Nat

/-- Whether an fma of infinity and zero with a quiet NaN addend raises invalid: IEEE 754-2019, which R52 follows, leaves it
to the implementation. -/
opaque fmaInfZeroNanInvalid : Bool

/-- Does a firmware image's signature verify against the fused root (R425)? The spec gives neither the root nor the image's layout.
DESIGN CHOICE (log 14). -/
opaque signatureGood : Nat → Bool

/-- The leaf index of a firmware image's signature (R425). -/
opaque leafIndex : Nat → Nat

/-- The security version of a firmware image (R425). -/
opaque securityVersion : Nat → Nat

/-- Lane groups of the die link (R429), whose number the spec does not give. -/
opaque laneGroups : Nat

/-- A sensor's reading, one for each count (R430). -/
opaque freeReading : Nat → Nat

/-- What a device returns for a request whose content the spec leaves to other standards (R426 signatures). -/
opaque freeSignature : Nat → Nat

/-- What another package's memory holds (R424): a byte for each count and address. -/
opaque remoteByte : Nat → Nat → BitVec 8

/-- The fabric port by which a package is reached (R412), which the spec leaves open. DESIGN CHOICE (log 67). -/
opaque fabricPort : Nat → BitVec 3

/-- Which other packages of the pod the fabric reaches (R424). -/
opaque podReachable : Nat → Bool

/-- Does a package whose number reads 0 belong to a pod, as its package 0 (R435)? -/
opaque podOfZero : Bool

/-- What a device below a PCIe root port answers (R424): a byte for each cycle and address. DESIGN CHOICE (log 100). -/
opaque deviceByte : Nat → Nat → BitVec 8

end Sys2Proof.Config
end

