-- ==== Sys2Proof/Machine/Number.lean ====
section
/-!
DEFINITION. Number formats, rounding and conversion (R39-R56). A finite value is sign, magnitude m and exponent e, standing for
m * 2^e; every operation computes it exactly, or with a last bit that is set where something was cut off, and rounds once.
-/

namespace Sys2Proof.Machine

/-- The five sticky flags as a bit vector: nv 0, of 1, uf 2, nx 3, rc 4 (R47). -/
abbrev Flags := BitVec 5

/-- Invalid. -/
def nv : Flags := 1
/-- Overflow. -/
def ofl : Flags := 2
/-- Underflow. -/
def ufl : Flags := 4
/-- Inexact. -/
def nx : Flags := 8
/-- Reserved code. -/
def rc : Flags := 16

/-- A flag where a condition holds. -/
def flagIf (b : Bool) (f : Flags) : Flags := if b then f else 0

/-- A floating-point format (R43, R45): sign weight (0 for unsigned), bias, mantissa width, largest finite magnitude code, code
of infinity, canonical NaN, whether NaN codes carry a sign and signal, whether -0 exists. -/
structure Fmt where
  sign : Nat
  bias : Nat
  p : Nat
  maxMag : Nat
  inf : Option Nat
  nan : Nat
  nanSign : Bool
  signals : Bool
  negZero : Bool
  deriving DecidableEq, Repr

/-- binary32 (R43). -/
def fmtF32 : Fmt := ⟨0x80000000, 127, 23, 0x7F7FFFFF, some 0x7F800000, 0x7FC00000, true, true, true⟩
/-- binary16 (R43). -/
def fmtF16 : Fmt := ⟨0x8000, 15, 10, 0x7BFF, some 0x7C00, 0x7E00, true, true, true⟩
/-- bfloat16 (R43). -/
def fmtBf16 : Fmt := ⟨0x8000, 127, 7, 0x7F7F, some 0x7F80, 0x7FC0, true, true, true⟩
/-- OCP E4M3 (R43). -/
def fmtE4m3 : Fmt := ⟨0x80, 7, 3, 0x7E, none, 0x7F, true, false, true⟩
/-- OCP E5M2 (R43). -/
def fmtE5m2 : Fmt := ⟨0x80, 15, 2, 0x7B, some 0x7C, 0x7F, true, false, true⟩

/-- A binary8 variant by its precision, signedness and infinity option (R45). -/
def fmtB8 (prec : Nat) (uns infs : Bool) : Fmt :=
  let top := if uns then 0xFE else 0x7F
  { sign := if uns then 0 else 0x80, bias := if uns then 2 ^ (8 - prec) else 2 ^ (7 - prec), p := prec - 1,
    maxMag := if infs then top - 1 else top, inf := if infs then some top else none,
    nan := if uns then 0xFF else 0x80, nanSign := false, signals := false, negZero := false }

/-- The variant a descriptor names (R46). -/
def fmtDesc (d : BitVec 5) : Fmt := fmtB8 (d.toNat / 4) (d.toNat / 2 % 2 == 1) (d.toNat % 2 == 1)

/-- An element format (R39): signed or natural integers of a width, or floating point. -/
inductive Elt where
  | sInt (n : Nat)
  | nInt (n : Nat)
  | flt (f : Fmt)
  deriving DecidableEq, Repr

/-- The format a type code names, codes 30 and 31 through the descriptors (R39, R46). -/
def eltOf (b8d0 b8d1 : BitVec 5) (code : Nat) : Elt :=
  match code with
  | 0 => .sInt 4
  | 1 => .sInt 8
  | 2 => .sInt 16
  | 3 => .sInt 32
  | 4 => .sInt 64
  | 5 => .nInt 8
  | 6 => .nInt 16
  | 7 => .nInt 32
  | 8 => .nInt 64
  | 9 => .flt fmtF32
  | 10 => .flt fmtF16
  | 11 => .flt fmtBf16
  | 12 => .flt fmtE4m3
  | 13 => .flt fmtE5m2
  | 30 => .flt (fmtDesc b8d0)
  | 31 => .flt (fmtDesc b8d1)
  | c => if c < 23 then .flt (fmtB8 (c - 15) false false) else .flt (fmtB8 (c - 22) false true)

/-- Width of a type code in bits (R39). -/
def eltBits (code : Nat) : Nat :=
  match code with
  | 0 => 4
  | 1 | 5 => 8
  | 2 | 6 | 10 | 11 => 16
  | 3 | 7 | 9 => 32
  | 4 | 8 => 64
  | _ => 8

/-- Size of an element in bytes; s4 counts nibbles and is treated apart (R40). -/
def eltBytes (code : Nat) : Nat := eltBits code / 8

/-- A value read from a pattern: NaN with its sign and whether it signals, infinity, or sign, magnitude and exponent. -/
inductive FVal where
  | nan (neg sig : Bool)
  | inf (neg : Bool)
  | fin (neg : Bool) (m : Nat) (e : Int)
  deriving DecidableEq, Repr

/-- The value of a code (R43, R45). -/
def Fmt.value (f : Fmt) (c : Nat) : FVal :=
  if !f.nanSign && c == f.nan then .nan false false
  else
    let neg := f.sign != 0 && decide (f.sign ≤ c)
    let mag := if neg then c - f.sign else c
    if f.inf == some mag then .inf neg
    else if f.maxMag < mag then .nan neg (f.signals && decide (mag % 2 ^ f.p < 2 ^ (f.p - 1)))
    else
      let ex := mag / 2 ^ f.p
      let mant := mag % 2 ^ f.p
      if ex = 0 then .fin neg mant (1 - f.bias - f.p) else .fin neg (2 ^ f.p + mant) (ex - f.bias - f.p)

/-- A code with a sign. -/
def Fmt.signed (f : Fmt) (neg : Bool) (mag : Nat) : Nat := if neg then mag + f.sign else mag

/-- The NaN code, with its sign where the format has one (R44, R54). -/
def Fmt.nanCode (f : Fmt) (neg : Bool) : Nat := if f.nanSign then f.signed neg f.nan else f.nan

/-- Zero with a sign, where the format has -0. -/
def Fmt.zero (f : Fmt) (neg : Bool) : Nat := if neg && f.negZero then f.sign else 0

/-- Does rounding move a magnitude up? `half` compares the part cut off with half a unit: 0 nothing cut, 1 less, 2 equal, 3 more. -/
def roundUp (mode : Nat) (neg odd : Bool) (half : Nat) : Bool :=
  match mode with
  | 0 => decide (half = 3) || (decide (half = 2) && odd)
  | 1 => false
  | 2 => neg && decide (half ≠ 0)
  | _ => !neg && decide (half ≠ 0)

/-- The part of `m` below bit `r`, compared with half of 2^r as `roundUp` wants it. -/
def cutPart (m r : Nat) : Nat :=
  if r = 0 then 0
  else
    let low := m % 2 ^ r
    if low = 0 then 0 else if low < 2 ^ (r - 1) then 1 else if low = 2 ^ (r - 1) then 2 else 3

/-- m * 2^e in units of 2^u, rounded; and whether anything was cut off (R49). -/
def roundAt (mode : Nat) (neg : Bool) (m : Nat) (e u : Int) : Nat × Bool :=
  if u ≤ e then (m * 2 ^ (e - u).toNat, false)
  else
    let r := (u - e).toNat
    let q := m / 2 ^ r
    let h := cutPart m r
    ((if roundUp mode neg (q % 2 == 1) h then q + 1 else q), h != 0)

/-- A non-zero magnitude rounded to a format with unbounded range above: the magnitude code, and the flags underflow and inexact
(R50: tiny is judged after rounding with unbounded exponent range). A tie in a format with P = 1, whose even neighbour R49 does not
name, goes to the larger magnitude. DESIGN CHOICE (log 117). -/
def Fmt.roundMag (f : Fmt) (mode : Nat) (neg : Bool) (m : Nat) (e : Int) : Nat × Flags :=
  let emin : Int := 1 - f.bias - f.p
  let top : Int := e + (Nat.log2 m : Nat)
  let free : Int := top - f.p
  let u := if free < emin then emin else free
  let (q, cut) := roundAt mode neg m e u
  let code := (u - emin).toNat * 2 ^ f.p + q
  let tiny := decide (free < emin) &&
    (decide (free + 1 < emin) || decide ((roundAt mode neg m e free).1 < 2 ^ (f.p + 1)))
  (code, flagIf (tiny && cut) ufl ||| flagIf cut nx)

/-- The result of an overflow in a mode: infinity or the largest finite value (R54, IEEE 754). -/
def Fmt.overflow (f : Fmt) (mode : Nat) (neg : Bool) : Nat :=
  let toInf := match mode with
    | 0 => true
    | 1 => false
    | 2 => neg
    | _ => !neg
  match f.inf with
  | some i => f.signed neg (if toInf then i else f.maxMag)
  | none => f.signed neg f.maxMag

/-- An exact value rounded once to a format with infinities, as arithmetic does (R50, R52). -/
def Fmt.pack (f : Fmt) (mode : Nat) (neg : Bool) (m : Nat) (e : Int) : Nat × Flags :=
  if m = 0 then (f.zero neg, 0)
  else
    let (code, fl) := f.roundMag mode neg m e
    if f.maxMag < code then (f.overflow mode neg, ofl ||| nx) else (f.signed neg code, fl)

/-- m * 2^e as a multiple of 2^u, for u at most e. -/
def scaled (neg : Bool) (m : Nat) (e u : Int) : Int :=
  let a : Int := m * 2 ^ (e - u).toNat
  if neg then -a else a

/-- An exact sum of two finite values: the integer and its exponent. -/
def exactSum (na : Bool) (ma : Nat) (ea : Int) (nb : Bool) (mb : Nat) (eb : Int) : Int × Int :=
  let u := if ea < eb then ea else eb
  (scaled na ma ea u + scaled nb mb eb u, u)

/-- An exact sum packed; a zero sum of unlike signs is +0, or -0 under RDN (R52); of like signs it keeps the sign. -/
def Fmt.packSum (f : Fmt) (mode : Nat) (na : Bool) (ma : Nat) (ea : Int) (nb : Bool) (mb : Nat) (eb : Int) : Nat × Flags :=
  let (z, u) := exactSum na ma ea nb mb eb
  if z = 0 then (f.zero (if na == nb then na else mode == 2), 0) else f.pack mode (decide (z < 0)) z.natAbs u

/-- The canonical NaN of an arithmetic result (R44). -/
def Fmt.cnan (f : Fmt) : Nat := f.nan

/-- Does a value signal? -/
def FVal.sig : FVal → Bool
  | .nan _ s => s
  | _ => false

/-- Is a value a NaN? -/
def FVal.isNan : FVal → Bool
  | .nan _ _ => true
  | _ => false

/-- Addition of values (R52). -/
def Fmt.addV (f : Fmt) (mode : Nat) (x y : FVal) : Nat × Flags :=
  match x, y with
  | .fin na ma ea, .fin nb mb eb => f.packSum mode na ma ea nb mb eb
  | .inf a, .inf b => if a == b then (f.signed a (f.inf.getD f.maxMag), 0) else (f.cnan, nv)
  | .inf a, .fin _ _ _ => (f.signed a (f.inf.getD f.maxMag), 0)
  | .fin _ _ _, .inf b => (f.signed b (f.inf.getD f.maxMag), 0)
  | _, _ => (f.cnan, flagIf (x.sig || y.sig) nv)

/-- The negative of a value. -/
def FVal.neg : FVal → FVal
  | .nan n s => .nan n s
  | .inf n => .inf (!n)
  | .fin n m e => .fin (!n) m e

/-- add (R52). -/
def Fmt.add (f : Fmt) (mode a b : Nat) : Nat × Flags := f.addV mode (f.value a) (f.value b)

/-- sub (R52). -/
def Fmt.sub (f : Fmt) (mode a b : Nat) : Nat × Flags := f.addV mode (f.value a) (f.value b).neg

/-- Multiplication of values (R52). -/
def Fmt.mulV (f : Fmt) (mode : Nat) (x y : FVal) : Nat × Flags :=
  match x, y with
  | .fin na ma ea, .fin nb mb eb => f.pack mode (na != nb) (ma * mb) (ea + eb)
  | .inf a, .inf b => (f.signed (a != b) (f.inf.getD f.maxMag), 0)
  | .inf a, .fin nb mb _ => if mb = 0 then (f.cnan, nv) else (f.signed (a != nb) (f.inf.getD f.maxMag), 0)
  | .fin na ma _, .inf b => if ma = 0 then (f.cnan, nv) else (f.signed (na != b) (f.inf.getD f.maxMag), 0)
  | _, _ => (f.cnan, flagIf (x.sig || y.sig) nv)

/-- mul (R52). -/
def Fmt.mul (f : Fmt) (mode a b : Nat) : Nat × Flags := f.mulV mode (f.value a) (f.value b)

/-- Is the product of two values infinity times zero? -/
def infTimesZero : FVal → FVal → Bool
  | .inf _, .fin _ m _ => m == 0
  | .fin _ m _, .inf _ => m == 0
  | _, _ => false

/-- fma: x * y + z with one rounding (R52). DESIGN CHOICE (log 13). -/
def Fmt.fmaV (f : Fmt) (mode : Nat) (x y z : FVal) : Nat × Flags :=
  if infTimesZero x y then
    (f.cnan, flagIf (z.sig || !z.isNan || Config.fmaInfZeroNanInvalid) nv)
  else
    match x, y with
    | .fin na ma ea, .fin nb mb eb => f.addV mode (.fin (na != nb) (ma * mb) (ea + eb)) z
    | .inf a, .inf b => f.addV mode (.inf (a != b)) z
    | .inf a, .fin nb _ _ => f.addV mode (.inf (a != nb)) z
    | .fin na _ _, .inf b => f.addV mode (.inf (na != b)) z
    | _, _ => (f.cnan, flagIf (x.sig || y.sig || z.sig) nv)

/-- fma on patterns. -/
def Fmt.fma (f : Fmt) (mode a b c : Nat) : Nat × Flags := f.fmaV mode (f.value a) (f.value b) (f.value c)

/-- Is x less than y, both finite or infinite, taking -0 below +0 when `signedZero` (R52, R67)? -/
def FVal.lt (signedZero : Bool) : FVal → FVal → Bool
  | .fin na ma ea, .fin nb mb eb =>
    let (z, _) := exactSum na ma ea (!nb) mb eb
    decide (z < 0) || (decide (z = 0) && signedZero && na && !nb && ma == 0)
  | .inf a, .inf b => a && !b
  | .inf a, .fin _ _ _ => a
  | .fin _ _ _, .inf b => !b
  | _, _ => false

/-- Are two values equal, -0 equal to +0? -/
def FVal.eq : FVal → FVal → Bool
  | .fin na ma ea, .fin nb mb eb => decide ((exactSum na ma ea (!nb) mb eb).1 = 0)
  | .inf a, .inf b => a == b
  | _, _ => false

/-- min and max: the chosen operand's pattern (R52); a signalling NaN input is invalid (R44). -/
def Fmt.minMax (f : Fmt) (isMax : Bool) (a b : Nat) : Nat × Flags :=
  let x := f.value a
  let y := f.value b
  let fl := flagIf (x.sig || y.sig) nv
  if x.isNan && y.isNan then (f.cnan, fl)
  else if x.isNan then (b, fl)
  else if y.isNan then (a, fl)
  else if isMax then (if FVal.lt true x y then b else a, fl)
  else (if FVal.lt true y x then b else a, fl)

/-- The sign bit cleared or flipped (R52): abs and neg. -/
def Fmt.signOp (f : Fmt) (flip : Bool) (a : Nat) : Nat :=
  if f.sign ≤ a then a - f.sign else if flip then a + f.sign else a

/-! ## Conversion (R53-R55) -/

/-- The value of a two's complement pattern of `n` bits. -/
def sVal (n c : Nat) : Int := if c % 2 ^ n < 2 ^ (n - 1) then (c % 2 ^ n : Nat) else (c % 2 ^ n : Nat) - 2 ^ n

/-- The pattern of `n` bits of an integer. -/
def patOf (n : Nat) (z : Int) : Nat := (z % 2 ^ n).toNat

/-- The range of an integer format; s4 is symmetric (R41, R42). -/
def eltRange : Elt → Int × Int
  | .sInt n => if n = 4 then (-7, 7) else (-(2 ^ (n - 1)), 2 ^ (n - 1) - 1)
  | .nInt n => (0, 2 ^ n - 1)
  | .flt _ => (0, 0)

/-- A value as conversion reads it: an integer exactly, or a floating-point value, and the reserved-code flag (R42). -/
def Elt.read : Elt → Nat → (Int ⊕ FVal) × Flags
  | .sInt n, c => if n = 4 ∧ c % 16 = 8 then (.inl 0, rc) else (.inl (sVal n c), 0)
  | .nInt n, c => (.inl (c % 2 ^ n : Nat), 0)
  | .flt f, c => (.inr (f.value c), 0)

/-- Rounding of a finite value to an integer in a mode (R55). -/
def toInt (mode : Nat) (neg : Bool) (m : Nat) (e : Int) : Int × Bool :=
  let (q, cut) := roundAt mode neg m e 0
  (if neg then -(q : Int) else q, cut)

/-- An integer clamped to a range; a clamp that changes it sets of and nx (R55). -/
def clampInt (r : Int × Int) (z : Int) : Int × Flags :=
  if z < r.1 then (r.1, ofl ||| nx) else if r.2 < z then (r.2, ofl ||| nx) else (z, 0)

/-- A conversion to an integer format (R55). -/
def toIntElt (mode : Nat) (sat : Bool) (t : Elt) (n : Nat) (x : Int ⊕ FVal) : Nat × Flags :=
  let r := eltRange t
  match x with
  | .inl z => if sat || n == 4 then let (w, fl) := clampInt r z; (patOf n w, fl) else (patOf n z, 0)
  | .inr (.nan _ _) => (0, nv)
  | .inr (.inf neg) => (patOf n (if neg then r.1 else r.2), ofl ||| nx)
  | .inr (.fin neg m e) =>
    let (z, cut) := toInt mode neg m e
    let (w, fl) := clampInt r z
    (patOf n w, fl ||| flagIf cut nx)

/-- A conversion to a floating-point format (R53, R54). With saturation an infinity becomes max finite and sets of and nx in every pair, in
those of R53 that are exact too. DEDUCED (log 120). -/
def toFltElt (mode : Nat) (sat : Bool) (f : Fmt) (x : FVal) : Nat × Flags :=
  match x with
  | .nan neg sig => (f.nanCode neg, flagIf sig nv)
  | .inf neg =>
    if f.sign = 0 ∧ neg = true then (if sat then 0 else f.nan, nv)
    else if sat then (f.signed neg f.maxMag, ofl ||| nx)
    else match f.inf with
      | some i => (f.signed neg i, 0)
      | none => (f.nanCode neg, ofl ||| nx)
  | .fin neg m e =>
    if m = 0 then (f.zero neg, 0)
    else
      let (code, fl) := f.roundMag mode neg m e
      if f.sign = 0 ∧ neg = true then
        if code = 0 then (0, fl) else (if sat then 0 else f.nan, nv)
      else if f.maxMag < code then
        if sat then (f.signed neg f.maxMag, ofl ||| nx)
        else match f.inf with
          | some _ => (f.overflow mode neg, ofl ||| nx)
          | none => (f.nanCode neg, ofl ||| nx)
      else if code = 0 then (f.zero neg, fl)
      else (f.signed neg code, fl)

/-- An integer as a floating-point value. -/
def intVal (z : Int) : FVal := .fin (decide (z < 0)) z.natAbs 0

/-- A conversion by R53-R55, between equal types too. -/
def convertAny (b8d0 b8d1 : BitVec 5) (src tgt mode : Nat) (sat : Bool) (c : Nat) : Nat × Flags :=
  let t := eltOf b8d0 b8d1 tgt
  let (x, fl0) := (eltOf b8d0 b8d1 src).read c
  let (r, fl) := match t with
    | .sInt n => toIntElt mode sat t n x
    | .nInt n => toIntElt mode sat t n x
    | .flt f => toFltElt mode sat f (match x with
        | .inl z => intVal z
        | .inr v => v)
  (r, fl0 ||| fl)

/-- A pattern of one type as a pattern of another (R53-R55, R105, R141). Equal types pass the pattern, a signalling NaN quieted
and the reserved s4 code read as 0. -/
def convert (b8d0 b8d1 : BitVec 5) (src tgt mode : Nat) (sat : Bool) (c : Nat) : Nat × Flags :=
  let t := eltOf b8d0 b8d1 tgt
  let (x, fl0) := (eltOf b8d0 b8d1 src).read c
  if src = tgt then
    match t, x with
    | .flt f, .inr (.nan neg true) => (f.nanCode neg, nv)
    | .sInt 4, .inl z => (patOf 4 z, fl0)
    | _, _ => (c % 2 ^ eltBits src, 0)
  else convertAny b8d0 b8d1 src tgt mode sat c

/-- The rounding of a subscribed copy (R56): RNE with saturation, no flags. -/
def subRound (src tgt c : Nat) : Nat := (convert 0 0 src tgt 0 true c).1

/-! ## Square roots and quotients -/

/-- The integer square root, bit by bit from bit `k` - 1 down. -/
def isqrtFrom : Nat → Nat → Nat → Nat
  | 0, _, r => r
  | k + 1, n, r => if (r + 2 ^ k) * (r + 2 ^ k) ≤ n then isqrtFrom k n (r + 2 ^ k) else isqrtFrom k n r

/-- The integer square root. -/
def isqrt (n : Nat) : Nat := isqrtFrom (Nat.log2 n / 2 + 1) n 0

/-- A number with one more bit, set where something was cut off. -/
def sticky (q : Nat) (cut : Bool) : Nat := 2 * q + (if cut then 1 else 0)

/-- The quotient of two finite magnitudes, 64 bits and a sticky bit. -/
def quotient (ma : Nat) (ea : Int) (mb : Nat) (eb : Int) : Nat × Int :=
  let n := ma * 2 ^ 64
  (sticky (n / mb) (n % mb != 0), ea - eb - 65)

/-- The square root of a finite magnitude, with a sticky bit. -/
def rootOf (m : Nat) (e : Int) : Nat × Int :=
  let odd := e % 2 != 0
  let m1 := (if odd then 2 * m else m) * 2 ^ 80
  let e1 := (if odd then e - 1 else e) - 80
  let r := isqrt m1
  (sticky r (r * r != m1), e1 / 2 - 1)

/-- Division of f32 patterns, as the texture, ray and solver units use it (R374, R400). -/
def Fmt.div (f : Fmt) (mode a b : Nat) : Nat × Flags :=
  match f.value a, f.value b with
  | .fin na ma ea, .fin nb mb eb =>
    if mb = 0 then (if ma = 0 then (f.cnan, nv) else (f.signed (na != nb) (f.inf.getD f.maxMag), ofl))
    else if ma = 0 then (f.zero (na != nb), 0)
    else let (q, e) := quotient ma ea mb eb; f.pack mode (na != nb) q e
  | .inf a, .fin nb _ _ => (f.signed (a != nb) (f.inf.getD f.maxMag), 0)
  | .fin na _ _, .inf b => (f.zero (na != b), 0)
  | .inf _, .inf _ => (f.cnan, nv)
  | x, y => (f.cnan, flagIf (x.sig || y.sig) nv)

end Sys2Proof.Machine
end

