-- ==== Sys2Proof/Machine/Sparse.lean ====
section
/-!
DEFINITION. Sparse maps: lists of (key, value) with keys strictly rising and no value equal to the default, so that equal maps
are equal lists. Memory is such a list of bytes; register files, tiles and per-core tables are such lists too.
-/

namespace Sys2Proof.Machine

/-- A map from numbers, with a default for every key that is not listed. -/
abbrev SMap (α : Type) := List (Nat × α)

/-- The value at a key; `d` is what an unlisted key reads as. -/
def SMap.get {α : Type} (d : α) : SMap α → Nat → α
  | [], _ => d
  | (k, v) :: m, x => if k = x then v else SMap.get d m x

/-- The entries with keys below `x`. -/
def SMap.below {α : Type} (x : Nat) (m : SMap α) : SMap α := m.filter (fun c => decide (c.1 < x))

/-- The entries with keys from `x` up. -/
def SMap.from {α : Type} (x : Nat) (m : SMap α) : SMap α := m.filter (fun c => decide (x ≤ c.1))

/-- The entries that differ from the default, numbered from `x`. -/
def SMap.cells {α : Type} [DecidableEq α] (d : α) (x : Nat) : List α → SMap α
  | [] => []
  | v :: vs => if v = d then SMap.cells d (x + 1) vs else (x, v) :: SMap.cells d (x + 1) vs

/-- Values written to consecutive keys from `x`. -/
def SMap.write {α : Type} [DecidableEq α] (d : α) (m : SMap α) (x : Nat) (vs : List α) : SMap α :=
  SMap.below x m ++ (SMap.cells d x vs ++ SMap.from (x + vs.length) m)

/-- One key set. -/
def SMap.set {α : Type} [DecidableEq α] (d : α) (m : SMap α) (x : Nat) (v : α) : SMap α := SMap.write d m x [v]

/-- Every key of [x, x + n) back at the default. -/
def SMap.clear {α : Type} (m : SMap α) (x n : Nat) : SMap α := SMap.below x m ++ SMap.from (x + n) m

/-- The values of [x, x + n). -/
def SMap.read {α : Type} (d : α) (m : SMap α) (x n : Nat) : List α :=
  let near := m.filter (fun c => decide (x ≤ c.1) && decide (c.1 < x + n))
  (List.range n).map (fun i => SMap.get d near (x + i))

/-- Keys strictly rising from `lo` up, no value equal to the default. -/
def SMap.wfFrom {α : Type} [DecidableEq α] (d : α) : Nat → SMap α → Bool
  | _, [] => true
  | lo, (k, v) :: m => decide (lo ≤ k) && decide (v ≠ d) && SMap.wfFrom d (k + 1) m

/-- The canonical form. -/
def SMap.wf {α : Type} [DecidableEq α] (d : α) (m : SMap α) : Bool := SMap.wfFrom d 0 m

/-- A memory: the bytes that differ from what an unlisted address reads as. -/
abbrev Memory := List Host.Cell

/-- What a byte that nothing has written reads as. DESIGN CHOICE (log 3), unsafe: the spec gives none. -/
def Memory.unlisted : Byte := 0

/-- The canonical form of a memory (log 3). -/
def Memory.wf (m : Memory) : Bool := SMap.wf Memory.unlisted m

/-- One byte. -/
def Memory.byte (m : Memory) (a : Nat) : Byte := SMap.get Memory.unlisted m a

/-- `n` bytes from `a` up. DESIGN CHOICE (log 3). -/
def Memory.read (m : Memory) (a n : Nat) : List Byte := SMap.read Memory.unlisted m a n

/-- Bytes written from `a` up: the one operation that changes a memory. -/
def Memory.write (m : Memory) (a : Nat) (bs : List Byte) : Memory := SMap.write Memory.unlisted m a bs

/-- `n` bytes from `a` up set to zero. -/
def Memory.zero (m : Memory) (a n : Nat) : Memory := SMap.clear m a n

/-- Two memories mixed: where they differ, a byte is the newer one unless `keep` says the older (R196, R262). -/
def Memory.mix (keep : Nat → Bool) (old new : Memory) : Memory :=
  ((old ++ new).map Prod.fst).dedup.foldl (fun m a =>
    if Memory.byte old a = Memory.byte new a ∨ !keep a then m else Memory.write m a [Memory.byte old a]) new

end Sys2Proof.Machine
end

