-- ==== Sys2Proof/Syntax.lean ====
section
/-!
DEFINITION. The instructions: one constructor for each row of the opcode table. The fields of an encoded word are bit vectors
of the widths R64-R85 give them. A row that is an event of the device names, by plain numbers, what it acts on.
-/

namespace Sys2Proof

/-- The four streams of a crew (R19). -/
inductive Strm where
  | s | v | m | k
  deriving DecidableEq, Repr

/-- Fields every vector word shares (R74, R77, R78, R86). -/
structure VHdr where
  gap : BitVec 4
  wait : BitVec 8
  msk : BitVec 4
  mmode : BitVec 2
  grp : BitVec 3
  hold : BitVec 2
  deriving DecidableEq, Repr

/-- A vector operand field: index, stride, negate (R75). -/
structure VOpd where
  na : BitVec 1
  str : BitVec 3
  idx : BitVec 10
  deriving DecidableEq, Repr

/-- A vector word of layout A (R79): three operands, type, and the modifiers nab, rnd, sat. -/
structure VArith where
  h : VHdr
  ty : BitVec 5
  d : VOpd
  a : VOpd
  b : VOpd
  nab : BitVec 1
  rnd : BitVec 3
  sat : BitVec 1
  deriving DecidableEq, Repr

/-- A vector word of layout C (R79), VCMP. -/
structure VCmpF where
  h : VHdr
  ty : BitVec 5
  d : VOpd
  a : VOpd
  b : VOpd
  nab : BitVec 1
  cond : BitVec 3
  deriving DecidableEq, Repr

/-- A vector word of layout V (R79), VCVT. -/
structure VCvtF where
  h : VHdr
  ty : BitVec 5
  d : VOpd
  a : VOpd
  rnd : BitVec 3
  sat : BitVec 1
  sty : BitVec 5
  deriving DecidableEq, Repr

/-- A vector word of layout L (R79) with its three operand fields; a row whose b or d is unused carries zero there. -/
structure VImm where
  h : VHdr
  ty : BitVec 5
  d : VOpd
  a : VOpd
  b : VOpd
  imm : BitVec 5
  deriving DecidableEq, Repr

/-- A vector word of layout M (R79). `sub` carries the aop and nr of VATOM and the queue of path 6. -/
structure VMemF where
  h : VHdr
  ty : BitVec 5
  d : VOpd
  a : VOpd
  b : VOpd
  path : BitVec 3
  tok : BitVec 3
  oc : BitVec 4
  sc : BitVec 3
  sub : BitVec 5
  deriving DecidableEq, Repr

/-- A vector word of layout G (R79), a graphics message. -/
structure VGfx where
  h : VHdr
  ty : BitVec 5
  d : VOpd
  a : VOpd
  b : VOpd
  tok : BitVec 3
  desc : BitVec 12
  deriving DecidableEq, Repr

/-- Fields every copy word shares (R81). -/
structure KHdr where
  gap : BitVec 4
  wait : BitVec 8
  sig : BitVec 3
  path : BitVec 3
  oc : BitVec 4
  deriving DecidableEq, Repr

/-- The KH operands: a handle region (R82, R191). -/
structure KH where
  nx : BitVec 7
  mx : BitVec 7
  col : BitVec 16
  row : BitVec 16
  h : BitVec 12
  deriving DecidableEq, Repr

/-- The KR operands: three shared scalars and an immediate (R82, R192). -/
structure KR where
  imm : BitVec 40
  gc : BitVec 6
  gb : BitVec 6
  ga : BitVec 6
  deriving DecidableEq, Repr

/-- The fields of a tile step or of a nest's template (R84, R85). -/
structure MStepF where
  gap : BitVec 4
  wait : BitVec 8
  zacc : BitVec 1
  fmta : BitVec 5
  fmtb : BitVec 5
  acc : BitVec 3
  fin : BitVec 1
  ha : BitVec 12
  arow : BitVec 16
  acol : BitVec 16
  hb : BitVec 12
  brow : BitVec 16
  bcol : BitVec 16
  k : BitVec 8
  ta : BitVec 1
  tb : BitVec 1
  pro : BitVec 3
  ptab : BitVec 8
  oc : BitVec 4
  mx : BitVec 7
  nx : BitVec 7
  deriving DecidableEq, Repr

/-- One level of the nest as MNSET writes it (R175). -/
structure MNSetF where
  gap : BitVec 4
  wait : BitVec 8
  lv : BitVec 3
  count : BitVec 12
  ar : BitVec 16
  ac : BitVec 16
  br : BitVec 16
  bc : BitVec 16
  ts : BitVec 3
  deriving DecidableEq, Repr

/-- A word that moves tile rows to or from vector registers (R180, R182); `sig` and `fmt` are zero where unused. -/
structure MRowF where
  gap : BitVec 4
  wait : BitVec 8
  sig : BitVec 3
  fmt : BitVec 5
  acc : BitVec 3
  row : BitVec 16
  mx : BitVec 7
  vx : BitVec 10
  deriving DecidableEq, Repr

/-- MSCA (R180): destination tile, source tile, the two scale runs. -/
structure MScaF where
  gap : BitVec 4
  wait : BitVec 8
  acc : BitVec 3
  src : BitVec 3
  sa : BitVec 10
  sb : BitVec 10
  deriving DecidableEq, Repr

/-- What decoding depends on beside the word: the core type (R92 detail 6) and the two binary8 descriptors (R39, R48). -/
structure Env where
  npu : Bool
  b8d0 : BitVec 5
  b8d1 : BitVec 5
  deriving DecidableEq, Repr

/-- The bind record of R351, as the firmware writes it in a slot-table entry; `rsv` stands for its reserved bits. -/
structure BindRec where
  desc : Nat
  asid : Nat
  prio : Nat
  resume : Bool
  handlerValid : Bool
  handler : Nat
  g : List Nat
  lanebase : Nat
  blk : Nat
  ext : Nat
  group : Nat
  image : Nat
  gsize : Nat
  rsv : Nat
  deriving DecidableEq, Repr

/-- A request that reaches a fabric port (R411): its initiator stream and class, ASID, package, address, and data of a write. A read says
which format and upd bit the proxy that reads asks for, and its page's element type (R295). -/
structure FabArrival where
  stream : Nat
  oc : Nat
  asid : Nat
  pkg : Nat
  va : Nat
  len : Nat
  data : Option (List (BitVec 8))
  /-- an atomic: its operation, type and operands -/
  aop : Option (Nat × Nat × Nat × Nat)
  fmt : Nat
  upd : Bool
  etype : Nat
  deriving DecidableEq, Repr

/-- The instructions and events of the opcode table. -/
inductive Instr where
  -- scalar stream (R65-R72)
  | add (d a b : GReg)
  | sub (d a b : GReg)
  | mul (d a b : GReg)
  | mulhS (d a b : GReg)
  | mulhN (d a b : GReg)
  | divS (d a b : GReg)
  | divN (d a b : GReg)
  | remS (d a b : GReg)
  | remN (d a b : GReg)
  | and (d a b : GReg)
  | or (d a b : GReg)
  | xor (d a b : GReg)
  | andn (d a b : GReg)
  | sll (d a b : GReg)
  | srl (d a b : GReg)
  | sra (d a b : GReg)
  | rol (d a b : GReg)
  | ror (d a b : GReg)
  | minS (d a b : GReg)
  | minN (d a b : GReg)
  | maxS (d a b : GReg)
  | maxN (d a b : GReg)
  | clz (d a : GReg)
  | ctz (d a : GReg)
  | popc (d a : GReg)
  | bilv2 (d a b : GReg)
  | bilv3 (d a b : GReg)
  | adds (d a b : GReg) (k : BitVec 3)
  | sel (d a b : GReg) (c : CFlag)
  | cmp (c : CFlag) (a b : GReg) (f : BitVec 8)
  | addi (d a : GReg) (i : BitVec 14)
  | andi (d a : GReg) (i : BitVec 14)
  | ori (d a : GReg) (i : BitVec 14)
  | xori (d a : GReg) (i : BitVec 14)
  | slli (d a : GReg) (n : BitVec 6)
  | srli (d a : GReg) (n : BitVec 6)
  | srai (d a : GReg) (n : BitVec 6)
  | rori (d a : GReg) (n : BitVec 6)
  | cmpi (cond : BitVec 3) (c : CFlag) (a : GReg) (i : BitVec 14)
  | lil (d : GReg) (i : BitVec 20)
  | lih (d : GReg) (i : BitVec 20)
  | bfxS (d a : GReg) (pos w : BitVec 6)
  | bfxN (d a : GReg) (pos w : BitVec 6)
  | bfi (d a : GReg) (pos w : BitVec 6)
  | jalr (d a : GReg) (i : BitVec 14)
  | fcvt (d a : GReg) (src tgt : BitVec 3) (rnd : BitVec 3) (sat : BitVec 1)
  | fadd (d a b : GReg) (rnd : BitVec 3) (fmt : BitVec 2)
  | fsub (d a b : GReg) (rnd : BitVec 3) (fmt : BitVec 2)
  | fmul (d a b : GReg) (rnd : BitVec 3) (fmt : BitVec 2)
  | ffma (d a b : GReg) (rnd : BitVec 3) (fmt : BitVec 2)
  | fmin (d a b : GReg) (rnd : BitVec 3) (fmt : BitVec 2)
  | fmax (d a b : GReg) (rnd : BitVec 3) (fmt : BitVec 2)
  | fabs (d a : GReg) (rnd : BitVec 3) (fmt : BitVec 2)
  | fneg (d a : GReg) (rnd : BitVec 3) (fmt : BitVec 2)
  | ld (d a : GReg) (oc : BitVec 4) (sc : BitVec 3) (size : BitVec 2) (sx : BitVec 1) (off : BitVec 4)
  | st (d a : GReg) (oc : BitVec 4) (sc : BitVec 3) (size : BitVec 2) (off : BitVec 4)
  | amoAdd (d a : GReg) (oc : BitVec 4) (sc : BitVec 3) (size : BitVec 1)
  | amoAnd (d a : GReg) (oc : BitVec 4) (sc : BitVec 3) (size : BitVec 1)
  | amoOr (d a : GReg) (oc : BitVec 4) (sc : BitVec 3) (size : BitVec 1)
  | amoXor (d a : GReg) (oc : BitVec 4) (sc : BitVec 3) (size : BitVec 1)
  | amoMinS (d a : GReg) (oc : BitVec 4) (sc : BitVec 3) (size : BitVec 1)
  | amoMaxS (d a : GReg) (oc : BitVec 4) (sc : BitVec 3) (size : BitVec 1)
  | amoMinN (d a : GReg) (oc : BitVec 4) (sc : BitVec 3) (size : BitVec 1)
  | amoMaxN (d a : GReg) (oc : BitVec 4) (sc : BitVec 3) (size : BitVec 1)
  | amoSwap (d a : GReg) (oc : BitVec 4) (sc : BitVec 3) (size : BitVec 1)
  | amoCas (d a : GReg) (oc : BitVec 4) (sc : BitVec 3) (size : BitVec 1)
  | brf (c : CFlag) (take sense : BitVec 1) (off : BitVec 18)
  | jal (d : GReg) (off : BitVec 18)
  | lpset (lv ci : BitVec 1) (cnt : BitVec 10) (len : BitVec 14)
  | lpbrk (lv : BitVec 1)
  | fence (sc : BitVec 4) (cmask : BitVec 16)
  | bar (sc : BitVec 4) (cmask : BitVec 16)
  | efenceCopy (sc : BitVec 4) (cmask : BitVec 16)
  | efenceColl (sc : BitVec 4) (cmask : BitVec 16)
  | efenceSolve (sc : BitVec 4) (cmask : BitVec 16)
  | efenceInfuse (sc : BitVec 4) (cmask : BitVec 16)
  | srd (d : GReg) (n : BitVec 12)
  | swr (a : GReg) (n : BitVec 12)
  | trap (code : BitVec 6)
  | eret
  | yield
  | halt
  | drain (path : BitVec 3)
  | tokw (kmask : BitVec 8) (lim : BitVec 6)
  | regacq (n : BitVec 3)
  | regrel
  | forkImm (smask : BitVec 3) (pc : BitVec 18)
  | forkReg (smask : BitVec 3) (a : GReg)
  | rdv (smask : BitVec 3)
  | tnext (c : CFlag)
  | tqput (d a : GReg) (q : BitVec 4)
  | tqwait (a : GReg)
  | tqtest (d a : GReg)
  | gtake (d a : GReg)
  -- vector stream (R80)
  | vadd (f : VArith)
  | vsub (f : VArith)
  | vmul (f : VArith)
  | vfma (f : VArith)
  | vmin (f : VArith)
  | vmax (f : VArith)
  | vabs (f : VArith)
  | vneg (f : VArith)
  | vmulh (f : VArith)
  | vmad (f : VArith)
  | vshl (f : VImm)
  | vshr (f : VImm)
  | vrot (f : VImm)
  | vand (f : VImm)
  | vor (f : VImm)
  | vxor (f : VImm)
  | vandn (f : VImm)
  | vclz (f : VImm)
  | vpopc (f : VImm)
  | vbilvTwo (f : VImm)
  | vbilvThree (f : VImm)
  | vcmp (f : VCmpF)
  | vmlogAnd (f : VImm)
  | vmlogOr (f : VImm)
  | vmlogXor (f : VImm)
  | vmlogAndn (f : VImm)
  | vmlogNot (f : VImm)
  | vmlogMov (f : VImm)
  | vmpop (f : VImm)
  | vsig (f : VImm)
  | vsel (f : VImm)
  | vtos (f : VImm)
  | vmov (f : VImm)
  | vcvt (f : VCvtF)
  | vrcp (f : VArith)
  | vrsqrt (f : VArith)
  | vsqrt (f : VArith)
  | vexp2 (f : VArith)
  | vlog2 (f : VArith)
  | vsinpi (f : VArith)
  | vcospi (f : VArith)
  | vshuf (f : VImm)
  | vrotl (f : VImm)
  | vbcast (f : VImm)
  | vredAdd (f : VImm)
  | vredMin (f : VImm)
  | vredMax (f : VImm)
  | vld (f : VMemF)
  | vldDq (f : VMemF)
  | vldx (f : VMemF)
  | vgath (f : VMemF)
  | vst (f : VMemF)
  | vstDq (f : VMemF)
  | vstx (f : VMemF)
  | vscat (f : VMemF)
  | vatomAdd (f : VMemF)
  | vatomAnd (f : VMemF)
  | vatomOr (f : VMemF)
  | vatomXor (f : VMemF)
  | vatomMinS (f : VMemF)
  | vatomMaxS (f : VMemF)
  | vatomMinN (f : VMemF)
  | vatomMaxN (f : VMemF)
  | vatomSwap (f : VMemF)
  | vatomCas (f : VMemF)
  | vlds (f : VMemF)
  | vcp16 (f : VMemF)
  | tex (f : VGfx)
  | tex3 (f : VGfx)
  | rayq (f : VGfx)
  | pexp (f : VGfx)
  | vBrf (gap : BitVec 4) (wait : BitVec 8) (c : CFlag) (take sense : BitVec 1) (off : BitVec 18)
  | vRdv (gap : BitVec 4) (wait : BitVec 8)
  | vHalt (gap : BitVec 4) (wait : BitVec 8)
  -- matrix stream (R85)
  | mstep (f : MStepF)
  | mnset (f : MNSetF)
  | mngo (f : MStepF)
  | mnstop (gap : BitVec 4) (wait : BitVec 8)
  | mzero (gap : BitVec 4) (wait : BitVec 8) (acc : BitVec 3)
  | mrel (gap : BitVec 4) (wait : BitVec 8) (acc : BitVec 3)
  | mread (f : MRowF)
  | mwrite (f : MRowF)
  | msca (f : MScaF)
  | mcvt (f : MRowF)
  | mproNone (gap : BitVec 4) (wait : BitVec 8) (sig : BitVec 3) (ptab : BitVec 8)
  | mproInt4 (gap : BitVec 4) (wait : BitVec 8) (sig : BitVec 3) (ptab : BitVec 8)
  | mproCb3 (gap : BitVec 4) (wait : BitVec 8) (sig : BitVec 3) (ptab : BitVec 8)
  | mproCb4 (gap : BitVec 4) (wait : BitVec 8) (sig : BitVec 3) (ptab : BitVec 8)
  | mproBmap (gap : BitVec 4) (wait : BitVec 8) (sig : BitVec 3) (ptab : BitVec 8)
  | mBrf (gap : BitVec 4) (wait : BitVec 8) (c : CFlag) (take sense : BitVec 1) (off : BitVec 16)
  | mRdv (gap : BitVec 4) (wait : BitVec 8)
  | mHalt (gap : BitVec 4) (wait : BitVec 8)
  -- copy stream (R83)
  | cpyKh (h : KHdr) (o : KH)
  | cpyKr (h : KHdr) (o : KR)
  | cpysg (h : KHdr) (o : KR)
  | cpymcKh (h : KHdr) (o : KH)
  | cpymcKr (h : KHdr) (o : KR)
  | scatNative (h : KHdr) (o : KR)
  | scatStrain (h : KHdr) (red : BitVec 4) (o : KR)
  | gath (h : KHdr) (o : KR)
  | collAllred (h : KHdr) (red : BitVec 4) (o : KR)
  | collRedsc (h : KHdr) (red : BitVec 4) (o : KR)
  | collGath (h : KHdr) (red : BitVec 4) (o : KR)
  | xfmTr (h : KHdr) (o : KR)
  | xfmCvt (h : KHdr) (o : KR)
  | xfmBdb (h : KHdr) (o : KR)
  | xfmPsum (h : KHdr) (o : KR)
  | jsub (h : KHdr) (o : KR)
  | dqpushKh (h : KHdr) (q : BitVec 2) (o : KH)
  | dqpushKr (h : KHdr) (q : BitVec 2) (o : KR)
  | dqpopKh (h : KHdr) (q : BitVec 2) (o : KH)
  | dqpopKr (h : KHdr) (q : BitVec 2) (o : KR)
  | sqgo (h : KHdr) (o : KR)
  | kBrf (gap : BitVec 4) (wait : BitVec 8) (c : CFlag) (take sense : BitVec 1) (off : BitVec 18)
  | kRdv (gap : BitVec 4) (wait : BitVec 8)
  | kHalt (gap : BitVec 4) (wait : BitVec 8)
  | kTokw (gap : BitVec 4) (wait : BitVec 8) (kmask : BitVec 8) (lim : BitVec 6)
  | kDrain (gap : BitVec 4) (wait : BitVec 8) (path : BitVec 3)
  -- events of the device: `u` names a crew, `id` a thing in flight, `core` a core (R285's compute agents), `die` a die
  | issueGapElapse (u : Nat) (st : Strm)
  | issueStarvationBoost (u : Nat) (st : Strm)
  | yieldRelease (u : Nat)
  | scalarResultComplete (u id : Nat)
  | vectorResultLand (u id : Nat)
  | vectorWordComplete (u id : Nat)
  | graphicsMessageComplete (u id : Nat)
  | blendExport (fe id : Nat)
  | crewRetire (u : Nat)
  | couplingDeadlockDetect (u : Nat)
  | trapEntry (u : Nat)
  | tileStepComplete (u : Nat)
  | nestStepGenerate (u : Nat)
  | tileReadPerform (u : Nat)
  | mrelPerform (u : Nat)
  | operandSliceArrive (u : Nat) (sideB : Bool)
  | infuserTableArrive (u : Nat)
  | copyJobComplete (u id : Nat)
  | copyJobFail (u id : Nat)
  | collectivePerform (u id : Nat)
  | dqEntryArrive (u q : Nat)
  | sideLogReplay (core id : Nat)
  | translationWalk (core asid va kind : Nat)
  | inval (die : Nat)
  | resume (die : Nat)
  | resumeFatal (die : Nat)
  | fill (die : Nat)
  | retire (die : Nat)
  | harvest (die : Nat)
  | migrate (die : Nat)
  | homeWrite (core id : Nat)
  | writePerformed (id : Nat)
  | homeEngineRead (pa : Nat)
  | subscribeFill (core pa fmt : Nat)
  | upgrade (core pa : Nat)
  | subscriptionRelease (core pa : Nat)
  | invalidationReceive (agent : Nat)
  | updateReceive (agent : Nat)
  | fabricInvalidate (die region off len : Nat)
  | fabricUpdate (die region off : Nat) (bytes : List Byte)
  | sharerAckTimeout (die pkg region : Nat)
  | linkLoss (die pkg : Nat)
  | leaseExpire (core pa : Nat)
  | inboundFabricRequest (die port : Nat) (arrival : Option FabArrival)
  | targetTimeout (die port : Nat)
  | initiatorTimeout (die id : Nat)
  | poisonedCompletion (die id : Nat)
  | launch (die q : Nat)
  | operatorChain (die q : Nat)
  | operatorSwap (id : Nat)
  | drawStream (die q : Nat)
  | waitCommand (die q : Nat)
  | waitCommandPoll (die q : Nat)
  | launchEnd (id : Nat)
  | taskLaunch (die q : Nat)
  | jobCardStart (die serial : Nat)
  | bind (core slot : Nat) (r : BindRec)
  | preempt (core slot : Nat)
  | preemptHalt (u : Nat)
  | pendingCompletionArrive (u id : Nat)
  | contextKill (asid : Nat)
  | killComplete (asid : Nat)
  | solverJobStart (seq : Nat)
  | solverStageComplete (seq : Nat)
  | primitiveBin (fe : Nat)
  | passFinal (die q : Nat)
  | leadAllowanceRelease (die : Nat)
  | hotnessSnapshot (die : Nat) (halve : Bool)
  | mcSplitWrite (die val : Nat)
  | splitChangeComplete (die : Nat)
  | eqHeadWrite (die val : Nat)
  | eventRecordPost (die : Nat)
  | registerWrite (die addr val : Nat) (byFirmware : Bool)
  | powerOnBoot (image : Nat)
  | getVersion (req : Nat)
  | getCapabilities (req : Nat)
  | negotiateAlgorithms (req : Nat)
  | getDigests (req : Nat)
  | getCertificate (req : Nat)
  | challenge (req : Nat)
  | getMeasurements (req : Nat)
  | leaderRenew
  | leaderStepDown
  | leadershipTakeover
  | trainingComplete (link : Nat)
  | unitError (die kind unit : Nat)
  | errorRetryResult (die : Nat) (ok : Bool)
  | tchiefSensorRead (sensor : Nat)
  | tchiefPowerRequest (p : Nat)
  | tchiefFwUpdate (image : Nat)
  | tchiefReset
  | powerRequestWrite (p : Nat)
  | profileChange
  | unassignedOpcode (st : Strm) (w : Nat)
  | offGridFetch (st : Strm)
  | exactFill (agent pa : Nat)
  | writeOwnershipRequest (agent pa : Nat)
  | scanoutRead (head addr len : Nat)
  | pcieInboundRequest (port addr len : Nat) (wr : Option (List Byte))
  | powerLoss
  | nvmeReadComplete (die : Nat) (ok : Bool) (bytes : List Byte)
  deriving DecidableEq, Repr

end Sys2Proof
end

