-- ==== Sys2Proof/Machine/State.lean ====
section
/-!
DEFINITION. The state of the package as plain data: crews, cores, dies, memories, directory, work in progress, and the schedule
that says what moves next. INVENTORY.md lists the spec's rule and the reset value of every piece.
-/

namespace Sys2Proof.Machine

/-- Why the machine stops: nothing raises a fault, since everything the spec describes is a next state. -/
inductive Fault where
  deriving DecidableEq, Repr

/-- Why an instruction has no meaning. -/
inductive Refusal where
  /-- Raised by an arm of `exec` whose instruction has no meaning yet. Safe: the run stops. -/
  | notModelled (mnemonic : String)
  deriving DecidableEq, Repr

/-! ## Crews -/

/-- The states of a stream (R20); `idle` is idle-done. -/
inductive Status where
  | idle | running | blocked
  deriving DecidableEq, Repr

/-- What the next word of a blocked stream waits on (R20, R25, R28). -/
inductive Wait where
  | nothing
  | flag (c : CFlag)
  | shared (g : GReg)
  | tileFull (t : BitVec 3)
  | tileEmpty (t : BitVec 3)
  /-- entries a word of a data queue needs; `push` where it needs room for them -/
  | queue (q n : Nat) (push : Bool)
  | token (mask : BitVec 8) (lim : Nat)
  | tokenLimit
  | rdv (mask : BitVec 3)
  | retire
  | pool
  | barrier (scope target : Nat)
  | performed
  | translation (va kind : Nat)
  | sideLog
  | result
  | array
  | port
  | fence
  | other
  deriving DecidableEq, Repr

/-- A trap condition found after a word completed (R256): its cause code and its tval. -/
structure Pend where
  code : BitVec 9
  tval : Word
  deriving DecidableEq, Repr

/-- A stream of a crew. `mark` is the count of identities at which a waiting word first waited: what was issued before it. -/
structure Stream where
  status : Status
  pc : Pc
  gap : Nat
  boosted : Bool
  /-- the cycle of its last attempt to issue a word (R35) -/
  tried : Nat
  wait : Wait
  mark : Option Nat
  pend : Option Pend
  kept : List (Pend × Option Tok)
  deriving DecidableEq, Repr

/-- A trap that waits for the results in flight (R254): stream, cause, tval, the PC that the raising rule gives, and whether it is
the stream's pending trap (R256). -/
structure TrapReq where
  strm : Strm
  code : BitVec 9
  tval : Word
  epc : Pc
  pended : Bool
  deriving DecidableEq, Repr

/-- A physical space: global memory, one core's scratchpad, one die's caddy (R268). -/
inductive Space where
  | phys
  | spad (core : Nat)
  | caddy (die : Nat)
  deriving DecidableEq, Repr

/-- The attributes of a page that an access keeps after translation (R329). -/
structure Att where
  grain : Nat
  etype : Nat
  mtype : Nat
  bdb : Bool
  deriving DecidableEq, Repr

/-- One element or block a memory word touches; `key` is register * 32 + lane, `nib` the half of a byte for s4 (R156). -/
structure Elem where
  key : Nat
  space : Space
  va : Nat
  addr : Nat
  len : Nat
  nib : Option Bool
  att : Att
  /-- translated: `addr` is physical (always so off path 0) -/
  tr : Bool
  data : Lane
  data2 : Lane
  /-- second place of a VCP16: the destination -/
  space2 : Space
  addr2 : Nat
  deriving DecidableEq, Repr

/-- A scalar result in flight (R96). -/
inductive SKind where
  | value (w : Word)
  | load (e : Elem) (sx : Bool) (oc sc : Nat)
  | atomic (e : Elem) (sx : Bool) (oc sc : Nat) (aop ty x y : Nat) (old : Option Nat)
  deriving DecidableEq, Repr

/-- A scalar destination waiting for its result (R96). -/
structure SRes where
  id : Nat
  d : GReg
  kind : SKind
  deriving DecidableEq, Repr

/-- A vector result in its window (R88): what it writes when it lands; `regs` and `dmasks` are undefined until then. -/
structure VWin where
  id : Nat
  closes : Nat
  lanes : List (Nat × Lane)
  masks : List (Nat × Lane)
  shared : Option (GReg × Word)
  flag : Option (CFlag × Bool)
  flags : BitVec 5
  pc : Pc
  regs : List Nat
  dmasks : List Nat
  /-- the token of a data-queue load (R155) -/
  tok : Option Tok
  /-- sr.fcsr.en when the word issued (R48), and whether it can raise a flag (R136) -/
  en : BitVec 5
  mayFlag : Bool
  deriving DecidableEq, Repr

/-- What a token-completed vector word does (R155-R165). -/
inductive VKind where
  | load | store | atomic (aop : Nat) (nr : Bool) | subscribe | copy16
  | message (ins : Instr)
  deriving DecidableEq, Repr

/-- A vector word that completes through its token (R80). `olds` gathers the old values of atomics. -/
structure VWord where
  id : Nat
  kind : VKind
  tok : Tok
  ty : Nat
  oc : Nat
  sc : Nat
  elems : List Elem
  zeros : List Nat
  regs : List Nat
  closes : Option Nat
  olds : List (Nat × Lane)
  flags : BitVec 5
  pc : Pc
  poisoned : Option (Nat × Nat)
  /-- graphics messages: the sources read at issue, by active lane -/
  args : List (Nat × List Lane)
  /-- sr.fcsr.en when the word issued (R48), and whether it can raise a flag (R136) -/
  en : BitVec 5
  mayFlag : Bool
  deriving DecidableEq, Repr

/-- One level of a nest table (R175). -/
structure NestLevel where
  count : Nat
  ar : BitVec 16
  ac : BitVec 16
  br : BitVec 16
  bc : BitVec 16
  ts : BitVec 3
  deriving DecidableEq, Repr

/-- A running nest (R176): template, PC of the MNGO, the point of its next step or of the one in the array, and the type codes of
its operands as MNGO resolved them. -/
structure Nest where
  tmpl : MStepF
  pc : Pc
  pt : List Nat
  fa : Nat
  fb : Nat
  deriving DecidableEq, Repr

/-- What the array is doing (R167, R180). -/
inductive ArrKind where
  | step (f : MStepF) (fa fb : Nat) (nest : Bool)
  | zero (t : BitVec 3)
  | write (t : BitVec 3) (row : Nat) (vals : List Lane)
  | scale (t src : BitVec 3) (sa sb : List Lane)
  deriving DecidableEq, Repr

/-- The step or word in the array, with the operand slices that have arrived in the two FIFOs (R401); key is k * 128 + index. The
aligned words that its fetch has read stand by side, path and word number (R174). `late` names the locked registers that a token word or a
parked tile read was to write when the lock was taken (R181). -/
structure ArrayOp where
  id : Nat
  kind : ArrKind
  pc : Pc
  fifoA : SMap Lane
  fifoB : SMap Lane
  gotA : Nat
  gotB : Nat
  flags : BitVec 5
  locks : List Nat
  held : Option (Nat × Nat)
  /-- sr.fcsr.en when the step or word issued (R48) -/
  en : BitVec 5
  words : SMap Nat
  late : List Nat
  deriving DecidableEq, Repr

/-- An entry of the tile-read port (R167): MREAD, MCVT or MREL with its rounding mode. -/
structure PortEntry where
  id : Nat
  ins : Instr
  rm : BitVec 2
  b8d0 : BitVec 5
  b8d1 : BitVec 5
  deriving DecidableEq, Repr

/-- The load of an MPRO's first table that has not arrived (R184): its prologue table, and the token it lowers. -/
structure ProLoad where
  id : Nat
  ptab : Nat
  tok : Tok
  oc : Nat
  sc : Nat
  deriving DecidableEq, Repr

/-- A copy-engine job (R194): its word, the shared scalars and sr.fcsr read at issue, the number of a COLL among its class and
extent (R206), the bytes a DQPOP has popped; the class and scope of the list elements it reads (R245). What it has done before a page
held it stays done (R195, R197): what its reads returned, in order, how many of its writes are performed, and the flags raised. -/
structure Job where
  id : Nat
  ins : Instr
  a : Word
  b : Word
  c : Word
  g62 : Word
  g63 : Word
  seq : Nat
  oc : Nat
  ocList : Nat
  scList : Nat
  fcsr : Word
  data : List Byte
  reads : List (List Byte)
  wrote : Nat
  flags : BitVec 5
  held : Option (Nat × Nat)
  deriving DecidableEq, Repr

/-- An entry of a data queue (R403): its bytes once they have arrived, and the job that fills it. -/
structure DqEntry where
  bytes : Option (List Byte)
  job : Nat
  deriving DecidableEq, Repr

/-- An entry of the handle table (R344); `ok` is false for an entry that names no entry. -/
structure Handle where
  base : Nat
  pitch : Nat
  rows : Nat
  cols : Nat
  type : Nat
  path : Nat
  ok : Bool
  deriving DecidableEq, Repr

/-- An entry of the prologue table list (R355). -/
structure PTab where
  tbase : Word
  kind : Nat
  gsz : Nat
  tpr : Nat
  vbase : Word
  vpitch : Nat
  ok : Bool
  deriving DecidableEq, Repr

/-- The tables of a launch as its crews see them (R234-R237, R344, R355, R380). -/
structure Kernel where
  desc : Nat
  npu : Bool
  ae : Bool
  bar : Nat
  oc : Nat
  sc : Nat
  kind : Nat
  base : List Word
  len : List Nat
  entry : Pc
  kentry : Pc
  levels : List (Nat × Nat)
  pool : SMap Lane
  handles : List Handle
  ptabs : List PTab
  /-- descriptor and sampler slots of the graphics slot table (R380) -/
  gfx : List (Nat × List Byte)
  samplers : List (Nat × Nat)
  deriving DecidableEq, Repr

/-- Where a crew is bound (R245). -/
structure Place where
  npu : Bool
  die : Nat
  core : Nat
  slot : Nat
  deriving DecidableEq, Repr

/-- The life of a crew (R23, R258, R351, R352). -/
inductive Life where
  | none | waiting | running | halting | preempted | stopped | retired | killed
  deriving DecidableEq, Repr

/-- A primitive after snapping (R388): index, draw, vertices as 24.8 fixed point and f32 depths, oriented. -/
structure Prim where
  prim : Nat
  draw : Nat
  xs : List Int
  ys : List Int
  zs : List Lane
  deriving DecidableEq, Repr

/-- The identity the raster front end gives a crew (R387, R391): the pass by die, owning die and queue; its place in primitive
order; the primitive, block origin, covered samples per lane and those that have passed an early test (R390). -/
structure RasterId where
  die : Nat
  own : Nat
  q : Nat
  seq : Nat
  late : Bool
  tri : Prim
  x0 : Nat
  y0 : Nat
  cover : List Nat
  /-- empty until the early tests are done -/
  pass : List Nat
  /-- the raster front end, by its cluster (R15, R33) -/
  fe : Nat
  deriving DecidableEq, Repr

/-- A crew. -/
structure Crew where
  uid : Nat
  life : Life
  place : Place
  bindRec : BindRec
  launch : Nat
  q : Nat
  home : Place
  kern : Kernel
  s : Stream
  v : Stream
  m : Stream
  k : Stream
  /-- scalar registers and the full bits of g48-g63 (R238) -/
  g : SMap Word
  gFull : SMap Bool
  cVal : SMap Bool
  cFull : SMap Bool
  /-- vector lanes, key register * 32 + lane (R239) -/
  vreg : SMap Lane
  mask : SMap Lane
  /-- tile elements, key tile * 16384 + row * 128 + column (R242) -/
  tile : SMap Lane
  tFull : SMap Bool
  tok : SMap Nat
  dq : List (List DqEntry)
  fcsr : Word
  ocdef : Word
  ls : SMap Word
  le : SMap Word
  lc : SMap Word
  ti : SMap Word
  epc : SMap Word
  cause : Word
  tval : Word
  act : Bool
  held : BitVec 4
  ext : Nat
  yielded : Bool
  trap : Option TrapReq
  /-- does the scalar stream's pending trap, found before the handler was entered, wait for ERET (R256)? -/
  sHeld : Bool
  /-- the cause a crew without a handler is stopped for (R255) -/
  stop : Option Pend
  sres : List SRes
  vwin : List VWin
  vwords : List VWord
  vclock : Nat
  /-- registers and masks written inside an open window: undefined until a later write (R89) -/
  spoilV : List Nat
  spoilM : List Nat
  poisonV : SMap Nat
  poisonG : SMap Nat
  /-- where a poisoned register's access went, by poison number -/
  poisonAddr : SMap Nat
  shadow : List NestLevel
  active : List NestLevel
  nest : Option Nest
  array : Option ArrayOp
  port : List PortEntry
  pro : Nat
  ptab : Nat
  proLoads : List ProLoad
  /-- the table to be loaded again before a step with a prologue enters the array (R187, R362) -/
  proReload : Option Nat
  jobs : List Job
  /-- barrier arrivals by scope and COLL counts by class and extent (R119, R206) -/
  arrived : SMap Nat
  colls : SMap Nat
  /-- BARs that have arrived and not completed: PC, scope, count of arrivals to wait for (R119, R120) -/
  bars : List (Pc × Nat × Nat)
  /-- buffered stores this crew's reads returned: 16 * scope + class of the read, identity of the store (R301, R305) -/
  seen : List (Nat × Nat)
  raster : Option RasterId
  sealed : Bool
  hasImage : Bool
  /-- pre-empted by the firmware of itself, which binds it elsewhere (R397, R429) -/
  evicted : Bool
  deriving DecidableEq, Repr

/-! ## Cores -/

/-- A valid translation kept by a core (R333). -/
structure TlbEntry where
  asid : Nat
  global : Bool
  va : Nat
  size : Nat
  pa : Nat
  r : Bool
  w : Bool
  x : Bool
  att : Att
  deriving DecidableEq, Repr

/-- A pointer kept by a core's walk cache (R333): the table at a level that serves an address range under an ASID. -/
structure PtrEntry where
  asid : Nat
  level : Nat
  va : Nat
  table : Nat
  deriving DecidableEq, Repr

/-- What a write does at its home (R109, R158). -/
inductive WOp where
  | store
  | atomic (aop ty : Nat) (x y : Nat)
  /-- a request for write ownership that brings no data (R290) -/
  | own
  deriving DecidableEq, Repr

/-- A path-0 write on its way home (R301); `sent` once it has arrived there and waits for acknowledgements (R292); `takes` where
the writer takes ownership when it is performed (R290). -/
structure Write where
  id : Nat
  core : Nat
  uid : Nat
  strm : Strm
  word : Nat
  key : Nat
  asid : Nat
  oc : Nat
  sc : Nat
  va : Nat
  pa : Nat
  bytes : List Byte
  nib : Option Bool
  op : WOp
  att : Att
  sent : Bool
  takes : Bool
  deriving DecidableEq, Repr

/-- An entry of the side log (R336). -/
structure LogEntry where
  w : Write
  page : Nat
  released : Bool
  deriving DecidableEq, Repr

/-- The forms a cache may hold a grain in (R284); `lease` lines have no directory entry (R307). -/
inductive LineState where
  | mod | own | excl | shrd | sub (fmt : Nat) | lease (filled : Nat)
  deriving DecidableEq, Repr

/-- A grain held by a cache: its bytes, or its elements' patterns where it is subscribed (R288, R289); `news` names the writes whose
updates it has taken, which may still be unperformed (R301). -/
structure Line where
  agent : Nat
  pa : Nat
  len : Nat
  etype : Nat
  state : LineState
  bytes : List Byte
  pats : List Lane
  news : List Nat
  deriving DecidableEq, Repr

/-- A table held by an Infuser buffer (R358): crew, prologue table, index, and the bytes once they have arrived; the load's identity,
its class and scope (R245). -/
structure InfBuf where
  id : Nat
  oc : Nat
  sc : Nat
  uid : Nat
  ptab : Nat
  t : Nat
  bytes : Option (List Byte)
  deriving DecidableEq, Repr

/-- One entry of the slot table (R351): state 0 free, 1 waiting, 2 running, 3 halting. -/
structure Slot where
  state : Nat
  refused : Nat
  uid : Nat
  /-- the bind record of the entry, as it was accepted last (R351) -/
  record : BindRec
  deriving DecidableEq, Repr

/-- A graphics or NPU core. -/
structure Core where
  carve : Nat
  subUpd : Bool
  lease : Nat
  istall : BitVec 48
  ostall : BitVec 48
  dloss : BitVec 48
  poolFree : Nat
  poolWait : List (Nat × Nat)
  spadAsid : Option Nat
  tlb : List TlbEntry
  walks : List PtrEntry
  log : List LogEntry
  inf : List InfBuf
  slots : SMap Slot
  /-- grains that a home-write grant covers: until a later grant every write to them goes to home (R290) -/
  homeGrants : List Nat
  deriving DecidableEq, Repr

/-! ## Dies -/

/-- A command queue (R346, R380). -/
structure CmdQueue where
  base : Word
  ctl : Word
  ctlNext : Option Word
  tail : BitVec 16
  head : BitVec 16
  gs : Word
  busy : Bool
  waiting : Option (Nat × Nat)
  /-- its command is taken, and what it names is still read -/
  reading : Bool
  /-- the command that it runs, as it was taken (R347) -/
  cmd : List Byte
  /-- its wait command, or one whose tables were still read, was killed (R262) -/
  killed : Bool
  deriving DecidableEq, Repr

/-- A task queue (R406). -/
structure TaskQueue where
  base : Word
  ctl : Word
  set0 : BitVec 128
  set1 : BitVec 128
  image : Word
  head : BitVec 16
  tail : BitVec 16
  busy : Bool
  /-- the descriptor's address and the fence's serial of a task that is taken and whose descriptors are still read -/
  reading : Option (Nat × Nat)
  deriving DecidableEq, Repr

/-- A fence (R409): its serial, its ASID, the launch whose crew made it, and its state: 0 its task has not ended, 1 signalled, 2 failed, 3 its job was killed and it
signals no more (R375). -/
structure Fence where
  serial : Nat
  asid : Nat
  launch : Nat
  state : Nat
  deriving DecidableEq, Repr

/-- A record waiting for the event queue or held by its poster (R410). -/
structure Event where
  type : Nat
  body : List Byte
  deriving DecidableEq, Repr

/-- An entry of the firmware's event log: a refused bind (R352), an error of a unit (R429), a fuse advance past the row (R423), an
inbound request that was answered with a poisoned completion (R264, R411), a sharer package dropped (R297). -/
inductive LogRec where
  | bindRefused (reason asid : Nat)
  | unitError (kind unit : Nat) (lasting : Bool)
  | fuseLimit
  | inboundFault (asid va : Nat) (late : Bool)
  | sharerDropped (pkg region : Nat)
  deriving DecidableEq, Repr

/-- The SPDM requests served (R426). -/
inductive SpdmKind where
  | version | capabilities | algorithms | digests | certificate | challenge | measurements
  deriving DecidableEq, Repr

/-- An image in the measurement log (R425): the firmware image, or the bytes of a kernel image, whose digest the log takes. -/
inductive Measured where
  | firmware (image : Nat)
  | kernel (image : List Byte)
  deriving DecidableEq, Repr

/-- A signed SPDM response: the request it answers, and the measured images by index where it carries them (R426).
DESIGN CHOICE (log 16). -/
structure SpdmAnswer where
  kind : SpdmKind
  req : Nat
  blocks : List Measured
  signature : Nat
  deriving DecidableEq, Repr

/-- A fault outstanding on a die (R335): page, ASID, access kind, reason, and the agent concerned. -/
structure FaultOut where
  page : Nat
  asid : Nat
  kind : Nat
  reason : Nat
  /-- the accesses of the front end, the firmware and the sequencers that hold on it, by their keys -/
  holders : List Nat
  deriving DecidableEq, Repr

/-- Who makes an access by virtual address outside the crews: its die and ASID, a key that tells it from the others of its die, and the
agent that a fault record of it names, where the spec gives one (R433). -/
structure Asker where
  die : Nat
  asid : Nat
  key : Nat
  agent : Option Nat
  deriving DecidableEq, Repr

/-- An accepted job card (R354). -/
structure Card where
  serial : Nat
  asid : Nat
  kind : Nat
  a : Nat
  b : Word
  reads : List (Nat × Nat)
  writes : List (Nat × Nat)
  preds : List Nat
  started : Bool
  /-- its launch is taken, and what it names is still read (R346) -/
  taken : Bool
  uid : Nat
  /-- the cluster that runs it (R433) -/
  cluster : Nat
  /-- for a scatter-gather list, what its reads returned and how many of its writes are performed (R195) -/
  got : List (List Byte)
  wrote : Nat
  /-- the page it is held on, and the access kind -/
  held : Option (Nat × Nat)
  deriving DecidableEq, Repr

/-- A controller descriptor in progress (R338). -/
structure CtlCmd where
  op : Nat
  flags : Nat
  asid : Nat
  count : Nat
  va : Nat
  a : Nat
  b : Nat
  c : Nat
  d : Nat
  deriving DecidableEq, Repr

/-- An inbound fabric request (R411). A read says which slot the proxy that reads wants, and its page's element type (R295). -/
structure FabReq where
  id : Nat
  stream : Nat
  oc : Nat
  asid : Nat
  pkg : Nat
  va : Nat
  len : Nat
  data : Option (List Byte)
  /-- an atomic: its operation, type and operands -/
  aop : Option (Nat × Nat × Nat × Nat)
  fmt : Nat
  upd : Bool
  etype : Nat
  arrived : Nat
  deriving DecidableEq, Repr

/-- An outbound fabric request (R411): the crew's word it serves, the address, when it left, and whether it stores. -/
structure FabOut where
  id : Nat
  uid : Nat
  word : Nat
  asid : Nat
  pkg : Nat
  addr : Nat
  store : Bool
  left : Nat
  deriving DecidableEq, Repr

/-- A region of another package's memory held through a proxy (R295): the format and upd bit it has asked for, and its copy. -/
structure Region where
  pkg : Nat
  region : Nat
  fmt : Nat
  upd : Bool
  bytes : List Byte
  deriving DecidableEq, Repr

/-- A package that shares a region of this package's memory (R295): whether it has one of the region's 8 slots, and what the slot holds. -/
structure Sharer where
  region : Nat
  pkg : Nat
  slot : Bool
  fmt : Nat
  upd : Bool
  etype : Nat
  deriving DecidableEq, Repr

/-- A die. -/
structure Die where
  atab : Word
  cqBase : Word
  cqSize : Nat
  tcTail : BitVec 16
  tcHead : BitVec 16
  wrec : Word
  tcRun : Option CtlCmd
  /-- a descriptor that has acted and waits for its end; for an INVAL, the entries it dropped and the count of identities then (R338);
  for a MIGRATE, the address of its old frames (R342) -/
  tcActed : Bool
  tcDrop : List TlbEntry
  tcMark : Nat
  eqBase : Word
  eqCtl : Word
  eqHead : BitVec 16
  eqTail : BitVec 16
  eqPhase : Bool
  eqSeq : BitVec 32
  events : List Event
  fxTmo : BitVec 20
  fxItmo : BitVec 21
  fxPst : Bool
  fxPkg : BitVec 7
  laAllow : BitVec 4
  laPhase : BitVec 32
  laStall : BitVec 48
  hcBase : Word
  hcHalve : Bool
  /-- `hc.cmd.go`: a snapshot waits for the homes of its array (R420) -/
  hcGo : Bool
  hot : SMap Nat
  erTrans : BitVec 32
  erLast : BitVec 16
  cways : Nat
  splitBusy : Option Nat
  splitRefused : Bool
  qos : List Word
  windows : List (Nat × Nat × Nat)
  cmdQueues : SMap CmdQueue
  /-- the queue whose work the front end took last (R346); DESIGN CHOICE at reset (log 11) -/
  served : Nat
  /-- interrupts raised to the host kernel (R347, R410) -/
  irqs : Nat
  taskQueues : SMap TaskQueue
  fences : SMap Fence
  nextSerial : BitVec 32
  faults : List FaultOut
  /-- faults declared fatal that such an access has still to meet (R337) -/
  doomed : List FaultOut
  cards : List Card
  retiring : List Nat
  subInv : SMap (BitVec 48)
  subUpd : SMap (BitVec 48)
  subSupp : SMap (BitVec 48)
  subOvf : SMap (BitVec 48)
  fabIn : List (Nat × FabReq)
  fabOut : List FabOut
  proxies : List Region
  regions : List Sharer
  fenced : List (Nat × Nat)
  /-- units that retry after an error, by kind and number (R429) -/
  retrying : List (Nat × Nat)
  log : List LogRec
  deriving DecidableEq, Repr

/-! ## Coherence -/

/-- A slot of a directory entry (R285). -/
structure DirSlot where
  agent : Nat
  fmt : Nat
  upd : Bool
  deriving DecidableEq, Repr

/-- A directory entry (R284-R286, R434): grain length, slots, owner, coarse vector in overflow, recorded element type, and the
write whose acknowledgements are outstanding (R292). -/
structure DirEntry where
  len : Nat
  slots : List DirSlot
  owner : Option Nat
  coarse : Option (List Nat)
  etype : Nat
  busy : Option Nat
  deriving DecidableEq, Repr

/-- A message from a home to an agent (R291, R292), or to the proxy of another package with the byte range written (R296); `sent` is the
cycle it left (R297). -/
structure Msg where
  agent : Nat
  pa : Nat
  write : Nat
  update : Bool
  off : Nat
  len : Nat
  bytes : List Byte
  sent : Nat
  deriving DecidableEq, Repr

/-! ## Work in progress -/

/-- Who started a launch, and so where its end is told (R346, R348, R373, R407, R354). -/
inductive Source where
  | queue (die q : Nat)
  | task (die q serial : Nat)
  | chain (id : Nat)
  | card (die serial : Nat)
  | draw (die q : Nat)
  deriving DecidableEq, Repr

/-- A participant of a launch (R119, R205): the crew, its position, its first placement, its spatial indices, its barrier and
collective counts. -/
structure Part where
  uid : Nat
  q : Nat
  place : Place
  idx : List Nat
  arrived : SMap Nat
  colls : SMap Nat
  retired : Bool
  deriving DecidableEq, Repr

/-- A launch (R347): what its crews are bound from, and how far it has come. -/
structure Launch where
  id : Nat
  src : Source
  die : Nat
  asid : Nat
  prio : Nat
  flags : Nat
  handler : Nat
  set0 : Nat
  set1 : Nat
  image : Nat
  crec : Nat
  a : Nat
  kern : Kernel
  total : Nat
  bound : Nat
  retired : Nat
  killed : Bool
  /-- a task of its crews has failed (R350) -/
  failed : Bool
  /-- the dies on which its crews have all retired (R419) -/
  phased : List Nat
  parts : List Part
  /-- the L1s its crews have used (R308) -/
  agents : List Nat
  deriving DecidableEq, Repr

/-- The operator bank (R349). -/
structure Bank where
  desc : Word
  hdl : Word
  set0 : BitVec 128
  set1 : BitVec 128
  image : Word
  pool : SMap Lane
  pmask : SMap Bool
  deriving DecidableEq, Repr

/-- An operator chain in progress (R350). -/
structure Chain where
  id : Nat
  die : Nat
  q : Nat
  solver : Option Nat
  asid : Nat
  prio : Nat
  flags : Nat
  crec : Nat
  a : Nat
  /-- the next record; none behind the last -/
  next : Option Nat
  active : Bank
  shadow : Bank
  current : Option Nat
  crews : Nat
  ready : Bool
  /-- its next operator is taken, and what it names is still read (R346) -/
  taken : Bool
  /-- its next operator is held by the lead allowance (R419) -/
  held : Bool
  killed : Bool
  deriving DecidableEq, Repr

/-- A job of a solver sequencer (R367, R371-R375). -/
structure SolverJob where
  serial : Nat
  die : Nat
  asid : Nat
  desc : Nat
  uid : Nat
  deriving DecidableEq, Repr

/-- The running job of a sequencer: the descriptor and tables read at its start (R371), the round's stage and batch. -/
structure SolverRun where
  job : SolverJob
  dbytes : List Byte
  coef : List Byte
  ftab : List Byte
  stage : Nat
  batch : List Nat
  /-- the samples of the batch area's rows, in order -/
  rows : List Nat
  /-- ranges that belong to two samples, or to a sample and the batch area (R370) -/
  clash : List (Nat × Nat)
  rounds : Nat
  chain : Nat
  /-- the status its chain ended with (R373) -/
  ended : Option Nat
  /-- what the sequencer does next: 0 build the stage's batch, 1 wait for the chain, 2 wait for its last writes to be acknowledged -/
  phase : Nat
  /-- how the job ends, once that is settled: status, fsamp and, where it ran, rounds (R375) -/
  fin : Option (Nat × Nat × Option Nat)
  deriving DecidableEq, Repr

/-- A solver sequencer (R211, R375). -/
structure Sequencer where
  run : Option SolverRun
  queue : List SolverJob
  deriving DecidableEq, Repr

/-- An export of a lane of a pixel crew on its way to the blend unit (R165, R390). -/
structure Export where
  id : Nat
  /-- the PEXP it comes from -/
  word : Nat
  rid : RasterId
  lane : Nat
  target : Nat
  rgba : List Lane
  depth : Option Lane
  deriving DecidableEq, Repr

/-- A draw stream on a die (R386, R394, R396): the command it comes from, where the stream stands, the pass in progress with its
target and attachment records, the draw in progress, the bins and the bin that is rendered. -/
structure Pass where
  die : Nat
  own : Nat
  q : Nat
  asid : Nat
  prio : Nat
  flags : Nat
  handler : Nat
  set0 : Nat
  set1 : Nat
  image : Nat
  crec : Nat
  a : Nat
  gfx : List (Nat × List Byte)
  samplers : List (Nat × Nat)
  at_ : Nat
  /-- 0 IDLE, 1 BIN, 2 PARTIAL, 3 FINAL (R394); 4 the stream has ended on this die; 5 it was killed (R262) or has failed -/
  state : Nat
  /-- the reason a stream that has failed ends with (R348) -/
  fail : Option Nat
  held : Bool
  target : List Byte
  attach : List (List Byte)
  draw : List Byte
  drawNo : Nat
  vlaunch : Option Nat
  /-- pixel kernel and late-depth bit of each draw of the pass -/
  kerns : List (Nat × Kernel × Bool)
  nextPrim : Nat
  /-- bin index and entries, each with its place in primitive order -/
  bins : List (Nat × List (Nat × Prim))
  stored : List Nat
  /-- bins a FINAL has dealt with -/
  ended : Nat
  /-- the tray's blocks of each bin; blocks that are free again; how many have been taken at least once (R393) -/
  blocks : List (Nat × List Nat)
  freed : List Nat
  taken : Nat
  /-- the primitive whose blocks get their crews, and the front end that creates them (R392) -/
  front : Option (Nat × Nat)
  nextSeq : Nat
  cur : Option Nat
  todo : List RasterId
  crews : List Nat
  /-- the crews the stream has had, and the L1s they used (R308) -/
  past : List (Nat × Nat)
  exports : List Export
  /-- late tests done: place in primitive order, block origin, lane, samples that passed -/
  tests : List (Nat × Nat × Nat × Nat × Nat)
  /-- crews retired -/
  count : Nat
  deriving DecidableEq, Repr

/-- A kill in progress (R262, R263). -/
structure Kill where
  asid : Nat
  crews : Nat
  jobs : Nat
  entries : Nat
  writes : Nat
  deriving DecidableEq, Repr

/-- A scheduled action: the next word of a stream; an input from outside, as the event it is; or an event of the device itself, named
as in `Instr`. -/
inductive Act where
  | issue (u : Nat) (st : Strm)
  | input (i : Instr)
  | issueGapElapse (u : Nat) (st : Strm)
  | issueStarvationBoost (u : Nat) (st : Strm)
  | yieldRelease (u : Nat)
  | scalarResultComplete (u id : Nat)
  | vectorResultLand (u id : Nat)
  | vectorWordComplete (u id : Nat)
  | graphicsMessageComplete (u id : Nat)
  | blendExport (fe id : Nat)
  | crewRetire (u : Nat)
  | couplingDeadlockDetect (u : Nat)
  | trapEntry (u : Nat)
  | tileStepComplete (u : Nat)
  | nestStepGenerate (u : Nat)
  | tileReadPerform (u : Nat)
  | mrelPerform (u : Nat)
  | operandSliceArrive (u : Nat) (sideB : Bool)
  | infuserTableArrive (u : Nat)
  | copyJobComplete (u id : Nat)
  | copyJobFail (u id : Nat)
  | collectivePerform (u id : Nat)
  | dqEntryArrive (u q : Nat)
  | sideLogReplay (core id : Nat)
  | translationWalk (core asid va kind : Nat)
  | inval (die : Nat)
  | resume (die : Nat)
  | resumeFatal (die : Nat)
  | fill (die : Nat)
  | retire (die : Nat)
  | harvest (die : Nat)
  | migrate (die : Nat)
  | homeWrite (core id : Nat)
  | writePerformed (id : Nat)
  | subscribeFill (core pa fmt : Nat)
  | upgrade (core pa : Nat)
  | invalidationReceive (agent : Nat)
  | updateReceive (agent : Nat)
  | leaseExpire (core pa : Nat)
  | inboundFabricRequest (die port : Nat) (arrival : Option FabArrival)
  | targetTimeout (die port : Nat)
  | initiatorTimeout (die id : Nat)
  | launch (die q : Nat)
  | operatorChain (die q : Nat)
  | operatorSwap (id : Nat)
  | drawStream (die q : Nat)
  | waitCommand (die q : Nat)
  | waitCommandPoll (die q : Nat)
  | launchEnd (id : Nat)
  | taskLaunch (die q : Nat)
  | jobCardStart (die serial : Nat)
  | bind (core slot : Nat) (r : BindRec)
  | preemptHalt (u : Nat)
  | pendingCompletionArrive (u id : Nat)
  | killComplete (asid : Nat)
  | solverJobStart (seq : Nat)
  | solverStageComplete (seq : Nat)
  | primitiveBin (fe : Nat)
  | passFinal (die q : Nat)
  | leadAllowanceRelease (die : Nat)
  | splitChangeComplete (die : Nat)
  | eventRecordPost (die : Nat)
  | leaderRenew
  | leaderStepDown
  | leadershipTakeover
  | profileChange
  | exactFill (agent pa : Nat)
  /-- the firmware pre-empts the crew of a slot to bind another there (R397) -/
  | evict (core slot : Nat)
  /-- a bound crew that waited starts (R352) -/
  | seat (u : Nat)
  | hotnessSnapshot (die : Nat)
  deriving DecidableEq, Repr

/-- The package. DESIGN CHOICE (log 1). -/
structure State where
  /-- the crew that moves; the other crews -/
  crew : Crew
  rest : List Crew
  mem : Memory
  /-- scratchpads, key core * 2^20 + offset (R268, R269) -/
  spad : Memory
  /-- caddies, key die * 2^29 + offset (R273) -/
  caddy : Memory
  /-- caddy bytes that have joined and not been written since: first, end, and the count of free values then (R274) -/
  caddyOpen : List (Nat × Nat × Nat)
  cores : SMap Core
  dies : SMap Die
  writes : List Write
  lines : List Line
  dir : SMap DirEntry
  msgs : List Msg
  poisoned : List Nat
  launches : List Launch
  chains : List Chain
  solvers : SMap Sequencer
  passes : List Pass
  kills : List Kill
  /-- main power; the boot state of each die; the trainings done, 0 memory and 1 die link (R428) -/
  power : Bool
  bsState : SMap Nat
  trained : List Nat
  /-- the fuse counter and whether its last blow can still be interrupted (R423) -/
  svn : Nat
  svnBlowing : Bool
  /-- the leading firmware core, whether it acts as leader, when it last renewed (R427) -/
  leader : Nat
  acting : Bool
  renewed : Nat
  /-- the image in flash, the image that runs, the measurement log, the signature leaves used (R425) -/
  flash : Nat
  fwImage : Option Nat
  measured : List Measured
  leaves : List Nat
  /-- SPDM responses sent (R426); the last sensor answered and its reading (R430) -/
  spdm : List SpdmAnswer
  sensor : Option (Nat × Nat)
  /-- the masters' power requests and the profile that the clocks follow (R431) -/
  pwHost : Bool
  pwTchief : Bool
  profile : Bool
  scanout : List (Nat × List Byte)
  /-- the model's own fields (log 1, log 2, log 4) -/
  now : Nat
  turn : Nat
  agenda : List Act
  free : Nat
  nextId : Nat
  deriving DecidableEq, Repr

/-! ## Reset -/

/-- A stream at crew start but for the scalar one (R20). The spec gives no PC to a stream that no fork has named yet (R22): the field
stands at 0 and nothing reads it. DESIGN CHOICE (log 111). -/
def Stream.start : Stream :=
  { status := .idle, pc := 0, gap := 0, boosted := false, wait := .nothing, mark := none, pend := none,
    kept := [], tried := 0 }

/-- A bind record of zeros. -/
def BindRec.empty : BindRec :=
  { desc := 0, asid := 0, prio := 0, resume := false, handlerValid := false, handler := 0, g := [], lanebase := 0, blk := 0,
    ext := 0, group := 0, image := 0, gsize := 0, rsv := 0 }

/-- The tables of no kernel. -/
def Kernel.empty : Kernel :=
  { desc := 0, npu := true, ae := false, bar := 1, oc := 0, sc := 0, kind := 0, base := [0, 0, 0, 0], len := [0, 0, 0, 0],
    entry := 0, kentry := 0, levels := [], pool := [], handles := [], ptabs := [], gfx := [], samplers := [] }

/-- Slot 0 of NPU core 0 of die 0. -/
def Place.zero : Place := { npu := true, die := 0, core := 0, slot := 0 }

/-- A level of the nest table at crew start (R175). -/
def NestLevel.start : NestLevel := { count := 1, ar := 0, ac := 0, br := 0, bc := 0, ts := 0 }

/-- No crew: every register at its value at crew start (R238-R247), nothing bound. DESIGN CHOICE (log 7). -/
def Crew.absent : Crew :=
  { uid := 0, life := .none, place := Place.zero, bindRec := BindRec.empty, launch := 0, q := 0, home := Place.zero,
    kern := Kernel.empty, s := Stream.start, v := Stream.start, m := Stream.start, k := Stream.start, g := [], gFull := [],
    cVal := [], cFull := [], vreg := [], mask := [], tile := [], tFull := [], tok := [], dq := [[], [], [], []], fcsr := 0,
    ocdef := 0, ls := [], le := [], lc := [], ti := [], epc := [], cause := 0, tval := 0, act := false, held := 0, ext := 0,
    yielded := false, trap := Option.none, sHeld := false, stop := Option.none, sres := [], vwin := [], vwords := [], vclock := 0, spoilV := [], spoilM := [], poisonV := [], poisonG := [],
    poisonAddr := [], shadow := List.replicate 6 NestLevel.start, active := List.replicate 6 NestLevel.start,
    nest := Option.none, array := Option.none, port := [], pro := 0, ptab := 0, proLoads := [], proReload := Option.none, jobs := [],
    arrived := [], colls := [], bars := [], seen := [], raster := Option.none, sealed := false, hasImage := false, evicted := false }

/-- A slot that is free (R351). -/
def Slot.free : Slot := { state := 0, refused := 0, uid := 0, record := BindRec.empty }

/-- A core after reset (R16, R271, R288, R418, R421). -/
def Core.reset (npu : Bool) : Core :=
  { carve := if npu then 8 else 4, subUpd := false, lease := 128, istall := 0, ostall := 0, dloss := 0, poolFree := 8,
    poolWait := [], spadAsid := none, tlb := [], walks := [], log := [], inf := [], slots := [], homeGrants := [] }

/-- A command queue after reset (R346). -/
def CmdQueue.reset : CmdQueue :=
  { base := 0, ctl := 0, ctlNext := none, tail := 0, head := 0, gs := 0, busy := false, waiting := none, reading := false, cmd := [],
    killed := false }

/-- A task queue after reset (R406). -/
def TaskQueue.reset : TaskQueue :=
  { base := 0, ctl := 0, set0 := 0, set1 := 0, image := 0, head := 0, tail := 0, busy := false, reading := none }

/-- A regulator after reset (R282): ways 0xFFF, rate 0, burst 64, lat 1. -/
def qosReset : Word := 0x0001004000000FFF

/-- The regulator of class 7 (R282): ways 0, rate 0, lat 3; its burst as the others' (log 11). -/
def qosScanout : Word := 0x0003004000000000

/-- A die after reset: each field at the value its register table gives (R274, R338, R346, R406, R410, R411, R419-R422).
DESIGN CHOICE (log 11). DESIGN CHOICE (log 12). -/
def Die.reset : Die :=
  { atab := 0, cqBase := 0, cqSize := 0, tcTail := 0, tcHead := 0, wrec := 0, tcRun := none, tcActed := false, tcDrop := [], tcMark := 0, eqBase := 0, eqCtl := 0,
    eqHead := 0, eqTail := 0, eqPhase := true, eqSeq := 0, events := [], fxTmo := 2000, fxItmo := 4100, fxPst := false,
    fxPkg := 0, laAllow := 1, laPhase := 0, laStall := 0, hcBase := 0, hcHalve := false, hcGo := false, hot := [], erTrans := 0, erLast := 0,
    cways := 2, splitBusy := none, splitRefused := false, qos := List.replicate 7 qosReset ++ [qosScanout], windows := [],
    cmdQueues := [], served := 0, irqs := 0, taskQueues := [], fences := [], nextSerial := 0, faults := [], doomed := [], cards := [], retiring := [], subInv := [],
    subUpd := [], subSupp := [], subOvf := [], fabIn := [], fabOut := [], proxies := [], regions := [], fenced := [],
    retrying := [], log := [] }

/-- A sequencer after reset. -/
def Sequencer.reset : Sequencer := { run := none, queue := [] }

/-- The package right after reset: powered, not booted, no crew bound, every memory with nothing listed.
DESIGN CHOICE (log 1). DESIGN CHOICE (log 7). -/
def State.reset : State :=
  { crew := Crew.absent, rest := [], mem := [], spad := [], caddy := [], caddyOpen := [], cores := [], dies := [], writes := [], lines := [],
    dir := [], msgs := [], poisoned := [], launches := [], chains := [], solvers := [], passes := [], kills := [],
    power := true, bsState := [], trained := [], svn := 0, svnBlowing := false, leader := 0, acting := false, renewed := 0, flash := 0,
    fwImage := none, measured := [], leaves := [], spdm := [], sensor := none, pwHost := false, pwTchief := false, profile := false,
    scanout := [], now := 0, turn := 0, agenda := [], free := 0, nextId := 1 }

end Sys2Proof.Machine
end

