-- ==== Sys2Proof/Machine/Flags.lean ====
section
/-!
DEFINITION. sr.fcsr and the comparisons: the sticky flags, the trap enables, the rounding mode (R47-R51), and what each compare
condition means and flags (R67, R103, R143).
-/

namespace Sys2Proof.Machine

/-- A cause code: class and detail (R251). -/
def causeCode (cls detail : Nat) : BitVec 9 := BitVec.ofNat 9 (cls * 64 + detail)

/-- Flags ORed into sr.fcsr (R47, R51). -/
def fcsrOr (w : Word) (f : Flags) : Word := w ||| (f.zeroExtend 64 <<< 8)

/-- The trap enables of sr.fcsr (R47). -/
def fcsrEn (w : Word) : Flags := w.extractLsb' 16 5

/-- The dynamic rounding mode (R47). -/
def fcsrRm (w : Word) : Nat := w.toNat % 4

/-- The binary8 descriptor of type code 30 (R47). -/
def fcsrB8d0 (w : Word) : BitVec 5 := w.extractLsb' 24 5

/-- The binary8 descriptor of type code 31 (R47). -/
def fcsrB8d1 (w : Word) : BitVec 5 := w.extractLsb' 32 5

/-- The bits of sr.fcsr that a write sets: rm, the flags, en and the descriptors (R47, R129). -/
def fcsrMask : Word := 0x1F1F1F1F03

/-- The mode that a rnd field selects: 0-3, or 4 for sr.fcsr.rm (R49). -/
def modeOf (w : Word) (rnd : BitVec 3) : Nat := if rnd = 4 then fcsrRm w else rnd.toNat % 4

/-- The class-2 detail of the lowest enabled flag raised (R51). -/
def enabledDetail (en f : Flags) : Option Nat :=
  let hit := en &&& f
  if hit.getLsbD 0 then some 0 else if hit.getLsbD 1 then some 1 else if hit.getLsbD 2 then some 2
  else if hit.getLsbD 3 then some 3 else if hit.getLsbD 4 then some 4 else none

/-- An integer compare condition on 64-bit values (R67). -/
def intCond (cond : Nat) (a b : Word) : Bool :=
  match cond with
  | 0 => a == b
  | 1 => a != b
  | 2 => a.slt b
  | 3 => !a.slt b
  | 4 => a.ult b
  | _ => !a.ult b

/-- A scalar floating-point condition on f32 values, and its flags (R103): 8 feq, 9 flt, 10 fle, 11 fun. -/
def fltCond (cond : Nat) (a b : Nat) : Bool × Flags :=
  let x := fmtF32.value a
  let y := fmtF32.value b
  let anyNan := x.isNan || y.isNan
  let anySig := x.sig || y.sig
  match cond with
  | 8 => (x.eq y, flagIf anySig nv)
  | 9 => (FVal.lt false x y, flagIf anyNan nv)
  | 10 => (FVal.lt false x y || x.eq y, flagIf anyNan nv)
  | _ => (anyNan, flagIf anySig nv)

/-- A lane condition of VCMP on floating-point values (R143): 0 eq, 1 ne, 2 lt, 3 le, 4 gt, 5 ge, 6 un. -/
def laneFltCond (cond : Nat) (x y : FVal) : Bool × Flags :=
  let anyNan := x.isNan || y.isNan
  let anySig := x.sig || y.sig
  match cond with
  | 0 => (x.eq y, flagIf anySig nv)
  | 1 => (anyNan || !x.eq y, flagIf anySig nv)
  | 2 => (FVal.lt false x y, flagIf anyNan nv)
  | 3 => (FVal.lt false x y || x.eq y, flagIf anyNan nv)
  | 4 => (FVal.lt false y x, flagIf anyNan nv)
  | 5 => (FVal.lt false y x || x.eq y, flagIf anyNan nv)
  | _ => (anyNan, flagIf anySig nv)

/-- A lane condition of VCMP on integers (R143). -/
def laneIntCond (cond : Nat) (x y : Int) : Bool :=
  match cond with
  | 0 => x == y
  | 1 => x != y
  | 2 => decide (x < y)
  | 3 => decide (x ≤ y)
  | 4 => decide (y < x)
  | _ => decide (y ≤ x)

end Sys2Proof.Machine
end

