-- ==== Sys2Proof/Decode.lean ====
section
/-!
DEFINITION. From words to instructions and back (R62-R85). A word that breaks an encoding rule has a list of class-0 details
(R92), of which the lowest is reported; a word with none is an instruction. The encoder stands at the end.
-/

namespace Sys2Proof

/-- The `w` bits of `n` from bit `lo` up. -/
def fld (w n lo : Nat) : BitVec w := BitVec.ofNat w (n / 2 ^ lo)

/-- The bits [lo, lo + len) of `n` as a number. -/
def bitsOf (n lo len : Nat) : Nat := n / 2 ^ lo % 2 ^ len

/-- One class-0 detail where a rule is broken. -/
def chk (broken : Bool) (detail : Nat) : List Nat := if broken then [detail] else []

/-- The lowest of some details (R92). -/
def lowest : List Nat → Option Nat
  | [] => none
  | d :: ds =>
    match lowest ds with
    | none => some d
    | some e => some (min d e)

/-! ## Class-0 checks on the fields of an instruction -/

/-- rnd 5-7 (R49). -/
def rndBad (r : BitVec 3) : List Nat := chk (decide (4 < r.toNat)) 4

/-- FPU format 3 (R65). -/
def fmtBad (f : BitVec 2) : List Nat := chk (f == 3) 3

/-- A type code that names no format: reserved, or a descriptor with P = 0 (R39). -/
def typeBad (e : Env) (t : Nat) : Bool :=
  t == 14 || t == 15 || (t == 30 && decide (e.b8d0.toNat < 4)) || (t == 31 && decide (e.b8d1.toNat < 4))

/-- VCVT, VLD and the other words of R80 that accept every code except 4, 8, 14 and 15. -/
def typeAny (e : Env) (t : BitVec 5) : List Nat := chk (t == 4 || t == 8 || typeBad e t.toNat) 3

/-- A type outside a short list (R80). -/
def typeIn (l : List Nat) (t : BitVec 5) : List Nat := chk (!l.contains t.toNat) 3

/-- A field the row does not use (R92 detail 2). -/
def zeroFld {w : Nat} (x : BitVec w) : List Nat := chk (x != 0) 2

/-- The header rules of R77 and R78. -/
def hdrBad (h : VHdr) : List Nat :=
  chk (h.mmode == 3) 4 ++ chk (h.mmode == 0 && h.msk != 0) 2 ++ chk (h.grp != 0 && h.hold != 0) 2

/-- An operand field that is not read: all its 14 bits are zero (R137). -/
def opdZero (o : VOpd) : List Nat := chk (o.na != 0 || o.str != 0 || o.idx != 0) 2

/-- A destination register, or the data of a store, in field d (R75, R76). Indices 640-687 raise a class-1 cause instead. -/
def opdDest (h : VHdr) (o : VOpd) : List Nat :=
  chk (o.na != 0) 2 ++ chk (decide (688 ≤ o.idx.toNat)) 5 ++ chk (o.str == 0 && h.grp != 0) 5 ++
    chk (decide (640 ≤ o.idx.toNat) && o.str != 0) 5

/-- A source operand; `neg` says that the mod layout gives na a meaning (R75, R76). -/
def opdSrc (neg : Bool) (o : VOpd) : List Nat :=
  chk (!neg && o.na != 0) 2 ++ chk (decide (706 ≤ o.idx.toNat) && decide (o.idx.toNat ≤ 767)) 5 ++
    chk (decide (640 ≤ o.idx.toNat) && o.str != 0) 5

/-- A mask field (R137). -/
def opdMask (o : VOpd) : List Nat := chk (o.na != 0) 2 ++ chk (decide (15 < o.idx.toNat)) 5

/-- The shared scalar written by VMPOP and VTOS (R76). Indices 640-687 raise a class-1 cause instead. -/
def opdShared (o : VOpd) : List Nat :=
  chk (o.na != 0) 2 ++ chk (decide (o.idx.toNat < 640) || decide (703 < o.idx.toNat)) 5 ++
    chk (decide (640 ≤ o.idx.toNat) && o.str != 0) 5

/-- Is the operand a shared scalar or a constant of the pool (R134, R152)? -/
def opdBroad (o : VOpd) : Bool :=
  (decide (688 ≤ o.idx.toNat) && decide (o.idx.toNat ≤ 703)) || decide (768 ≤ o.idx.toNat)

/-- An address base (R134) or the stride of VLDX and VSTX (R152). -/
def opdBase (o : VOpd) : List Nat := chk (o.na != 0) 2 ++ chk (!opdBroad o) 5 ++ chk (o.str != 0) 5

/-- The last index of a VCMP group passes m15 (R137). -/
def cmpDest (h : VHdr) (o : VOpd) : List Nat :=
  opdMask o ++ chk (o.str == 0 && h.grp != 0) 5 ++ chk (decide (15 < o.idx.toNat + h.grp.toNat * o.str.toNat)) 5

/-- A word whose grp column says no (R137). -/
def noGrp (h : VHdr) : List Nat := chk (h.grp != 0) 2

/-- Is the type a floating-point one of the lane words? -/
def isFpTy (t : BitVec 5) : Bool := t == 9 || t == 10 || t == 11

/-- rnd and sat of layout A: sat 0 for floating point, rnd 0 for integers (R79, R139). -/
def arithMods (f : VArith) : List Nat :=
  rndBad f.rnd ++ chk (isFpTy f.ty && f.sat != 0) 2 ++ chk (!isFpTy f.ty && f.rnd != 0) 2

/-- A two-source lane word of layout A. -/
def arith2 (tys : List Nat) (f : VArith) : List Nat :=
  hdrBad f.h ++ typeIn tys f.ty ++ opdDest f.h f.d ++ opdSrc true f.a ++ opdSrc true f.b ++ arithMods f

/-- A one-source lane word of layout A. -/
def arith1 (tys : List Nat) (f : VArith) : List Nat :=
  hdrBad f.h ++ typeIn tys f.ty ++ opdDest f.h f.d ++ opdSrc true f.a ++ opdZero f.b ++ arithMods f

/-- A two-source word of layout L. -/
def imm2 (tys : List Nat) (f : VImm) : List Nat :=
  hdrBad f.h ++ typeIn tys f.ty ++ opdDest f.h f.d ++ opdSrc false f.a ++ opdSrc false f.b

/-- A one-source word of layout L. -/
def imm1 (tys : List Nat) (f : VImm) : List Nat :=
  hdrBad f.h ++ typeIn tys f.ty ++ opdDest f.h f.d ++ opdSrc false f.a ++ opdZero f.b

/-- The imm5 that selects the row (R140, R144, R151). -/
def immSel (f : VImm) (n : Nat) : List Nat := chk (f.imm.toNat != n) 1

/-- A VMLOG row with code `n`; `two` says whether b is a mask (R137, R144). -/
def mlog (n : Nat) (two : Bool) (f : VImm) : List Nat :=
  hdrBad f.h ++ zeroFld f.ty ++ opdMask f.d ++ opdMask f.a ++ (if two then opdMask f.b else opdZero f.b) ++ noGrp f.h ++
    immSel f n

/-- The types of VADD and its kin (R80). -/
def laneTypes : List Nat := [9, 10, 11, 3, 7]

/-- A vector memory word of layout M but for its b operand and its sub: header, type, d, base, path list. -/
def vmemBase (e : Env) (paths : List Nat) (f : VMemF) : List Nat :=
  hdrBad f.h ++ typeAny e f.ty ++ opdDest f.h f.d ++ opdBase f.a ++ chk (!paths.contains f.path.toNat) 1 ++ zeroFld f.sub

/-- The rules of path 6 (R155). -/
def vmemDq (e : Env) (f : VMemF) : List Nat :=
  hdrBad f.h ++ typeIn [3, 7, 9] f.ty ++ opdDest f.h f.d ++ opdZero f.a ++ opdZero f.b ++ chk (f.path != 6) 1 ++
    chk (f.h.msk != 0 || f.h.mmode != 0 || f.oc != 0 || f.sc != 0 || decide (3 < f.sub.toNat)) 2 ++ chk (!e.npu) 6

/-- A VATOM row with operation `aop` (R158). -/
def vatom (aop : Nat) (f : VMemF) : List Nat :=
  hdrBad f.h ++ typeIn [3, 7, 9] f.ty ++ opdDest f.h f.d ++ opdBase f.a ++ opdSrc false f.b ++
    chk (!([0, 1, 2, 3, 4] : List Nat).contains f.path.toNat) 1 ++ chk (f.sub.toNat % 16 != aop) 1 ++
    chk (f.ty == 9 && !([0, 4, 5, 8, 9] : List Nat).contains aop) 1 ++ noGrp f.h ++
    chk (aop == 9 && f.d.idx.toNat % 2 == 1) 5

/-- Rules shared by the four graphics messages (R161). -/
def gfx (e : Env) (tys : List Nat) (f : VGfx) : List Nat :=
  hdrBad f.h ++ typeIn tys f.ty ++ noGrp f.h ++ chk (f.d.str != 0 || f.a.str != 0 || f.b.str != 0) 5 ++ chk e.npu 6

/-- The first register of a run of source registers (R161). -/
def opdRun (o : VOpd) : List Nat := chk (o.na != 0) 2 ++ chk (decide (688 ≤ o.idx.toNat)) 5

/-- The accepted format pairs of R171 and the bound on k, 0 for a pair that is not accepted. -/
def pairBound (fa fb pro : Nat) : Nat :=
  let wide := fun (t : Nat) => t == 10 || t == 11
  let narrow := fun (t : Nat) => t == 12 || t == 13 || decide (16 ≤ t)
  let int8 := fun (t : Nat) => t == 1 || t == 5
  if pro != 0 then (if (wide fa || narrow fa) && fb == 11 then 63 else 0)
  else if (wide fa && (wide fb || narrow fb)) || (narrow fa && wide fb) then 63
  else if narrow fa && narrow fb then 126
  else if int8 fa && int8 fb then 126
  else 0

/-- A tile step's fields (R171, R185). -/
def stepBad (e : Env) (f : MStepF) : List Nat :=
  let bound := pairBound f.fmta.toNat f.fmtb.toNat f.pro.toNat
  chk (typeBad e f.fmta.toNat || typeBad e f.fmtb.toNat || bound == 0) 3 ++
    chk (f.k == 0 || (bound != 0 && decide (bound < f.k.toNat))) 8 ++ chk (decide (4 < f.pro.toNat)) 1

/-- Are a step's types resolved only as it issues? Codes 30 and 31 are (R171). -/
def stepOpen (f : MStepF) : Bool := decide (30 ≤ f.fmta.toNat) || decide (30 ≤ f.fmtb.toNat)

/-- Rows past the end of a tile (R180, R182). -/
def rowsBad (f : MRowF) : List Nat := chk (decide (127 < f.row.toNat + f.mx.toNat)) 8

/-- Path field of a copy word (R193). -/
def pathIn (l : List Nat) (h : KHdr) : List Nat := chk (!l.contains h.path.toNat) 1

/-- A KR register field that the entry requires (R189). -/
def krReq (r : BitVec 6) : List Nat := chk (r == 0) 5

/-- A reduction operation (R204): 6-15 never, 3-5 not with f32. -/
def redBad (red : BitVec 4) (o : KR) : List Nat :=
  chk (decide (5 < red.toNat) || (decide (2 < red.toNat) && bitsOf o.imm.toNat 35 5 == 9)) 1

/-- An element type in imm40 that names a descriptor with P = 0 (R39). -/
def immType (e : Env) (o : KR) : List Nat := chk (decide (30 ≤ bitsOf o.imm.toNat 35 5) && typeBad e (bitsOf o.imm.toNat 35 5)) 3

/-- The fields of imm40 that a COLL gives no use, and its element type (R39, R189, R205): `ok` says which codes are accepted. DEDUCED (log 119). -/
def collImm (e : Env) (ok : Nat → Bool) (o : KR) : List Nat :=
  chk (bitsOf o.imm.toNat 32 3 != 0) 2 ++ chk (!ok (bitsOf o.imm.toNat 35 5) || typeBad e (bitsOf o.imm.toNat 35 5)) 3

/-- The element types that move (R203, R205). -/
def moveType (t : Nat) : Bool := [1, 2, 3, 5, 6, 7, 9, 10, 11, 12, 13].contains t || (decide (16 ≤ t) && decide (t ≤ 31))

/-- The element types of the reductions (R203, R205, R207). -/
def redType (t : Nat) : Bool := t == 3 || t == 7 || t == 9

/-- Streams named on a graphics core (R117, R118). -/
def smaskBad (e : Env) (m : BitVec 3) : List Nat := chk (m == 0) 8 ++ chk (!e.npu && m.toNat % 4 != 0) 6

/-- The number of streams a mask names. -/
def smaskCount (m : BitVec 3) : Nat := m.toNat % 2 + m.toNat / 2 % 2 + m.toNat / 4

/-- Where a memory of a copy word may stand (R193). -/
def memPaths : List Nat := [0, 1, 2, 3, 4]

/-- The class-0 details of an instruction's fields (R92), reserved bits apart: those are checked on the word. A type code that an xfm.cvt or
a COLL does not accept is class-0 detail 3 (R39), not class-4 detail 6 (R192). DEDUCED (log 119). -/
def Instr.details (e : Env) : Instr → List Nat
  | .cmp _ _ _ f => chk (!([0, 1, 2, 3, 4, 5, 8, 9, 10, 11] : List Nat).contains f.toNat) 1
  | .cmpi cond _ _ _ => chk (decide (5 < cond.toNat)) 1
  | .bfxS _ _ pos w => chk (decide (64 < pos.toNat + w.toNat + 1)) 8
  | .bfxN _ _ pos w => chk (decide (64 < pos.toNat + w.toNat + 1)) 8
  | .bfi _ _ pos w => chk (decide (64 < pos.toNat + w.toNat + 1)) 8
  | .fcvt _ _ src tgt rnd _ => chk (src == 7 || tgt == 7) 1 ++ rndBad rnd
  | .fadd _ _ _ r f => rndBad r ++ fmtBad f
  | .fsub _ _ _ r f => rndBad r ++ fmtBad f
  | .fmul _ _ _ r f => rndBad r ++ fmtBad f
  | .ffma _ _ _ r f => rndBad r ++ fmtBad f
  | .fmin _ _ _ r f => rndBad r ++ fmtBad f
  | .fmax _ _ _ r f => rndBad r ++ fmtBad f
  | .fabs _ _ r f => rndBad r ++ fmtBad f
  | .fneg _ _ r f => rndBad r ++ fmtBad f
  | .ld _ _ _ _ size sx _ => chk (size == 3 && sx == 1) 2
  | .amoCas d _ _ _ _ => chk (d.toNat % 2 == 1) 5
  | .lpset _ ci cnt len => chk (len == 0) 8 ++ chk (ci == 0 && cnt.toNat % 16 != 0) 2
  | .fence sc cmask => chk (decide (9 < sc.toNat)) 4 ++ chk (cmask == 0) 8
  | .bar sc _ => chk (sc == 0 || decide (5 < sc.toNat)) 4
  | .efenceCopy sc cmask => chk (decide (9 < sc.toNat)) 4 ++ chk (cmask == 0) 8
  | .efenceColl sc cmask => chk (decide (9 < sc.toNat)) 4 ++ chk (cmask == 0) 8
  | .efenceSolve sc cmask => chk (decide (9 < sc.toNat)) 4 ++ chk (cmask == 0) 8
  | .efenceInfuse sc cmask => chk (decide (9 < sc.toNat)) 4 ++ chk (cmask == 0) 8
  | .drain path => chk (decide (4 < path.toNat)) 1
  | .tokw kmask _ => chk (kmask == 0) 8
  | .regacq n => chk (n == 0 || decide (4 < n.toNat)) 8
  | .forkImm m _ => smaskBad e m ++ chk (decide (1 < smaskCount m)) 8
  | .forkReg m a => smaskBad e m ++ chk (decide (64 < a.toNat + smaskCount m)) 5
  | .rdv m => smaskBad e m
  | .vadd f => arith2 laneTypes f
  | .vsub f => arith2 laneTypes f
  | .vmul f => arith2 laneTypes f
  | .vfma f => arith2 [9, 10, 11] f
  | .vmin f => arith2 laneTypes f
  | .vmax f => arith2 laneTypes f
  | .vabs f => arith1 laneTypes f
  | .vneg f => arith1 laneTypes f
  | .vmulh f => arith2 [3, 7] f ++ zeroFld f.sat
  | .vmad f => arith2 [3, 7] f
  | .vshl f => imm1 [3, 7] f
  | .vshr f => imm1 [3, 7] f
  | .vrot f => imm1 [7] f
  | .vand f => imm2 [7] f ++ zeroFld f.imm
  | .vor f => imm2 [7] f ++ zeroFld f.imm
  | .vxor f => imm2 [7] f ++ zeroFld f.imm
  | .vandn f => imm2 [7] f ++ zeroFld f.imm
  | .vclz f => imm1 [7] f ++ zeroFld f.imm
  | .vpopc f => imm1 [7] f ++ zeroFld f.imm
  | .vbilvTwo f => imm2 [7] f ++ immSel f 0
  | .vbilvThree f => imm2 [7] f ++ immSel f 1
  | .vcmp f =>
    hdrBad f.h ++ typeIn laneTypes f.ty ++ cmpDest f.h f.d ++ opdSrc true f.a ++ opdSrc true f.b ++
      chk (f.cond == 7 || (f.cond == 6 && !isFpTy f.ty)) 1
  | .vmlogAnd f => mlog 0 true f
  | .vmlogOr f => mlog 1 true f
  | .vmlogXor f => mlog 2 true f
  | .vmlogAndn f => mlog 3 true f
  | .vmlogNot f => mlog 4 false f
  | .vmlogMov f => mlog 5 false f
  | .vmpop f => hdrBad f.h ++ zeroFld f.ty ++ opdShared f.d ++ opdMask f.a ++ opdZero f.b ++ noGrp f.h ++ zeroFld f.imm
  | .vsig f =>
    hdrBad f.h ++ zeroFld f.ty ++ opdZero f.d ++ opdMask f.a ++ opdZero f.b ++ noGrp f.h ++ chk (decide (7 < f.imm.toNat)) 2
  | .vsel f => imm2 [0] f ++ zeroFld f.ty ++ chk (decide (15 < f.imm.toNat)) 2
  | .vtos f => hdrBad f.h ++ zeroFld f.ty ++ opdShared f.d ++ opdSrc false f.a ++ opdZero f.b ++ noGrp f.h ++ zeroFld f.imm
  | .vmov f => hdrBad f.h ++ zeroFld f.ty ++ opdDest f.h f.d ++ opdSrc false f.a ++ opdZero f.b ++ zeroFld f.imm
  | .vcvt f => hdrBad f.h ++ typeAny e f.ty ++ typeAny e f.sty ++ opdDest f.h f.d ++ opdSrc false f.a ++ rndBad f.rnd
  | .vrcp f => arith1 [9] f
  | .vrsqrt f => arith1 [9] f
  | .vsqrt f => arith1 [9] f
  | .vexp2 f => arith1 [9] f
  | .vlog2 f => arith1 [9] f
  | .vsinpi f => arith1 [9] f
  | .vcospi f => arith1 [9] f
  | .vshuf f => hdrBad f.h ++ zeroFld f.ty ++ opdDest f.h f.d ++ opdSrc false f.a ++ opdSrc false f.b ++ zeroFld f.imm
  | .vrotl f => hdrBad f.h ++ zeroFld f.ty ++ opdDest f.h f.d ++ opdSrc false f.a ++ opdZero f.b
  | .vbcast f => hdrBad f.h ++ zeroFld f.ty ++ opdDest f.h f.d ++ opdSrc false f.a ++ opdZero f.b
  | .vredAdd f => imm1 [9, 3, 7] f ++ immSel f 0
  | .vredMin f => imm1 [9, 3, 7] f ++ immSel f 1
  | .vredMax f => imm1 [9, 3, 7] f ++ immSel f 2
  | .vld f => vmemBase e [0, 1, 2, 3, 4, 5] f ++ opdZero f.b
  | .vldDq f => vmemDq e f
  | .vldx f => vmemBase e [0, 1, 2, 3, 4, 5] f ++ opdBase f.b
  | .vgath f => vmemBase e [0, 1, 2, 3, 4, 5] f ++ opdSrc false f.b
  | .vst f => vmemBase e [0, 1, 2, 3, 4, 5] f ++ opdZero f.b
  | .vstDq f => vmemDq e f
  | .vstx f => vmemBase e [0, 1, 2, 3, 4, 5] f ++ opdBase f.b
  | .vscat f => vmemBase e [0, 1, 2, 3, 4, 5] f ++ opdSrc false f.b
  | .vatomAdd f => vatom 0 f
  | .vatomAnd f => vatom 1 f
  | .vatomOr f => vatom 2 f
  | .vatomXor f => vatom 3 f
  | .vatomMinS f => vatom 4 f
  | .vatomMaxS f => vatom 5 f
  | .vatomMinN f => vatom 6 f
  | .vatomMaxN f => vatom 7 f
  | .vatomSwap f => vatom 8 f
  | .vatomCas f => vatom 9 f
  | .vlds f =>
    hdrBad f.h ++ typeIn [9, 10, 11, 12, 13, 18, 19, 20] f.ty ++ opdDest f.h f.d ++ opdBase f.a ++ opdZero f.b ++
      chk (f.path != 0) 1 ++ zeroFld f.sub
  | .vcp16 f =>
    hdrBad f.h ++ zeroFld f.ty ++ opdDest f.h f.d ++ opdBase f.a ++ opdSrc false f.b ++
      chk (!([1, 3, 4, 5] : List Nat).contains f.path.toNat) 1 ++ zeroFld f.sub
  | .tex f => gfx e [9, 10] f ++ opdDest f.h f.d ++ opdRun f.a ++ opdSrc false f.b
  | .tex3 f => gfx e [9] f ++ opdDest f.h f.d ++ opdRun f.a ++ opdZero f.b
  | .rayq f => gfx e [0] f ++ zeroFld f.ty ++ opdDest f.h f.d ++ opdRun f.a ++ opdZero f.b ++
      chk (bitsOf f.desc.toNat 2 2 != 0) 2
  | .pexp f => gfx e [0] f ++ zeroFld f.ty ++ opdZero f.d ++ opdRun f.a ++
      (if bitsOf f.desc.toNat 4 1 == 1 then opdSrc false f.b else opdZero f.b) ++
      chk (bitsOf f.desc.toNat 5 7 != 0 || bitsOf f.desc.toNat 3 1 != 0) 2
  | .mstep f => if stepOpen f then [] else stepBad e f
  | .mngo f => if stepOpen f then [] else stepBad e f
  | .mnset f => chk (decide (5 < f.lv.toNat) || f.count == 0) 8
  | .mread f => rowsBad f ++ zeroFld f.fmt
  | .mwrite f => rowsBad f ++ zeroFld f.sig ++ zeroFld f.fmt
  | .mcvt f => rowsBad f ++ chk (!([0, 1, 2, 3, 5, 6, 7, 10, 11, 12, 13] : List Nat).contains f.fmt.toNat &&
      decide (f.fmt.toNat < 16) || typeBad e f.fmt.toNat) 3
  | .msca f => chk (f.acc == f.src) 8
  | .mproNone _ _ _ ptab => zeroFld ptab
  | .cpyKh h _ => pathIn memPaths h
  | .cpyKr h o => pathIn memPaths h ++ krReq o.ga ++ krReq o.gb
  | .cpysg h o => pathIn [0] h ++ krReq o.ga ++ zeroFld o.gc
  | .cpymcKh h _ => pathIn [4] h
  | .cpymcKr h o => pathIn [4] h ++ krReq o.ga ++ krReq o.gb
  | .scatNative h o => pathIn memPaths h ++ krReq o.ga ++ krReq o.gb ++ krReq o.gc ++ immType e o
  | .scatStrain h red o => pathIn memPaths h ++ krReq o.ga ++ krReq o.gb ++ krReq o.gc ++ redBad red o
  | .gath h o => pathIn memPaths h ++ krReq o.ga ++ krReq o.gb ++ krReq o.gc ++ immType e o
  | .collAllred h red o => pathIn [2, 3] h ++ krReq o.ga ++ krReq o.gb ++ zeroFld o.gc ++ redBad red o ++ collImm e redType o
  | .collRedsc h red o => pathIn [2, 3] h ++ krReq o.ga ++ krReq o.gb ++ zeroFld o.gc ++ redBad red o ++ collImm e redType o
  | .collGath h red o => pathIn [2, 3] h ++ krReq o.ga ++ krReq o.gb ++ zeroFld o.gc ++ zeroFld red ++ collImm e moveType o
  | .xfmTr h o => pathIn [0] h ++ krReq o.ga ++ zeroFld o.gb ++ zeroFld o.gc
  | .xfmCvt h o => pathIn [0] h ++ krReq o.ga ++ zeroFld o.gb ++ zeroFld o.gc ++
      typeAny e (BitVec.ofNat 5 (bitsOf o.imm.toNat 35 5)) ++ typeAny e (BitVec.ofNat 5 (bitsOf o.imm.toNat 30 5))
  | .xfmBdb h o => pathIn [0] h ++ krReq o.ga ++ krReq o.gb ++ zeroFld o.gc
  | .xfmPsum h o => pathIn [0] h ++ krReq o.ga ++ zeroFld o.gb ++ zeroFld o.gc ++
      chk (typeBad e (bitsOf o.imm.toNat 35 5)) 3
  | .jsub h o => pathIn [0] h ++ krReq o.ga ++ krReq o.gb ++ zeroFld o.gc ++ zeroFld o.imm
  | .dqpushKh h _ _ => pathIn [6] h
  | .dqpushKr h _ o => pathIn [6] h ++ krReq o.ga ++ zeroFld o.gb
  | .dqpopKh h _ _ => pathIn [6] h
  | .dqpopKr h _ o => pathIn [6] h ++ krReq o.ga ++ zeroFld o.gb
  | .sqgo h o => pathIn [0] h ++ krReq o.ga ++ krReq o.gb ++ zeroFld o.gc ++ zeroFld o.imm
  | .kTokw _ _ kmask _ => chk (kmask == 0) 8
  | .kDrain _ _ path => chk (decide (4 < path.toNat)) 1
  | _ => []

/-! ## Words to instructions: what a word is read as, with the details of its reserved bits -/

/-- A reading of a word: the details its reserved bits break, and the instruction, if an opcode names one. -/
abbrev Reading := List Nat × Option Instr

/-- An opcode or an enumerated field that names nothing. -/
def noInstr (detail : Nat) : Reading := ([detail], none)

/-- The bits [lo, lo + len) of the word must be zero (R92 detail 2). -/
def zeroBits (n lo len : Nat) : List Nat := chk (bitsOf n lo len != 0) 2

/-- ALU words by fn (R66). -/
def readAlu (n : Nat) : Reading :=
  let d := fld 6 n 20; let a := fld 6 n 14; let b := fld 6 n 8
  let fn := n % 256
  if 0x30 ≤ fn ∧ fn ≤ 0x37 then ([], some (.adds d a b (fld 3 n 0)))
  else if 0x40 ≤ fn ∧ fn ≤ 0x47 then ([], some (.sel d a b (fld 3 n 0)))
  else match fn with
  | 0x00 => ([], some (.add d a b))
  | 0x01 => ([], some (.sub d a b))
  | 0x02 => ([], some (.mul d a b))
  | 0x03 => ([], some (.mulhS d a b))
  | 0x04 => ([], some (.mulhN d a b))
  | 0x06 => ([], some (.divS d a b))
  | 0x07 => ([], some (.divN d a b))
  | 0x08 => ([], some (.remS d a b))
  | 0x09 => ([], some (.remN d a b))
  | 0x10 => ([], some (.and d a b))
  | 0x11 => ([], some (.or d a b))
  | 0x12 => ([], some (.xor d a b))
  | 0x13 => ([], some (.andn d a b))
  | 0x18 => ([], some (.sll d a b))
  | 0x19 => ([], some (.srl d a b))
  | 0x1A => ([], some (.sra d a b))
  | 0x1B => ([], some (.rol d a b))
  | 0x1C => ([], some (.ror d a b))
  | 0x20 => ([], some (.minS d a b))
  | 0x21 => ([], some (.minN d a b))
  | 0x22 => ([], some (.maxS d a b))
  | 0x23 => ([], some (.maxN d a b))
  | 0x28 => (zeroBits n 8 6, some (.clz d a))
  | 0x29 => (zeroBits n 8 6, some (.ctz d a))
  | 0x2A => (zeroBits n 8 6, some (.popc d a))
  | 0x2C => ([], some (.bilv2 d a b))
  | 0x2D => ([], some (.bilv3 d a b))
  | _ => noInstr 1

/-- Shifts by an immediate (R65, R100). -/
def readShi (n : Nat) : Reading :=
  let d := fld 6 n 20; let a := fld 6 n 14; let k := fld 6 n 0
  (zeroBits n 6 6, some (match bitsOf n 12 2 with
    | 0 => .slli d a k
    | 1 => .srli d a k
    | 2 => .srai d a k
    | _ => .rori d a k))

/-- Scalar floating point (R65). -/
def readFpu (n : Nat) : Reading :=
  let d := fld 6 n 20; let a := fld 6 n 14; let b := fld 6 n 8; let r := fld 3 n 5; let f := fld 2 n 3
  match n % 8 with
  | 0 => ([], some (.fadd d a b r f))
  | 1 => ([], some (.fsub d a b r f))
  | 2 => ([], some (.fmul d a b r f))
  | 3 => ([], some (.ffma d a b r f))
  | 4 => ([], some (.fmin d a b r f))
  | 5 => ([], some (.fmax d a b r f))
  | 6 => (zeroBits n 8 6, some (.fabs d a r f))
  | _ => (zeroBits n 8 6, some (.fneg d a r f))

/-- Atomics by aop (R68). -/
def readAmo (n : Nat) : Reading :=
  let d := fld 6 n 20; let a := fld 6 n 14; let oc := fld 4 n 10; let sc := fld 3 n 7; let z := fld 1 n 2
  let rsv := zeroBits n 0 2
  match bitsOf n 3 4 with
  | 0 => (rsv, some (.amoAdd d a oc sc z))
  | 1 => (rsv, some (.amoAnd d a oc sc z))
  | 2 => (rsv, some (.amoOr d a oc sc z))
  | 3 => (rsv, some (.amoXor d a oc sc z))
  | 4 => (rsv, some (.amoMinS d a oc sc z))
  | 5 => (rsv, some (.amoMaxS d a oc sc z))
  | 6 => (rsv, some (.amoMinN d a oc sc z))
  | 7 => (rsv, some (.amoMaxN d a oc sc z))
  | 8 => (rsv, some (.amoSwap d a oc sc z))
  | 9 => (rsv, some (.amoCas d a oc sc z))
  | _ => (1 :: rsv, none)

/-- System words by sub (R71). -/
def readSys (n : Nat) : Reading :=
  let sc := fld 4 n 18; let cm := fld 16 n 2
  match bitsOf n 22 4 with
  | 0 => (zeroBits n 0 2, some (.fence sc cm))
  | 1 => (zeroBits n 0 2, some (.bar sc cm))
  | 2 => ([], some (match n % 4 with
      | 0 => .efenceCopy sc cm
      | 1 => .efenceColl sc cm
      | 2 => .efenceSolve sc cm
      | _ => .efenceInfuse sc cm))
  | 3 => (zeroBits n 0 4, some (.srd (fld 6 n 16) (fld 12 n 4)))
  | 4 => (zeroBits n 0 4, some (.swr (fld 6 n 16) (fld 12 n 4)))
  | 5 => (zeroBits n 6 16, some (.trap (fld 6 n 0)))
  | 6 => (zeroBits n 0 22, some .eret)
  | 7 => (zeroBits n 0 22, some .yield)
  | 8 => (zeroBits n 0 22, some .halt)
  | 9 => (zeroBits n 0 19, some (.drain (fld 3 n 19)))
  | 10 => (zeroBits n 0 8, some (.tokw (fld 8 n 14) (fld 6 n 8)))
  | 11 => (zeroBits n 3 19, some (.regacq (fld 3 n 0)))
  | 12 => (zeroBits n 0 22, some .regrel)
  | 13 => if bitsOf n 18 1 = 1 then ([], some (.forkImm (fld 3 n 19) (fld 18 n 0)))
      else (zeroBits n 0 12, some (.forkReg (fld 3 n 19) (fld 6 n 12)))
  | 14 => (zeroBits n 0 19, some (.rdv (fld 3 n 19)))
  | _ => (zeroBits n 3 19, some (.tnext (fld 3 n 0)))

/-- Task words by sub (R72). -/
def readTask (n : Nat) : Reading :=
  let d := fld 6 n 20; let a := fld 6 n 14
  match bitsOf n 4 4 with
  | 0 => (zeroBits n 8 6, some (.tqput d a (fld 4 n 0)))
  | 1 => (zeroBits n 8 6 ++ zeroBits n 20 6 ++ zeroBits n 0 4, some (.tqwait a))
  | 2 => (zeroBits n 8 6 ++ zeroBits n 0 4, some (.tqtest d a))
  | 3 => (zeroBits n 8 6 ++ zeroBits n 0 4, some (.gtake d a))
  | _ => noInstr 1

/-- The scalar word (R64, R65). -/
def readScalar (n : Nat) : Reading :=
  let d := fld 6 n 20; let a := fld 6 n 14; let b := fld 6 n 8; let i := fld 14 n 0
  match bitsOf n 26 6 with
  | 0x01 => readAlu n
  | 0x02 => (zeroBits n 23 3, some (.cmp (fld 3 n 20) a b (fld 8 n 0)))
  | 0x03 => ([], some (.addi d a i))
  | 0x04 => ([], some (.andi d a i))
  | 0x05 => ([], some (.ori d a i))
  | 0x06 => ([], some (.xori d a i))
  | 0x07 => readShi n
  | 0x08 => ([], some (.cmpi (fld 3 n 23) (fld 3 n 20) a i))
  | 0x09 => ([], some (.lil d (fld 20 n 0)))
  | 0x0A => ([], some (.lih d (fld 20 n 0)))
  | 0x0B => (zeroBits n 0 1, some (if bitsOf n 1 1 = 1 then .bfxS d a (fld 6 n 8) (fld 6 n 2)
      else .bfxN d a (fld 6 n 8) (fld 6 n 2)))
  | 0x0C => (zeroBits n 0 2, some (.bfi d a (fld 6 n 8) (fld 6 n 2)))
  | 0x0D => ([], some (.jalr d a i))
  | 0x0E => (zeroBits n 0 4, some (.fcvt d a (fld 3 n 11) (fld 3 n 8) (fld 3 n 5) (fld 1 n 4)))
  | 0x0F => readFpu n
  | 0x10 => ([], some (.ld d a (fld 4 n 10) (fld 3 n 7) (fld 2 n 5) (fld 1 n 4) (fld 4 n 0)))
  | 0x11 => (zeroBits n 4 1, some (.st d a (fld 4 n 10) (fld 3 n 7) (fld 2 n 5) (fld 4 n 0)))
  | 0x12 => readAmo n
  | 0x18 => (zeroBits n 23 3, some (.brf (fld 3 n 20) (fld 1 n 19) (fld 1 n 18) (fld 18 n 0)))
  | 0x19 => (zeroBits n 18 2, some (.jal d (fld 18 n 0)))
  | 0x1C => ([], some (.lpset (fld 1 n 25) (fld 1 n 24) (fld 10 n 14) (fld 14 n 0)))
  | 0x1D => (zeroBits n 0 25, some (.lpbrk (fld 1 n 25)))
  | 0x20 => readSys n
  | 0x21 => readTask n
  | _ => noInstr 0

/-- The header of a vector word (R74). -/
def readVHdr (n : Nat) : VHdr :=
  { gap := fld 4 n 84, wait := fld 8 n 76, msk := fld 4 n 72, mmode := fld 2 n 70, grp := fld 3 n 67, hold := fld 2 n 18 }

/-- The operand field whose bit 0 stands at bit `lo` (R75). -/
def readVOpd (n lo : Nat) : VOpd := { na := fld 1 n lo, str := fld 3 n (lo + 1), idx := fld 10 n (lo + 4) }

/-- Layout A (R79). -/
def readVArith (n : Nat) : VArith :=
  { h := readVHdr n, ty := fld 5 n 62, d := readVOpd n 48, a := readVOpd n 34, b := readVOpd n 20, nab := fld 1 n 17,
    rnd := fld 3 n 14, sat := fld 1 n 13 }

/-- Layout L (R79). -/
def readVImm (n : Nat) : VImm :=
  { h := readVHdr n, ty := fld 5 n 62, d := readVOpd n 48, a := readVOpd n 34, b := readVOpd n 20, imm := fld 5 n 0 }

/-- Layout M (R79). -/
def readVMem (n : Nat) : VMemF :=
  { h := readVHdr n, ty := fld 5 n 62, d := readVOpd n 48, a := readVOpd n 34, b := readVOpd n 20, path := fld 3 n 15,
    tok := fld 3 n 12, oc := fld 4 n 8, sc := fld 3 n 5, sub := fld 5 n 0 }

/-- Layout G (R79). -/
def readVGfx (n : Nat) : VGfx :=
  { h := readVHdr n, ty := fld 5 n 62, d := readVOpd n 48, a := readVOpd n 34, b := readVOpd n 20, tok := fld 3 n 12,
    desc := fld 12 n 0 }

/-- A word of layout A. -/
def asA (c : VArith → Instr) (n : Nat) : Reading := (zeroBits n 0 13, some (c (readVArith n)))

/-- A word of layout L. -/
def asL (c : VImm → Instr) (n : Nat) : Reading := (zeroBits n 5 13, some (c (readVImm n)))

/-- A word of layout M. -/
def asM (c : VMemF → Instr) (n : Nat) : Reading := ([], some (c (readVMem n)))

/-- A word of layout G. -/
def asG (c : VGfx → Instr) (n : Nat) : Reading := (zeroBits n 15 3, some (c (readVGfx n)))

/-- The rows of a VATOM word by its aop (R158). -/
def readVatom (n : Nat) : Reading :=
  match n % 16 with
  | 0 => asM .vatomAdd n
  | 1 => asM .vatomAnd n
  | 2 => asM .vatomOr n
  | 3 => asM .vatomXor n
  | 4 => asM .vatomMinS n
  | 5 => asM .vatomMaxS n
  | 6 => asM .vatomMinN n
  | 7 => asM .vatomMaxN n
  | 8 => asM .vatomSwap n
  | 9 => asM .vatomCas n
  | _ => noInstr 1

/-- The rows of a VMLOG word by imm5 (R144). -/
def readVmlog (n : Nat) : Reading :=
  match n % 32 with
  | 0 => asL .vmlogAnd n
  | 1 => asL .vmlogOr n
  | 2 => asL .vmlogXor n
  | 3 => asL .vmlogAndn n
  | 4 => asL .vmlogNot n
  | 5 => asL .vmlogMov n
  | _ => noInstr 1

/-- The rows of a VRED word by imm5 (R151). -/
def readVred (n : Nat) : Reading :=
  match n % 32 with
  | 0 => asL .vredAdd n
  | 1 => asL .vredMin n
  | 2 => asL .vredMax n
  | _ => noInstr 1

/-- Does the word name path 6 (R73)? -/
def onDq (n : Nat) : Bool := bitsOf n 15 3 == 6

/-- The vector word (R74, R80, R148). -/
def readVector (n : Nat) : Reading :=
  match bitsOf n 88 8 with
  | 0x01 => asA .vadd n
  | 0x02 => asA .vsub n
  | 0x03 => asA .vmul n
  | 0x04 => asA .vfma n
  | 0x05 => asA .vmin n
  | 0x06 => asA .vmax n
  | 0x07 => asA .vabs n
  | 0x08 => asA .vneg n
  | 0x09 => asA .vmulh n
  | 0x0A => asA .vmad n
  | 0x10 => asL .vshl n
  | 0x11 => asL .vshr n
  | 0x12 => asL .vrot n
  | 0x14 => asL .vand n
  | 0x15 => asL .vor n
  | 0x16 => asL .vxor n
  | 0x17 => asL .vandn n
  | 0x18 => asL .vclz n
  | 0x19 => asL .vpopc n
  | 0x1A => if n % 32 = 0 then asL .vbilvTwo n else if n % 32 = 1 then asL .vbilvThree n else noInstr 1
  | 0x20 => (zeroBits n 0 10 ++ zeroBits n 13 4, some (.vcmp
      { h := readVHdr n, ty := fld 5 n 62, d := readVOpd n 48, a := readVOpd n 34, b := readVOpd n 20, nab := fld 1 n 17,
        cond := fld 3 n 10 }))
  | 0x21 => readVmlog n
  | 0x22 => asL .vmpop n
  | 0x23 => asL .vsig n
  | 0x24 => asL .vsel n
  | 0x25 => asL .vtos n
  | 0x26 => asL .vmov n
  | 0x28 => (zeroBits n 0 8 ++ zeroBits n 17 1 ++ zeroBits n 20 14, some (.vcvt
      { h := readVHdr n, ty := fld 5 n 62, d := readVOpd n 48, a := readVOpd n 34, rnd := fld 3 n 14, sat := fld 1 n 13,
        sty := fld 5 n 8 }))
  | 0x30 => asA .vrcp n
  | 0x31 => asA .vrsqrt n
  | 0x32 => asA .vsqrt n
  | 0x33 => asA .vexp2 n
  | 0x34 => asA .vlog2 n
  | 0x35 => asA .vsinpi n
  | 0x36 => asA .vcospi n
  | 0x40 => asL .vshuf n
  | 0x41 => asL .vrotl n
  | 0x42 => asL .vbcast n
  | 0x43 => readVred n
  | 0x50 => if onDq n then asM .vldDq n else asM .vld n
  | 0x51 => asM .vldx n
  | 0x52 => asM .vgath n
  | 0x53 => if onDq n then asM .vstDq n else asM .vst n
  | 0x54 => asM .vstx n
  | 0x55 => asM .vscat n
  | 0x56 => readVatom n
  | 0x57 => asM .vlds n
  | 0x58 => asM .vcp16 n
  | 0x60 => asG .tex n
  | 0x61 => asG .tex3 n
  | 0x62 => asG .rayq n
  | 0x63 => asG .pexp n
  | 0xF0 => (zeroBits n 18 30 ++ zeroBits n 48 9 ++ zeroBits n 62 14,
      some (.vBrf (fld 4 n 84) (fld 8 n 76) (fld 3 n 59) (fld 1 n 58) (fld 1 n 57) (fld 18 n 0)))
  | 0xF1 => (zeroBits n 0 76, some (.vRdv (fld 4 n 84) (fld 8 n 76)))
  | 0xF2 => (zeroBits n 0 76, some (.vHalt (fld 4 n 84) (fld 8 n 76)))
  | _ => noInstr 0

/-- The header of a copy word (R81). -/
def readKHdr (n : Nat) : KHdr :=
  { gap := fld 4 n 84, wait := fld 8 n 76, sig := fld 3 n 73, path := fld 3 n 62, oc := fld 4 n 58 }

/-- The KH operands (R82). -/
def readKH (n : Nat) : KH := { nx := fld 7 n 0, mx := fld 7 n 7, col := fld 16 n 14, row := fld 16 n 30, h := fld 12 n 46 }

/-- The KR operands (R82). -/
def readKR (n : Nat) : KR := { imm := fld 40 n 0, gc := fld 6 n 40, gb := fld 6 n 46, ga := fld 6 n 52 }

/-- The reserved fields of a copy control word: sig, sub and oc (R194); a sub value is one that no entry names (R83). -/
def kcBits (n : Nat) : List Nat := chk (bitsOf n 65 8 != 0) 1 ++ zeroBits n 65 11 ++ zeroBits n 58 4

/-- The unused path of a copy control word (R193). -/
def kcPath (n : Nat) : List Nat := chk (bitsOf n 62 3 != 0) 1

/-- The copy word (R81-R83). -/
def readCopy (n : Nat) : Reading :=
  let h := readKHdr n; let o := readKR n; let oh := readKH n
  let sub := bitsOf n 65 8; let red := fld 4 n 67; let q := fld 2 n 65
  match bitsOf n 88 8 with
  | 0x01 => if sub = 0 then ([], some (.cpyKh h oh)) else if sub = 1 then ([], some (.cpyKr h o)) else noInstr 1
  | 0x02 => if sub = 0 then ([], some (.cpysg h o)) else noInstr 1
  | 0x03 => if sub = 0 then ([], some (.cpymcKh h oh)) else if sub = 1 then ([], some (.cpymcKr h o)) else noInstr 1
  | 0x04 => if 64 ≤ sub then noInstr 1
      else if sub % 4 = 0 then (chk (red != 0) 2, some (.scatNative h o))
      else if sub % 4 = 1 then ([], some (.scatStrain h red o)) else noInstr 1
  | 0x05 => if sub = 0 then ([], some (.gath h o)) else noInstr 1
  | 0x06 => if 64 ≤ sub then noInstr 1
      else if sub % 4 = 0 then ([], some (.collAllred h red o))
      else if sub % 4 = 1 then ([], some (.collRedsc h red o))
      else if sub % 4 = 2 then ([], some (.collGath h red o)) else noInstr 1
  | 0x07 =>
    match sub with
    | 0 => ([], some (.xfmTr h o))
    | 1 => ([], some (.xfmCvt h o))
    | 2 => ([], some (.xfmBdb h o))
    | 3 => ([], some (.xfmPsum h o))
    | _ => noInstr 1
  | 0x08 => if sub = 0 then ([], some (.jsub h o)) else noInstr 1
  | 0x09 => if sub < 4 then ([], some (.dqpushKh h q oh)) else if sub < 8 then ([], some (.dqpushKr h q o)) else noInstr 1
  | 0x0A => if sub < 4 then ([], some (.dqpopKh h q oh)) else if sub < 8 then ([], some (.dqpopKr h q o)) else noInstr 1
  | 0x0B => if sub = 0 then ([], some (.sqgo h o)) else noInstr 1
  | 0xF0 => (kcBits n ++ kcPath n ++ zeroBits n 18 35,
      some (.kBrf (fld 4 n 84) (fld 8 n 76) (fld 3 n 55) (fld 1 n 54) (fld 1 n 53) (fld 18 n 0)))
  | 0xF1 => (kcBits n ++ kcPath n ++ zeroBits n 0 58, some (.kRdv (fld 4 n 84) (fld 8 n 76)))
  | 0xF2 => (kcBits n ++ kcPath n ++ zeroBits n 0 58, some (.kHalt (fld 4 n 84) (fld 8 n 76)))
  | 0xF3 => (kcBits n ++ kcPath n ++ zeroBits n 0 44, some (.kTokw (fld 4 n 84) (fld 8 n 76) (fld 8 n 50) (fld 6 n 44)))
  | 0xF4 => (kcBits n ++ zeroBits n 0 58, some (.kDrain (fld 4 n 84) (fld 8 n 76) (fld 3 n 62)))
  | _ => noInstr 0

/-- The step fields of MSTEP and MNGO (R84). -/
def readMStep (n : Nat) : MStepF :=
  { gap := fld 4 n 172, wait := fld 8 n 164, zacc := fld 1 n 176, fmta := fld 5 n 156, fmtb := fld 5 n 151,
    acc := fld 3 n 148, fin := fld 1 n 147, ha := fld 12 n 135, arow := fld 16 n 119, acol := fld 16 n 103,
    hb := fld 12 n 91, brow := fld 16 n 75, bcol := fld 16 n 59, k := fld 8 n 51, ta := fld 1 n 50, tb := fld 1 n 49,
    pro := fld 3 n 46, ptab := fld 8 n 38, oc := fld 4 n 34, mx := fld 7 n 27, nx := fld 7 n 20 }

/-- The row fields of MREAD, MWRITE and MCVT (R84). -/
def readMRow (n : Nat) : MRowF :=
  { gap := fld 4 n 172, wait := fld 8 n 164, sig := fld 3 n 161, fmt := fld 5 n 151, acc := fld 3 n 148,
    row := fld 16 n 119, mx := fld 7 n 27, vx := fld 10 n 10 }

/-- Bits a row-moving word leaves unused, its sig and fmtb apart (R85). -/
def mrowBits (n : Nat) : List Nat :=
  zeroBits n 176 8 ++ zeroBits n 156 5 ++ zeroBits n 135 13 ++ zeroBits n 34 85 ++ zeroBits n 20 7 ++ zeroBits n 0 10

/-- Bits a word that uses only acc leaves unused (R85). -/
def maccBits (n : Nat) : List Nat := zeroBits n 176 8 ++ zeroBits n 151 13 ++ zeroBits n 0 148

/-- MPRO by its pro field (R184). -/
def readMpro (n : Nat) : Reading :=
  let g := fld 4 n 172; let w := fld 8 n 164; let sig := fld 3 n 161; let t := fld 8 n 38
  let rsv := zeroBits n 176 8 ++ zeroBits n 49 112 ++ zeroBits n 0 38
  match bitsOf n 46 3 with
  | 0 => (rsv, some (.mproNone g w sig t))
  | 1 => (rsv, some (.mproInt4 g w sig t))
  | 2 => (rsv, some (.mproCb3 g w sig t))
  | 3 => (rsv, some (.mproCb4 g w sig t))
  | 4 => (rsv, some (.mproBmap g w sig t))
  | _ => (1 :: rsv, none)

/-- The matrix word (R84, R85). -/
def readMatrix (n : Nat) : Reading :=
  let g := fld 4 n 172; let w := fld 8 n 164; let acc := fld 3 n 148
  let stepBits := zeroBits n 177 7 ++ zeroBits n 161 3 ++ zeroBits n 0 20
  match bitsOf n 184 8 with
  | 0x01 => (stepBits, some (.mstep (readMStep n)))
  | 0x02 => (zeroBits n 176 8 ++ zeroBits n 151 13 ++ zeroBits n 147 1 ++ zeroBits n 94 9 ++ zeroBits n 0 59,
      some (.mnset { gap := g, wait := w, lv := acc, count := fld 12 n 135, ar := fld 16 n 119, ac := fld 16 n 103,
                     br := fld 16 n 75, bc := fld 16 n 59, ts := fld 3 n 91 }))
  | 0x03 => (stepBits, some (.mngo (readMStep n)))
  | 0x04 => (zeroBits n 176 8 ++ zeroBits n 0 164, some (.mnstop g w))
  | 0x05 => (maccBits n, some (.mzero g w acc))
  | 0x06 => (maccBits n, some (.mrel g w acc))
  | 0x07 => (mrowBits n, some (.mread (readMRow n)))
  | 0x08 => (mrowBits n, some (.mwrite (readMRow n)))
  | 0x09 => (zeroBits n 176 8 ++ zeroBits n 151 13 ++ zeroBits n 147 1 ++ zeroBits n 138 9 ++ zeroBits n 103 32 ++
        zeroBits n 101 2 ++ zeroBits n 20 71 ++ zeroBits n 0 10,
      some (.msca { gap := g, wait := w, acc := acc, src := fld 3 n 135, sa := fld 10 n 10, sb := fld 10 n 91 }))
  | 0x0A => (mrowBits n, some (.mcvt (readMRow n)))
  | 0x0B => readMpro n
  | 0xF0 => (zeroBits n 178 6 ++ zeroBits n 151 13 ++ zeroBits n 135 13 ++ zeroBits n 0 119,
      some (.mBrf g w acc (fld 1 n 177) (fld 1 n 176) (fld 16 n 119)))
  | 0xF1 => (zeroBits n 176 8 ++ zeroBits n 0 164, some (.mRdv g w))
  | 0xF2 => (zeroBits n 176 8 ++ zeroBits n 0 164, some (.mHalt g w))
  | _ => noInstr 0

/-- The word of a stream (R62). -/
def readWord : Strm → Nat → Reading
  | .s, n => readScalar n
  | .v, n => readVector n
  | .m, n => readMatrix n
  | .k, n => readCopy n

/-- Every class-0 detail a word breaks (R92). -/
def wordDetails (e : Env) (st : Strm) (n : Nat) : List Nat :=
  let r := readWord st n
  r.1 ++ (match r.2 with
    | some i => i.details e
    | none => [])

/-- The class-0 detail a word is reported with, none for an instruction (R92). -/
def classZero (e : Env) (st : Strm) (n : Nat) : Option Nat := lowest (wordDetails e st n)

/-- The instruction a word is, none where it breaks an encoding rule. -/
def decode (e : Env) (st : Strm) (n : Nat) : Option Instr :=
  match classZero e st n with
  | none => (readWord st n).2
  | some _ => none

/-- Bytes of a word of a stream (R62). -/
def wordBytes : Strm → Nat
  | .s => 4
  | .v => 12
  | .m => 24
  | .k => 12

/-- The number whose little-endian bytes are given (R62). -/
def leNat : List Byte → Nat
  | [] => 0
  | b :: bs => b.toNat + 256 * leNat bs

/-- The `len` little-endian bytes of a number (R62). -/
def leBytes : Nat → Nat → List Byte
  | 0, _ => []
  | len + 1, n => BitVec.ofNat 8 n :: leBytes len (n / 256)

/-- The stream whose words have a width in bits; 96 bits name a vector word, as a copy word has the same width (log 5). -/
def streamOfBits : Nat → Option Strm
  | 32 => some .s
  | 96 => some .v
  | 192 => some .m
  | _ => none

/-- The environment of an NPU core whose binary8 descriptors hold P = 0, as at crew start (R47). -/
def Env.start : Env := { npu := true, b8d0 := 0, b8d1 := 0 }

/-- The instruction read from an opcode-table word of `nbits` bits, through its bytes in memory. DESIGN CHOICE (log 5). -/
def decodeTableWord (nbits w : Nat) : Option Instr :=
  match streamOfBits nbits with
  | some st => decode Env.start st (leNat (leBytes (wordBytes st) w))
  | none => none

/-! ## Encoding: the words of an instruction, from the same tables -/

/-- SA words (R64). -/
def encSA (op : Nat) (d a b : GReg) (fn : Nat) : Nat := op * 2 ^ 26 + d.toNat * 2 ^ 20 + a.toNat * 2 ^ 14 + b.toNat * 2 ^ 8 + fn

/-- SI words (R64). -/
def encSI (op : Nat) (d a : GReg) (imm : Nat) : Nat := op * 2 ^ 26 + d.toNat * 2 ^ 20 + a.toNat * 2 ^ 14 + imm

/-- SM words (R64). -/
def encSM (op : Nat) (d a : GReg) (oc : BitVec 4) (sc : BitVec 3) (sub7 : Nat) : Nat :=
  op * 2 ^ 26 + d.toNat * 2 ^ 20 + a.toNat * 2 ^ 14 + oc.toNat * 2 ^ 10 + sc.toNat * 2 ^ 7 + sub7

/-- SX words (R64). -/
def encSX (sub body : Nat) : Nat := 0x20 * 2 ^ 26 + sub * 2 ^ 22 + body

/-- SQ words (R64). -/
def encSQ (d a : GReg) (sub q : Nat) : Nat := 0x21 * 2 ^ 26 + d.toNat * 2 ^ 20 + a.toNat * 2 ^ 14 + sub * 2 ^ 4 + q

/-- The modifiers of a scalar floating-point word (R65). -/
def encFpu (d a b : GReg) (r : BitVec 3) (f : BitVec 2) (op : Nat) : Nat :=
  encSA 0x0F d a b (r.toNat * 2 ^ 5 + f.toNat * 2 ^ 3 + op)

/-- An operand field (R75). -/
def encOpd (o : VOpd) : Nat := o.na.toNat + o.str.toNat * 2 + o.idx.toNat * 2 ^ 4

/-- A vector word but for its mod field (R74). -/
def encV (op : Nat) (h : VHdr) (ty : BitVec 5) (d a b : Nat) (mod : Nat) : Nat :=
  op * 2 ^ 88 + h.gap.toNat * 2 ^ 84 + h.wait.toNat * 2 ^ 76 + h.msk.toNat * 2 ^ 72 + h.mmode.toNat * 2 ^ 70 +
    h.grp.toNat * 2 ^ 67 + ty.toNat * 2 ^ 62 + d * 2 ^ 48 + a * 2 ^ 34 + b * 2 ^ 20 + h.hold.toNat * 2 ^ 18 + mod

/-- Layout A (R79). -/
def encA (op : Nat) (f : VArith) : Nat :=
  encV op f.h f.ty (encOpd f.d) (encOpd f.a) (encOpd f.b) (f.nab.toNat * 2 ^ 17 + f.rnd.toNat * 2 ^ 14 + f.sat.toNat * 2 ^ 13)

/-- Layout L (R79). -/
def encL (op : Nat) (f : VImm) : Nat := encV op f.h f.ty (encOpd f.d) (encOpd f.a) (encOpd f.b) f.imm.toNat

/-- Layout M (R79). -/
def encM (op : Nat) (f : VMemF) : Nat :=
  encV op f.h f.ty (encOpd f.d) (encOpd f.a) (encOpd f.b)
    (f.path.toNat * 2 ^ 15 + f.tok.toNat * 2 ^ 12 + f.oc.toNat * 2 ^ 8 + f.sc.toNat * 2 ^ 5 + f.sub.toNat)

/-- Layout G (R79). -/
def encG (op : Nat) (f : VGfx) : Nat :=
  encV op f.h f.ty (encOpd f.d) (encOpd f.a) (encOpd f.b) (f.tok.toNat * 2 ^ 12 + f.desc.toNat)

/-- A control word of the vector stream (R148). -/
def encVC (op : Nat) (gap : BitVec 4) (wait : BitVec 8) (rest : Nat) : Nat :=
  op * 2 ^ 88 + gap.toNat * 2 ^ 84 + wait.toNat * 2 ^ 76 + rest

/-- A copy word (R81). -/
def encK (op sub : Nat) (h : KHdr) (operands : Nat) : Nat :=
  op * 2 ^ 88 + h.gap.toNat * 2 ^ 84 + h.wait.toNat * 2 ^ 76 + h.sig.toNat * 2 ^ 73 + sub * 2 ^ 65 + h.path.toNat * 2 ^ 62 +
    h.oc.toNat * 2 ^ 58 + operands

/-- The KH operands (R82). -/
def encKH (o : KH) : Nat :=
  o.h.toNat * 2 ^ 46 + o.row.toNat * 2 ^ 30 + o.col.toNat * 2 ^ 14 + o.mx.toNat * 2 ^ 7 + o.nx.toNat

/-- The KR operands (R82). -/
def encKR (o : KR) : Nat := o.ga.toNat * 2 ^ 52 + o.gb.toNat * 2 ^ 46 + o.gc.toNat * 2 ^ 40 + o.imm.toNat

/-- A matrix word but for its own fields (R84). -/
def encMx (op : Nat) (gap : BitVec 4) (wait : BitVec 8) (rest : Nat) : Nat :=
  op * 2 ^ 184 + gap.toNat * 2 ^ 172 + wait.toNat * 2 ^ 164 + rest

/-- MSTEP and MNGO (R84, R85). -/
def encStep (op : Nat) (f : MStepF) : Nat :=
  encMx op f.gap f.wait (f.zacc.toNat * 2 ^ 176 + f.fmta.toNat * 2 ^ 156 + f.fmtb.toNat * 2 ^ 151 + f.acc.toNat * 2 ^ 148 +
    f.fin.toNat * 2 ^ 147 + f.ha.toNat * 2 ^ 135 + f.arow.toNat * 2 ^ 119 + f.acol.toNat * 2 ^ 103 + f.hb.toNat * 2 ^ 91 +
    f.brow.toNat * 2 ^ 75 + f.bcol.toNat * 2 ^ 59 + f.k.toNat * 2 ^ 51 + f.ta.toNat * 2 ^ 50 + f.tb.toNat * 2 ^ 49 +
    f.pro.toNat * 2 ^ 46 + f.ptab.toNat * 2 ^ 38 + f.oc.toNat * 2 ^ 34 + f.mx.toNat * 2 ^ 27 + f.nx.toNat * 2 ^ 20)

/-- MREAD, MWRITE and MCVT (R84, R85). -/
def encRow (op : Nat) (f : MRowF) : Nat :=
  encMx op f.gap f.wait (f.sig.toNat * 2 ^ 161 + f.fmt.toNat * 2 ^ 151 + f.acc.toNat * 2 ^ 148 + f.row.toNat * 2 ^ 119 +
    f.mx.toNat * 2 ^ 27 + f.vx.toNat * 2 ^ 10)

/-- MPRO (R85). -/
def encPro (pro : Nat) (gap : BitVec 4) (wait : BitVec 8) (sig : BitVec 3) (ptab : BitVec 8) : Nat :=
  encMx 0x0B gap wait (sig.toNat * 2 ^ 161 + pro * 2 ^ 46 + ptab.toNat * 2 ^ 38)

/-- The stream whose words hold the instruction; an event has none. -/
def Instr.stream : Instr → Option Strm
  | .add _ _ _ => some .s
  | .sub _ _ _ => some .s
  | .mul _ _ _ => some .s
  | .mulhS _ _ _ => some .s
  | .mulhN _ _ _ => some .s
  | .divS _ _ _ => some .s
  | .divN _ _ _ => some .s
  | .remS _ _ _ => some .s
  | .remN _ _ _ => some .s
  | .and _ _ _ => some .s
  | .or _ _ _ => some .s
  | .xor _ _ _ => some .s
  | .andn _ _ _ => some .s
  | .sll _ _ _ => some .s
  | .srl _ _ _ => some .s
  | .sra _ _ _ => some .s
  | .rol _ _ _ => some .s
  | .ror _ _ _ => some .s
  | .minS _ _ _ => some .s
  | .minN _ _ _ => some .s
  | .maxS _ _ _ => some .s
  | .maxN _ _ _ => some .s
  | .clz _ _ => some .s
  | .ctz _ _ => some .s
  | .popc _ _ => some .s
  | .bilv2 _ _ _ => some .s
  | .bilv3 _ _ _ => some .s
  | .adds _ _ _ _ => some .s
  | .sel _ _ _ _ => some .s
  | .cmp _ _ _ _ => some .s
  | .addi _ _ _ => some .s
  | .andi _ _ _ => some .s
  | .ori _ _ _ => some .s
  | .xori _ _ _ => some .s
  | .slli _ _ _ => some .s
  | .srli _ _ _ => some .s
  | .srai _ _ _ => some .s
  | .rori _ _ _ => some .s
  | .cmpi _ _ _ _ => some .s
  | .lil _ _ => some .s
  | .lih _ _ => some .s
  | .bfxS _ _ _ _ => some .s
  | .bfxN _ _ _ _ => some .s
  | .bfi _ _ _ _ => some .s
  | .jalr _ _ _ => some .s
  | .fcvt _ _ _ _ _ _ => some .s
  | .fadd _ _ _ _ _ => some .s
  | .fsub _ _ _ _ _ => some .s
  | .fmul _ _ _ _ _ => some .s
  | .ffma _ _ _ _ _ => some .s
  | .fmin _ _ _ _ _ => some .s
  | .fmax _ _ _ _ _ => some .s
  | .fabs _ _ _ _ => some .s
  | .fneg _ _ _ _ => some .s
  | .ld _ _ _ _ _ _ _ => some .s
  | .st _ _ _ _ _ _ => some .s
  | .amoAdd _ _ _ _ _ => some .s
  | .amoAnd _ _ _ _ _ => some .s
  | .amoOr _ _ _ _ _ => some .s
  | .amoXor _ _ _ _ _ => some .s
  | .amoMinS _ _ _ _ _ => some .s
  | .amoMaxS _ _ _ _ _ => some .s
  | .amoMinN _ _ _ _ _ => some .s
  | .amoMaxN _ _ _ _ _ => some .s
  | .amoSwap _ _ _ _ _ => some .s
  | .amoCas _ _ _ _ _ => some .s
  | .brf _ _ _ _ => some .s
  | .jal _ _ => some .s
  | .lpset _ _ _ _ => some .s
  | .lpbrk _ => some .s
  | .fence _ _ => some .s
  | .bar _ _ => some .s
  | .efenceCopy _ _ => some .s
  | .efenceColl _ _ => some .s
  | .efenceSolve _ _ => some .s
  | .efenceInfuse _ _ => some .s
  | .srd _ _ => some .s
  | .swr _ _ => some .s
  | .trap _ => some .s
  | .eret => some .s
  | .yield => some .s
  | .halt => some .s
  | .drain _ => some .s
  | .tokw _ _ => some .s
  | .regacq _ => some .s
  | .regrel => some .s
  | .forkImm _ _ => some .s
  | .forkReg _ _ => some .s
  | .rdv _ => some .s
  | .tnext _ => some .s
  | .tqput _ _ _ => some .s
  | .tqwait _ => some .s
  | .tqtest _ _ => some .s
  | .gtake _ _ => some .s
  | .vadd _ => some .v
  | .vsub _ => some .v
  | .vmul _ => some .v
  | .vfma _ => some .v
  | .vmin _ => some .v
  | .vmax _ => some .v
  | .vabs _ => some .v
  | .vneg _ => some .v
  | .vmulh _ => some .v
  | .vmad _ => some .v
  | .vshl _ => some .v
  | .vshr _ => some .v
  | .vrot _ => some .v
  | .vand _ => some .v
  | .vor _ => some .v
  | .vxor _ => some .v
  | .vandn _ => some .v
  | .vclz _ => some .v
  | .vpopc _ => some .v
  | .vbilvTwo _ => some .v
  | .vbilvThree _ => some .v
  | .vcmp _ => some .v
  | .vmlogAnd _ => some .v
  | .vmlogOr _ => some .v
  | .vmlogXor _ => some .v
  | .vmlogAndn _ => some .v
  | .vmlogNot _ => some .v
  | .vmlogMov _ => some .v
  | .vmpop _ => some .v
  | .vsig _ => some .v
  | .vsel _ => some .v
  | .vtos _ => some .v
  | .vmov _ => some .v
  | .vcvt _ => some .v
  | .vrcp _ => some .v
  | .vrsqrt _ => some .v
  | .vsqrt _ => some .v
  | .vexp2 _ => some .v
  | .vlog2 _ => some .v
  | .vsinpi _ => some .v
  | .vcospi _ => some .v
  | .vshuf _ => some .v
  | .vrotl _ => some .v
  | .vbcast _ => some .v
  | .vredAdd _ => some .v
  | .vredMin _ => some .v
  | .vredMax _ => some .v
  | .vld _ => some .v
  | .vldDq _ => some .v
  | .vldx _ => some .v
  | .vgath _ => some .v
  | .vst _ => some .v
  | .vstDq _ => some .v
  | .vstx _ => some .v
  | .vscat _ => some .v
  | .vatomAdd _ => some .v
  | .vatomAnd _ => some .v
  | .vatomOr _ => some .v
  | .vatomXor _ => some .v
  | .vatomMinS _ => some .v
  | .vatomMaxS _ => some .v
  | .vatomMinN _ => some .v
  | .vatomMaxN _ => some .v
  | .vatomSwap _ => some .v
  | .vatomCas _ => some .v
  | .vlds _ => some .v
  | .vcp16 _ => some .v
  | .tex _ => some .v
  | .tex3 _ => some .v
  | .rayq _ => some .v
  | .pexp _ => some .v
  | .vBrf _ _ _ _ _ _ => some .v
  | .vRdv _ _ => some .v
  | .vHalt _ _ => some .v
  | .mstep _ => some .m
  | .mnset _ => some .m
  | .mngo _ => some .m
  | .mnstop _ _ => some .m
  | .mzero _ _ _ => some .m
  | .mrel _ _ _ => some .m
  | .mread _ => some .m
  | .mwrite _ => some .m
  | .msca _ => some .m
  | .mcvt _ => some .m
  | .mproNone _ _ _ _ => some .m
  | .mproInt4 _ _ _ _ => some .m
  | .mproCb3 _ _ _ _ => some .m
  | .mproCb4 _ _ _ _ => some .m
  | .mproBmap _ _ _ _ => some .m
  | .mBrf _ _ _ _ _ _ => some .m
  | .mRdv _ _ => some .m
  | .mHalt _ _ => some .m
  | .cpyKh _ _ => some .k
  | .cpyKr _ _ => some .k
  | .cpysg _ _ => some .k
  | .cpymcKh _ _ => some .k
  | .cpymcKr _ _ => some .k
  | .scatNative _ _ => some .k
  | .scatStrain _ _ _ => some .k
  | .gath _ _ => some .k
  | .collAllred _ _ _ => some .k
  | .collRedsc _ _ _ => some .k
  | .collGath _ _ _ => some .k
  | .xfmTr _ _ => some .k
  | .xfmCvt _ _ => some .k
  | .xfmBdb _ _ => some .k
  | .xfmPsum _ _ => some .k
  | .jsub _ _ => some .k
  | .dqpushKh _ _ _ => some .k
  | .dqpushKr _ _ _ => some .k
  | .dqpopKh _ _ _ => some .k
  | .dqpopKr _ _ _ => some .k
  | .sqgo _ _ => some .k
  | .kBrf _ _ _ _ _ _ => some .k
  | .kRdv _ _ => some .k
  | .kHalt _ _ => some .k
  | .kTokw _ _ _ _ => some .k
  | .kDrain _ _ _ => some .k
  | _ => none

/-- The words of an instruction as one number (R64-R85); an event has none and gives 0. -/
def encode : Instr → Nat
  | .add d a b => encSA 0x01 d a b 0x00
  | .sub d a b => encSA 0x01 d a b 0x01
  | .mul d a b => encSA 0x01 d a b 0x02
  | .mulhS d a b => encSA 0x01 d a b 0x03
  | .mulhN d a b => encSA 0x01 d a b 0x04
  | .divS d a b => encSA 0x01 d a b 0x06
  | .divN d a b => encSA 0x01 d a b 0x07
  | .remS d a b => encSA 0x01 d a b 0x08
  | .remN d a b => encSA 0x01 d a b 0x09
  | .and d a b => encSA 0x01 d a b 0x10
  | .or d a b => encSA 0x01 d a b 0x11
  | .xor d a b => encSA 0x01 d a b 0x12
  | .andn d a b => encSA 0x01 d a b 0x13
  | .sll d a b => encSA 0x01 d a b 0x18
  | .srl d a b => encSA 0x01 d a b 0x19
  | .sra d a b => encSA 0x01 d a b 0x1A
  | .rol d a b => encSA 0x01 d a b 0x1B
  | .ror d a b => encSA 0x01 d a b 0x1C
  | .minS d a b => encSA 0x01 d a b 0x20
  | .minN d a b => encSA 0x01 d a b 0x21
  | .maxS d a b => encSA 0x01 d a b 0x22
  | .maxN d a b => encSA 0x01 d a b 0x23
  | .clz d a => encSA 0x01 d a 0 0x28
  | .ctz d a => encSA 0x01 d a 0 0x29
  | .popc d a => encSA 0x01 d a 0 0x2A
  | .bilv2 d a b => encSA 0x01 d a b 0x2C
  | .bilv3 d a b => encSA 0x01 d a b 0x2D
  | .adds d a b k => encSA 0x01 d a b (0x30 + k.toNat)
  | .sel d a b c => encSA 0x01 d a b (0x40 + c.toNat)
  | .cmp c a b f => 0x02 * 2 ^ 26 + c.toNat * 2 ^ 20 + a.toNat * 2 ^ 14 + b.toNat * 2 ^ 8 + f.toNat
  | .addi d a i => encSI 0x03 d a i.toNat
  | .andi d a i => encSI 0x04 d a i.toNat
  | .ori d a i => encSI 0x05 d a i.toNat
  | .xori d a i => encSI 0x06 d a i.toNat
  | .slli d a k => encSI 0x07 d a k.toNat
  | .srli d a k => encSI 0x07 d a (1 * 2 ^ 12 + k.toNat)
  | .srai d a k => encSI 0x07 d a (2 * 2 ^ 12 + k.toNat)
  | .rori d a k => encSI 0x07 d a (3 * 2 ^ 12 + k.toNat)
  | .cmpi cond c a i => 0x08 * 2 ^ 26 + cond.toNat * 2 ^ 23 + c.toNat * 2 ^ 20 + a.toNat * 2 ^ 14 + i.toNat
  | .lil d i => 0x09 * 2 ^ 26 + d.toNat * 2 ^ 20 + i.toNat
  | .lih d i => 0x0A * 2 ^ 26 + d.toNat * 2 ^ 20 + i.toNat
  | .bfxS d a pos w => encSI 0x0B d a (pos.toNat * 2 ^ 8 + w.toNat * 2 ^ 2 + 2)
  | .bfxN d a pos w => encSI 0x0B d a (pos.toNat * 2 ^ 8 + w.toNat * 2 ^ 2)
  | .bfi d a pos w => encSI 0x0C d a (pos.toNat * 2 ^ 8 + w.toNat * 2 ^ 2)
  | .jalr d a i => encSI 0x0D d a i.toNat
  | .fcvt d a src tgt rnd sat =>
    0x0E * 2 ^ 26 + d.toNat * 2 ^ 20 + a.toNat * 2 ^ 14 + src.toNat * 2 ^ 11 + tgt.toNat * 2 ^ 8 + rnd.toNat * 2 ^ 5 +
      sat.toNat * 2 ^ 4
  | .fadd d a b r f => encFpu d a b r f 0
  | .fsub d a b r f => encFpu d a b r f 1
  | .fmul d a b r f => encFpu d a b r f 2
  | .ffma d a b r f => encFpu d a b r f 3
  | .fmin d a b r f => encFpu d a b r f 4
  | .fmax d a b r f => encFpu d a b r f 5
  | .fabs d a r f => encFpu d a 0 r f 6
  | .fneg d a r f => encFpu d a 0 r f 7
  | .ld d a oc sc size sx off => encSM 0x10 d a oc sc (size.toNat * 2 ^ 5 + sx.toNat * 2 ^ 4 + off.toNat)
  | .st d a oc sc size off => encSM 0x11 d a oc sc (size.toNat * 2 ^ 5 + off.toNat)
  | .amoAdd d a oc sc z => encSM 0x12 d a oc sc (0 * 2 ^ 3 + z.toNat * 2 ^ 2)
  | .amoAnd d a oc sc z => encSM 0x12 d a oc sc (1 * 2 ^ 3 + z.toNat * 2 ^ 2)
  | .amoOr d a oc sc z => encSM 0x12 d a oc sc (2 * 2 ^ 3 + z.toNat * 2 ^ 2)
  | .amoXor d a oc sc z => encSM 0x12 d a oc sc (3 * 2 ^ 3 + z.toNat * 2 ^ 2)
  | .amoMinS d a oc sc z => encSM 0x12 d a oc sc (4 * 2 ^ 3 + z.toNat * 2 ^ 2)
  | .amoMaxS d a oc sc z => encSM 0x12 d a oc sc (5 * 2 ^ 3 + z.toNat * 2 ^ 2)
  | .amoMinN d a oc sc z => encSM 0x12 d a oc sc (6 * 2 ^ 3 + z.toNat * 2 ^ 2)
  | .amoMaxN d a oc sc z => encSM 0x12 d a oc sc (7 * 2 ^ 3 + z.toNat * 2 ^ 2)
  | .amoSwap d a oc sc z => encSM 0x12 d a oc sc (8 * 2 ^ 3 + z.toNat * 2 ^ 2)
  | .amoCas d a oc sc z => encSM 0x12 d a oc sc (9 * 2 ^ 3 + z.toNat * 2 ^ 2)
  | .brf c take sense off =>
    0x18 * 2 ^ 26 + c.toNat * 2 ^ 20 + take.toNat * 2 ^ 19 + sense.toNat * 2 ^ 18 + off.toNat
  | .jal d off => 0x19 * 2 ^ 26 + d.toNat * 2 ^ 20 + off.toNat
  | .lpset lv ci cnt len =>
    0x1C * 2 ^ 26 + lv.toNat * 2 ^ 25 + ci.toNat * 2 ^ 24 + cnt.toNat * 2 ^ 14 + len.toNat
  | .lpbrk lv => 0x1D * 2 ^ 26 + lv.toNat * 2 ^ 25
  | .fence sc cmask => encSX 0 (sc.toNat * 2 ^ 18 + cmask.toNat * 2 ^ 2)
  | .bar sc cmask => encSX 1 (sc.toNat * 2 ^ 18 + cmask.toNat * 2 ^ 2)
  | .efenceCopy sc cmask => encSX 2 (sc.toNat * 2 ^ 18 + cmask.toNat * 2 ^ 2)
  | .efenceColl sc cmask => encSX 2 (sc.toNat * 2 ^ 18 + cmask.toNat * 2 ^ 2 + 1)
  | .efenceSolve sc cmask => encSX 2 (sc.toNat * 2 ^ 18 + cmask.toNat * 2 ^ 2 + 2)
  | .efenceInfuse sc cmask => encSX 2 (sc.toNat * 2 ^ 18 + cmask.toNat * 2 ^ 2 + 3)
  | .srd d n => encSX 3 (d.toNat * 2 ^ 16 + n.toNat * 2 ^ 4)
  | .swr a n => encSX 4 (a.toNat * 2 ^ 16 + n.toNat * 2 ^ 4)
  | .trap code => encSX 5 code.toNat
  | .eret => encSX 6 0
  | .yield => encSX 7 0
  | .halt => encSX 8 0
  | .drain path => encSX 9 (path.toNat * 2 ^ 19)
  | .tokw kmask lim => encSX 10 (kmask.toNat * 2 ^ 14 + lim.toNat * 2 ^ 8)
  | .regacq n => encSX 11 n.toNat
  | .regrel => encSX 12 0
  | .forkImm m pc => encSX 13 (m.toNat * 2 ^ 19 + 1 * 2 ^ 18 + pc.toNat)
  | .forkReg m a => encSX 13 (m.toNat * 2 ^ 19 + a.toNat * 2 ^ 12)
  | .rdv m => encSX 14 (m.toNat * 2 ^ 19)
  | .tnext c => encSX 15 c.toNat
  | .tqput d a q => encSQ d a 0 q.toNat
  | .tqwait a => encSQ 0 a 1 0
  | .tqtest d a => encSQ d a 2 0
  | .gtake d a => encSQ d a 3 0
  | .vadd f => encA 0x01 f
  | .vsub f => encA 0x02 f
  | .vmul f => encA 0x03 f
  | .vfma f => encA 0x04 f
  | .vmin f => encA 0x05 f
  | .vmax f => encA 0x06 f
  | .vabs f => encA 0x07 f
  | .vneg f => encA 0x08 f
  | .vmulh f => encA 0x09 f
  | .vmad f => encA 0x0A f
  | .vshl f => encL 0x10 f
  | .vshr f => encL 0x11 f
  | .vrot f => encL 0x12 f
  | .vand f => encL 0x14 f
  | .vor f => encL 0x15 f
  | .vxor f => encL 0x16 f
  | .vandn f => encL 0x17 f
  | .vclz f => encL 0x18 f
  | .vpopc f => encL 0x19 f
  | .vbilvTwo f => encL 0x1A f
  | .vbilvThree f => encL 0x1A f
  | .vcmp f => encV 0x20 f.h f.ty (encOpd f.d) (encOpd f.a) (encOpd f.b) (f.nab.toNat * 2 ^ 17 + f.cond.toNat * 2 ^ 10)
  | .vmlogAnd f => encL 0x21 f
  | .vmlogOr f => encL 0x21 f
  | .vmlogXor f => encL 0x21 f
  | .vmlogAndn f => encL 0x21 f
  | .vmlogNot f => encL 0x21 f
  | .vmlogMov f => encL 0x21 f
  | .vmpop f => encL 0x22 f
  | .vsig f => encL 0x23 f
  | .vsel f => encL 0x24 f
  | .vtos f => encL 0x25 f
  | .vmov f => encL 0x26 f
  | .vcvt f =>
    encV 0x28 f.h f.ty (encOpd f.d) (encOpd f.a) 0 (f.rnd.toNat * 2 ^ 14 + f.sat.toNat * 2 ^ 13 + f.sty.toNat * 2 ^ 8)
  | .vrcp f => encA 0x30 f
  | .vrsqrt f => encA 0x31 f
  | .vsqrt f => encA 0x32 f
  | .vexp2 f => encA 0x33 f
  | .vlog2 f => encA 0x34 f
  | .vsinpi f => encA 0x35 f
  | .vcospi f => encA 0x36 f
  | .vshuf f => encL 0x40 f
  | .vrotl f => encL 0x41 f
  | .vbcast f => encL 0x42 f
  | .vredAdd f => encL 0x43 f
  | .vredMin f => encL 0x43 f
  | .vredMax f => encL 0x43 f
  | .vld f => encM 0x50 f
  | .vldDq f => encM 0x50 f
  | .vldx f => encM 0x51 f
  | .vgath f => encM 0x52 f
  | .vst f => encM 0x53 f
  | .vstDq f => encM 0x53 f
  | .vstx f => encM 0x54 f
  | .vscat f => encM 0x55 f
  | .vatomAdd f => encM 0x56 f
  | .vatomAnd f => encM 0x56 f
  | .vatomOr f => encM 0x56 f
  | .vatomXor f => encM 0x56 f
  | .vatomMinS f => encM 0x56 f
  | .vatomMaxS f => encM 0x56 f
  | .vatomMinN f => encM 0x56 f
  | .vatomMaxN f => encM 0x56 f
  | .vatomSwap f => encM 0x56 f
  | .vatomCas f => encM 0x56 f
  | .vlds f => encM 0x57 f
  | .vcp16 f => encM 0x58 f
  | .tex f => encG 0x60 f
  | .tex3 f => encG 0x61 f
  | .rayq f => encG 0x62 f
  | .pexp f => encG 0x63 f
  | .vBrf g w c take sense off =>
    encVC 0xF0 g w (c.toNat * 2 ^ 59 + take.toNat * 2 ^ 58 + sense.toNat * 2 ^ 57 + off.toNat)
  | .vRdv g w => encVC 0xF1 g w 0
  | .vHalt g w => encVC 0xF2 g w 0
  | .mstep f => encStep 0x01 f
  | .mnset f =>
    encMx 0x02 f.gap f.wait (f.lv.toNat * 2 ^ 148 + f.count.toNat * 2 ^ 135 + f.ar.toNat * 2 ^ 119 + f.ac.toNat * 2 ^ 103 +
      f.ts.toNat * 2 ^ 91 + f.br.toNat * 2 ^ 75 + f.bc.toNat * 2 ^ 59)
  | .mngo f => encStep 0x03 f
  | .mnstop g w => encMx 0x04 g w 0
  | .mzero g w acc => encMx 0x05 g w (acc.toNat * 2 ^ 148)
  | .mrel g w acc => encMx 0x06 g w (acc.toNat * 2 ^ 148)
  | .mread f => encRow 0x07 f
  | .mwrite f => encRow 0x08 f
  | .msca f =>
    encMx 0x09 f.gap f.wait (f.acc.toNat * 2 ^ 148 + f.src.toNat * 2 ^ 135 + f.sb.toNat * 2 ^ 91 + f.sa.toNat * 2 ^ 10)
  | .mcvt f => encRow 0x0A f
  | .mproNone g w sig t => encPro 0 g w sig t
  | .mproInt4 g w sig t => encPro 1 g w sig t
  | .mproCb3 g w sig t => encPro 2 g w sig t
  | .mproCb4 g w sig t => encPro 3 g w sig t
  | .mproBmap g w sig t => encPro 4 g w sig t
  | .mBrf g w c take sense off =>
    encMx 0xF0 g w (c.toNat * 2 ^ 148 + take.toNat * 2 ^ 177 + sense.toNat * 2 ^ 176 + off.toNat * 2 ^ 119)
  | .mRdv g w => encMx 0xF1 g w 0
  | .mHalt g w => encMx 0xF2 g w 0
  | .cpyKh h o => encK 0x01 0 h (encKH o)
  | .cpyKr h o => encK 0x01 1 h (encKR o)
  | .cpysg h o => encK 0x02 0 h (encKR o)
  | .cpymcKh h o => encK 0x03 0 h (encKH o)
  | .cpymcKr h o => encK 0x03 1 h (encKR o)
  | .scatNative h o => encK 0x04 0 h (encKR o)
  | .scatStrain h red o => encK 0x04 (1 + red.toNat * 4) h (encKR o)
  | .gath h o => encK 0x05 0 h (encKR o)
  | .collAllred h red o => encK 0x06 (red.toNat * 4) h (encKR o)
  | .collRedsc h red o => encK 0x06 (1 + red.toNat * 4) h (encKR o)
  | .collGath h red o => encK 0x06 (2 + red.toNat * 4) h (encKR o)
  | .xfmTr h o => encK 0x07 0 h (encKR o)
  | .xfmCvt h o => encK 0x07 1 h (encKR o)
  | .xfmBdb h o => encK 0x07 2 h (encKR o)
  | .xfmPsum h o => encK 0x07 3 h (encKR o)
  | .jsub h o => encK 0x08 0 h (encKR o)
  | .dqpushKh h q o => encK 0x09 q.toNat h (encKH o)
  | .dqpushKr h q o => encK 0x09 (4 + q.toNat) h (encKR o)
  | .dqpopKh h q o => encK 0x0A q.toNat h (encKH o)
  | .dqpopKr h q o => encK 0x0A (4 + q.toNat) h (encKR o)
  | .sqgo h o => encK 0x0B 0 h (encKR o)
  | .kBrf g w c take sense off =>
    encVC 0xF0 g w (c.toNat * 2 ^ 55 + take.toNat * 2 ^ 54 + sense.toNat * 2 ^ 53 + off.toNat)
  | .kRdv g w => encVC 0xF1 g w 0
  | .kHalt g w => encVC 0xF2 g w 0
  | .kTokw g w kmask lim => encVC 0xF3 g w (kmask.toNat * 2 ^ 50 + lim.toNat * 2 ^ 44)
  | .kDrain g w path => encVC 0xF4 g w (path.toNat * 2 ^ 62)
  | _ => 0

end Sys2Proof
end

