-- ==== Sys2Proof/WellFormed.lean ====
section
/-!
DEFINITION. Well-formed instructions: those that break none of the checks on fields (R92). Decode builds on the same checks.
-/

namespace Sys2Proof

/-- No class-0 check fails under the given core type and binary8 descriptors (R39, R92). -/
def Instr.wf (e : Env) (i : Instr) : Bool := (i.details e).isEmpty

end Sys2Proof
end

