-- ==== Sys2Proof/Machine/Ops.lean ====
section
/-!
DEFINITION. The named operations on a crew: registers, flags, tokens, streams; taking a trap and returning from one (R254-R257);
how a word of each stream issues, waits, traps or completes.
-/

namespace Sys2Proof.Machine

/-- What a meaning answers. -/
abbrev Out := Host.Outcome State Fault Refusal

/-- A meaning that moves only the crew. -/
def onCrew (s : State) (f : Crew → Crew) : Out := .next { s with crew := f s.crew }

/-! ## Streams -/

/-- A stream of the crew. -/
def Crew.strm (c : Crew) : Strm → Stream
  | .s => c.s
  | .v => c.v
  | .m => c.m
  | .k => c.k

/-- A stream replaced. -/
def Crew.setStrm (c : Crew) (st : Strm) (x : Stream) : Crew :=
  { c with
    s := if st = .s then x else c.s
    v := if st = .v then x else c.v
    m := if st = .m then x else c.m
    k := if st = .k then x else c.k }

/-- The number of a stream in sr.cause, sr.epc and bitmaps (R244, R245). -/
def strmNo : Strm → Nat
  | .s => 0
  | .v => 1
  | .m => 2
  | .k => 3

/-- The bit of a v, m or k stream in a FORK or RDV mask (R71): bit 2 v, bit 1 m, bit 0 k. -/
def inMask (mask : BitVec 3) : Strm → Bool
  | .s => false
  | .v => mask.getLsbD 2
  | .m => mask.getLsbD 1
  | .k => mask.getLsbD 0

/-- Is a stream idle-done (R20)? -/
def Stream.isIdle (x : Stream) : Bool := x.status == .idle

/-- A stream that goes on at a PC after a word has completed. -/
def Stream.goto (x : Stream) (pc : Pc) : Stream :=
  { x with status := .running, pc := pc, wait := .nothing, mark := none, boosted := false }

/-- Is a stream whose next word waits on this blocked (R20): on a full/empty resource, a token count or a register block; or at HALT until
the crew retires (R23)? -/
def Wait.blocks (w : Wait) : Bool :=
  match w with
  | .flag _ | .shared _ | .tileFull _ | .tileEmpty _ | .queue _ _ _ | .token _ _ | .tokenLimit | .pool | .retire => true
  | _ => false

/-- A stream whose next word waits (R20, R98). -/
def Stream.waitOn (x : Stream) (w : Wait) (mark : Nat) : Stream :=
  { x with status := if w.blocks then .blocked else .running, wait := w, mark := some (x.mark.getD mark), boosted := false }

/-- A stream that is done (R22). -/
def Stream.done (x : Stream) : Stream := { x with status := .idle, wait := .nothing, mark := none, gap := 0 }

/-! ## Scalar registers and flags (R97, R238) -/

/-- Is a register one of g48-g63? -/
def isShared (r : GReg) : Bool := decide (48 ≤ r.toNat)

/-- The value of a scalar register; g0 reads as zero (R97). -/
def Crew.rdG (c : Crew) (r : GReg) : Word := if r = 0 then 0 else SMap.get 0 c.g r.toNat

/-- A scalar register written: g0 discards, a shared scalar becomes full, poison is cleared (R97, R264). -/
def Crew.wrG (c : Crew) (r : GReg) (w : Word) : Crew :=
  { c with
    g := if r = 0 then c.g else SMap.set 0 c.g r.toNat w
    gFull := if isShared r then SMap.set false c.gFull r.toNat true else c.gFull
    poisonG := if r = 0 then c.poisonG else SMap.set 0 c.poisonG r.toNat 0 }

/-- Is a shared scalar empty (R25)? -/
def Crew.gEmpty (c : Crew) (r : GReg) : Bool := isShared r && !SMap.get false c.gFull r.toNat

/-- A shared scalar emptied (R128). -/
def Crew.emptyG (c : Crew) (r : GReg) : Crew := { c with gFull := SMap.set false c.gFull r.toNat false }

/-- The value of a condition flag. -/
def Crew.flagVal (c : Crew) (f : CFlag) : Bool := SMap.get false c.cVal f.toNat

/-- Is a condition flag full (R25)? -/
def Crew.flagFull (c : Crew) (f : CFlag) : Bool := SMap.get false c.cFull f.toNat

/-- A condition flag written full (R103). -/
def Crew.setFlag (c : Crew) (f : CFlag) (b : Bool) : Crew :=
  { c with cVal := SMap.set false c.cVal f.toNat b, cFull := SMap.set false c.cFull f.toNat true }

/-- A condition flag emptied (R110). -/
def Crew.emptyFlag (c : Crew) (f : CFlag) : Crew := { c with cFull := SMap.set false c.cFull f.toNat false }

/-- Flags ORed into sr.fcsr. -/
def Crew.orFlags (c : Crew) (f : Flags) : Crew := { c with fcsr := fcsrOr c.fcsr f }

/-- The decoding environment of the crew (R39, R92). -/
def Crew.env (c : Crew) : Env := { npu := c.place.npu, b8d0 := fcsrB8d0 c.fcsr, b8d1 := fcsrB8d1 c.fcsr }

/-! ## Tokens (R417) -/

/-- A token count. -/
def Crew.tokCount (c : Crew) (t : Tok) : Nat := SMap.get 0 c.tok t.toNat

/-- A token raised. -/
def Crew.raiseTok (c : Crew) (t : Tok) : Crew := { c with tok := SMap.set 0 c.tok t.toNat (c.tokCount t + 1) }

/-- A token lowered. -/
def Crew.lowerTok (c : Crew) (t : Tok) : Crew := { c with tok := SMap.set 0 c.tok t.toNat (c.tokCount t - 1) }

/-- Is every token of a mask at most at a limit (R123)? -/
def Crew.tokensAtMost (c : Crew) (mask : BitVec 8) (lim : Nat) : Bool :=
  (List.range 8).all (fun i => !mask.getLsbD i || decide (SMap.get 0 c.tok i ≤ lim))

/-! ## Vector registers, masks and tiles (R132, R239-R242) -/

/-- The blocks a crew holds end at this register (R239, R240). -/
def Crew.vHeld (c : Crew) : Nat := 128 * (c.ext + 1)

/-- A lane of a vector register. -/
def Crew.lane (c : Crew) (r j : Nat) : Lane := SMap.get 0 c.vreg (32 * r + j)

/-- Lanes written. -/
def Crew.setLanes (c : Crew) (l : List (Nat × Lane)) : Crew :=
  { c with vreg := l.foldl (fun m x => SMap.set 0 m x.1 x.2) c.vreg }

/-- A mask; m0 reads as all ones (R241). -/
def Crew.maskOf (c : Crew) (m : Nat) : Lane := if m = 0 then BitVec.allOnes 32 else SMap.get 0 c.mask m

/-- A mask written; a write to m0 is discarded (R241). -/
def Crew.setMask (c : Crew) (m : Nat) (v : Lane) : Crew := { c with mask := if m = 0 then c.mask else SMap.set 0 c.mask m v }

/-- A tile element's key. -/
def tileKey (t i j : Nat) : Nat := 16384 * t + 128 * i + j

/-- A tile element. -/
def Crew.elem (c : Crew) (t i j : Nat) : Lane := SMap.get 0 c.tile (tileKey t i j)

/-- Is a tile full (R25)? -/
def Crew.tileFull (c : Crew) (t : BitVec 3) : Bool := SMap.get false c.tFull t.toNat

/-! ## Traps (R251-R257) -/

/-- The token a copy word raises (R81). -/
def jobTok : Instr → Tok
  | .cpyKh h _ | .cpyKr h _ | .cpysg h _ | .cpymcKh h _ | .cpymcKr h _ | .scatNative h _ | .scatStrain h _ _ | .gath h _
  | .collAllred h _ _ | .collRedsc h _ _ | .collGath h _ _ | .xfmTr h _ | .xfmCvt h _ | .xfmBdb h _ | .xfmPsum h _ | .jsub h _
  | .dqpushKh h _ _ | .dqpushKr h _ _ | .dqpopKh h _ _ | .dqpopKr h _ _ | .sqgo h _ => h.sig
  | _ => 0

/-- Does a copy job hold back a trap entry or a halt? One held on a fault, a COLL that waits and a queue's job do not (R197).
DEDUCED (log 50). -/
def Job.holdsBack (j : Job) : Bool :=
  j.held.isNone &&
    (match j.ins with
     | .collAllred _ _ _ | .collRedsc _ _ _ | .collGath _ _ _ => false
     | .dqpushKh _ _ _ | .dqpushKr _ _ _ | .dqpopKh _ _ _ | .dqpopKr _ _ _ => false
     | _ => true)

/-- Is a result of the crew in flight (R91, R187, R197)? Parked tile reads are none. -/
def Crew.inFlight (c : Crew) : Bool :=
  !c.sres.isEmpty || !c.vwin.isEmpty || !c.vwords.isEmpty ||
    (match c.array with
     | some a => a.held.isNone
     | none => false) ||
    c.jobs.any Job.holdsBack

/-- The streams that are not idle-done: bit 0 s, 1 v, 2 m, 3 k (R245). -/
def Crew.live (c : Crew) : BitVec 4 :=
  BitVec.ofNat 4 ((if c.s.isIdle then 0 else 1) + (if c.v.isIdle then 0 else 2) + (if c.m.isIdle then 0 else 4) +
    (if c.k.isIdle then 0 else 8))

/-- sr.cause from a code and a stream (R245). -/
def causeWord (code : BitVec 9) (st : Strm) : Word := BitVec.ofNat 64 (code.toNat + 512 * strmNo st)

/-- Every stopped stream's PC in its sr.epc (R254). -/
def Crew.savePcs (c : Crew) : SMap Word :=
  ([.s, .v, .m, .k] : List Strm).foldl
    (fun e st => if (c.strm st).isIdle then e else SMap.set 0 e (strmNo st) ((c.strm st).pc.zeroExtend 64)) c.epc

/-- A stream's pending trap entered: the oldest kept condition takes its place and lowers its token (R256). -/
def Crew.popPend (c : Crew) (st : Strm) : Crew :=
  let x := c.strm st
  match x.kept with
  | [] => c.setStrm st { x with pend := none }
  | (q, t) :: ks =>
    let c1 := c.setStrm st { x with pend := some q, kept := ks }
    match t with
    | some k => c1.lowerTok k
    | none => c1

/-- The handler entered (R254): PCs saved, cause, tval and tstat written, the scalar stream at the handler. A pending trap that the
scalar stream keeps waits for ERET (R256). -/
def Crew.enterHandler (c : Crew) (t : TrapReq) : Crew :=
  let c1 := if t.pended then c.popPend t.strm else c
  { c1 with
    epc := SMap.set 0 c.savePcs (strmNo t.strm) (t.epc.zeroExtend 64)
    cause := causeWord t.code t.strm
    tval := t.tval
    act := true
    held := c.live
    trap := none
    sHeld := c1.s.pend.isSome
    s := c1.s.goto (BitVec.ofNat 18 c.bindRec.handler) }

/-- A condition put ahead of those that a stream holds pending (R255, R260). -/
def Crew.putPend (c : Crew) (st : Strm) (p : Pend) : Crew :=
  let x := c.strm st
  let behind := match x.pend with
    | some q => [(q, none)]
    | none => []
  c.setStrm st { x with pend := some p, kept := behind ++ x.kept }

/-- A trap that does not enter its handler: it is or becomes its stream's pending trap, ahead of any that the stream holds, and the
stream stands at the PC that the raising rule gives (R255, R260). -/
def Crew.recordTrap (c : Crew) (t : TrapReq) : Crew :=
  let c1 := if t.pended then c else c.putPend t.strm ⟨t.code, t.tval⟩
  { c1.setStrm t.strm { c1.strm t.strm with pc := t.epc } with trap := none, sHeld := c.sHeld && t.strm != .s }

/-- A crew without a valid handler, or with a nested trap, is stopped as for pre-emption (R255, R256). -/
def Crew.stopFor (c : Crew) (t : TrapReq) : Crew := { c.recordTrap t with stop := some ⟨t.code, t.tval⟩, life := .halting }

/-- TAKING A TRAP: the one that waits is taken once no result is in flight (R91, R254). A trap of the scalar stream while a handler
runs is nested (R256), and so is one of a stream that the handler forked. DESIGN CHOICE (log 104). -/
def Crew.takeTrap (c : Crew) : Crew :=
  match c.trap with
  | none => c
  | some t =>
    if c.inFlight then c
    else if c.bindRec.handlerValid && !c.act then c.enterHandler t
    else c.stopFor t

/-- A trap raised by a stream: cause, tval and the PC its rule gives (R254). -/
def Crew.raise (c : Crew) (st : Strm) (code : BitVec 9) (tval : Word) (epc : Pc) : Crew :=
  { c with trap := some { strm := st, code := code, tval := tval, epc := epc, pended := false } }.takeTrap

/-- A token that a condition brings is lowered. -/
def Crew.lowerTok? (c : Crew) (t : Option Tok) : Crew :=
  match t with
  | some k => c.lowerTok k
  | none => c

/-- A condition found after completion: it becomes the stream's pending trap, or is kept behind it with its token; in the scalar
stream, while a handler runs, it is a nested trap (R256), which a crew off its core meets at its resumption. The token is lowered
unless the condition is kept. -/
def Crew.postPend (c : Crew) (st : Strm) (p : Pend) (t : Option Tok) : Crew :=
  let x := c.strm st
  if st == .s && c.act && c.trap.isNone && c.life == .running then (c.lowerTok? t).raise .s p.code p.tval c.s.pc
  else match x.pend with
    | none => (c.lowerTok? t).setStrm st { x with pend := some p }
    | some _ => c.setStrm st { x with kept := x.kept ++ [(p, t)] }

/-- A stream's pending trap taken before its next word (R256). -/
def Crew.enterPend (c : Crew) (st : Strm) : Crew :=
  let x := c.strm st
  match x.pend with
  | none => c
  | some p => { c with trap := some { strm := st, code := p.code, tval := p.tval, epc := x.pc, pended := true } }.takeTrap

/-- Is a pending trap of the stream to be taken now? The scalar stream's may wait for ERET (R256). -/
def Crew.pendDue (c : Crew) (st : Strm) : Bool := (c.strm st).pend.isSome && !(st == .s && c.sHeld)

/-- A stream resumes at its sr.epc if the handler held it (R257). -/
def Crew.resumeStrm (c : Crew) (held : BitVec 4) (st : Strm) : Crew :=
  if held.getLsbD (strmNo st) then
    c.setStrm st ((c.strm st).goto ((SMap.get 0 c.epc (strmNo st)).truncate 18))
  else c

/-- The first pending trap among the held streams, in the order s, v, m, k (R257). DEDUCED (log 10). -/
def Crew.firstPend (c : Crew) (held : BitVec 4) : Option Strm :=
  ([.s, .v, .m, .k] : List Strm).find? (fun st => held.getLsbD (strmNo st) && (c.strm st).pend.isSome)

/-- RETURNING (R257): tstat cleared, each held stream at its sr.epc, then the first pending trap entered. -/
def Crew.eret (c : Crew) : Crew :=
  let h := c.held
  let c1 := ({ c with act := false, held := 0, sHeld := false } : Crew)
  let c2 := (((c1.resumeStrm h .v).resumeStrm h .m).resumeStrm h .k).resumeStrm h .s
  match c2.firstPend h with
  | some st => c2.enterPend st
  | none => c2

/-! ## Issuing a word -/

/-- Has an earlier word of the vector stream that can raise a flag not completed while a bit of sr.fcsr.en is set (R136)? The stream
then issues no word. DEDUCED (log 38). -/
def Crew.flagsComing (c : Crew) (st : Strm) : Bool :=
  st == .v && fcsrEn c.fcsr != 0 && (c.vwin.any (fun w => w.mayFlag) || c.vwords.any (fun v => v.mayFlag))

/-- May the stream issue (R20, R86, R118, R136, R254, R258)? -/
def Crew.canIssue (c : Crew) (st : Strm) : Bool :=
  let x := c.strm st
  c.life == .running && !x.isIdle && x.gap == 0 && c.trap.isNone && !(st == .s && c.yielded) &&
    !(c.act && st != .s && c.held.getLsbD (strmNo st)) && !c.flagsComing st

/-- Has a stream gone 48 cycles without its turn (R35)? DEDUCED (log 28). -/
def Stream.starves (x : Stream) (now : Nat) : Bool := decide (x.tried + 48 ≤ now)

/-- The priority at which a stream of a crew competes for an issue slot (R35). -/
def Crew.issuePrio (c : Crew) (st : Strm) (now : Nat) : Nat :=
  if (c.strm st).boosted || (c.strm st).starves now then 7 else c.bindRec.prio

/-- sr.tval of a class-0 trap: the word's most significant 64 bits (R92). -/
def tval0 (i : Instr) : Word :=
  match i.stream with
  | some .s => BitVec.ofNat 64 (encode i)
  | some .m => BitVec.ofNat 64 (encode i / 2 ^ 128)
  | _ => BitVec.ofNat 64 (encode i / 2 ^ 32)

/-- The checks before any word (R92, R256): nothing happens while the stream may not issue; a pending trap is entered; a broken
encoding traps with its lowest detail; else the word goes on. DEDUCED (log 33). -/
def Crew.guarded (c : Crew) (st : Strm) (i : Instr) (go : Crew → Crew) : Crew :=
  if !c.canIssue st then c
  else if c.pendDue st then c.enterPend st
  else match lowest (i.details c.env) with
    | some d => c.raise st (causeCode 0 d) (tval0 i) (c.strm st).pc
    | none => go c

/-- The same for a meaning that moves more than the crew. -/
def guardedState (s : State) (st : Strm) (i : Instr) (go : State → Out) : Out :=
  if !s.crew.canIssue st then .next s
  else if s.crew.pendDue st then .next { s with crew := s.crew.enterPend st }
  else match lowest (i.details s.crew.env) with
    | some d => .next { s with crew := s.crew.raise st (causeCode 0 d) (tval0 i) (s.crew.strm st).pc }
    | none => go s

/-- The word waits; it has not issued (R98). -/
def Crew.block (c : Crew) (st : Strm) (w : Wait) (mark : Nat) : Crew := c.setStrm st ((c.strm st).waitOn w mark)

/-- The loop counts and the scalar word that follows the one at `p` when it completes without a transfer (R113). -/
def Crew.loopNext (c : Crew) (p : Pc) : SMap Word × Pc :=
  let lc1 := SMap.get 0 c.lc 1
  let hit1 := lc1 != 0 && p == (SMap.get 0 c.le 1).truncate 18
  let m1 := if hit1 then SMap.set 0 c.lc 1 (lc1 - 1) else c.lc
  let n1 := if hit1 && decide (1 < lc1.toNat) then (SMap.get 0 c.ls 1).truncate 18 else p + 1
  let lc0 := SMap.get 0 m1 0
  let hit0 := n1 == p + 1 && lc0 != 0 && p == (SMap.get 0 c.le 0).truncate 18
  let m2 := if hit0 then SMap.set 0 m1 0 (lc0 - 1) else m1
  let n2 := if hit0 && decide (1 < lc0.toNat) then (SMap.get 0 c.ls 0).truncate 18 else n1
  (m2, n2)

/-- A scalar word completes without a transfer (R113). -/
def Crew.advance (c : Crew) : Crew := { c with lc := (c.loopNext c.s.pc).1, s := c.s.goto (c.loopNext c.s.pc).2 }

/-- A taken transfer: it clears the count of each active level whose body it leaves (R114). -/
def Crew.transfer (c : Crew) (target : Pc) : Crew :=
  let out := fun (n : Nat) =>
    SMap.get 0 c.lc n != 0 &&
      !(decide (((SMap.get 0 c.ls n).truncate 18 : Pc).toNat ≤ target.toNat) &&
        decide (target.toNat ≤ ((SMap.get 0 c.le n).truncate 18 : Pc).toNat))
  let lc0 := if out 0 then SMap.set 0 c.lc 0 0 else c.lc
  let lc1 := if out 1 then SMap.set 0 lc0 1 0 else lc0
  { c with lc := lc1, s := c.s.goto target }

/-- A scalar word that raised flags: it completes, and traps where an enabled flag was raised (R51, R116). -/
def Crew.advanceFlags (c : Crew) (f : Flags) : Crew :=
  let p := c.s.pc
  let c1 := (c.orFlags f).advance
  match enabledDetail (fcsrEn c.fcsr) f with
  | some d => c1.raise .s (causeCode 2 d) (p.zeroExtend 64) c1.s.pc
  | none => c1

/-- Is a result for the register in flight (R96)? -/
def Crew.gPending (c : Crew) (r : GReg) : Bool := r != 0 && c.sres.any (fun x => x.d == r)

/-- Why a scalar word that reads `srcs` and writes `d` waits (R96, R97), if it does. -/
def Crew.scalarWait (c : Crew) (srcs : List GReg) (d : GReg) : Option Wait :=
  if (d :: srcs).any c.gPending then some .result
  else match srcs.find? c.gEmpty with
    | some r => some (.shared r)
    | none => none

/-- The poison of the first poisoned register among some, with its address (R253, R264). -/
def Crew.gPoison (c : Crew) (srcs : List GReg) : Option (Nat × Nat) :=
  match srcs.find? (fun r => SMap.get 0 c.poisonG r.toNat != 0) with
  | some r => some (SMap.get 0 c.poisonG r.toNat, SMap.get 0 c.poisonAddr (1000 + r.toNat))
  | none => none

/-- The poison that a scalar word meets; a source whose result is in flight is no poisoned one yet (R96, R264). -/
def Crew.readPoison (c : Crew) (srcs : List GReg) : Option (Nat × Nat) := if srcs.any c.gPending then none else c.gPoison srcs

/-- A scalar word that reads `srcs` and may write `d`: guarded, then interlocked, then done (R92, R96, R97, R264). -/
def Crew.scalar (c : Crew) (i : Instr) (srcs : List GReg) (d : GReg) (go : Crew → Crew) : Crew :=
  c.guarded .s i (fun c =>
    match c.readPoison srcs with
    | some (k, a) => c.raise .s (causeCode 6 k) (BitVec.ofNat 64 a) c.s.pc
    | none =>
      match c.scalarWait srcs d with
      | some w => c.block .s w 0
      | none => go c)

/-- A scalar word that moves more than its crew: guarded, then interlocked, then done (R92, R96, R97, R264). -/
def scalarState (s : State) (i : Instr) (srcs : List GReg) (d : GReg) (go : State → Out) : Out :=
  guardedState s .s i (fun s =>
    match s.crew.readPoison srcs with
    | some (k, a) => .next { s with crew := s.crew.raise .s (causeCode 6 k) (BitVec.ofNat 64 a) s.crew.s.pc }
    | none =>
      match s.crew.scalarWait srcs d with
      | some w => .next { s with crew := s.crew.block .s w s.nextId }
      | none => go s)

/-- A scalar word whose one effect is a register write (R99). -/
def Crew.scalarTo (c : Crew) (i : Instr) (srcs : List GReg) (d : GReg) (val : Crew → Word) : Crew :=
  c.scalar i srcs d (fun c => (c.wrG d (val c)).advance)

/-- A word that traps before it issues. Where the rule that raises the trap names no sr.tval, its caller gives 0: LPSET, SRD, SWR,
GTAKE, REGACQ, ERET, FORK, TQPUT, TQWAIT, TQTEST, BAR. DESIGN CHOICE (log 43). -/
def Crew.trapHere (c : Crew) (st : Strm) (cls detail : Nat) (tval : Word) : Crew :=
  c.raise st (causeCode cls detail) tval (c.strm st).pc

/-! ## The other streams -/

/-- The slots that a word of the vector stream takes: its own and its gap (R87). DEDUCED (log 37). -/
def Crew.countSlots (c : Crew) (st : Strm) (gap : BitVec 4) : Crew :=
  match st with
  | .v => { c with vclock := c.vclock + 1 + gap.toNat }
  | _ => c

/-- A word of v, m or k has issued and goes on behind its gap (R86). -/
def Crew.pass (c : Crew) (st : Strm) (gap : BitVec 4) (target : Pc) : Crew :=
  (c.countSlots st gap).setStrm st { (c.strm st).goto target with gap := gap.toNat }

/-- A word of v, m or k: guarded, then its wait tokens (R86). DEDUCED (log 33). -/
def Crew.waited (c : Crew) (st : Strm) (i : Instr) (wait : BitVec 8) (go : Crew → Crew) : Crew :=
  c.guarded st i (fun c => if c.tokensAtMost wait 0 then go c else c.block st (.token wait 0) 0)

/-- A branch of v, m or k on a condition flag (R148, R186, R212). Its target is taken modulo 2^18. DESIGN CHOICE (log 121). -/
def Crew.branch (c : Crew) (st : Strm) (i : Instr) (gap : BitVec 4) (wait : BitVec 8) (f : CFlag) (take sense : BitVec 1)
    (off : Pc) : Crew :=
  c.waited st i wait (fun c =>
    if !c.flagFull f then c.block st (.flag f) 0
    else
      let taken := c.flagVal f == (sense == 1)
      let c1 := if take = 1 then c.emptyFlag f else c
      c1.pass st gap (if taken then (c.strm st).pc + off else (c.strm st).pc + 1))

/-- RDV and HALT of v, m or k: the stream is done (R22). -/
def Crew.finish (c : Crew) (st : Strm) (i : Instr) (gap : BitVec 4) (wait : BitVec 8) : Crew :=
  c.waited st i wait (fun c => (c.countSlots st gap).setStrm st (c.strm st).done)

end Sys2Proof.Machine
end

