-- ==== Sys2Proof/Machine/Control.lean ====
section
/-!
DEFINITION. Scalar control words: branches and jumps, hardware loops, starting and joining streams, waits on tokens, temporal
indices, shared scalars, special registers, TRAP and ERET (R98, R110-R118, R123, R126, R128-R130, R244-R247).
-/

namespace Sys2Proof.Machine

/-- BRF (R110). Its target is taken modulo 2^18. DESIGN CHOICE (log 121). -/
def execBrf (f : CFlag) (take sense : BitVec 1) (off : BitVec 18) (s : State) : Out :=
  onCrew s (fun c => c.scalar (.brf f take sense off) [] 0 (fun c =>
    if !c.flagFull f then c.block .s (.flag f) 0
    else
      let c1 := if take = 1 then c.emptyFlag f else c
      if c.flagVal f == (sense == 1) then c1.transfer (c.s.pc + off) else c1.advance))

/-- JAL (R111). Its target is taken modulo 2^18. DESIGN CHOICE (log 121). -/
def execJal (d : GReg) (off : BitVec 18) (s : State) : Out :=
  onCrew s (fun c => c.scalar (.jal d off) [] d (fun c =>
    (c.wrG d ((c.s.pc + 1).zeroExtend 64)).transfer (c.s.pc + off)))

/-- JALR (R111): a target beyond 18 bits traps before any write. -/
def execJalr (d a : GReg) (i : BitVec 14) (s : State) : Out :=
  onCrew s (fun c => c.scalar (.jalr d a i) [a] d (fun c =>
    let target := c.rdG a + i.signExtend 64
    if target.toNat < 2 ^ 18 then (c.wrG d ((c.s.pc + 1).zeroExtend 64)).transfer (target.truncate 18)
    else c.trapHere .s 0 7 target))

/-- The count an LPSET takes (R112). -/
def lpCount (c : Crew) (ci : BitVec 1) (cnt : BitVec 10) : Nat :=
  if ci = 1 then cnt.toNat else (c.rdG (cnt.extractLsb' 4 6)).toNat % 2 ^ 32

/-- LPSET (R112). The address of the body's last word is kept modulo 2^18. DESIGN CHOICE (log 121). -/
def execLpset (lv ci : BitVec 1) (cnt : BitVec 10) (len : BitVec 14) (s : State) : Out :=
  onCrew s (fun c => c.scalar (.lpset lv ci cnt len) (if ci = 1 then [] else [cnt.extractLsb' 4 6]) 0 (fun c =>
    let n := lpCount c ci cnt
    let l := lv.toNat
    let last : Nat := c.s.pc.toNat + len.toNat
    let broken := if l = 0 then SMap.get 0 c.lc 1 != 0
      else SMap.get 0 c.lc 0 != 0 && decide (((SMap.get 0 c.le 0).toNat % 2 ^ 18) < last)
    if broken then c.trapHere .s 1 5 0
    else
      let c1 := { c with
        ls := SMap.set 0 c.ls l ((c.s.pc + 1).zeroExtend 64)
        le := SMap.set 0 c.le l ((BitVec.ofNat 18 last).zeroExtend 64)
        lc := SMap.set 0 c.lc l (BitVec.ofNat 64 n) }
      { c1 with s := c1.s.goto (if n = 0 then BitVec.ofNat 18 (last + 1) else c.s.pc + 1) }))

/-- LPBRK (R115): the count becomes 1 and the end action of the body's last word is applied. -/
def execLpbrk (lv : BitVec 1) (s : State) : Out :=
  onCrew s (fun c => c.scalar (.lpbrk lv) [] 0 (fun c =>
    let l := lv.toNat
    if SMap.get 0 c.lc l = 0 then { c with s := c.s.goto (c.s.pc + 1) }
    else
      let inner := if l = 0 then SMap.set 0 c.lc 1 0 else c.lc
      let r := ({ c with lc := SMap.set 0 inner l 1 } : Crew).loopNext ((SMap.get 0 c.le l).truncate 18)
      { c with lc := r.1, s := c.s.goto r.2 }))

/-! ## Streams -/

/-- The streams a mask names, in the order v, m, k (R71). -/
def named (mask : BitVec 3) : List Strm := ([.v, .m, .k] : List Strm).filter (inMask mask)

/-- The named streams started at the given PCs (R21). -/
def Crew.startAll (c : Crew) (l : List (Strm × Pc)) : Crew :=
  l.foldl (fun c x => c.setStrm x.1 ((c.strm x.1).goto x.2)) c

/-- FORK: none starts unless every named stream is idle-done (R21, R117). -/
def Crew.fork (c : Crew) (l : List (Strm × Pc)) : Crew :=
  if l.all (fun x => (c.strm x.1).isIdle) then (c.startAll l).advance else c.trapHere .s 5 0 0

/-- FORK with the PC in the word (R117). -/
def execForkImm (mask : BitVec 3) (pc : BitVec 18) (s : State) : Out :=
  onCrew s (fun c => c.scalar (.forkImm mask pc) [] 0 (fun c => c.fork ((named mask).map (fun st => (st, pc)))))

/-- The registers FORK reads: g[a], g[a+1], ... one for each named stream (R117). -/
def forkRegs (mask : BitVec 3) (a : GReg) : List GReg :=
  (List.range (named mask).length).map (fun n => a + BitVec.ofNat 6 n)

/-- FORK with PCs in registers: one beyond 18 bits traps (R117). -/
def execForkReg (mask : BitVec 3) (a : GReg) (s : State) : Out :=
  onCrew s (fun c => c.scalar (.forkReg mask a) (forkRegs mask a) 0 (fun c =>
    match (forkRegs mask a).find? (fun r => decide (2 ^ 18 ≤ (c.rdG r).toNat)) with
    | some r => c.trapHere .s 0 7 (c.rdG r)
    | none => c.fork ((named mask).zip ((forkRegs mask a).map (fun r => (c.rdG r).truncate 18)))))

/-- RDV in the scalar stream (R22, R118). -/
def execRdv (mask : BitVec 3) (s : State) : Out :=
  onCrew s (fun c => c.scalar (.rdv mask) [] 0 (fun c =>
    if (named mask).all (fun st => (c.strm st).isIdle) then c.advance else c.block .s (.rdv mask) 0))

/-- YIELD (R118): it completes, and the stream is not eligible until released. -/
def execYield (s : State) : Out :=
  onCrew s (fun c => c.scalar .yield [] 0 (fun c => { c.advance with yielded := true }))

/-- HALT: the scalar stream waits until the crew retires (R23); the retirement is CREW_RETIRE. -/
def execHalt (s : State) : Out :=
  onCrew s (fun c => c.scalar .halt [] 0 (fun c => c.block .s .retire 0))

/-- TOKW (R123). -/
def execTokw (kmask : BitVec 8) (lim : BitVec 6) (s : State) : Out :=
  onCrew s (fun c => c.scalar (.tokw kmask lim) [] 0 (fun c =>
    if c.tokensAtMost kmask lim.toNat then c.advance else c.block .s (.token kmask lim.toNat) 0))

/-- The next point of an odometer whose digits are given outermost first with their counts; none when the last has been passed. -/
def odometer : List (Nat × Nat) → Option (List Nat)
  | [] => none
  | (n, x) :: rest =>
    match odometer rest with
    | some t => some (x :: t)
    | none => if x + 1 < n then some ((x + 1) :: rest.map (fun _ => 0)) else none

/-- TNEXT (R126): the T indices advance, innermost fastest; the flag says whether an iteration remains. -/
def execTnext (f : CFlag) (s : State) : Out :=
  onCrew s (fun c => c.scalar (.tnext f) [] 0 (fun c =>
    let levels := (List.range c.kern.levels.length).filter (fun n => (c.kern.levels.getD n (0, 0)).1 == 0)
    let now := levels.map (fun n => ((c.kern.levels.getD n (0, 0)).2, (SMap.get 0 c.ti n).toNat))
    let put := fun (l : List Nat) => (levels.zip l).foldl (fun m x => SMap.set 0 m x.1 (BitVec.ofNat 64 x.2)) c.ti
    match odometer now with
    | some l => (({ c with ti := put l } : Crew).setFlag f true).advance
    | none => (({ c with ti := put (levels.map (fun _ => 0)) } : Crew).setFlag f false).advance))

/-- GTAKE (R128): the source is emptied before the destination is written. -/
def execGtake (d a : GReg) (s : State) : Out :=
  onCrew s (fun c =>
    if isShared a then
      c.scalar (.gtake d a) [a] d (fun c => ((c.emptyG a).wrG d (c.rdG a)).advance)
    else c.guarded .s (.gtake d a) (fun c => c.trapHere .s 1 3 0))

/-! ## Special registers (R129, R244-R247) -/

/-- The value of a special register, if the number names one (R244). -/
def Crew.readSr (c : Crew) (n : Nat) : Option Word :=
  match n with
  | 0x000 => some c.fcsr
  | 0x001 => some c.ocdef
  | 0x002 => some (BitVec.ofNat 64 c.bindRec.asid)
  | 0x003 => some (BitVec.ofNat 64 (c.bindRec.lanebase % 2 ^ 32))
  | 0x004 => some (BitVec.ofNat 64 (c.place.slot % 16 + 16 * (c.place.core % 128) + 2048 * (c.place.die % 2) +
      4096 * (if c.place.npu then 1 else 0)))
  | 0x010 => some (SMap.get 0 c.ls 0)
  | 0x011 => some (SMap.get 0 c.le 0)
  | 0x012 => some (SMap.get 0 c.lc 0)
  | 0x013 => some (SMap.get 0 c.ls 1)
  | 0x014 => some (SMap.get 0 c.le 1)
  | 0x015 => some (SMap.get 0 c.lc 1)
  | 0x034 => some c.cause
  | 0x035 => some c.tval
  | 0x036 => some (BitVec.ofNat 64 ((if c.act then 1 else 0) + 2 * c.held.toNat))
  | 0x040 => some (BitVec.ofNat 64 ((List.range 8).foldl (fun x i => x + SMap.get 0 c.tok i * 2 ^ (6 * i)) 0))
  | 0x041 =>
    let bits := fun (l : List Nat) (p : Nat → Bool) => l.foldl (fun x i => x + (if p i then 2 ^ i else 0)) 0
    some (BitVec.ofNat 64 (bits (List.range 8) (SMap.get false c.tFull) +
      2 ^ 8 * bits (List.range 8) (SMap.get false c.cFull) + 2 ^ 16 * bits (List.range 8) (SMap.get false c.cVal) +
      2 ^ 24 * bits (List.range 16) (fun i => SMap.get false c.gFull (48 + i)) +
      2 ^ 40 * (List.range 4).foldl (fun x q => x + 2 ^ (5 * q) *
        ((c.dq.getD q []).takeWhile (fun e => e.bytes.isSome)).length) 0))
  | 0x042 => some (BitVec.ofNat 64 c.ext)
  | n =>
    if 0x020 ≤ n ∧ n ≤ 0x025 then some (SMap.get 0 c.ti (n - 0x020))
    else if 0x030 ≤ n ∧ n ≤ 0x033 then some (SMap.get 0 c.epc (n - 0x030))
    else none

/-- A special register written: reserved and read-only bits are left (R129, R244, R245); none for one that is read-only in whole. -/
def Crew.writeSr (c : Crew) (n : Nat) (w : Word) : Option Crew :=
  let pc : Word := w &&& 0x3FFFF
  match n with
  | 0x000 => some { c with fcsr := w &&& fcsrMask }
  | 0x001 => some { c with ocdef := w &&& 0x7F }
  | 0x010 => some { c with ls := SMap.set 0 c.ls 0 pc }
  | 0x011 => some { c with le := SMap.set 0 c.le 0 pc }
  | 0x012 => some { c with lc := SMap.set 0 c.lc 0 (w &&& 0xFFFFFFFF) }
  | 0x013 => some { c with ls := SMap.set 0 c.ls 1 pc }
  | 0x014 => some { c with le := SMap.set 0 c.le 1 pc }
  | 0x015 => some { c with lc := SMap.set 0 c.lc 1 (w &&& 0xFFFFFFFF) }
  | 0x034 => some { c with cause := w &&& 0x7FF }
  | 0x035 => some { c with tval := w }
  | n => if 0x030 ≤ n ∧ n ≤ 0x033 then some { c with epc := SMap.set 0 c.epc (n - 0x030) pc } else none

/-- SRD (R129). -/
def execSrd (d : GReg) (n : BitVec 12) (s : State) : Out :=
  onCrew s (fun c => c.scalar (.srd d n) [] d (fun c =>
    match c.readSr n.toNat with
    | some w => (c.wrG d w).advance
    | none => c.trapHere .s 1 0 0))

/-- SWR (R129): the end action of R113 sees the registers as they stood at issue. -/
def execSwr (a : GReg) (n : BitVec 12) (s : State) : Out :=
  onCrew s (fun c => c.scalar (.swr a n) [a] 0 (fun c =>
    match c.readSr n.toNat with
    | none => c.trapHere .s 1 0 0
    | some _ =>
      match c.advance.writeSr n.toNat (c.rdG a) with
      | some c1 => c1
      | none => c.trapHere .s 1 2 0))

/-- TRAP (R130): it completes and then traps with class 7. -/
def execTrap (code : BitVec 6) (s : State) : Out :=
  onCrew s (fun c => c.scalar (.trap code) [] 0 (fun c =>
    let c1 := c.advance
    c1.raise .s (causeCode 7 code.toNat) 0 c1.s.pc))

/-- ERET (R130, R257). -/
def execEret (s : State) : Out :=
  onCrew s (fun c => c.scalar .eret [] 0 (fun c => if c.act then c.eret else c.trapHere .s 1 6 0))

/-! ## Control words of the matrix and copy streams (R186, R212, R213) -/

/-- BRF of the matrix stream (R186): the offset is 16 bits. -/
def execMBrf (gap : BitVec 4) (wait : BitVec 8) (f : CFlag) (take sense : BitVec 1) (off : BitVec 16) (s : State) : Out :=
  onCrew s (fun c => c.branch .m (.mBrf gap wait f take sense off) gap wait f take sense (off.signExtend 18))

/-- RDV of the matrix stream (R186, R22). -/
def execMRdv (gap : BitVec 4) (wait : BitVec 8) (s : State) : Out := onCrew s (fun c => c.finish .m (.mRdv gap wait) gap wait)

/-- HALT of the matrix stream (R186, R22). -/
def execMHalt (gap : BitVec 4) (wait : BitVec 8) (s : State) : Out := onCrew s (fun c => c.finish .m (.mHalt gap wait) gap wait)

/-- BRF of the copy stream (R212). -/
def execKBrf (gap : BitVec 4) (wait : BitVec 8) (f : CFlag) (take sense : BitVec 1) (off : BitVec 18) (s : State) : Out :=
  onCrew s (fun c => c.branch .k (.kBrf gap wait f take sense off) gap wait f take sense off)

/-- RDV of the copy stream (R212, R22). -/
def execKRdv (gap : BitVec 4) (wait : BitVec 8) (s : State) : Out := onCrew s (fun c => c.finish .k (.kRdv gap wait) gap wait)

/-- HALT of the copy stream (R212, R22). -/
def execKHalt (gap : BitVec 4) (wait : BitVec 8) (s : State) : Out := onCrew s (fun c => c.finish .k (.kHalt gap wait) gap wait)

/-- TOKW of the copy stream (R213). -/
def execKTokw (gap : BitVec 4) (wait kmask : BitVec 8) (lim : BitVec 6) (s : State) : Out :=
  onCrew s (fun c => c.waited .k (.kTokw gap wait kmask lim) wait (fun c =>
    if c.tokensAtMost kmask lim.toNat then c.pass .k gap (c.k.pc + 1) else c.block .k (.token kmask lim.toNat) 0))

end Sys2Proof.Machine
end

