-- ==== Sys2Proof/Machine/Memory.lean ====
section
/-!
DEFINITION. Global memory as every agent reaches it: crews, cores and dies by name, the home of an address, physical ranges, page
tables and TLBs (R276, R328-R335, R424), the base-delta block codec (R280, R281), event queues (R410) and the local memories
(R268-R273).
-/

namespace Sys2Proof.Machine

/-! ## Crews, cores and dies by name -/

/-- The agent number of a core's L1 (R285). -/
def Place.agent (p : Place) : Nat := p.die * 512 + (if p.npu then 128 else 0) + p.core

/-- The agent number of the core a crew is bound to. -/
def Crew.agent (c : Crew) : Nat := c.place.agent

/-- Does an agent number name an NPU core? -/
def agentNpu (k : Nat) : Bool := k / 128 % 4 == 1

/-- The die of an agent number. -/
def agentDie (k : Nat) : Nat := k / 512 % 2

/-- A core. -/
def State.core (s : State) (k : Nat) : Core := SMap.get (Core.reset (agentNpu k)) s.cores k

/-- A core replaced. -/
def State.setCore (s : State) (k : Nat) (c : Core) : State :=
  { s with cores := SMap.set (Core.reset (agentNpu k)) s.cores k c }

/-- A die. -/
def State.die (s : State) (d : Nat) : Die := SMap.get Die.reset s.dies d

/-- A die replaced. -/
def State.setDie (s : State) (d : Nat) (x : Die) : State := { s with dies := SMap.set Die.reset s.dies d x }

/-- Every crew. -/
def State.crews (s : State) : List Crew := s.crew :: s.rest

/-- The crew of a name. -/
def State.findCrew (s : State) (u : Nat) : Option Crew := s.crews.find? (fun c => c.uid == u)

/-- Every crew changed. -/
def State.mapCrews (s : State) (f : Crew → Crew) : State := { s with crew := f s.crew, rest := s.rest.map f }

/-- One crew changed. -/
def State.onCrewOf (s : State) (u : Nat) (f : Crew → Crew) : State := s.mapCrews (fun c => if c.uid = u then f c else c)

/-- The crew of a name brought to the front. -/
def State.focus (s : State) (u : Nat) : Option State :=
  if s.crew.uid = u then some s
  else match s.rest.find? (fun c => c.uid == u) with
    | some c => some { s with crew := c, rest := s.crew :: s.rest.filter (fun x => x.uid != u) }
    | none => none

/-- An event of a bound crew: nothing happens where the name is no such crew's. -/
def onUid (s : State) (u : Nat) (f : State → Out) : Out :=
  match s.focus u with
  | some s1 => if s1.crew.life == .running || s1.crew.life == .halting then f s1 else .next s
  | none => .next s

/-- A new identity. -/
def State.fresh (s : State) : Nat × State := (s.nextId, { s with nextId := s.nextId + 1 })

/-- The count of free values advanced by `n`: the values taken are those from the old count up (log 4). -/
def State.useFree (s : State) (n : Nat) : State := { s with free := s.free + n }

/-! ## Physical ranges (R276, R424, R435) -/

/-- What a physical frame reaches. -/
inductive Reach where
  | memory | pcie | registers | remote | nothing
  deriving DecidableEq, Repr

/-- Is an address in the HBM4E tier (R276)? -/
def isHbm (pa : Nat) : Bool := decide (pa < 2 ^ 39)

/-- Is an address in the LPDDR-6 tier (R276)? -/
def isLpddr (pa : Nat) : Bool := decide (2 ^ 40 ≤ pa) && decide (pa < 2 ^ 41)

/-- Is an address in the pod window (R424)? -/
def inPod (pa : Nat) : Bool := decide (2 ^ 47 ≤ pa) && decide (pa < 2 ^ 48)

/-- The home die of an address (R276). -/
def homeDie (pa : Nat) : Nat := pa / 2 ^ 12 % 2

/-- The home slice of an address (R276). -/
def homeSlice (pa : Nat) : Nat := pa / 2 ^ 9 % 8 + 8 * (pa / 2 ^ 13 % 8)

/-- The package a pod-window frame names (R424). -/
def podPkg (pa : Nat) : Nat := pa / 2 ^ 44 % 128

/-- Is an address in the window of a PCIe root port (R424)? -/
def isPcie (pa : Nat) : Bool := decide (2 ^ 41 ≤ pa) && decide (pa < 2 ^ 42)

/-- What an address outside the pod window reaches; HBM4E is out of reach in reduced service (R428). DEDUCED (log 66). -/
def localReach (reduced : Bool) (pa : Nat) : Reach :=
  if isHbm pa then (if reduced then .nothing else .memory)
  else if isLpddr pa then .memory
  else if isPcie pa then .pcie
  else if decide (2 ^ 42 ≤ pa) && decide (pa < 2 ^ 42 + 2 ^ 25) then .registers
  else .nothing

/-- The boot state of the package (R428): reduced service while a die reads 1. -/
def State.reduced (s : State) : Bool := SMap.get 0 s.bsState 0 == 1 || SMap.get 0 s.bsState 1 == 1

/-- What an address reaches from a die; of a package that belongs to no pod, no other package's frame (R424, R435). -/
def State.reach (s : State) (die pa : Nat) : Reach :=
  if inPod pa then
    if podPkg pa == (s.die die).fxPkg.toNat then localReach s.reduced (pa % 2 ^ 44)
    else if Config.podReachable (podPkg pa) && ((s.die die).fxPkg != 0 || Config.podOfZero) then .remote else .nothing
  else localReach s.reduced pa

/-- The bytes that stand at a physical range: memory's, or what a device below a root port answers. DESIGN CHOICE (log 100). -/
def State.phys (s : State) (pa len : Nat) : List Byte :=
  if isPcie pa then (List.range len).map (fun i => Config.deviceByte s.now (pa + i)) else s.mem.read pa len

/-! ## The block codec (R280, R281) -/

/-- Element `i` of a BDB block whose bytes are given, in a slot of elements of `n` bits (R280). -/
def bdbElem (n : Nat) (block : List Byte) (i : Nat) : Nat :=
  let base := leNat (block.take (n / 8))
  let w := leNat ((block.drop 4).take 1) % 32
  let stream := leNat (block.drop 8)
  let d : Int := if w = 0 then 0 else sVal w (stream / 2 ^ (w * i) % 2 ^ w)
  patOf n ((base : Int) + d)

/-- Does a block keep the "must" of R280? -/
def bdbGood (n : Nat) (block : List Byte) : Bool :=
  let head := leNat (block.take 8)
  (n == 32 || head / 2 ^ 16 % 2 ^ 16 == 0) && head / 2 ^ 37 == 0 && decide (head / 2 ^ 32 % 32 ≤ n - 1)

/-- The bits of a page's element type that the codec takes (R281, R329): 16 or 32. -/
def bdbBits (etype : Nat) : Nat := if etype = 1 ∨ etype = 5 then 32 else 16

/-- The bytes of one decoded slot: 64 elements, little-endian (R281). -/
def bdbDecode (n : Nat) (block : List Byte) : List Byte :=
  (List.range 64).flatMap (fun i => leBytes (n / 8) (bdbElem n block i))

/-- The bytes of a region of another package: this package's copy, or free values (R295). DESIGN CHOICE (log 67). -/
def State.remoteBytes (s : State) (die pa len : Nat) : List Byte :=
  match (s.die die).proxies.find? (fun r => r.pkg == podPkg pa && r.region == pa % 2 ^ 44 / 2048) with
  | some r => (r.bytes.drop (pa % 2048)).take len
  | none => (List.range len).map (fun i => Config.remoteByte s.free (pa + i))

/-- The bytes an access of a page reads of what stands in memory: as they stand, or decoded (R281); none where a block is malformed. The
range does not pass a slot's end. -/
def pageBytesOf (raw : Nat → Nat → List Byte) (att : Att) (pa len : Nat) : Option (List Byte) :=
  if att.bdb then
    let n := bdbBits att.etype
    let slot := 8 * n
    let base := pa / slot * slot
    let block := raw base slot
    if bdbGood n block then some ((bdbDecode n block).drop (pa - base) |>.take len) else none
  else some (raw pa len)

/-- The bytes of a range that may pass slot ends, piece by piece; `n` bounds the pieces. -/
def pageRangeOf (raw : Nat → Nat → List Byte) (att : Att) : Nat → Nat → Nat → Option (List Byte)
  | 0, _, _ => some []
  | n + 1, pa, len =>
    if len = 0 then some []
    else
      let room := if att.bdb then 8 * bdbBits att.etype - pa % (8 * bdbBits att.etype) else len
      let k := min room len
      match pageBytesOf raw att pa k, pageRangeOf raw att n (pa + k) (len - k) with
      | some a, some b => some (a ++ b)
      | _, _ => none

/-- The bytes of local memory that an access of a page reads, within a slot. -/
def State.pageBytes (s : State) (att : Att) (pa len : Nat) : Option (List Byte) := pageBytesOf s.phys att pa len

/-- The bytes of a range of local memory, piece by piece. -/
def State.pageRange (s : State) (att : Att) (n pa len : Nat) : Option (List Byte) := pageRangeOf s.phys att n pa len

/-- The bytes of a physical range as an engine of a die finds them; none where a block is malformed (R281, R433). -/
def State.homeBytes (s : State) (die pa len : Nat) (att : Att) : Option (List Byte) :=
  if inPod pa then pageRangeOf (s.remoteBytes die) att (len + 1) pa len else s.pageRange att (len + 1) pa len

/-! ## Page tables (R328-R333) -/

/-- A walk: what it ends with, and the address and value of the last entry read. -/
inductive Walk where
  | entry (e : TlbEntry)
  | fail (reason : Nat) (immediate : Bool) (pa : Nat) (val : Nat)
  deriving DecidableEq, Repr

/-- One 8-byte entry. -/
def State.pte (s : State) (pa : Nat) : Nat := leNat (s.phys pa 8)

/-- Does an entry lie where no access reaches: outside the ranges, or in HBM4E in reduced service (R276, R428)? DEDUCED (log 124). -/
def State.tableOut (s : State) (pa : Nat) : Bool :=
  !inPod pa &&
    (match localReach s.reduced pa with
     | .nothing => true
     | .registers => true
     | _ => false)

/-- The frame address of an entry (R329). -/
def pteFrame (e : Nat) : Nat := e / 2 ^ 18 % 2 ^ 40 * 4096

/-- A bit of an entry. -/
def pteBit (e i : Nat) : Bool := e / 2 ^ i % 2 == 1

/-- Is an entry a leaf or a pointer (R330)? -/
def pteLeaf (e : Nat) : Bool := pteBit e 1 || pteBit e 3

/-- The page size of a leaf at a level (R328). -/
def leafSize (level : Nat) : Nat := 2 ^ (12 + 9 * level)

/-- Is a valid entry malformed at its level (R330)? A pointer whose bits [16:1] are not zero is. DESIGN CHOICE (log 122). -/
def pteBad (level e : Nat) : Bool :=
  let grain := e / 2 ^ 7 % 4
  let etype := e / 2 ^ 9 % 8
  let mtype := e / 2 ^ 13 % 4
  let bdb := pteBit e 15
  (pteBit e 2 && !pteBit e 1) || pteBit e 17 ||
    (if pteLeaf e then
      decide (3 ≤ level) || grain == 3 || decide (6 ≤ etype) || mtype == 3 || pteFrame e % leafSize level != 0 ||
        (bdb && etype == 0) || (mtype == 2 && (etype != 0 || bdb || grain != 0))
    else level == 0 || e / 2 % 2 ^ 17 != 0)

/-- The attributes of a leaf (R329). -/
def pteAtt (e : Nat) : Att :=
  { grain := 32 * 4 ^ (e / 2 ^ 7 % 4), etype := e / 2 ^ 9 % 8, mtype := e / 2 ^ 13 % 4, bdb := pteBit e 15 }

/-- The translation a leaf gives: `n` pages of its size from the first one's address (R330, R331). -/
def leafEntry (asid va level n first : Nat) : TlbEntry :=
  let size := n * leafSize level
  let u := pteBit first 4
  { asid := asid, global := pteBit first 5, va := va / size * size, size := size, pa := pteFrame first, r := pteBit first 1 && u,
    w := pteBit first 2 && u, x := pteBit first 3 && u, att := pteAtt first }

/-- Is the group of 16 leaves well formed (R331)? -/
def groupGood (level : Nat) (es : List Nat) : Bool :=
  match es with
  | [] => false
  | e0 :: _ =>
    pteFrame e0 % (16 * leafSize level) == 0 &&
      (es.zip (List.range 16)).all (fun x =>
        pteBit x.1 0 && pteLeaf x.1 && pteBit x.1 6 && x.1 % 2 ^ 18 == e0 % 2 ^ 18 &&
          pteFrame x.1 == pteFrame e0 + x.2 * leafSize level)

/-- The walk from a table at a level downward (R328, R330, R331). -/
def State.walkFrom (s : State) (asid va : Nat) : Nat → Nat → Walk
  | level, table =>
    let at_ := table + 8 * (va / leafSize level % 512)
    let e := s.pte at_
    if s.tableOut at_ then .fail 6 true at_ 0
    else if !pteBit e 0 then .fail 0 false at_ e
    else if pteBad level e then .fail 7 false at_ e
    else if pteLeaf e then
      if pteBit e 6 then
        let g := at_ / 128 * 128
        let es := (List.range 16).map (fun i => s.pte (g + 8 * i))
        if groupGood level es then .entry (leafEntry asid va level 16 (es.headD 0)) else .fail 7 false at_ e
      else .entry (leafEntry asid va level 1 e)
    else match level with
      | 0 => .fail 7 false at_ e
      | l + 1 => s.walkFrom asid va l (pteFrame e)

/-- The entries that a walk from a table at a level reads, by address and level (R328). -/
def State.pathFrom (s : State) (va : Nat) : Nat → Nat → List (Nat × Nat)
  | level, table =>
    let at_ := table + 8 * (va / leafSize level % 512)
    let e := s.pte at_
    (at_, level) ::
      (if !pteBit e 0 || pteBad level e || pteLeaf e then []
       else match level with
         | 0 => []
         | l + 1 => s.pathFrom va l (pteFrame e))

/-- The leaf that a walk of an address ends at: its address, level and value; none where it ends at none (R330). -/
def State.leafFrom (s : State) (va : Nat) : Nat → Nat → Option (Nat × Nat × Nat)
  | level, table =>
    let at_ := table + 8 * (va / leafSize level % 512)
    let e := s.pte at_
    if !pteBit e 0 || pteBad level e then none
    else if pteLeaf e then some (at_, level, e)
    else match level with
      | 0 => none
      | l + 1 => s.leafFrom va l (pteFrame e)

/-- The leaf of an address under an ASID. -/
def State.leafOf (s : State) (die asid va : Nat) : Option (Nat × Nat × Nat) :=
  let e := s.pte ((s.die die).atab.toNat + 8 * asid)
  if va < 2 ^ 56 ∧ pteBit e 0 then s.leafFrom va 4 (pteFrame e) else none

/-- The addresses of the entries that a walk from the ASID table of a die reads (R328, R332). -/
def State.enginePath (s : State) (die asid va : Nat) : List Nat :=
  let at_ := (s.die die).atab.toNat + 8 * asid
  if 2 ^ 56 ≤ va then []
  else at_ :: (if pteBit (s.pte at_) 0 then (s.pathFrom va 4 (pteFrame (s.pte at_))).map Prod.fst else [])

/-- A walk from the ASID table of a die (R328, R332). DESIGN CHOICE (log 68). -/
def State.walk (s : State) (die asid va : Nat) : Walk :=
  let at_ := (s.die die).atab.toNat + 8 * asid
  let e := s.pte at_
  if 2 ^ 56 ≤ va then .fail 4 true 0 0
  else if (s.die die).retiring.contains asid then .fail 5 true 0 0
  else if s.tableOut at_ then .fail 6 true at_ 0
  else if !pteBit e 0 then .fail 0 true at_ e
  else s.walkFrom asid va 4 (pteFrame e)

/-- The deepest pointer of a core's walk cache that serves an address (R333). -/
def Core.ptrFind (c : Core) (asid va : Nat) : Option PtrEntry :=
  (List.range 4).findSome? (fun l => c.walks.find? (fun p =>
    p.asid == asid && p.level == l && p.va == va / leafSize (l + 1) * leafSize (l + 1)))

/-- Where a core's walker starts: level and table; none where the walk ends before it (R333). -/
def State.walkStart (s : State) (core asid va : Nat) : Option (Nat × Nat) :=
  let die := agentDie core
  let e := s.pte ((s.die die).atab.toNat + 8 * asid)
  if decide (2 ^ 56 ≤ va) || (s.die die).retiring.contains asid || !pteBit e 0 then none
  else match (s.core core).ptrFind asid va with
    | some p => some (p.level, p.table)
    | none => some (4, pteFrame e)

/-- A walk of a core's walkers: from a cached pointer, or from the ASID table (R333). -/
def State.coreWalk (s : State) (core asid va : Nat) : Walk :=
  match s.walkStart core asid va with
  | some x => s.walkFrom asid va x.1 x.2
  | none => s.walk (agentDie core) asid va

/-- The entries that a core's walk reads (R333). -/
def State.corePath (s : State) (core asid va : Nat) : List (Nat × Nat) :=
  match s.walkStart core asid va with
  | some x => s.pathFrom va x.1 x.2
  | none => []

/-- The TLB entry that translates an address (R333). -/
def Core.tlbFind (c : Core) (asid va : Nat) : Option TlbEntry :=
  c.tlb.find? (fun e => (e.global || e.asid == asid) && decide (e.va ≤ va) && decide (va < e.va + e.size))

/-- The outcome of translating one access (R330, R334). -/
inductive Tr where
  /-- mapped with the right needed: physical address and attributes -/
  | ok (pa : Nat) (att : Att)
  /-- no translation is cached: the access waits for a walk -/
  | miss
  /-- a right is missing; recoverable -/
  | denied (reason : Nat)
  /-- an immediate failure -/
  | now (reason : Nat)
  deriving DecidableEq, Repr

/-- Does an access kind of R252 write memory? -/
def kindWrites (kind : Nat) : Bool := kind == 2 || kind == 3 || kind == 5 || kind == 7

/-- Has the translation the right an access kind needs (R330)? -/
def TlbEntry.allows (e : TlbEntry) (kind : Nat) : Bool :=
  if kind = 0 then e.x else if kindWrites kind then e.w else e.r

/-- The reason of a missing right (R252). -/
def kindReason (kind : Nat) : Nat := if kind = 0 then 3 else if kindWrites kind then 2 else 1

/-- A translated access by its physical address; a frame in a PCIe window is not cached (R252, R276, R281, R424). DEDUCED (log 66).
DESIGN CHOICE (log 100). -/
def State.frameTr (s : State) (die kind : Nat) (e : TlbEntry) (va : Nat) : Tr :=
  let p := e.pa + (va - e.va)
  let pa := if inPod p && podPkg p == (s.die die).fxPkg.toNat then p % 2 ^ 44 else p
  if e.att.bdb && kindWrites kind then .now 2
  else if !e.allows kind then .denied (kindReason kind)
  else match s.reach die p with
    | .nothing => .now 6
    | .registers => .denied (kindReason kind)
    | .pcie => .ok pa { e.att with mtype := 2, bdb := false }
    | .remote => if e.att.bdb && (s.homeBytes die pa 1 e.att).isNone then .now 6 else .ok pa e.att
    | .memory =>
      if s.poisoned.contains (pa / 4096) then .now 6
      else if (s.pageBytes e.att pa 1).isNone then .now 6
      else .ok pa e.att

/-- Translating an access of a core (R328, R333, R334). -/
def State.translate (s : State) (core asid va kind : Nat) : Tr :=
  if 2 ^ 56 ≤ va then .now 4
  else if (s.die (agentDie core)).retiring.contains asid then .now 5
  else match (s.core core).tlbFind asid va with
    | some e => s.frameTr (agentDie core) kind e va
    | none => .miss

/-- Translating an access of an engine of a die, whose walkers keep no translation of the model's (R333): a walk each time.
DESIGN CHOICE (log 68). -/
def State.engineTr (s : State) (die asid va kind : Nat) : Tr :=
  match s.walk die asid va with
  | .entry e => s.frameTr die kind e va
  | .fail r true _ _ => .now r
  | .fail r false _ _ => .denied r

/-- Translating an access of a step's operand fetch: by its core's TLB, or by a walk of its core's (R333). -/
def State.stepTr (s : State) (core asid va kind : Nat) : Tr :=
  match s.translate core asid va kind with
  | .miss =>
    match s.coreWalk core asid va with
    | .entry e => s.frameTr (agentDie core) kind e va
    | .fail r true _ _ => .now r
    | .fail r false _ _ => .denied r
  | t => t

/-- Is a fault outstanding for the page of an address (R335)? -/
def State.faultOut (s : State) (die asid va kind : Nat) : Option FaultOut :=
  (s.die die).faults.find? (fun f => f.page == va / 4096 && f.asid == asid && f.kind == kind)

/-! ## Events (R335, R410) -/

/-- A record handed to a die's event queue; it is posted by EVENT_RECORD_POST. -/
def State.tell (s : State) (die type : Nat) (body : List Byte) : State :=
  let d := s.die die
  s.setDie die { d with events := d.events ++ [{ type := type, body := body }] }

/-- The fault record of an access (R335). -/
def faultBody (asid kind reason : Nat) (fabric : Bool) (agent va pa val : Nat) : List Byte :=
  leBytes 2 asid ++ leBytes 1 (kind + 8 * reason) ++ leBytes 1 (if fabric then 1 else 0) ++ leBytes 2 agent ++ leBytes 2 0 ++
    leBytes 8 va ++ leBytes 8 pa ++ leBytes 8 val

/-- A recoverable fault posted once for its page, ASID and kind (R335). -/
def State.postFault (s : State) (die asid va kind reason : Nat) (fabric : Bool) (agent pa val : Nat) : State :=
  if (s.faultOut die asid va kind).isSome then s
  else
    let d := s.die die
    let s1 := s.setDie die { d with
      faults := d.faults ++ [{ page := va / 4096, asid := asid, kind := kind, reason := reason, holders := [] }] }
    s1.tell die 1 (faultBody asid kind reason fabric agent va pa val)

/-- Is a fault the one of a page, ASID and kind? -/
def FaultOut.isFor (f : FaultOut) (asid page kind : Nat) : Bool := f.page == page && f.asid == asid && f.kind == kind

/-! ## Who holds on a fault (R337)

The keys of a die's askers: a command queue its number, a task queue 64 more, a sequencer 128 and its cluster, a pass 256 and 64 times its
command's die and its queue, the records of a chain ahead of their operator 512 and the queue's key, a job card 2^12 and its serial, a
bind 2^34 and its slot, a crew's image 2^40 and its crew. -/

/-- A command queue. -/
def Asker.queue (die q asid : Nat) : Asker := { die := die, asid := asid, key := q, agent := none }

/-- A task queue. -/
def Asker.task (die q asid : Nat) : Asker := { die := die, asid := asid, key := 64 + q, agent := none }

/-- A solver sequencer: its records name NPU core 8c of its cluster (R433). -/
def Asker.solver (n asid : Nat) : Asker := { die := n / 64, asid := asid, key := 128 + n % 64, agent := some (8 * n) }

/-- A job card, and the core that its records name. -/
def Asker.card (die serial asid agent : Nat) : Asker := { die := die, asid := asid, key := 2 ^ 12 + serial, agent := some agent }

/-- The firmware at a bind. -/
def Asker.bind (die core slot asid : Nat) : Asker := { die := die, asid := asid, key := 2 ^ 34 + 16 * core + slot, agent := none }

/-- The firmware at a crew's image. -/
def Asker.image (die uid asid : Nat) : Asker := { die := die, asid := asid, key := 2 ^ 40 + uid, agent := none }

/-- A chain of an asker, ahead of the operator that runs. -/
def Asker.ahead (w : Asker) : Asker := { w with key := 512 + w.key }

/-- An outstanding fault that an access holds on. -/
def State.holdFront (s : State) (w : Asker) (va kind : Nat) : State :=
  let d := s.die w.die
  let hold := fun (f : FaultOut) =>
    if f.isFor w.asid (va / 4096) kind ∧ !f.holders.contains w.key then { f with holders := f.holders ++ [w.key] } else f
  s.setDie w.die { d with faults := d.faults.map hold }

/-- Does an access hold on a fault? -/
def State.holdsOn (s : State) (w : Asker) (va kind : Nat) : Option FaultOut :=
  (s.faultOut w.die w.asid va kind).filter (fun f => f.holders.contains w.key)

/-- The fatal verdict on a held access (R337). -/
def State.doom (s : State) (w : Asker) (va kind : Nat) : Option FaultOut :=
  (s.die w.die).doomed.find? (fun f => f.isFor w.asid (va / 4096) kind && f.holders.contains w.key)

/-- The verdicts that an asker has met; each is kept until every access that held has met it. -/
def State.spendDoom (s : State) (w : Asker) (met : FaultOut → Bool) : State :=
  let d := s.die w.die
  let spend := fun (f : FaultOut) => if met f then { f with holders := f.holders.filter (· != w.key) } else f
  s.setDie w.die { d with doomed := (d.doomed.map spend).filter (fun f => !f.holders.isEmpty) }

/-- Verdicts met in an event. -/
def spendIn (w : Asker) (met : FaultOut → Bool) (o : Out) : Out :=
  match o with
  | .next t => .next (t.spendDoom w met)
  | x => x

/-- An asker whose work is over holds on nothing. -/
def State.letGo (s : State) (w : Asker) : State :=
  let d := s.die w.die
  let drop := fun (f : FaultOut) => { f with holders := f.holders.filter (· != w.key) }
  s.setDie w.die { d with faults := d.faults.map drop, doomed := (d.doomed.map drop).filter (fun f => !f.holders.isEmpty) }

/-- A malformed entry fails with the reason of an invalid one (R337). -/
def fatalReason (r : Nat) : Nat := if r = 7 then 0 else r

/-- The last entry a walk reads, for a record: its address and value (R335). -/
def State.lastEntry (s : State) (die asid va : Nat) : Nat × Nat :=
  match s.walk die asid va with
  | .fail _ _ pa v => (pa, v)
  | .entry _ =>
    match s.leafOf die asid va with
    | some (at_, _, e) => (at_, e)
    | none => (0, 0)

/-! ## Local memories (R268-R273) -/

/-- Intervals of bytes that are undefined until written, rid of a range that is written (R274). -/
def closeRange (l : List (Nat × Nat × Nat)) (a n : Nat) : List (Nat × Nat × Nat) :=
  l.flatMap (fun x =>
    if x.2.1 ≤ a ∨ a + n ≤ x.1 then [x]
    else (if x.1 < a then [(x.1, a, x.2.2)] else []) ++ (if a + n < x.2.1 then [(a + n, x.2.1, x.2.2 + (a + n - x.1))] else []))

/-- Bytes of the caddies: those that have joined and not been written are free values (R274). -/
def State.caddyBytes (s : State) (a n : Nat) : List Byte :=
  let bs := s.caddy.read a n
  if s.caddyOpen.isEmpty then bs
  else bs.mapIdx (fun i b =>
    match s.caddyOpen.find? (fun x => decide (x.1 ≤ a + i) && decide (a + i < x.2.1)) with
    | some x => Config.freeByte (x.2.2 + (a + i - x.1))
    | none => b)

/-- The bytes of a local memory or of physical memory. -/
def State.space (s : State) (sp : Space) (a n : Nat) : List Byte :=
  match sp with
  | .phys => s.phys a n
  | .spad core => s.spad.read (core * 2 ^ 20 + a) n
  | .caddy die => s.caddyBytes (die * 2 ^ 29 + a) n

/-- Bytes written to a local memory or to physical memory. -/
def State.setSpace (s : State) (sp : Space) (a : Nat) (bs : List Byte) : State :=
  match sp with
  | .phys => if isPcie a then s else { s with mem := s.mem.write a bs }
  | .spad core => { s with spad := s.spad.write (core * 2 ^ 20 + a) bs }
  | .caddy die =>
    { s with caddy := s.caddy.write (die * 2 ^ 29 + a) bs, caddyOpen := closeRange s.caddyOpen (die * 2 ^ 29 + a) bs.length }

/-- A scratchpad that holds no ASID's data holds that of the one that writes to it (R270, R272). -/
def State.claim (s : State) (asid : Nat) (sp : Space) : State :=
  match sp with
  | .spad core =>
    let x := s.core core
    if x.spadAsid.isNone then s.setCore core { x with spadAsid := some asid } else s
  | _ => s

/-- A nibble written, the other half of the byte kept (R156). -/
def State.setNibble (s : State) (sp : Space) (a : Nat) (high : Bool) (v : Nat) : State :=
  let old := leNat (s.space sp a 1)
  s.setSpace sp a (leBytes 1 (if high then old % 16 + 16 * (v % 16) else old / 16 * 16 + v % 16))

/-- The window of an ASID in a die's caddy: base and size in bytes (R273). -/
def State.window (s : State) (die asid : Nat) : Nat × Nat :=
  match (s.die die).windows.find? (fun w => w.1 == asid) with
  | some w => (w.2.1 * 2 ^ 20, w.2.2 * 2 ^ 20)
  | none => (0, 0)

/-- Is the die link trained (R429)? -/
def State.linkUp (s : State) : Bool := !s.reduced

/-- The byte of a lane's slice in its core's scratchpad (R271). -/
def sliceByte (npu : Bool) (slot lane o : Nat) : Nat :=
  192 * (Config.spadRows npu - 128 * (slot + 1) + o / 4) + 4 * lane + o % 4

/-- Where a local access of a path falls: its space and address, or the class and detail of its trap (R153, R268-R273, R195). On
path 2 an untrained link is reported before the bounds. DESIGN CHOICE (log 108). -/
def State.place (s : State) (c : Crew) (path lane a len : Nat) : Space × Nat ⊕ Nat × Nat :=
  let p := c.place
  match path with
  | 1 =>
    let w := s.window p.die c.bindRec.asid
    if a + len ≤ w.2 then .inl (.caddy p.die, w.1 + a) else .inr (4, 1)
  | 2 =>
    if !s.linkUp then .inr (6, 0)
    else
      let o := 1 - p.die
      let w := s.window o c.bindRec.asid
      if a + len ≤ w.2 then .inl (.caddy o, w.1 + a) else .inr (4, 1)
  | 3 =>
    let n := a / 2 ^ 20
    let o := a % 2 ^ 20
    let k := p.agent / 8 * 8 + n
    let other := match (s.core k).spadAsid with
      | some x => x != c.bindRec.asid
      | none => false
    if 7 < n || Config.spadBytes p.npu < o + len || other then .inr (4, 1) else .inl (.spad k, o)
  | 4 => if a + len ≤ Config.spadBytes p.npu then .inl (.spad p.agent, a) else .inr (4, 1)
  | _ =>
    if a + len ≤ 512 && decide (p.slot < (s.core p.agent).carve) then
      .inl (.spad p.agent, sliceByte p.npu p.slot lane a)
    else .inr (4, 1)

end Sys2Proof.Machine
end

