-- ==== Sys2Proof/Machine/Home.lean ====
section
/-!
DEFINITION. Home slices and what caches hold: directory entries, the examination of a write, the agents' messages, the writes on
their way home and the engines' accesses (R284-R294, R299, R301, R303, R341, R433, R434).
-/

namespace Sys2Proof.Machine

/-! ## Directory entries -/

/-- An entry with no holder. -/
def DirEntry.vacant (len : Nat) : DirEntry := { len := len, slots := [], owner := none, coarse := none, etype := 0, busy := none }

/-- The default of the directory. -/
def noEntry : DirEntry := DirEntry.vacant 0

/-- Is an entry empty (R286)? -/
def DirEntry.isEmpty (e : DirEntry) : Bool := e.slots.isEmpty && e.owner.isNone && e.coarse.isNone && e.busy.isNone

/-- The entry that covers an address, of whatever grain; else a vacant one of the page's grain (R275, R434). -/
def State.dirFind (s : State) (pa grain : Nat) : Nat × DirEntry :=
  match ([512, 128, 32] : List Nat).find? (fun n => (SMap.get noEntry s.dir (pa / n * n)).len == n) with
  | some n => (pa / n * n, SMap.get noEntry s.dir (pa / n * n))
  | none => (pa / grain * grain, DirEntry.vacant grain)

/-- An entry stored; an empty one leaves the directory. -/
def State.setDir (s : State) (base : Nat) (e : DirEntry) : State :=
  { s with dir := SMap.set noEntry s.dir base (if e.isEmpty then noEntry else e) }

/-- Does an entry hold a slot with a format other than 0 (R290)? In overflow none counts (R286). -/
def DirEntry.watched (e : DirEntry) : Bool := e.coarse.isNone && e.slots.any (fun x => x.fmt != 0)

/-- The upd bit of a new slot (R288). -/
def State.updOf (s : State) (agent : Nat) : Bool := (s.core agent).subUpd

/-- Does an agent exist (R15, R285)? Kind 3 names the proxies of the packages that the fabric reaches. DESIGN CHOICE (log 67). -/
def agentExists (a : Nat) : Bool :=
  decide (a < 1024) &&
    (match a / 128 % 4 with
     | 0 => decide (a % 128 < 128)
     | 1 => decide (a % 128 < 48)
     | 2 => decide (a % 128 < 48)
     | _ => Config.podReachable (a % 128))

/-- Is an agent a cache of this package (R285)? -/
def isCache (a : Nat) : Bool := decide (a < 1024) && a / 128 % 4 != 3 && agentExists a

/-- The agent number of another package's proxy for a region of this package's memory (R285, R295). -/
def proxyAgent (pa pkg : Nat) : Nat := 512 * homeDie pa + 384 + pkg % 128

/-- Does an agent number name another package's proxy? -/
def isProxy (a : Nat) : Bool := a / 128 % 4 == 3

/-! ## Grains of other packages (R295)

A die's proxy entries stand in the directory under the address with the die above it: 2^52 * (die + 1) + address. -/

/-- The name of a grain in the directory that serves a die. -/
def grainKey (die pa : Nat) : Nat := if inPod pa then 2 ^ 52 * (die + 1) + pa else pa

/-- The die whose slice keeps the entry of a name. -/
def keyDie (key : Nat) : Nat := if key < 2 ^ 52 then homeDie key else key / 2 ^ 52 - 1

/-- The bytes that the home, or a die's proxy, has of a named range. -/
def State.keyBytes (s : State) (key len : Nat) : List Byte :=
  if key < 2 ^ 52 then s.mem.read key len else s.remoteBytes (keyDie key) (key % 2 ^ 52) len

/-- One of the counters of a home slice raised (R299, R421). -/
def countUp (m : SMap (BitVec 48)) (slice n : Nat) : SMap (BitVec 48) :=
  SMap.set 0 m slice (SMap.get 0 m slice + BitVec.ofNat 48 n)

/-- The counters of R299 at a grain's home: invalidations, updates, suppressions, overflows. -/
def State.tally (s : State) (pa inv upd supp ovf : Nat) : State :=
  let d := s.die (keyDie pa)
  let k := homeSlice pa
  s.setDie (keyDie pa) { d with
    subInv := countUp d.subInv k inv, subUpd := countUp d.subUpd k upd, subSupp := countUp d.subSupp k supp,
    subOvf := countUp d.subOvf k ovf }

/-- A holder added or its slot replaced; the ninth puts the entry into overflow (R285, R286, R288). -/
def State.hold (s : State) (base : Nat) (e : DirEntry) (agent fmt : Nat) : State :=
  match e.coarse with
  | some gs => s.setDir base { e with coarse := some (if gs.contains (agent / 8) then gs else gs ++ [agent / 8]) }
  | none =>
    let slots := e.slots.filter (fun x => x.agent != agent) ++ [{ agent := agent, fmt := fmt, upd := s.updOf agent }]
    if slots.length ≤ 8 then s.setDir base { e with slots := slots }
    else (s.setDir base { e with slots := [], coarse := some (slots.map (fun x => x.agent / 8)).dedup }).tally base 0 0 0 1

/-- A holder gone (R286, R288). -/
def DirEntry.drop (e : DirEntry) (agent : Nat) : DirEntry :=
  { e with slots := e.slots.filter (fun x => x.agent != agent), owner := if e.owner = some agent then none else e.owner }

/-- In overflow an entry is emptied when its last holder has gone; the lines tell (R286). -/
def State.settle (s : State) (base : Nat) (e : DirEntry) : State :=
  if e.coarse.isSome && !s.lines.any (fun l => l.pa == base) then s.setDir base { e with coarse := none, owner := none, slots := [] }
  else s.setDir base e

/-! ## Lines -/

/-- Is a line an agent's that covers an address? -/
def Line.covers (l : Line) (agent pa : Nat) : Bool :=
  let key := grainKey (agentDie agent) pa
  l.agent == agent && decide (l.pa ≤ key) && decide (key < l.pa + l.len)

/-- The line of an agent that covers an address. -/
def State.line (s : State) (agent pa : Nat) : Option Line := s.lines.find? (fun l => l.covers agent pa)

/-- An agent's line at an address dropped. -/
def State.dropLine (s : State) (agent pa : Nat) : State := { s with lines := s.lines.filter (fun l => !l.covers agent pa) }

/-- An agent's line at an address changed. -/
def State.mapLine (s : State) (agent pa : Nat) (f : Line → Line) : State :=
  { s with lines := s.lines.map (fun l => if l.covers agent pa then f l else l) }

/-- Exact lines of a grain that the entry's owner field does not name are in S (R284). -/
def State.demote (s : State) (base : Nat) (owner : Option Nat) : State :=
  let one := fun (l : Line) =>
    if l.pa == base && owner != some l.agent && (l.state == .mod || l.state == .own || l.state == .excl) then { l with state := .shrd } else l
  { s with lines := s.lines.map one }

/-- Bytes laid over a list from an offset; what lies beyond its end is left. -/
def patch {α : Type} (xs : List α) (off : Nat) (ys : List α) : List α :=
  xs.take off ++ (ys.take (xs.length - off) ++ xs.drop (off + ys.length))

/-- Is a line exact and tracked by the directory? -/
def Line.exact (l : Line) : Bool :=
  match l.state with
  | .mod | .own | .excl | .shrd => true
  | _ => false

/-- May the holder write the line without asking (R284)? -/
def Line.writable (l : Line) : Bool := l.state == .mod || l.state == .excl

/-- Firmware-clock cycles of a number of microseconds (R15). -/
def cyclesOf (us : Nat) : Nat := 1200 * us

/-- The clock of a core in MHz (R5, R18, R428). -/
def State.coreMhz (s : State) (core : Nat) : Nat :=
  if agentNpu core then (if s.profile then 1500 else 2000)
  else if s.reduced then 600
  else if s.profile then 1900 else 2400

/-- The lease in firmware-clock cycles: the lesser of len * 32 core cycles and 3.6 us (R418, R18).
DESIGN CHOICE (log 9). DEDUCED (log 73). -/
def State.leaseCycles (s : State) (core : Nat) : Nat :=
  let len := (s.core core).lease
  let n := if len = 0 then 1 else min len 256
  min (32 * n * 1200 / s.coreMhz core) 4320

/-- Has a lease line reached its limit (R418)? DEDUCED (log 73). -/
def State.leaseOver (s : State) (l : Line) : Bool :=
  match l.state with
  | .lease t => decide (t + s.leaseCycles l.agent ≤ s.now)
  | _ => false

/-! ## Subscriptions (R287, R289) -/

/-- The element type code of a page's source type (R287, R329), where it has one. -/
def srcType (etype : Nat) : Option Nat :=
  match etype with
  | 1 => some 9
  | 2 => some 10
  | 3 => some 11
  | _ => none

/-- The element type code of a slot's format (R287). -/
def slotType (fmt : Nat) : Nat :=
  match fmt with
  | 1 => 11
  | 2 => 10
  | 3 => 12
  | 4 => 13
  | n => 13 + n

/-- The slot format that a VLDS of a type takes on a page of a source type (R287). -/
def slotFormat (etype ty : Nat) : Nat :=
  match srcType etype with
  | none => 0
  | some src =>
    if ty = src ∨ ty = 9 then 0
    else match ty with
      | 11 => 1
      | 10 => 2
      | 12 => 3
      | 13 => 4
      | n => n - 13

/-- Width in bytes of the elements of a page type (R329). -/
def srcBytes (etype : Nat) : Nat := if etype = 1 ∨ etype = 5 then 4 else 2

/-- A list cut into pieces of `n`; `fuel` bounds the pieces. -/
def pieces {α : Type} (n : Nat) : Nat → List α → List (List α)
  | 0, _ => []
  | f + 1, xs => if xs.isEmpty then [] else xs.take n :: pieces n f (xs.drop n)

/-- The patterns a subscriber at a format holds of some bytes (R289). -/
def patternsOf (etype fmt : Nat) (bytes : List Byte) : List Lane :=
  match srcType etype with
  | none => []
  | some src =>
    (pieces (srcBytes etype) bytes.length bytes).map (fun e => BitVec.ofNat 32 (subRound src (slotType fmt) (leNat e)))

/-! ## The examination of a write (R286, R290, R291) -/

/-- What a write at home does to the other holders. -/
structure Verdict where
  entry : DirEntry
  msgs : List Msg
  inv : Nat
  upd : Nat
  supp : Nat
  deriving DecidableEq, Repr

/-- The elements of an entry's record that a range overlaps: first byte offset and bytes, aligned to elements (R291). -/
def elemSpan (etype off len : Nat) : Nat × Nat :=
  let w := srcBytes etype
  let lo := off / w * w
  (lo, (off + len + w - 1) / w * w - lo)

/-- Has a slot's view of a grain changed (R291)? `old` and `new` are the grain's bytes before and after. -/
def slotChanged (etype fmt off len : Nat) (old new : List Byte) : Bool :=
  if fmt = 0 then old != new
  else
    let (lo, n) := elemSpan etype off len
    patternsOf etype fmt ((old.drop lo).take n) != patternsOf etype fmt ((new.drop lo).take n)

/-- The update sent to a slot: bytes, or the patterns of the overlapping elements, four bytes each from an element index (R291). -/
def slotUpdate (etype fmt off len : Nat) (new : List Byte) : Nat × List Byte :=
  if fmt = 0 then (off, (new.drop off).take len)
  else
    let (lo, n) := elemSpan etype off len
    (lo / srcBytes etype, (patternsOf etype fmt ((new.drop lo).take n)).flatMap (fun p => leBytes 4 p.toNat))

/-- A message to an agent about a grain. -/
def mkMsg (agent base write : Nat) (update : Bool) (off : Nat) (bytes : List Byte) : Msg :=
  { agent := agent, pa := base, write := write, update := update, off := off, len := bytes.length, bytes := bytes, sent := 0 }

/-- An entry in overflow: every existing agent that a set bit covers, but for the writer, is sent an invalidation, and the entry is left
empty: only a writer that takes M becomes its owner again (R286). -/
def overflowSend (base write : Nat) (writer : Option Nat) (e : DirEntry) (gs : List Nat) : Verdict :=
  let dst := gs.flatMap (fun g => ((List.range 8).map (fun i => 8 * g + i)).filter (fun a => agentExists a && writer != some a))
  { entry := { e with slots := [], coarse := none, owner := none }
    msgs := dst.map (fun a => mkMsg a base write false 0 []), inv := dst.length, upd := 0, supp := 0 }

/-- Every slot but the writer's own exact ownership is examined (R291). An O holder whose slot stays keeps the grain, but an engine's
write takes it from every holder first; one that has no slot is sent an invalidation that nothing counts (R290, R433). `off`, `len` is
the range written; `old`, `new` are the grain's bytes. DEDUCED (log 64). -/
def examine (base write : Nat) (writer : Option Nat) (off len : Nat) (old new : List Byte) (e : DirEntry) : Verdict :=
  match e.coarse with
  | some gs => overflowSend base write writer e gs
  | none =>
    let own := e.owner.filter (fun a => writer == some a)
    let one := fun (v : Verdict) (x : DirSlot) =>
      if own == some x.agent && x.fmt == 0 then { v with entry := { v.entry with slots := v.entry.slots ++ [x] } }
      else if !slotChanged e.etype x.fmt off len old new then
        { v with entry := { v.entry with slots := v.entry.slots ++ [x] }, supp := v.supp + 1 }
      else if x.upd then
        let (o, bs) := slotUpdate e.etype x.fmt off len new
        { v with entry := { v.entry with slots := v.entry.slots ++ [x] }, msgs := v.msgs ++ [mkMsg x.agent base write true o bs],
                 upd := v.upd + 1 }
      else { v with msgs := v.msgs ++ [mkMsg x.agent base write false 0 []], inv := v.inv + 1 }
    let v := e.slots.foldl one { entry := { e with slots := [], owner := own }, msgs := [], inv := 0, upd := 0, supp := 0 }
    match e.owner with
    | some a =>
      if own.isSome then v
      else if !e.slots.any (fun x => x.agent == a) then { v with msgs := v.msgs ++ [mkMsg a base write false 0 []] }
      else if writer.isSome && v.entry.slots.any (fun x => x.agent == a) then { v with entry := { v.entry with owner := e.owner } }
      else v
    | none => v

/-- A write to a grain with only exact holders: slots are invalidated or, with upd = 1, updated (R290). Nothing is counted (R434), but in
an entry whose record of R434 still stands: its slots count as examined (R327). DEDUCED (log 63). -/
def moesi (base write : Nat) (writer : Option Nat) (off len : Nat) (new : List Byte) (e : DirEntry) : Verdict :=
  match e.coarse with
  | some gs => overflowSend base write writer e gs
  | none =>
    let others := e.slots.filter (fun x => writer != some x.agent)
    let kept := others.filter (fun x => x.upd)
    let bare := match e.owner with
      | some a => if writer == some a || e.slots.any (fun x => x.agent == a) then [] else [a]
      | none => []
    { entry := { e with slots := e.slots.filter (fun x => writer == some x.agent || x.upd),
                        owner := if e.owner = writer then e.owner else none }
      msgs := (others.filter (fun x => !x.upd)).map (fun x => mkMsg x.agent base write false 0 []) ++
        bare.map (fun a => mkMsg a base write false 0 []) ++
        (if len = 0 then [] else kept.map (fun x => mkMsg x.agent base write true off ((new.drop off).take len)))
      inv := if e.etype = 0 then 0 else others.length - kept.length
      upd := if e.etype = 0 ∨ len = 0 then 0 else kept.length
      supp := 0 }

/-! ## Messages (R292, R294) -/

/-- A message received: a holder that has released the grain is not touched (R292). A line that takes an update returns a write that may
still be unperformed (R301). -/
def State.receive (s : State) (m : Msg) : State :=
  let news := fun (l : Line) => l.news.filter (fun n => s.writes.any (fun w => w.id == n)) ++ [m.write]
  if !m.update then s.dropLine m.agent m.pa
  else s.mapLine m.agent m.pa (fun l =>
    match l.state with
    | .sub _ =>
      { l with pats := patch l.pats m.off ((pieces 4 m.bytes.length m.bytes).map (fun e => BitVec.ofNat 32 (leNat e))), news := news l }
    | _ => { l with bytes := patch l.bytes m.off m.bytes, news := news l })

/-- The first message to an agent, and the others. DEDUCED (log 74). -/
def takeMsg (agent : Nat) (update : Bool) : List Msg → Option (Msg × List Msg)
  | [] => none
  | m :: ms =>
    if m.agent = agent then (if m.update == update then some (m, ms) else none)
    else (takeMsg agent update ms).map (fun x => (x.1, m :: x.2))

/-- The sharer packages of an address's region. -/
def State.sharers (s : State) (pa : Nat) : List Sharer :=
  if pa < 2 ^ 52 then (s.die (homeDie pa)).regions.filter (fun r => r.region == pa / 2048) else []

/-- The format that a sharer counts with: exact where it has no slot (R295). -/
def Sharer.format (x : Sharer) : Nat := if x.slot then x.fmt else 0

/-- What a write does to the sharer packages of its region: each slot is examined as R291 says; an update carries the new bytes, an
invalidation names the byte range (R296). `off`, `len` is the range written in the bytes at `base`. -/
def State.tellRegion (s : State) (base write off len : Nat) (old new : List Byte) : Verdict :=
  let one := fun (v : Verdict) (x : Sharer) =>
    let m := mkMsg (proxyAgent base x.pkg) (base + off) write false ((base + off) % 2048) []
    if !slotChanged x.etype x.format off len old new then { v with supp := v.supp + 1 }
    else if x.slot && x.upd then
      let bs := (new.drop off).take len
      { v with msgs := v.msgs ++ [{ m with update := true, len := bs.length, bytes := bs }], upd := v.upd + 1 }
    else { v with msgs := v.msgs ++ [{ m with len := len }], inv := v.inv + 1 }
  (s.sharers base).foldl one { entry := noEntry, msgs := [], inv := 0, upd := 0, supp := 0 }

/-! ## Performing at home -/

/-- The number of a frame of local memory in the write-record bitmap (R341): HBM first, then LPDDR. -/
def recordFrame (pa : Nat) : Nat := if isHbm pa then pa / 2 ^ 12 else 2 ^ 27 + (pa - 2 ^ 40) / 2 ^ 12

/-- The byte of the write-record bitmap that holds the bit of an address's frame (R341). DEDUCED (log 72). -/
def recordByte (s : State) (pa : Nat) : Nat := (s.die (homeDie pa)).wrec.toNat + recordFrame pa / 8

/-- A bit of the write-record bitmap set for the frame of an address (R341). DEDUCED (log 72). -/
def State.recordWrite (s : State) (pa : Nat) : State :=
  if isHbm pa || isLpddr pa then
    let at_ := recordByte s pa
    { s with mem := s.mem.write at_ [s.mem.byte at_ ||| BitVec.ofNat 8 (2 ^ (recordFrame pa % 8))] }
  else s

/-- The hotness count of an access's region raised by its 32-byte sectors (R420). DEDUCED (log 27). -/
def State.heat (s : State) (pa len : Nat) : State :=
  if isHbm pa || isLpddr pa then
    let k := if isHbm pa then pa / 2 ^ 22 else 131072 + (pa - 2 ^ 40) / 2 ^ 22
    let d := s.die (homeDie pa)
    let n := (pa + len + 31) / 32 - pa / 32
    s.setDie (homeDie pa) { d with hot := SMap.set 0 d.hot k (min 65535 (SMap.get 0 d.hot k + n)) }
  else s

/-- The minimum or maximum of two f32 patterns as R52 gives it. -/
def fltMinMax (isMax : Bool) (a b : Nat) : Nat × Flags := fmtF32.minMax isMax a b

/-- The new value of an atomic and its flags; none where a cas does not match (R68, R109, R158). `ty` 9 is f32; `w` bits. -/
def atomicNew (aop ty w m x y : Nat) : Option Nat × Flags :=
  let f32 := ty == 9
  match aop with
  | 0 => if f32 then ((fmtF32.add 0 m x).1, (fmtF32.add 0 m x).2) else (some ((m + x) % 2 ^ w), 0)
  | 1 => (some (m &&& x), 0)
  | 2 => (some (m ||| x), 0)
  | 3 => (some (m ^^^ x), 0)
  | 4 => if f32 then (some (fltMinMax false m x).1, (fltMinMax false m x).2)
    else (some (if sVal w m ≤ sVal w x then m else x), 0)
  | 5 => if f32 then (some (fltMinMax true m x).1, (fltMinMax true m x).2)
    else (some (if sVal w m ≤ sVal w x then x else m), 0)
  | 6 => (some (min m x), 0)
  | 7 => (some (max m x), 0)
  | 8 => (some x, 0)
  | _ => (if m = x then some y else none, 0)

/-- The bytes a write leaves at its address, given those that stand there; none where it writes nothing. -/
def Write.result (w : Write) (old : List Byte) : Option (List Byte) × Flags :=
  match w.op with
  | .own => (none, 0)
  | .store =>
    match w.nib with
    | none => (some w.bytes, 0)
    | some h =>
      let o := leNat old
      let v := leNat w.bytes % 16
      (some (leBytes 1 (if h then o % 16 + 16 * v else o / 16 * 16 + v)), 0)
  | .atomic aop ty x y =>
    let n := old.length
    let (r, f) := atomicNew aop ty (8 * n) (leNat old) x y
    (r.map (leBytes n), f)

/-- The bytes of a write's range. -/
def Write.span (w : Write) : Nat :=
  match w.op with
  | .own => 0
  | _ => w.bytes.length

/-- The old value of an atomic handed to the word that waits for it (R109, R158). A word whose token was lowered before takes no
flags. DESIGN CHOICE (log 109). -/
def State.deliverOld (s : State) (w : Write) (old : Nat) (f : Flags) : State :=
  s.onCrewOf w.uid (fun c =>
    if w.strm = .s then
      { c with sres := c.sres.map (fun r =>
          if r.id = w.word then
            { r with kind := match r.kind with
                | .atomic e sx oc sc aop ty x y _ => .atomic e sx oc sc aop ty x y (some old)
                | k => k }
          else r) }
    else
      { c with vwords := c.vwords.map (fun v =>
          if v.id = w.word then { v with olds := v.olds ++ [(w.key, BitVec.ofNat 32 old)], flags := v.flags ||| f } else v) })

/-- A write's bytes land: memory, the writer's own line, the records (R292, R341). -/
def State.land (s : State) (w : Write) : State :=
  let old := s.mem.read w.pa w.span
  let (r, f) := w.result old
  let s1 := match r with
    | none => s
    | some bs =>
      let s0 := s.recordWrite w.pa
      ({ s0 with mem := s0.mem.write w.pa bs }.mapLine w.core w.pa (fun l =>
        match l.state with
        | .sub _ => l
        | _ => { l with bytes := patch l.bytes (w.pa - l.pa) bs }))
  match w.op with
  | .atomic _ _ _ _ => s1.deliverOld w (leNat old) f
  | _ => s1

/-! ## Filling and releasing lines (R275, R284, R288) -/

/-- Bytes of an L1 data cache (R16, R275); none for a host core's, whose size the spec does not give. -/
def l1Size (agent : Nat) : Option Nat :=
  match agent / 128 % 4 with
  | 0 => some (2 ^ 17)
  | 1 => some (2 ^ 16)
  | _ => none

/-- A home-write grant of an agent ends: a later grant has changed its state (R290). -/
def State.endGrant (s : State) (agent base : Nat) : State :=
  let x := s.core agent
  if x.homeGrants.contains base then s.setCore agent { x with homeGrants := x.homeGrants.filter (fun b => b != base) } else s

/-- This package's copy of a region of another package, made where there is none: of the other die's copy, else of free values (R295).
DESIGN CHOICE (log 67). -/
def State.proxyFill (s : State) (die pa : Nat) : State :=
  let d := s.die die
  let hit := fun (r : Region) => r.pkg == podPkg pa && r.region == pa % 2 ^ 44 / 2048
  if !inPod pa || d.proxies.any hit then s
  else
    let bytes := match (s.die (1 - die)).proxies.find? hit with
      | some r => r.bytes
      | none => (List.range 2048).map (fun i => Config.remoteByte s.free (pa / 2048 * 2048 + i))
    (s.setDie die { d with proxies := d.proxies ++ [{ pkg := podPkg pa, region := pa % 2 ^ 44 / 2048, fmt := 0, upd := false, bytes := bytes }] }).useFree 1

/-- What the proxy of a region needs from its home: the local slots' common format where they share a rounded one, and whether one is
updated (R295). -/
def State.proxyNeed (s : State) (die pa : Nat) : Nat × Bool :=
  let base := grainKey die (pa / 2048 * 2048)
  let here := (s.dir.filter (fun x => decide (base ≤ x.1) && decide (x.1 < base + 2048))).map (fun x => x.2)
  let slots := here.flatMap (fun e => e.slots)
  let upd := slots.any (fun x => x.upd)
  match slots with
  | [] => (0, upd)
  | x :: _ => if !upd && here.all (fun e => e.coarse.isNone) && slots.all (fun y => y.fmt == x.fmt) then (x.fmt, upd) else (0, upd)

/-- The bytes that an upgrade of a region brings: free values, of which each element of a grain that is held in F rounds as its copy does,
since a copy always rounds the value at home (R293, R295). DESIGN CHOICE (log 67). -/
def State.refreshed (s : State) (die pa : Nat) (old : List Byte) : List Byte :=
  let base := grainKey die (pa / 2048 * 2048)
  let new := (List.range 2048).map (fun i => Config.remoteByte s.free (pa / 2048 * 2048 + i))
  let one := fun (bs : List Byte) (x : Nat × DirEntry) =>
    let w := srcBytes x.2.etype
    (List.range (x.2.len / w)).foldl (fun (bs : List Byte) i =>
      let at_ := x.1 - base + i * w
      let a := (old.drop at_).take w
      if x.2.slots.all (fun y => y.fmt == 0 || patternsOf x.2.etype y.fmt a == patternsOf x.2.etype y.fmt ((bs.drop at_).take w)) then bs
      else patch bs at_ a) bs
  (s.dir.filter (fun x => decide (base ≤ x.1) && decide (x.1 < base + 2048) && x.2.watched)).foldl one new

/-- A proxy whose required format has changed asks for it; one that asks for more brings the region again (R295). -/
def State.proxySync (s : State) (die pa : Nat) : State :=
  if !inPod pa then s
  else
    let d := s.die die
    let (fmt, upd) := s.proxyNeed die pa
    let one := fun (r : Region) =>
      if r.pkg == podPkg pa && r.region == pa % 2 ^ 44 / 2048 then
        { r with fmt := fmt, upd := upd, bytes := if r.fmt = fmt ∨ r.fmt = 0 then r.bytes else s.refreshed die pa r.bytes }
      else r
    (s.setDie die { d with proxies := d.proxies.map one }).useFree 1

/-- A line let go: its holder leaves the entry (R286, R288). -/
def State.release (s : State) (l : Line) : State :=
  let s1 := s.dropLine l.agent l.pa
  match l.state with
  | .lease _ => s1
  | _ =>
    let (base, e) := s1.dirFind l.pa l.len
    (s1.settle base (e.drop l.agent)).proxySync (keyDie l.pa) (l.pa % 2 ^ 52)

/-- One freely chosen line of an L1 that has no room for `n` bytes more is evicted (R16, R275). DESIGN CHOICE (log 113). -/
def State.evictOne (s : State) (agent n : Nat) : State :=
  let mine := s.lines.filter (fun l => l.agent == agent)
  match l1Size agent with
  | none => s
  | some cap =>
    if (mine.map (fun l => l.len)).sum + n ≤ cap then s
    else match mine[Config.freeChoice s.free % mine.length]? with
      | some l => (s.useFree 1).release l
      | none => s

/-- An L1 given a line: it takes the place of what the L1 holds of the grain, and others make room for it. -/
def State.putLine (s : State) (l : Line) : State :=
  let s1 := s.dropLine l.agent l.pa
  let s2 := (List.range 16).foldl (fun s _ => s.evictOne l.agent l.len) s1
  { s2 with lines := s2.lines ++ [l] }

/-- An owner beside a new reader: M passes to O, E to S (R284). -/
def State.share (s : State) (base : Nat) (e : DirEntry) : State × DirEntry :=
  match e.owner with
  | none => (s, e)
  | some a =>
    let s1 := s.mapLine a base (fun l => { l with state := if l.state = .mod ∨ l.state = .own then .own else .shrd })
    let dirty : Bool := match s.line a base with
      | some l => l.state == .mod || l.state == .own
      | none => false
    let s2 := (if e.slots.any (fun x => x.agent == a) then s1 else s1.hold base e a 0)
    let e2 := (s2.dirFind base e.len).2
    (s2, { e2 with owner := if dirty then some a else none })

/-- A line filled exactly: E where no one else holds the grain, else S (R284, R288). A sharer package holds it too (R285, R295). -/
def State.fillExact (s : State) (agent pa : Nat) (att : Att) : State :=
  let die := agentDie agent
  let (base, e) := s.dirFind (grainKey die pa) att.grain
  if e.busy.isSome then s
  else
    let alone := e.isEmpty && !inPod pa && (s.sharers pa).isEmpty
    let (s1, e1) := (s.proxyFill die pa).share base e
    let s2 := (if alone then s1.setDir base { e1 with owner := some agent } else s1.hold base e1 agent 0).proxySync die pa
    ((s2.putLine { agent := agent, pa := base, len := e.len, etype := e.etype, state := if alone then .excl else .shrd,
                   bytes := s2.keyBytes base e.len, pats := [], news := [] }).endGrant agent base).heat base e.len

/-- Ownership taken: M where no other holder is left, O beside updated ones (R284, R290). DEDUCED (log 63). DEDUCED (log 65). -/
def State.takeOwnership (s : State) (agent pa grain : Nat) : State :=
  let (base, e) := s.dirFind pa grain
  let others := e.slots.filter (fun x => x.agent != agent)
  let alone := others.isEmpty && e.coarse.isNone && (s.sharers pa).isEmpty
  let st : LineState := if alone then .mod else .own
  let s1 := s.setDir base { e with
    owner := some agent
    slots := if alone then [] else others ++ [{ agent := agent, fmt := 0, upd := s.updOf agent }] }
  let l : Line :=
    { agent := agent, pa := base, len := e.len, etype := e.etype, state := st, bytes := s1.mem.read base e.len, pats := [], news := [] }
  ((s1.demote base (some agent)).putLine l).endGrant agent base

/-- Does an entry name a holder? In overflow its coarse vector may (R286). -/
def DirEntry.names (e : DirEntry) (agent : Nat) : Bool := e.owner == some agent || e.slots.any (fun x => x.agent == agent) || e.coarse.isSome

/-- The line that a vector atomic's read fills exactly: its core holds none, or holds it in F (R288). -/
def State.atomicFills (s : State) (w : Write) : Bool :=
  (match w.op with
   | .atomic _ _ _ _ => w.strm == .v && w.att.mtype == 0 && !w.att.bdb
   | _ => false) &&
  (match s.line w.core w.pa with
   | none => true
   | some l =>
     match l.state with
     | .sub _ => true
     | _ => false)

/-- A core's lease line of an address dropped, once a word of the core has found what its home holds (R303, R307). -/
def State.dropLease (s : State) (core pa : Nat) : State :=
  match s.line core pa with
  | some l =>
    (match l.state with
     | .lease _ => s.dropLine core pa
     | _ => s)
  | none => s

/-- A write performed: it leaves the buffer (R292, R301). A writer that the entry names no more holds the grain no more (R284, R286).
DEDUCED (log 65). -/
def State.perform (s : State) (w : Write) : State :=
  let (base, e) := s.dirFind w.pa w.att.grain
  let fills := s.atomicFills w
  let s1 := (((s.setDir base { e with busy := none }).demote base e.owner).land w).heat w.pa (max 1 w.span)
  let tracked := match s1.line w.core w.pa with
    | some l => l.exact || (match l.state with
      | .sub _ => true
      | _ => false)
    | none => false
  let s2 :=
    if w.takes then (s1.takeOwnership w.core w.pa w.att.grain).recordWrite w.pa
    else if tracked && !e.names w.core then s1.dropLine w.core w.pa
    else s1
  let s3 := if fills then s2.fillExact w.core w.pa w.att else
    (match w.op with
     | .atomic _ _ _ _ => s2.dropLease w.core w.pa
     | _ => s2)
  { s3 with writes := s3.writes.filter (fun x => x.id != w.id) }

/-- Do two writes meet in a byte? -/
def Write.meets (a b : Write) : Bool := decide (a.pa < b.pa + b.span) && decide (b.pa < a.pa + a.span)

/-- Does a store of the scalar stream stand behind an earlier load of its class whose value is not there (R107, R304)? -/
def State.behindLoad (s : State) (w : Write) : Bool :=
  w.strm == .s &&
    (match s.findCrew w.uid with
     | some c => c.sres.any (fun r => decide (r.id < w.id) &&
       (match r.kind with
        | .load _ _ oc _ => oc == w.oc
        | .atomic _ _ oc _ _ _ _ _ _ => oc == w.oc && r.id != w.word
        | .value _ => false))
     | none => false)

/-- Do earlier accesses of its stream and class, or an earlier store of its core to its bytes, hold a write back from its home
(R303, R304)? An earlier read of the class is not performed while a write that it returned is not: at its scope, or, where another core
wrote, at any. -/
def State.heldBack (s : State) (w : Write) : Bool :=
  s.writes.any (fun a => decide (a.id < w.id) &&
    ((a.uid == w.uid && a.strm == w.strm && a.oc == w.oc && a.word != w.word && decide (3 ≤ a.sc)) ||
      (a.core == w.core && a.meets w))) || s.behindLoad w ||
  (match s.findCrew w.uid with
   | some c => c.seen.any (fun x => x.1 % 16 == w.oc &&
       s.writes.any (fun a => a.id == x.2 && (a.core != w.core || (decide (48 ≤ x.1) && decide (a.id < w.id)))))
   | none => false)

/-- Is a write performed at home rather than under ownership (R109, R286, R290, R307)? A home-write grant makes every write one; a request
for ownership brings no write. -/
def State.goesHome (s : State) (w : Write) (e : DirEntry) : Bool :=
  match w.op with
  | .atomic _ _ _ _ => true
  | .own => false
  | .store => w.att.mtype != 0 || (e.coarse.isSome && (s.line w.core w.pa).isNone) || e.watched ||
    (s.core w.core).homeGrants.contains (s.dirFind w.pa w.att.grain).1

/-- An access to another package is noted at the crew's die as it leaves (R411). -/
def State.sendOut (s : State) (die id uid asid pa va : Nat) (store : Bool) : State :=
  if inPod pa then
    let d := s.die die
    s.setDie die { d with fabOut := d.fabOut ++ [{ id := id, uid := uid, word := id, asid := asid, pkg := podPkg pa, addr := va,
                                                   store := store, left := s.now }] }
  else s

/-- The request of an access to another package is done. -/
def State.outDone (s : State) (die id : Nat) : State :=
  let d := s.die die
  s.setDie die { d with fabOut := d.fabOut.filter (fun x => x.id != id) }

/-- The entries that meet a range. -/
def State.dirIn (s : State) (pa len : Nat) : List (Nat × DirEntry) :=
  s.dir.filter (fun x => decide (x.1 < pa + len) && decide (pa < x.1 + x.2.len))

/-- One grain's part of a write that takes no slot: every slot examined, none the writer's own, the messages taken at once; a holder in M,
O or E gives its ownership up (R291, R433). -/
def State.engineGrain (s : State) (pa : Nat) (bytes : List Byte) (x : Nat × DirEntry) : State :=
  let base := x.1
  let e := x.2
  let lo := max pa base
  let hi := min (pa + bytes.length) (base + e.len)
  let grain := s.keyBytes base e.len
  let part := (bytes.drop (lo - pa)).take (hi - lo)
  let new := patch grain (lo - base) part
  let v := examine base 0 none (lo - base) (hi - lo) grain new e
  let s1 := ((s.setDir base v.entry).tally base v.inv v.upd v.supp 0).demote base none
  v.msgs.foldl (fun s m => s.receive m) s1

/-- New bytes of another package's memory reach a die's proxy: its local slots are processed as R291 says, its copy takes them (R296). -/
def State.proxyApply (s : State) (die pa : Nat) (bytes : List Byte) : State :=
  let key := grainKey die pa
  let s1 := (s.dirIn key bytes.length).foldl (fun s x => s.engineGrain key bytes x) s
  let d := s1.die die
  let one := fun (r : Region) =>
    if r.pkg == podPkg pa && r.region == pa % 2 ^ 44 / 2048 then { r with bytes := patch r.bytes (pa % 2048) bytes } else r
  s1.setDie die { d with proxies := d.proxies.map one }

/-- Bytes written to another package's memory: the writer's die keeps a copy of the region, and both dies' proxies take them (R295, R301).
A write that passes the region's end is told piece by piece. -/
def State.remoteStore (s : State) (die pa : Nat) (bytes : List Byte) : State :=
  let room := 2048 - pa % 2048
  let one := fun (s : State) (a : Nat) (bs : List Byte) => if bs.isEmpty then s else ((s.proxyFill die a).proxyApply 0 a bs).proxyApply 1 a bs
  (List.range (bytes.length / 2048 + 1)).foldl (fun s i => one s (pa + room + 2048 * i) ((bytes.drop (room + 2048 * i)).take 2048))
    (one s pa (bytes.take room))

/-- A write to another package's memory: this package's copies of the region are told at once; the write leaves the buffer (R295). A vector
atomic fills its core's line exactly (R288). -/
def State.remoteWrite (s : State) (w : Write) : State :=
  let d := agentDie w.core
  let s0 := s.proxyFill d w.pa
  let old := s0.remoteBytes d w.pa w.span
  let (r, f) := w.result old
  let s1 := match r with
    | none => s0
    | some bs => s0.remoteStore d w.pa bs
  let s2 := match w.op with
    | .atomic _ _ _ _ => s1.deliverOld w (leNat old) f
    | _ => s1
  let s3 := ({ s2 with writes := s2.writes.filter (fun x => x.id != w.id) } : State).outDone d w.word
  if s.atomicFills w then s3.fillExact w.core w.pa w.att else s3.dropLease w.core w.pa

/-- The write under way at its home: each holder is told what the verdict says, each sharer package of the region what `far` says; with no
message to wait for it is performed (R290-R292, R296). -/
def State.sendWrite (s : State) (w : Write) (base : Nat) (v far : Verdict) : State :=
  let s1 := (s.setDir base { v.entry with busy := some w.id }).tally base (v.inv + far.inv) (v.upd + far.upd) (v.supp + far.supp) 0
  let s2 := { s1 with
    msgs := s1.msgs ++ (v.msgs ++ far.msgs).map (fun m => { m with sent := s.now })
    writes := s1.writes.map (fun x => if x.id = w.id then w else x) }
  if v.msgs.isEmpty && far.msgs.isEmpty then s2.perform w else s2

/-- A write that its home examines (R290, R291); an atomic that writes nothing is performed at once (R109). A request for ownership writes
no bytes that a sharer package could hold differently (R296, R299). -/
def State.examineWrite (s : State) (w : Write) (base : Nat) (e : DirEntry) (home : Bool) : State :=
  let grain := s.mem.read base e.len
  let off := w.pa - base
  let r := (w.result ((grain.drop off).take w.span)).1
  if r.isNone && w.op != .own then s.perform w
  else
    let new := match r with
      | some bs => patch grain off bs
      | none => grain
    let v := if e.watched then examine base w.id (some w.core) off w.span grain new e
      else moesi base w.id (some w.core) off w.span new e
    let far : Verdict := if w.op == .own then { entry := noEntry, msgs := [], inv := 0, upd := 0, supp := 0 }
      else s.tellRegion base w.id off w.span grain new
    s.sendWrite { w with sent := true, takes := !home } base v far

/-- A write to a device below a root port: the device takes it, and an atomic brings back what the device answers (R424).
DESIGN CHOICE (log 100). -/
def State.deviceWrite (s : State) (w : Write) : State :=
  let old := s.phys w.pa w.span
  let s1 := match w.op with
    | .atomic _ _ _ _ => s.deliverOld w (leNat old) (w.result old).2
    | _ => s
  { s1 with writes := s1.writes.filter (fun x => x.id != w.id) }

/-- A write arrives: performed at once in a line its core may write, else each holder is examined and told, and it is performed
when all have acknowledged (R290-R292). A request for write ownership of a watched grain gets a home-write grant (R290). -/
def State.arrive (s : State) (w : Write) : State :=
  if inPod w.pa then s.remoteWrite w
  else if isPcie w.pa then s.deviceWrite w
  else
    let (base, e) := s.dirFind w.pa w.att.grain
    let home := s.goesHome w e
    let mine := match s.line w.core w.pa with
      | some l => l.writable
      | none => false
    if e.busy.isSome || w.sent then s
    else if !home && mine then
      let s1 := (s.land w).mapLine w.core w.pa (fun l => { l with state := .mod })
      { s1 with writes := s1.writes.filter (fun x => x.id != w.id) }
    else if w.op == .own && e.watched then
      let x := s.core w.core
      let s1 := s.setCore w.core { x with homeGrants := if x.homeGrants.contains base then x.homeGrants else x.homeGrants ++ [base] }
      { s1 with writes := s1.writes.filter (fun x => x.id != w.id) }
    else s.examineWrite w base e home

/-! ## Engines (R433) -/

/-- Has every grain of a range no write outstanding (R292)? -/
def State.homesFree (s : State) (pa len : Nat) : Bool := (s.dirIn pa len).all (fun x => x.2.busy.isNone)

/-- An engine reads at home: a holder in M passes to O (R433). DEDUCED (log 27). -/
def State.engineRead (s : State) (pa len : Nat) : State :=
  let toOwn := fun (s : State) (x : Nat × DirEntry) =>
    match x.2.owner with
    | some a =>
      match s.line a x.1 with
      | some l =>
        if l.state = .mod then
          (s.mapLine a x.1 (fun l => { l with state := .own })).hold x.1 x.2 a 0
        else s
      | none => s
    | none => s
  ((s.dirIn pa len).foldl toOwn s).heat pa len

/-- Does an engine's read of a range meet a holder in M, whose data the home must first obtain (R433)? -/
def State.snoops (s : State) (pa len : Nat) : Bool :=
  (s.dirIn pa len).any (fun x =>
    match x.2.owner with
    | some a =>
      (match s.line a x.1 with
       | some l => l.state == .mod
       | none => false)
    | none => false)

/-- The first entry of an engine's walk whose grain a holder has in M: its home must first obtain the data (R433). -/
def State.walkSnoop (s : State) (die asid va : Nat) : Option Nat := (s.enginePath die asid va).find? (fun x => s.snoops x 8)

/-- A walk of an engine: an M holder of an entry it read passes to O (R433). -/
def State.engineWalked (s : State) (die asid va : Nat) : State := (s.enginePath die asid va).foldl (fun t x => t.engineRead x 8) s

/-- What an engine's write does to the sharer packages of the regions it meets, each with the first byte it writes there (R296); `id` names
it in their messages. -/
def State.tellRegions (s : State) (id pa : Nat) (bytes : List Byte) : List (Nat × Verdict) :=
  ((List.range (bytes.length / 2048 + 2)).map (fun i => (pa / 2048 + i) * 2048)).filterMap (fun r =>
    if (s.sharers r).isEmpty then none
    else
      let lo := max pa r
      let hi := min (pa + bytes.length) (r + 2048)
      if hi ≤ lo then none
      else
        let old := s.mem.read r 2048
        some (lo, s.tellRegion r id (lo - r) (hi - lo) old (patch old (lo - r) ((bytes.drop (lo - pa)).take (hi - lo)))))

/-- The grains of a range held busy by a write: those with an entry, and 512-byte blocks that have none (R292). -/
def State.holdBusy (s : State) (id pa len : Nat) : State :=
  let blocks := (List.range (len / 512 + 2)).map (fun i => (pa / 512 + i) * 512)
  let bare := blocks.filter (fun b => decide (b < pa + len) && decide (pa < b + 512) && (s.dirIn b 512).isEmpty)
  let s1 := (s.dirIn pa len).foldl (fun s x => s.setDir x.1 { x.2 with busy := some id }) s
  bare.foldl (fun s b => s.setDir b { DirEntry.vacant 512 with busy := some id }) s1

/-- An engine's write tells the sharer packages; until they have acknowledged, its grains wait (R292, R296). -/
def State.tellFar (s : State) (pa : Nat) (bytes : List Byte) : State :=
  let id := s.nextId
  let vs := s.tellRegions id pa bytes
  let s1 := vs.foldl (fun s x => s.tally x.1 x.2.inv x.2.upd x.2.supp 0) s
  let msgs := vs.flatMap (fun x => x.2.msgs.map (fun m => { m with sent := s.now }))
  if msgs.isEmpty then s1 else ({ s1 with msgs := s1.msgs ++ msgs, nextId := id + 1 } : State).holdBusy id pa bytes.length

/-- Grains whose write has been acknowledged and is no core's wait no more (R292). -/
def State.freeHomes (s : State) : State :=
  let done := fun (e : DirEntry) =>
    match e.busy with
    | some w => !s.msgs.any (fun m => m.write == w) && !s.writes.any (fun x => x.id == w)
    | none => false
  (s.dir.filter (fun x => done x.2)).foldl (fun s x => s.setDir x.1 { x.2 with busy := none }) s

/-- Is a write of an engine that was told to a sharer package after a mark still unacknowledged (R292, R296)? -/
def State.farOut (s : State) (mark : Nat) : Bool :=
  s.msgs.any (fun m => isProxy m.agent && decide (mark < m.write) && !s.writes.any (fun w => w.id == m.write))

/-- The frames a range touches. -/
def framesOf (pa len : Nat) : List Nat :=
  if len = 0 then [] else (List.range ((pa + len - 1) / 4096 - pa / 4096 + 1)).map (fun i => (pa / 4096 + i) * 4096)

/-- An engine writes at home, or to a device (R424, R433). DEDUCED (log 64). -/
def State.engineWrite (s : State) (pa : Nat) (bytes : List Byte) : State :=
  if isPcie pa then s
  else
  let s1 := ((s.dirIn pa bytes.length).foldl (fun s x => s.engineGrain pa bytes x) s).tellFar pa bytes
  let s2 := (framesOf pa bytes.length).foldl (fun s f => s.recordWrite f) s1
  ({ s2 with mem := s2.mem.write pa bytes } : State).heat pa bytes.length

/-- An engine's atomic at home (R433): an operation that writes nothing reads. -/
def State.engineAtomic (s : State) (pa len : Nat) (a : Nat × Nat × Nat × Nat) : State :=
  match (atomicNew a.1 a.2.1 (8 * len) (leNat (s.phys pa len)) a.2.2.1 a.2.2.2).1 with
  | some n => s.engineWrite pa (leBytes len n)
  | none => s.engineRead pa len

/-! ## What a core reads (R301) -/

/-- The buffered writes of a core that meet a range, oldest first. A store behind an earlier load of its class is not performed at core
scope before the load, so no read finds it (R301, R304). -/
def State.buffered (s : State) (core pa len : Nat) : List Write :=
  s.writes.filter (fun w =>
    w.core == core && w.op == .store && decide (w.pa < pa + len) && decide (pa < w.pa + w.span) && !s.behindLoad w)

/-- The identity of the oldest write that a scalar load has let pass into the buffer behind it: what the load returns stands before that
write (R304). -/
def State.readLimit (s : State) (uid oc id : Nat) : Nat :=
  ((s.writes.filter (fun w => w.uid == uid && w.strm == .s && w.oc == oc && decide (id < w.id))).map (fun w => w.id)).foldl min s.nextId

/-- A buffered write laid over the bytes of a range. -/
def overlay (pa : Nat) (bs : List Byte) (w : Write) : List Byte :=
  let one := fun (i : Nat) (b : Byte) =>
    let a := pa + i
    if w.pa ≤ a ∧ a < w.pa + w.span then
      match w.nib with
      | none => w.bytes.getD (a - w.pa) b
      | some h =>
        let v := leNat w.bytes % 16
        BitVec.ofNat 8 (if h then b.toNat % 16 + 16 * v else b.toNat / 16 * 16 + v)
    else b
  bs.mapIdx one

/-- The bytes a plain read of a core finds under its buffer, once its line is there: none while it must be filled (R288, R301). A read of a
decoded page is not served while a store of the core to the block itself is unperformed (R281). -/
def State.lineBytes (s : State) (core pa len : Nat) (att : Att) : Option (List Byte) :=
    if att.bdb then
      let slot := 8 * bdbBits att.etype
      if (s.buffered core (pa / slot * slot) slot).isEmpty then s.homeBytes (agentDie core) pa len att else none
    else if att.mtype == 2 then s.homeBytes (agentDie core) pa len att
    else match s.line core pa with
      | some l =>
        let part := (l.bytes.drop (grainKey (agentDie core) pa - l.pa)).take len
        match l.state with
        | .sub _ => none
        | .lease _ => if s.leaseOver l then none else some part
        | _ => some part
      | none => none

/-- A read that no line serves goes to the home and is counted there: of an uncached page, and of the slots of a decoded one (R281, R420).
DEDUCED (log 27). -/
def State.readHeat (s : State) (pa len : Nat) (att : Att) : State :=
  if att.bdb then
    let slot := 8 * bdbBits att.etype
    s.heat (pa / slot * slot) slot
  else if att.mtype == 2 then s.heat pa len
  else s

/-- The bytes a plain read of a core finds: the buffered stores older than a limit lie over those of its line (R301). -/
def State.readTo (s : State) (core pa len : Nat) (att : Att) (lim : Nat) : Option (List Byte) :=
  (s.lineBytes core pa len att).map (fun bs =>
    ((s.buffered core pa len).filter (fun w => decide (w.id < lim))).foldl (overlay pa) bs)

/-- The bytes a plain read of a core finds, every buffered store over those of its line (R301). -/
def State.readLine (s : State) (core pa len : Nat) (att : Att) : Option (List Byte) :=
  (s.lineBytes core pa len att).map (fun bs => (s.buffered core pa len).foldl (overlay pa) bs)

/-! ## Accesses of the engines (R433) -/

/-- What an engine's access ends with: a value; a page out, to be held (R178, R195); a failure no mapping can cure, its cause and
tval (R178, R196); a home with a write outstanding (R292); a read whose home must first obtain the data of a holder in M, which passes
to O (R433). -/
inductive Fetch (α : Type) where
  | ok (a : α)
  | held (va reason : Nat)
  | bad (code : BitVec 9) (tval : Nat)
  | busy
  | snoop (pa len : Nat)

/-- One access after another. -/
def Fetch.andThen {α β : Type} (x : Fetch α) (f : α → Fetch β) : Fetch β :=
  match x with
  | .ok a => f a
  | .held va r => .held va r
  | .bad k t => .bad k t
  | .busy => .busy
  | .snoop pa len => .snoop pa len

/-- Accesses in a row. -/
def Fetch.all {α β : Type} (f : α → Fetch β) : List α → Fetch (List β)
  | [] => .ok []
  | x :: xs => (f x).andThen (fun y => (Fetch.all f xs).andThen (fun ys => .ok (y :: ys)))

/-- The pieces of a range that stay within 4 KiB pages: addresses and lengths; `fuel` bounds them. -/
def pagePieces : Nat → Nat → Nat → List (Nat × Nat)
  | 0, _, _ => []
  | fuel + 1, a, n =>
    if n = 0 then []
    else
      let k := min n (4096 - a % 4096)
      (a, k) :: pagePieces fuel (a + k) (n - k)

/-- Bytes stored by an engine at a place: at home, in another package, or in a local memory (R195, R433). -/
def State.engineStore (s : State) (die : Nat) (sp : Space) (x : Nat) (bs : List Byte) : State :=
  match sp with
  | .phys =>
    if inPod x then s.remoteStore die x bs else s.engineWrite x bs
  | other => s.setSpace other x bs

end Sys2Proof.Machine
end

