-- ==== Sys2Proof/Machine/ScalarMem.lean ====
section
/-!
DEFINITION. Scalar memory words, fences and barriers, register blocks and task words (R96, R106-R109, R119-R125, R127, R128).
-/

namespace Sys2Proof.Machine

/-- The word waits. -/
def State.blockS (s : State) (st : Strm) (w : Wait) : State := { s with crew := s.crew.block st w s.nextId }

/-- A trap of the word at the stream's PC, before it issues; where no rule names sr.tval the caller gives 0. DESIGN CHOICE (log 43). -/
def State.trapW (s : State) (st : Strm) (cls detail : Nat) (tval : Word) : State :=
  { s with crew := s.crew.trapHere st cls detail tval }

/-- Attributes of no page. -/
def Att.plain : Att := { grain := 32, etype := 0, mtype := 0, bdb := false }

/-- Does the side log hold an entry of a stream and class (R336)? -/
def State.logged (s : State) (core uid : Nat) (st : Strm) (oc : Nat) : Bool :=
  (s.core core).log.any (fun e => e.w.uid == uid && e.w.strm == st && e.w.oc == oc)

/-- The element a scalar access touches. -/
def scalarElem (va len : Nat) (tr : Option (Nat × Att)) : Elem :=
  { key := 0, space := .phys, va := va, len := len, nib := none, data := 0, data2 := 0, space2 := .phys, addr2 := 0
    addr := match tr with
      | some x => x.1
      | none => va
    att := match tr with
      | some x => x.2
      | none => Att.plain
    tr := tr.isSome }

/-- A write of the focused crew handed to the core's buffer (R301). -/
def State.buffer (s : State) (w : Write) : State := { s with writes := s.writes ++ [w] }

/-- A write of a word of the focused crew. -/
def State.mkWrite (s : State) (st : Strm) (id word key oc sc va pa : Nat) (bytes : List Byte) (nib : Option Bool) (op : WOp)
    (att : Att) : Write :=
  { id := id, core := s.crew.agent, uid := s.crew.uid, strm := st, word := word, key := key, asid := s.crew.bindRec.asid, oc := oc,
    sc := sc, va := va, pa := pa, bytes := bytes, nib := nib, op := op, att := att, sent := false, takes := false }

/-- Bytes of a scalar access size (R68). -/
def scalarBytes (size : Nat) : Nat := 2 ^ size

/-- The register pair partner of a cas (R109). -/
def pairReg (d : GReg) : GReg := d + 1

/-- Is a load or atomic of a class still to come back to the scalar stream (R304)? -/
def Crew.classPending (c : Crew) (oc : Nat) : Bool :=
  c.sres.any (fun r =>
    match r.kind with
    | .load _ _ o _ => o == oc
    | .atomic _ _ o _ _ _ _ _ _ => o == oc
    | .value _ => false)

/-- LD (R106, R107): what cannot be cured traps; what can is a result in flight. DESIGN CHOICE (log 43). DEDUCED (log 44). -/
def execLd (d a : GReg) (oc : BitVec 4) (sc : BitVec 3) (size : BitVec 2) (sx : BitVec 1) (off : BitVec 4) (s : State) : Out :=
  scalarState s (.ld d a oc sc size sx off) [a] d (fun s =>
    let n := scalarBytes size.toNat
    let va := (s.crew.rdG a + BitVec.ofNat 64 (off.toNat * n)).toNat
    if va % n != 0 then .next (s.trapW .s 4 0 (BitVec.ofNat 64 va))
    else if s.logged s.crew.agent s.crew.uid .s oc.toNat then .next (s.blockS .s .sideLog)
    else
      let issue := fun (tr : Option (Nat × Att)) =>
        let (id, s1) := s.fresh
        let c := s1.crew
        let r : SRes := { id := id, d := d, kind := .load (scalarElem va n tr) (sx == 1) oc.toNat sc.toNat }
        let s2 := { s1 with crew := ({ c with sres := c.sres ++ [r] } : Crew).advance }
        match tr with
        | some x => s2.sendOut c.place.die id c.uid c.bindRec.asid x.1 va false
        | none => s2
      match s.translate s.crew.agent s.crew.bindRec.asid va 1 with
      | .now r => .next (s.trapW .s 3 (8 + r) (BitVec.ofNat 64 va))
      | .ok pa att => .next (issue (some (pa, att)))
      | _ => .next (issue none))

/-- A write that enters the side log (R336); `released` where its page is mapped. -/
def State.logWrite (s : State) (w : Write) (released : Bool) : State :=
  let c := s.core w.core
  s.setCore w.core { c with log := c.log ++ [{ w := w, page := w.va / 4096, released := released }] }

/-- Entries of a core's side log in use: one for each 128-byte block of each word (R336). -/
def State.logUse (s : State) (core : Nat) : Nat := ((s.core core).log.map (fun e => (e.w.word, e.w.va / 128))).dedup.length

/-- ST (R106, R108): the write enters the core's buffer, or its side log. DESIGN CHOICE (log 43). -/
def execSt (d a : GReg) (oc : BitVec 4) (sc : BitVec 3) (size : BitVec 2) (off : BitVec 4) (s : State) : Out :=
  scalarState s (.st d a oc sc size off) [a, d] 0 (fun s =>
    let n := scalarBytes size.toNat
    let va := (s.crew.rdG a + BitVec.ofNat 64 (off.toNat * n)).toNat
    let core := s.crew.agent
    let asid := s.crew.bindRec.asid
    if va % n != 0 then .next (s.trapW .s 4 0 (BitVec.ofNat 64 va))
    else
      let bytes := leBytes n ((s.crew.rdG d).toNat % 2 ^ (8 * n))
      let (id, s1) := s.fresh
      let w := fun pa att => s.mkWrite .s id id 0 oc.toNat sc.toNat va pa bytes none .store att
      let step := fun (s : State) => ({ s with crew := s.crew.advance } : State)
      let log := fun (released : Bool) =>
        if s.logUse core < 256 then step (s1.logWrite (w 0 Att.plain) released) else s.blockS .s .sideLog
      let tr := s.translate core asid va 2
      match tr with
      | .now r => .next (s.trapW .s 3 (16 + r) (BitVec.ofNat 64 va))
      | _ =>
        if s.logged core s.crew.uid .s oc.toNat then
          .next (log (s.faultOut (agentDie core) asid va 2).isNone)
        else match tr with
          | .ok pa att => .next ((step (s1.buffer (w pa att))).sendOut s.crew.place.die id s.crew.uid asid pa va true)
          | _ =>
            if (s.faultOut (agentDie core) asid va 2).isSome then .next (log false)
            else .next (s.blockS .s (.translation va 2)))

/-- An atomic of the scalar stream (R109). DEDUCED (log 44). -/
def State.amo (s : State) (i : Instr) (aop : Nat) (sx : Bool) (d a : GReg) (oc : BitVec 4) (sc : BitVec 3) (size : BitVec 1) : Out :=
  let cas := aop == 9
  scalarState s i (if cas then [a, d, pairReg d] else [a, d]) d (fun s =>
    let n := 4 * 2 ^ size.toNat
    let va := (s.crew.rdG a).toNat
    let core := s.crew.agent
    let asid := s.crew.bindRec.asid
    if va % n != 0 then .next (s.trapW .s 4 0 (BitVec.ofNat 64 va))
    else if s.logged core s.crew.uid .s oc.toNat then .next (s.blockS .s .sideLog)
    else
      let x := (s.crew.rdG d).toNat % 2 ^ (8 * n)
      let y := (s.crew.rdG (pairReg d)).toNat % 2 ^ (8 * n)
      let (id, s1) := s.fresh
      let issue := fun (tr : Option (Nat × Att)) (s1 : State) =>
        let c := s1.crew
        let r : SRes := { id := id, d := d, kind := .atomic (scalarElem va n tr) sx oc.toNat sc.toNat aop 3 x y none }
        ({ s1 with crew := ({ c with sres := c.sres ++ [r] } : Crew).advance } : State)
      match s.translate core asid va 3 with
      | .now r => .next (s.trapW .s 3 (24 + r) (BitVec.ofNat 64 va))
      | .ok pa att =>
        let w := s.mkWrite .s id id 0 oc.toNat sc.toNat va pa (leBytes n 0) none (.atomic aop 3 x y) att
        if s.crew.classPending oc.toNat then .next (issue none s1)
        else .next ((issue (some (pa, att)) (s1.buffer w)).sendOut s.crew.place.die id s.crew.uid asid pa va false)
      | _ => .next (issue none s1))

/-- amo.add (R109). -/
def execAmoAdd (d a : GReg) (oc : BitVec 4) (sc : BitVec 3) (size : BitVec 1) (s : State) : Out :=
  s.amo (.amoAdd d a oc sc size) 0 false d a oc sc size

/-- amo.and (R109). -/
def execAmoAnd (d a : GReg) (oc : BitVec 4) (sc : BitVec 3) (size : BitVec 1) (s : State) : Out :=
  s.amo (.amoAnd d a oc sc size) 1 false d a oc sc size

/-- amo.or (R109). -/
def execAmoOr (d a : GReg) (oc : BitVec 4) (sc : BitVec 3) (size : BitVec 1) (s : State) : Out :=
  s.amo (.amoOr d a oc sc size) 2 false d a oc sc size

/-- amo.xor (R109). -/
def execAmoXor (d a : GReg) (oc : BitVec 4) (sc : BitVec 3) (size : BitVec 1) (s : State) : Out :=
  s.amo (.amoXor d a oc sc size) 3 false d a oc sc size

/-- amo.min.s (R109): the old value is sign-extended. -/
def execAmoMinS (d a : GReg) (oc : BitVec 4) (sc : BitVec 3) (size : BitVec 1) (s : State) : Out :=
  s.amo (.amoMinS d a oc sc size) 4 true d a oc sc size

/-- amo.max.s (R109): the old value is sign-extended. -/
def execAmoMaxS (d a : GReg) (oc : BitVec 4) (sc : BitVec 3) (size : BitVec 1) (s : State) : Out :=
  s.amo (.amoMaxS d a oc sc size) 5 true d a oc sc size

/-- amo.min.n (R109). -/
def execAmoMinN (d a : GReg) (oc : BitVec 4) (sc : BitVec 3) (size : BitVec 1) (s : State) : Out :=
  s.amo (.amoMinN d a oc sc size) 6 false d a oc sc size

/-- amo.max.n (R109). -/
def execAmoMaxN (d a : GReg) (oc : BitVec 4) (sc : BitVec 3) (size : BitVec 1) (s : State) : Out :=
  s.amo (.amoMaxN d a oc sc size) 7 false d a oc sc size

/-- amo.swap (R109). -/
def execAmoSwap (d a : GReg) (oc : BitVec 4) (sc : BitVec 3) (size : BitVec 1) (s : State) : Out :=
  s.amo (.amoSwap d a oc sc size) 8 false d a oc sc size

/-- amo.cas (R109): the pair is g[d], g[d+1]. -/
def execAmoCas (d a : GReg) (oc : BitVec 4) (sc : BitVec 3) (size : BitVec 1) (s : State) : Out :=
  s.amo (.amoCas d a oc sc size) 9 false d a oc sc size

/-! ## Results landing (R96, R303-R305) -/

/-- A loaded or old value as its register holds it (R107, R109). -/
def scalarValue (sx : Bool) (n v : Nat) : Word :=
  if sx then BitVec.ofInt 64 (sVal (8 * n) v) else BitVec.ofNat 64 v

/-- A scalar result gone, its register written. -/
def Crew.landG (c : Crew) (r : SRes) (v : Word) : Crew :=
  ({ c with sres := c.sres.filter (fun x => x.id != r.id) } : Crew).wrG r.d v

/-- A scalar result gone without a write: its fault becomes the stream's pending trap (R337). -/
def Crew.failG (c : Crew) (r : SRes) (kind reason va : Nat) : Crew :=
  ({ c with sres := c.sres.filter (fun x => x.id != r.id) } : Crew).postPend .s
    ⟨causeCode 3 (8 * kind + reason), BitVec.ofNat 64 va⟩ none

/-- Must a read of a stream and class still wait (R304)? Earlier accesses of the class whose scope passes the core must have been
performed, but for those up to a store `own` of the stream that the read returns; so must the writes that earlier reads returned, at
their scope or from another core. -/
def State.readWaits (s : State) (c : Crew) (st : Strm) (oc id own : Nat) : Bool :=
  s.writes.any (fun w => w.uid == c.uid && w.strm == st && w.oc == oc && decide (3 ≤ w.sc) && decide (w.id < id) && decide (own < w.id)) ||
    c.seen.any (fun x => x.1 % 16 == oc && s.writes.any (fun w => w.id == x.2 && (decide (48 ≤ x.1) || w.core != c.agent)))

/-- The buffered store of the stream and class that a range lies wholly within, by its identity; 0 where there is none. -/
def State.forwarded (s : State) (c : Crew) (st : Strm) (oc pa len : Nat) : Nat :=
  match (s.buffered c.agent pa len).getLast? with
  | some w => if w.uid == c.uid && w.strm == st && w.oc == oc && decide (w.pa ≤ pa) && decide (pa + len ≤ w.pa + w.span) then w.id else 0
  | none => 0

/-- The unperformed writes that a read returned, noted: its core's buffered stores older than a limit, and those whose updates its line has
taken (R301, R305). -/
def State.noteTo (s : State) (c : Crew) (oc sc pa len lim : Nat) : Crew :=
  let news := match s.line c.agent pa with
    | some l => l.news.filter (fun n => s.writes.any (fun w => w.id == n))
    | none => []
  let own := ((s.buffered c.agent pa len).filter (fun w => decide (w.id < lim))).map (fun w => w.id)
  { c with seen := c.seen ++ (own ++ news).map (fun n => (16 * sc + oc, n)) }

/-- The same of a read that nothing limits. -/
def State.noteSeen (s : State) (c : Crew) (oc sc pa len : Nat) : Crew := s.noteTo c oc sc pa len s.nextId

/-- Has the block of a decoded page that a read meets become malformed since its translation (R281)? -/
def State.blockBad (s : State) (core pa len : Nat) (att : Att) : Bool := att.bdb && (s.homeBytes (agentDie core) pa len att).isNone

/-- A scalar load whose address is physical completes where its line is there and its class lets it; a block that has become malformed
leaves class-3 reason 6 pending. DEDUCED (log 126). -/
def State.finishLoad (s : State) (r : SRes) (e : Elem) (sx : Bool) (oc sc : Nat) : State :=
  let c := s.crew
  let s := if inPod e.addr then s.proxyFill c.place.die e.addr else s
  let lim := s.readLimit c.uid oc r.id
  if s.readWaits c .s oc r.id (s.forwarded c .s oc e.addr e.len) then s
  else if s.blockBad c.agent e.addr e.len e.att then ({ s with crew := c.failG r 1 6 e.va } : State).outDone c.place.die r.id
  else match s.readTo c.agent e.addr e.len e.att lim with
    | none => s
    | some bs =>
      let c1 := (s.noteTo c oc sc e.addr e.len lim).landG r (scalarValue sx e.len (leNat bs))
      (({ s with crew := c1 } : State).outDone c.place.die r.id).readHeat e.addr e.len e.att

/-- SCALAR_RESULT_COMPLETE (R96): a load, atomic, div or rem result lands. Reads and atomics of one class come back in order
(R304); one that waits for its page is translated again. -/
def execScalarResultComplete (u id : Nat) (s : State) : Out :=
  onUid s u (fun s =>
    let c := s.crew
    match c.sres.find? (fun r => r.id == id) with
    | none => .next s
    | some r =>
      let first := fun (oc : Nat) => !({ c with sres := c.sres.takeWhile (fun x => x.id != id) } : Crew).classPending oc
      match r.kind with
      | .value v => .next { s with crew := c.landG r v }
      | .load e sx oc sc =>
        if !first oc then .next s
        else if e.tr then .next (s.finishLoad r e sx oc sc)
        else match s.translate c.agent c.bindRec.asid e.va 1 with
          | .ok pa att =>
            let e1 := scalarElem e.va e.len (some (pa, att))
            let put := fun (q : SRes) => if q.id = id then { q with kind := .load e1 sx oc sc } else q
            .next ((({ s with crew := { c with sres := c.sres.map put } } : State).sendOut c.place.die id u c.bindRec.asid pa e.va
              false).finishLoad r e1 sx oc sc)
          | .now k => .next { s with crew := c.failG r 1 k e.va }
          | _ => .next s
      | .atomic e sx oc sc aop ty x y old =>
        if !first oc then .next s
        else match old with
          | some v => .next (({ s with crew := c.landG r (scalarValue sx e.len v) } : State).outDone c.place.die id)
          | none =>
            if e.tr then .next s
            else match s.translate c.agent c.bindRec.asid e.va 3 with
              | .ok pa att =>
                let w := s.mkWrite .s id id 0 oc sc e.va pa (leBytes e.len 0) none (.atomic aop ty x y) att
                let put := fun (q : SRes) =>
                  if q.id = id then { q with kind := .atomic (scalarElem e.va e.len (some (pa, att))) sx oc sc aop ty x y none } else q
                .next ((({ s with crew := { c with sres := c.sres.map put } } : State).buffer w).sendOut c.place.die id u
                  c.bindRec.asid pa e.va false)
              | .now k => .next { s with crew := c.failG r 3 k e.va }
              | _ => .next s)

/-! ## Fences and barriers (R119-R122, R305) -/

/-- Does a class mask name a class? -/
def inClasses (mask : BitVec 16) (oc : Nat) : Bool := mask.getLsbD oc

/-- Is an export of a PEXP of the crew's, issued before `mark`, not yet blended (R165)? -/
def State.exportsPending (s : State) (mark : Nat) : Bool :=
  let c := s.crew
  let message := fun (v : VWord) =>
    match v.kind with
    | .message (.pexp _) => decide (v.id < mark)
    | _ => false
  c.vwords.any message ||
    (match c.raster with
     | some r => s.passes.any (fun p => p.exports.any (fun e => e.rid == r && decide (e.word < mark)))
     | none => false)

/-- Is a write of the crew's, of a named class, issued before `mark`, not yet performed at a scope (R121, R301)? A plain store is performed
at core scope once it stands in the buffer and no earlier load of its class is to come back. DEDUCED (log 41). -/
def State.writesPending (s : State) (mask : BitVec 16) (sc mark : Nat) : Bool :=
  let c := s.crew
  (sc == 8 && mask != 0 && s.exportsPending mark) ||
    s.writes.any (fun w => w.uid == c.uid && inClasses mask w.oc && decide (w.id < mark) &&
      (decide (3 ≤ sc) || w.op != .store || s.behindLoad w)) ||
    (s.core c.agent).log.any (fun e => e.w.uid == c.uid && inClasses mask e.w.oc && decide (e.w.id < mark)) ||
    c.jobs.any (fun j => inClasses mask j.oc && decide (j.id < mark)) ||
    c.vwords.any (fun v => inClasses mask v.oc && decide (v.id < mark) &&
      (match v.kind with
       | .store => v.elems.any (fun e => e.space != .phys)
       | .atomic _ _ | .copy16 => true
       | _ => false))

/-- Is a read of the crew's, of a named class, issued before `mark`, not yet performed at a scope (R121, R245, R305)? -/
def State.readsPending (s : State) (mask : BitVec 16) (sc mark : Nat) : Bool :=
  let c := s.crew
  c.sres.any (fun r => decide (r.id < mark) &&
      (match r.kind with
       | .load _ _ oc _ => inClasses mask oc
       | .atomic _ _ oc _ _ _ _ _ _ => inClasses mask oc
       | .value _ => false)) ||
    c.vwords.any (fun v => inClasses mask v.oc && decide (v.id < mark) &&
      (match v.kind with
       | .load | .subscribe => true
       | _ => false)) ||
    (match c.array with
     | some a => decide (a.id < mark) &&
       (match a.kind with
        | .step f _ _ _ => inClasses mask f.oc.toNat
        | _ => false)
     | none => false) ||
    (s.core c.agent).inf.any (fun b => b.uid == c.uid && b.bytes.isNone && inClasses mask b.oc && decide (b.id < mark)) ||
    c.proLoads.any (fun p => inClasses mask p.oc && decide (p.id < mark)) ||
    c.jobs.any (fun j => inClasses mask j.ocList && decide (j.id < mark) &&
      (match j.ins with
       | .cpysg _ _ => true
       | _ => false)) ||
    c.seen.any (fun x => inClasses mask (x.1 % 16) && s.writes.any (fun w => w.id == x.2 && (decide (3 ≤ sc) || w.core != c.agent)))

/-- The count of identities when the scalar word first waited: what it covers was issued before. -/
def State.markS (s : State) : Nat := s.crew.s.mark.getD s.nextId

/-- Every lease line of a core dropped (R307). -/
def State.dropLeases (s : State) (core : Nat) : State :=
  { s with lines := s.lines.filter (fun l => !(l.agent == core &&
      (match l.state with
       | .lease _ => true
       | _ => false))) }

/-- A fence, engine fence or barrier of a scope completes (R307). DEDUCED (log 41). -/
def State.fenceDone (s : State) (leases : Bool) (sc : Nat) : State :=
  let s1 := if leases && decide (3 ≤ sc) then s.dropLeases s.crew.agent else s
  { s1 with crew := ({ s1.crew with seen := s1.crew.seen.filter (fun x => s.writes.any (fun w => w.id == x.2)) } : Crew).advance }

/-- FENCE (R121, R305). -/
def execFence (sc : BitVec 4) (cmask : BitVec 16) (s : State) : Out :=
  scalarState s (.fence sc cmask) [] 0 (fun s =>
    if s.writesPending cmask sc.toNat s.markS || s.readsPending cmask sc.toNat s.markS then .next (s.blockS .s .fence)
    else .next (s.fenceDone true sc.toNat))

/-- EFENCE (R122): it waits for writes alone. -/
def State.efence (s : State) (i : Instr) (sc : BitVec 4) (cmask : BitVec 16) : Out :=
  scalarState s i [] 0 (fun s =>
    if s.writesPending cmask sc.toNat s.markS then .next (s.blockS .s .fence) else .next (s.fenceDone false sc.toNat))

/-- efence.copy (R122). -/
def execEfenceCopy (sc : BitVec 4) (cmask : BitVec 16) (s : State) : Out := s.efence (.efenceCopy sc cmask) sc cmask

/-- efence.coll (R122). -/
def execEfenceColl (sc : BitVec 4) (cmask : BitVec 16) (s : State) : Out := s.efence (.efenceColl sc cmask) sc cmask

/-- efence.solve (R122). -/
def execEfenceSolve (sc : BitVec 4) (cmask : BitVec 16) (s : State) : Out := s.efence (.efenceSolve sc cmask) sc cmask

/-- efence.infuse (R122). -/
def execEfenceInfuse (sc : BitVec 4) (cmask : BitVec 16) (s : State) : Out := s.efence (.efenceInfuse sc cmask) sc cmask

/-- The launch of a crew. -/
def State.launchOf (s : State) (c : Crew) : Option Launch := s.launches.find? (fun l => l.id == c.launch)

/-- Do two first placements share the unit of a scope (R119)? -/
def sameUnit (sc : Nat) (p q : Place) : Bool :=
  match sc with
  | 2 => p.npu == q.npu && p.agent == q.agent
  | 3 => p.npu == q.npu && p.agent / 8 == q.agent / 8
  | 4 => p.die == q.die
  | _ => true

/-- Have all participants of a scope arrived `n` times (R119)? Every crew of the launch is one at package scope, bound yet or not; the
crews of a narrower unit are bound together (R120). -/
def State.allArrived (s : State) (c : Crew) (sc n : Nat) : Bool :=
  match s.launchOf c with
  | none => true
  | some l =>
    decide (sc ≤ 1) || ((decide (sc ≤ 4) || decide (l.total ≤ l.parts.length)) &&
      l.parts.all (fun p => !sameUnit sc p.place c.home || decide (n ≤ SMap.get 0 p.arrived sc)))

/-- The focused crew arrives at a barrier of a scope (R119). DEDUCED (log 40). -/
def State.arriveAt (s : State) (sc : Nat) : Nat × State :=
  let c := s.crew
  let n := SMap.get 0 c.arrived sc + 1
  let put := fun (p : Part) => if p.uid = c.uid then { p with arrived := SMap.set 0 p.arrived sc n } else p
  (n, { s with
    crew := { c with arrived := SMap.set 0 c.arrived sc n, bars := c.bars ++ [(c.s.pc, sc, n)] }
    launches := s.launches.map (fun l => if l.id = c.launch then { l with parts := l.parts.map put } else l) })

/-- The arrival of the BAR at the scalar stream's PC that has not completed: one that a handler or a pre-emption has interrupted
stays arrived (R120). -/
def Crew.barAt (c : Crew) : Option (Pc × Nat × Nat) := c.bars.find? (fun b => b.1 == c.s.pc)

/-- A BAR that has arrived completes with the last arrival of its participants (R119). -/
def State.barStep (s : State) (k target : Nat) : State :=
  if s.allArrived s.crew k target then
    ({ s with crew := { s.crew with bars := s.crew.bars.filter (fun b => b.1 != s.crew.s.pc) } } : State).fenceDone true k
  else s.blockS .s (.barrier k target)

/-- BAR (R119, R120): the release, the arrival, then the wait for the others. DEDUCED (log 40). -/
def execBar (sc : BitVec 4) (cmask : BitVec 16) (s : State) : Out :=
  scalarState s (.bar sc cmask) [] 0 (fun s =>
    let n := sc.toNat
    match s.crew.barAt with
    | some (_, k, target) => .next (s.barStep k target)
    | none =>
      if s.crew.kern.bar < n then .next (s.trapW .s 5 5 0)
      else if s.writesPending cmask n s.markS || s.readsPending cmask n s.markS then .next (s.blockS .s .fence)
      else
        let (target, s1) := s.arriveAt n
        .next (s1.barStep n target))

/-! ## Register blocks (R36, R124, R125) -/

/-- The extended blocks of a crew cleared: they read as zero when granted (R124, R239). -/
def Crew.clearExt (c : Crew) : Crew :=
  { c with
    vreg := SMap.clear c.vreg (32 * 128) (32 * 512)
    poisonV := SMap.clear c.poisonV 128 512
    spoilV := c.spoilV.filter (fun r => decide (r < 128)) }

/-- The crew's request for blocks enters the core's line once (R36). A request whose REGACQ waits no more, since a trap was taken over
it, is withdrawn (R98, R124). DEDUCED (log 110). -/
def State.askBlocks (s : State) (n : Nat) : State :=
  let k := s.crew.agent
  let c := s.core k
  let me := s.crew.uid
  let waits := fun (u : Nat) =>
    match s.findCrew u with
    | some x => x.s.wait == .pool
    | none => false
  let live := c.poolWait.filter (fun x => waits x.1 && (x.1 != me || x.2 == n))
  s.setCore k { c with poolWait := if live.any (fun x => x.1 == me) then live else live ++ [(me, n)] }

/-- REGACQ (R124). -/
def execRegacq (n : BitVec 3) (s : State) : Out :=
  scalarState s (.regacq n) [] 0 (fun s =>
    if s.crew.ext != 0 then .next (s.trapW .s 1 4 0)
    else
      let s1 := s.askBlocks n.toNat
      let k := s1.crew.agent
      let c := s1.core k
      match c.poolWait with
      | (u, m) :: rest =>
        if u == s1.crew.uid && decide (m ≤ c.poolFree) then
          let s2 := s1.setCore k { c with poolFree := c.poolFree - m, poolWait := rest }
          .next { s2 with crew := ({ s2.crew.clearExt with ext := m } : Crew).advance }
        else .next (s1.blockS .s .pool)
      | [] => .next s1)

/-- Is a write to the crew's extended blocks in flight, or a lock on them held (R125, R243)? -/
def Crew.extBusy (c : Crew) : Bool :=
  c.vwin.any (fun w => w.regs.any (fun r => decide (128 ≤ r))) ||
    c.vwords.any (fun w => w.regs.any (fun r => decide (128 ≤ r))) ||
    (match c.array with
     | some a => a.locks.any (fun r => decide (128 ≤ r))
     | none => false) ||
    c.port.any (fun e =>
      match e.ins with
      | .mread f => decide (128 ≤ f.vx.toNat + f.mx.toNat * 4 + 3)
      | .mcvt f => decide (128 ≤ f.vx.toNat + f.mx.toNat * 4 + 3)
      | _ => false)

/-- REGREL (R125). -/
def execRegrel (s : State) : Out :=
  scalarState s .regrel [] 0 (fun s =>
    if s.crew.ext == 0 then .next { s with crew := s.crew.advance }
    else if s.crew.extBusy then .next (s.blockS .s .result)
    else
      let k := s.crew.agent
      let c := s.core k
      let s1 := s.setCore k { c with poolFree := c.poolFree + s.crew.ext }
      .next { s1 with crew := ({ s1.crew.clearExt with ext := 0 } : Crew).advance })

/-! ## Tasks (R127, R128, R406-R409) -/

/-- Slots of a task queue's ring (R406). -/
def TaskQueue.slots (q : TaskQueue) : Nat := 2 ^ (min (q.ctl.toNat % 16) 8 + 4)

/-- Is a task queue configured for an ASID (R406)? -/
def TaskQueue.open_ (q : TaskQueue) (asid : Nat) : Bool := q.ctl.getLsbD 7 && q.ctl.toNat / 2 ^ 8 % 2 ^ 16 == asid

/-- A fence handle (R354). -/
def fenceHandle (die serial asid : Nat) : Word := BitVec.ofNat 64 (die % 2 * 2 ^ 63 + serial % 2 ^ 32 * 2 ^ 16 + asid % 2 ^ 16)

/-- A fence table entry that no fence holds: state 1, so that it may be taken. -/
def Fence.none : Fence := { serial := 2 ^ 32, asid := 0, launch := 0, state := 1 }

/-- The fence a handle names for an ASID (R409). -/
def State.fenceOf (s : State) (asid : Nat) (h : Word) : Option Fence :=
  let serial := h.toNat / 2 ^ 16 % 2 ^ 32
  let f := SMap.get Fence.none (s.die (h.toNat / 2 ^ 63)).fences (serial % 4096)
  if f.serial == serial && f.asid == asid && h.toNat % 2 ^ 16 == asid && h.toNat / 2 ^ 48 % 2 ^ 15 == 0 then some f else none

/-- A fence made (R409): its serial and the state; none while its entry holds one that has not ended. DESIGN CHOICE (log 12). -/
def State.newFence (s : State) (die asid launch : Nat) : Option (Nat × State) :=
  let d := s.die die
  let n := d.nextSerial.toNat
  if (SMap.get Fence.none d.fences (n % 4096)).state = 0 then none
  else some (n, s.setDie die { d with
    nextSerial := d.nextSerial + 1
    fences := SMap.set Fence.none d.fences (n % 4096) { serial := n, asid := asid, launch := launch, state := 0 } })

/-- A fence signals, or fails, once; a failure is one of the launch whose crew made the fence (R350, R409). DEDUCED (log 125). -/
def State.endFence (s : State) (die serial : Nat) (ok : Bool) : State :=
  let d := s.die die
  let f := SMap.get Fence.none d.fences (serial % 4096)
  if f.serial ≠ serial ∨ f.state ≠ 0 then s
  else
    let s1 := s.setDie die { d with fences := SMap.set Fence.none d.fences (serial % 4096) { f with state := if ok then 1 else 2 } }
    if ok then s1
    else { s1 with launches := s1.launches.map (fun l => if l.id = f.launch then { l with failed := true } else l) }

/-- TQPUT (R127, R406, R407, R409). -/
def execTqput (d a : GReg) (q : BitVec 4) (s : State) : Out :=
  scalarState s (.tqput d a q) [a] d (fun s =>
    let die := s.crew.place.die
    let asid := s.crew.bindRec.asid
    let tq := SMap.get TaskQueue.reset (s.die die).taskQueues q.toNat
    if !tq.open_ asid then .next (s.trapW .s 5 2 0)
    else if (tq.tail.toNat + 1) % tq.slots = tq.head.toNat ∨ !s.homesFree (tq.base.toNat + 16 * tq.tail.toNat) 16 then
      .next (s.blockS .s .other)
    else match s.newFence die asid s.crew.launch with
      | none => .next (s.blockS .s .other)
      | some (n, s1) =>
        let h := fenceHandle die n asid
        let slot := tq.base.toNat + 16 * tq.tail.toNat
        let x := s1.die die
        let s2 := s1.setDie die { x with
          taskQueues := SMap.set TaskQueue.reset x.taskQueues q.toNat
            { tq with tail := BitVec.ofNat 16 ((tq.tail.toNat + 1) % tq.slots) } }
        let s3 := s2.engineWrite slot (leBytes 8 (s.crew.rdG a).toNat ++ leBytes 8 h.toNat)
        .next { s3 with crew := (s3.crew.wrG d h).advance })

/-- TQWAIT (R128). -/
def execTqwait (a : GReg) (s : State) : Out :=
  scalarState s (.tqwait a) [a] 0 (fun s =>
    match s.fenceOf s.crew.bindRec.asid (s.crew.rdG a) with
    | none => .next (s.trapW .s 5 3 0)
    | some f =>
      match f.state with
      | 1 => .next { s with crew := s.crew.advance }
      | 2 => .next (s.trapW .s 5 4 0)
      | _ => .next (s.blockS .s .other))

/-- TQTEST (R128). -/
def execTqtest (d a : GReg) (s : State) : Out :=
  scalarState s (.tqtest d a) [a] d (fun s =>
    match s.fenceOf s.crew.bindRec.asid (s.crew.rdG a) with
    | none => .next (s.trapW .s 5 3 0)
    | some f => .next { s with crew := (s.crew.wrG d (if f.state = 1 ∨ f.state = 2 then 1 else 0)).advance })

end Sys2Proof.Machine
end

