-- ==== Sys2Proof/Machine/Image.lean ====
section
/-!
DEFINITION. Memory by virtual address as the front end, the firmware and their records reach it (R347, R433), and the context image
of a crew: its layout, its writing and its restoration (R249, R259-R261, R345).
-/

namespace Sys2Proof.Machine

/-! ## Accesses by virtual address -/

/-- A translation of an engine as an outcome; `kind` is 6 for a read, 7 for a write (R252). An access that a page has held is held until
the host's RESUME, even where an entry has become valid before it, and fails where the host declares the fault fatal (R237, R337, R347). -/
def State.vaPlace (s : State) (w : Asker) (a kind : Nat) : Fetch (Nat × Att) :=
  match s.doom w a kind, s.holdsOn w a kind with
  | some f, _ => .bad (causeCode 3 (8 * kind + fatalReason f.reason)) a
  | none, some f => .held a f.reason
  | none, none =>
    match s.engineTr w.die w.asid a kind with
    | .ok pa att => .ok (pa, att)
    | .denied r => .held a r
    | .miss => .held a 0
    | .now r => .bad (causeCode 3 (8 * kind + r)) a

/-- Bytes read by virtual address. -/
def State.vaFetch (s : State) (w : Asker) (a len : Nat) : Fetch (List Byte) :=
  (Fetch.all (fun (p : Nat × Nat) => (s.vaPlace w p.1 6).andThen (fun x =>
    if !inPod x.1 && s.snoops x.1 p.2 then .snoop x.1 p.2
    else match s.walkSnoop w.die w.asid p.1 with
      | some e => .snoop e 8
      | none =>
        match s.homeBytes w.die x.1 p.2 x.2 with
        | some b => .ok b
        | none => .bad (causeCode 3 54) p.1)) (pagePieces (len / 4096 + 2) a len)).andThen (fun l => .ok l.flatten)

/-- Bytes written by virtual address: every piece is translated before any is stored. -/
def State.vaStore (s : State) (w : Asker) (a : Nat) (bs : List Byte) : Fetch State :=
  (Fetch.all (fun (p : Nat × Nat) => (s.vaPlace w p.1 7).andThen (fun x => .ok (x.1, p)))
    (pagePieces (bs.length / 4096 + 2) a bs.length)).andThen (fun l =>
      if l.any (fun x => !inPod x.1 && !s.homesFree x.1 x.2.2) then .busy
      else .ok (l.foldl (fun s x => (s.engineWalked w.die w.asid x.2.1).engineStore w.die .phys x.1 ((bs.drop (x.2.1 - a)).take x.2.2)) s))

/-- The access kind a cause of class 3 carries (R252). -/
def causeKind (code : BitVec 9) : Nat := code.toNat % 64 / 8

/-- A recoverable fault of the front end, the firmware or a sequencer posted (R335). Its record names the asker's agent; where the spec
names none, a free value. DEDUCED (log 101). -/
def State.frontFault (s : State) (w : Asker) (va kind reason : Nat) : State :=
  if (s.faultOut w.die w.asid va kind).isSome then s.holdFront w va kind
  else
    let (pa, v) := s.lastEntry w.die w.asid va
    ((s.postFault w.die w.asid va kind reason false (w.agent.getD (Config.freeChoice s.free % 1024)) pa v).holdFront w va kind).useFree 1

/-- The access kind of a held access: 6 a read, 7 a write; 8 stands for work that reads each place before it writes it, so that only
a missing right to write tells a write. -/
def accessKind (kind reason : Nat) : Nat := if kind = 8 then (if reason = 2 then 7 else 6) else kind

/-- What an access ends an event with: a held one posts its fault and is tried again (R347); so is one whose home obtains a holder's data
(R433). DEDUCED (log 101). -/
def State.settleFetch {α : Type} (s : State) (w : Asker) (kind : Nat) (x : Fetch α) (bad : Nat → Out) (ok : α → Out) : Out :=
  match x with
  | .ok a => ok a
  | .held va r => .next (s.frontFault w va (accessKind kind r) r)
  | .bad _ va => spendIn w (fun f => f.asid == w.asid && f.page == va / 4096) (bad va)
  | .busy => .next s
  | .snoop pa len => .next (s.engineRead pa len)

/-! ## Records (R348) -/

/-- A completion record (R348). -/
def recordBytes (status reason asid crews cause q time a : Nat) : List Byte :=
  leBytes 1 status ++ leBytes 1 reason ++ leBytes 2 asid ++ leBytes 4 crews ++ leBytes 2 cause ++ leBytes 2 0 ++ leBytes 4 q ++
    leBytes 8 time ++ leBytes 8 a

/-- A completion record written; a fatal fault of the write posts a fault record, and the record is not written (R347). -/
def State.postRecord (s : State) (w : Asker) (crec : Nat) (bytes : List Byte) : Fetch State :=
  match s.vaStore w crec bytes with
  | .bad code va =>
    let (pa, v) := s.lastEntry w.die w.asid va
    .ok (((s.spendDoom w (fun f => f.asid == w.asid && f.page == va / 4096)).tell w.die 1 (faultBody w.asid 7 (code.toNat % 8) false (Config.freeChoice s.free % 1024) va pa v)).useFree 1)
  | x => x

/-! ## The context image (R261) -/

/-- The special registers of the image, in number order (R244). -/
def imageSrs : List Nat :=
  [0x000, 0x001, 0x002, 0x003, 0x004, 0x010, 0x011, 0x012, 0x013, 0x014, 0x015, 0x020, 0x021, 0x022, 0x023, 0x024, 0x025, 0x030,
   0x031, 0x032, 0x033, 0x034, 0x035, 0x036, 0x040, 0x041, 0x042]

/-- Where the record region of an image starts: 0x9_B000, and 0x1_B000 for a graphics crew. -/
def recordOffset (npu : Bool) : Nat := if npu then 0x9B000 else 0x1B000

/-- Is a word of the crew a pending completion: a path-0 result that has not landed (R259)? -/
def VWord.pendsAfterHalt (v : VWord) : Bool :=
  match v.kind with
  | .copy16 => false
  | .message _ => true
  | _ => v.elems.all (fun e => e.space == .phys)

/-- Scalar results held on an unmapped page go on after resumption; the others must land before the image is sealed.
DEDUCED (log 30). -/
def SRes.delays (r : SRes) : Bool :=
  match r.kind with
  | .load e _ _ _ => e.tr
  | .atomic e _ _ _ _ _ _ _ _ => e.tr
  | .value _ => true

/-- The pending completions of a halted crew; the load of an MPRO's first table is one (R184). DEDUCED (log 30). -/
def Crew.pendingCount (c : Crew) : Nat := c.vwords.length + (c.sres.filter SRes.delays).length + c.proLoads.length

/-- The carried jobs of a halted crew: those that run on to their completion point (R259). DEDUCED (log 50). -/
def Crew.carriedCount (c : Crew) : Nat := (c.jobs.filter Job.holdsBack).length

/-- The conditions a crew's streams keep behind their pending traps (R256). -/
def Crew.keptCount (c : Crew) : Nat := (([.s, .v, .m, .k] : List Strm).map (fun st => (c.strm st).kept.length)).sum

/-- May the image be sealed (R259)? -/
def Crew.sealable (c : Crew) : Bool := c.pendingCount == 0 && c.carriedCount == 0

/-- The bytes of one nest level (R345). -/
def NestLevel.bytes (l : NestLevel) : List Byte :=
  leBytes 2 l.count ++ leBytes 2 l.ar.toNat ++ leBytes 2 l.ac.toNat ++ leBytes 2 l.br.toNat ++ leBytes 2 l.bc.toNat ++
    leBytes 1 l.ts.toNat ++ leBytes 5 0

/-- Bytes of the image whose value the spec leaves open: free values, by the count of free values and the offset.
DESIGN CHOICE (log 48). -/
def openBytes (free off n : Nat) : List Byte := (List.range n).map (fun i => Config.freeByte (free + off + i))

/-- One stream of the image: state, pending trap, cause, PC. The PC of an idle-done stream is undefined until a fork names it (R22); so is
that of a stream no fork has named. DESIGN CHOICE (log 111). -/
def Stream.imageBytes (x : Stream) (free off : Nat) : List Byte :=
  let state := match x.status with
    | .idle => 0
    | .running => 1
    | .blocked => 2
  let (valid, code) := match x.pend with
    | some p => (1, p.code.toNat)
    | none => (0, 0)
  leBytes 1 state ++ leBytes 1 valid ++ leBytes 2 code ++ leBytes 4 0 ++
    (if x.status = .idle then openBytes free (off + 8) 8 else leBytes 8 x.pc.toNat)

/-- A number from bits. -/
def ofBits (n : Nat) (p : Nat → Bool) : Nat := (List.range n).foldl (fun x i => if p i then x + 2 ^ i else x) 0

/-- Lanes of a run of vector registers, little-endian; those of a register that is undefined at the halt (R89) are free values.
DESIGN CHOICE (log 128). -/
def Crew.blockBytes (c : Crew) (free first n : Nat) : List Byte :=
  (List.range (32 * n)).flatMap (fun i =>
    let k := 32 * first + i
    leBytes 4 (if c.spoilV.contains (k / 32) then Config.freeLane (free + 2 ^ 41 + k) else SMap.get 0 c.vreg k).toNat)

/-- The masks, little-endian; one that is undefined at the halt (R89) is a free value. DESIGN CHOICE (log 128). -/
def Crew.maskBytes (c : Crew) (free : Nat) : List Byte :=
  (List.range 16).flatMap (fun i => leBytes 4 (if c.spoilM.contains i then Config.freeLane (free + 2 ^ 42 + i) else c.maskOf i).toNat)

/-- Does the crew's slot own a lane slice (R271)? -/
def State.hasSlice (s : State) (p : Place) : Bool := decide (p.slot < (s.core p.agent).carve)

/-- The lane slices of a slot, lane by lane. -/
def State.sliceBytes (s : State) (p : Place) : List Byte :=
  (List.range (32 * 512)).flatMap (fun n => s.space (.spad p.agent) (sliceByte p.npu p.slot (n / 512) (n % 512)) 1)

/-- The header of an image. -/
def Crew.imageHeader (c : Crew) (sealed : Bool) : List Byte :=
  leBytes 4 0x3158435A ++ leBytes 2 c.bindRec.asid ++ leBytes 1 (if c.place.npu then 1 else 0) ++ leBytes 1 c.ext ++
    leBytes 8 c.kern.desc ++ leBytes 1 ((if sealed then 1 else 0) + (if c.nest.isSome then 2 else 0)) ++ leBytes 3 0 ++
    leBytes 4 (recordOffset c.place.npu) ++ leBytes 2 c.pendingCount ++ leBytes 2 c.carriedCount ++ leBytes 2 c.keptCount ++
    leBytes 34 0

/-- The nest tables, point, running bit and template (R345). -/
def Crew.imageNest (c : Crew) : List Byte :=
  let (pt, run, tmpl) := match c.nest with
    | some n => (n.pt, 1, encode (.mngo n.tmpl) % 2 ^ 184)
    | none => ([0, 0, 0, 0, 0, 0], 0, 0)
  c.shadow.flatMap NestLevel.bytes ++ c.active.flatMap NestLevel.bytes ++ pt.flatMap (fun n => leBytes 2 n) ++ leBytes 1 run ++
    leBytes 3 0 ++ leBytes 24 tmpl

/-- The reservations of the data queues and the tokens (R261): 24 bytes a queue, which hold its number of entries, a bit for each that has
arrived, and for each the number of its job's record, counted from 1; then `sr.tok`, then zeros. DESIGN CHOICE (log 48). -/
def Crew.imageReservations (c : Crew) : List Byte :=
  let entry := fun (l : List DqEntry) (i : Nat) =>
    match l[i]? with
    | some e => if c.jobs.any (fun j => j.id == e.job) then c.jobs.findIdx (fun j => j.id == e.job) + 1 else 0
    | none => 0
  (List.range 4).flatMap (fun q =>
    let l := c.dq.getD q []
    leBytes 2 l.length ++ leBytes 2 (ofBits 16 (fun i => (l[i]?).any (fun e => e.bytes.isSome))) ++
      (List.range 16).flatMap (fun i => leBytes 1 (entry l i)) ++ leBytes 4 0) ++
    leBytes 8 ((c.readSr 0x040).getD 0).toNat ++ leBytes 24 0

/-- An issued word kept by the image: whether there is one, four small values, its bits (R187). DESIGN CHOICE (log 48). -/
def imageWord (i : Option Instr) (a b c d : Nat) : List Byte :=
  match i with
  | some i => leBytes 1 1 ++ leBytes 1 a ++ leBytes 1 b ++ leBytes 1 c ++ leBytes 1 d ++ leBytes 3 0 ++ leBytes 24 (encode i % 2 ^ 192)
  | none => leBytes 32 0

/-- What R261 places behind the nest tables: the held step with its type codes, the four port entries with what they read at issue, and the
prologue's identity, table list entry and table to be loaded again. DESIGN CHOICE (log 48). -/
def Crew.imageMatrix (c : Crew) : List Byte :=
  (match c.array.map (fun a => a.kind) with
   | some (.step f fa fb _) => imageWord (some (.mstep f)) fa fb 0 0
   | _ => imageWord none 0 0 0 0) ++
  (List.range 4).flatMap (fun i =>
    match c.port[i]? with
    | some e => imageWord (some e.ins) e.rm.toNat e.b8d0.toNat e.b8d1.toNat 0
    | none => imageWord none 0 0 0 0) ++
  leBytes 1 c.pro ++ leBytes 1 (if c.proReload.isSome then 1 else 0) ++ leBytes 2 c.ptab ++ leBytes 4 (c.proReload.getD 0) ++ leBytes 8 0

/-- A record of the record region (R261): its kind, the token it has raised, its stream, the PC or the cause, the word's bits where the
word is kept, an address, and two counts of progress. DESIGN CHOICE (log 48). -/
def imageRecord (kind : Nat) (tok : Option Tok) (st pc : Nat) (i : Option Instr) (va reads wrote : Nat) : List Byte :=
  leBytes 1 kind ++ leBytes 1 ((tok.map (fun t => t.toNat)).getD 255) ++ leBytes 2 st ++ leBytes 4 pc ++
    leBytes 24 ((i.map encode).getD 0 % 2 ^ 192) ++ leBytes 8 va ++ leBytes 8 reads ++ leBytes 8 wrote ++ leBytes 8 0

/-- The record region: suspended jobs (kind 1) and carried ones (2) in the order of the crew's jobs, the pending completions of vector
words (3), of scalar results (4) and of prologue tables (5), kept conditions (6). DESIGN CHOICE (log 48). -/
def Crew.imageRecords (c : Crew) : List Byte :=
  let firstVa := fun (l : List Elem) => ((l.head?).map (fun e => e.va)).getD 0
  c.jobs.flatMap (fun j =>
    imageRecord (if j.holdsBack then 2 else 1) (some (jobTok j.ins)) 3 0 (some j.ins) ((j.held.map (fun h => h.1)).getD 0) j.reads.length j.wrote) ++
  c.vwords.flatMap (fun v =>
    let i := match v.kind with
      | .message i => some i
      | _ => none
    imageRecord 3 (some v.tok) 1 v.pc.toNat i (firstVa v.elems) 0 0) ++
  c.sres.flatMap (fun r =>
    let va := match r.kind with
      | .load e _ _ _ => e.va
      | .atomic e _ _ _ _ _ _ _ _ => e.va
      | .value _ => 0
    imageRecord 4 none 0 r.d.toNat none va 0 0) ++
  c.proLoads.flatMap (fun p => imageRecord 5 (some p.tok) 2 p.ptab none 0 0 0) ++
  ([Strm.s, .v, .m, .k].zipIdx).flatMap (fun x => (c.strm x.1).kept.flatMap (fun k =>
    imageRecord 6 k.2 x.2 k.1.code.toNat none k.1.tval.toNat 0 0))

/-- The queues' held entries, oldest first; the rest of each queue is open. DEDUCED (log 51). -/
def Crew.imageQueues (c : Crew) (free : Nat) : List Byte :=
  (List.range 4).flatMap (fun q => (List.range 16).flatMap (fun i =>
    match ((c.dq.getD q [])[i]?).bind (fun e => e.bytes) with
    | some b => b
    | none => openBytes free (0x1000 + 2048 * q + 128 * i) 128))

/-- The image of a crew as pieces: offset and bytes (R261); what R89 leaves undefined is free in it. DESIGN CHOICE (log 48).
DESIGN CHOICE (log 128). -/
def State.image (s : State) (c : Crew) (sealed : Bool) : List (Nat × List Byte) :=
  [(0x0, c.imageHeader sealed),
   (0x40, c.s.imageBytes s.free 0x40 ++ c.v.imageBytes s.free 0x50 ++ c.m.imageBytes s.free 0x60 ++ c.k.imageBytes s.free 0x70),
   (0x80, c.imageReservations),
   (0x100, (List.range 64).flatMap (fun i => leBytes 8 (c.rdG (BitVec.ofNat 6 i)).toNat)),
   (0x300, imageSrs.flatMap (fun n => leBytes 8 ((c.readSr n).getD 0).toNat) ++ leBytes 40 0),
   (0x400, c.maskBytes s.free),
   (0x480, leBytes 128 (ofBits 640 (fun r => SMap.get 0 c.poisonV r != 0) + 2 ^ 640 * ofBits 64 (fun r => SMap.get 0 c.poisonG r != 0))),
   (0x500, c.imageNest ++ c.imageMatrix ++ openBytes s.free 0x698 (2816 - 0x198))] ++
  (if c.place.npu then [(0x1000, c.imageQueues s.free)] else []) ++
  [(0x3000, if s.hasSlice c.place then s.sliceBytes c.place else openBytes s.free 0x3000 16384),
   (0x7000, c.blockBytes s.free 0 128),
   (0xB000, c.blockBytes s.free 128 (128 * c.ext))] ++
  (if c.place.npu then [(0x1B000, (List.range (8 * 16384)).flatMap (fun n => leBytes 4 (SMap.get 0 c.tile n).toNat))] else []) ++
  [(recordOffset c.place.npu, c.imageRecords)]

/-- The firmware as it reaches a crew's image. -/
def Crew.imageAsker (c : Crew) : Asker := Asker.image c.place.die c.uid c.bindRec.asid

/-- An image written to the crew's image address under its ASID, on behalf of the firmware. DESIGN CHOICE (log 32). -/
def State.writeImage (s : State) (c : Crew) (sealed : Bool) : Fetch State :=
  (s.image c sealed).foldl (fun (x : Fetch State) p =>
    x.andThen (fun t => t.vaStore c.imageAsker (c.bindRec.image + p.1) p.2)) (.ok s)

/-- The pieces of a changed image that differ from the ones written before. -/
def changedBytes (old new : List (Nat × List Byte)) : List (Nat × Byte) :=
  (old.zip new).flatMap (fun x =>
    if x.1 = x.2 then [] else ((x.1.2.zip x.2.2).mapIdx (fun i b => (x.2.1 + i, b))).filterMap (fun y =>
      if y.2.1 = y.2.2 then none else some (y.1, y.2.2)))

/-- What has changed in a crew with an image goes to the image: `s0` is the state before, in which its record stood otherwise (R259).
A byte whose page can no longer be written is not written: the spec names no outcome. DEDUCED (log 52). DESIGN CHOICE (log 32). -/
def State.syncImage (s0 s1 : State) (u : Nat) : State :=
  match s0.findCrew u, s1.findCrew u with
  | some c0, some c1 =>
    if c1.hasImage && (c1.life == .preempted || c1.life == .stopped) then
      let old := s0.image c0 c0.sealed
      let new := { s1 with free := s0.free }.image c1 c1.sealed
      (changedBytes old new).foldl (fun t x =>
        match t.vaStore c1.imageAsker (c1.bindRec.image + x.1) [x.2] with
        | .ok t1 => t1
        | _ => t) s1
    else s1
  | _, _ => s1

/-! ## Restoration (R249, R260) -/

/-- A sparse map from values. -/
def SMap.ofList {α : Type} [DecidableEq α] (d : α) (l : List (Nat × α)) : SMap α := l.foldl (fun m x => SMap.set d m x.1 x.2) []

/-- A bit of a number. -/
def bitOf (n i : Nat) : Bool := n / 2 ^ i % 2 == 1

/-- A stream restored: it issues from its saved PC. -/
def Stream.restore (x : Stream) (b : List Byte) : Stream :=
  let at_ := fun (i n : Nat) => leNat ((b.drop i).take n)
  let pc : Pc := BitVec.ofNat 18 (at_ 8 8)
  let code := BitVec.ofNat 9 (at_ 2 2)
  { x with
    status := if at_ 0 1 = 0 then .idle else .running
    pc := pc
    gap := 0
    boosted := false
    wait := .nothing
    mark := none
    pend := if at_ 1 1 % 2 = 0 then none
      else match x.pend with
        | some p => if p.code = code then some p else some ⟨code, 0⟩
        | none => some ⟨code, 0⟩ }

/-- A nest level restored (R345). -/
def NestLevel.ofBytes (b : List Byte) : NestLevel :=
  let at_ := fun (i : Nat) => leNat ((b.drop i).take 2)
  { count := at_ 0, ar := BitVec.ofNat 16 (at_ 2), ac := BitVec.ofNat 16 (at_ 4), br := BitVec.ofNat 16 (at_ 6),
    bc := BitVec.ofNat 16 (at_ 8), ts := BitVec.ofNat 3 (at_ 10) }

/-- The running nest restored: the template of the image (R345). -/
def Crew.restoreNest (c : Crew) (running : Bool) (pt : List Nat) (tmpl : Nat) : Option Nest :=
  if !running then none
  else
    let f := readMStep tmpl
    match c.nest with
    | some n => some { n with tmpl := f, pt := pt }
    | none => some { tmpl := f, pc := c.m.pc, pt := pt, fa := f.fmta.toNat, fb := f.fmtb.toNat }

/-- A word kept by the image, and its four small values. -/
def Crew.wordOf (c : Crew) (st : Strm) (b : List Byte) : Option (Instr × List Nat) :=
  if leNat (b.take 1) % 2 = 0 then none
  else (decode c.env st (leNat ((b.drop 8).take 24))).map (fun i => (i, (b.drop 1).take 4 |>.map (fun x => x.toNat)))

/-- The data queues restored: entries by the reservations at 0x80, their bytes from the queues' region (R197, R261). -/
def Crew.restoreQueues (c : Crew) (b : List Byte) : List (List DqEntry) :=
  (List.range 4).map (fun q =>
    let at_ := fun (off n : Nat) => leNat ((b.drop (0x80 + 24 * q + off)).take n)
    let old := c.dq.getD q []
    (List.range (min 16 (at_ 0 2))).map (fun i =>
      let job := match c.jobs[at_ (4 + i) 1 - 1]? with
        | some j => if at_ (4 + i) 1 = 0 then ((old[i]?).map (fun e => e.job)).getD 0 else j.id
        | none => ((old[i]?).map (fun e => e.job)).getD 0
      { bytes := if at_ 2 2 / 2 ^ i % 2 = 1 then some ((b.drop (0x1000 + 2048 * q + 128 * i)).take 128) else none, job := job }))

/-- The held step restored (R187); what the image gives no place stays. -/
def Crew.restoreArray (c : Crew) (b : List Byte) : Option ArrayOp :=
  match c.array, c.wordOf .m ((b.drop 0x5E8).take 32) with
  | some a, some (.mstep f, l) => some { a with kind := .step f (l.getD 0 0) (l.getD 1 0) false }
  | a, _ => a

/-- The port's entries restored, each read under the binary8 codes that it was issued with (R187). -/
def Crew.restorePort (c : Crew) (b : List Byte) : List PortEntry :=
  let under := fun (w : List Byte) =>
    let f := c.fcsr &&& ~~~(0x1F1F000000 : Word)
    { c with fcsr := f ||| BitVec.ofNat 64 (2 ^ 24 * (leNat ((w.drop 2).take 1) % 32) + 2 ^ 32 * (leNat ((w.drop 3).take 1) % 32)) }
  (List.range 4).filterMap (fun i =>
    let w := (b.drop (0x608 + 32 * i)).take 32
    ((under w).wordOf .m w).map (fun x =>
    { id := ((c.port[i]?).map (fun e => e.id)).getD 0, ins := x.1, rm := BitVec.ofNat 2 (x.2.getD 0 0),
      b8d0 := BitVec.ofNat 5 (x.2.getD 1 0), b8d1 := BitVec.ofNat 5 (x.2.getD 2 0) }))

/-- A crew restored from the bytes of its image (R249, R260): every register of the image takes the value that stands there, and none is
undefined; what the image gives no place is as the crew left it. How many extended blocks it holds is what the bind record says, whatever
the image's own count. DEDUCED (log 51). DESIGN CHOICE (log 128). -/
def Crew.restore (c : Crew) (b : List Byte) (ext : Nat) : Crew :=
  let at_ := fun (off n : Nat) => leNat ((b.drop off).take n)
  let word := fun (off : Nat) => BitVec.ofNat 64 (at_ off 8)
  let sr := fun (n : Nat) => word (0x300 + 8 * (imageSrs.idxOf n))
  let pt := (List.range 6).map (fun i => at_ (0x5C0 + 2 * i) 2)
  let levels := fun (off : Nat) => (List.range 6).map (fun i => NestLevel.ofBytes ((b.drop (off + 16 * i)).take 16))
  let fe := (sr 0x041).toNat
  let tok := (sr 0x040).toNat
  let tstat := (sr 0x036).toNat
  let poison := at_ 0x480 128
  let keep := fun (m : SMap Nat) (i : Nat) (bit : Bool) => if bit then (if SMap.get 0 m i = 0 then 1 else SMap.get 0 m i) else 0
  let npu := c.place.npu
  { c with
    s := c.s.restore ((b.drop 0x40).take 16)
    v := c.v.restore ((b.drop 0x50).take 16)
    m := c.m.restore ((b.drop 0x60).take 16)
    k := c.k.restore ((b.drop 0x70).take 16)
    g := SMap.ofList 0 ((List.range 63).map (fun i => (i + 1, word (0x100 + 8 * (i + 1)))))
    fcsr := sr 0x000 &&& fcsrMask
    ocdef := sr 0x001 &&& 0x7F
    ls := SMap.ofList 0 [(0, sr 0x010 &&& 0x3FFFF), (1, sr 0x013 &&& 0x3FFFF)]
    le := SMap.ofList 0 [(0, sr 0x011 &&& 0x3FFFF), (1, sr 0x014 &&& 0x3FFFF)]
    lc := SMap.ofList 0 [(0, sr 0x012 &&& 0xFFFFFFFF), (1, sr 0x015 &&& 0xFFFFFFFF)]
    ti := SMap.ofList 0 ((List.range 6).map (fun i => (i, sr (0x020 + i) &&& 0xFFFFFFFF)))
    epc := SMap.ofList 0 ((List.range 4).map (fun i => (i, sr (0x030 + i) &&& 0x3FFFF)))
    cause := sr 0x034 &&& 0x7FF
    tval := sr 0x035
    act := bitOf tstat 0
    held := BitVec.ofNat 4 (tstat / 2)
    tok := SMap.ofList 0 ((List.range 8).map (fun i => (i, tok / 2 ^ (6 * i) % 64)))
    tFull := SMap.ofList false ((List.range 8).map (fun i => (i, bitOf fe i)))
    cFull := SMap.ofList false ((List.range 8).map (fun i => (i, bitOf fe (8 + i))))
    cVal := SMap.ofList false ((List.range 8).map (fun i => (i, bitOf fe (16 + i))))
    gFull := SMap.ofList false ((List.range 16).map (fun i => (48 + i, bitOf fe (24 + i))))
    mask := SMap.ofList 0 ((List.range 15).map (fun i => (i + 1, BitVec.ofNat 32 (at_ (0x400 + 4 * (i + 1)) 4))))
    poisonV := SMap.ofList 0 ((List.range 640).map (fun r => (r, keep c.poisonV r (bitOf poison r))))
    poisonG := SMap.ofList 0 ((List.range 64).map (fun r => (r, keep c.poisonG r (bitOf poison (640 + r)))))
    shadow := if npu then levels 0x500 else c.shadow
    active := if npu then levels 0x560 else c.active
    nest := if npu then c.restoreNest (bitOf (at_ 0x5CC 1) 0) pt (at_ 0x5D0 24) else c.nest
    dq := if npu then c.restoreQueues b else c.dq
    array := if npu then c.restoreArray b else c.array
    port := if npu then c.restorePort b else c.port
    pro := if npu then at_ 0x688 1 else c.pro
    proReload := if npu ∧ at_ 0x689 1 % 2 = 1 then some (at_ 0x68C 4) else none
    ptab := if npu then at_ 0x68A 2 else c.ptab
    spoilV := []
    spoilM := []
    ext := ext
    vreg := SMap.ofList 0 ((List.range (4096 * (ext + 1))).map (fun n =>
      (n, BitVec.ofNat 32 (at_ ((if n < 4096 then 0x7000 else 0xB000 - 16384) + 4 * n) 4))))
    tile := if npu then SMap.ofList 0 ((List.range (8 * 16384)).map (fun n => (n, BitVec.ofNat 32 (at_ (0x1B000 + 4 * n) 4)))) else c.tile }

/-- The lane slices of an image put into the slot's (R261, R271). -/
def State.restoreSlices (s : State) (p : Place) (b : List Byte) : State :=
  if !s.hasSlice p then s
  else (List.range (32 * 512)).foldl (fun s n =>
    s.setSpace (.spad p.agent) (sliceByte p.npu p.slot (n / 512) (n % 512)) [b.getD (0x3000 + n) 0]) s

end Sys2Proof.Machine
end

