-- ==== Sys2Proof/Machine/Controller.lean ====
section
/-!
DEFINITION. Translation as it proceeds: walks, fault records, the side log, RESUME, and the controller's descriptors
(R333-R342), with the storage port's answer to a FILL (R338).
-/

namespace Sys2Proof.Machine

/-! ## Walks (R333-R335) -/

/-- A translation put into a core's TLB of 2,048 entries; which entry leaves is a free choice (R333). DESIGN CHOICE (log 13). -/
def State.fillTlb (s : State) (core : Nat) (e : TlbEntry) : State :=
  let c := s.core core
  let l := c.tlb.filter (fun x => !(x.va == e.va && x.size == e.size && x.asid == e.asid))
  if l.length < 2048 then s.setCore core { c with tlb := e :: l }
  else (s.setCore core { c with tlb := e :: l.eraseIdx (Config.freeChoice s.free % 2048) }).useFree 1

/-- Pointers put into a core's walk cache of 256 entries; which entry leaves is a free choice (R333). DESIGN CHOICE (log 13). -/
def State.fillWalks (s : State) (core : Nat) (l : List PtrEntry) : State :=
  l.foldl (fun s p =>
    let c := s.core core
    if c.walks.contains p then s
    else if c.walks.length < 256 then s.setCore core { c with walks := p :: c.walks }
    else (s.setCore core { c with walks := p :: c.walks.eraseIdx (Config.freeChoice s.free % 256) }).useFree 1) s

/-- The pointers among the entries that a core's walk of an address reads (R333). -/
def State.pointersOf (s : State) (core asid va : Nat) : List PtrEntry :=
  (s.corePath core asid va).filterMap (fun x =>
    let e := s.pte x.1
    if pteBit e 0 && !pteBad x.2 e && !pteLeaf e then
      some { asid := asid, level := x.2 - 1, va := va / leafSize x.2 * leafSize x.2, table := pteFrame e }
    else none)

/-- A walk of a core leaves its pointers cached, and an M holder of an entry it read passes to O (R333, R433). -/
def State.walked (s : State) (core asid va : Nat) : State :=
  (s.corePath core asid va).foldl (fun t x => t.engineRead x.1 8) (s.fillWalks core (s.pointersOf core asid va))

/-- The translation of an address that a step's fetch used, kept by its core (R333). -/
def State.keepTr (s : State) (core asid va : Nat) : State :=
  match (s.core core).tlbFind asid va, s.coreWalk core asid va with
  | none, .entry e => (s.walked core asid va).fillTlb core e
  | _, _ => s

/-- Is a stream stopped for the handler that runs (R254)? -/
def Crew.stopped (c : Crew) (st : Strm) : Bool := st != .s && c.act && c.held.getLsbD (strmNo st)

/-- A word that waits for a translation which fails for good traps at its PC, at once or before its stream goes on (R256, R260, R334,
R337); `hit` gives the reason by address and kind. -/
def Crew.failWord (hit : Nat → Nat → Option Nat) (c : Crew) (st : Strm) : Crew :=
  match (c.strm st).wait with
  | .translation va kind =>
    match hit va kind with
    | none => c
    | some reason =>
      let p : Pend := ⟨causeCode 3 (8 * kind + reason), BitVec.ofNat 64 va⟩
      let c1 := c.setStrm st { c.strm st with wait := .nothing }
      if !(c.life == .running || c.life == .halting) then c
      else if c.life == .halting || c.trap.isSome || c.stopped st then c1.putPend st p
      else c1.raise st p.code p.tval (c.strm st).pc
  | _ => c

/-- An issued load or atomic that waits for such a translation leaves a pending trap (R256, R337). -/
def Crew.failResults (hit : Nat → Nat → Option Nat) (c : Crew) : Crew :=
  c.sres.foldl (fun c r =>
    match r.kind with
    | .load e _ _ _ => if e.tr then c else (hit e.va 1).elim c (fun k => c.failG r 1 k e.va)
    | .atomic e _ _ _ _ _ _ _ none => if e.tr then c else (hit e.va 3).elim c (fun k => c.failG r 3 k e.va)
    | _ => c) c

/-- The accesses of a crew that wait for a translation fail, in the order s, v, m, k (R256). -/
def Crew.failAccess (c : Crew) (hit : Nat → Nat → Option Nat) : Crew :=
  ([.v, .m, .k] : List Strm).foldl (Crew.failWord hit) ((c.failWord hit .s).failResults hit)

/-- Every access of a core's crews under an ASID to an address fails. -/
def State.failHeld (s : State) (core asid va kind reason : Nat) : State :=
  s.mapCrews (fun c =>
    if (c.life == .running || c.life == .halting) && c.agent == core && c.bindRec.asid == asid then
      c.failAccess (fun v k => if v == va && k == kind then some reason else none)
    else c)

/-- TRANSLATION_WALK (R333): the TLB is filled, or a record is posted, or the access fails at once (R334, R335). -/
def execTranslationWalk (core asid va kind : Nat) (s : State) : Out :=
  let die := agentDie core
  match s.translate core asid va kind with
  | .ok _ _ => .next s
  | .now r => .next (s.failHeld core asid va kind r)
  | .denied r =>
    let (pa, v) := s.lastEntry die asid va
    .next (s.postFault die asid va kind r false core pa v)
  | .miss =>
    let s1 := s.walked core asid va
    match s.coreWalk core asid va with
    | .entry e => .next (s1.fillTlb core e)
    | .fail r true _ _ => .next (s1.failHeld core asid va kind r)
    | .fail r false pa v => .next (s1.postFault die asid va kind r false core pa v)

/-! ## The side log (R336) -/

/-- The access kind of a logged write (R252). -/
def Write.kind (w : Write) : Nat :=
  match w.op with
  | .atomic _ _ _ _ => 3
  | _ => if w.strm = .s then 2 else 5

/-- The log entries of a core without one write. -/
def State.unlog (s : State) (core id : Nat) : State :=
  let c := s.core core
  s.setCore core { c with log := c.log.filter (fun e => e.w.id != id) }

/-- SIDE_LOG_REPLAY (R336): a released entry that no earlier entry of its stream and class precedes takes its way home, over the fabric where
its page lies in another package (R411); one that faults again waits for its page once more. -/
def execSideLogReplay (core id : Nat) (s : State) : Out :=
  let c := s.core core
  match c.log.find? (fun e => e.w.id == id) with
  | none => .next s
  | some e =>
    let earlier := c.log.any (fun x => x.w.uid == e.w.uid && x.w.strm == e.w.strm && x.w.oc == e.w.oc && decide (x.w.id < id))
    if earlier || !e.released then .next s
    else match s.translate core e.w.asid e.w.va e.w.kind with
      | .ok pa att =>
        .next (((s.unlog core id).buffer { e.w with pa := pa, att := att }).sendOut (agentDie core) e.w.word e.w.uid e.w.asid pa e.w.va true)
      | .now r => .next (s.syncImage ((s.unlog core id).onCrewOf e.w.uid (fun c =>
          c.postPend e.w.strm ⟨causeCode 3 (8 * e.w.kind + r), BitVec.ofNat 64 e.w.va⟩ none)) e.w.uid)
      | _ =>
        if (s.faultOut (agentDie core) e.w.asid e.w.va e.w.kind).isSome then
          .next (s.setCore core { c with log := c.log.map (fun x => if x.w.id = id then { x with released := false } else x) })
        else .next s

/-! ## RESUME (R337) -/

/-- The crews' accesses held on a page released: jobs and steps go on (R337). A job that a halted crew's image carries goes on at its
resumption (R197, R259). DEDUCED (log 31). -/
def Crew.release (c : Crew) (page : Nat) : Crew :=
  let on := fun (h : Option (Nat × Nat)) =>
    match h with
    | some (va, _) => if va / 4096 = page then none else h
    | none => none
  { c with
    jobs := c.jobs.map (fun j => { j with held := on j.held })
    array := c.array.map (fun a => { a with held := on a.held }) }

/-- RESUME of one page on both dies (R337). -/
def State.resumePage (s : State) (asid page : Nat) : State :=
  let dieOne := fun (s : State) (d : Nat) =>
    let x := s.die d
    s.setDie d { x with faults := x.faults.filter (fun f => !(f.page == page && f.asid == asid)) }
  let coreOne := fun (s : State) (k : Nat) =>
    let c := s.core k
    s.setCore k { c with log := c.log.map (fun e =>
      if e.w.asid = asid ∧ e.page = page then { e with released := true } else e) }
  let s1 := (List.range 2).foldl dieOne s
  let s2 := (s1.cores.map (fun x => x.1)).foldl coreOne s1
  s2.mapCrews (fun c => if c.bindRec.asid = asid ∧ c.life ≠ .preempted ∧ c.life ≠ .stopped then c.release page else c)

/-- The reason outstanding for a page, ASID and kind: on the die of the access, else on the other. -/
def State.reasonOf (s : State) (die asid page kind : Nat) : Option Nat :=
  let on := fun (d : Nat) => (s.die d).faults.find? (fun f => f.page == page && f.asid == asid && f.kind == kind)
  match on die, on (1 - die) with
  | some f, _ => some (fatalReason f.reason)
  | none, some f => some (fatalReason f.reason)
  | none, none => none

/-- Bytes of one table (R355). -/
def PTab.tableBytes (p : PTab) : Nat := if p.kind = 1 then 4 else if p.kind = 2 then 16 else 32

/-- Does the first table of a prologue's entry stand on a page of global memory? -/
def Crew.tableOn (c : Crew) (ptab page : Nat) : Bool :=
  match c.kern.ptabs[ptab]? with
  | some p =>
    let a := p.tbase.toNat % 2 ^ 56
    p.tbase.toNat / 2 ^ 61 == 0 && decide (a / 4096 ≤ page) && decide (page ≤ (a + p.tableBytes - 1) / 4096)
  | none => false

/-- A copy job fails (R196): its token is lowered and its cause becomes the stream's pending trap, or waits behind it (R256). Data
queue entries it reserved become held, their bytes undefined (R209). -/
def Crew.failJob (c : Crew) (j : Job) (code : BitVec 9) (tval : Word) : Crew :=
  let lost : List Byte := (List.range 128).map (Config.lostByte j.id)
  let fill := fun (e : DqEntry) => if e.job = j.id ∧ e.bytes = none then { e with bytes := some lost } else e
  ({ c with jobs := c.jobs.filter (fun x => x.id != j.id), dq := c.dq.map (fun q => q.map fill) } : Crew).postPend .k ⟨code, tval⟩ (some (jobTok j.ins))

/-- The step in the array fails (R178, R337): it has written nothing; a nest keeps its point. While a handler runs, another
trap waits or the crew halts, the cause is kept for the stream's next word (R256). DEDUCED (log 85). -/
def Crew.failStep (c : Crew) (code : BitVec 9) (tval : Word) : Crew :=
  match c.array with
  | none => c
  | some a =>
    let c1 := { c with array := none }
    let epc := match a.kind with
      | .step _ _ _ true => c.m.pc
      | _ => a.pc
    if c.act || c.trap.isSome || c.life != .running then c1.postPend .m ⟨code, tval⟩ none else c1.raise .m code tval epc

/-- The step in the array fails, where it is held on a page (R337). -/
def Crew.fatalStep (c : Crew) (hit : Nat → Nat → Option Nat) : Crew :=
  match c.array.bind (fun a => a.held) with
  | some (va, k) => (hit va k).elim c (fun r => c.failStep (causeCode 3 (8 * k + r)) (BitVec.ofNat 64 va))
  | none => c

/-- The first tables of MPROs fail, where they stand on a page (R337). -/
def Crew.fatalTables (c : Crew) (page : Nat) (reason : Option Nat) : Crew :=
  match reason with
  | none => c
  | some r =>
    (c.proLoads.filter (fun p => c.tableOn p.ptab page)).foldl (fun c p =>
      ({ c with proLoads := c.proLoads.filter (fun x => x.id != p.id) } : Crew).postPend .m
        ⟨causeCode 3 (48 + r), ((c.kern.ptabs[p.ptab]?).elim 0 (fun t => t.tbase)) &&& 0xFFFFFFFFFFFFFF⟩ (some p.tok)) c

/-- The jobs held on a page fail (R337). -/
def Crew.fatalJobs (c : Crew) (hit : Nat → Nat → Option Nat) : Crew :=
  c.jobs.foldl (fun c j =>
    match j.held with
    | some (va, k) => (hit va k).elim c (fun r => c.failJob j (causeCode 3 (8 * k + r)) (BitVec.ofNat 64 va))
    | none => c) c

/-- Each held access of a crew to a page fails with the reason outstanding for its kind, in the order s, v, m, k (R256, R337). -/
def Crew.fatalPage (c : Crew) (page : Nat) (reason : Nat → Option Nat) : Crew :=
  let hit := fun (va k : Nat) => if va / 4096 = page then reason k else none
  let c1 := ([.v, .m] : List Strm).foldl (Crew.failWord hit) ((c.failWord hit .s).failResults hit)
  (((c1.fatalStep hit).fatalTables page (reason 6)).failWord hit .k).fatalJobs hit

/-- The first lane of each entry of the side log: one entry holds one block of one word (R336). -/
def logBlocks : List LogEntry → List LogEntry
  | [] => []
  | e :: es => e :: (logBlocks es).filter (fun x => x.w.word != e.w.word || x.w.va / 128 != e.w.va / 128)

/-- The log entries of a core's page under an ASID discarded; each leaves its cause with its stream (R337). -/
def State.discardLog (s : State) (asid page : Nat) (k : Nat) : State :=
  let c := s.core k
  let mine := fun (e : LogEntry) => e.w.asid == asid && e.page == page
  let s1 := s.setCore k { c with log := c.log.filter (fun e => !mine e) }
  (logBlocks (c.log.filter mine)).foldl (fun s1 e =>
    s1.syncImage (s1.onCrewOf e.w.uid (fun c =>
      c.postPend e.w.strm ⟨causeCode 3 (8 * e.w.kind + (s.reasonOf (agentDie k) asid page e.w.kind).getD 0), BitVec.ofNat 64 e.w.va⟩ none)) e.w.uid) s1

/-- A fabric error record handed over (R412). -/
def State.fabricError (s : State) (die asid kind port pkg addr : Nat) : State :=
  s.tell die 4 (leBytes 2 asid ++ leBytes 1 kind ++ leBytes 1 port ++ leBytes 2 pkg ++ leBytes 2 0 ++ leBytes 8 addr ++ leBytes 8 0 ++
    leBytes 8 0)

/-- An entry of the firmware's event log of a die. -/
def State.fwLog (s : State) (die : Nat) (x : LogRec) : State := s.setDie die { s.die die with log := (s.die die).log ++ [x] }

/-- The access kind of an inbound request (R252). -/
def FabReq.kind (r : FabReq) : Nat := if r.data.isSome || r.aop.isSome then 7 else 6

/-- A request gone from its port's queue. -/
def State.reqDone (s : State) (die id : Nat) : State :=
  let d := s.die die
  s.setDie die { d with fabIn := d.fabIn.filter (fun x => x.2.id != id) }

/-- An inbound request that fails is logged, reported, and answered with a poisoned completion (R264). -/
def State.inboundFails (s : State) (die port : Nat) (r : FabReq) : State :=
  ((s.reqDone die r.id).fabricError die r.asid 0 port r.pkg r.va).fwLog die (.inboundFault r.asid r.va false)

/-- The inbound requests of a die that are held on a fault of a page now declared fatal (R264, R337). -/
def State.inboundFatal (s : State) (die asid page : Nat) : State :=
  let held := fun (r : FabReq) => r.asid == asid && r.va / 4096 == page && (s.faultOut die asid r.va r.kind).isSome
  ((s.die die).fabIn.filter (fun x => held x.2)).foldl (fun t x => t.inboundFails die x.1 x.2) s

/-- A fatal RESUME of one page on both dies (R337): what is held fails, in a halted crew's image too. -/
def State.fatalPage (s : State) (asid page : Nat) : State :=
  let s1 := (s.cores.map (fun x => x.1)).foldl (fun t k => t.discardLog asid page k) s
  let hit := fun (c : Crew) => c.bindRec.asid == asid &&
    (c.life == .running || c.life == .halting || c.life == .preempted || c.life == .stopped)
  let s1a := s1.mapCrews (fun c => if hit c then c.fatalPage page (s.reasonOf c.place.die asid page) else c)
  let s2 := (s1.crews.filter hit).foldl (fun t c => s1.syncImage t c.uid) s1a
  (List.range 2).foldl (fun t d =>
    let t := t.inboundFatal d asid page
    let x := t.die d
    let on := fun (f : FaultOut) => f.page == page && f.asid == asid
    t.setDie d { x with faults := x.faults.filter (fun f => !on f), doomed := x.doomed ++ x.faults.filter (fun f => on f && !f.holders.isEmpty) }) s2

/-! ## Descriptors (R338) -/

/-- Slots of the command ring (R338). -/
def Die.ctlSlots (d : Die) : Nat := 2 ^ (min d.cqSize 12 + 4)

/-- The descriptor at an address: the command and whether it keeps the reserved values at zero. DEDUCED (log 71). -/
def State.ctlRead (s : State) (pa : Nat) : CtlCmd × Bool :=
  let b := s.phys pa 64
  let f := fun (i n : Nat) => leNat ((b.drop i).take n)
  let op := f 0 1
  let cmd : CtlCmd := { op := op, flags := f 1 1, asid := f 2 2, count := f 4 4, va := f 8 8, a := f 16 8, b := f 24 8, c := f 32 8,
                        d := f 40 8 }
  (cmd, decide (1 ≤ op) && decide (op ≤ 6) && decide (cmd.flags ≤ 1) && !((op == 4 || op == 5) && cmd.flags != 0) && f 48 16 == 0)

/-- The descriptor a die's controller takes next, if it may take one (R338, R410). -/
def State.ctlNext (s : State) (die : Nat) : Option (CtlCmd × Bool) :=
  let d := s.die die
  if d.tcRun.isSome || d.tcHead == d.tcTail || d.events.any (fun e => e.type == 2) then none
  else some (s.ctlRead (d.cqBase.toNat + 64 * (d.tcHead.toNat % d.ctlSlots)))

/-- A descriptor done: the head moves and the completion record is handed over (R338). -/
def State.ctlDone (s : State) (die : Nat) (c : CtlCmd) (status count : Nat) : State :=
  let d := s.die die
  let s1 := s.setDie die { d with tcRun := none, tcActed := false, tcDrop := [], tcMark := 0, tcHead := BitVec.ofNat 16 ((d.tcHead.toNat + 1) % d.ctlSlots) }
  s1.tell die 2 (leBytes 1 c.op ++ leBytes 1 status ++ leBytes 2 c.asid ++ leBytes 4 count ++ leBytes 8 c.va ++ leBytes 8 0 ++
    leBytes 8 0)

/-- A descriptor of an op taken by the controller: refused where a value is reserved (R338). DEDUCED (log 71). -/
def State.ctl (s : State) (die : Nat) (mine : CtlCmd → Bool) (go : CtlCmd → Out) : Out :=
  match s.ctlNext die with
  | none => .next s
  | some (c, good) => if !mine c then .next s else if !good then .next (s.ctlDone die c 1 0) else go c

/-- TLB and walk-cache entries dropped in every core (R338). -/
def State.dropTlb (s : State) (p : TlbEntry → Bool) (q : PtrEntry → Bool) : State :=
  (s.cores.map (fun x => x.1)).foldl (fun s k =>
    let c := s.core k
    s.setCore k { c with tlb := c.tlb.filter (fun e => !p e), walks := c.walks.filter (fun e => !q e) }) s

/-- Does a pointer of a walk cache serve addresses of a range (R338)? -/
def PtrEntry.meets (e : PtrEntry) (va len : Nat) : Bool :=
  decide (e.va < va + len) && decide (va < e.va + leafSize (e.level + 1))

/-- Does a TLB entry meet an INVAL (R338)? -/
def invalHits (c : CtlCmd) (e : TlbEntry) : Bool :=
  (if e.global then c.flags % 2 == 1 else e.asid == c.asid) &&
    (c.count == 0 || (decide (e.va < c.va + c.count * 4096) && decide (c.va < e.va + e.size)))

/-- Does a pointer meet an INVAL (R338)? -/
def ptrHits (c : CtlCmd) (e : PtrEntry) : Bool := e.asid == c.asid && (c.count == 0 || e.meets c.va (c.count * 4096))

/-- Is an access under way that began before a mark and that a range of an ASID, or one of some dropped entries, may have translated
(R338)? DEDUCED (log 69). -/
def State.underWay (s : State) (asid va len : Nat) (drop : List TlbEntry) (mark : Nat) : Bool :=
  let meets := fun (id a v : Nat) => decide (id < mark) &&
    ((a == asid && (len == 0 || (decide (va ≤ v) && decide (v < va + len)))) ||
      drop.any (fun e => (e.global || e.asid == a) && decide (e.va ≤ v) && decide (v < e.va + e.size)))
  s.writes.any (fun w => meets w.id w.asid w.va) ||
    s.crews.any (fun c =>
      c.sres.any (fun r =>
          match r.kind with
          | .load e _ _ _ => e.tr && meets r.id c.bindRec.asid e.va
          | .atomic e _ _ _ _ _ _ _ _ => e.tr && meets r.id c.bindRec.asid e.va
          | .value _ => false) ||
        c.vwords.any (fun v => v.elems.any (fun e => e.space == .phys && e.tr && meets v.id c.bindRec.asid e.va)))

/-- The entries of the cores' TLBs. -/
def State.allTlb (s : State) : List TlbEntry := s.cores.flatMap (fun x => x.2.tlb)

/-- A descriptor acts and waits for its end (R338). -/
def State.ctlActs (s : State) (die : Nat) (c : CtlCmd) (drop : List TlbEntry) : State :=
  s.setDie die { s.die die with tcRun := some c, tcActed := true, tcDrop := drop, tcMark := s.nextId }

/-- A descriptor that has acted and waits, of some op. -/
def State.ctlWaits (s : State) (die op : Nat) : Option CtlCmd :=
  if (s.die die).tcActed then (s.die die).tcRun.filter (fun c => c.op == op) else none

/-- An INVAL that has dropped its entries ends once the accesses that they translated have been performed (R338). -/
def State.invalEnds (s : State) (die : Nat) (c : CtlCmd) : Out :=
  let d := s.die die
  if s.underWay c.asid c.va (c.count * 4096) d.tcDrop d.tcMark then .next s else .next (s.ctlDone die c 0 0)

/-- INVAL (R338): its entries are dropped; it completes once the accesses translated by them have been performed. A descriptor with no
op of R338 is refused here. DEDUCED (log 69). -/
def execInval (die : Nat) (s : State) : Out :=
  match s.ctlWaits die 1 with
  | some c => s.invalEnds die c
  | none =>
    s.ctl die (fun c => c.op == 1 || c.op == 0 || decide (6 < c.op)) (fun c =>
      ((s.dropTlb (invalHits c) (ptrHits c)).ctlActs die c (s.allTlb.filter (invalHits c))).invalEnds die c)

/-- Is an entry of the log that RESUME released, in pages of a range, still to replay? One that stands behind an entry not released waits
for another RESUME (R336, R338). DEDUCED (log 69). -/
def State.replaying (s : State) (asid va len : Nat) : Bool :=
  s.cores.any (fun x => x.2.log.any (fun e => e.w.asid == asid && e.released && decide (va / 4096 ≤ e.page) &&
    decide (e.page < (va + len + 4095) / 4096) &&
    !x.2.log.any (fun y => y.w.uid == e.w.uid && y.w.strm == e.w.strm && y.w.oc == e.w.oc && decide (y.w.id < e.w.id) && !y.released)))

/-- A RESUME or a FILL that has acted ends once what it released has replayed (R338). -/
def State.resumeEnds (s : State) (die : Nat) (c : CtlCmd) (va len : Nat) : Out :=
  if s.replaying c.asid va len then .next s else .next (s.ctlDone die c 0 0)

/-- The page of a RESUME. -/
def CtlCmd.onePage (c : CtlCmd) : Nat := c.va / 4096 * 4096

/-- RESUME (R337, R338). -/
def execResume (die : Nat) (s : State) : Out :=
  match (s.ctlWaits die 2).filter (fun c => c.flags % 2 == 0) with
  | some c => s.resumeEnds die c c.onePage 4096
  | none =>
    s.ctl die (fun c => c.op == 2 && c.flags % 2 == 0) (fun c =>
      ((s.resumePage c.asid (c.va / 4096)).ctlActs die c []).resumeEnds die c c.onePage 4096)

/-- A fatal RESUME (R337, R338). -/
def execResumeFatal (die : Nat) (s : State) : Out :=
  s.ctl die (fun c => c.op == 2 && c.flags % 2 == 1) (fun c => .next ((s.fatalPage c.asid (c.va / 4096)).ctlDone die c 0 0))

/-- Does an entry address hold a valid leaf of a level for an address (R339)? -/
def State.holdsLeaf (s : State) (die : Nat) (c : CtlCmd) : Bool :=
  match s.leafOf die c.asid c.va with
  | some (at_, level, _) => at_ == c.a && level == c.flags % 2
  | none => false

/-- A page named by a descriptor of level 0 or 1: start and bytes. -/
def CtlCmd.page (c : CtlCmd) : Nat × Nat := (c.va / leafSize (c.flags % 2) * leafSize (c.flags % 2), leafSize (c.flags % 2))

/-- FILL (R338, R339): the storage port's read starts; one whose leaf is stored ends once what it released has replayed.
DEDUCED (log 70). -/
def execFill (die : Nat) (s : State) : Out :=
  match s.ctlWaits die 3 with
  | some c => s.resumeEnds die c c.page.1 c.page.2
  | none =>
    s.ctl die (fun c => c.op == 3) (fun c =>
      if !s.holdsLeaf die c then .next (s.ctlDone die c 5 0)
      else .next (s.setDie die { s.die die with tcRun := some c }))

/-- RESUME of every page of a range. -/
def State.resumeAll (s : State) (asid va len : Nat) : State :=
  (List.range (len / 4096)).foldl (fun s i => s.resumePage asid (va / 4096 + i)) s

/-- NVME_READ_COMPLETE (R338): the frame is written, the leaf stored, RESUME acts; a failed read ends the FILL with status 4. -/
def execNvmeReadComplete (die : Nat) (ok : Bool) (bytes : List Byte) (s : State) : Out :=
  match (s.die die).tcRun with
  | some c =>
    if c.op != 3 || (s.die die).tcActed then .next s
    else if !ok || bytes.length != c.page.2 then .next (s.ctlDone die c 4 0)
    else if !s.homesFree (pteFrame c.b) c.page.2 || !s.homesFree c.a 8 then .next s
    else
      let s1 := (s.engineWrite (pteFrame c.b) bytes).engineWrite c.a (leBytes 8 c.b)
      ((s1.resumeAll c.asid c.page.1 c.page.2).ctlActs die c []).resumeEnds die c c.page.1 c.page.2
  | none => .next s

/-- Is any crew, image, job or log entry of an ASID left, or a kill of it in progress (R340)? -/
def State.asidInUse (s : State) (asid : Nat) : Bool :=
  s.crews.any (fun c => c.bindRec.asid == asid &&
      (c.life == .waiting || c.life == .running || c.life == .halting || c.life == .preempted || c.life == .stopped)) ||
    s.cores.any (fun x => x.2.log.any (fun e => e.w.asid == asid)) ||
    s.dies.any (fun x => x.2.cards.any (fun k => k.asid == asid)) ||
    s.solvers.any (fun x => x.2.queue.any (fun j => j.asid == asid) ||
      (match x.2.run with
       | some r => r.job.asid == asid
       | none => false)) ||
    s.kills.any (fun k => k.asid == asid) || s.dies.any (fun x => x.2.events.any (fun e => e.type == 3 && leNat (e.body.take 2) == asid))

/-- RETIRE (R340): refused while the ASID is in use; else the ASID is retiring on both dies, and on the next turn, every TLB
having let go, its table entry is cleared. -/
def execRetire (die : Nat) (s : State) : Out :=
  let mark := fun (s : State) (d : Nat) (l : List Nat) => s.setDie d { s.die d with retiring := l }
  match (s.die die).tcRun with
  | some c =>
    if c.op != 4 then .next s
    else
      let at_ := (s.die die).atab.toNat + 8 * c.asid
      if !s.homesFree at_ 8 then .next s
      else
        let e := s.pte at_
        let s1 := s.engineWrite at_ (leBytes 8 (e / 2 * 2))
        let s2 := (List.range 2).foldl (fun s d => mark s d ((s.die d).retiring.filter (· != c.asid))) s1
        .next (s2.ctlDone die c 0 0)
  | none =>
    s.ctl die (fun c => c.op == 4) (fun c =>
      if s.asidInUse c.asid then .next (s.ctlDone die c 2 0)
      else
        let s1 := (List.range 2).foldl (fun s d => mark s d ((s.die d).retiring ++ [c.asid])) s
        let s2 := s1.dropTlb (fun e => !e.global && e.asid == c.asid) (fun e => e.asid == c.asid)
        .next (s2.setDie die { s2.die die with tcRun := some c }))

/-! ## HARVEST (R341) -/

/-- The place of a frame's bit in the write-record bitmap of its home: byte address and bit (R341). -/
def State.recordPlace (s : State) (pa : Nat) : Nat × Nat :=
  let f := if isHbm pa then pa / 2 ^ 12 else 2 ^ 27 + (pa - 2 ^ 40) / 2 ^ 12
  ((s.die (homeDie pa)).wrec.toNat + f / 8, f % 8)

/-- Write ownership of every grain of a range recalled: an owner keeps a shared copy (R341). -/
def State.recall (s : State) (pa len : Nat) : State :=
  (s.dirIn pa len).foldl (fun s x =>
    match x.2.owner with
    | some a =>
      let s1 := s.mapLine a x.1 (fun l => { l with state := .shrd })
      let e : DirEntry := { x.2 with owner := none }
      if x.2.slots.any (fun y => y.agent == a) then s1.setDir x.1 e else s1.hold x.1 e a 0
    | none => s) s

/-- One leaf harvested: whether a bit of its frames was set, and the state with the bits cleared. -/
def State.harvestLeaf (s : State) (pa len : Nat) : Bool × State :=
  (framesOf pa len).foldl (fun (x : Bool × State) f =>
    let (at_, b) := x.2.recordPlace f
    let old := x.2.mem.byte at_
    if old.getLsbD b then (true, { x.2 with mem := x.2.mem.write at_ [old &&& ~~~(BitVec.ofNat 8 (2 ^ b))] }) else x)
    (false, s.recall pa len)

/-- The leaves of a range harvested from an address on; `fuel` counts its 4 KiB pages. -/
def State.harvestFrom (s : State) (die asid stop : Nat) : Nat → Nat → Nat → Nat × State
  | 0, _, n => (n, s)
  | fuel + 1, va, n =>
    if stop ≤ va then (n, s)
    else match s.leafOf die asid va with
      | none => s.harvestFrom die asid stop fuel ((va / 4096 + 1) * 4096) n
      | some (at_, level, e) =>
        let next := (va / leafSize level + 1) * leafSize level
        if pteBit e 2 then
          let (hit, s1) := s.harvestLeaf (pteFrame e) (leafSize level)
          let s2 := if hit then s1.engineWrite at_ (leBytes 8 (e ||| 2 ^ 16)) else s1
          s2.harvestFrom die asid stop fuel next (if hit then n + 1 else n)
        else s.harvestFrom die asid stop fuel next n

/-- Has no grain of the leaves of a range, or of their entries, a write outstanding (R292, R341)? -/
def State.harvestFree (s : State) (die asid stop : Nat) : Nat → Nat → Bool
  | 0, _ => true
  | fuel + 1, va =>
    if stop ≤ va then true
    else match s.leafOf die asid va with
      | none => s.harvestFree die asid stop fuel ((va / 4096 + 1) * 4096)
      | some (at_, level, e) =>
        s.homesFree at_ 8 && s.homesFree (pteFrame e) (leafSize level) &&
          s.harvestFree die asid stop fuel ((va / leafSize level + 1) * leafSize level)

/-- HARVEST (R341). -/
def execHarvest (die : Nat) (s : State) : Out :=
  s.ctl die (fun c => c.op == 5) (fun c =>
    if !s.harvestFree die c.asid (c.va + c.count * 4096) c.count c.va then .next s
    else
    let (n, s1) := s.harvestFrom die c.asid (c.va + c.count * 4096) c.count c.va 0
    .next (s1.ctlDone die c 0 n))

/-! ## MIGRATE (R342) -/

/-- The sharer packages of the regions of a range (R295). -/
def State.sharersIn (s : State) (pa len : Nat) : List Sharer :=
  (List.range 2).flatMap (fun d => (s.die d).regions.filter (fun x => decide (x.region * 2048 < pa + len) && decide (pa < (x.region + 1) * 2048)))

/-- The package slots of a range's regions sent their invalidations, each counted once (R298, R299). -/
def State.recallSharers (s : State) (pa len : Nat) : State :=
  (s.sharersIn pa len).foldl (fun s x =>
    let base := x.region * 2048
    let agent := proxyAgent base x.pkg
    if s.msgs.any (fun m => m.agent == agent && m.pa / 2048 == x.region) then s
    else ({ s with msgs := s.msgs ++ [{ mkMsg agent base 0 false 0 [] with len := 2048, sent := s.now }] } : State).tally base 1 0 0 0) s

/-- Every holder of a range's grains invalidated at the freeze, each message counted (R298, R299). -/
def State.evict (s : State) (pa len : Nat) : State :=
  (s.dirIn pa len).foldl (fun s x =>
    let holders := match x.2.coarse with
      | some gs => gs.flatMap (fun g => ((List.range 8).map (fun i => 8 * g + i)).filter agentExists)
      | none => (x.2.slots.map DirSlot.agent ++ x.2.owner.toList).dedup
    let s1 := (s.setDir x.1 (DirEntry.vacant x.2.len)).tally x.1 holders.length 0 0 0
    holders.foldl (fun s a => s.dropLine a x.1) s1) s

/-- A write or read that was answered "moved" translates again; a write that another mapping still sends to the old frame posts a recoverable
fault with reason 0, one that its new leaf denies the fault of that (R342). DEDUCED (log 70). -/
def State.moved (s : State) (die old len : Nat) : State :=
  let gone := fun (w : Write) => !w.sent && decide (old ≤ w.pa) && decide (w.pa < old + len)
  let again := fun (w : Write) =>
    match s.engineTr die w.asid w.va w.kind with
    | .ok pa att => if old ≤ pa ∧ pa < old + len then none else some { w with pa := pa, att := att }
    | _ => none
  let redo := fun (w : Write) => if gone w then again w else some w
  let lost := s.writes.filter (fun w => gone w && (again w).isNone)
  let s1 := { s with writes := s.writes.filterMap redo }
  let out := fun (s : State) (w : Write) =>
    let (pa, v) := s.lastEntry die w.asid w.va
    let post := fun (k : Nat) => (s.logWrite w false).postFault (agentDie w.core) w.asid w.va w.kind k false w.core pa v
    match s.engineTr die w.asid w.va w.kind with
    | .now _ => s.logWrite w true
    | .denied k => post k
    | _ => post 0
  let s2 := lost.foldl out s1
  let el := fun (e : Elem) => if e.space == .phys && decide (old ≤ e.addr) && decide (e.addr < old + len) then { e with tr := false } else e
  s2.mapCrews (fun c => { c with
    sres := c.sres.map (fun r =>
      match r.kind with
      | .load e sx oc sc => { r with kind := .load (el e) sx oc sc }
      | _ => r)
    vwords := c.vwords.map (fun v =>
      match v.kind with
      | .load | .subscribe | .copy16 => { v with elems := v.elems.map el }
      | _ => v) })

/-- A MIGRATE begins: its old frames are marked (R342). -/
def State.migrateBegins (s : State) (die : Nat) (c : CtlCmd) : State :=
  s.setDie die { s.die die with tcRun := some c, tcActed := true, tcMark := pteFrame (s.pte c.a) }

/-- Do the frames from `old` or `new` meet those of a migration in progress of another die (R339)? DEDUCED (log 70). -/
def State.migrating (s : State) (die old new len : Nat) : Bool :=
  ((List.range 2).filter (· != die)).any (fun d =>
    match s.ctlWaits d 6 with
    | some c => [(s.die d).tcMark, pteFrame c.b].any (fun x =>
        [old, new].any (fun y => decide (x < y + len) && decide (y < x + c.page.2)))
    | none => false)

/-- A MIGRATE in progress ends, once the homes of its frames are free and the packages that share the page have let go (R298, R342):
freeze and eviction, the copy, the new leaf, the INVAL, and what was answered "moved" reissued. -/
def State.migrateEnds (s : State) (die : Nat) (c : CtlCmd) : Out :=
  let old := (s.die die).tcMark
  let new := pteFrame c.b
  let (va, len) := c.page
  if !s.homesFree old len || !s.homesFree new len || !s.homesFree c.a 8 then .next s
  else if !(s.sharersIn old len).isEmpty then .next (s.recallSharers old len)
  else
    let s1 := s.evict old len
    let s2 := (s1.engineWrite new (s1.mem.read old len)).engineWrite c.a (leBytes 8 c.b)
    let s3 := s2.dropTlb (fun e => decide (e.va < va + len) && decide (va < e.va + e.size) && (e.global || e.asid == c.asid))
      (fun e => e.asid == c.asid && e.meets va len)
    .next ((s3.moved die old len).ctlDone die c 0 0)

/-- MIGRATE (R339, R342): refused where its leaf does not stand, or where its frames meet a migration in progress; else it begins, and it
ends in this step or in a later one. DEDUCED (log 70). -/
def execMigrate (die : Nat) (s : State) : Out :=
  match s.ctlWaits die 6 with
  | some c => s.migrateEnds die c
  | none =>
    s.ctl die (fun c => c.op == 6) (fun c =>
      if !s.holdsLeaf die c then .next (s.ctlDone die c 5 0)
      else if s.migrating die (pteFrame (s.pte c.a)) (pteFrame c.b) c.page.2 then .next (s.ctlDone die c 3 0)
      else (s.migrateBegins die c).migrateEnds die c)

end Sys2Proof.Machine
end

