-- ==== Sys2Proof/Machine/Coherence.lean ====
section
/-!
DEFINITION. The coherence events: fills, upgrades, releases, writes at home and their acknowledgements (R284-R294, R307, R418),
the fabric (R295-R297, R264, R411, R412), and the requests of display and PCIe (R283, R300, R432).
-/

namespace Sys2Proof.Machine

/-! ## Writes (R290-R292) -/

/-- HOME_WRITE (R291): a buffered write that nothing holds back reaches its home slice. -/
def execHomeWrite (core id : Nat) (s : State) : Out :=
  match s.writes.find? (fun w => w.id == id && w.core == core) with
  | some w => if w.sent || s.heldBack w then .next s else .next (s.arrive w)
  | none => .next s

/-- WRITE_PERFORMED (R292): every message of the write has been acknowledged. -/
def execWritePerformed (id : Nat) (s : State) : Out :=
  match s.writes.find? (fun w => w.id == id) with
  | some w => if w.sent && !s.msgs.any (fun m => m.write == id) then .next (s.perform w) else .next s
  | none => .next s

/-- An agent takes its first message, if it is of the kind (R292). A package's invalidation ends its share of the region (R296). -/
def State.takeFor (s : State) (agent : Nat) (update : Bool) : State :=
  match takeMsg agent update s.msgs with
  | none => s
  | some (m, rest) =>
    let s1 := { s with msgs := rest }
    if !isProxy agent then s1.receive m
    else if update then s1.freeHomes
    else
      let d := homeDie m.pa
      let x := s1.die d
      (s1.setDie d { x with regions := x.regions.filter (fun r => !(proxyAgent m.pa r.pkg == agent && r.region == m.pa / 2048)) }).freeHomes

/-- INVALIDATION_RECEIVE (R292). DEDUCED (log 74). -/
def execInvalidationReceive (agent : Nat) (s : State) : Out := .next (s.takeFor agent false)

/-- UPDATE_RECEIVE (R292, R294). -/
def execUpdateReceive (agent : Nat) (s : State) : Out := .next (s.takeFor agent true)

/-! ## Reads (R288, R289, R433) -/

/-- HOME_ENGINE_READ (R433): the read takes no slot; a holder in M passes to O. -/
def execHomeEngineRead (pa : Nat) (s : State) : Out :=
  if localReach s.reduced pa == .memory then .next (s.engineRead pa 1) else .next s

/-- The attributes of the page through which an agent reaches an address: those of an access that waits for it, else of a
translation its TLB holds. -/
def State.pageOf (s : State) (agent pa : Nat) : Att :=
  let hit := fun (e : Elem) => e.space == .phys && e.tr && e.addr / 4096 == pa / 4096
  let elems := s.crews.flatMap (fun c =>
    if c.agent = agent then
      c.sres.filterMap (fun r =>
        match r.kind with
        | .load e _ _ _ => some e
        | _ => none) ++ c.vwords.flatMap (fun v => v.elems)
    else [])
  match elems.find? hit with
  | some e => e.att
  | none =>
    match (s.core agent).tlb.find? (fun e => decide (e.pa ≤ pa) && decide (pa < e.pa + e.size)) with
    | some e => e.att
    | none => Att.plain

/-- Does an address reach memory that a cache may hold: this package's, or another's (R275, R295)? -/
def isCached (pa : Nat) : Bool := isHbm pa || isLpddr pa || inPod pa

/-- EXACT_FILL (R288): a plain read that misses. A lease page's line has no directory entry; its read waits for a write under way as any
does (R292, R307). -/
def execExactFill (agent pa : Nat) (s : State) : Out :=
  let att := s.pageOf agent pa
  let die := agentDie agent
  let have_ := match s.line agent pa with
    | some l => !s.leaseOver l
    | none => false
  if have_ || !isCached pa || !isCache agent || att.bdb || att.mtype == 2 then .next s
  else if att.mtype == 1 then
    let s1 := s.proxyFill die pa
    let base := grainKey die pa / att.grain * att.grain
    if !s.homesFree base att.grain then .next s
    else
      .next ((s1.putLine { agent := agent, pa := base, len := att.grain, etype := 0, state := .lease s.now,
                           bytes := s1.keyBytes base att.grain, pats := [], news := [] }).heat base att.grain)
  else .next (s.fillExact agent pa att)

/-- SUBSCRIBE_FILL (R287, R289, R434): a compute L1 takes a subscribed slot, or an exact one where the entry's record differs from the
page. The record stands until the entry is empty. A lease page's lines have no slot (R307). -/
def execSubscribeFill (core pa fmt : Nat) (s : State) : Out :=
  let att := s.pageOf core pa
  let die := agentDie core
  let (base, e) := s.dirFind (grainKey die pa) att.grain
  if (s.line core pa).isSome || e.busy.isSome || fmt == 0 || decide (7 < fmt) || (srcType att.etype).isNone || att.bdb ||
      att.mtype != 0 || !isCached pa || !isCache core || (l1Size core).isNone then .next s
  else if (e.etype != 0 && e.etype != att.etype) || (e.len != att.grain && !e.isEmpty) then .next (s.fillExact core pa att)
  else
    let (s1, e1) := (s.proxyFill die pa).share base e
    let s2 := (s1.hold base { e1 with etype := att.etype } core fmt).proxySync die pa
    .next (((s2.putLine { agent := core, pa := base, len := e.len, etype := att.etype, state := .sub fmt, bytes := [],
                          pats := patternsOf att.etype fmt (s2.keyBytes base e.len), news := [] }).endGrant core base).heat base e.len)

/-- UPGRADE (R288, R294): the subscribed slot becomes an exact one and the grain is filled again. -/
def execUpgrade (core pa : Nat) (s : State) : Out :=
  match s.line core pa with
  | some l =>
    match l.state with
    | .sub _ =>
      let (base, e) := s.dirFind l.pa l.len
      if e.busy.isSome then .next s
      else
        let s1 := (s.hold base e core 0).proxySync (keyDie l.pa) (l.pa % 2 ^ 52)
        .next ((s1.mapLine core pa (fun x => { x with state := .shrd, bytes := s1.keyBytes base e.len, pats := [], news := [] })).endGrant core base
          |>.heat base e.len)
    | _ => .next s
  | none => .next s

/-- SUBSCRIPTION_RELEASE (R288): the L1 lets a grain go and its slot is freed. -/
def execSubscriptionRelease (core pa : Nat) (s : State) : Out :=
  match s.line core pa with
  | some l => .next (s.release l)
  | none => .next s

/-- WRITE_OWNERSHIP_REQUEST (R290): answered like a write that brings no data; a watched grain gives a home-write grant. -/
def execWriteOwnershipRequest (agent pa : Nat) (s : State) : Out :=
  let att := s.pageOf agent pa
  let writable := match s.line agent pa with
    | some l => l.writable
    | none => false
  if writable || !(isHbm pa || isLpddr pa) || !isCache agent || att.bdb || att.mtype != 0 then .next s
  else
    let (_, e) := s.dirFind pa att.grain
    if e.busy.isSome then .next s
    else
      let (id, s1) := s.fresh
      let w : Write :=
        { id := id, core := agent, uid := 0, strm := .s, word := id, key := 0, asid := 0, oc := 0, sc := 5, va := 0, pa := pa,
          bytes := [], nib := none, op := .own, att := att, sent := false, takes := false }
      .next ((s1.buffer w).arrive w)

/-- LEASE_EXPIRE (R418). -/
def execLeaseExpire (core pa : Nat) (s : State) : Out :=
  match s.line core pa with
  | some l => if s.leaseOver l then .next (s.dropLine core pa) else .next s
  | none => .next s

/-! ## The fabric (R264, R295-R297, R411, R412) -/

/-- A region named by package and number: package * 2^33 + number. -/
def isRegion (region : Nat) (r : Region) : Bool := r.pkg == region / 2 ^ 33 && r.region == region % 2 ^ 33

/-- The pod-window address of an offset in a named region (R424). -/
def regionAddr (region off : Nat) : Nat := 2 ^ 47 + region / 2 ^ 33 * 2 ^ 44 + region % 2 ^ 33 * 2048 + off

/-- Every local holder of the grains of a named range gone, with its entry (R296, R297). -/
def State.dropNamed (s : State) (hit : Nat → Nat → Bool) : State :=
  { s with
    lines := s.lines.filter (fun l => !hit l.pa l.len)
    dir := (s.dir.filter (fun x => hit x.1 x.2.len)).foldl (fun d x => SMap.set noEntry d x.1 noEntry) s.dir }

/-- FABRIC_INVALIDATE (R296): every local copy of the named bytes' grains goes; what their home holds now is fetched again, a free value.
DESIGN CHOICE (log 67). -/
def execFabricInvalidate (die region off len : Nat) (s : State) : Out :=
  if 2048 < off + len then .next s
  else
    let key := grainKey die (regionAddr region off)
    let s1 := s.dropNamed (fun a n => decide (a < key + len) && decide (key < a + n))
    let d := s1.die die
    let new := (List.range len).map (fun i => Config.remoteByte s.free (regionAddr region off + i))
    .next (((s1.setDie die { d with
      proxies := d.proxies.map (fun r => if isRegion region r then { r with bytes := patch r.bytes off new } else r) }).useFree 1).proxySync die
        (regionAddr region off))

/-- FABRIC_UPDATE (R296): the proxy takes the new bytes and processes its local slots. -/
def execFabricUpdate (die region off : Nat) (bytes : List Byte) (s : State) : Out :=
  if 2048 < off + bytes.length then .next s else .next ((s.proxyApply die (regionAddr region off) bytes).proxySync die (regionAddr region off))

/-- SHARER_ACK_TIMEOUT (R297): a package that has not acknowledged within the fabric bound of R411 is dropped from the region; its
outstanding messages count as acknowledged. -/
def execSharerAckTimeout (die pkg region : Nat) (s : State) : Out :=
  let d := s.die die
  let mine := fun (m : Msg) => m.agent == 512 * die + 384 + pkg % 128 && m.pa / 2048 == region
  if d.regions.any (fun r => r.pkg == pkg && r.region == region) &&
      s.msgs.any (fun m => mine m && decide (m.sent + cyclesOf d.fxItmo.toNat ≤ s.now)) then
    let waits := s.writes.find? (fun w => s.msgs.any (fun m => mine m && m.write == w.id))
    let asid := (waits.map (fun w => w.asid)).getD 0
    let s1 := s.setDie die { d with regions := d.regions.filter (fun r => !(r.pkg == pkg && r.region == region)) }
    let s2 := ({ s1 with msgs := s1.msgs.filter (fun m => !mine m) } : State).freeHomes
    .next ((s2.fabricError die asid 3 (Config.fabricPort pkg).toNat pkg 0).fwLog die (.sharerDropped pkg region))
  else .next s

/-- LINK_LOSS (R297): the package has lost its link to a home package: every proxy entry for that home is invalidated on both dies. -/
def execLinkLoss (die pkg : Nat) (s : State) : Out :=
  let one := fun (s : State) (die : Nat) =>
    let d := s.die die
    s.setDie die { d with proxies := d.proxies.filter (fun r => r.pkg != pkg) }
  .next (one (one (s.dropNamed (fun a _ => decide (2 ^ 52 ≤ a) && podPkg (a % 2 ^ 52) == pkg)) die) (1 - die))

/-- The first request of a port's queue that no earlier one of its stream and class precedes and `ok` accepts (R411). -/
def pickReq (ok : FabReq → Bool) : List FabReq → List FabReq → Option FabReq
  | _, [] => none
  | before, r :: rs =>
    if !before.any (fun x => x.stream == r.stream && x.oc == r.oc) && ok r then some r else pickReq ok (before ++ [r]) rs

/-- A package noted as a sharer of a region it has read, or its slot replaced: the first eight have a slot, the others count as exact. Like
any new holder it leaves no line in M or E (R284, R295). -/
def State.noteSharer (s : State) (pa : Nat) (r : FabReq) : State :=
  let region := pa / 2048
  let s1 := (s.dirIn (region * 2048) 2048).foldl (fun s x =>
    let (s1, e) := s.share x.1 x.2
    s1.setDir x.1 e) s
  let d := s1.die (homeDie pa)
  let mine := fun (x : Sharer) => x.region == region && x.pkg == r.pkg
  let free := decide ((d.regions.filter (fun x => x.region == region && x.slot && !mine x)).length < 8)
  s1.setDie (homeDie pa) { d with
    regions := d.regions.filter (fun x => !mine x) ++ [{ region := region, pkg := r.pkg, slot := free, fmt := r.fmt, upd := r.upd, etype := r.etype }] }

/-- INBOUND_FABRIC_REQUEST (R411): a request arrives at a port with room; or the first that may be performed is: a write at its
home, an atomic there (R433), a read whose package becomes a sharer; one that faults is held, or answered with a poisoned completion (R264, R334). -/
def execInboundFabricRequest (die port : Nat) (arrival : Option FabArrival) (s : State) : Out :=
  let d := s.die die
  if 7 < port || d.fenced.contains (3, port) then .next s else
  let queue := (d.fabIn.filter (fun x => x.1 == port)).map (fun x => x.2)
  match arrival with
  | some a =>
    if queue.length < 512 then
      let (id, s1) := s.fresh
      .next (s1.setDie die { d with fabIn := d.fabIn ++ [(port,
        { id := id, stream := a.stream, oc := a.oc, asid := a.asid, pkg := a.pkg, va := a.va, len := a.len, data := a.data,
          aop := a.aop, fmt := a.fmt, upd := a.upd, etype := a.etype, arrived := s.now })] })
    else .next s
  | none =>
    let ready := fun (r : FabReq) => (s.faultOut die r.asid r.va r.kind).isNone
    match pickReq ready [] queue with
    | none => .next s
    | some r =>
      match s.engineTr die r.asid r.va r.kind with
      | .ok pa _ =>
        if !s.homesFree pa r.len then .next s
        else match r.data, r.aop with
          | some bs, _ => .next ((s.reqDone die r.id).engineWrite pa bs)
          | none, some a => .next ((s.reqDone die r.id).engineAtomic pa r.len a)
          | none, none =>
            let s1 := (s.reqDone die r.id).engineRead pa r.len
            .next (if isPcie pa then s1 else s1.noteSharer pa r)
      | .now _ => .next (s.inboundFails die port r)
      | .denied k =>
        let (pa, v) := s.lastEntry die r.asid r.va
        .next (s.postFault die r.asid r.va r.kind k true (512 * die + 384 + r.pkg % 128) pa v)
      | .miss => .next s

/-- TARGET_TIMEOUT (R411). -/
def execTargetTimeout (die port : Nat) (s : State) : Out :=
  let d := s.die die
  let late := fun (r : FabReq) => decide (r.arrived + cyclesOf (max d.fxTmo.toNat 10) ≤ s.now)
  match (d.fabIn.filter (fun x => x.1 == port)).find? (fun x => late x.2) with
  | some (_, r) => .next (((s.reqDone die r.id).fabricError die r.asid 1 port r.pkg r.va).fwLog die (.inboundFault r.asid r.va true))
  | none => .next s

/-- A crew's word receives a poisoned completion: destinations are poisoned, with free values, and the token is lowered (R264). -/
def Crew.poison (c : Crew) (x : FabOut) (detail free : Nat) : Crew :=
  match c.sres.find? (fun r => r.id == x.word) with
  | some r =>
    let c1 := c.landG r (Config.freeWord free)
    if r.d = 0 then c1
    else { c1 with
      poisonG := SMap.set 0 c1.poisonG r.d.toNat detail
      poisonAddr := SMap.set 0 c1.poisonAddr (1000 + r.d.toNat) x.addr }
  | none =>
    match c.vwords.find? (fun v => v.id == x.word) with
    | some v =>
      let c1 := ({ c with vwords := c.vwords.filter (fun y => y.id != v.id) } : Crew).lowerTok v.tok
      let c2 := c1.setLanes (v.regs.flatMap (fun r => (List.range 32).map (fun j => (32 * r + j, Config.freeLane (free + 32 * r + j)))))
      { c2 with
        poisonV := v.regs.foldl (fun m r => SMap.set 0 m r detail) c2.poisonV
        poisonAddr := v.regs.foldl (fun m r => SMap.set 0 m r x.addr) c2.poisonAddr }
    | none => c

/-- An outbound request ends in a poisoned completion; in the image of a crew that has halted too, which the last of its pending completions
seals (R259, R264, R412). -/
def State.poisonOut (s : State) (die : Nat) (x : FabOut) (detail : Nat) : State :=
  let sealing := fun (c : Crew) => if c.hasImage then { c with sealed := c.sealed || c.sealable } else c
  let s0 := (s.outDone die x.id).onCrewOf x.uid (fun c => if x.store then c else sealing (c.poison x detail s.free))
  let s1 := s.syncImage s0 x.uid
  let s2 := { (s1.useFree 20480) with writes := s1.writes.filter (fun w => w.word != x.word) }
  if x.store then
    (s2.setDie die { s2.die die with fxPst := true }).fabricError die x.asid 2 (Config.fabricPort x.pkg).toNat x.pkg x.addr
  else s2

/-- INITIATOR_TIMEOUT (R411): detail 2 of class 6. -/
def execInitiatorTimeout (die id : Nat) (s : State) : Out :=
  match (s.die die).fabOut.find? (fun x => x.id == id) with
  | some x => if x.left + cyclesOf (s.die die).fxItmo.toNat ≤ s.now then .next (s.poisonOut die x 2) else .next s
  | none => .next s

/-- POISONED_COMPLETION (R264): detail 1 of class 6. -/
def execPoisonedCompletion (die id : Nat) (s : State) : Out :=
  match (s.die die).fabOut.find? (fun x => x.id == id) with
  | some x => .next (s.poisonOut die x 1)
  | none => .next s

/-! ## Display and PCIe (R283, R300, R432) -/

/-- SCANOUT_READ (R283): the display engine reads at home and shows the bytes on a head. -/
def execScanoutRead (head addr len : Nat) (s : State) : Out :=
  if head < 4 && localReach s.reduced addr == .memory then
    .next { (s.engineRead addr len) with
      scanout := s.scanout.filter (fun x => x.1 != head) ++ [(head, s.mem.read addr len)] }
  else .next s

/-- PCIE_INBOUND_REQUEST (R300): a device reads at home, or writes there as an engine does (R433). DEDUCED (log 8). -/
def execPcieInboundRequest (port addr len : Nat) (wr : Option (List Byte)) (s : State) : Out :=
  if port < 2 && localReach s.reduced addr == .memory then
    match wr with
    | none => .next (s.engineRead addr len)
    | some bs => if s.homesFree addr bs.length then .next (s.engineWrite addr bs) else .next s
  else .next s

end Sys2Proof.Machine
end

