-- ==== Sys2Proof/Machine/Operands.lean ====
section
/-!
DEFINITION. The operands of the vector stream and its windows: registers and masks with their undefined values (R88-R90), broadcast
sources (R134), the class-1 checks (R75, R76, R137, R239), active lanes (R133), and how a word with a latency bound issues and
lands (R86-R89, R136).
-/

namespace Sys2Proof.Machine

/-! ## What is undefined (R88-R90) -/

/-- The vector registers a parked tile read will write (R182): a row takes four registers. -/
def PortEntry.regs (e : PortEntry) : List Nat :=
  match e.ins with
  | .mread f => (List.range (4 * (f.mx.toNat + 1))).map (fun n => f.vx.toNat + n)
  | .mcvt f => (List.range (4 * (f.mx.toNat + 1))).map (fun n => f.vx.toNat + n)
  | _ => []

/-- Is a write to a vector register in flight (R88, R90)? -/
def Crew.vBusy (c : Crew) (r : Nat) : Bool :=
  c.vwin.any (fun w => w.regs.contains r) || c.vwords.any (fun w => w.regs.contains r) || c.port.any (fun e => e.regs.contains r)

/-- Is the value of a vector register undefined (R88-R90)? -/
def Crew.vUndef (c : Crew) (r : Nat) : Bool := c.spoilV.contains r || c.vBusy r

/-- Is a write to a mask in flight? -/
def Crew.mBusy (c : Crew) (m : Nat) : Bool := c.vwin.any (fun w => w.dmasks.contains m)

/-- A lane as a reader finds it; `n` numbers the free value. -/
def Crew.readLane (c : Crew) (n r j : Nat) : Lane := if c.vUndef r then Config.freeLane n else c.lane r j

/-- A mask as a reader finds it; `n` numbers the free value. -/
def Crew.readMask (c : Crew) (n m : Nat) : Lane :=
  if m ≠ 0 ∧ (c.spoilM.contains m || c.mBusy m) then Config.freeLane n else c.maskOf m

/-- A word that writes registers issues: a register whose window is open is spoilt; one that was spoilt, and has no window open, is
defined again but for lanes the word does not write (R89). -/
def Crew.claimV (c : Crew) (free : Nat) (rs : List Nat) : Crew :=
  rs.foldl (fun c r =>
    if c.vBusy r then { c with spoilV := if c.spoilV.contains r then c.spoilV else c.spoilV ++ [r] }
    else if c.spoilV.contains r then
      ({ c with spoilV := c.spoilV.filter (· != r) } : Crew).setLanes
        ((List.range 32).map (fun j => (32 * r + j, Config.freeLane (free + 32 * r + j))))
    else c) c

/-- The same for masks. -/
def Crew.claimM (c : Crew) (free : Nat) (ms : List Nat) : Crew :=
  ms.foldl (fun c m =>
    if c.mBusy m then { c with spoilM := if c.spoilM.contains m then c.spoilM else c.spoilM ++ [m] }
    else if c.spoilM.contains m then ({ c with spoilM := c.spoilM.filter (· != m) } : Crew).setMask m (Config.freeLane (free + m))
    else c) c

/-- How far a vector word moves the count of free values. -/
def freeStep : Nat := 65536

/-! ## Operand fields (R75, R76, R134) -/

/-- The register an operand names for register `i` of the group (R75). -/
def opReg (o : VOpd) (i : Nat) : Nat := o.idx.toNat + i * o.str.toNat

/-- Is an operand a vector register? -/
def isVReg (o : VOpd) : Bool := decide (o.idx.toNat < 640)

/-- The registers an operand names (R75). -/
def opRegs (o : VOpd) (grp : Nat) : List Nat := if isVReg o then (List.range (grp + 1)).map (opReg o) else []

/-- The shared scalar an operand broadcasts (R76). -/
def opShared (o : VOpd) : Option GReg :=
  if 688 ≤ o.idx.toNat ∧ o.idx.toNat < 704 then some (BitVec.ofNat 6 (o.idx.toNat - 640)) else none

/-- The class-1 detail of a register list: 7 for one that passes v639, then 1 for a register not held (R137, R180, R239).
DEDUCED (log 35). -/
def Crew.regsFault (c : Crew) (rs : List Nat) : Option Nat :=
  if rs.any (fun r => decide (639 < r)) then some 7
  else if rs.any (fun r => decide (c.vHeld ≤ r)) then some 1
  else none

/-- The class-1 detail of an operand: g0-g47 is 3 (R76, R166). DEDUCED (log 92). -/
def Crew.opFault (c : Crew) (grp : Nat) (o : VOpd) : Option Nat :=
  if 640 ≤ o.idx.toNat ∧ o.idx.toNat < 688 then some 3 else c.regsFault (opRegs o grp)

/-- The value of a source operand in lane `j` of register `i` (R134); `n` numbers the free value of an undefined lane. -/
def Crew.src (c : Crew) (n : Nat) (o : VOpd) (i j : Nat) : Lane :=
  let k := o.idx.toNat
  if k < 640 then c.readLane n (opReg o i) j
  else if k < 704 then (c.rdG (BitVec.ofNat 6 (k - 640))).truncate 32
  else if k = 704 then BitVec.ofNat 32 j
  else if k = 705 then BitVec.ofNat 32 c.bindRec.lanebase
  else SMap.get 0 c.kern.pool (k - 768)

/-- An operand as an address base (R134). -/
def Crew.base (c : Crew) (o : VOpd) : Word :=
  let k := o.idx.toNat
  if k < 704 then c.rdG (BitVec.ofNat 6 (k - 640)) else (SMap.get 0 c.kern.pool (k - 768)).zeroExtend 64

/-- An operand as a stride: a signed 64-bit value, or a constant sign-extended (R152). -/
def Crew.stride (c : Crew) (o : VOpd) : Int :=
  let k := o.idx.toNat
  if k < 704 then (c.rdG (BitVec.ofNat 6 (k - 640))).toInt else (SMap.get 0 c.kern.pool (k - 768)).toInt

/-- The active lanes of a word (R77, R133); `n` numbers the free value of an undefined mask. -/
def Crew.activeLanes (c : Crew) (n : Nat) (h : VHdr) : Lane := if h.mmode = 0 then BitVec.allOnes 32 else c.readMask n h.msk.toNat

/-- The lanes of a mask, in increasing order. -/
def lanesOf (m : Lane) : List Nat := (List.range 32).filter (fun j => m.getLsbD j)

/-! ## Landing (R88, R136) -/

/-- A flag trap of a word that has completed (R51, R136): its cause waits for the stream's next word. `en` is sr.fcsr.en when the
word issued (R48). -/
def Crew.flagTrap (c : Crew) (st : Strm) (en f : Flags) (pc : Pc) (t : Option Tok) : Crew :=
  match enabledDetail en f with
  | some d => c.postPend st ⟨causeCode 2 d, pc.zeroExtend 64⟩ t
  | none => c.lowerTok? t

/-- Can a vector word raise a flag (R136)? Floating-point words, conversions, and loads that read s4. -/
def raisesFlags (i : Instr) : Bool :=
  match i with
  | .vadd f | .vsub f | .vmul f | .vfma f | .vmin f | .vmax f | .vabs f | .vneg f => isFpTy f.ty
  | .vrcp _ | .vrsqrt _ | .vsqrt _ | .vexp2 _ | .vlog2 _ | .vsinpi _ | .vcospi _ | .vcvt _ => true
  | .vcmp f => isFpTy f.ty
  | .vredAdd f | .vredMin f | .vredMax f => f.ty == 9
  | .vld f | .vldx f | .vgath f => f.ty == 0
  | .vatomAdd f | .vatomMinS f | .vatomMaxS f => f.ty == 9
  | _ => false

/-- The poison of the registers that some lanes cover wholly is cleared (R264). -/
def Crew.unpoison (c : Crew) (rs : List Nat) (lanes : List (Nat × Lane)) : Crew :=
  { c with poisonV := rs.foldl (fun m r =>
      if SMap.get 0 m r != 0 && (List.range 32).all (fun j => lanes.any (fun x => x.1 == 32 * r + j)) then SMap.set 0 m r 0 else m) c.poisonV }

/-- A vector result lands. -/
def Crew.landWin (c : Crew) (w : VWin) : Crew :=
  let c1 := (({ c with vwin := c.vwin.filter (fun x => x.id != w.id) } : Crew).unpoison w.regs w.lanes).setLanes w.lanes
  let c2 := w.masks.foldl (fun c x => c.setMask x.1 x.2) c1
  let c3 := match w.shared with
    | some (r, v) => c2.wrG r v
    | none => c2
  let c4 := match w.flag with
    | some (f, b) => c3.setFlag f b
    | none => c3
  (c4.orFlags w.flags).flagTrap .v w.en w.flags w.pc w.tok

/-- A pattern as the lane that holds it: signed types sign-extended (R132). -/
def laneOf (ty p : Nat) : Lane :=
  match ty with
  | 0 => BitVec.ofInt 32 (sVal 4 p)
  | 1 => BitVec.ofInt 32 (sVal 8 p)
  | 2 => BitVec.ofInt 32 (sVal 16 p)
  | _ => BitVec.ofNat 32 p

/-- The lane that an element's bytes give (R132, R155): the reserved s4 code reads as 0 and sets rc (R42). -/
def loadLane (ty : Nat) (nib : Option Bool) (bs : List Byte) : Lane × Flags :=
  let p := leNat bs
  match nib with
  | some h =>
    let x := if h then p / 16 else p % 16
    if x = 8 then (0, rc) else (laneOf 0 x, 0)
  | none => (laneOf ty p, 0)

/-- A load's lanes and flags, from the bytes of each element, its inactive lanes under mmode zero among them (R133, R155). -/
def loadLanes (v : VWord) (bytes : List (List Byte)) : List (Nat × Lane) × Flags :=
  (v.elems.zip bytes).foldl (fun x eb =>
    let (l, f) := loadLane v.ty eb.1.nib eb.2
    (x.1 ++ [(eb.1.key, l)], x.2 ||| f)) (v.zeros.map (fun k => (k, 0)), 0)

/-- A token word that has written its lanes: gone, its flags ORed in; its token still stands (R136, R155). -/
def Crew.landData (c : Crew) (v : VWord) (lanes : List (Nat × Lane)) (f : Flags) : Crew :=
  ((({ c with vwords := c.vwords.filter (fun x => x.id != v.id) } : Crew).unpoison v.regs lanes).setLanes lanes).orFlags f

/-- A token word that has completed: its token is lowered, or its flag trap is pending (R136, R155). -/
def Crew.landWord (c : Crew) (v : VWord) (lanes : List (Nat × Lane)) (f : Flags) (traps : Bool) : Crew :=
  let c1 := c.landData v lanes f
  if traps then c1.flagTrap .v v.en f v.pc (some v.tok) else c1.lowerTok v.tok

/-- Does a scratchpad hold another ASID's data by now? A word of this one that was to reach it comes too late (R270). -/
def State.lost (s : State) (asid : Nat) (sp : Space) : Bool :=
  match sp with
  | .spad core =>
    (match (s.core core).spadAsid with
     | some a => a != asid
     | none => false)
  | _ => false

/-- The bytes that a word of the focused crew finds in a local memory: free values where the scratchpad is another ASID's by now, since no
crew reads what another ASID's has written (R270). DEDUCED (log 127). -/
def State.localBytes (s : State) (sp : Space) (a n : Nat) : List Byte :=
  if s.lost s.crew.bindRec.asid sp then (List.range n).map (fun i => Config.freeByte (2 ^ 100 + s.now * 2 ^ 30 + a + i)) else s.space sp a n

/-- Bytes that a word of the focused crew writes to a local memory; a scratchpad that is another ASID's by now does not take them (R270).
DEDUCED (log 127). -/
def State.setLocal (s : State) (sp : Space) (a : Nat) (bs : List Byte) : State :=
  if s.lost s.crew.bindRec.asid sp then s else s.setSpace sp a bs

/-- A load of a local memory performs at its banks (R155). -/
def State.landLocal (s : State) (v : VWord) : State :=
  let (l, f) := loadLanes v (v.elems.map (fun e => s.localBytes e.space e.addr e.len))
  { s with crew := s.crew.landWord v l f true }

/-- Every local load whose window has closed lands (R80, R155). DEDUCED (log 75). -/
def State.settleLoads (s : State) : State :=
  (s.crew.vwords.filter (fun v =>
    match v.closes with
    | some t => decide (t ≤ s.crew.vclock)
    | none => false)).foldl (fun s v => s.landLocal v) s

/-- Is a vector register locked by a tile's write (R243)? -/
def Crew.vLocked (c : Crew) (r : Nat) : Bool :=
  match c.array with
  | some a => a.locks.contains r
  | none => false

/-- Does a data-queue load wait for the release of a register it targets (R243)? -/
def Crew.dqWaits (c : Crew) (w : VWin) : Bool := w.tok.isSome && w.regs.any c.vLocked

/-- Every window that has closed lands, in issue order (R88). -/
def Crew.settleV (c : Crew) : Crew :=
  (c.vwin.filter (fun w => decide (w.closes ≤ c.vclock) && !c.dqWaits w)).foldl (fun c w => c.landWin w) c

/-- The state that a word of the vector stream issues in: every window that has closed by then has landed (R87, R88). -/
def State.settled (s : State) : State := ({ s with crew := s.crew.settleV } : State).settleLoads

/-- A word of the vector stream that may issue does so in the settled state. -/
def State.settledV (s : State) : State := if s.crew.canIssue .v then s.settled else s

/-- VECTOR_RESULT_LAND (R88): writes to one shared scalar or flag land in issue order (R145). -/
def execVectorResultLand (u id : Nat) (s : State) : Out :=
  onUid s u (fun s =>
    onCrew s (fun c =>
      match c.vwin.find? (fun w => w.id == id) with
      | none => c
      | some w =>
        let before := c.vwin.takeWhile (fun x => x.id != id)
        if c.dqWaits w then c
        else if (w.shared.isSome || w.flag.isSome) && before.any (fun x => x.shared.isSome || x.flag.isSome) then c
        else c.landWin w))

/-! ## Issuing (R86, R136, R181) -/

/-- A word of v, m or k: guarded, then its wait tokens (R86), for a meaning that moves more than the crew. -/
def waitedState (s : State) (st : Strm) (i : Instr) (wait : BitVec 8) (go : State → Out) : Out :=
  guardedState s st i (fun s =>
    if s.crew.tokensAtMost wait 0 then go s else .next (s.blockS st (.token wait 0)))

/-- The poison of the first poisoned register or shared scalar among a word's sources (R253, R264). -/
def Crew.vPoison (c : Crew) (rs : List Nat) (gs : List GReg) : Option (Nat × Nat) :=
  match rs.find? (fun r => SMap.get 0 c.poisonV r != 0) with
  | some r => some (SMap.get 0 c.poisonV r, SMap.get 0 c.poisonAddr r)
  | none => c.gPoison gs

/-- What a vector word names: sources and destinations. -/
structure VUse where
  /-- operands read as lanes or bases -/
  srcs : List VOpd
  /-- registers written -/
  dregs : List Nat
  /-- registers read besides -/
  sregs : List Nat
  /-- masks written -/
  dmasks : List Nat
  /-- the destination operand, for its class-1 checks -/
  dst : Option VOpd

/-- A vector word: guard, wait tokens, class-1 checks, poison, empty scalars, locks; then `go`. sr.tval is 0 for a class-1 cause.
DESIGN CHOICE (log 43). -/
def vectorWord (i : Instr) (h : VHdr) (use : VUse) (tok : Option Tok) (s : State) (go : State → Out) : Out :=
  waitedState s.settledV .v i h.wait (fun s =>
    let c := s.crew
    let grp := h.grp.toNat
    let opds := use.dst.toList ++ use.srcs
    let shared := use.srcs.filterMap opShared
    match opds.findSome? (c.opFault grp), c.regsFault (use.dregs ++ use.sregs) with
    | some d, _ => .next (s.trapW .v 1 d 0)
    | none, some d => .next (s.trapW .v 1 d 0)
    | none, none =>
      match c.vPoison (use.srcs.flatMap (fun o => opRegs o grp) ++ use.sregs) shared with
      | some (k, a) => .next (s.trapW .v 6 k (BitVec.ofNat 64 a))
      | none =>
        match shared.find? c.gEmpty with
        | some r => .next (s.blockS .v (.shared r))
        | none =>
          if use.dregs.any c.vLocked then .next (s.blockS .v .array)
          else match tok with
            | some t => if c.tokCount t = 63 then .next (s.blockS .v .tokenLimit) else go s
            | none => go s)

/-- A vector word goes on behind its gap (R86, R87). -/
def Crew.passV (c : Crew) (h : VHdr) : Crew := c.pass .v h.gap (c.v.pc + 1)

/-- What a word with a latency bound will write when it lands. -/
structure VEff where
  lanes : List (Nat × Lane)
  masks : List (Nat × Lane)
  shared : Option (GReg × Word)
  flag : Option (CFlag × Bool)
  flags : Flags

/-- An effect on registers alone. -/
def VEff.ofLanes (x : List (Nat × Lane)) (f : Flags) : VEff := { lanes := x, masks := [], shared := none, flag := none, flags := f }

/-- The window of a word that has issued (R88): when it closes, and what it writes then. -/
def VEff.window (e : VEff) (c : Crew) (id : Nat) (use : VUse) (lat : Nat) (mayFlag : Bool) : VWin :=
  { id := id, closes := c.vclock + lat, lanes := e.lanes, masks := e.masks, shared := e.shared, flag := e.flag, flags := e.flags,
    pc := c.v.pc, regs := use.dregs, dmasks := use.dmasks.filter (· != 0), tok := none, en := fcsrEn c.fcsr,
    mayFlag := mayFlag }

/-- A word with a latency bound issues: its window is open, and the stream goes on. DEDUCED (log 37). -/
def State.openWindow (s : State) (h : VHdr) (use : VUse) (lat : Nat) (mayFlag : Bool) (e : VEff) : State :=
  let c := s.crew
  let (id, s1) := s.fresh
  let c1 := (c.claimV (s.free + 32768) use.dregs).claimM (s.free + 60000) (use.dmasks.filter (· != 0))
  ({ s1 with crew := ({ c1 with vwin := c1.vwin ++ [e.window c id use lat mayFlag] } : Crew).passV h } : State).useFree freeStep

/-- A vector word with a latency bound `lat` (R88): sources read at issue, the effect in a window. -/
def windowWord (i : Instr) (h : VHdr) (use : VUse) (lat : Nat) (eff : Crew → Nat → VEff) (s : State) : Out :=
  vectorWord i h use none s (fun s => .next (s.openWindow h use lat (raisesFlags i) (eff s.crew s.free)))

/-- The lanes a group word writes: active lanes the result, inactive ones zero under mmode zero, others left (R133). -/
def groupLanes (h : VHdr) (act : Lane) (d : VOpd) (val : Nat → Nat → Lane × Flags) : List (Nat × Lane) × Flags :=
  let one := fun (x : List (Nat × Lane) × Flags) (ij : Nat × Nat) =>
    let key := 32 * opReg d ij.1 + ij.2
    if act.getLsbD ij.2 then
      let (v, f) := val ij.1 ij.2
      (x.1 ++ [(key, v)], x.2 ||| f)
    else if h.mmode = 2 then (x.1 ++ [(key, 0)], x.2)
    else x
  ((List.range (h.grp.toNat + 1)).flatMap (fun i => (List.range 32).map (fun j => (i, j)))).foldl one ([], 0)

/-- What a lane-by-lane word names. -/
def laneUse (h : VHdr) (d : VOpd) (srcs : List VOpd) (readsD : Bool) : VUse :=
  { srcs := if readsD then srcs ++ [d] else srcs, dregs := opRegs d h.grp.toNat, sregs := [], dmasks := [], dst := some d }

/-- The effect of a lane-by-lane word, from the crew and the count of free values: `val` is a lane's result and flags from the crew,
the number of its first free value, and register and lane numbers. -/
def laneEff (h : VHdr) (d : VOpd) (val : Crew → Nat → Nat → Nat → Lane × Flags) (c : Crew) (free : Nat) : VEff :=
  let x := groupLanes h (c.activeLanes (free + 50000) h) d (fun i j => val c (free + 1024 * i + 32 * j) i j)
  VEff.ofLanes x.1 x.2

/-- A lane-by-lane word of a group (R138-R142, R147, R150). -/
def laneWord (i : Instr) (h : VHdr) (d : VOpd) (srcs : List VOpd) (readsD : Bool) (lat : Nat)
    (val : Crew → Nat → Nat → Nat → Lane × Flags) (s : State) : Out :=
  windowWord i h (laneUse h d srcs readsD) lat (laneEff h d val) s

end Sys2Proof.Machine
end

