-- ==== Sys2Proof/Machine/VectorMem.lean ====
section
/-!
DEFINITION. Vector memory words: element addresses and their checks (R152, R153), translation (R154), loads, stores, atomics,
subscribing loads and 16-byte copies on every path (R155-R160), and their completion.
-/

namespace Sys2Proof.Machine

/-! ## Addresses (R152) -/

/-- How a word forms its addresses. -/
inductive Shape where
  | linear | strided | offsets
  deriving DecidableEq, Repr

/-- An active lane's place before its checks: lane register key, lane, address (in nibbles for s4), data, second data. -/
structure Cell where
  key : Nat
  lane : Nat
  a : Nat
  data : Lane
  data2 : Lane

/-- The address of register `i`, lane `j` (R152): bytes, or nibbles for s4. On paths 1 to 5 too it is taken modulo 2^64.
DESIGN CHOICE (log 106). -/
def Crew.elemAddr (c : Crew) (n : Nat) (f : VMemF) (shape : Shape) (s4 : Bool) (es i j : Nat) : Nat :=
  let k : Int := if f.path = 5 then (i : Int) else ((32 * i + j : Nat) : Int)
  let unit : Int := if s4 then 1 else (es : Int)
  let g : Int := (if s4 then 2 else 1) * ((c.base f.a).toNat : Int)
  let t : Int := match shape with
    | .linear => k * unit
    | .strided => k * c.stride f.b
    | .offsets => (c.src n f.b i j).toInt
  ((g + t) % (if s4 then 2 ^ 65 else 2 ^ 64)).toNat

/-- The active lanes of a word with their addresses, i first (R153). -/
def Crew.cells (c : Crew) (free : Nat) (f : VMemF) (shape : Shape) (es : Nat) (act : Lane) : List Cell :=
  (List.range (f.h.grp.toNat + 1)).flatMap (fun i => (lanesOf act).map (fun j =>
    let n := free + 1024 * i + 32 * j
    { key := 32 * opReg f.d i + j, lane := j, a := c.elemAddr n f shape (f.ty == 0) es i j, data := c.src (n + 1) f.d i j
      data2 := c.readLane (n + 2) (f.d.idx.toNat + 1) j }))

/-- An element checked (R153): class, detail and address where it fails, for s4 the nibble's. DEDUCED (log 107). -/
def State.cellElem (s : State) (c : Crew) (path : Nat) (s4 : Bool) (es : Nat) (x : Cell) : Elem ⊕ Nat × Nat × Nat :=
  let byte := if s4 then x.a / 2 else x.a
  let len := if s4 then 1 else es
  let e : Elem :=
    { key := x.key, space := .phys, va := byte, addr := byte, len := len, nib := if s4 then some (x.a % 2 == 1) else none,
      att := Att.plain, tr := false, data := x.data, data2 := x.data2, space2 := .phys, addr2 := 0 }
  if !s4 && x.a % es != 0 then .inr (4, 0, x.a)
  else if path = 0 then .inl e
  else match s.place c path x.lane byte len with
    | .inl (sp, a) => .inl { e with space := sp, addr := a, tr := true }
    | .inr (k, d) => .inr (k, d, x.a)

/-- All elements, or the first failure. -/
def State.elemList (s : State) (c : Crew) (path : Nat) (s4 : Bool) (es : Nat) : List Cell → List Elem ⊕ Nat × Nat × Nat
  | [] => .inl []
  | x :: xs =>
    match s.cellElem c path s4 es x with
    | .inr t => .inr t
    | .inl e =>
      match s.elemList c path s4 es xs with
      | .inr t => .inr t
      | .inl es' => .inl (e :: es')

/-! ## Translation (R154) -/

/-- The outcome for a word's elements: those mapped, those whose page is out with a fault posted, and what stops the word. -/
structure Mapped where
  ok : List Elem
  out : List Elem
  now : Option (Nat × Nat)
  wait : Option Nat

/-- The elements of a word translated. -/
def State.mapElems (s : State) (kind : Nat) (l : List Elem) : Mapped :=
  let core := s.crew.agent
  let asid := s.crew.bindRec.asid
  l.foldl (fun (m : Mapped) e =>
    match s.translate core asid e.va kind with
    | .ok pa att => { m with ok := m.ok ++ [{ e with addr := pa, att := att, tr := true }] }
    | .now r => { m with now := some (m.now.getD (r, e.va)) }
    | _ =>
      if (s.faultOut (agentDie core) asid e.va kind).isSome then { m with out := m.out ++ [e] }
      else { m with wait := some (m.wait.getD e.va) }) { ok := [], out := [], now := none, wait := none }

/-! ## Issuing -/

/-- Does a pending access of the vector stream and class hold a write back (R304)? -/
def Crew.vPending (c : Crew) (oc : Nat) : Bool :=
  c.vwords.any (fun v => v.oc == oc &&
    (match v.kind with
     | .message _ => false
     | .store => v.elems.any (fun e => e.space != .phys)
     | _ => true))

/-- The class-3 trap of a vector word (R154). -/
def State.trapV3 (s : State) (kind r va : Nat) : State := s.trapW .v 3 (8 * kind + r) (BitVec.ofNat 64 va)

/-- A vector memory word issues: its token is raised and the word is in flight. -/
def State.issueV (s : State) (h : VHdr) (v : VWord) : State :=
  let c := s.crew
  let c1 := (c.claimV (s.free + 32768) v.regs).raiseTok v.tok
  let remote := v.elems.find? (fun e => e.space == .phys && inPod e.addr)
  let s1 := ({ s with crew := ({ c1 with vwords := c1.vwords ++ [v] } : Crew).passV h } : State).useFree freeStep
  match remote with
  | some e => s1.sendOut c.place.die v.id c.uid c.bindRec.asid e.addr e.va
      (match v.kind with
       | .store => true
       | _ => false)
  | none => s1

/-- A word in flight, not yet issued. -/
def Crew.mkWord (c : Crew) (id : Nat) (f : VMemF) (mayFlag : Bool) (kind : VKind) (elems : List Elem) (regs zeros : List Nat) : VWord :=
  { id := id, kind := kind, tok := f.tok, ty := f.ty.toNat, oc := f.oc.toNat, sc := f.sc.toNat, elems := elems, zeros := zeros,
    regs := regs, closes := none, olds := [], flags := 0, pc := c.v.pc, poisoned := none, args := [], en := fcsrEn c.fcsr,
    mayFlag := mayFlag }

/-- The lanes a load writes zero: the inactive ones under mmode zero (R133). -/
def zeroKeys (f : VMemF) (act : Lane) : List Nat :=
  if f.h.mmode = 2 then
    (List.range (f.h.grp.toNat + 1)).flatMap (fun i => (lanesOf (~~~act)).map (fun j => 32 * opReg f.d i + j))
  else []

/-- What a load names. -/
def loadUse (f : VMemF) (shape : Shape) : VUse :=
  { srcs := match shape with
      | .linear => [f.a]
      | _ => [f.a, f.b]
    dregs := opRegs f.d f.h.grp.toNat, sregs := [], dmasks := [], dst := some f.d }

/-- What a word on path 6 that pops a data queue names. -/
def dqUse (f : VMemF) : VUse := { srcs := [], dregs := opRegs f.d f.h.grp.toNat, sregs := [], dmasks := [], dst := some f.d }

/-- What a store names; the address operand comes first. -/
def storeUse (srcs : List VOpd) : VUse := { srcs := srcs, dregs := [], sregs := [], dmasks := [], dst := none }

/-- The operands a store on paths 0 to 5 reads. -/
def storeSrcs (f : VMemF) : Shape → List VOpd
  | .linear => [f.a, f.d]
  | _ => [f.a, f.b, f.d]

/-- A load on paths 0 to 5 (R155). One with a window waits unissued for the earlier accesses of its class (R157, R304).
DEDUCED (log 75). -/
def loadWord (i : Instr) (f : VMemF) (shape : Shape) (s : State) : Out :=
  vectorWord i f.h (loadUse f shape) (some f.tok) s (fun s =>
    let c := s.crew
    let act := c.activeLanes (s.free + 50000) f.h
    let es := eltBytes f.ty.toNat
    match s.elemList c f.path.toNat (f.ty == 0) es (c.cells s.free f shape es act) with
    | .inr (k, d, a) => .next (s.trapW .v k d (BitVec.ofNat 64 a))
    | .inl el =>
      let go := fun (el : List Elem) =>
        let (id, s1) := s.fresh
        let v := c.mkWord id f (raisesFlags i) .load el (opRegs f.d f.h.grp.toNat) (zeroKeys f act)
        Host.Outcome.next (s1.issueV f.h (if f.path = 4 ∨ f.path = 5 then { v with closes := some (c.vclock + 12) } else v))
      if f.path = 0 then
        if s.logged c.agent c.uid .v f.oc.toNat then .next (s.blockS .v .sideLog)
        else
          let m := s.mapElems 4 el
          match m.now, m.wait, m.out with
          | some (r, va), _, _ => .next (s.trapV3 4 r va)
          | none, some va, _ => .next (s.blockS .v (.translation va 4))
          | none, none, e :: _ => .next (s.blockS .v (.translation e.va 4))
          | none, none, [] => go m.ok
      else if (f.path = 4 ∨ f.path = 5) ∧ (c.vPending f.oc.toNat || s.readWaits c .v f.oc.toNat s.nextId 0) then
        .next (s.blockS .v .result)
      else go el)

/-- VLD on paths 0 to 5 (R155). -/
def execVld (f : VMemF) (s : State) : Out := loadWord (.vld f) f .linear s

/-- VLDX (R155). -/
def execVldx (f : VMemF) (s : State) : Out := loadWord (.vldx f) f .strided s

/-- VGATH (R155). -/
def execVgath (f : VMemF) (s : State) : Out := loadWord (.vgath f) f .offsets s

/-! ## Data queues (R155, R156, R403, R404) -/

/-- The held entries of a data queue: those whose bytes and whose predecessors' bytes have arrived (R403). -/
def Crew.dqHeld (c : Crew) (q : Nat) : List (List Byte) :=
  ((c.dq.getD q []).takeWhile (fun e => e.bytes.isSome)).map (fun e => e.bytes.getD [])

/-- A data queue replaced. -/
def Crew.setDq (c : Crew) (q : Nat) (l : List DqEntry) : Crew := { c with dq := c.dq.set q l }

/-- The lanes that popped entries give: 32 words of 4 bytes each, register by register. -/
def dqLanes (d : VOpd) (held : List (List Byte)) (n : Nat) : List (Nat × Lane) :=
  (List.range n).flatMap (fun i => (List.range 32).map (fun j =>
    (32 * opReg d i + j, BitVec.ofNat 32 (leNat (((held.getD i []).drop (4 * j)).take 4)))))

/-- A load from a data queue issues: its `n` entries are popped, and their lanes land within 8 slots (R155). -/
def State.popDq (s : State) (f : VMemF) (q n : Nat) : State :=
  let c := s.crew
  let (id, s1) := s.fresh
  let w : VWin :=
    { id := id, closes := c.vclock + 8, lanes := dqLanes f.d (c.dqHeld q) n, masks := [], shared := none, flag := none, flags := 0,
      pc := c.v.pc, regs := (dqUse f).dregs, dmasks := [], tok := some f.tok, en := fcsrEn c.fcsr, mayFlag := false }
  let c1 := (((c.claimV (s.free + 32768) (dqUse f).dregs).setDq q ((c.dq.getD q []).drop n)).raiseTok f.tok)
  ({ s1 with crew := ({ c1 with vwin := c1.vwin ++ [w] } : Crew).passV f.h } : State).useFree freeStep

/-- VLD on path 6 (R155): the entries are popped at issue; the lanes land within their window. -/
def execVldDq (f : VMemF) (s : State) : Out :=
  vectorWord (.vldDq f) f.h (dqUse f) (some f.tok) s (fun s =>
    let q := f.sub.toNat % 4
    let n := f.h.grp.toNat + 1
    if (s.crew.dqHeld q).length < n then .next (s.blockS .v (.queue q n false)) else .next (s.popDq f q n))

/-- The 128 bytes of a vector register as a store reads them (R132). -/
def Crew.regBytes (c : Crew) (free : Nat) (o : VOpd) (i : Nat) : List Byte :=
  (List.range 32).flatMap (fun j => leBytes 4 (c.src (free + 1024 * i + 32 * j) o i j).toNat)

/-- A store into a data queue issues: its `n` entries arrive at once (R156). -/
def State.pushDq (s : State) (f : VMemF) (q n : Nat) : State :=
  let c := s.crew
  let new : List DqEntry := (List.range n).map (fun i => { bytes := some (c.regBytes s.free f.d i), job := 0 })
  ({ s with crew := (c.setDq q (c.dq.getD q [] ++ new)).passV f.h } : State).useFree freeStep

/-- VST on path 6 (R156): its entries arrive at issue. -/
def execVstDq (f : VMemF) (s : State) : Out :=
  vectorWord (.vstDq f) f.h (storeUse [f.d]) (some f.tok) s (fun s =>
    let q := f.sub.toNat % 4
    let n := f.h.grp.toNat + 1
    if 16 < (s.crew.dq.getD q []).length + n then .next (s.blockS .v (.queue q n true)) else .next (s.pushDq f q n))

/-! ## Stores (R156) -/

/-- The bytes a lane stores: s4 clamps to -7..7 (R156). -/
def storeBytes (ty : Nat) (x : Lane) : List Byte :=
  if ty = 0 then
    let z := x.toInt
    leBytes 1 (patOf 4 (if z < -7 then -7 else if 7 < z then 7 else z))
  else leBytes (eltBytes ty) (x.toNat % 2 ^ eltBits ty)

/-- The writes of a word's elements handed to the buffer or to the side log. -/
def State.putWrites (s : State) (word : Nat) (f : VMemF) (op : Elem → WOp) (bytes : Elem → List Byte) (log : Bool) (released : Elem → Bool)
    (l : List Elem) : State :=
  l.foldl (fun s e =>
    let (id, s1) := s.fresh
    let w := s1.mkWrite .v id word e.key f.oc.toNat f.sc.toNat e.va e.addr (bytes e) e.nib (op e) e.att
    if log then s1.logWrite w (released e) else s1.buffer w) s

/-- The elements of a word that no later lane of it overwrites (R156), by the address `at_` gives. -/
def lastLanes (at_ : Elem → Nat) : List Elem → List Elem
  | [] => []
  | e :: es => if es.any (fun x => at_ x == at_ e && x.nib == e.nib) then lastLanes at_ es else e :: lastLanes at_ es

/-- Side-log entries that faulting elements of one word need: one for each 128-byte block (R336). -/
def blocksOf (l : List Elem) : Nat := ((l.map (fun e => e.va / 128)).dedup).length

/-- A word that writes on path 0: mapped lanes go to the buffer, faulting ones to the side log (R154, R336). `last` leaves only the
elements that reach memory. -/
def State.writeWord (s : State) (f : VMemF) (mayFlag : Bool) (kind : Nat) (last : (Elem → Nat) → List Elem → List Elem) (vk : VKind) (op : Elem → WOp) (bytes : Elem → List Byte) (regs zeros : List Nat)
    (mayLog : Bool) (el : List Elem) : Out :=
  let c := s.crew
  let m := s.mapElems kind el
  let behind := s.logged c.agent c.uid .v f.oc.toNat
  match m.now, m.wait with
  | some (r, va), _ => .next (s.trapV3 kind r va)
  | none, some va => .next (s.blockS .v (.translation va kind))
  | none, none =>
    let logged := last Elem.va (if behind then m.out ++ m.ok else m.out)
    if (!mayLog && !m.out.isEmpty) then .next (s.blockS .v (.translation ((m.out.map (fun e => e.va)).headD 0) kind))
    else if (!mayLog && behind) || decide (256 < s.logUse c.agent + blocksOf logged) then .next (s.blockS .v .sideLog)
    else
      let (word, s1) := s.fresh
      let s2 := s1.putWrites word f op bytes true (fun e => e.tr) logged
      let s3 := if behind then s2 else s2.putWrites word f op bytes false (fun _ => true) (last Elem.addr m.ok)
      .next (s3.issueV f.h (c.mkWord word f mayFlag vk (m.ok ++ m.out) regs zeros))

/-- The scratchpads that a word of the focused crew is to write are its ASID's from its issue on (R272). -/
def State.claims (s : State) (l : List Elem) : State :=
  l.foldl (fun s e => (s.claim s.crew.bindRec.asid e.space).claim s.crew.bindRec.asid e.space2) s

/-- A store on paths 0 to 5 (R156). One to global memory issues once the earlier words of its class have been performed, so that it is
performed after them (R323). DEDUCED (log 75). -/
def storeWord (i : Instr) (f : VMemF) (shape : Shape) (s : State) : Out :=
  vectorWord i f.h (storeUse (storeSrcs f shape)) (some f.tok) s (fun s =>
    let c := s.crew
    let act := c.activeLanes (s.free + 50000) f.h
    let es := eltBytes f.ty.toNat
    match s.elemList c f.path.toNat (f.ty == 0) es (c.cells s.free f shape es act) with
    | .inr (k, d, a) => .next (s.trapW .v k d (BitVec.ofNat 64 a))
    | .inl el =>
      if f.path = 0 then
        if c.vPending f.oc.toNat then .next (s.blockS .v .result)
        else s.writeWord f false 5 lastLanes .store (fun _ => .store) (fun e => storeBytes f.ty.toNat e.data) [] [] true el
      else
        let (id, s1) := s.fresh
        .next ((s1.claims el).issueV f.h (c.mkWord id f false .store el [] [])))

/-- VST on paths 0 to 5 (R156). -/
def execVst (f : VMemF) (s : State) : Out := storeWord (.vst f) f .linear s

/-- VSTX (R156). -/
def execVstx (f : VMemF) (s : State) : Out := storeWord (.vstx f) f .strided s

/-- VSCAT (R156). -/
def execVscat (f : VMemF) (s : State) : Out := storeWord (.vscat f) f .offsets s

/-! ## Atomics (R158) -/

/-- Is a VATOM one without a returned value? -/
def isNr (f : VMemF) : Bool := f.sub.getLsbD 4

/-- The registers a VATOM writes. -/
def atomRegs (f : VMemF) : List Nat := if isNr f then [] else opRegs f.d 0

/-- What a VATOM names. -/
def atomUse (f : VMemF) (aop : Nat) : VUse :=
  { srcs := [f.a, f.b, f.d], dregs := atomRegs f, sregs := if aop = 9 then [f.d.idx.toNat + 1] else [], dmasks := [], dst := some f.d }

/-- A vector atomic (R158): on path 0 each lane's operation goes to its home, else to its bank. -/
def atomWord (i : Instr) (aop : Nat) (f : VMemF) (s : State) : Out :=
  vectorWord i f.h (atomUse f aop) (some f.tok) s (fun s =>
    let c := s.crew
    let act := c.activeLanes (s.free + 50000) f.h
    let zeros := if isNr f then [] else zeroKeys f act
    match s.elemList c f.path.toNat false 4 (c.cells s.free f .offsets 4 act) with
    | .inr (k, dt, a) => .next (s.trapW .v k dt (BitVec.ofNat 64 a))
    | .inl el =>
      if f.path = 0 then
        if c.vPending f.oc.toNat then .next (s.blockS .v .result)
        else s.writeWord f (raisesFlags i) 3 (fun _ l => l) (.atomic aop (isNr f)) (fun e => .atomic aop f.ty.toNat e.data.toNat e.data2.toNat) (fun _ => leBytes 4 0)
          (atomRegs f) zeros (isNr f) el
      else
        let (id, s1) := s.fresh
        .next ((s1.claims el).issueV f.h (c.mkWord id f (raisesFlags i) (.atomic aop (isNr f)) el (atomRegs f) zeros)))

/-- vatom.add (R158). -/
def execVatomAdd (f : VMemF) (s : State) : Out := atomWord (.vatomAdd f) 0 f s

/-- vatom.and (R158). -/
def execVatomAnd (f : VMemF) (s : State) : Out := atomWord (.vatomAnd f) 1 f s

/-- vatom.or (R158). -/
def execVatomOr (f : VMemF) (s : State) : Out := atomWord (.vatomOr f) 2 f s

/-- vatom.xor (R158). -/
def execVatomXor (f : VMemF) (s : State) : Out := atomWord (.vatomXor f) 3 f s

/-- vatom.min.s (R158). -/
def execVatomMinS (f : VMemF) (s : State) : Out := atomWord (.vatomMinS f) 4 f s

/-- vatom.max.s (R158). -/
def execVatomMaxS (f : VMemF) (s : State) : Out := atomWord (.vatomMaxS f) 5 f s

/-- vatom.min.n (R158). -/
def execVatomMinN (f : VMemF) (s : State) : Out := atomWord (.vatomMinN f) 6 f s

/-- vatom.max.n (R158). -/
def execVatomMaxN (f : VMemF) (s : State) : Out := atomWord (.vatomMaxN f) 7 f s

/-- vatom.swap (R158). -/
def execVatomSwap (f : VMemF) (s : State) : Out := atomWord (.vatomSwap f) 8 f s

/-- vatom.cas (R158). -/
def execVatomCas (f : VMemF) (s : State) : Out := atomWord (.vatomCas f) 9 f s

/-! ## Subscribing loads and 16-byte copies (R159, R160) -/

/-- VLDS (R159): the page that holds G gives the source type, which every page touched must share. DEDUCED (log 76). -/
def execVlds (f : VMemF) (s : State) : Out :=
  vectorWord (.vlds f) f.h (loadUse f .linear) (some f.tok) s (fun s =>
    let c := s.crew
    let g := (c.base f.a).toNat
    let act := c.activeLanes (s.free + 50000) f.h
    if s.logged c.agent c.uid .v f.oc.toNat then .next (s.blockS .v .sideLog)
    else match s.translate c.agent c.bindRec.asid g 4 with
      | .now r => .next (s.trapV3 4 r g)
      | .miss => .next (s.blockS .v (.translation g 4))
      | .denied _ => .next (s.blockS .v (.translation g 4))
      | .ok _ att =>
        if (srcType att.etype).isNone then .next (s.trapW .v 4 2 (BitVec.ofNat 64 g))
        else
          let es := srcBytes att.etype
          let cells := (List.range (f.h.grp.toNat + 1)).flatMap (fun i => (lanesOf act).map (fun j =>
            ({ key := 32 * opReg f.d i + j, lane := j, a := (g + (32 * i + j) * es) % 2 ^ 64, data := 0, data2 := 0 } : Cell)))
          match s.elemList c 0 false es cells with
          | .inr (k, d, a) => .next (s.trapW .v k d (BitVec.ofNat 64 a))
          | .inl el =>
            let m := s.mapElems 4 el
            match m.now, m.wait, m.out with
            | some (r, va), _, _ => .next (s.trapV3 4 r va)
            | none, some va, _ => .next (s.blockS .v (.translation va 4))
            | none, none, e :: _ => .next (s.blockS .v (.translation e.va 4))
            | none, none, [] =>
              match m.ok.find? (fun e => e.att.etype != att.etype) with
              | some e => .next (s.trapW .v 4 2 (BitVec.ofNat 64 e.va))
              | none =>
                let (id, s1) := s.fresh
                .next (s1.issueV f.h (c.mkWord id f false .subscribe m.ok (opRegs f.d f.h.grp.toNat) (zeroKeys f act))))

/-- The destination places of a VCP16's elements, or the first failure (R153, R160): its address is that of the source where both are
misaligned. DEDUCED (log 76). -/
def State.copyPlaces (s : State) (c : Crew) (path : Nat) : List (Elem × Nat × Nat) → List Elem ⊕ Nat × Nat × Nat
  | [] => .inl []
  | (e, lane, o) :: xs =>
    if e.va % 16 != 0 then .inr (4, 0, e.va)
    else if o % 16 != 0 then .inr (4, 0, o)
    else match s.place c path lane o 16 with
      | .inr (k, d) => .inr (k, d, o)
      | .inl (sp, a) =>
        match s.copyPlaces c path xs with
        | .inr t => .inr t
        | .inl l => .inl ({ e with space2 := sp, addr2 := a } :: l)

/-- VCP16 (R160): 16 bytes for each active lane, from global memory to a local one. -/
def execVcp16 (f : VMemF) (s : State) : Out :=
  vectorWord (.vcp16 f) f.h (storeUse [f.a, f.b, f.d]) (some f.tok) s (fun s =>
    let c := s.crew
    let act := c.activeLanes (s.free + 50000) f.h
    let base : Elem :=
      { key := 0, space := .phys, va := 0, addr := 0, len := 16, nib := none, att := Att.plain, tr := false, data := 0, data2 := 0,
        space2 := .phys, addr2 := 0 }
    let cells := (List.range (f.h.grp.toNat + 1)).flatMap (fun i => (lanesOf act).map (fun j =>
      let n := s.free + 1024 * i + 32 * j
      let va := (((c.base f.a).toNat : Int) + (c.src n f.b i j).toInt) % 2 ^ 64
      (({ base with va := va.toNat, addr := va.toNat } : Elem), j, (c.src (n + 1) f.d i j).toNat)))
    match s.copyPlaces c f.path.toNat cells with
    | .inr (k, d, a) => .next (s.trapW .v k d (BitVec.ofNat 64 a))
    | .inl el =>
      if s.logged c.agent c.uid .v f.oc.toNat then .next (s.blockS .v .sideLog)
      else
        let m := s.mapElems 4 el
        match m.now, m.wait, m.out with
        | some (r, va), _, _ => .next (s.trapV3 4 r va)
        | none, some va, _ => .next (s.blockS .v (.translation va 4))
        | none, none, e :: _ => .next (s.blockS .v (.translation e.va 4))
        | none, none, [] =>
          let (id, s1) := s.fresh
          .next ((s1.claims m.ok).issueV f.h (c.mkWord id f false .copy16 m.ok [] [])))

/-! ## Completion (R155-R160, R304) -/

/-- Does an earlier word of the class that is still in flight come first (R304)? -/
def Crew.behindWord (c : Crew) (v : VWord) : Bool := ({ c with vwords := c.vwords.takeWhile (fun x => x.id != v.id) } : Crew).vPending v.oc

/-- The elements with a physical address again, where MIGRATE has moved them (R342). -/
def State.remap (s : State) (l : List Elem) : Option (List Elem) :=
  l.mapM (fun e =>
    if e.tr then some e
    else match s.translate s.crew.agent s.crew.bindRec.asid e.va 4 with
      | .ok pa att => some { e with addr := pa, att := att, tr := true }
      | _ => none)

/-- The bytes of a list of elements on path 0, if every line is there. -/
def State.readElems (s : State) (l : List Elem) : Option (List (List Byte)) :=
  l.mapM (fun e => s.readLine s.crew.agent e.addr e.len e.att)

/-- Proxies of the other packages' regions a list of elements meets (R295). -/
def State.proxiesFor (s : State) (l : List Elem) : State :=
  l.foldl (fun s e => if e.space == .phys && inPod e.addr then s.proxyFill s.crew.place.die e.addr else s) s

/-- A vector load that meets a block which has become malformed since its translation ends: its lanes are free values, and class-3 reason 6
is left pending with its token. DEDUCED (log 126). -/
def State.loadFails (s : State) (v : VWord) (va : Nat) : State :=
  let c := s.crew
  let lanes := v.zeros.map (fun k => (k, (0 : Lane))) ++ v.elems.map (fun e => (e.key, Config.freeLane (s.free + e.key)))
  let c1 := (c.landData v lanes 0).postPend .v ⟨causeCode 3 38, BitVec.ofNat 64 va⟩ (some v.tok)
  ((({ s with crew := c1 } : State).outDone c.place.die v.id)).useFree 20480

/-- A global load completes where every line is there (R155, R288, R304). -/
def State.finishGlobal (s : State) (v : VWord) : State :=
  match s.remap v.elems with
  | none => s
  | some el =>
    let s := s.proxiesFor el
    let c := s.crew
    let own := (el.map (fun e => s.forwarded c .v v.oc e.addr e.len)).foldl min s.nextId
    if s.readWaits c .v v.oc v.id own then s
    else match el.find? (fun e => s.blockBad c.agent e.addr e.len e.att) with
    | some e => s.loadFails v e.va
    | none =>
    match s.readElems el with
      | none => s
      | some bs =>
        let (l, f) := loadLanes { v with elems := el } bs
        let c1 := el.foldl (fun c e => s.noteSeen c v.oc v.sc e.addr e.len) c
        el.foldl (fun s e => s.readHeat e.addr e.len e.att) (({ s with crew := c1.landWord v l f true } : State).outDone c.place.die v.id)

/-- The lane that a subscribing load finds, once its L1 holds the grain in a form that serves it (R159, R288, R289). -/
def State.subLane (s : State) (v : VWord) (e : Elem) : Option Lane :=
  let core := s.crew.agent
  let ty := v.ty
  let conv := fun (bs : List Byte) =>
    match srcType e.att.etype with
    | some src => laneOf ty (subRound src ty (leNat bs))
    | none => 0
  let fmt := slotFormat e.att.etype ty
  let grain := e.addr / e.att.grain * e.att.grain
  if !(s.buffered core grain e.att.grain).isEmpty then none
  else if e.att.bdb || e.att.mtype != 0 then (s.readLine core e.addr e.len e.att).map conv
  else match s.line core e.addr with
    | some l =>
      let off := grainKey (agentDie core) e.addr - l.pa
      match l.state with
      | .sub g =>
        if g = fmt ∧ fmt ≠ 0 ∧ l.etype = e.att.etype ∧ l.len = e.att.grain then
          some (laneOf ty ((l.pats.getD (off / srcBytes l.etype) 0).toNat))
        else none
      | _ => some (conv ((l.bytes.drop off).take e.len))
    | none => none

/-- A subscribing load completes (R159, R310). -/
def State.finishSub (s : State) (v : VWord) : State :=
  match s.remap v.elems with
  | none => s
  | some el =>
    let s := s.proxiesFor el
    if s.readWaits s.crew .v v.oc v.id 0 then s
    else match el.mapM (fun e => (s.subLane v e).map (fun x => (e.key, x))) with
      | some l =>
        let c1 := el.foldl (fun c e => s.noteSeen c v.oc v.sc e.addr e.len) s.crew
        el.foldl (fun s e => s.readHeat e.addr e.len e.att)
          (({ s with crew := c1.landWord v (v.zeros.map (fun k => (k, 0)) ++ l) 0 false } : State).outDone s.crew.place.die v.id)
      | none => s

/-- A local store performs at its banks, in lane order (R156). -/
def State.storeLocal (s : State) (ty : Nat) (l : List Elem) : State :=
  l.foldl (fun s e =>
    match e.nib with
    | some h => if s.lost s.crew.bindRec.asid e.space then s else s.setNibble e.space e.addr h (leNat (storeBytes ty e.data))
    | none => s.setLocal e.space e.addr (storeBytes ty e.data)) s

/-- A local atomic performs at its banks, in increasing lane order: old values and flags (R158). -/
def State.atomLocal (s : State) (aop ty : Nat) (l : List Elem) : List (Nat × Lane) × Flags × State :=
  l.foldl (fun (x : List (Nat × Lane) × Flags × State) e =>
    let (olds, fl, s) := x
    let m := leNat (s.localBytes e.space e.addr 4)
    let (r, f) := atomicNew aop ty 32 m e.data.toNat e.data2.toNat
    let s1 := match r with
      | some n => s.setLocal e.space e.addr (leBytes 4 n)
      | none => s
    (olds ++ [(e.key, BitVec.ofNat 32 m)], fl ||| f, s1)) ([], 0, s)

/-- Bytes that a word of a core reads of global memory without its L1: the home's, under its own core's buffer; a decoded slot as it stands at home (R122,
R160, R281, R433). -/
def State.coreBytes (s : State) (core pa len : Nat) (att : Att) : List Byte :=
  let bs := (s.homeBytes (agentDie core) pa len att).getD (s.phys pa len)
  if att.bdb then bs else (s.buffered core pa len).foldl (overlay pa) bs

/-- The 16-byte copies of a word performed, later lanes last (R160). -/
def State.copy16 (s : State) (l : List Elem) : State :=
  l.foldl (fun s e => s.setLocal e.space2 e.addr2 (s.coreBytes s.crew.agent e.addr 16 e.att)) s

/-- VECTOR_WORD_COMPLETE (R155-R160): the word performs, or has been performed at its scope, and its token is lowered.
DEDUCED (log 75). DEDUCED (log 76). -/
def execVectorWordComplete (u id : Nat) (s : State) : Out :=
  onUid s u (fun s =>
    let c := s.crew
    match c.vwords.find? (fun v => v.id == id) with
    | none => .next s
    | some v =>
      let global := v.elems.any (fun e => e.space == .phys)
      let mine := s.writes.any (fun w => w.word == id)
      match v.kind with
      | .message _ => .next s
      | .store =>
        if global then
          if decide (3 ≤ v.sc) && mine then .next s
          else .next (({ s with crew := c.landWord v [] 0 false } : State).outDone c.place.die id)
        else if c.behindWord v || s.readWaits c .v v.oc id 0 then .next s
        else .next { (s.storeLocal v.ty v.elems) with crew := c.landWord v [] 0 false }
      | .load =>
        if c.behindWord v then .next s
        else if global then .next (s.finishGlobal v)
        else if s.readWaits c .v v.oc id 0 then .next s
        else .next (s.landLocal v)
      | .subscribe => if c.behindWord v then .next s else .next (s.finishSub v)
      | .atomic aop nr =>
        if global then
          if mine then .next s
          else
            let l := if nr then [] else v.zeros.map (fun k => (k, 0)) ++ v.olds
            .next (({ s with crew := c.landWord v l v.flags false } : State).outDone c.place.die id)
        else if c.behindWord v || s.readWaits c .v v.oc id 0 then .next s
        else
          let (olds, f, s1) := s.atomLocal aop v.ty v.elems
          let l := if nr then [] else v.zeros.map (fun k => (k, 0)) ++ olds
          .next { s1 with crew := c.landWord v l f false }
      | .copy16 =>
        if c.behindWord v || s.readWaits c .v v.oc id 0 then .next s
        else match s.remap v.elems with
          | some el =>
            let c1 := el.foldl (fun c e => s.noteSeen c v.oc v.sc e.addr e.len) c
            let fresh := el.foldl (fun s e => s.dropLease c.agent e.addr) (s.copy16 el)
            .next { (el.foldl (fun s e => if inPod e.addr then s else s.engineRead e.addr e.len) fresh) with crew := c1.landWord v [] 0 false }
          | none => .next s)

end Sys2Proof.Machine
end

