-- ==== Sys2Proof/Machine/Texture.lean ====
section
/-!
DEFINITION. Texture units: descriptors, samplers, texels and filtering (R162, R163, R380-R385).
-/

namespace Sys2Proof.Machine

/-! ## Reads of the fixed-function units (R161, R385) -/

/-- What a unit's read ends with: a value, or a translation fault, its reason and address. -/
inductive Got (α : Type) where
  | ok (seen : List (Nat × Nat)) (a : α)
  | fail (reason va : Nat)

/-- One read after another. -/
def Got.andThen {α β : Type} (x : Got α) (f : α → Got β) : Got β :=
  match x with
  | .ok seen a =>
    match f a with
    | .ok more b => .ok (seen ++ more) b
    | .fail r va => .fail r va
  | .fail r va => .fail r va

/-- A value that no read gave. -/
def Got.pure {α : Type} (a : α) : Got α := .ok [] a

/-- Reads in a row. -/
def Got.all {α β : Type} (f : α → Got β) : List α → Got (List β)
  | [] => .pure []
  | x :: xs => (f x).andThen (fun y => (Got.all f xs).andThen (fun ys => .pure (y :: ys)))

/-- A read of a texture or ray unit that stays within one page: access kind 6, at the home (R161, R300, R385). -/
def State.unitPiece (s : State) (die asid va len : Nat) : Got (List Byte) :=
  match s.engineTr die asid va 6 with
  | .ok pa att =>
    (match s.homeBytes die pa len att with
     | some b => .ok ((pa, len) :: (s.enginePath die asid va).map (fun x => (x, 8))) b
     | none => .fail 6 va)
  | .denied r => .fail (fatalReason r) va
  | .now r => .fail r va
  | .miss => .fail 0 va

/-- A read of a texture or ray unit: each part of it where its page stands. -/
def State.unitRead (s : State) (die asid va len : Nat) : Got (List Byte) :=
  (Got.all (fun p => s.unitPiece die asid p.1 p.2) (pagePieces (len / 4096 + 2) va len)).andThen (fun l => .pure l.flatten)

/-- What the reads of a unit leave behind them: M holders pass to O (R433). -/
def State.unitSees (s : State) (seen : List (Nat × Nat)) : State :=
  seen.foldl (fun s x => if inPod x.1 then s else s.engineRead x.1 x.2) s

/-! ## Slots (R380-R382) -/

/-- A texture descriptor (R381). -/
structure TexDesc where
  base : Nat
  w : Nat
  h : Nat
  d : Nat
  levels : Nat
  type : Nat
  channels : Nat

/-- A sampler word's fields (R382). -/
structure Sampler where
  mag : Nat
  min : Nat
  mip : Nat
  au : Nat
  av : Nat
  aw : Nat
  border : Nat
  minlod : Nat
  maxlod : Nat
  bias : Nat

/-- The descriptor slot of a launch (R380). -/
def Kernel.gfxSlot (k : Kernel) (n : Nat) : Option (List Byte) := (k.gfx.find? (fun x => x.1 == n)).map (fun x => x.2)

/-- A field of a table's bytes. -/
def fieldAt (b : List Byte) (i n : Nat) : Nat := leNat ((b.drop i).take n)

/-- The texture of a kind in a slot; none where the slot is empty (R380, R381). -/
def Kernel.texture (k : Kernel) (kind n : Nat) : Option TexDesc :=
  match k.gfxSlot n with
  | none => none
  | some b =>
    let t : TexDesc :=
      { base := fieldAt b 0 8, w := fieldAt b 8 2, h := fieldAt b 10 2, d := fieldAt b 12 2, levels := fieldAt b 14 1,
        type := fieldAt b 15 1 % 32, channels := fieldAt b 15 1 / 32 % 4 + 1 }
    let size := fun (x : Nat) => decide (1 ≤ x) && decide (x ≤ 16384)
    let good := fieldAt b 16 1 == kind && t.base % 4096 == 0 && size t.w && size t.h && size t.d && fieldAt b 15 1 / 128 == 0 &&
      fieldAt b 17 15 == 0 &&
      (if kind = 1 then t.d == 1 && decide (1 ≤ t.levels) && decide (t.levels ≤ 15) && ([9, 10, 11, 5, 6] : List Nat).contains t.type
       else t.levels == 1 && t.type == 9 && t.channels == 1)
    if good then some t else none

/-- The root and structure base of an acceleration structure; none where the slot is empty (R380, R381). -/
def Kernel.structure_ (k : Kernel) (n : Nat) : Option (Nat × Nat) :=
  match k.gfxSlot n with
  | none => none
  | some b => if fieldAt b 16 1 = 3 ∧ fieldAt b 0 8 % 64 = 0 ∧ fieldAt b 17 15 = 0 then some (fieldAt b 0 8, fieldAt b 8 8) else none

/-- The sampler of a slot; none where it is not valid or holds a reserved value (R380, R382). -/
def Kernel.sampler (k : Kernel) (n : Nat) : Option Sampler :=
  match k.samplers.find? (fun x => x.1 == n) with
  | none => none
  | some (_, w) =>
    let s : Sampler :=
      { mag := w % 4, min := w / 4 % 4, mip := w / 16 % 4, au := w / 64 % 8, av := w / 512 % 8, aw := w / 4096 % 8,
        border := w / 32768 % 4, minlod := w / 2 ^ 32 % 256, maxlod := w / 2 ^ 40 % 256, bias := w / 2 ^ 48 % 65536 }
    let good := w / 2 ^ 31 % 2 == 1 && decide (s.mag < 2) && decide (s.min < 2) && decide (s.mip < 3) && decide (s.au < 4) &&
      decide (s.av < 4) && decide (s.aw < 4) && decide (s.border < 3) && w / 2 ^ 17 % 2 ^ 14 == 0
    if good then some s else none

/-! ## Arithmetic -/

/-- A value rounded to f32, nearest even (R384, R390, R399, R400). -/
def rne (v : FVal) : Nat :=
  match v with
  | .nan _ _ => fmtF32.nan
  | .inf n => fmtF32.signed n 0x7F800000
  | .fin n m e => (fmtF32.pack 0 n m e).1

/-- The exact product of two values. -/
def FVal.mul (x y : FVal) : FVal :=
  match x, y with
  | .fin na ma ea, .fin nb mb eb => .fin (na != nb) (ma * mb) (ea + eb)
  | .inf a, .inf b => .inf (a != b)
  | .inf a, .fin nb mb _ => if mb = 0 then .nan false false else .inf (a != nb)
  | .fin na ma _, .inf b => if ma = 0 then .nan false false else .inf (na != b)
  | _, _ => .nan false false

/-- The exact sum of two values; an exact zero of unlike signs is +0. -/
def FVal.add (x y : FVal) : FVal :=
  match x, y with
  | .fin na ma ea, .fin nb mb eb =>
    let (z, u) := exactSum na ma ea nb mb eb
    if z = 0 then .fin (na && nb) 0 0 else .fin (decide (z < 0)) z.natAbs u
  | .inf a, .inf b => if a == b then .inf a else .nan false false
  | .inf a, .fin _ _ _ => .inf a
  | .fin _ _ _, .inf b => .inf b
  | _, _ => .nan false false

/-- A pattern's value. -/
def f32 (p : Nat) : FVal := fmtF32.value p

/-- The largest integer at most m * 2^e with its sign. -/
def floorOf (v : FVal) : Int :=
  match v with
  | .fin neg m e => (toInt 2 neg m e).1
  | _ => 0

/-- lerp(a, b, f) of R384: one rounding of the difference, one of the fused sum. -/
def lerp (a b : Nat) (f : FVal) : Nat := rne ((f.mul (f32 (rne ((f32 b).add (f32 a).neg)))).add (f32 a))

/-- The integer clamped to a range; where the range is empty its upper end holds (R384, log 21). -/
def clampTo (lo hi x : Int) : Int := if hi < (if x < lo then lo else x) then hi else (if x < lo then lo else x)

/-! ## Texels (R383) -/

/-- Size of a level on one axis. -/
def levelSize (n l : Nat) : Nat := max 1 (n / 2 ^ l)

/-- Bytes of a texel. -/
def TexDesc.texel (t : TexDesc) : Nat := t.channels * eltBytes t.type

/-- Row pitch of a level. -/
def TexDesc.pitch (t : TexDesc) (l : Nat) : Nat := (levelSize t.w l * t.texel + 255) / 256 * 256

/-- Bytes of a slice of a level. -/
def TexDesc.slice (t : TexDesc) (l : Nat) : Nat := t.pitch l * levelSize t.h l

/-- Where a level starts. -/
def TexDesc.start (t : TexDesc) : Nat → Nat
  | 0 => t.base
  | l + 1 => (t.start l + t.slice l * levelSize t.d l + 4095) / 4096 * 4096

/-- A channel's pattern as f32: exact, or unorm (R383). -/
def texelValue (type p : Nat) : Nat :=
  match type with
  | 5 => fmtF32.div 0 (rne (intVal p)) (rne (intVal 255)) |>.1
  | 6 => fmtF32.div 0 (rne (intVal p)) (rne (intVal 65535)) |>.1
  | 10 => (convert 0 0 10 9 0 false p).1
  | 11 => (convert 0 0 11 9 0 false p).1
  | _ => p

/-- An index fitted to an axis by an address mode; none fetches the border colour (R383). -/
def fitIndex (mode n : Nat) (i : Int) : Option Nat :=
  match mode with
  | 0 => some (i % n).toNat
  | 1 =>
    let m := (i % (2 * n)).toNat
    some (if m < n then m else 2 * n - 1 - m)
  | 2 => some (clampTo 0 ((n : Int) - 1) i).toNat
  | _ => if 0 ≤ i ∧ i < n then some i.toNat else none

/-- The border colour of a channel (R382). -/
def borderOf (code ch : Nat) : Nat :=
  if code = 2 ∨ (code = 1 ∧ ch = 3) then 0x3F800000 else 0

/-- One texel's channels as f32 patterns (R383). -/
def State.texel (s : State) (die asid : Nat) (t : TexDesc) (p : Sampler) (l : Nat) (i j k : Int) : Got (List Nat) :=
  match fitIndex p.au (levelSize t.w l) i, fitIndex p.av (levelSize t.h l) j, fitIndex p.aw (levelSize t.d l) k with
  | some x, some y, some z =>
    let at_ := t.start l + z * t.slice l + y * t.pitch l + x * t.texel
    Got.all (fun ch =>
      (s.unitRead die asid (at_ + ch * eltBytes t.type) (eltBytes t.type)).andThen (fun b => .pure (texelValue t.type (leNat b))))
      (List.range t.channels)
  | _, _, _ => .pure ((List.range t.channels).map (borderOf p.border))

/-! ## Filtering (R384) -/

/-- A coordinate clamped to ±2^24. -/
def clampCoord (c : Nat) : FVal :=
  let hi : FVal := .fin false 1 24
  let lo : FVal := .fin true 1 24
  if FVal.lt false hi (f32 c) then hi else if FVal.lt false (f32 c) lo then lo else f32 c

/-- The nearest index on an axis. -/
def nearestIndex (c n : Nat) : Int := floorOf (f32 (rne ((clampCoord c).mul (intVal n))))

/-- The lower index of a linear pair and the weight of the upper one. -/
def linearIndex (c n : Nat) : Int × FVal :=
  let x := rne ((clampCoord c).mul (intVal n))
  let sv := f32 (rne ((f32 x).add (.fin true 1 (-1))))
  let i := floorOf sv
  (i, sv.add (intVal (-i)))

/-- Two lists of channels combined. -/
def lerpAll (a b : List Nat) (f : FVal) : List Nat := (a.zip b).map (fun x => lerp x.1 x.2 f)

/-- The sample of one level of a 2D texture. -/
def State.sample2 (s : State) (die asid : Nat) (t : TexDesc) (p : Sampler) (linear : Bool) (l u v : Nat) : Got (List Nat) :=
  let w := levelSize t.w l
  let h := levelSize t.h l
  let at_ := fun i j => s.texel die asid t { p with aw := 2 } l i j 0
  if !linear then at_ (nearestIndex u w) (nearestIndex v h)
  else
    let (i, fu) := linearIndex u w
    let (j, fv) := linearIndex v h
    let row := fun (j : Int) => (at_ i j).andThen (fun a => (at_ (i + 1) j).andThen (fun b => .pure (lerpAll a b fu)))
    (row j).andThen (fun a => (row (j + 1)).andThen (fun b => .pure (lerpAll a b fv)))

/-- The sample of a volume (R384): x, then y, then z. -/
def State.sample3 (s : State) (die asid : Nat) (t : TexDesc) (p : Sampler) (u v w : Nat) : Got (List Nat) :=
  let at_ := s.texel die asid t p 0
  if p.mag = 0 then at_ (nearestIndex u t.w) (nearestIndex v t.h) (nearestIndex w t.d)
  else
    let (i, fu) := linearIndex u t.w
    let (j, fv) := linearIndex v t.h
    let (k, fw) := linearIndex w t.d
    let row := fun (j k : Int) => (at_ i j k).andThen (fun a => (at_ (i + 1) j k).andThen (fun b => .pure (lerpAll a b fu)))
    (row j k).andThen (fun a => (row (j + 1) k).andThen (fun b => (row j (k + 1)).andThen (fun c =>
      (row (j + 1) (k + 1)).andThen (fun d => .pure (lerpAll (lerpAll a b fv) (lerpAll c d fv) fw)))))

/-- The level of detail of a TEX (R384): filter, levels, weight of the second. Of a NaN the level and the weight, of an infinity
the weight are free values (log 4): the spec states none. -/
def lodOf (free : Nat) (t : TexDesc) (p : Sampler) (lod : Nat) : Bool × Nat × Nat × FVal :=
  let lam := f32 (rne ((f32 lod).add (f32 (convert 0 0 10 9 0 false p.bias).1)))
  let top : Int := min p.maxlod (t.levels - 1)
  let fit := fun (x : Int) => (clampTo p.minlod top x).toNat
  let anyF := f32 (Config.freeLane free).toNat
  let magged := FVal.lt false lam (.fin false 0 0) || lam.eq (.fin false 0 0)
  let linear := (if magged then p.mag else p.min) == 1
  let raw : Int := match lam with
    | .nan _ _ => Config.freeChoice free
    | .inf neg => if neg then -1 else 256
    | .fin _ _ _ => if p.mip = 1 then floorOf (lam.add (.fin false 1 (-1))) else floorOf lam
  let f := match lam with
    | .fin _ _ _ => lam.add (intVal (-(floorOf lam)))
    | _ => anyF
  let l0 := if p.mip = 0 then fit p.minlod else fit raw
  (linear, l0, fit ((l0 : Int) + 1), f)

/-- The channels of a TEX lane as f32 patterns (R162, R384). DEDUCED (log 77). -/
def State.texLane (s : State) (free die asid : Nat) (t : TexDesc) (p : Sampler) (u v lod : Nat) : Got (List Nat) :=
  if (f32 u).isNan || (f32 v).isNan then .pure [0, 0, 0, 0]
  else
    let (linear, l0, l1, f) := lodOf free t p lod
    let one := (s.sample2 die asid t p linear l0 u v).andThen (fun a =>
      if p.mip = 2 then (s.sample2 die asid t p linear l1 u v).andThen (fun b => .pure (lerpAll a b f)) else .pure a)
    one.andThen (fun l => .pure ((List.range 4).map (fun ch => if ch < t.channels then l.getD ch 0 else if ch = 3 then 0x3F800000 else 0)))

/-- The value of a TEX3 lane (R163, R384). DEDUCED (log 77). -/
def State.tex3Lane (s : State) (die asid : Nat) (t : TexDesc) (p : Sampler) (u v w : Nat) : Got (List Nat) :=
  if (f32 u).isNan || (f32 v).isNan || (f32 w).isNan then .pure [0] else s.sample3 die asid t p u v w

end Sys2Proof.Machine
end

