-- ==== Sys2Proof/Machine/Engine.lean ====
section
/-!
DEFINITION. Reads and writes of the engines that work for a crew: the operand fetcher, the Infuser and the copy engines (R122, R174,
R191, R195, R344, R433).
-/

namespace Sys2Proof.Machine

/-- Where a translated access of an engine falls. A range that meets a malformed block fails as a poisoned frame (R280). -/
def State.settleTr (s : State) (die : Nat) (t : Tr) (a len kind : Nat) : Fetch (Space × Nat × Att) :=
  match t with
  | .ok pa att => if att.bdb && (s.homeBytes die pa len att).isNone then .bad (causeCode 3 (8 * kind + 6)) a else .ok (.phys, pa, att)
  | .denied r => .held a r
  | .miss => .held a 0
  | .now r => .bad (causeCode 3 (8 * kind + r)) a

/-- Where an engine's access of a crew falls: a space, an address and the page's attributes. `kind` is 6 for a read, 7 for a
write (R252). -/
def State.enginePlace (s : State) (c : Crew) (path a len kind : Nat) : Fetch (Space × Nat × Att) :=
  if path = 0 then s.settleTr c.place.die (s.engineTr c.place.die c.bindRec.asid a kind) a len kind
  else match s.place c path 0 a len with
    | .inl (sp, x) => .ok (sp, x, Att.plain)
    | .inr (k, d) => .bad (causeCode k d) a

/-- Where an access of a step's operand fetch falls (R333). -/
def State.stepPlace (s : State) (c : Crew) (path a len : Nat) : Fetch (Space × Nat × Att) :=
  if path = 0 then s.settleTr c.place.die (s.stepTr c.agent c.bindRec.asid a 6) a len 6 else s.enginePlace c path a len 6

/-- The bytes at a place, as an engine that reads at core scope finds them (R122). -/
def State.placeBytes (s : State) (c : Crew) (sp : Space) (x len : Nat) (att : Att) : List Byte :=
  match sp with
  | .phys => s.coreBytes c.agent x len att
  | other => s.space other x len

/-- A read that stays within one page. -/
def State.fetchBytes (s : State) (c : Crew) (path a len : Nat) : Fetch (List Byte) :=
  (s.enginePlace c path a len 6).andThen (fun x => .ok (s.placeBytes c x.1 x.2.1 len x.2.2))

/-- What a read by an engine leaves behind it: an M holder, of what it read or of an entry of its walk, passes to O (R433), and buffered stores it returned are noted, with the read's class and scope (R305). -/
def State.engineSees (s : State) (oc sc path a len : Nat) : State :=
  match s.enginePlace s.crew path a len 6 with
  | .ok (.phys, pa, _) =>
    let s1 := ({ s with crew := s.noteSeen s.crew oc sc pa len } : State).engineWalked s.crew.place.die s.crew.bindRec.asid a
    if inPod pa then s1 else s1.engineRead pa len
  | _ => s

/-- A read of a range. -/
def State.fetchRange (s : State) (c : Crew) (path a len : Nat) : Fetch (List Byte) :=
  (Fetch.all (fun x => s.fetchBytes c path x.1 x.2) (pagePieces (len / 4096 + 2) a len)).andThen (fun l => .ok l.flatten)

/-- Is an older store to bytes of a range still in its core's buffer? It comes first (R303). -/
def State.behindBuffer (s : State) (core pa len : Nat) : Bool :=
  s.writes.any (fun w => w.core == core && decide (w.pa < pa + len) && decide (pa < w.pa + w.span))

/-- Ranges cut at page ends: each piece with its bytes. -/
def pageParts (l : List (Nat × List Byte)) : List (Nat × List Byte) :=
  l.flatMap (fun q => (pagePieces (q.2.length / 4096 + 2) q.1 q.2.length).map (fun p => (p.1, (q.2.drop (p.1 - q.1)).take p.2)))

/-- Writes of some ranges of a path, all of them or none: every piece is translated, and its home free, before any is stored. -/
def State.storeMany (s : State) (c : Crew) (path : Nat) (l : List (Nat × List Byte)) : Fetch State :=
  (Fetch.all (fun (p : Nat × List Byte) => (s.enginePlace c path p.1 p.2.length 7).andThen (fun x => .ok (x, p))) (pageParts l)).andThen (fun l =>
    if l.any (fun x => x.1.1 == .phys &&
        ((!inPod x.1.2.1 && !s.homesFree x.1.2.1 x.2.2.length) || s.behindBuffer c.agent x.1.2.1 x.2.2.length)) then .busy
    else .ok (l.foldl (fun s x =>
      ((if path = 0 then s.engineWalked c.place.die c.bindRec.asid x.2.1 else s).engineStore c.place.die x.1.1 x.1.2.1 x.2.2).claim
        c.bindRec.asid x.1.1) s))

/-- A write of a range: every piece is translated before any is stored. -/
def State.storeRange (s : State) (c : Crew) (path a : Nat) (bs : List Byte) : Fetch State := s.storeMany c path [(a, bs)]

/-! ## Handles (R191, R344) -/

/-- The handle of an index; none where it names no entry. -/
def Kernel.handle (k : Kernel) (h : Nat) : Option Handle :=
  match k.handles[h]? with
  | some x => if x.ok then some x else none
  | none => none

/-- Is an element of a handle within bounds (R344)? -/
def Handle.within (h : Handle) (r c : Nat) : Bool := decide (r < h.rows) && decide (c < h.cols)

/-- The address of an element: a byte and, for s4, which half of it (R344). -/
def Handle.elemAddr (h : Handle) (r c : Nat) : Nat × Option Bool :=
  if h.type = 0 then
    let n := 2 * h.base + r * (2 * h.pitch) + c
    (n / 2, some (n % 2 == 1))
  else (h.base + r * h.pitch + c * eltBytes h.type, none)

/-- Where an aligned word of a path is kept among those a step has read (R174). -/
def wordKey (sideB : Bool) (path a : Nat) : Nat := ((if sideB then 8 else 0) + path) * 2 ^ 62 + a / 4

/-- The aligned word that holds a byte of a step's operand, read once in the step (R174). `words` holds those read, each plus 1. -/
def State.stepWord (s : State) (c : Crew) (sideB : Bool) (path a : Nat) (words : SMap Nat) : Fetch (Nat × SMap Nat) :=
  let key := wordKey sideB path a
  if SMap.get 0 words key != 0 then .ok (SMap.get 0 words key - 1, words)
  else (s.stepPlace c path (a / 4 * 4) 4).andThen (fun x =>
    let n := leNat (s.placeBytes c x.1 x.2.1 4 x.2.2)
    .ok (n, SMap.set 0 words key (n + 1)))

/-- The words of global memory that a step's second side has read since. -/
def newWords (old new : SMap Nat) : List (Nat × Nat) :=
  (new.filter (fun x => x.1 / 2 ^ 62 == 8 && SMap.get 0 old x.1 == 0)).map (fun x => (x.1 % 2 ^ 62 * 4, 4))

/-- An element of a step's operand, with the words read so far. -/
def State.stepElem (s : State) (c : Crew) (sideB : Bool) (h : Handle) (row col : Nat) (words : SMap Nat) : Fetch (Nat × SMap Nat) :=
  let r := row % 2 ^ 16
  let k := col % 2 ^ 16
  if !h.within r k then .ok (0, words)
  else
    let (a, nib) := h.elemAddr r k
    let bit := 8 * (a % 4) + (if nib = some true then 4 else 0)
    (s.stepWord c sideB h.path a words).andThen (fun x => .ok (x.1 / 2 ^ bit % 2 ^ eltBits h.type, x.2))

/-- The elements of a slice, one after another. -/
def State.stepElems (s : State) (c : Crew) (sideB : Bool) (h : Handle) : List (Nat × Nat) → SMap Nat → Fetch (List Nat × SMap Nat)
  | [], words => .ok ([], words)
  | x :: xs, words =>
    (s.stepElem c sideB h x.1 x.2 words).andThen (fun y =>
      (s.stepElems c sideB h xs y.2).andThen (fun z => .ok (y.1 :: z.1, z.2)))

/-- An element's pattern; outside the bounds it is 0 and is never fetched (R172, R191). -/
def State.handleElem (s : State) (c : Crew) (h : Handle) (row col : Nat) : Fetch Nat :=
  let r := row % 2 ^ 16
  let k := col % 2 ^ 16
  if !h.within r k then .ok 0
  else
    let (a, nib) := h.elemAddr r k
    (s.fetchBytes c h.path a (if h.type = 0 then 1 else eltBytes h.type)).andThen (fun b =>
      match nib with
      | some high => .ok (if high then leNat b / 16 else leNat b % 16)
      | none => .ok (leNat b))

/-- A recoverable fault of an engine of the focused crew posted (R334, R335). -/
def State.engineFault (s : State) (va kind reason : Nat) : State :=
  let c := s.crew
  let (pa, v) := s.lastEntry c.place.die c.bindRec.asid va
  s.postFault c.place.die c.bindRec.asid va kind reason false c.agent pa v

end Sys2Proof.Machine
end

