-- ==== Sys2Proof/Machine/Elementary.lean ====
section
/-!
DEFINITION. The correctly rounded f32 functions of R60 and R61. Results that can be exact are recognised first; every other one
is irrational, so it is computed to far more bits than any case needs, cut off, given a last bit that is set, and rounded once.
-/

namespace Sys2Proof.Machine

/-- Bits of working precision below the binary point. -/
def workBits : Nat := 512

/-- One at the working precision. -/
def one : Nat := 2 ^ workBits

/-- rcp (R60, R61). -/
def rcpF32 (mode c : Nat) : Nat × Flags :=
  match fmtF32.value c with
  | .nan _ s => (fmtF32.cnan, flagIf s nv)
  | .inf n => (fmtF32.zero n, 0)
  | .fin n m e => if m = 0 then (fmtF32.signed n 0x7F800000, ofl)
    else let (q, u) := quotient 1 0 m e; fmtF32.pack mode n q u

/-- sqrt (R60, R61). -/
def sqrtF32 (mode c : Nat) : Nat × Flags :=
  match fmtF32.value c with
  | .nan _ s => (fmtF32.cnan, flagIf s nv)
  | .inf n => if n then (fmtF32.cnan, nv) else (c, 0)
  | .fin n m e => if m = 0 then (c, 0) else if n then (fmtF32.cnan, nv)
    else let (q, u) := rootOf m e; fmtF32.pack mode false q u

/-- rsqrt (R60, R61): the square root of 2^(2k) / m, with the sticky bit where m is no power of four. -/
def rsqrtF32 (mode c : Nat) : Nat × Flags :=
  match fmtF32.value c with
  | .nan _ s => (fmtF32.cnan, flagIf s nv)
  | .inf n => if n then (fmtF32.cnan, nv) else (0, 0)
  | .fin n m e =>
    if m = 0 then (fmtF32.signed n 0x7F800000, ofl)
    else if n then (fmtF32.cnan, nv)
    else
      let odd := e % 2 != 0
      let m1 := if odd then 2 * m else m
      let e1 := if odd then e - 1 else e
      let r := isqrt (2 ^ 200 / m1)
      fmtF32.pack mode false (sticky r (r * r * m1 != 2 ^ 200)) (-(e1 / 2) - 101)

/-- The product of the roots 2^(1/2), 2^(1/4), ... that the bits of `frac` (of which `k` remain, the highest first) select. -/
def exp2Frac : Nat → Nat → Nat → Nat → Nat
  | 0, _, _, acc => acc
  | k + 1, frac, root, acc =>
    let r := isqrt (root * one)
    exp2Frac k frac r (if frac / 2 ^ k % 2 = 1 then acc * r / one else acc)

/-- exp2 (R60, R61). -/
def exp2F32 (mode c : Nat) : Nat × Flags :=
  match fmtF32.value c with
  | .nan _ s => (fmtF32.cnan, flagIf s nv)
  | .inf n => if n then (0, 0) else (c, 0)
  | .fin n m e =>
    if m = 0 then (0x3F800000, 0)
    else if 0 ≤ e then
      -- an integer
      let z : Int := scaled n m (if e < 40 then e else 40) 0
      if 128 ≤ z then (fmtF32.overflow mode false, ofl ||| nx)
      else fmtF32.pack mode false 1 (if z < -400 then -400 else z)
    else
      let k := (-e).toNat
      let x : Int := if n then -(m : Int) else m
      let z := x / 2 ^ k
      let frac := (x % 2 ^ k).toNat
      if 128 ≤ z then (fmtF32.overflow mode false, ofl ||| nx)
      else if z < -400 then fmtF32.pack mode false 3 (-402)
      else if frac = 0 then fmtF32.pack mode false 1 z
      else fmtF32.pack mode false (sticky (exp2Frac k frac (2 * one) one) true) (z - workBits - 1)

/-- The first `k` fraction bits of the base-2 logarithm of y, 1 ≤ y < 2, by squaring; y has 1024 bits below the point. -/
def log2Bits : Nat → Nat → Nat → Nat
  | 0, _, acc => acc
  | k + 1, y, acc =>
    let y2 := y * y / 2 ^ 1024
    if 2 ^ 1025 ≤ y2 then log2Bits k (y2 / 2) (2 * acc + 1) else log2Bits k y2 (2 * acc)

/-- log2 (R60, R61). -/
def log2F32 (mode c : Nat) : Nat × Flags :=
  match fmtF32.value c with
  | .nan _ s => (fmtF32.cnan, flagIf s nv)
  | .inf n => if n then (fmtF32.cnan, nv) else (c, 0)
  | .fin n m e =>
    if m = 0 then (0xFF800000, ofl)
    else if n then (fmtF32.cnan, nv)
    else
      let l := Nat.log2 m
      let z : Int := e + l
      if m = 2 ^ l then fmtF32.pack mode (decide (z < 0)) z.natAbs 0
      else
        let t : Int := z * 2 ^ 250 + log2Bits 250 (m * 2 ^ (1024 - l)) 0
        if 0 ≤ t then fmtF32.pack mode false (sticky t.toNat true) (-251)
        else fmtF32.pack mode true (sticky (t.natAbs - 1) true) (-251)

/-- cos and sin of π times the fraction whose bits are given: angles π/4, π/8, ... are halved and added. `c`, `s` are cos and sin
of the present angle, `ac`, `as` of the sum so far. -/
def turnBits : Nat → Nat → Nat → Nat → Int → Int → Int × Int
  | 0, _, _, _, ac, as => (ac, as)
  | k + 1, frac, c, s, ac, as =>
    let c2 := isqrt ((one + c) * one / 2)
    let s2 := s * one / (2 * c2)
    if frac / 2 ^ k % 2 = 1 then
      turnBits k frac c2 s2 ((ac * c2 - as * s2) / one) ((as * c2 + ac * s2) / one)
    else turnBits k frac c2 s2 ac as

/-- cos πr and sin πr at the working precision for r = frac / 2^(k+1), 0 < r < 1/2: the first halving turns π/2 into π/4. -/
def cosSinPi (k frac : Nat) : Int × Int := turnBits k frac 0 one one 0

/-- The position of |x| modulo 2: quarter 0-3 of half turns, and the fraction of a half turn as (bits, numerator). -/
def quarterOf (m : Nat) (e : Int) : Nat × Nat × Nat :=
  if 0 ≤ e then ((if e = 0 then m % 2 else 0) * 2, 0, 0)
  else
    let k := (-e).toNat
    let r := m % 2 ^ (k + 1)
    -- r / 2^k is in [0, 2); halves are 2^(k-1)
    (2 * r / 2 ^ k, k - 1, if k = 0 then 0 else r % 2 ^ (k - 1))

/-- A fixed-point magnitude rounded, its last bit set. -/
def packWork (mode : Nat) (neg : Bool) (z : Int) : Nat × Flags :=
  fmtF32.pack mode neg (sticky z.natAbs true) (-(workBits : Int) - 1)

/-- sinpi (R60, R61). -/
def sinpiF32 (mode c : Nat) : Nat × Flags :=
  match fmtF32.value c with
  | .nan _ s => (fmtF32.cnan, flagIf s nv)
  | .inf _ => (fmtF32.cnan, nv)
  | .fin n m e =>
    let (q, k, frac) := quarterOf m e
    let neg := n != decide (2 ≤ q)
    if frac = 0 then
      if q % 2 = 0 then (fmtF32.zero n, 0) else (fmtF32.signed neg 0x3F800000, 0)
    else
      let (cs, sn) := cosSinPi k frac
      packWork mode neg (if q % 2 = 0 then sn else cs)

/-- cospi (R60, R61). -/
def cospiF32 (mode c : Nat) : Nat × Flags :=
  match fmtF32.value c with
  | .nan _ s => (fmtF32.cnan, flagIf s nv)
  | .inf _ => (fmtF32.cnan, nv)
  | .fin _ m e =>
    let (q, k, frac) := quarterOf m e
    let neg := q == 1 || q == 2
    if frac = 0 then
      if q % 2 = 1 then (0, 0) else (fmtF32.signed neg 0x3F800000, 0)
    else
      let (cs, sn) := cosSinPi k frac
      packWork mode neg (if q % 2 = 0 then cs else sn)

end Sys2Proof.Machine
end

