-- ==== Sys2Proof/Machine/Scalar.lean ====
section
/-!
DEFINITION. Scalar words on registers: integer, bit and address operations, immediates, compares and floating point (R96-R105).
-/

namespace Sys2Proof.Machine

/-! ## Functions of R99 and R102 -/

/-- The shift amount B[5:0] (R99). -/
def shAmt (b : Word) : Nat := b.toNat % 64

/-- div.s (R99): toward zero; by zero all ones; the overflow case gives the dividend. -/
def divS (a b : Word) : Word := if b = 0 then BitVec.allOnes 64 else a.sdiv b

/-- div.n (R99). -/
def divN (a b : Word) : Word := if b = 0 then BitVec.allOnes 64 else a.udiv b

/-- rem.s (R99): sign of the dividend. -/
def remS (a b : Word) : Word := if b = 0 then a else a.srem b

/-- rem.n (R99). -/
def remN (a b : Word) : Word := if b = 0 then a else a.umod b

/-- mulh.s (R99). -/
def mulhS (a b : Word) : Word := (a.signExtend 128 * b.signExtend 128).extractLsb' 64 64

/-- mulh.n (R99). -/
def mulhN (a b : Word) : Word := (a.zeroExtend 128 * b.zeroExtend 128).extractLsb' 64 64

/-- Leading zero bits among the low `n` of a number. -/
def clzNat (n x : Nat) : Nat := if x = 0 then n else n - 1 - Nat.log2 x

/-- Trailing zero bits among the `n` from bit `i` up. -/
def ctzFrom : Nat → Nat → Nat
  | 0, _ => 0
  | n + 1, x => if x % 2 = 1 then 0 else 1 + ctzFrom n (x / 2)

/-- One bits among the low `n`. -/
def popNat : Nat → Nat → Nat
  | 0, _ => 0
  | n + 1, x => x % 2 + popNat n (x / 2)

/-- The low `n` bits of a number spread `step` apart (R99, R140). -/
def spread (step : Nat) : Nat → Nat → Nat
  | 0, _ => 0
  | n + 1, x => x % 2 + 2 ^ step * spread step n (x / 2)

/-- bilv.2 (R99). -/
def bilv2 (a b : Word) : Word := BitVec.ofNat 64 (spread 2 32 a.toNat + 2 * spread 2 32 b.toNat)

/-- bilv.3 (R99). -/
def bilv3 (a b e : Word) : Word :=
  BitVec.ofNat 64 (spread 3 21 a.toNat + 2 * spread 3 21 b.toNat + 4 * spread 3 21 e.toNat)

/-- BFX (R102): w bits from pos, where w is the field plus one. -/
def bfx (sx : Bool) (a : Word) (pos w : BitVec 6) : Word :=
  let n := w.toNat + 1
  let x : BitVec n := a.extractLsb' pos.toNat n
  if sx then x.signExtend 64 else x.zeroExtend 64

/-- BFI (R102). -/
def bfi (old a : Word) (pos w : BitVec 6) : Word :=
  let ones : Word := BitVec.ofNat 64 (2 ^ (w.toNat + 1) - 1) <<< pos.toNat
  (old &&& ~~~ones) ||| ((a <<< pos.toNat) &&& ones)

/-- The low bits of a register as a floating-point pattern of an FPU format: 0 f32, 1 f16, 2 bf16 (R65, R104). -/
def fpuFmt (f : BitVec 2) : Fmt := if f = 0 then fmtF32 else if f = 1 then fmtF16 else fmtBf16

/-- The pattern an FPU word reads (R104). -/
def fpuBits (f : BitVec 2) (a : Word) : Nat := a.toNat % (if f = 0 then 2 ^ 32 else 2 ^ 16)

/-- The element type code of an FCVT type (R65): s32 s64 n32 n64 f32 f16 bf16. -/
def fcvtCode (t : BitVec 3) : Nat :=
  match t.toNat with
  | 0 => 3
  | 1 => 4
  | 2 => 7
  | 3 => 8
  | 4 => 9
  | 5 => 10
  | _ => 11

/-- FCVT (R105): the source pattern, converted; s32 is sign-extended, the others zero-extended. -/
def fcvtVal (a : Word) (src tgt : BitVec 3) (mode : Nat) (sat : Bool) : Word × Flags :=
  let sc := fcvtCode src
  let tc := fcvtCode tgt
  let (p, fl) := convert 0 0 sc tc mode sat (a.toNat % 2 ^ eltBits sc)
  (if tgt = 0 then (BitVec.ofNat 32 p).signExtend 64 else BitVec.ofNat 64 p, fl)

/-- An FPU word: sources read, value and flags computed, flags ORed and trapped on (R51, R104). -/
def fpuWord (i : Instr) (srcs : List GReg) (d : GReg) (val : Crew → Nat × Flags) (s : State) : Out :=
  onCrew s (fun c => c.scalar i srcs d (fun c =>
    let (r, fl) := val c
    (c.wrG d (BitVec.ofNat 64 r)).advanceFlags fl))

/-! ## Meanings -/

/-- add (R99). -/
def execAdd (d a b : GReg) (s : State) : Out :=
  onCrew s (fun c => c.scalarTo (.add d a b) [a, b] d (fun c => c.rdG a + c.rdG b))

/-- sub (R99). -/
def execSub (d a b : GReg) (s : State) : Out :=
  onCrew s (fun c => c.scalarTo (.sub d a b) [a, b] d (fun c => c.rdG a - c.rdG b))

/-- mul (R99). -/
def execMul (d a b : GReg) (s : State) : Out :=
  onCrew s (fun c => c.scalarTo (.mul d a b) [a, b] d (fun c => c.rdG a * c.rdG b))

/-- mulh.s (R99). -/
def execMulhS (d a b : GReg) (s : State) : Out :=
  onCrew s (fun c => c.scalarTo (.mulhS d a b) [a, b] d (fun c => mulhS (c.rdG a) (c.rdG b)))

/-- mulh.n (R99). -/
def execMulhN (d a b : GReg) (s : State) : Out :=
  onCrew s (fun c => c.scalarTo (.mulhN d a b) [a, b] d (fun c => mulhN (c.rdG a) (c.rdG b)))

/-- A div or rem word: its result is in flight until it lands (R96). -/
def divWord (i : Instr) (d a b : GReg) (f : Word → Word → Word) (s : State) : Out :=
  scalarState s i [a, b] d (fun s =>
    let c := s.crew
    let r : SRes := { id := s.nextId, d := d, kind := .value (f (c.rdG a) (c.rdG b)) }
    .next { s with nextId := s.nextId + 1, crew := ({ c with sres := c.sres ++ [r] } : Crew).advance })

/-- div.s (R99, R96). -/
def execDivS (d a b : GReg) (s : State) : Out := divWord (.divS d a b) d a b divS s

/-- div.n (R99, R96). -/
def execDivN (d a b : GReg) (s : State) : Out := divWord (.divN d a b) d a b divN s

/-- rem.s (R99, R96). -/
def execRemS (d a b : GReg) (s : State) : Out := divWord (.remS d a b) d a b remS s

/-- rem.n (R99, R96). -/
def execRemN (d a b : GReg) (s : State) : Out := divWord (.remN d a b) d a b remN s

/-- and (R99). -/
def execAnd (d a b : GReg) (s : State) : Out :=
  onCrew s (fun c => c.scalarTo (.and d a b) [a, b] d (fun c => c.rdG a &&& c.rdG b))

/-- or (R99). -/
def execOr (d a b : GReg) (s : State) : Out :=
  onCrew s (fun c => c.scalarTo (.or d a b) [a, b] d (fun c => c.rdG a ||| c.rdG b))

/-- xor (R99). -/
def execXor (d a b : GReg) (s : State) : Out :=
  onCrew s (fun c => c.scalarTo (.xor d a b) [a, b] d (fun c => c.rdG a ^^^ c.rdG b))

/-- andn (R99). -/
def execAndn (d a b : GReg) (s : State) : Out :=
  onCrew s (fun c => c.scalarTo (.andn d a b) [a, b] d (fun c => c.rdG a &&& ~~~(c.rdG b)))

/-- sll (R99). -/
def execSll (d a b : GReg) (s : State) : Out :=
  onCrew s (fun c => c.scalarTo (.sll d a b) [a, b] d (fun c => c.rdG a <<< shAmt (c.rdG b)))

/-- srl (R99). -/
def execSrl (d a b : GReg) (s : State) : Out :=
  onCrew s (fun c => c.scalarTo (.srl d a b) [a, b] d (fun c => c.rdG a >>> shAmt (c.rdG b)))

/-- sra (R99). -/
def execSra (d a b : GReg) (s : State) : Out :=
  onCrew s (fun c => c.scalarTo (.sra d a b) [a, b] d (fun c => (c.rdG a).sshiftRight (shAmt (c.rdG b))))

/-- rol (R99). -/
def execRol (d a b : GReg) (s : State) : Out :=
  onCrew s (fun c => c.scalarTo (.rol d a b) [a, b] d (fun c => (c.rdG a).rotateLeft (shAmt (c.rdG b))))

/-- ror (R99). -/
def execRor (d a b : GReg) (s : State) : Out :=
  onCrew s (fun c => c.scalarTo (.ror d a b) [a, b] d (fun c => (c.rdG a).rotateRight (shAmt (c.rdG b))))

/-- minS (R99). -/
def execMinS (d a b : GReg) (s : State) : Out :=
  onCrew s (fun c => c.scalarTo (.minS d a b) [a, b] d (fun c => if (c.rdG b).slt (c.rdG a) then c.rdG b else c.rdG a))

/-- minN (R99). -/
def execMinN (d a b : GReg) (s : State) : Out :=
  onCrew s (fun c => c.scalarTo (.minN d a b) [a, b] d (fun c => if (c.rdG b).ult (c.rdG a) then c.rdG b else c.rdG a))

/-- maxS (R99). -/
def execMaxS (d a b : GReg) (s : State) : Out :=
  onCrew s (fun c => c.scalarTo (.maxS d a b) [a, b] d (fun c => if (c.rdG a).slt (c.rdG b) then c.rdG b else c.rdG a))

/-- maxN (R99). -/
def execMaxN (d a b : GReg) (s : State) : Out :=
  onCrew s (fun c => c.scalarTo (.maxN d a b) [a, b] d (fun c => if (c.rdG a).ult (c.rdG b) then c.rdG b else c.rdG a))

/-- clz (R99). -/
def execClz (d a : GReg) (s : State) : Out :=
  onCrew s (fun c => c.scalarTo (.clz d a) [a] d (fun c => BitVec.ofNat 64 (clzNat 64 (c.rdG a).toNat)))

/-- ctz (R99). -/
def execCtz (d a : GReg) (s : State) : Out :=
  onCrew s (fun c => c.scalarTo (.ctz d a) [a] d (fun c => BitVec.ofNat 64 (ctzFrom 64 (c.rdG a).toNat)))

/-- popc (R99). -/
def execPopc (d a : GReg) (s : State) : Out :=
  onCrew s (fun c => c.scalarTo (.popc d a) [a] d (fun c => BitVec.ofNat 64 (popNat 64 (c.rdG a).toNat)))

/-- bilv.2 (R99). -/
def execBilv2 (d a b : GReg) (s : State) : Out :=
  onCrew s (fun c => c.scalarTo (.bilv2 d a b) [a, b] d (fun c => bilv2 (c.rdG a) (c.rdG b)))

/-- bilv.3, which reads the old g[d] (R99). -/
def execBilv3 (d a b : GReg) (s : State) : Out :=
  onCrew s (fun c => c.scalarTo (.bilv3 d a b) [a, b, d] d (fun c => bilv3 (c.rdG a) (c.rdG b) (c.rdG d)))

/-- adds.k (R99). -/
def execAdds (d a b : GReg) (k : BitVec 3) (s : State) : Out :=
  onCrew s (fun c => c.scalarTo (.adds d a b k) [a, b] d (fun c => c.rdG a + (c.rdG b <<< k.toNat)))

/-- sel.cN: waits on an empty flag, which it leaves full (R99). -/
def execSel (d a b : GReg) (f : CFlag) (s : State) : Out :=
  onCrew s (fun c => c.scalar (.sel d a b f) [a, b] d (fun c =>
    if c.flagFull f then (c.wrG d (if c.flagVal f then c.rdG a else c.rdG b)).advance else c.block .s (.flag f) 0))

/-- CMP (R103): integer conditions on 64 bits, floating-point conditions on the low 32 with their invalid flag. -/
def execCmp (f : CFlag) (a b : GReg) (cond : BitVec 8) (s : State) : Out :=
  onCrew s (fun c => c.scalar (.cmp f a b cond) [a, b] 0 (fun c =>
    if cond.toNat < 8 then (c.setFlag f (intCond cond.toNat (c.rdG a) (c.rdG b))).advance
    else
      let (r, fl) := fltCond cond.toNat ((c.rdG a).toNat % 2 ^ 32) ((c.rdG b).toNat % 2 ^ 32)
      (c.setFlag f r).advanceFlags fl))

/-- addi (R100). -/
def execAddi (d a : GReg) (i : BitVec 14) (s : State) : Out :=
  onCrew s (fun c => c.scalarTo (.addi d a i) [a] d (fun c => c.rdG a + i.signExtend 64))

/-- andi (R100). -/
def execAndi (d a : GReg) (i : BitVec 14) (s : State) : Out :=
  onCrew s (fun c => c.scalarTo (.andi d a i) [a] d (fun c => c.rdG a &&& i.signExtend 64))

/-- ori (R100). -/
def execOri (d a : GReg) (i : BitVec 14) (s : State) : Out :=
  onCrew s (fun c => c.scalarTo (.ori d a i) [a] d (fun c => c.rdG a ||| i.signExtend 64))

/-- xori (R100). -/
def execXori (d a : GReg) (i : BitVec 14) (s : State) : Out :=
  onCrew s (fun c => c.scalarTo (.xori d a i) [a] d (fun c => c.rdG a ^^^ i.signExtend 64))

/-- slli (R100). -/
def execSlli (d a : GReg) (k : BitVec 6) (s : State) : Out :=
  onCrew s (fun c => c.scalarTo (.slli d a k) [a] d (fun c => c.rdG a <<< k.toNat))

/-- srli (R100). -/
def execSrli (d a : GReg) (k : BitVec 6) (s : State) : Out :=
  onCrew s (fun c => c.scalarTo (.srli d a k) [a] d (fun c => c.rdG a >>> k.toNat))

/-- srai (R100). -/
def execSrai (d a : GReg) (k : BitVec 6) (s : State) : Out :=
  onCrew s (fun c => c.scalarTo (.srai d a k) [a] d (fun c => (c.rdG a).sshiftRight k.toNat))

/-- rori (R100). -/
def execRori (d a : GReg) (k : BitVec 6) (s : State) : Out :=
  onCrew s (fun c => c.scalarTo (.rori d a k) [a] d (fun c => (c.rdG a).rotateRight k.toNat))

/-- CMPI (R103). -/
def execCmpi (cond : BitVec 3) (f : CFlag) (a : GReg) (i : BitVec 14) (s : State) : Out :=
  onCrew s (fun c => c.scalar (.cmpi cond f a i) [a] 0 (fun c =>
    (c.setFlag f (intCond cond.toNat (c.rdG a) (i.signExtend 64))).advance))

/-- LIL (R101). -/
def execLil (d : GReg) (i : BitVec 20) (s : State) : Out :=
  onCrew s (fun c => c.scalarTo (.lil d i) [] d (fun _ => i.signExtend 64))

/-- LIH, which reads the old g[d] (R101). -/
def execLih (d : GReg) (i : BitVec 20) (s : State) : Out :=
  onCrew s (fun c => c.scalarTo (.lih d i) [d] d (fun c => (c.rdG d <<< 20) ||| i.zeroExtend 64))

/-- BFX signed (R102). -/
def execBfxS (d a : GReg) (pos w : BitVec 6) (s : State) : Out :=
  onCrew s (fun c => c.scalarTo (.bfxS d a pos w) [a] d (fun c => bfx true (c.rdG a) pos w))

/-- BFX unsigned (R102). -/
def execBfxN (d a : GReg) (pos w : BitVec 6) (s : State) : Out :=
  onCrew s (fun c => c.scalarTo (.bfxN d a pos w) [a] d (fun c => bfx false (c.rdG a) pos w))

/-- BFI, which reads the old g[d] (R102). -/
def execBfi (d a : GReg) (pos w : BitVec 6) (s : State) : Out :=
  onCrew s (fun c => c.scalarTo (.bfi d a pos w) [a, d] d (fun c => bfi (c.rdG d) (c.rdG a) pos w))

/-- FCVT (R105). -/
def execFcvt (d a : GReg) (src tgt rnd : BitVec 3) (sat : BitVec 1) (s : State) : Out :=
  onCrew s (fun c => c.scalar (.fcvt d a src tgt rnd sat) [a] d (fun c =>
    let (r, fl) := fcvtVal (c.rdG a) src tgt (modeOf c.fcsr rnd) (sat == 1)
    (c.wrG d r).advanceFlags fl))

/-- fadd (R104). -/
def execFadd (d a b : GReg) (rnd : BitVec 3) (f : BitVec 2) (s : State) : Out :=
  fpuWord (.fadd d a b rnd f) [a, b] d (fun c =>
    (fpuFmt f).add (modeOf c.fcsr rnd) (fpuBits f (c.rdG a)) (fpuBits f (c.rdG b))) s

/-- fsub (R104). -/
def execFsub (d a b : GReg) (rnd : BitVec 3) (f : BitVec 2) (s : State) : Out :=
  fpuWord (.fsub d a b rnd f) [a, b] d (fun c =>
    (fpuFmt f).sub (modeOf c.fcsr rnd) (fpuBits f (c.rdG a)) (fpuBits f (c.rdG b))) s

/-- fmul (R104). -/
def execFmul (d a b : GReg) (rnd : BitVec 3) (f : BitVec 2) (s : State) : Out :=
  fpuWord (.fmul d a b rnd f) [a, b] d (fun c =>
    (fpuFmt f).mul (modeOf c.fcsr rnd) (fpuBits f (c.rdG a)) (fpuBits f (c.rdG b))) s

/-- ffma: A × B + old D with one rounding (R104). -/
def execFfma (d a b : GReg) (rnd : BitVec 3) (f : BitVec 2) (s : State) : Out :=
  fpuWord (.ffma d a b rnd f) [a, b, d] d (fun c =>
    (fpuFmt f).fma (modeOf c.fcsr rnd) (fpuBits f (c.rdG a)) (fpuBits f (c.rdG b)) (fpuBits f (c.rdG d))) s

/-- fmin (R104, R52). -/
def execFmin (d a b : GReg) (rnd : BitVec 3) (f : BitVec 2) (s : State) : Out :=
  fpuWord (.fmin d a b rnd f) [a, b] d (fun c => (fpuFmt f).minMax false (fpuBits f (c.rdG a)) (fpuBits f (c.rdG b))) s

/-- fmax (R104, R52). -/
def execFmax (d a b : GReg) (rnd : BitVec 3) (f : BitVec 2) (s : State) : Out :=
  fpuWord (.fmax d a b rnd f) [a, b] d (fun c => (fpuFmt f).minMax true (fpuBits f (c.rdG a)) (fpuBits f (c.rdG b))) s

/-- fabs (R104): the sign bit changed, no flags. -/
def execFabs (d a : GReg) (rnd : BitVec 3) (f : BitVec 2) (s : State) : Out :=
  fpuWord (.fabs d a rnd f) [a] d (fun c => ((fpuFmt f).signOp false (fpuBits f (c.rdG a)), 0)) s

/-- fneg (R104): the sign bit changed, no flags. -/
def execFneg (d a : GReg) (rnd : BitVec 3) (f : BitVec 2) (s : State) : Out :=
  fpuWord (.fneg d a rnd f) [a] d (fun c => ((fpuFmt f).signOp true (fpuBits f (c.rdG a)), 0)) s

end Sys2Proof.Machine
end

