-- ==== Sys2Proof/Machine/Vector.lean ====
section
/-!
DEFINITION. Vector words on lanes: arithmetic, bit words, conversion, elementary functions, compares, masks, moves, permutes and
reductions (R135-R151).
-/

namespace Sys2Proof.Machine

/-! ## Control words (R148) -/

/-- BRF of the vector stream (R148). -/
def execVBrf (gap : BitVec 4) (wait : BitVec 8) (f : CFlag) (take sense : BitVec 1) (off : BitVec 18) (s : State) : Out :=
  onCrew s.settledV (fun c => c.branch .v (.vBrf gap wait f take sense off) gap wait f take sense off)

/-- RDV of the vector stream (R148, R22). -/
def execVRdv (gap : BitVec 4) (wait : BitVec 8) (s : State) : Out :=
  onCrew s.settledV (fun c => c.finish .v (.vRdv gap wait) gap wait)

/-- HALT of the vector stream (R148, R22). -/
def execVHalt (gap : BitVec 4) (wait : BitVec 8) (s : State) : Out :=
  onCrew s.settledV (fun c => c.finish .v (.vHalt gap wait) gap wait)

/-! ## Source modifiers (R135) -/

/-- A floating-point pattern of `w` bits with na and nab. -/
def fltMod (w : Nat) (na nab : Bool) (p : Nat) : Nat :=
  let half := 2 ^ (w - 1)
  let x := p % 2 ^ w
  if !na then x else if nab then x % half else if x < half then x + half else x - half

/-- An exact integer with na and nab. -/
def intMod (na nab : Bool) (z : Int) : Int := if !na then z else if nab then (z.natAbs : Int) else -z

/-- The exact integer of a lane of s32 or n32. -/
def laneInt (ty : BitVec 5) (x : Lane) : Int := if ty = 3 then x.toInt else (x.toNat : Int)

/-- The format of a floating-point lane type (R138). -/
def laneFmt (ty : BitVec 5) : Fmt := if ty = 9 then fmtF32 else if ty = 10 then fmtF16 else fmtBf16

/-- Width of a lane type. -/
def laneWidth (ty : BitVec 5) : Nat := eltBits ty.toNat

/-- A wrapped or saturated result (R139). -/
def laneClip (ty : BitVec 5) (sat : Bool) (e : Int) : Lane :=
  BitVec.ofNat 32 (patOf 32 (if sat then (clampInt (eltRange (if ty = 3 then .sInt 32 else .nInt 32)) e).1 else e))

/-! ## Arithmetic (R138, R139) -/

/-- One lane of a word of layout A: the floating-point operation on patterns, or the integer operation on exact values. -/
def arithLane (f : VArith) (two readsD : Bool) (flt : Fmt → Nat → Nat → Nat → Nat → Nat × Flags) (int : Int → Int → Int → Int)
    (c : Crew) (n k j : Nat) : Lane × Flags :=
  let nab := f.nab == 1
  let a := c.src n f.a k j
  let b := if two then c.src (n + 1) f.b k j else 0
  let d := if readsD then c.src (n + 2) f.d k j else 0
  if isFpTy f.ty then
    let w := laneWidth f.ty
    let (r, fl) := flt (laneFmt f.ty) (modeOf c.fcsr f.rnd) (fltMod w (f.a.na == 1) nab a.toNat)
      (fltMod w (f.b.na == 1) nab b.toNat) (d.toNat % 2 ^ w)
    (BitVec.ofNat 32 r, fl)
  else
    let x := intMod (f.a.na == 1) nab (laneInt f.ty a)
    let y := intMod (f.b.na == 1) nab (laneInt f.ty b)
    (laneClip f.ty (f.sat == 1) (int x y (laneInt f.ty d)), 0)

/-- A word of layout A on lanes. -/
def arithWord (i : Instr) (f : VArith) (two readsD : Bool) (fpLat intLat : Nat) (flt : Fmt → Nat → Nat → Nat → Nat → Nat × Flags)
    (int : Int → Int → Int → Int) (s : State) : Out :=
  laneWord i f.h f.d (if two then [f.a, f.b] else [f.a]) readsD (if isFpTy f.ty then fpLat else intLat)
    (arithLane f two readsD flt int) s

/-- One lane of VMIN or VMAX: an integer result is taken modulo 2^32 whatever sat holds (R139). DEDUCED (log 105). -/
def minMaxLane (f : VArith) (isMax : Bool) : Crew → Nat → Nat → Nat → Lane × Flags :=
  arithLane { f with sat := 0 } true false (fun t _ x y _ => t.minMax isMax x y) (fun x y _ => if isMax then max x y else min x y)

/-- VADD (R138, R139). -/
def execVadd (f : VArith) (s : State) : Out :=
  arithWord (.vadd f) f true false 6 4 (fun t m x y _ => t.add m x y) (fun x y _ => x + y) s

/-- VSUB (R138, R139). -/
def execVsub (f : VArith) (s : State) : Out :=
  arithWord (.vsub f) f true false 6 4 (fun t m x y _ => t.sub m x y) (fun x y _ => x - y) s

/-- VMUL (R138, R139). -/
def execVmul (f : VArith) (s : State) : Out :=
  arithWord (.vmul f) f true false 6 6 (fun t m x y _ => t.mul m x y) (fun x y _ => x * y) s

/-- VFMA (R138): one rounding. -/
def execVfma (f : VArith) (s : State) : Out :=
  arithWord (.vfma f) f true true 6 6 (fun t m x y z => t.fma m x y z) (fun x y z => x * y + z) s

/-- VMIN (R52, R138, R139). -/
def execVmin (f : VArith) (s : State) : Out :=
  laneWord (.vmin f) f.h f.d [f.a, f.b] false (if isFpTy f.ty then 6 else 4) (minMaxLane f false) s

/-- VMAX (R52, R138, R139). -/
def execVmax (f : VArith) (s : State) : Out :=
  laneWord (.vmax f) f.h f.d [f.a, f.b] false (if isFpTy f.ty then 6 else 4) (minMaxLane f true) s

/-- VABS (R138, R139). -/
def execVabs (f : VArith) (s : State) : Out :=
  arithWord (.vabs f) f false false 6 4 (fun t _ x _ _ => (t.signOp false x, 0)) (fun x _ _ => (x.natAbs : Int)) s

/-- VNEG (R138, R139). -/
def execVneg (f : VArith) (s : State) : Out :=
  arithWord (.vneg f) f false false 6 4 (fun t _ x _ _ => (t.signOp true x, 0)) (fun x _ _ => -x) s

/-- VMULH (R139). -/
def execVmulh (f : VArith) (s : State) : Out :=
  arithWord (.vmulh f) f true false 6 6 (fun _ _ _ _ _ => (0, 0)) (fun x y _ => x * y / 2 ^ 32) s

/-- VMAD (R139). -/
def execVmad (f : VArith) (s : State) : Out :=
  arithWord (.vmad f) f true true 6 6 (fun _ _ _ _ _ => (0, 0)) (fun x y z => x * y + z) s

/-! ## Bit words (R140) -/

/-- One lane of a word of layout L: 32-bit patterns a, b, old d and imm5. -/
def bitLane (f : VImm) (two readsD : Bool) (op : Lane → Lane → Lane → Nat → Lane) (c : Crew) (n k j : Nat) : Lane × Flags :=
  (op (c.src n f.a k j) (if two then c.src (n + 1) f.b k j else 0) (if readsD then c.src (n + 2) f.d k j else 0) f.imm.toNat, 0)

/-- A word of layout L on lanes. -/
def bitWord (i : Instr) (f : VImm) (two readsD : Bool) (lat : Nat) (op : Lane → Lane → Lane → Nat → Lane) (s : State) : Out :=
  laneWord i f.h f.d (if two then [f.a, f.b] else [f.a]) readsD lat (bitLane f two readsD op) s

/-- VSHL (R140). -/
def execVshl (f : VImm) (s : State) : Out := bitWord (.vshl f) f false false 4 (fun a _ _ n => a <<< n) s

/-- VSHR (R140): arithmetic for s32. -/
def execVshr (f : VImm) (s : State) : Out :=
  bitWord (.vshr f) f false false 4 (fun a _ _ n => if f.ty = 3 then a.sshiftRight n else a >>> n) s

/-- VROT (R140). -/
def execVrot (f : VImm) (s : State) : Out := bitWord (.vrot f) f false false 4 (fun a _ _ n => a.rotateLeft n) s

/-- VAND (R140). -/
def execVand (f : VImm) (s : State) : Out := bitWord (.vand f) f true false 4 (fun a b _ _ => a &&& b) s

/-- VOR (R140). -/
def execVor (f : VImm) (s : State) : Out := bitWord (.vor f) f true false 4 (fun a b _ _ => a ||| b) s

/-- VXOR (R140). -/
def execVxor (f : VImm) (s : State) : Out := bitWord (.vxor f) f true false 4 (fun a b _ _ => a ^^^ b) s

/-- VANDN (R140). -/
def execVandn (f : VImm) (s : State) : Out := bitWord (.vandn f) f true false 4 (fun a b _ _ => a &&& ~~~b) s

/-- VCLZ (R140). -/
def execVclz (f : VImm) (s : State) : Out :=
  bitWord (.vclz f) f false false 4 (fun a _ _ _ => BitVec.ofNat 32 (clzNat 32 a.toNat)) s

/-- VPOPC (R140). -/
def execVpopc (f : VImm) (s : State) : Out :=
  bitWord (.vpopc f) f false false 4 (fun a _ _ _ => BitVec.ofNat 32 (popNat 32 a.toNat)) s

/-- VBILV, two-way (R140). -/
def execVbilvTwo (f : VImm) (s : State) : Out :=
  bitWord (.vbilvTwo f) f true false 4 (fun a b _ _ => BitVec.ofNat 32 (spread 2 16 a.toNat + 2 * spread 2 16 b.toNat)) s

/-- VBILV, three-way (R140). -/
def execVbilvThree (f : VImm) (s : State) : Out :=
  bitWord (.vbilvThree f) f true true 4 (fun a b d _ =>
    BitVec.ofNat 32 (spread 3 10 a.toNat + 2 * spread 3 10 b.toNat + 4 * spread 3 10 d.toNat)) s

/-! ## Conversion and elementary functions (R141, R142) -/

/-- One lane of a VCVT. -/
def cvtLane (f : VCvtF) (c : Crew) (n k j : Nat) : Lane × Flags :=
  let (r, fl) := convert (fcsrB8d0 c.fcsr) (fcsrB8d1 c.fcsr) f.sty.toNat f.ty.toNat (modeOf c.fcsr f.rnd) (f.sat == 1)
    ((c.src n f.a k j).toNat % 2 ^ eltBits f.sty.toNat)
  (laneOf f.ty.toNat r, fl)

/-- VCVT (R53-R55, R141). -/
def execVcvt (f : VCvtF) (s : State) : Out := laneWord (.vcvt f) f.h f.d [f.a] false 6 (cvtLane f) s

/-- One lane of an elementary function of f32 (R60, R61). -/
def funcLane (f : VArith) (fn : Nat → Nat → Nat × Flags) (c : Crew) (n k j : Nat) : Lane × Flags :=
  let (r, fl) := fn (modeOf c.fcsr f.rnd) (fltMod 32 (f.a.na == 1) (f.nab == 1) (c.src n f.a k j).toNat)
  (BitVec.ofNat 32 r, fl)

/-- An elementary function of f32 (R60, R61). -/
def funcWord (i : Instr) (f : VArith) (lat : Nat) (fn : Nat → Nat → Nat × Flags) (s : State) : Out :=
  laneWord i f.h f.d [f.a] false lat (funcLane f fn) s

/-- VRCP (R142). -/
def execVrcp (f : VArith) (s : State) : Out := funcWord (.vrcp f) f 16 rcpF32 s

/-- VRSQRT (R142). -/
def execVrsqrt (f : VArith) (s : State) : Out := funcWord (.vrsqrt f) f 16 rsqrtF32 s

/-- VSQRT (R142). -/
def execVsqrt (f : VArith) (s : State) : Out := funcWord (.vsqrt f) f 16 sqrtF32 s

/-- VEXP2 (R142). -/
def execVexp2 (f : VArith) (s : State) : Out := funcWord (.vexp2 f) f 20 exp2F32 s

/-- VLOG2 (R142). -/
def execVlog2 (f : VArith) (s : State) : Out := funcWord (.vlog2 f) f 20 log2F32 s

/-- VSINPI (R142). -/
def execVsinpi (f : VArith) (s : State) : Out := funcWord (.vsinpi f) f 24 sinpiF32 s

/-- VCOSPI (R142). -/
def execVcospi (f : VArith) (s : State) : Out := funcWord (.vcospi f) f 24 cospiF32 s

/-! ## Compares and masks (R143-R146) -/

/-- A mask result under the mask modes (R133): inactive bits kept or zero. -/
def maskResult (h : VHdr) (act old val : Lane) : Lane :=
  (val &&& act) ||| (if h.mmode = 1 then old &&& ~~~act else 0)

/-- The bits of 32 lanes. -/
def bitsOfLanes (p : Nat → Bool) : Lane := BitVec.ofNat 32 ((List.range 32).foldl (fun x j => x + if p j then 2 ^ j else 0) 0)

/-- The masks a VCMP writes. -/
def cmpMasks (f : VCmpF) : List Nat := (List.range (f.h.grp.toNat + 1)).map (opReg f.d)

/-- What a VCMP names. -/
def cmpUse (f : VCmpF) : VUse := { srcs := [f.a, f.b], dregs := [], sregs := [], dmasks := cmpMasks f, dst := none }

/-- One lane of a VCMP: does the condition hold, and its flags. -/
def cmpLane (f : VCmpF) (c : Crew) (n k j : Nat) : Bool × Flags :=
  let nab := f.nab == 1
  let w := laneWidth f.ty
  let a := c.src n f.a k j
  let b := c.src (n + 1) f.b k j
  if isFpTy f.ty then
    laneFltCond f.cond.toNat ((laneFmt f.ty).value (fltMod w (f.a.na == 1) nab a.toNat))
      ((laneFmt f.ty).value (fltMod w (f.b.na == 1) nab b.toNat))
  else
    (laneIntCond f.cond.toNat (intMod (f.a.na == 1) nab (laneInt f.ty a)) (intMod (f.b.na == 1) nab (laneInt f.ty b)), 0)

/-- The effect of a VCMP. -/
def cmpEff (f : VCmpF) (c : Crew) (free : Nat) : VEff :=
  let act := c.activeLanes (free + 50000) f.h
  let one := fun (k j : Nat) => cmpLane f c (free + 1024 * k + 32 * j) k j
  let ks := List.range (f.h.grp.toNat + 1)
  { lanes := []
    masks := ks.map (fun k =>
      (opReg f.d k, maskResult f.h act (c.readMask (free + 50001 + k) (opReg f.d k)) (bitsOfLanes (fun j => (one k j).1))))
    shared := none
    flag := none
    flags := ks.foldl (fun x k => (lanesOf act).foldl (fun x j => x ||| (one k j).2) x) (0 : Flags) }

/-- VCMP (R143). -/
def execVcmp (f : VCmpF) (s : State) : Out := windowWord (.vcmp f) f.h (cmpUse f) 4 (cmpEff f) s

/-- What a VMLOG names. -/
def mlogUse (f : VImm) : VUse := { srcs := [], dregs := [], sregs := [], dmasks := [f.d.idx.toNat], dst := none }

/-- The effect of a VMLOG. -/
def mlogEff (f : VImm) (two : Bool) (op : Lane → Lane → Lane) (c : Crew) (free : Nat) : VEff :=
  let d := f.d.idx.toNat
  let a := c.readMask (free + 1) f.a.idx.toNat
  let b := if two then c.readMask (free + 2) f.b.idx.toNat else 0
  { lanes := [], masks := [(d, maskResult f.h (c.activeLanes free f.h) (c.readMask (free + 3) d) (op a b))], shared := none, flag := none,
    flags := 0 }

/-- VMLOG (R144). -/
def mlogWord (i : Instr) (f : VImm) (two : Bool) (op : Lane → Lane → Lane) (s : State) : Out :=
  windowWord i f.h (mlogUse f) 4 (mlogEff f two op) s

/-- vmlog.and (R144). -/
def execVmlogAnd (f : VImm) (s : State) : Out := mlogWord (.vmlogAnd f) f true (fun a b => a &&& b) s

/-- vmlog.or (R144). -/
def execVmlogOr (f : VImm) (s : State) : Out := mlogWord (.vmlogOr f) f true (fun a b => a ||| b) s

/-- vmlog.xor (R144). -/
def execVmlogXor (f : VImm) (s : State) : Out := mlogWord (.vmlogXor f) f true (fun a b => a ^^^ b) s

/-- vmlog.andn (R144). -/
def execVmlogAndn (f : VImm) (s : State) : Out := mlogWord (.vmlogAndn f) f true (fun a b => a &&& ~~~b) s

/-- vmlog.not (R144). -/
def execVmlogNot (f : VImm) (s : State) : Out := mlogWord (.vmlogNot f) f false (fun a _ => ~~~a) s

/-- vmlog.mov (R144). -/
def execVmlogMov (f : VImm) (s : State) : Out := mlogWord (.vmlogMov f) f false (fun a _ => a) s

/-- The shared scalar a d field names (R76). -/
def destG (o : VOpd) : GReg := BitVec.ofNat 6 (o.idx.toNat - 640)

/-- What a word names that writes a flag, or a shared scalar in its d field. -/
def postUse (srcs : List VOpd) (d : Option VOpd) : VUse := { srcs := srcs, dregs := [], sregs := [], dmasks := [], dst := d }

/-- The effect of a word that writes a shared scalar. -/
def VEff.toShared (r : GReg) (w : Word) : VEff := { lanes := [], masks := [], shared := some (r, w), flag := none, flags := 0 }

/-- VMPOP (R145). -/
def mpopEff (f : VImm) (c : Crew) (n : Nat) : VEff :=
  VEff.toShared (destG f.d) (BitVec.ofNat 64 (popNat 32 (c.activeLanes n f.h &&& c.readMask (n + 1) f.a.idx.toNat).toNat))

/-- VSIG (R146): the flag is 1 where no active lane's bit is set. -/
def sigEff (f : VImm) (c : Crew) (n : Nat) : VEff :=
  { lanes := [], masks := [], shared := none
    flag := some (f.imm.truncate 3, (c.activeLanes n f.h &&& c.readMask (n + 1) f.a.idx.toNat) == 0), flags := 0 }

/-- VTOS (R145): the lowest active lane; nothing where none is active. -/
def tosEff (f : VImm) (c : Crew) (n : Nat) : VEff :=
  match lanesOf (c.activeLanes n f.h) with
  | j :: _ => VEff.toShared (destG f.d) ((c.src (n + 1) f.a 0 j).zeroExtend 64)
  | [] => VEff.ofLanes [] 0

/-- VMPOP (R145). -/
def execVmpop (f : VImm) (s : State) : Out := windowWord (.vmpop f) f.h (postUse [] (some f.d)) 8 (mpopEff f) s

/-- VSIG (R146). -/
def execVsig (f : VImm) (s : State) : Out := windowWord (.vsig f) f.h (postUse [] none) 8 (sigEff f) s

/-- VTOS (R145). -/
def execVtos (f : VImm) (s : State) : Out := windowWord (.vtos f) f.h (postUse [f.a] (some f.d)) 8 (tosEff f) s

/-! ## Moves, permutes, reductions (R147, R150, R151) -/

/-- One lane of a VSEL. -/
def selLane (f : VImm) (c : Crew) (n k j : Nat) : Lane × Flags :=
  (if (c.readMask (n + 2) f.imm.toNat).getLsbD j then c.src n f.a k j else c.src (n + 1) f.b k j, 0)

/-- VSEL (R147). -/
def execVsel (f : VImm) (s : State) : Out := laneWord (.vsel f) f.h f.d [f.a, f.b] false 4 (selLane f) s

/-- VMOV (R147). -/
def execVmov (f : VImm) (s : State) : Out := bitWord (.vmov f) f false false 4 (fun a _ _ _ => a) s

/-- One lane of a permutation: the lane of the source it comes from (R150). -/
def permLane (f : VImm) (from_ : Crew → Nat → Nat → Nat → Nat) (c : Crew) (n k j : Nat) : Lane × Flags := (c.src n f.a k (from_ c n k j), 0)

/-- VSHUF (R150). -/
def execVshuf (f : VImm) (s : State) : Out :=
  laneWord (.vshuf f) f.h f.d [f.a, f.b] false 8 (permLane f (fun c n k j => (c.src (n + 1) f.b k j).toNat % 32)) s

/-- VROTL (R150). -/
def execVrotl (f : VImm) (s : State) : Out :=
  laneWord (.vrotl f) f.h f.d [f.a] false 8 (permLane f (fun _ _ _ j => (j + f.imm.toNat) % 32)) s

/-- VBCAST (R150). -/
def execVbcast (f : VImm) (s : State) : Out :=
  laneWord (.vbcast f) f.h f.d [f.a] false 8 (permLane f (fun _ _ _ _ => f.imm.toNat)) s

/-- One level of the pairwise tree (R151): neighbours combined, an empty side passing the other. -/
def combLevel (comb : Lane → Lane → Lane × Flags) : List (Option Lane) → List (Option Lane) × Flags
  | a :: b :: rest =>
    let (l, f) := combLevel comb rest
    match a, b with
    | some x, some y =>
      let (r, g) := comb x y
      (some r :: l, f ||| g)
    | some x, none => (some x :: l, f)
    | none, y => (y :: l, f)
  | l => (l, 0)

/-- The tree of `n` levels. -/
def combTree (comb : Lane → Lane → Lane × Flags) : Nat → List (Option Lane) → Option Lane × Flags
  | 0, l => (l.headD none, 0)
  | n + 1, l =>
    let (l1, f) := combLevel comb l
    let (r, g) := combTree comb n l1
    (r, f ||| g)

/-- The tree of one register of a VRED's group over the active lanes (R151). -/
def redTree (f : VImm) (comb : Lane → Lane → Lane × Flags) (c : Crew) (free : Nat) (act : Lane) (k : Nat) : Option Lane × Flags :=
  combTree comb 5 ((List.range 32).map (fun j => if act.getLsbD j then some (c.src (free + 1024 * k + 32 * j) f.a k j) else none))

/-- The effect of a VRED (R151): nothing is written where no lane is active. -/
def redEff (f : VImm) (comb : Lane → Lane → Lane × Flags) (c : Crew) (free : Nat) : VEff :=
  let act := c.activeLanes (free + 50000) f.h
  if act = 0 then VEff.ofLanes [] 0
  else
    let trees := (List.range (f.h.grp.toNat + 1)).map (redTree f comb c free act)
    let (l, _) := groupLanes f.h act f.d (fun k _ => (((trees.getD k (none, 0)).1).getD 0, 0))
    VEff.ofLanes l (trees.foldl (fun x t => x ||| t.2) 0)

/-- VRED (R151). -/
def redWord (i : Instr) (f : VImm) (comb : Lane → Lane → Lane × Flags) (s : State) : Out :=
  windowWord i f.h (laneUse f.h f.d [f.a] false) 12 (redEff f comb) s

/-- The minimum or maximum of two lanes in a type (R151). -/
def laneMinMax (ty : BitVec 5) (isMax : Bool) (a b : Lane) : Lane × Flags :=
  if ty = 9 then
    let (r, f) := fltMinMax isMax a.toNat b.toNat
    (BitVec.ofNat 32 r, f)
  else
    let below := decide (laneInt ty a ≤ laneInt ty b)
    (if below == isMax then b else a, 0)

/-- vred.add (R151): f32 rounds to nearest even. -/
def execVredAdd (f : VImm) (s : State) : Out :=
  redWord (.vredAdd f) f (fun a b =>
    if f.ty = 9 then
      let (r, fl) := fmtF32.add 0 a.toNat b.toNat
      (BitVec.ofNat 32 r, fl)
    else (a + b, 0)) s

/-- vred.min (R151). -/
def execVredMin (f : VImm) (s : State) : Out := redWord (.vredMin f) f (laneMinMax f.ty false) s

/-- vred.max (R151). -/
def execVredMax (f : VImm) (s : State) : Out := redWord (.vredMax f) f (laneMinMax f.ty true) s

end Sys2Proof.Machine
end

