-- ==== Sys2Proof/Machine/CopyJob.lean ====
section
/-!
DEFINITION. Copy-engine jobs: their operands and checks (R189-R195), their footprints (R198) and what they do (R199-R209).
-/

namespace Sys2Proof.Machine

/-! ## Operands (R189-R192) -/

/-- A place: path and address; none where the path or a reserved bit is wrong (R190). -/
def placeOf (w : Word) : Option (Nat × Nat) :=
  let p := w.toNat / 2 ^ 61
  if p ≤ 4 ∧ w.toNat / 2 ^ 56 % 32 = 0 then some (p, w.toNat % 2 ^ 56) else none

/-- A place, or address 0 of path 0 where it names none; read only after the checks. -/
def placeOr (w : Word) : Nat × Nat := (placeOf w).getD (0, 0)

/-- The KR operands of a copy word. -/
def krOf : Instr → Option KR
  | .cpyKr _ o | .cpysg _ o | .cpymcKr _ o | .scatNative _ o | .scatStrain _ _ o | .gath _ o | .collAllred _ _ o | .collRedsc _ _ o
  | .collGath _ _ o | .xfmTr _ o | .xfmCvt _ o | .xfmBdb _ o | .xfmPsum _ o | .jsub _ o | .dqpushKr _ _ o | .dqpopKr _ _ o | .sqgo _ o => some o
  | _ => none

/-- The KH operands of a copy word. -/
def khOf : Instr → Option KH
  | .cpyKh _ o | .cpymcKh _ o | .dqpushKh _ _ o | .dqpopKh _ _ o => some o
  | _ => none

/-- The header of a copy word. -/
def hdrOf : Instr → KHdr
  | .cpyKh h _ | .cpyKr h _ | .cpysg h _ | .cpymcKh h _ | .cpymcKr h _ | .scatNative h _ | .scatStrain h _ _ | .gath h _
  | .collAllred h _ _ | .collRedsc h _ _ | .collGath h _ _ | .xfmTr h _ | .xfmCvt h _ | .xfmBdb h _ | .xfmPsum h _ | .jsub h _
  | .dqpushKh h _ _ | .dqpushKr h _ _ | .dqpopKh h _ _ | .dqpopKr h _ _ | .sqgo h _ => h
  | _ => { gap := 0, wait := 0, sig := 0, path := 0, oc := 0 }

/-- The shared scalars a copy word reads (R189, R191). -/
def jobScalars (i : Instr) : List GReg :=
  (match i with
   | .cpyKh _ _ | .dqpopKh _ _ _ => [63]
   | .cpymcKh _ _ => [62, 63]
   | _ => []) ++
  (match i, krOf i with
   | .jsub _ _, some o | .sqgo _ _, some o => [o.ga]
   | _, some o => ([o.ga, o.gb, o.gc].filter (· != 0))
   | _, none => [])

/-- The length of a KR word (R192). -/
def Job.length (j : Job) : Nat :=
  match krOf j.ins with
  | some o => j.c.toNat + o.imm.toNat
  | none => 0

/-- imm40 of a KR word. -/
def Job.imm (j : Job) : Nat :=
  match krOf j.ins with
  | some o => o.imm.toNat
  | none => 0

/-- The path field's memory. -/
def Job.path (j : Job) : Nat := (hdrOf j.ins).path.toNat

/-- The length of a CPYMC in KR form (R200). -/
def Job.mcLength (j : Job) : Nat := j.c.toNat + j.imm % 2 ^ 32

/-- The cores of a CPYMC's mask (R191, R200). DEDUCED (log 91). -/
def Job.mcCores (j : Job) : List Nat :=
  let m := match j.ins with
    | .cpymcKh _ _ => j.g62.toNat % 256
    | _ => j.imm / 2 ^ 32
  (List.range 8).filter (fun n => m / 2 ^ n % 2 == 1)

/-- Element size in bits of a type, s4 included. -/
def Job.type (j : Job) : Nat := j.imm / 2 ^ 35

/-- Elements per row of a handle region (R191). -/
def regionW (o : KH) : Nat := 32 * (o.nx.toNat + 1)

/-- The coordinates of a region, row-major (R191). -/
def regionCoords (o : KH) : List (Nat × Nat) :=
  (List.range (o.mx.toNat + 1)).flatMap (fun i => (List.range (regionW o)).map (fun e =>
    ((o.row.toNat + i) % 2 ^ 16, (o.col.toNat + e) % 2 ^ 16)))

/-- The rows of a region (R191). -/
def regionRows (o : KH) : List Nat := (List.range (o.mx.toNat + 1)).map (fun i => (o.row.toNat + i) % 2 ^ 16)

/-- Bytes of a region's packed image (R191). -/
def imageBytes (h : Handle) (o : KH) : Nat := (o.mx.toNat + 1) * regionW o * eltBits h.type / 8

/-- Nibbles packed in pairs, the lower first. -/
def packNibbles : List Nat → List Byte
  | a :: b :: rest => BitVec.ofNat 8 (a % 16 + 16 * (b % 16)) :: packNibbles rest
  | [a] => [BitVec.ofNat 8 (a % 16)]
  | [] => []

/-- Elements of a region, each as bytes, packed; a nibble comes as a byte (R191). -/
def packRegion (ty : Nat) (l : List (List Byte)) : List Byte := if ty = 0 then packNibbles (l.map leNat) else l.flatten

/-- An element of a region as bytes (R191). -/
def State.elemBytes (s : State) (c : Crew) (h : Handle) (x : Nat × Nat) : Fetch (List Byte) :=
  (s.handleElem c h x.1 x.2).andThen (fun v => .ok (leBytes (max 1 (eltBytes h.type)) v))

/-! ## Checks before issue (R190-R195) -/

/-- A cause before issue: class, detail, tval. -/
abbrev Cause := Nat × Nat × Nat

/-- A cause where something is broken. -/
def ck (broken : Bool) (cls detail tval : Nat) : List Cause := if broken then [(cls, detail, tval)] else []

/-- Where a cause stands among the checks before issue, in the order in which R195 lists them: places and lengths, handle indices,
alignment, bounds, the die link; the causes of class 5 come last. DEDUCED (log 34). -/
def causeRank (cls detail : Nat) : Nat :=
  if cls < 4 then cls
  else if cls = 4 then (if detail = 5 then 4 else if detail = 6 then 5 else if detail = 3 then 6 else if detail = 0 then 7 else 8)
  else if cls = 6 then 9
  else 10 + detail

/-- The cause that comes first. DEDUCED (log 34). -/
def leastCause : List Cause → Option Cause
  | [] => none
  | x :: xs =>
    match leastCause xs with
    | none => some x
    | some y => if causeRank y.1 y.2.1 < causeRank x.1 x.2.1 then some y else some x

/-- A local range of a place (R195). -/
def State.rangeCk (s : State) (c : Crew) (path a len : Nat) : List Cause :=
  if path = 0 ∨ len = 0 then []
  else match s.place c path 0 a len with
    | .inl _ => []
    | .inr (k, d) => [(k, d, a)]

/-- An address aligned (R195). -/
def alignCk (a n : Nat) : List Cause := ck (n != 0 && a % n != 0) 4 0 a

/-- A place operand with its paths, alignment and range. -/
def State.placeCk (s : State) (c : Crew) (w : Word) (paths : List Nat) (align len : Nat) : List Cause :=
  match placeOf w with
  | none => [(4, 5, 0)]
  | some (p, a) => if !paths.contains p then [(4, 5, 0)] else alignCk a align ++ s.rangeCk c p a len

/-- A plain address on the word's path (R190). -/
def State.plainCk (s : State) (c : Crew) (path : Nat) (w : Word) (align len : Nat) : List Cause :=
  if 2 ^ 56 ≤ w.toNat then [(4, 5, 0)] else alignCk w.toNat align ++ s.rangeCk c path w.toNat len

/-- The paths of a place. -/
def anyPath : List Nat := [0, 1, 2, 3, 4]

/-- The element size a type aligns to: 1 byte for s4. -/
def alignOf (ty : Nat) : Nat := max 1 (eltBytes ty)

/-- The die link, for an access whose address is found as its job reaches it (R195). -/
def State.linkCk (s : State) (path a n : Nat) : List Cause := ck (path == 2 && n != 0 && !s.linkUp) 6 0 a

/-- A handle source: each row that holds an element, aligned (R191, R195). -/
def State.regionCk (s : State) (c : Crew) (h : Handle) (o : KH) : List Cause :=
  (regionRows o).flatMap (fun r => if decide (r < h.rows) then alignCk (h.base + r * h.pitch) (alignOf h.type) else []) ++
    (if h.path = 0 then []
     else ((regionCoords o).filter (fun x => h.within x.1 x.2)).flatMap (fun x =>
      s.rangeCk c h.path (h.elemAddr x.1 x.2).1 (alignOf h.type)))

/-- The participants of a COLL, by rank (R205). -/
def State.participants (s : State) (c : Crew) (path : Nat) : List Part :=
  match s.launches.find? (fun l => l.id == c.launch) with
  | none => []
  | some l =>
    if path = 3 then
      let near := l.parts.filter (fun p => p.place.npu && p.place.agent / 8 == c.home.agent / 8)
      near.insertionSort (fun a b => a.place.agent * 16 + a.place.slot ≤ b.place.agent * 16 + b.place.slot)
    else
      -- the spatial levels' kinds, in the order of the indices: 2 is D
      let kinds := (l.kern.levels.map (fun x => x.1)).filter (fun k => k != 0)
      let bare := fun (p : Part) => ((p.idx.zip kinds).filter (fun x => x.2 != 2)).map (fun x => x.1)
      match l.parts.find? (fun p => p.uid == c.uid) with
      | none => []
      | some me => (l.parts.filter (fun p => bare p == bare me)).insertionSort (fun a b => a.place.die ≤ b.place.die)

/-- How many participants a COLL has (R205). -/
def State.collRanks (s : State) (c : Crew) (path : Nat) : Nat := if path = 2 then 2 else (s.participants c path).length

/-- The elements a participant receives: `kind` 0 all-reduce, 1 reduce-scatter, 2 all-gather (R206). -/
def collOut (kind n p : Nat) : Nat := if kind = 0 then n else if kind = 1 then n / max p 1 else n * p

/-- The checks of SCAT and GATH (R203). -/
def State.listCk (s : State) (c : Crew) (j : Job) (scat strain : Bool) : List Cause :=
  let ty := j.type
  let es := alignOf ty
  let n := j.imm % 2 ^ 32
  let iw := if j.imm / 2 ^ 34 % 2 = 1 then 8 else 4
  ck (if strain then !redType ty else !moveType ty) 4 6 0 ++ ck (j.imm / 2 ^ 32 % 4 != 0) 4 6 0 ++
    s.placeCk c j.b anyPath iw (n * iw) ++
    (if scat then s.placeCk c j.a anyPath es (n * es) ++ s.plainCk c 0 j.c 0 0 ++ s.linkCk j.path j.c.toNat n
     else s.placeCk c j.a anyPath 0 0 ++ s.linkCk (placeOr j.a).1 (placeOr j.a).2 n ++ s.plainCk c j.path j.c es (n * es))

/-- The checks of COLL (R205, R206); its type code and its unused bits are checked as class 0 on the word. DEDUCED (log 119). -/
def State.collCk (s : State) (c : Crew) (j : Job) (kind : Nat) : List Cause :=
  let ty := j.type
  let n := j.imm % 2 ^ 32
  let p := s.collRanks c j.path
  let es := alignOf ty
  let need := if j.path = 3 then 3 else 5
  ck (decide (c.kern.bar < need)) 5 5 0 ++ ck (j.path == 2 && !c.kern.levels.any (fun x => x.1 == 2)) 5 12 0 ++
    ck (kind == 1 && p != 0 && n % p != 0) 4 6 0 ++ s.plainCk c 4 j.a es (n * es) ++ s.plainCk c 4 j.b es (collOut kind n p * es)

/-- A path-0 range within one page (R207): the page its walk finds, 4 KiB where it finds none. -/
def State.onePage (s : State) (c : Crew) (a len : Nat) : Bool :=
  match s.walk c.place.die c.bindRec.asid a with
  | .entry e => decide (a + len ≤ e.va + e.size)
  | .fail _ _ _ _ => decide (a % 4096 + len ≤ 4096)

/-- The paths of an XFM (R207). -/
def xfmPaths : List Nat := [0, 3, 4]

/-- The checks of XFM (R207). DEDUCED (log 90). -/
def State.xfmCk (s : State) (c : Crew) (j : Job) : List Cause :=
  let range := fun (w : Word) (align len : Nat) =>
    s.placeCk c w xfmPaths align len ++
      (match placeOf w with
       | some (0, a) => ck (!s.onePage c a len) 4 1 a
       | _ => [])
  match j.ins with
  | .xfmTr _ _ =>
    let n := j.imm % 32 + 1
    let pitch := j.imm / 2 ^ 24
    ck (j.imm / 32 % 2 ^ 19 != 0 || pitch % 4 != 0 || decide (pitch < 4 * n)) 4 6 0 ++ range j.a 4 ((n - 1) * pitch + 4 * n)
  | .xfmCvt _ _ =>
    let tgt := j.imm / 2 ^ 35
    let src := j.imm / 2 ^ 30 % 32
    let n := j.imm % 2 ^ 24
    let bytes := (n * max (eltBits src) (eltBits tgt) + 7) / 8
    ck (n == 0 || j.imm / 2 ^ 24 % 64 != 0) 4 6 0 ++ range j.a (max (alignOf src) (alignOf tgt)) bytes
  | .xfmBdb _ _ =>
    let w := if j.imm / 2 ^ 39 = 1 then 4 else 2
    let n := j.imm % 2 ^ 16
    ck (n == 0 || j.imm / 2 ^ 16 % 2 ^ 23 != 0) 4 6 0 ++ range j.a w (n * 64 * w) ++ s.placeCk c j.b xfmPaths w (n * 64 * w)
  | _ =>
    let n := j.imm % 2 ^ 24
    ck (!redType j.type || n == 0 || j.imm / 2 ^ 24 % 2 ^ 11 != 0) 4 6 0 ++ range j.a 4 (4 * n)

/-- The byte count of a data-queue word (R209). -/
def Job.dqBytes (j : Job) (c : Crew) : Nat :=
  match khOf j.ins with
  | some o =>
    match c.kern.handle o.h.toNat with
    | some h => imageBytes h o
    | none => 0
  | none => j.length

/-- The scratchpads a CPYMC writes: the same offset in each named core (R200). -/
def State.multiCk (s : State) (c : Crew) (j : Job) (off len : Nat) : List Cause :=
  ck (len != 0 && !j.mcCores.isEmpty && decide (2 ^ 20 ≤ off)) 4 1 off ++ j.mcCores.flatMap (fun n => s.rangeCk c 3 (n * 2 ^ 20 + off) len)

/-- The checks before a copy word issues (R195, R199-R211). -/
def State.jobCk (s : State) (c : Crew) (j : Job) : List Cause :=
  let handle := fun (o : KH) (go : Handle → List Cause) =>
    match c.kern.handle o.h.toNat with
    | none => [(4, 3, 0)]
    | some h => go h
  match j.ins with
  | .cpyKh _ o => handle o (fun h => s.regionCk c h o ++ s.plainCk c j.path j.g63 (alignOf h.type) (imageBytes h o))
  | .cpyKr _ _ =>
    let n := j.length
    ck (decide (2 ^ 32 < n)) 4 6 0 ++ alignCk n 4 ++ s.placeCk c j.a anyPath 4 n ++ s.plainCk c j.path j.b 4 n
  | .cpymcKh _ o =>
    ck (j.g62.toNat / 256 != 0) 4 6 0 ++
      handle o (fun h => s.regionCk c h o ++ s.plainCk c 0 j.g63 (alignOf h.type) 0 ++
        s.multiCk c j j.g63.toNat (imageBytes h o))
  | .cpymcKr _ _ =>
    let n := j.mcLength
    ck j.mcCores.isEmpty 4 6 0 ++ alignCk n 4 ++ s.placeCk c j.a anyPath 4 n ++ s.plainCk c 0 j.b 4 0 ++ s.multiCk c j j.b.toNat n
  | .cpysg _ o =>
    ck (j.imm == 0 || decide (2 ^ 20 < j.imm)) 4 6 0 ++ s.placeCk c j.a [0] 32 0 ++
      (if o.gb = 0 then [] else s.placeCk c j.b [0] 8 0)
  | .scatNative _ _ => s.listCk c j true false
  | .scatStrain _ _ _ => s.listCk c j true true
  | .gath _ _ => s.listCk c j false false
  | .collAllred _ _ _ => s.collCk c j 0
  | .collRedsc _ _ _ => s.collCk c j 1
  | .collGath _ _ _ => s.collCk c j 2
  | .xfmTr _ _ | .xfmCvt _ _ | .xfmBdb _ _ | .xfmPsum _ _ => s.xfmCk c j
  | .jsub _ _ | .sqgo _ _ => s.placeCk c j.a [0] 64 0
  | .dqpushKh _ _ o =>
    handle o (fun h => s.regionCk c h o ++ ck (imageBytes h o % 128 != 0 || decide (2048 < imageBytes h o)) 4 6 0)
  | .dqpushKr _ _ _ =>
    let n := j.length
    ck (n % 128 != 0 || decide (2048 < n)) 4 6 0 ++ s.placeCk c j.a anyPath 4 n
  | .dqpopKh _ _ o =>
    handle o (fun h => ck (imageBytes h o % 128 != 0 || decide (2048 < imageBytes h o)) 4 6 0 ++
      s.placeCk c j.g63 anyPath 4 (imageBytes h o))
  | .dqpopKr _ _ _ =>
    let n := j.length
    ck (n % 128 != 0 || decide (2048 < n)) 4 6 0 ++ s.placeCk c j.a anyPath 4 n
  | _ => []

/-! ## Footprints (R198) -/

/-- A byte range of a place, in the space it falls in; global ranges are virtual. -/
def State.footOf (s : State) (c : Crew) (path a len : Nat) : List (Space × Nat × Nat) :=
  if len = 0 then []
  else if path = 0 then [(.phys, a, len)]
  else match s.place c path 0 a len with
    | .inl (sp, x) => [(sp, x, len)]
    | .inr _ => []

/-- The ranges of a handle region within its bounds, element by element. -/
def State.footRegion (s : State) (c : Crew) (h : Handle) (o : KH) : List (Space × Nat × Nat) :=
  ((regionCoords o).filter (fun x => h.within x.1 x.2)).flatMap (fun x => s.footOf c h.path (h.elemAddr x.1 x.2).1 (alignOf h.type))

/-- The footprint of a job; none is unbounded. -/
def State.foot (s : State) (c : Crew) (j : Job) : Option (List (Space × Nat × Nat)) :=
  let at_ := fun (w : Word) (n : Nat) => s.footOf c (placeOr w).1 (placeOr w).2 n
  let region := fun (o : KH) (go : Handle → List (Space × Nat × Nat)) =>
    match c.kern.handle o.h.toNat with
    | some h => go h
    | none => []
  match j.ins with
  | .cpyKh _ o => some (region o (fun h => s.footRegion c h o ++ s.footOf c j.path j.g63.toNat (imageBytes h o)))
  | .cpyKr _ _ => some (at_ j.a j.length ++ s.footOf c j.path j.b.toNat j.length)
  | .cpymcKh _ o => some (region o (fun h => s.footRegion c h o ++
      j.mcCores.flatMap (fun k => s.footOf c 3 (k * 2 ^ 20 + j.g63.toNat) (imageBytes h o))))
  | .cpymcKr _ _ => some (at_ j.a j.mcLength ++ j.mcCores.flatMap (fun k => s.footOf c 3 (k * 2 ^ 20 + j.b.toNat) j.mcLength))
  | .cpysg _ _ | .scatNative _ _ | .scatStrain _ _ _ | .gath _ _ => none
  | .collAllred _ _ _ | .collRedsc _ _ _ | .collGath _ _ _ =>
    let kind := match j.ins with
      | .collAllred _ _ _ => 0
      | .collRedsc _ _ _ => 1
      | _ => 2
    let n := j.imm % 2 ^ 32
    let es := alignOf j.type
    some (s.footOf c 4 j.a.toNat (n * es) ++ s.footOf c 4 j.b.toNat (collOut kind n (s.collRanks c j.path) * es))
  | .xfmTr _ _ => some (at_ j.a (j.imm % 32 * (j.imm / 2 ^ 24) + 4 * (j.imm % 32 + 1)))
  | .xfmCvt _ _ => some (at_ j.a ((j.imm % 2 ^ 24 * max (eltBits (j.imm / 2 ^ 35)) (eltBits (j.imm / 2 ^ 30 % 32)) + 7) / 8))
  | .xfmBdb _ _ =>
    let n := j.imm % 2 ^ 16 * 64 * (if j.imm / 2 ^ 39 = 1 then 4 else 2)
    some (at_ j.a n ++ at_ j.b n)
  | .xfmPsum _ _ => some (at_ j.a (4 * (j.imm % 2 ^ 24)))
  | .dqpushKh _ _ o => some (region o (fun h => s.footRegion c h o))
  | .dqpushKr _ _ _ | .dqpopKr _ _ _ => some (at_ j.a j.length)
  | .dqpopKh _ _ _ => some (at_ j.g63 (j.dqBytes c))
  | _ => some []

/-- Do two footprints overlap? -/
def footsMeet (a b : Option (List (Space × Nat × Nat))) : Bool :=
  match a, b with
  | some x, some y => x.any (fun p => y.any (fun q => p.1 == q.1 && decide (p.2.1 < q.2.1 + q.2.2) && decide (q.2.1 < p.2.1 + p.2.2)))
  | _, _ => true

/-- The classes of a job's accesses: its own, and that of the reads of a list's elements (R201, R245). -/
def Job.classes (j : Job) : List Nat :=
  match j.ins with
  | .cpysg _ _ => [j.oc, j.ocList]
  | _ => [j.oc]

/-- Does an earlier job that shares a class come first (R198, R245)? -/
def State.behindJob (s : State) (c : Crew) (j : Job) : Bool :=
  (c.jobs.takeWhile (fun x => x.id != j.id)).any (fun x =>
    x.classes.any (fun k => j.classes.contains k) && footsMeet (s.foot c x) (s.foot c j))

/-! ## What a job does -/

/-- A run of a job (R195): the state with what it has stored; `old` and `skip` are the reads and writes that an earlier run has made and
this one has not met again; `reads`, newest first, and `wrote` what stands behind it now; its flags; and whether it goes on. -/
structure JobRun where
  s : State
  old : List (List Byte)
  reads : List (List Byte)
  skip : Nat
  wrote : Nat
  flags : Flags
  fin : Fetch Unit

/-- A job taken up where it stands (R195, R197). -/
def Job.run (j : Job) (s : State) : JobRun :=
  { s := s, old := j.reads, reads := [], skip := j.wrote, wrote := 0, flags := j.flags, fin := .ok () }

/-- A job as a run leaves it. -/
def JobRun.job (r : JobRun) (j : Job) : Job := { j with reads := r.reads.reverse, wrote := r.wrote, flags := r.flags }

/-- Does the run go on? -/
def JobRun.going (r : JobRun) : Bool :=
  match r.fin with
  | .ok _ => true
  | _ => false

/-- The end of an access without its value. -/
def Fetch.bare {α : Type} (x : Fetch α) : Fetch Unit := x.andThen (fun _ => .ok ())

/-- A read of a run: what it returned once stays (R195). -/
def JobRun.read (x : State → Fetch (List Byte × State)) (r : JobRun) : JobRun × List Byte :=
  if !r.going then (r, [])
  else match r.old with
    | b :: bs => ({ r with old := bs, reads := b :: r.reads }, b)
    | [] =>
      match x r.s with
      | .ok (b, s) => ({ r with s := s, reads := b :: r.reads }, b)
      | other => ({ r with fin := other.bare }, [])

/-- Reads in a row. -/
def JobRun.readAll : List (State → Fetch (List Byte × State)) → JobRun → JobRun × List (List Byte)
  | [], r => (r, [])
  | x :: xs, r =>
    let (r1, b) := r.read x
    let (r2, l) := r1.readAll xs
    (r2, b :: l)

/-- A write of a run: one that is performed is not performed again (R195). -/
def JobRun.act (x : State → Fetch (State × Flags)) (r : JobRun) : JobRun :=
  if !r.going then r
  else if r.skip ≠ 0 then { r with skip := r.skip - 1, wrote := r.wrote + 1 }
  else match x r.s with
    | .ok (s, f) => { r with s := s, wrote := r.wrote + 1, flags := r.flags ||| f }
    | other => { r with fin := other.bare }

/-- A run that meets a failure, or goes on (R196). -/
def JobRun.check (bad : Option (Fetch Unit)) (r : JobRun) : JobRun :=
  match bad with
  | some f => if r.going then { r with fin := f } else r
  | none => r

/-- Flags of a run (R204, R207). -/
def JobRun.flag (f : Flags) (r : JobRun) : JobRun := { r with flags := r.flags ||| f }

/-- The pieces of a range that an engine reaches one by one. -/
def rangePieces (a n : Nat) : List (Nat × Nat) := pagePieces (n / 4096 + 2) a n

/-- A read of a range, page by page. -/
def JobRun.range (c : Crew) (oc sc path a n : Nat) (r : JobRun) : JobRun × List Byte :=
  let (r1, l) := r.readAll ((rangePieces a n).map (fun p s =>
    (s.fetchBytes c path p.1 p.2).andThen (fun b => .ok (b, s.engineSees oc sc path p.1 p.2))))
  (r1, l.flatten)

/-- A read of a range at a place. -/
def JobRun.from_ (c : Crew) (oc : Nat) (w : Word) (n : Nat) (r : JobRun) : JobRun × List Byte :=
  r.range c oc 5 (placeOr w).1 (placeOr w).2 n

/-- A write of a range, page by page. -/
def JobRun.store (c : Crew) (path a : Nat) (bs : List Byte) (r : JobRun) : JobRun :=
  (rangePieces a bs.length).foldl (fun r p => r.act (fun s =>
    (s.storeRange c path p.1 ((bs.drop (p.1 - a)).take p.2)).andThen (fun s1 => .ok (s1, 0)))) r

/-- A write of some ranges in one piece: all of them are performed, or none. -/
def JobRun.storeAll (c : Crew) (path : Nat) (l : List (Nat × List Byte)) (r : JobRun) : JobRun :=
  r.act (fun s => (s.storeMany c path l).andThen (fun s1 => .ok (s1, 0)))

/-- A write of a range at a place. -/
def JobRun.into (c : Crew) (w : Word) (bs : List Byte) (r : JobRun) : JobRun := r.store c (placeOr w).1 (placeOr w).2 bs

/-- The read of a handle region, element by element: its packed image (R191). -/
def JobRun.region (c : Crew) (oc : Nat) (h : Handle) (o : KH) (r : JobRun) : JobRun × List Byte :=
  let (r1, l) := r.readAll ((regionCoords o).map (fun x s =>
    (s.elemBytes c h x).andThen (fun b =>
      .ok (b, if h.within x.1 x.2 then s.engineSees oc 5 h.path (h.elemAddr x.1 x.2).1 (alignOf h.type) else s))))
  (r1, packRegion h.type l)

/-- The 32-byte sectors that hold the elements of a handle region, each once, in the elements' order (R278). -/
def regionSectors (h : Handle) (o : KH) : List Nat :=
  (((regionCoords o).filter (fun x => h.within x.1 x.2)).map (fun x => (h.elemAddr x.1 x.2).1 / 32)).eraseDups

/-- An element of a region as bytes, from the sectors that have been read; outside the bounds it is 0 (R191, R278). -/
def Handle.fromSectors (h : Handle) (got : List (Nat × List Byte)) (x : Nat × Nat) : List Byte :=
  if !h.within x.1 x.2 then List.replicate (alignOf h.type) 0
  else
    let (a, nib) := h.elemAddr x.1 x.2
    let b := ((((got.find? (fun y => y.1 == a / 32)).map (fun y => y.2)).getD []).drop (a % 32)).take (alignOf h.type)
    match nib with
    | some high => leBytes 1 (if high then leNat b / 16 else leNat b % 16)
    | none => b

/-- The read of a handle region for a multicast: each sector once (R278); its packed image (R191). -/
def JobRun.sectors (c : Crew) (oc : Nat) (h : Handle) (o : KH) (r : JobRun) : JobRun × List Byte :=
  let ks := regionSectors h o
  let (r1, l) := r.readAll (ks.map (fun k s =>
    (s.fetchBytes c h.path (32 * k) 32).andThen (fun b => .ok (b, s.engineSees oc 5 h.path (32 * k) 32))))
  (r1, packRegion h.type ((regionCoords o).map (h.fromSectors (ks.zip l))))

/-- Delivery into the scratchpads of a CPYMC (R200). -/
def JobRun.multicast (c : Crew) (cores : List Nat) (off : Nat) (bs : List Byte) (r : JobRun) : JobRun :=
  cores.foldl (fun r k => r.store c 3 (k * 2 ^ 20 + off) bs) r

/-- The causes found in an element of a scatter-gather list or an index, as a failure after issue. DEDUCED (log 88). -/
def failOf (l : List Cause) : Option (Fetch Unit) := (leastCause l).map (fun x => .bad (causeCode x.1 x.2.1) x.2.2)

/-- A failure after issue, where something is broken. -/
def failIf (broken : Bool) (cls detail : Nat) : Option (Fetch Unit) := if broken then some (.bad (causeCode cls detail) 0) else none

/-- The walk of a scatter-gather list (R202): `left` elements may still be walked; `oc` is the class of the copies, `ol` and `sl` the
class and scope of the reads of elements (R245). The element that `next` names is read where it stands, aligned or not. DEDUCED (log 88). -/
def JobRun.walk (c : Crew) (oc ol sl : Nat) (pred : Option Nat) : Nat → Nat → JobRun → JobRun
  | left, e, r =>
    if e = 0 || !r.going then r
    else match left with
      | 0 => r.check (failIf true 5 9)
      | n + 1 =>
        let (r1, b) := r.range c ol sl 0 e 32
        let src : Word := BitVec.ofNat 64 (fieldAt b 0 8)
        let dst : Word := BitVec.ofNat 64 (fieldAt b 8 8)
        let len := fieldAt b 16 4
        let ctl := fieldAt b 20 4
        let test := ctl % 2 == 1
        let broken := (placeOf src).isNone || (placeOf dst).isNone || len % 4 != 0 || decide (2 ^ 24 < len) ||
          ctl / 4 % 64 != 0 || ctl / 2 ^ 14 != 0 || (test && pred.isNone)
        let r2 := r1.check (failIf broken 5 10)
        let (r3, p) := if test then r2.range c oc 5 0 (pred.getD 0) 8 else (r2, [])
        if test && leNat p / 2 ^ (ctl / 256 % 64) % 2 != ctl / 2 % 2 then r3.walk c oc ol sl pred n (fieldAt b 24 8)
        else
          let r4 := r3.check (failOf (r3.s.placeCk c src anyPath 4 len ++ r3.s.placeCk c dst anyPath 4 len))
          let (r5, bs) := if r4.going then r4.from_ c oc src len else (r4, [])
          (r5.into c dst bs).walk c oc ol sl pred n (fieldAt b 24 8)

/-- The reduction of two elements (R204): 0 add, 1 min, 2 max, 3 and, 4 or, 5 xor. -/
def redElem (ty op : Nat) (a b : Nat) : Nat × Flags :=
  match op with
  | 0 => if ty = 9 then fmtF32.add 0 a b else ((a + b) % 2 ^ 32, 0)
  | 1 => if ty = 9 then fltMinMax false a b
    else if ty = 3 then (if sVal 32 a ≤ sVal 32 b then a else b, 0) else (min a b, 0)
  | 2 => if ty = 9 then fltMinMax true a b
    else if ty = 3 then (if sVal 32 a ≤ sVal 32 b then b else a, 0) else (max a b, 0)
  | 3 => (a &&& b, 0)
  | 4 => (a ||| b, 0)
  | _ => (a ^^^ b, 0)

/-- The coherent value of an element at a place, as a strain combination finds it at its home or bank (R204, R433). -/
def State.atHome (s : State) (c : Crew) (sp : Space) (x n : Nat) : Nat :=
  leNat (match sp with
    | .phys => if inPod x then s.remoteBytes c.place.die x n else s.phys x n
    | other => s.space other x n)

/-- One element of a scatter: stored, or combined with what stands there, in one piece (R204). -/
def State.scatOne (s : State) (c : Crew) (path ty : Nat) (red : Option Nat) (a v : Nat) : Fetch (State × Flags) :=
  let es := alignOf ty
  let put := fun (x : Nat × Flags) => (s.storeRange c path a (leBytes es x.1)).andThen (fun s1 => .ok (s1, x.2))
  match red with
  | none => put (v, 0)
  | some op => (s.enginePlace c path a es 7).andThen (fun x => put (redElem ty op (s.atHome c x.1 x.2.1 es) v))

/-- The indices of a list word (R203). -/
def JobRun.indices (c : Crew) (j : Job) (r : JobRun) : JobRun × List Nat :=
  let iw := if j.imm / 2 ^ 34 % 2 = 1 then 8 else 4
  let n := j.imm % 2 ^ 32
  let (r1, b) := r.from_ c j.oc j.b (n * iw)
  (r1, (pieces iw n b).map leNat)

/-- SCAT: its elements are performed in order (R204). -/
def JobRun.scat (c : Crew) (j : Job) (red : Option Nat) (r : JobRun) : JobRun :=
  let es := alignOf j.type
  let n := j.imm % 2 ^ 32
  let (r1, ix) := r.indices c j
  let (r2, b) := r1.from_ c j.oc j.a (n * es)
  (ix.zip ((pieces es n b).map leNat)).foldl (fun r x =>
    let a := j.c.toNat + x.1 * es
    (r.check (failOf (alignCk a es ++ r.s.rangeCk c j.path a es))).act (fun s => s.scatOne c j.path j.type red a x.2)) r2

/-- GATH (R204). -/
def JobRun.gath (c : Crew) (j : Job) (r : JobRun) : JobRun :=
  let es := alignOf j.type
  let (path, base) := placeOr j.a
  let one := fun (i : Nat) (s : State) =>
    let a := base + i * es
    match leastCause (alignCk a es ++ s.rangeCk c path a es) with
    | some x => Fetch.bad (causeCode x.1 x.2.1) x.2.2
    | none => (s.fetchBytes c path a es).andThen (fun b => .ok (b, s.engineSees j.oc 5 path a es))
  let (r1, ix) := r.indices c j
  let (r2, l) := r1.readAll (ix.map one)
  r2.store c j.path j.c.toNat l.flatten

/-- Elements of a range as patterns: nibbles for s4. -/
def unpackElems (ty n : Nat) (bs : List Byte) : List Nat :=
  if ty = 0 then (bs.flatMap (fun b => [b.toNat % 16, b.toNat / 16])).take n else (pieces (eltBytes ty) n bs).map leNat

/-- Patterns packed as a range's bytes; the other half of a last byte of nibbles is kept. -/
def packElems (ty : Nat) (l : List Nat) (last : Nat) : List Byte :=
  if ty = 0 then packNibbles (if l.length % 2 = 1 then l ++ [last / 16] else l) else l.flatMap (leBytes (eltBytes ty))

/-- The inclusive prefix sums of a list (R207). -/
def prefixSums (ty : Nat) : Nat → Flags → List Nat → List Nat × Flags
  | _, fl, [] => ([], fl)
  | acc, fl, x :: xs =>
    let (v, f) := redElem ty 0 acc x
    let (l, g) := prefixSums ty v (fl ||| f) xs
    (v :: l, g)

/-- A transform command: its reads and its writes are one access to the banks and homes that hold its range, taken in its place among the
others; until it is performed its reads are made again (R208, R279, R433). -/
def JobRun.transform (x : JobRun → JobRun) (r : JobRun) : JobRun :=
  if r.skip ≠ 0 then { r with skip := 0, wrote := r.skip } else x { r with old := [] }

/-- XFM (R207, R208). DEDUCED (log 90). -/
def JobRun.xfm (c : Crew) (j : Job) (r : JobRun) : JobRun :=
  let (path, a) := placeOr j.a
  r.transform (fun r =>
  match j.ins with
  | .xfmTr _ _ =>
    let n := j.imm % 32 + 1
    let pitch := j.imm / 2 ^ 24
    let (r1, l) := (List.range n).foldl (fun (x : JobRun × List (List Byte)) i =>
      let (r, b) := x.1.range c j.oc 5 path (a + i * pitch) (4 * n)
      (r, x.2 ++ [b])) (r, [])
    let col := fun (i : Nat) => l.flatMap (fun row => (row.drop (4 * i)).take 4)
    r1.storeAll c path ((List.range n).map (fun i => (a + i * pitch, col i)))
  | .xfmCvt _ _ =>
    let tgt := j.imm / 2 ^ 35
    let src := j.imm / 2 ^ 30 % 32
    let n := j.imm % 2 ^ 24
    let (r1, b) := r.range c j.oc 5 path a ((n * max (eltBits src) (eltBits tgt) + 7) / 8)
    let vals := (unpackElems src n b).map (fun p => convertAny (fcsrB8d0 j.fcsr) (fcsrB8d1 j.fcsr) src tgt 0 true p)
    (r1.storeAll c path [(a, packElems tgt (vals.map (fun x => x.1)) (fieldAt b (n / 2) 1))]).flag (vals.foldl (fun f x => f ||| x.2) 0)
  | .xfmBdb _ _ =>
    let w := if j.imm / 2 ^ 39 = 1 then 4 else 2
    let n := j.imm % 2 ^ 16
    let (r1, b) := r.range c j.oc 5 path a (n * 64 * w)
    let blocks := pieces (64 * w) n b
    let wrong := (blocks.zip (List.range n)).find? (fun x => !bdbGood (8 * w) x.1)
    (r1.check (wrong.map (fun x => .bad (causeCode 3 54) (a + x.2 * 64 * w)))).storeAll c (placeOr j.b).1
      [((placeOr j.b).2, blocks.flatMap (bdbDecode (8 * w)))]
  | _ =>
    let (r1, b) := r.range c j.oc 5 path a (4 * (j.imm % 2 ^ 24))
    match unpackElems 3 (j.imm % 2 ^ 24) b with
    | [] => r1
    | x :: xs =>
      let (l, fl) := prefixSums j.type x 0 xs
      (r1.storeAll c path [(a, (x :: l).flatMap (leBytes 4))]).flag fl)

/-- A data-moving job run on from where it stands (R195, R199-R209). A COLL, a DQPUSH, a JSUB and an SQGO have ends of their own.
DEDUCED (log 87). -/
def State.runJob (s : State) (c : Crew) (j : Job) : JobRun :=
  let r := j.run s
  let region := fun (o : KH) (go : JobRun × List Byte → JobRun) =>
    match c.kern.handle o.h.toNat with
    | some h => go (r.region c j.oc h o)
    | none => r
  match j.ins with
  | .cpyKh _ o => region o (fun x => x.1.store c j.path j.g63.toNat x.2)
  | .cpyKr _ _ =>
    let x := r.from_ c j.oc j.a j.length
    x.1.store c j.path j.b.toNat x.2
  | .cpymcKh _ o =>
    (match c.kern.handle o.h.toNat with
     | some h =>
       let x := r.sectors c j.oc h o
       x.1.multicast c j.mcCores j.g63.toNat x.2
     | none => r)
  | .cpymcKr _ _ =>
    let x := r.from_ c j.oc j.a j.mcLength
    x.1.multicast c j.mcCores j.b.toNat x.2
  | .cpysg _ o => r.walk c j.oc j.ocList j.scList (if o.gb = 0 then none else some (placeOr j.b).2) j.imm (placeOr j.a).2
  | .scatNative _ _ => r.scat c j none
  | .scatStrain _ red _ => r.scat c j (some red.toNat)
  | .gath _ _ => r.gath c j
  | .xfmTr _ _ | .xfmCvt _ _ | .xfmBdb _ _ | .xfmPsum _ _ => r.xfm c j
  | .dqpopKh _ _ _ => r.into c j.g63 j.data
  | .dqpopKr _ _ _ => r.into c j.a j.data
  | .jsub _ _ => (r.from_ c j.oc j.a 320).1
  | _ => r.check (some .busy)

/-! ## What a job that ends early may have written (R196, R262) -/

/-- What a region's elements read before were: element by element, or for a multicast sector by sector. -/
def Job.known (j : Job) (h : Handle) (o : KH) (i : Nat) (x : Nat × Nat) : Option (List Byte) :=
  match j.ins with
  | .cpymcKh _ _ =>
    let got := (regionSectors h o).zip j.reads
    if !h.within x.1 x.2 || got.any (fun y => y.1 == (h.elemAddr x.1 x.2).1 / 32) then some (h.fromSectors got x) else none
  | _ => j.reads[i]?

/-- The bytes of a region's packed image one by one, each with what fetching it ends with; elements read before stay. -/
def State.regionTries (s : State) (c : Crew) (j : Job) (h : Handle) (o : KH) : List (Fetch Byte) :=
  let l := (regionCoords o).mapIdx (fun i x =>
    match j.known h o i x with
    | some b => Fetch.ok (leNat b)
    | none => s.handleElem c h x.1 x.2)
  if h.type = 0 then
    (List.range (l.length / 2)).map (fun i =>
      (l.getD (2 * i) .busy).andThen (fun a => (l.getD (2 * i + 1) .busy).andThen (fun b => .ok (BitVec.ofNat 8 (a % 16 + 16 * (b % 16))))))
  else l.flatMap (fun x => (List.range (eltBytes h.type)).map (fun i => x.andThen (fun v => .ok (BitVec.ofNat 8 (v / 2 ^ (8 * i))))))

/-- The bytes of a range one by one; those read before stay. -/
def State.rangeTries (s : State) (c : Crew) (j : Job) (w : Word) (n : Nat) : List (Fetch Byte) :=
  let known := j.reads.flatten
  (List.range n).map (fun i =>
    match known[i]? with
    | some b => .ok b
    | none => (s.fetchRange c (placeOr w).1 ((placeOr w).2 + i) 1).andThen (fun b => .ok (b.headD 0)))

/-- Every byte that can be read and written is written, but for those that the job has written before; `starts` are the places at which
the bytes are to stand. -/
def State.storeTries (s : State) (c : Crew) (j : Job) (path : Nat) (starts : List Nat) (l : List (Fetch Byte)) : State :=
  let before := (((starts.flatMap (fun a => rangePieces a l.length)).take j.wrote).map (fun p => p.2)).sum
  let all := starts.flatMap (fun a => l.mapIdx (fun i x => (a + i, x)))
  (all.drop before).foldl (fun s p =>
    match p.2 with
    | .ok b =>
      (match s.storeRange c path p.1 [b] with
       | .ok s1 => s1
       | _ => s)
    | _ => s) s

/-- What a job that ends early could have written: a copy, each byte it can reach; a list or an index job, what it had reached.
DEDUCED (log 55). -/
def State.reached (s : State) (c : Crew) (j : Job) : State :=
  let region := fun (o : KH) (go : List (Fetch Byte) → State) =>
    match c.kern.handle o.h.toNat with
    | some h => go (s.regionTries c j h o)
    | none => s
  let cores := fun (off : Nat) => j.mcCores.map (fun k => k * 2 ^ 20 + off)
  let data := j.data.map (fun b => (.ok b : Fetch Byte))
  match j.ins with
  | .cpyKh _ o => region o (s.storeTries c j j.path [j.g63.toNat])
  | .cpyKr _ _ => s.storeTries c j j.path [j.b.toNat] (s.rangeTries c j j.a j.length)
  | .cpymcKh _ o => region o (s.storeTries c j 3 (cores j.g63.toNat))
  | .cpymcKr _ _ => s.storeTries c j 3 (cores j.b.toNat) (s.rangeTries c j j.a j.mcLength)
  | .dqpopKh _ _ _ => s.storeTries c j (placeOr j.g63).1 [(placeOr j.g63).2] data
  | .dqpopKr _ _ _ => s.storeTries c j (placeOr j.a).1 [(placeOr j.a).2] data
  | _ => (s.runJob c j).s

/-- Every byte in which two states' memories differ holds its old or its new value, freely (R196, R262). DEDUCED (log 55). -/
def State.mix (old new : State) : State :=
  let keep := fun (k a : Nat) => Config.freeChoice (old.free + k * 2 ^ 60 + a) % 2 == 1
  ({ new with mem := Memory.mix (keep 0) old.mem new.mem, spad := Memory.mix (keep 1) old.spad new.spad,
              caddy := Memory.mix (keep 2) old.caddy new.caddy } : State).useFree (3 * 2 ^ 60)

end Sys2Proof.Machine
end

