-- ==== Sys2Proof/Machine/Copy.lean ====
section
/-!
DEFINITION. The copy stream: issue and completion of its words (R189, R194-R211), DRAIN (R123, R213), and job cards (R353, R354).
-/

namespace Sys2Proof.Machine

/-- A job gone with its flags and token. -/
def Crew.jobDone (c : Crew) (j : Job) (fl : Flags) : Crew :=
  (({ c with jobs := c.jobs.filter (fun x => x.id != j.id) } : Crew).orFlags fl).lowerTok (jobTok j.ins)

/-! ## Issue (R194) -/

/-- The job a word would start, with the scalars it reads. -/
def Crew.jobOf (c : Crew) (id seq : Nat) (i : Instr) : Job :=
  let v := fun (r : GReg) => c.rdG r
  { id := id, ins := i, a := (krOf i).elim 0 (fun o => v o.ga), b := (krOf i).elim 0 (fun o => v o.gb),
    c := (krOf i).elim 0 (fun o => v o.gc), g62 := v 62, g63 := v 63, seq := seq, oc := (hdrOf i).oc.toNat,
    ocList := c.ocdef.toNat % 16, scList := c.ocdef.toNat / 16 % 8, fcsr := c.fcsr, data := [], reads := [], wrote := 0, flags := 0,
    held := none }

/-- Does a KR field name a register below g48 (R214)? -/
def lowRegister (i : Instr) : Bool :=
  match krOf i with
  | some o => [o.ga, o.gb, o.gc].any (fun r => r != 0 && !isShared r)
  | none => false

/-- A copy word: guard, wait tokens, registers, poison, empty scalars, the checks of its entry, room, its token; then the job is
handed to its engine (R189, R194, R195). `room` says what the word still waits for; `start` adds to the crew what it takes at issue. -/
def copyWord (i : Instr) (seq : Crew → Nat) (room : State → Job → Option Wait) (start : Crew → Job → Crew × Job) (s : State) : Out :=
  waitedState s .k i (hdrOf i).wait (fun s =>
    let c := s.crew
    let regs := jobScalars i
    if lowRegister i then .next (s.trapW .k 1 3 0)
    else match c.gPoison regs with
      | some (k, a) => .next (s.trapW .k 6 k (BitVec.ofNat 64 a))
      | none =>
        match regs.find? c.gEmpty with
        | some r => .next (s.blockS .k (.shared r))
        | none =>
          let (id, s1) := s.fresh
          let j := c.jobOf id (seq c) i
          match leastCause (s.jobCk c j) with
          | some x => .next (s.trapW .k x.1 x.2.1 (BitVec.ofNat 64 x.2.2))
          | none =>
            match room s j with
            | some w => .next (s.blockS .k w)
            | none =>
              if c.tokCount (hdrOf i).sig = 63 then .next (s.blockS .k .tokenLimit)
              else
                let (c1, j1) := start c j
                .next { s1 with crew := (({ c1 with jobs := c1.jobs ++ [j1] } : Crew).raiseTok (hdrOf i).sig).pass .k (hdrOf i).gap (c.k.pc + 1) })

/-- A copy word that takes nothing but its job. -/
def plainCopy (i : Instr) (s : State) : Out := copyWord i (fun _ => 0) (fun _ _ => none) (fun c j => (c, j)) s

/-- CPY of a handle region (R199). -/
def execCpyKh (h : KHdr) (o : KH) (s : State) : Out := plainCopy (.cpyKh h o) s

/-- CPY of a byte range (R199). -/
def execCpyKr (h : KHdr) (o : KR) (s : State) : Out := plainCopy (.cpyKr h o) s

/-- CPYSG (R201). -/
def execCpysg (h : KHdr) (o : KR) (s : State) : Out := plainCopy (.cpysg h o) s

/-- CPYMC of a handle region (R200). DEDUCED (log 91). -/
def execCpymcKh (h : KHdr) (o : KH) (s : State) : Out := plainCopy (.cpymcKh h o) s

/-- CPYMC of a byte range (R200). -/
def execCpymcKr (h : KHdr) (o : KR) (s : State) : Out := plainCopy (.cpymcKr h o) s

/-- SCAT native (R204). -/
def execScatNative (h : KHdr) (o : KR) (s : State) : Out := plainCopy (.scatNative h o) s

/-- SCAT strain (R204). -/
def execScatStrain (h : KHdr) (red : BitVec 4) (o : KR) (s : State) : Out := plainCopy (.scatStrain h red o) s

/-- GATH (R204). -/
def execGath (h : KHdr) (o : KR) (s : State) : Out := plainCopy (.gath h o) s

/-- xfm.tr (R207). -/
def execXfmTr (h : KHdr) (o : KR) (s : State) : Out := plainCopy (.xfmTr h o) s

/-- xfm.cvt (R207). -/
def execXfmCvt (h : KHdr) (o : KR) (s : State) : Out := plainCopy (.xfmCvt h o) s

/-- xfm.bdb (R207). -/
def execXfmBdb (h : KHdr) (o : KR) (s : State) : Out := plainCopy (.xfmBdb h o) s

/-- xfm.psum (R207). -/
def execXfmPsum (h : KHdr) (o : KR) (s : State) : Out := plainCopy (.xfmPsum h o) s

/-! ## Collectives (R205, R206) -/

/-- The key of a class and an extent. -/
def collKey (oc path : Nat) : Nat := 16 * path + oc

/-- A COLL: it joins as the next of its class and extent. -/
def collWord (i : Instr) (s : State) : Out :=
  let key := collKey (hdrOf i).oc.toNat (hdrOf i).path.toNat
  copyWord i (fun c => SMap.get 0 c.colls key) (fun _ _ => none)
    (fun c j => ({ c with colls := SMap.set 0 c.colls key (SMap.get 0 c.colls key + 1) }, j)) s

/-- COLL .allred (R206). -/
def execCollAllred (h : KHdr) (red : BitVec 4) (o : KR) (s : State) : Out := collWord (.collAllred h red o) s

/-- COLL .redsc (R206). -/
def execCollRedsc (h : KHdr) (red : BitVec 4) (o : KR) (s : State) : Out := collWord (.collRedsc h red o) s

/-- COLL .gath (R206). -/
def execCollGath (h : KHdr) (red : BitVec 4) (o : KR) (s : State) : Out := collWord (.collGath h red o) s

/-- Is a job a COLL, and of which kind and reduction? -/
def collOf : Instr → Option (Nat × Nat)
  | .collAllred _ red _ => some (0, red.toNat)
  | .collRedsc _ red _ => some (1, red.toNat)
  | .collGath _ red _ => some (2, red.toNat)
  | _ => none

/-- The matching job of a participant; the crew must be running. -/
def State.collPeer (s : State) (j : Job) (p : Part) : Option (Crew × Job) :=
  match s.findCrew p.uid with
  | none => none
  | some c =>
    if c.life != .running then none
    else (c.jobs.find? (fun x => (collOf x.ins).isSome && x.oc == j.oc && x.path == j.path && x.seq == j.seq)).map (fun x => (c, x))

/-- RED of one element over the ranks (R206): the pairwise tree of 64 leaves, or the pair. -/
def redRanks (path ty op : Nat) (l : List Nat) : Nat × Flags :=
  let comb := fun (a b : Lane) => (BitVec.ofNat 32 (redElem ty op a.toNat b.toNat).1, (redElem ty op a.toNat b.toNat).2)
  if path = 3 then
    let r := combTree comb 6 (l.map (fun x => some (BitVec.ofNat 32 x)) ++ List.replicate (64 - l.length) none)
    ((r.1.getD 0).toNat, r.2)
  else match l with
    | [a, b] => redElem ty op a b
    | a :: _ => (a, 0)
    | [] => (0, 0)

/-- The elements that rank `q` of `p` receives, and the flags of their additions (R51). DEDUCED (log 89). -/
def collResult (kind path ty op n p q : Nat) (srcs : List (List Nat)) : List Nat × Flags :=
  let red := fun e => redRanks path ty op (srcs.map (fun x => x.getD e 0))
  let all := fun (l : List (Nat × Flags)) => (l.map (fun x => x.1), l.foldl (fun f x => f ||| x.2) 0)
  match kind with
  | 0 => all ((List.range n).map red)
  | 1 => all ((List.range (n / p)).map (fun e => red (q * n / p + e)))
  | _ => (srcs.flatten, 0)

/-- COLLECTIVE_PERFORM (R206): once every participant has arrived, sources are read and every destination is written; participants
that do not match all fail. DEDUCED (log 89). -/
def execCollectivePerform (u id : Nat) (s : State) : Out :=
  onUid s u (fun s =>
    match s.crew.jobs.find? (fun j => j.id == id) with
    | none => .next s
    | some j =>
      match collOf j.ins, (s.participants s.crew j.path).mapM (s.collPeer j) with
      | some (kind, op), some peers =>
        let same := peers.all (fun x => collOf x.2.ins == some (kind, op) && x.2.imm == j.imm)
        if peers.length < s.collRanks s.crew j.path then .next s
        else if !same then
          .next (peers.foldl (fun s x => s.onCrewOf x.1.uid (fun c => c.failJob x.2 (causeCode 5 11) 0)) s)
        else if peers.any (fun x => s.behindJob x.1 x.2) then .next s
        else
          let n := j.imm % 2 ^ 32
          let ty := j.type
          let bytes := n * alignOf ty
          let spad := fun (c : Crew) (a : Nat) => c.agent * 2 ^ 20 + a
          let srcs := peers.map (fun x =>
            (unpackElems ty n (s.spad.read (spad x.1 x.2.a.toNat) bytes)))
          let outs := (List.range peers.length).map (fun q => collResult kind j.path ty op n peers.length q srcs)
          let s1 := (peers.zip outs).foldl (fun s x =>
            { s with spad := s.spad.write (spad x.1.1 x.1.2.b.toNat) (x.2.1.flatMap (leBytes (alignOf ty))) }) s
          .next ((peers.zip outs).foldl (fun s x => s.onCrewOf x.1.1.uid (fun c => c.jobDone x.1.2 x.2.2)) s1)
      | _, _ => .next s)

/-! ## Data queues (R209, R403, R404) -/

/-- Entries that a data-queue word moves. -/
def Job.dqEntries (j : Job) (c : Crew) : Nat := j.dqBytes c / 128

/-- DQPUSH: room for all its entries, then their reservation. -/
def pushWord (i : Instr) (q : Nat) (s : State) : Out :=
  copyWord i (fun _ => 0)
    (fun s j => if 16 < (s.crew.dq.getD q []).length + j.dqEntries s.crew then some (.queue q (j.dqEntries s.crew) true) else none)
    (fun c j => (c.setDq q (c.dq.getD q [] ++ List.replicate (j.dqEntries c) { bytes := none, job := j.id }), j)) s

/-- DQPUSH of a handle region (R209). -/
def execDqpushKh (h : KHdr) (q : BitVec 2) (o : KH) (s : State) : Out := pushWord (.dqpushKh h q o) q.toNat s

/-- DQPUSH of a byte range (R209). -/
def execDqpushKr (h : KHdr) (q : BitVec 2) (o : KR) (s : State) : Out := pushWord (.dqpushKr h q o) q.toNat s

/-- DQPOP: it pops its entries at issue. -/
def popWord (i : Instr) (q : Nat) (s : State) : Out :=
  copyWord i (fun _ => 0)
    (fun s j => if (s.crew.dqHeld q).length < j.dqEntries s.crew then some (.queue q (j.dqEntries s.crew) false) else none)
    (fun c j =>
      let n := j.dqEntries c
      (c.setDq q ((c.dq.getD q []).drop n), { j with data := ((c.dqHeld q).take n).flatten })) s

/-- DQPOP sized by a handle region (R209). -/
def execDqpopKh (h : KHdr) (q : BitVec 2) (o : KH) (s : State) : Out := popWord (.dqpopKh h q o) q.toNat s

/-- DQPOP of a length (R209). -/
def execDqpopKr (h : KHdr) (q : BitVec 2) (o : KR) (s : State) : Out := popWord (.dqpopKr h q o) q.toNat s

/-- Is a job one that fills a data queue? -/
def isPush : Instr → Bool
  | .dqpushKh _ _ _ | .dqpushKr _ _ _ => true
  | _ => false

/-- Is a job one that submits a card? -/
def isCard : Instr → Bool
  | .jsub _ _ => true
  | _ => false

/-- Entries of a push that have not arrived. -/
def Crew.awaited (c : Crew) (id : Nat) : Nat := ((c.dq.flatten).filter (fun e => e.job == id && e.bytes.isNone)).length

/-- The read of a push's next entry: the elements of the region, or the bytes of the range, that it holds (R209). -/
def State.runPush (s : State) (c : Crew) (j : Job) : JobRun × List Byte :=
  let at_ := j.dqEntries c - c.awaited j.id
  match khOf j.ins with
  | some o =>
    match c.kern.handle o.h.toNat with
    | some h =>
      let n := 1024 / eltBits h.type
      let (r, l) := (j.run s).readAll ((((regionCoords o).drop (n * at_)).take n).map (fun x s =>
        (s.elemBytes c h x).andThen (fun b =>
          .ok (b, if h.within x.1 x.2 then s.engineSees j.oc 5 h.path (h.elemAddr x.1 x.2).1 (alignOf h.type) else s))))
      (r, packRegion h.type l)
    | none => (j.run s, [])
  | none => (j.run s).range c j.oc 5 (placeOr j.a).1 ((placeOr j.a).2 + 128 * at_) 128

/-- A job of the focused crew as a run leaves it (R195, R197). -/
def JobRun.keep (r : JobRun) (j : Job) : State :=
  let c := r.s.crew
  ({ r.s with crew := { c with jobs := c.jobs.map (fun x => if x.id = j.id then r.job x else x) } } : State).useFree 1

/-- A job is held on a page (R195). -/
def State.holdJob (s : State) (j : Job) (va kind reason : Nat) : State :=
  let c := s.crew
  let put := fun (x : Job) => if x.id = j.id then { x with held := some (va, kind) } else x
  ({ s with crew := { c with jobs := c.jobs.map put } } : State).engineFault va kind reason

/-- What a run that has not come to its end leaves: a page that is out holds the job at that access; a home that is busy is tried
again; what is done stays done (R195). -/
def State.pauseJob (s : State) (j : Job) (r : JobRun) (kind : Nat → Nat) : Out :=
  match r.fin with
  | .held va k => .next ((r.keep j).holdJob j va (kind va) k)
  | .busy => .next (r.keep j)
  | _ => .next s

/-- The access kind of a job's fault at an address: the one that translation refuses (R252). -/
def State.faultKind (s : State) (c : Crew) (va : Nat) : Nat :=
  match s.engineTr c.place.die c.bindRec.asid va 6 with
  | .ok _ _ => 7
  | _ => 6

/-- The first entry of a queue that has not arrived is filled. -/
def fillEntry (bytes : List Byte) : List DqEntry → List DqEntry
  | [] => []
  | e :: es => if e.bytes.isNone then { e with bytes := some bytes } :: es else e :: fillEntry bytes es

/-- DQ_ENTRY_ARRIVE (R403): the entry reserved first arrives; the last one of its job lowers the token. -/
def execDqEntryArrive (u q : Nat) (s : State) : Out :=
  onUid s u (fun s =>
    let c := s.crew
    match (c.dq.getD q []).find? (fun e => e.bytes.isNone) with
    | none => .next s
    | some e =>
      match c.jobs.find? (fun j => j.id == e.job) with
      | none => .next s
      | some j =>
        if j.held.isSome || s.behindJob c j then .next s
        else
          let (r, b) := s.runPush c j
          match r.fin with
          | .ok _ =>
            let fresh := fun (x : Job) => if x.id = j.id then { x with reads := [] } else x
            let c1 := r.s.crew.setDq q (fillEntry b (c.dq.getD q []))
            let c2 := if c1.awaited j.id = 0 then c1.jobDone j 0 else { c1 with jobs := c1.jobs.map fresh }
            .next (({ r.s with crew := c2 } : State).useFree 1)
          | _ => s.pauseJob j r (fun _ => 6))

/-! ## Engine jobs (R210, R211) -/

/-- JSUB (R210): it waits while the die's job queue is full. -/
def execJsub (h : KHdr) (o : KR) (s : State) : Out :=
  copyWord (.jsub h o) (fun _ => 0) (fun s _ => if 256 ≤ (s.die s.crew.place.die).cards.length then some .other else none) (fun c j => (c, j)) s

/-- The sequencer of a cluster. -/
def State.sequencer (s : State) (k : Nat) : Sequencer := SMap.get Sequencer.reset s.solvers k

/-- A sequencer replaced. -/
def State.setSequencer (s : State) (k : Nat) (q : Sequencer) : State := { s with solvers := SMap.set Sequencer.reset s.solvers k q }

/-- SQGO (R211): it waits while the sequencer's queue is full. -/
def execSqgo (h : KHdr) (o : KR) (s : State) : Out :=
  copyWord (.sqgo h o) (fun _ => 0) (fun s _ => if 4 ≤ (s.sequencer (s.crew.agent / 8)).queue.length then some .other else none)
    (fun c j => (c, j)) s

/-- A card's regions from an offset. -/
def cardRegions (b : List Byte) (at_ n : Nat) : List (Nat × Nat) :=
  (List.range n).map (fun i => (fieldAt b (at_ + 16 * i) 8, fieldAt b (at_ + 16 * i + 8) 8))

/-- Does a card keep the table of R353? DEDUCED (log 62). -/
def cardGood (b : List Byte) : Bool :=
  let kind := fieldAt b 0 1
  let nr := fieldAt b 1 1
  let nw := fieldAt b 2 1
  let lens := (cardRegions b 64 nr ++ cardRegions b 192 nw).all (fun r => decide (1 ≤ r.2) && decide (r.2 ≤ 2 ^ 48))
  decide (1 ≤ kind) && decide (kind ≤ 3) && decide (nr ≤ 8) && decide (nw ≤ 8) && fieldAt b 3 5 == 0 && fieldAt b 24 40 == 0 &&
    (kind == 2 || fieldAt b 16 8 == 0) && lens && fieldAt b (64 + 16 * nr) (128 - 16 * nr) == 0 &&
    fieldAt b (192 + 16 * nw) (128 - 16 * nw) == 0

/-- Do two region lists share a byte? -/
def regionsMeet (a b : List (Nat × Nat)) : Bool :=
  a.any (fun x => b.any (fun y => decide (x.1 < y.1 + y.2) && decide (y.1 < x.1 + x.2)))

/-- Has a card an edge from an earlier one (R354)? -/
def edgeFrom (e n : Card) : Bool :=
  e.asid == n.asid && (regionsMeet e.writes n.reads || regionsMeet e.reads n.writes || regionsMeet e.writes n.writes)

/-- The fence handle of an accepted job written, its token lowered. -/
def Crew.accepted (c : Crew) (j : Job) (h : Word) : Crew :=
  let r := match krOf j.ins with
    | some o => o.gb
    | none => 0
  (({ c with jobs := c.jobs.filter (fun x => x.id != j.id) } : Crew).wrG r h).lowerTok (jobTok j.ins)

/-- A card accepted by the scheduler of the die (R210, R353, R354). -/
def State.acceptCard (s : State) (j : Job) (b : List Byte) : State :=
  let c := s.crew
  let die := c.place.die
  let asid := c.bindRec.asid
  if 256 ≤ (s.die die).cards.length then s
  else match s.newFence die asid c.launch with
    | none => s
    | some (n, s1) =>
      let s2 := { s1 with crew := c.accepted j (fenceHandle die n asid) }
      if !cardGood b then s2.endFence die n false
      else
        let card : Card :=
          { serial := n, asid := asid, kind := fieldAt b 0 1, a := fieldAt b 8 8, b := BitVec.ofNat 64 (fieldAt b 16 8),
            reads := cardRegions b 64 (fieldAt b 1 1), writes := cardRegions b 192 (fieldAt b 2 1), preds := [], started := false, taken := false,
            uid := c.uid, cluster := c.agent / 8 % 16, got := [], wrote := 0, held := none }
        let d := s2.die die
        let preds := (d.cards.filter (fun e => edgeFrom e card)).map (fun e => e.serial)
        s2.setDie die { d with cards := d.cards ++ [{ card with preds := preds }] }

/-- A solver job accepted by the cluster's sequencer (R211). -/
def State.acceptSolver (s : State) (j : Job) : State :=
  let c := s.crew
  let die := c.place.die
  let k := c.agent / 8
  let q := s.sequencer k
  if 4 ≤ q.queue.length then s
  else match s.newFence die c.bindRec.asid c.launch with
    | none => s
    | some (n, s1) =>
      let job : SolverJob := { serial := n, die := die, asid := c.bindRec.asid, desc := (placeOr j.a).2, uid := c.uid }
      { (s1.setSequencer k { q with queue := q.queue ++ [job] }) with crew := c.accepted j (fenceHandle die n c.bindRec.asid) }

/-! ## Completion and failure (R194-R198) -/

/-- COPY_JOB_COMPLETE (R194-R211): the job performs, and lowers its token once no sharer package has still to acknowledge a write of it
(R296), or is held on a page that is out. DEDUCED (log 64). DEDUCED (log 87). -/
def execCopyJobComplete (u id : Nat) (s : State) : Out :=
  onUid s u (fun s =>
    let c := s.crew
    match c.jobs.find? (fun j => j.id == id) with
    | none => .next s
    | some j =>
      if j.held.isSome || (collOf j.ins).isSome || s.behindJob c j then .next s
      else if isPush j.ins then (if c.awaited id = 0 then .next { s with crew := c.jobDone j 0 } else .next s)
      else match j.ins with
        | .sqgo _ _ => .next (s.acceptSolver j)
        | _ =>
          let r := s.runJob c j
          match r.fin with
          | .ok _ =>
            if isCard j.ins then .next (r.s.acceptCard j r.reads.reverse.flatten)
            else if r.s.farOut j.id then .next (r.keep j)
            else .next (({ r.s with crew := r.s.crew.jobDone j r.flags } : State).useFree 1)
          | _ => s.pauseJob j r (s.faultKind c))

/-- COPY_JOB_FAIL (R196): a job that has met a failure ends there; each destination byte holds its old value or the one the job would
have written. -/
def execCopyJobFail (u id : Nat) (s : State) : Out :=
  onUid s u (fun s =>
    let c := s.crew
    match c.jobs.find? (fun j => j.id == id) with
    | none => .next s
    | some j =>
      if j.held.isSome || (collOf j.ins).isSome || s.behindJob c j then .next s
      else if isPush j.ins then
        (if c.awaited id = 0 then .next s
         else match (s.runPush c j).1.fin with
          | .bad code t => .next { s with crew := c.failJob j code (BitVec.ofNat 64 t) }
          | _ => .next s)
      else
        let r := s.runJob c j
        match r.fin with
        | .bad code t => .next { s.mix (s.reached c j) with crew := (c.orFlags r.flags).failJob j code (BitVec.ofNat 64 t) }
        | _ => .next s)

/-! ## DRAIN (R123, R213) -/

/-- Does a job write the memory of a path? A list's destinations may be anywhere; paths 3 and 4 reach the same scratchpads. -/
def Job.writesPath (j : Job) (path : Nat) : Bool :=
  let meets := fun (p : Nat) => p == path || (decide (3 ≤ p) && decide (3 ≤ path))
  match j.ins with
  | .cpyKh _ _ | .cpyKr _ _ | .scatNative _ _ | .scatStrain _ _ _ | .gath _ _ => meets j.path
  | .cpymcKh _ _ | .cpymcKr _ _ | .collAllred _ _ _ | .collRedsc _ _ _ | .collGath _ _ _ => meets 4
  | .cpysg _ _ => true
  | .xfmTr _ _ | .xfmCvt _ _ | .xfmPsum _ _ | .dqpopKr _ _ _ => meets (placeOr j.a).1
  | .xfmBdb _ _ => meets (placeOr j.b).1
  | .dqpopKh _ _ _ => meets (placeOr j.g63).1
  | _ => false

/-- Is a copy of the core into the memory of a path, issued before a mark, still to complete (R123)? -/
def State.copiesInto (s : State) (core path mark : Nat) : Bool :=
  let die := agentDie core
  s.crews.any (fun c => c.agent == core && c.life != .retired && c.life != .killed &&
    (c.jobs.any (fun j => decide (j.id < mark) && j.writesPath path) ||
      c.vwords.any (fun v => decide (v.id < mark) &&
        (match v.kind with
         | .copy16 => v.elems.any (fun e =>
            match e.space2 with
            | .phys => path == 0
            | .spad _ => path == 3 || path == 4
            | .caddy d => (path == 1 && d == die) || (path == 2 && d != die))
         | _ => false))))

/-- DRAIN of the scalar stream (R123). DEDUCED (log 42). -/
def execDrain (path : BitVec 3) (s : State) : Out :=
  scalarState s (.drain path) [] 0 (fun s =>
    if s.copiesInto s.crew.agent path.toNat s.markS then .next (s.blockS .s .other) else .next { s with crew := s.crew.advance })

/-- DRAIN of the copy stream (R213). DEDUCED (log 42). -/
def execKDrain (gap : BitVec 4) (wait : BitVec 8) (path : BitVec 3) (s : State) : Out :=
  waitedState s .k (.kDrain gap wait path) wait (fun s =>
    if s.copiesInto s.crew.agent path.toNat (s.crew.k.mark.getD s.nextId) then .next (s.blockS .k .other)
    else .next { s with crew := s.crew.pass .k gap (s.crew.k.pc + 1) })

end Sys2Proof.Machine
end

