-- ==== Sys2Proof/Machine/Infuser.lean ====
section
/-!
DEFINITION. The Infuser: packed operands, tables and their two buffers (R355-R362).
-/

namespace Sys2Proof.Machine

/-- The prologue table of an index, where it serves the prologue (R184, R355). -/
def Kernel.ptabOf (k : Kernel) (pro n : Nat) : Option PTab :=
  match k.ptabs[n]? with
  | some p => if p.ok && p.kind == pro then some p else none
  | none => none

/-- The packed type a prologue names (R356). -/
def packedType (pro : Nat) : Nat := if pro = 1 then 0 else 7

/-- Bits of a packed element in its row stream (R356). -/
def packedBits (pro : Nat) : Nat := if pro = 2 then 3 else if pro = 3 then 4 else 1

/-- Does a handle's pitch suit the prologue (R356)? -/
def packedPitchOk (pro : Nat) (h : Handle) : Bool :=
  pro == 1 || (h.pitch % 4 == 0 && decide (4 * ((h.cols * packedBits pro + 31) / 32) ≤ h.pitch))

/-- Block size of a prologue in elements; 0 where it has no table (R356). -/
def PTab.block (p : PTab) : Nat := if p.kind = 1 then 32 * 2 ^ p.gsz else if p.kind = 4 then 0 else 128

/-- The table that an element uses (R356). -/
def PTab.tableOf (p : PTab) (r c : Nat) : Nat := r * p.tpr + c / p.block

/-- Words of a row stream, one after another: the number they make, with the words read so far (R174). -/
def State.streamWords (s : State) (c : Crew) (h : Handle) (r : Nat) : List Nat → SMap Nat → Fetch (Nat × SMap Nat)
  | [], words => .ok (0, words)
  | k :: ks, words =>
    (s.stepWord c true h.path (h.base + r * h.pitch + 4 * k) words).andThen (fun x =>
      (s.streamWords c h r ks x.2).andThen (fun y => .ok (x.1 + 2 ^ 32 * y.1, y.2)))

/-- `n` bits of a row stream from bit `lo` (R356). -/
def State.streamBits (s : State) (c : Crew) (h : Handle) (r lo n : Nat) (words : SMap Nat) : Fetch (Nat × SMap Nat) :=
  if n = 0 then .ok (0, words)
  else
    let k0 := lo / 32
    let k1 := (lo + n - 1) / 32
    (s.streamWords c h r ((List.range (k1 - k0 + 1)).map (fun i => k0 + i)) words).andThen (fun x =>
      .ok (x.1 / 2 ^ (lo % 32) % 2 ^ n, x.2))

/-- The number of set bits among the low `n`. -/
def popBits (x n : Nat) : Nat := ((List.range n).filter (fun i => x / 2 ^ i % 2 == 1)).length

/-- (q - z) * scale as bf16 (R357). -/
def int4Value (q z : Int) (scale : Nat) : Nat × Flags :=
  match fmtF16.value scale with
  | .nan _ sig => (fmtBf16.nan, flagIf sig nv)
  | .inf neg => if q = z then (fmtBf16.nan, nv) else toFltElt 0 true fmtBf16 (.inf (neg != decide (q < z)))
  | .fin neg m e => toFltElt 0 true fmtBf16 ((intVal (q - z)).mul (.fin neg m e))

/-- One expanded element and its flags (R357), with the words read so far: `table` holds its table's bytes. -/
def State.expand (s : State) (c : Crew) (h : Handle) (p : PTab) (table : List Byte) (r k : Nat) (words : SMap Nat) :
    Fetch ((Nat × Flags) × SMap Nat) :=
  match p.kind with
  | 1 =>
    (s.stepElem c true h r k words).andThen (fun y =>
      let x := y.1
      let dec := fun (v : Nat) => if v % 16 = 8 then ((0 : Int), rc) else (sVal 4 v, 0)
      let (q, f1) := dec x
      let (z, f2) := dec (fieldAt table 2 1)
      let (v, f3) := int4Value q z (fieldAt table 0 2)
      .ok ((v, f1 ||| f2 ||| f3), y.2))
  | 4 =>
    (s.streamBits c h r 0 (k + 1) words).andThen (fun x =>
      if x.1 / 2 ^ k % 2 = 0 then .ok ((0, 0), x.2)
      else
        let a := p.vbase.toNat % 2 ^ 56 + r * p.vpitch + 2 * popBits x.1 k
        (s.stepWord c true (p.vbase.toNat / 2 ^ 61) a x.2).andThen (fun b => .ok ((b.1 / 2 ^ (8 * (a % 4)) % 2 ^ 16, 0), b.2)))
  | n =>
    let w := packedBits n
    (s.streamBits c h r (w * k) w words).andThen (fun i => .ok ((fieldAt table (2 * i.1) 2, 0), i.2))

/-- Expanded elements, one after another. -/
def State.expandAll (s : State) (c : Crew) (h : Handle) (p : PTab) (table : List Byte) :
    List (Nat × Nat) → SMap Nat → Fetch (List (Nat × Flags) × SMap Nat)
  | [], words => .ok ([], words)
  | x :: xs, words =>
    (s.expand c h p table x.1 x.2 words).andThen (fun y =>
      (s.expandAll c h p table xs y.2).andThen (fun z => .ok (y.1 :: z.1, z.2)))

/-! ## Buffers (R358-R361) -/

/-- The buffer that holds or awaits a table. -/
def Core.bufferOf (c : Core) (uid ptab t : Nat) : Option InfBuf := c.inf.find? (fun b => b.uid == uid && b.ptab == ptab && b.t == t)

/-- A table to be loaded for the focused crew, with the class and scope of its sr.ocdef (R245, R360). -/
def State.tableLoad (s : State) (ptab t : Nat) : InfBuf :=
  { id := s.nextId, oc := s.crew.ocdef.toNat % 16, sc := s.crew.ocdef.toNat / 16 % 8, uid := s.crew.uid, ptab := ptab, t := t, bytes := none }

/-- A table requested: it takes the place of the buffer that is not in use; the one in use stands first. -/
def State.request (s : State) (ptab t : Nat) : State :=
  let k := s.crew.agent
  let c := s.core k
  s.fresh.2.setCore k { c with inf := c.inf.take 1 ++ [s.tableLoad ptab t] }

/-- A buffer taken into use. -/
def Core.useBuffer (c : Core) (b : InfBuf) : Core := { c with inf := b :: c.inf.filter (fun x => x != b) }

/-- One stall cycle (R359). -/
def Core.stalled (c : Core) : Core := { c with istall := c.istall + 1 }

/-- One operand stall cycle (R401). -/
def Core.starved (c : Core) : Core := { c with ostall := c.ostall + 1 }

/-- One cycle of lost decoupling (R405). -/
def Core.coupled (c : Core) : Core := { c with dloss := c.dloss + 1 }

/-- Table 0 of a prologue selected: both buffers emptied, the table requested (R358). -/
def State.selectTable (s : State) (ptab : Nat) : State :=
  let k := s.crew.agent
  s.fresh.2.setCore k { s.core k with inf := [s.tableLoad ptab 0] }

/-- A table read by the engine (R355, R360, R362). -/
def State.fetchTable (s : State) (c : Crew) (p : PTab) (t : Nat) : Fetch (List Byte) :=
  let a := p.tbase.toNat
  s.fetchRange c (a / 2 ^ 61) (a % 2 ^ 56 + t * p.tableBytes) p.tableBytes

/-- The table that a resumed crew has loaded again (R187, R362), while no buffer awaits it; its load has no identity. -/
def State.reloadDue (s : State) : List InfBuf :=
  let c := s.crew
  match c.proReload with
  | none => []
  | some t =>
    if (s.core c.agent).inf.any (fun b => b.uid == c.uid && b.bytes.isNone && b.t == t) then []
    else [{ s.tableLoad c.ptab t with id := 0 }]

/-- The loads that the crew awaits: the first tables of its MPROs, then the tables that its buffers are to hold (R358), and the one that is
loaded again at its resumption. One of an MPRO whose buffer is gone arrives and is not kept (R361). -/
def State.tablesDue (s : State) : List InfBuf :=
  let c := s.crew
  s.reloadDue ++ c.proLoads.map (fun p => { id := p.id, oc := p.oc, sc := p.sc, uid := c.uid, ptab := p.ptab, t := 0, bytes := none }) ++
    (s.core c.agent).inf.filter (fun b => b.uid == c.uid && b.bytes.isNone && !c.proLoads.any (fun p => p.id == b.id))

/-- A table has arrived: its buffer holds it, the token of its MPRO is lowered. -/
def State.tableIn (s : State) (b : InfBuf) (bytes : List Byte) : State :=
  let c := s.crew
  let core := s.core c.agent
  let c1 := match c.proLoads.find? (fun p => p.id == b.id) with
    | some p => ({ c with proLoads := c.proLoads.filter (fun x => x.id != b.id) } : Crew).lowerTok p.tok
    | none => { c with proReload := if c.proReload = some b.t then none else c.proReload }
  let keep :=
    if b.id = 0 then core.inf.take 1 ++ [{ b with bytes := some bytes }]
    else core.inf.map (fun x => if x.id = b.id then { x with bytes := some bytes } else x)
  { s.setCore c.agent { core with inf := keep } with crew := c1 }

/-- What the read of a table leaves behind it (R305, R433). -/
def State.tableSees (s : State) (p : PTab) (b : InfBuf) : State :=
  let a := p.tbase.toNat
  s.engineSees b.oc b.sc (a / 2 ^ 61) (a % 2 ^ 56 + b.t * p.tableBytes) p.tableBytes

/-- A table that cannot be read: its load is gone, and the cause is pending; a step that waits for it ends (R362). -/
def State.tableFails (s : State) (b : InfBuf) (code : BitVec 9) (va : Nat) : State :=
  let c := s.crew
  let core := s.core c.agent
  let c1 := match c.proLoads.find? (fun p => p.id == b.id) with
    | some p => ({ c with proLoads := c.proLoads.filter (fun x => x.id != b.id) } : Crew).postPend .m ⟨code, BitVec.ofNat 64 va⟩ (some p.tok)
    | none => ({ c with array := none, proReload := none } : Crew).postPend .m ⟨code, BitVec.ofNat 64 va⟩ none
  { s.setCore c.agent { core with inf := core.inf.filter (fun x => x.id != b.id) } with crew := c1 }

/-- The first of the awaited tables that can be read arrives. A fault holds the step (R362), and lets the others pass. -/
def State.tablesArrive (s : State) : List InfBuf → Out
  | [] => .next s
  | b :: bs =>
    let c := s.crew
    match c.kern.ptabs[b.ptab]? with
    | none => s.tablesArrive bs
    | some p =>
      match s.fetchTable c p b.t with
      | .ok bytes => .next ((s.tableSees p b).tableIn b bytes)
      | .held va r =>
        let hold := fun (a : ArrayOp) => { a with fifoA := [], fifoB := [], gotA := 0, gotB := 0, flags := 0, words := [], held := some (va, 6) }
        let c1 := if c.proLoads.any (fun x => x.id == b.id) then c else { c with array := c.array.map hold }
        (({ s with crew := c1 } : State).engineFault va 6 r).tablesArrive bs
      | .bad code va => .next (s.tableFails b code va)
      | .busy => s.tablesArrive bs
      | .snoop pa len => .next (s.engineRead pa len)

/-- INFUSER_TABLE_ARRIVE (R358): a table that the crew awaits arrives; the token of its MPRO is lowered by table 0. A fault holds
the step, or traps (R362). DEDUCED (log 85). -/
def execInfuserTableArrive (u : Nat) (s : State) : Out :=
  onUid s u (fun s => s.tablesArrive s.tablesDue)

end Sys2Proof.Machine
end

