-- ==== Sys2Proof/Machine/Matrix.lean ====
section
/-!
DEFINITION. The matrix stream: tile steps, nests, whole-tile words, the tile-read port and prologue selection (R57-R59, R167-R187,
R401, R402).
-/

namespace Sys2Proof.Machine

/-! ## Common checks -/

/-- A type code with the descriptors resolved (R48, R171): the code of R39 that names the same variant; 99 where none does. -/
def resolveType (b8d0 b8d1 : BitVec 5) (t : Nat) : Nat :=
  let of := fun (d : BitVec 5) =>
    let n := d.toNat
    if n / 2 % 2 = 1 ∨ n / 4 = 0 then 99 else if n % 2 = 1 then 22 + n / 4 else 15 + n / 4
  if t = 30 then of b8d0 else if t = 31 then of b8d1 else t

/-- The cause that a step raises as it would issue: its types, resolved as sr.fcsr then stands (R171), its prologue and its handles (R185,
R188, R356); class and detail. DEDUCED (log 82). -/
def Crew.stepFault (c : Crew) (f : MStepF) : Option (Nat × Nat) :=
  match lowest (stepBad c.env f) with
  | some d => some (0, d)
  | none =>
  let fa := resolveType (fcsrB8d0 c.fcsr) (fcsrB8d1 c.fcsr) f.fmta.toNat
  let fb := resolveType (fcsrB8d0 c.fcsr) (fcsrB8d1 c.fcsr) f.fmtb.toNat
  let pro := f.pro.toNat
  match c.kern.handle f.ha.toNat, c.kern.handle f.hb.toNat with
  | some a, some b =>
    -- the prologue's check comes first (R366)
    if pro != c.pro || f.ptab.toNat != c.ptab then some (5, 8)
    else if a.type != fa then some (4, 4)
    else if pro = 0 then (if b.type != fb then some (4, 4) else none)
    else if b.type != packedType pro || !packedPitchOk pro b then some (4, 4)
    else none
  | _, _ => some (4, 3)

/-- A matrix word: guard, wait tokens, class-1 checks of the registers it names, poison; then `go`. -/
def matrixWord (i : Instr) (wait : BitVec 8) (regs : List Nat) (reads : Bool) (s : State) (go : State → Out) : Out :=
  waitedState s .m i wait (fun s =>
    match s.crew.regsFault regs with
    | some d => .next (s.trapW .m 1 d 0)
    | none =>
      match (if reads then s.crew.vPoison regs [] else none) with
      | some (k, a) => .next (s.trapW .m 6 k (BitVec.ofNat 64 a))
      | none => go s)

/-- A word of the array side waits while a nest runs or the array is busy, and a word that writes a tile while it is full (R167,
R168). -/
def arraySide (s : State) (tile : Option (BitVec 3)) (go : State → Out) : Out :=
  if s.crew.nest.isSome || s.crew.array.isSome then .next (s.blockS .m .array)
  else match tile with
    | some t => if s.crew.tileFull t then .next (s.blockS .m (.tileFull t)) else go s
    | none => go s

/-- Is a token word or a parked tile read to write a register (R90, R181)? -/
def Crew.tokBusy (c : Crew) (r : Nat) : Bool :=
  c.vwords.any (fun w => w.regs.contains r) || c.port.any (fun e => e.regs.contains r)

/-- An operation enters the array. DEDUCED (log 81). -/
def Crew.enterArray (c : Crew) (id : Nat) (pc : Pc) (kind : ArrKind) (locks : List Nat) : Crew :=
  { c with array := some { id := id, kind := kind, pc := pc, fifoA := [], fifoB := [], gotA := 0, gotB := 0, flags := 0,
                           locks := locks, held := none, en := fcsrEn c.fcsr, words := [], late := locks.filter c.tokBusy } }

/-- A word of the array side issues: its operation enters the array, and the stream goes on. DEDUCED (log 81). -/
def State.issueArray (s : State) (gap : BitVec 4) (kind : ArrKind) (locks : List Nat) : State :=
  let (id, s1) := s.fresh
  let c := s1.crew
  { s1 with crew := (c.enterArray id c.m.pc kind locks).pass .m gap (c.m.pc + 1) }

/-! ## Tile steps (R170-R174) -/

/-- Does a step wait for the table of its prologue to be loaded again (R187)? -/
def Crew.proWaits (c : Crew) (f : MStepF) : Bool := f.pro != 0 && c.proReload.isSome

/-- sr.tval of a step's trap: the word's most significant 64 bits where an encoding rule is broken (R92), else 0. -/
def stepTval (cls : Nat) (i : Instr) : Word := if cls = 0 then tval0 i else 0

/-- MSTEP (R173). -/
def execMstep (f : MStepF) (s : State) : Out :=
  matrixWord (.mstep f) f.wait [] false s (fun s =>
    arraySide s (some f.acc) (fun s =>
      if s.crew.proWaits f then .next (s.blockS .m .array)
      else match s.crew.stepFault f with
        | some (k, d) => .next (s.trapW .m k d (stepTval k (.mstep f)))
        | none => .next (s.issueArray f.gap (.step f (resolveType (fcsrB8d0 s.crew.fcsr) (fcsrB8d1 s.crew.fcsr) f.fmta.toNat)
            (resolveType (fcsrB8d0 s.crew.fcsr) (fcsrB8d1 s.crew.fcsr) f.fmtb.toNat) false) [])))

/-- K of a step (R172). -/
def stepK (f : MStepF) : Nat := 32 * f.k.toNat

/-- The handle coordinates of A[i, k] (R172). -/
def coordA (f : MStepF) (i k : Nat) : Nat × Nat :=
  if f.ta = 0 then (f.arow.toNat + i, f.acol.toNat + k) else (f.arow.toNat + k, f.acol.toNat + i)

/-- The handle coordinates of B[k, j] (R172). -/
def coordB (f : MStepF) (k j : Nat) : Nat × Nat :=
  if f.tb = 0 then (f.brow.toNat + k, f.bcol.toNat + j) else (f.brow.toNat + j, f.bcol.toNat + k)

/-- Rows and columns of the B region in handle order (R358). -/
def regionB (f : MStepF) : Nat × Nat :=
  if f.tb = 0 then ((stepK f), f.nx.toNat + 1) else (f.nx.toNat + 1, (stepK f))

/-- How far a side's fetch must come: slices, or elements where the Infuser fills the FIFO. -/
def fetchGoal (f : MStepF) (sideB : Bool) : Nat :=
  if sideB && f.pro != 0 then (regionB f).1 * (regionB f).2 else (stepK f)

/-- A FIFO key. -/
def fifoKey (k n : Nat) : Nat := 128 * k + n

/-- The step abandoned and held for a page: every slice is discarded (R178, R402). -/
def ArrayOp.holdFor (a : ArrayOp) (va : Nat) : ArrayOp :=
  { a with fifoA := [], fifoB := [], gotA := 0, gotB := 0, flags := 0, words := [], held := some (va, 6) }

/-- The first address that each page gives to a list. -/
def onePerPage : List Nat → List Nat
  | [] => []
  | a :: l => a :: (onePerPage l).filter (fun b => b / 4096 != a / 4096)

/-- The words of global memory that hold `n` bits of a row stream from bit `lo` (R356). -/
def Handle.streamReach (h : Handle) (r lo n : Nat) : List Nat :=
  if h.path = 0 then (List.range ((lo + n - 1) / 32 - lo / 32 + 1)).map (fun i => h.base + r * h.pitch + 4 * (lo / 32 + i)) else []

/-- The words of global memory that expanding some elements of packed rows reads: those of their indices, or their rows' bitmaps from
column 0 with the values of the bits set, where the bitmap can be read (R356, R357). -/
def State.packedReach (s : State) (pro : Nat) (h : Handle) (p : PTab) (l : List (Nat × Nat)) : List Nat :=
  if pro = 4 then
    ((l.map (fun x => x.1)).eraseDups).flatMap (fun r =>
      let cols := (l.filter (fun x => x.1 == r)).map (fun x => x.2)
      let n := cols.foldl max 0 + 1
      let values :=
        match s.streamBits s.crew h r 0 n [] with
        | .ok x => (cols.filter (fun k => x.1 / 2 ^ k % 2 == 1)).map (fun k => (p.vbase.toNat % 2 ^ 56 + r * p.vpitch + 2 * popBits x.1 k) / 4 * 4)
        | _ => []
      h.streamReach r 0 n ++ (if p.vbase.toNat / 2 ^ 61 = 0 then values else []))
  else l.flatMap (fun x => h.streamReach x.1 (packedBits pro * x.2) (packedBits pro))

/-- Addresses of global memory that a step's fetch reaches, one per page: its handles' elements, and the words of packed rows (R172, R334,
R356). -/
def State.stepReach (s : State) (f : MStepF) : List Nat :=
  let k := 32 * f.k.toNat
  let rc := fun (t : BitVec 1) (x y : BitVec 16) (i j : Nat) => if t = 0 then (x.toNat + i, y.toNat + j) else (x.toNat + j, y.toNat + i)
  let inside := fun (h : Handle) (l : List (Nat × Nat)) => (l.map (fun x => (x.1 % 2 ^ 16, x.2 % 2 ^ 16))).filter (fun x => h.within x.1 x.2)
  let one := fun (idx : BitVec 12) (l : List (Nat × Nat)) (reach : Handle → List (Nat × Nat) → List Nat) =>
    match s.crew.kern.handle idx.toNat with
    | some h => reach h (inside h l)
    | none => []
  let elems := fun (h : Handle) (l : List (Nat × Nat)) => if h.path = 0 then l.map (fun x => (h.elemAddr x.1 x.2).1) else []
  let packed := fun (h : Handle) (l : List (Nat × Nat)) =>
    match s.crew.kern.ptabOf f.pro.toNat f.ptab.toNat with
    | some p => s.packedReach f.pro.toNat h p l
    | none => []
  onePerPage (one f.ha ((List.range (f.mx.toNat + 1)).flatMap (fun i => (List.range k).map (fun j => rc f.ta f.arow f.acol i j))) elems ++
    one f.hb ((List.range k).flatMap (fun i => (List.range (f.nx.toNat + 1)).map (fun j => rc f.tb f.brow f.bcol i j)))
      (if 2 ≤ f.pro.toNat then packed else elems))

/-- Every page that a step's fetch cannot reach posts its record (R334). -/
def State.postReach (s : State) (f : MStepF) : State :=
  (s.stepReach f).foldl (fun t a =>
    match t.stepTr t.crew.agent t.crew.bindRec.asid a 6 with
    | .denied r => t.engineFault a 6 r
    | _ => t) s

/-- The step of an operation, if it is one. -/
def ArrayOp.step? (a : ArrayOp) : Option MStepF :=
  match a.kind with
  | .step f _ _ _ => some f
  | _ => none

/-- The end of a fetch that did not bring its elements. -/
def State.fetchEnd {α : Type} (s : State) (a : ArrayOp) (x : Fetch α) (go : α → State) : Out :=
  match x with
  | .ok v => .next (go v)
  | .held va r =>
    let s1 := ({ s with crew := { s.crew with array := some (a.holdFor va) } } : State).engineFault va 6 r
    .next (a.step?.elim s1 s1.postReach)
  | .bad code t => .next { s with crew := s.crew.failStep code (BitVec.ofNat 64 t) }
  | .busy => .next s
  | .snoop pa len => .next (s.engineRead pa len)

/-- The elements of slice `k` of a side fetched from its handle (R172, R174, R401), with the words read so far. -/
def State.slice (s : State) (f : MStepF) (sideB : Bool) (k : Nat) (words : SMap Nat) : Fetch (List Nat × SMap Nat) :=
  let c := s.crew
  let (h, n) := if sideB then (f.hb, f.nx.toNat + 1) else (f.ha, f.mx.toNat + 1)
  match c.kern.handle h.toNat with
  | none => .ok ([], words)
  | some hd => s.stepElems c sideB hd ((List.range n).map (fun i => if sideB then coordB f k i else coordA f i k)) words

/-- Does a step use a table for an element within bounds (R358)? -/
def usesTable (f : MStepF) (h : Handle) (p : PTab) (t : Nat) : Bool :=
  let (rows, cols) := (regionB f)
  (List.range rows).any (fun i => (List.range cols).any (fun j =>
    let r := (f.brow.toNat + i) % 2 ^ 16
    let q := (f.bcol.toNat + j) % 2 ^ 16
    h.within r q && p.tableOf r q == t))

/-- The table that an expansion uses taken into use, and the next one requested (R358); none while it is not there. -/
def State.takeTable (s : State) (f : MStepF) (h : Handle) (p : PTab) (t : Nat) : Option (List Byte) × State :=
  let c := s.crew
  let k := c.agent
  let core := s.core k
  let n := f.ptab.toNat
  match core.bufferOf c.uid n t with
  | none => (none, s.request n t)
  | some b =>
    match b.bytes with
    | none => (none, s)
    | some bytes =>
      let s1 := s.setCore k (core.useBuffer b)
      (some bytes, if (core.bufferOf c.uid n (t + 1)).isNone && usesTable f h p (t + 1) then s1.request n (t + 1) else s1)

/-- The translations of a fetch stay in its core's TLB; an M holder of what it read passes to O, and buffered stores it returned are
noted (R305, R333, R433). -/
def State.keepReach (s : State) (oc : Nat) (l : List (Nat × Nat)) : State :=
  let s1 := (onePerPage (l.map (fun x => x.1))).foldl (fun t a => t.keepTr t.crew.agent t.crew.bindRec.asid a) s
  l.foldl (fun t x => t.engineSees oc 5 0 x.1 x.2) s1

/-- The Infuser expands elements of one row that share a table, at most 128, from the position reached (R357, R358). -/
def State.expandNext (s : State) (f : MStepF) (a : ArrayOp) (h : Handle) (p : PTab) : Out :=
  let c := s.crew
  let (_, cols) := (regionB f)
  let i := a.gotB / cols
  let j := a.gotB % cols
  let at_ := fun (n : Nat) => ((f.brow.toNat + i) % 2 ^ 16, (f.bcol.toNat + j + n) % 2 ^ 16)
  let key := fun (n : Nat) => if f.tb = 0 then fifoKey i (j + n) else fifoKey (j + n) i
  let tab := fun (n : Nat) => if p.block = 0 then 0 else (at_ n).2 / p.block
  let run := ((List.range (min 128 (cols - j))).takeWhile (fun n => tab n == tab 0))
  let inner := run.filter (fun n => h.within (at_ n).1 (at_ n).2)
  let put := fun (s : State) (got : List (Nat × Flags) × SMap Nat) =>
    let vals := got.1
    let fifo := (inner.zip vals).foldl (fun m x => SMap.set 0 m (key x.1) (BitVec.ofNat 32 x.2.1)) a.fifoB
    let fl := vals.foldl (fun f x => f ||| x.2) a.flags
    ({ s with crew := { s.crew with array := some { a with fifoB := fifo, gotB := a.gotB + run.length, flags := fl, words := got.2 } } } : State).keepReach
      f.oc.toNat (newWords a.words got.2)
  let expandAll := fun (table : List Byte) => s.expandAll c h p table (inner.map at_) a.words
  match inner with
  | [] => .next (put s ([], a.words))
  | n :: _ =>
    if p.block = 0 then s.fetchEnd a (expandAll []) (put s)
    else
      let (table, s1) := s.takeTable f h p (p.tableOf (at_ n).1 (at_ n).2)
      match table with
      | none => .next s1
      | some bytes => s1.fetchEnd a (expandAll bytes) (put s1)

/-- Does the Infuser still expand for an operation? -/
def ArrayOp.expands (a : ArrayOp) : Bool :=
  match a.kind with
  | .step f _ _ _ => f.pro != 0 && a.held.isNone && decide (a.gotB < fetchGoal f true)
  | _ => false

/-- The table that the expansion of the step in the array needs next, where it is not there (R358, R362). -/
def State.tableAwaited (s : State) (c : Crew) (a : ArrayOp) : Option Nat :=
  match a.kind with
  | .step f _ _ _ =>
    match c.kern.handle f.hb.toNat, c.kern.ptabOf f.pro.toNat f.ptab.toNat with
    | some h, some p =>
      let cols := (regionB f).2
      let row := (f.brow.toNat + a.gotB / cols) % 2 ^ 16
      let col := (f.bcol.toNat + a.gotB % cols) % 2 ^ 16
      let t := p.tableOf row col
      let there := ((s.core c.agent).bufferOf c.uid f.ptab.toNat t).any (fun b => b.bytes.isSome)
      if p.block != 0 && decide (a.gotB < fetchGoal f true) && h.within row col && (c.proReload.isSome || !there) then some t else none
    | _, _ => none
  | _ => none

/-- Is the step in the array held on a table that is not there (R358, R362)? -/
def State.onTable (s : State) (c : Crew) (a : ArrayOp) : Bool := (s.tableAwaited c a).isSome

/-- Is it the turn of a crew's step at the core's Infuser? The oldest step that it expands for comes first; one held on a page, or whose
prologue's first table is out, lets the others pass (R361). -/
def State.infuserTurn (s : State) (c : Crew) (a : ArrayOp) : Bool :=
  !s.crews.any (fun x => x.uid != c.uid && x.agent == c.agent && (x.life == .running || x.life == .halting) && x.proLoads.isEmpty && x.proReload.isNone &&
    (match x.array with
     | some b => decide (b.id < a.id) && b.expands
     | none => false))

/-- Does a crew's expansion need a table that is not usable yet (R359)? DEDUCED (log 84). -/
def State.tableStall (s : State) (c : Crew) : Bool :=
  c.proReload.isNone && c.array.any (fun a => a.expands && s.onTable c a && s.infuserTurn c a)

/-- Addresses and sizes of the elements of a slice in global memory. -/
def State.sliceReach (s : State) (f : MStepF) (sideB : Bool) (k : Nat) : List (Nat × Nat) :=
  let (h, n) := if sideB then (f.hb, f.nx.toNat + 1) else (f.ha, f.mx.toNat + 1)
  match s.crew.kern.handle h.toNat with
  | none => []
  | some hd =>
    let at_ := (List.range n).map (fun i => if sideB then coordB f k i else coordA f i k)
    if hd.path ≠ 0 then []
    else ((at_.map (fun x => (x.1 % 2 ^ 16, x.2 % 2 ^ 16))).filter (fun x => hd.within x.1 x.2)).map (fun x =>
      ((hd.elemAddr x.1 x.2).1, max 1 (eltBytes hd.type)))

/-- OPERAND_SLICE_ARRIVE (R401): the next slice of a side, or the Infuser's next elements (R358). -/
def execOperandSliceArrive (u : Nat) (sideB : Bool) (s : State) : Out :=
  onUid s u (fun s =>
    let c := s.crew
    match c.array with
    | none => .next s
    | some a =>
      match a.kind with
      | .step f _ _ _ =>
        let got := if sideB then a.gotB else a.gotA
        if a.held.isSome || (fetchGoal f sideB) ≤ got then .next s
        else if sideB && f.pro != 0 then
          match c.kern.handle f.hb.toNat, c.kern.ptabOf f.pro.toNat f.ptab.toNat with
          | some h, some p => if c.proReload.isNone && s.infuserTurn c a then s.expandNext f a h p else .next s
          | _, _ => .next s
        else
          s.fetchEnd a (s.slice f sideB got a.words) (fun l =>
            let fifo := SMap.write 0 (if sideB then a.fifoB else a.fifoA) (fifoKey got 0) (l.1.map (BitVec.ofNat 32))
            let a0 := { a with words := l.2 }
            let a1 := if sideB then { a0 with fifoB := fifo, gotB := got + 1 } else { a0 with fifoA := fifo, gotA := got + 1 }
            ({ s with crew := { c with array := some a1 } } : State).keepReach f.oc.toNat (s.sliceReach f sideB got))
      | _ => .next s)

/-- An element's exact value (R57). -/
def eltValue (t : Elt) (p : Nat) : FVal :=
  match (t.read p).1 with
  | .inl z => intVal z
  | .inr v => v

/-- The exact sum of one group's products and whether it is invalid (R44, R57, R58). DEDUCED (log 80). -/
def groupSum (l : List (FVal × FVal)) : FVal × Flags :=
  let prods := l.map (fun x => x.1.mul x.2)
  let anyNan := l.any (fun x => x.1.isNan || x.2.isNan)
  let zeroInf := l.any (fun x => infTimesZero x.1 x.2)
  let has := fun (b : Bool) => prods.any (fun p => p == FVal.inf b)
  let clash := has true && has false
  let anySig := l.any (fun x => x.1.sig || x.2.sig)
  if anyNan || zeroInf || clash then (.nan false false, flagIf (anySig || zeroInf || clash) nv)
  else if has true then (.inf true, 0)
  else if has false then (.inf false, 0)
  else
    match prods.foldl FVal.add (.fin false 0 0) with
    | .fin neg m e => (if m = 0 then .fin false 0 0 else .fin neg m e, 0)
    | v => (v, 0)

/-- Every group of a step accumulated into one element (R57). DEDUCED (log 80). -/
def accumulate (acc : Nat) (groups : List (List (FVal × FVal))) : Nat × Flags :=
  groups.foldl (fun x g =>
    let (sum, f1) := groupSum g
    let (r, f2) := fmtF32.addV 0 (fmtF32.value x.1) sum
    (r, x.2 ||| f1 ||| f2)) (acc, 0)

/-- The size of a group: 64 values of k where both formats are 8 bits wide (R57). -/
def groupSize (f : MStepF) : Nat := if eltBits f.fmta.toNat = 8 ∧ eltBits f.fmtb.toNat = 8 then 64 else 32

/-- The new elements of a step's tile, by key, and the flags of its accumulation (R173). -/
def Crew.stepResult (c : Crew) (f : MStepF) (ea eb : Elt) (a : ArrayOp) : List (Nat × Lane) × Flags :=
  let t := f.acc.toNat
  let g := groupSize f
  let one := fun (i j : Nat) =>
    let pairs := (List.range (stepK f)).map (fun k =>
      (eltValue ea (SMap.get 0 a.fifoA (fifoKey k i)).toNat, eltValue eb (SMap.get 0 a.fifoB (fifoKey k j)).toNat))
    let old := if f.zacc = 1 then 0 else (c.elem t i j).toNat
    let (v, fl) := accumulate old (pieces g (stepK f) pairs)
    ((tileKey t i j, BitVec.ofNat 32 v), fl)
  let all := (List.range (f.mx.toNat + 1)).flatMap (fun i => (List.range (f.nx.toNat + 1)).map (fun j => one i j))
  (all.map (fun x => x.1), all.foldl (fun fl x => fl ||| x.2) 0)

/-- Tile elements written. -/
def Crew.setElems (c : Crew) (l : List (Nat × Lane)) : Crew := { c with tile := l.foldl (fun m x => SMap.set 0 m x.1 x.2) c.tile }

/-- A tile marked full or empty. -/
def Crew.setTileFull (c : Crew) (t : BitVec 3) (b : Bool) : Crew := { c with tFull := SMap.set false c.tFull t.toNat b }

/-- MSCA on one element (R59): the flags of both roundings. -/
def scaleElem (acc p sa sb : Nat) : Nat × Flags :=
  let (t, f1) := fmtF32.mul 0 sa sb
  let (r, f2) := fmtF32.fma 0 t p acc
  (r, f1 ||| f2 ||| flagIf (infTimesZero (fmtF32.value t) (fmtF32.value p)) nv)

/-! ## The nest (R175-R177) -/

/-- MNSET (R175). -/
def execMnset (f : MNSetF) (s : State) : Out :=
  onCrew s (fun c => c.waited .m (.mnset f) f.wait (fun c =>
    let l : NestLevel := { count := f.count.toNat, ar := f.ar, ac := f.ac, br := f.br, bc := f.bc, ts := f.ts }
    ({ c with shadow := c.shadow.set f.lv.toNat l } : Crew).pass .m f.gap (c.m.pc + 1)))

/-- MNGO (R176). -/
def execMngo (f : MStepF) (s : State) : Out :=
  matrixWord (.mngo f) f.wait [] false s (fun s =>
    arraySide s none (fun s =>
      match s.crew.stepFault f with
      | some (k, d) => .next (s.trapW .m k d (stepTval k (.mngo f)))
      | none =>
        let c := s.crew
        let n : Nest :=
          { tmpl := f, pc := c.m.pc, pt := List.replicate 6 0, fa := resolveType (fcsrB8d0 c.fcsr) (fcsrB8d1 c.fcsr) f.fmta.toNat,
            fb := resolveType (fcsrB8d0 c.fcsr) (fcsrB8d1 c.fcsr) f.fmtb.toNat }
        .next { s with crew := ({ c with active := c.shadow, nest := some n } : Crew).pass .m f.gap (c.m.pc + 1) }))

/-- MNSTOP (R177): the step in the array completes. -/
def execMnstop (gap : BitVec 4) (wait : BitVec 8) (s : State) : Out :=
  onCrew s (fun c => c.waited .m (.mnstop gap wait) wait (fun c =>
    let a := c.array.map (fun a =>
      match a.kind with
      | .step f fa fb true => { a with kind := .step f fa fb false }
      | _ => a)
    ({ c with nest := none, array := a } : Crew).pass .m gap (c.m.pc + 1)))

/-- The point before a nest's point; none at the first. -/
def odometerBack : List (Nat × Nat) → Option (List Nat)
  | [] => none
  | (_, x) :: rest =>
    match odometerBack rest with
    | some t => some (x :: t)
    | none => if 0 < x then some ((x - 1) :: rest.map (fun y => y.1 - 1)) else none

/-- A coordinate or tile displaced by the strides of a point (R176). -/
def displaced {w : Nat} (base : BitVec w) (levels : List NestLevel) (pt : List Nat) (stride : NestLevel → BitVec w) : BitVec w :=
  (levels.zip pt).foldl (fun x l => x + BitVec.ofNat w l.2 * stride l.1) base

/-- The counts of the active table with a point. -/
def Crew.nestDigits (c : Crew) (pt : List Nat) : List (Nat × Nat) := (c.active.map (fun l => l.count)).zip pt

/-- The tile of a point. -/
def Crew.nestTile (c : Crew) (n : Nest) (pt : List Nat) : BitVec 3 := displaced n.tmpl.acc c.active pt (fun l => l.ts)

/-- The step of a nest at its point (R176). -/
def Crew.nestStep (c : Crew) (n : Nest) : MStepF :=
  let t := c.nestTile n n.pt
  let other := fun (p : Option (List Nat)) =>
    match p with
    | some q => c.nestTile n q != t
    | none => true
  let f := n.tmpl
  { f with
    arow := displaced f.arow c.active n.pt (fun l => l.ar)
    acol := displaced f.acol c.active n.pt (fun l => l.ac)
    brow := displaced f.brow c.active n.pt (fun l => l.br)
    bcol := displaced f.bcol c.active n.pt (fun l => l.bc)
    acc := t
    zacc := if other (odometerBack (c.nestDigits n.pt)) then f.zacc else 0
    fin := if other (odometer (c.nestDigits n.pt)) then f.fin else 0 }

/-- NEST_STEP_GENERATE (R176): a pending trap is entered first; a full tile holds the nest (R168). DEDUCED (log 83). -/
def execNestStepGenerate (u : Nat) (s : State) : Out :=
  onUid s u (fun s =>
    let c := s.crew
    match c.nest with
    | none => .next s
    | some n =>
      if c.life != .running || c.trap.isSome || c.act || c.array.isSome then .next s
      else if c.pendDue .m then .next { s with crew := c.enterPend .m }
      else if c.tileFull (c.nestStep n).acc || c.proWaits (c.nestStep n) then .next s
      else
        let (id, s1) := s.fresh
        .next { s1 with crew := c.enterArray id n.pc (.step (c.nestStep n) n.fa n.fb true) [] })

/-- A nest whose step has completed goes on to its next point, or has issued its last (R167, R176). -/
def Crew.nestNext (c : Crew) : Crew :=
  { c with nest := c.nest.bind (fun n => (odometer (c.nestDigits n.pt)).map (fun p => { n with pt := p })) }

/-! ## Completion in the array -/

/-- A word that has left the array: flags, and the trap of an enabled one before the stream's next word (R179). -/
def Crew.arrayDone (c : Crew) (a : ArrayOp) (own : Flags) : Crew :=
  let c1 := ({ c with array := none } : Crew).orFlags (own ||| a.flags)
  match enabledDetail a.en own with
  | some d => c1.postPend .m ⟨causeCode 2 d, a.pc.zeroExtend 64⟩ none
  | none => c1

/-- The lanes that a matrix word reads of its locked registers: a register that a token word or a tile read has written since the lock
was taken gives the old or the new value, lane by lane (R181). DESIGN CHOICE (log 86). -/
def Crew.lockedLanes (c : Crew) (free : Nat) (a : ArrayOp) (regs : List Nat) (vals : List Lane) : List Lane :=
  vals.mapIdx (fun n v =>
    let r := regs.getD (n / 32) 0
    if a.late.contains r && !c.tokBusy r && Config.freeChoice (free + n) % 2 == 1 then c.lane r (n % 32) else v)

/-- TILE_STEP_COMPLETE (R173, R180): the tile is written at once; `fin` fills it. -/
def execTileStepComplete (u : Nat) (s : State) : Out :=
  onUid s u (fun s => onCrew (s.useFree freeStep) (fun c =>
    match c.array with
    | none => c
    | some a =>
      match a.kind with
      | .step f fa fb nest =>
        if a.held.isSome || a.gotA < (fetchGoal f false) || a.gotB < (fetchGoal f true) then c
        else
          let (l, fl) := c.stepResult f (eltOf 0 0 fa) (eltOf 0 0 fb) a
          let c1 := (c.setElems l).arrayDone a fl
          let c2 := if f.fin = 1 then c1.setTileFull f.acc true else c1
          if nest then c2.nestNext else c2
      | .zero t => ({ c with tile := SMap.clear c.tile (tileKey t.toNat 0 0) 16384 } : Crew).arrayDone a 0
      | .write t row vals =>
        ({ c with tile := SMap.write 0 c.tile (tileKey t.toNat row 0) (c.lockedLanes s.free a a.locks vals) } : Crew).arrayDone a 0
      | .scale t src sa0 sb0 =>
        let sa := c.lockedLanes s.free a (a.locks.take 4) sa0
        let sb := c.lockedLanes (s.free + 4096) a (a.locks.drop 4) sb0
        let all := (List.range 128).flatMap (fun i => (List.range 128).map (fun j =>
          let (v, fl) := scaleElem (c.elem t.toNat i j).toNat (c.elem src.toNat i j).toNat (sa.getD i 0).toNat (sb.getD j 0).toNat
          ((tileKey t.toNat i j, (BitVec.ofNat 32 v : Lane)), fl)))
        (c.setElems (all.map (fun x => x.1))).arrayDone a (all.foldl (fun fl x => fl ||| x.2) 0)))

/-! ## Whole tiles and registers (R180, R181) -/

/-- A lane as the matrix stream reads it when it takes its lock (R181): the old value, or a new one where a write's window is open. A
register that was spoilt under R89 by windows now closed is undefined. DESIGN CHOICE (log 86). -/
def Crew.lockLane (c : Crew) (free r j : Nat) : Lane :=
  if c.spoilV.contains r && !c.vBusy r then Config.freeLane free
  else
    let news := (c.vwin.filter (fun w => w.regs.contains r)).flatMap (fun w => (w.lanes.filter (fun x => x.1 == 32 * r + j)).map (fun x => x.2))
    (c.lane r j :: news).getD (Config.freeChoice free % (news.length + 1)) (c.lane r j)

/-- The lanes of consecutive registers. DESIGN CHOICE (log 86). -/
def Crew.lockLanes (c : Crew) (free : Nat) (regs : List Nat) : List Lane :=
  regs.flatMap (fun r => (List.range 32).map (fun j => c.lockLane (free + 32 * r + j) r j))

/-- MZERO (R180). -/
def execMzero (gap : BitVec 4) (wait : BitVec 8) (acc : BitVec 3) (s : State) : Out :=
  matrixWord (.mzero gap wait acc) wait [] false s (fun s => arraySide s (some acc) (fun s => .next (s.issueArray gap (.zero acc) [])))

/-- The registers of a row word (R180, R182). -/
def rowRegs (f : MRowF) : List Nat := (List.range (4 * (f.mx.toNat + 1))).map (fun n => f.vx.toNat + n)

/-- MWRITE (R180): its registers are locked until it has read them. -/
def execMwrite (f : MRowF) (s : State) : Out :=
  matrixWord (.mwrite f) f.wait (rowRegs f) true s (fun s => arraySide s (some f.acc) (fun s =>
    .next ((s.issueArray f.gap (.write f.acc f.row.toNat (s.crew.lockLanes s.free (rowRegs f))) (rowRegs f)).useFree freeStep)))

/-- MSCA (R180): it waits while its source is empty. -/
def execMsca (f : MScaF) (s : State) : Out :=
  let ra := (List.range 4).map (fun n => f.sa.toNat + n)
  let rb := (List.range 4).map (fun n => f.sb.toNat + n)
  matrixWord (.msca f) f.wait (ra ++ rb) true s (fun s => arraySide s (some f.acc) (fun s =>
    if !s.crew.tileFull f.src then .next (s.blockS .m (.tileEmpty f.src))
    else .next ((s.issueArray f.gap (.scale f.acc f.src (s.crew.lockLanes s.free ra) (s.crew.lockLanes s.free rb)) (ra ++ rb)).useFree
      freeStep)))

/-! ## The tile-read port (R167, R168, R182, R183) -/

/-- A word parks in the port. -/
def State.park (s : State) (gap : BitVec 4) (i : Instr) (sig : Option Tok) (regs : List Nat) : Out :=
  let c := s.crew
  let full := match sig with
    | some t => c.tokCount t == 63
    | none => false
  if 4 ≤ c.port.length then .next (s.blockS .m .port)
  else if full then .next (s.blockS .m .tokenLimit)
  else
    let (id, s1) := s.fresh
    let e : PortEntry := { id := id, ins := i, rm := BitVec.ofNat 2 (fcsrRm c.fcsr), b8d0 := fcsrB8d0 c.fcsr, b8d1 := fcsrB8d1 c.fcsr }
    let c1 := c.claimV (s.free + 32768) regs
    let c2 := match sig with
      | some t => c1.raiseTok t
      | none => c1
    .next (({ s1 with crew := ({ c2 with port := c2.port ++ [e] } : Crew).pass .m gap (c.m.pc + 1) } : State).useFree freeStep)

/-- MREL (R183). -/
def execMrel (gap : BitVec 4) (wait : BitVec 8) (acc : BitVec 3) (s : State) : Out :=
  matrixWord (.mrel gap wait acc) wait [] false s (fun s => s.park gap (.mrel gap wait acc) none [])

/-- A row word that reads a tile. -/
def readRows (i : Instr) (f : MRowF) (s : State) : Out :=
  matrixWord i f.wait (rowRegs f) false s (fun s => s.park f.gap i (some f.sig) (rowRegs f))

/-- MREAD (R182). -/
def execMread (f : MRowF) (s : State) : Out := readRows (.mread f) f s

/-- MCVT (R182). -/
def execMcvt (f : MRowF) (s : State) : Out := readRows (.mcvt f) f s

/-- The lanes of a tile read and its flags (R182). -/
def Crew.rowLanes (c : Crew) (f : MRowF) (val : Lane → Lane × Flags) : List (Nat × Lane) × Flags :=
  let all := (List.range (128 * (f.mx.toNat + 1))).map (fun n =>
    let (v, fl) := val (c.elem f.acc.toNat (f.row.toNat + n / 128) (n % 128))
    ((32 * f.vx.toNat + n, v), fl))
  (all.map (fun x => x.1), all.foldl (fun fl x => fl ||| x.2) 0)

/-- The oldest port entry performed: registers written, poison cleared, token lowered; its flags are sticky only (R182). It waits while
a register it targets is locked (R243). -/
def Crew.readOut (c : Crew) (f : MRowF) (val : Lane → Lane × Flags) : Crew :=
  if !c.tileFull f.acc || (rowRegs f).any c.vLocked then c
  else
    let (l, fl) := c.rowLanes f val
    let c1 := { c with port := c.port.drop 1, poisonV := (rowRegs f).foldl (fun m r => SMap.set 0 m r 0) c.poisonV }
    ((c1.setLanes l).orFlags fl).lowerTok f.sig

/-- TILE_READ_PERFORM (R182). -/
def execTileReadPerform (u : Nat) (s : State) : Out :=
  onUid s u (fun s => onCrew s (fun c =>
    match c.port with
    | [] => c
    | e :: _ =>
      match e.ins with
      | .mread f => c.readOut f (fun x => (x, 0))
      | .mcvt f =>
        c.readOut f (fun x =>
          let (p, fl) := convert e.b8d0 e.b8d1 9 f.fmt.toNat e.rm.toNat true x.toNat
          (laneOf f.fmt.toNat p, fl))
      | _ => c))

/-- MREL_PERFORM (R183): the tile is emptied, its contents are kept. -/
def execMrelPerform (u : Nat) (s : State) : Out :=
  onUid s u (fun s => onCrew s (fun c =>
    match c.port with
    | [] => c
    | e :: _ =>
      match e.ins with
      | .mrel _ _ acc => if c.tileFull acc then ({ c with port := c.port.drop 1 } : Crew).setTileFull acc false else c
      | _ => c))

/-! ## Prologues (R184) -/

/-- MPRO: the prologue selected and, where it has tables, its first one requested; the loads of earlier MPROs go on (R184).
DEDUCED (log 82). -/
def proWord (i : Instr) (pro : Nat) (gap : BitVec 4) (wait : BitVec 8) (sig : BitVec 3) (ptab : BitVec 8) (s : State) : Out :=
  matrixWord i wait [] false s (fun s =>
    let c := s.crew
    let n := ptab.toNat
    if pro != 0 && (c.kern.ptabOf pro n).isNone then .next (s.trapW .m 4 3 0)
    else arraySide s none (fun s =>
      if c.tokCount sig = 63 then .next (s.blockS .m .tokenLimit)
      else
        let c1 := ({ c with pro := pro, ptab := n, proReload := none } : Crew).pass .m gap (c.m.pc + 1)
        let core := s.core c.agent
        if pro = 0 ∨ pro = 4 then .next ({ s.setCore c.agent { core with inf := [] } with crew := c1 })
        else
          let load : ProLoad := { id := s.nextId, ptab := n, tok := sig, oc := c.ocdef.toNat % 16, sc := c.ocdef.toNat / 16 % 8 }
          .next { s.selectTable n with crew := { c1.raiseTok sig with proLoads := c1.proLoads ++ [load] } }))

/-- MPRO .none (R184). -/
def execMproNone (gap : BitVec 4) (wait : BitVec 8) (sig : BitVec 3) (ptab : BitVec 8) (s : State) : Out :=
  proWord (.mproNone gap wait sig ptab) 0 gap wait sig ptab s

/-- MPRO .int4 (R184). -/
def execMproInt4 (gap : BitVec 4) (wait : BitVec 8) (sig : BitVec 3) (ptab : BitVec 8) (s : State) : Out :=
  proWord (.mproInt4 gap wait sig ptab) 1 gap wait sig ptab s

/-- MPRO .cb3 (R184). -/
def execMproCb3 (gap : BitVec 4) (wait : BitVec 8) (sig : BitVec 3) (ptab : BitVec 8) (s : State) : Out :=
  proWord (.mproCb3 gap wait sig ptab) 2 gap wait sig ptab s

/-- MPRO .cb4 (R184). -/
def execMproCb4 (gap : BitVec 4) (wait : BitVec 8) (sig : BitVec 3) (ptab : BitVec 8) (s : State) : Out :=
  proWord (.mproCb4 gap wait sig ptab) 3 gap wait sig ptab s

/-- MPRO .bmap (R184). -/
def execMproBmap (gap : BitVec 4) (wait : BitVec 8) (sig : BitVec 3) (ptab : BitVec 8) (s : State) : Out :=
  proWord (.mproBmap gap wait sig ptab) 4 gap wait sig ptab s

end Sys2Proof.Machine
end

