-- ==== Sys2Proof/Machine/Ray.lean ====
section
/-!
DEFINITION. Ray traversal units: nodes, slabs and the leaf test (R164, R398-R400).
-/

namespace Sys2Proof.Machine

/-- A ray: origin, direction, tmin and tmax as f32 patterns (R164). -/
structure Ray where
  o : List Nat
  d : List Nat
  tmin : Nat
  tmax : Nat

/-- A hit: t, primitive index, u, v. -/
structure Hit where
  t : Nat
  prim : Nat
  u : Nat
  v : Nat

/-- A finite value as a rational. -/
def ratOf (neg : Bool) (m : Nat) (e : Int) : Rat :=
  let q : Rat := (m : Rat) * (2 : Rat) ^ e
  if neg then -q else q

/-- A bound of an interval. -/
inductive Bound where
  | low
  | at_ (q : Rat)
  | high
  deriving DecidableEq

/-- A value as a bound; a NaN has none. -/
def boundOf (v : FVal) : Option Bound :=
  match v with
  | .nan _ _ => none
  | .inf neg => some (if neg then .low else .high)
  | .fin n m e => some (.at_ (ratOf n m e))

/-- Is one bound at most another? -/
def Bound.le (a b : Bound) : Bool :=
  match a, b with
  | .low, _ => true
  | _, .high => true
  | .at_ x, .at_ y => decide (x ≤ y)
  | _, _ => false

/-- The greater of two bounds. -/
def Bound.max (a b : Bound) : Bound := if a.le b then b else a

/-- The lesser of two bounds. -/
def Bound.min (a b : Bound) : Bound := if a.le b then a else b

/-- The parameter at which a finite ray reaches a plane. -/
def Bound.cross (o d : Rat) (b : Bound) : Bound :=
  match b with
  | .at_ x => .at_ ((x - o) / d)
  | .low => if 0 < d then .low else .high
  | .high => if 0 < d then .high else .low

/-- The interval of one axis (R399): a zero direction gives all t or nothing. -/
def slab (o d : Rat) (lo hi : Bound) : Bound × Bound :=
  if d = 0 then (if lo.le (.at_ o) && (Bound.at_ o).le hi then (.low, .high) else (.high, .low))
  else if 0 < d then (Bound.cross o d lo, Bound.cross o d hi)
  else (Bound.cross o d hi, Bound.cross o d lo)

/-- The rational of a finite pattern. -/
def finRat (p : Nat) : Rat :=
  match f32 p with
  | .fin n m e => ratOf n m e
  | _ => 0

/-- The interval of a ray with a box (R399). -/
def boxSpan (r : Ray) (box : List (Bound × Bound)) : Bound × Bound :=
  ((r.o.zip r.d).zip box).foldl (fun x a =>
    let (lo, hi) := slab (finRat a.1.1) (finRat a.1.2) a.2.1 a.2.2
    (x.1.max lo, x.2.min hi)) (.low, .high)

/-- The box of a node's child (R398). -/
def childBox (node : List Byte) (i : Nat) : List (Bound × Bound) :=
  let e : Int := (fieldAt node 15 1 : Int) - 127
  (List.range 3).map (fun k =>
    let o := f32 (fieldAt node (4 * k) 4)
    let lo := fieldAt node (16 + 6 * i + k) 1
    let hi := fieldAt node (19 + 6 * i + k) 1
    let edge := fun (mode q : Nat) => (boundOf (f32 (fmtF32.addV mode o (.fin false q e)).1)).getD .low
    (edge 2 lo, edge 3 hi))

/-- The leaf test (R400): a NaN anywhere is a miss; an edge function keeps the sign of its exact value. -/
def leafTest (r : Ray) (cull : Bool) (tcur : Nat) (leaf : List Byte) : Option Hit :=
  let o := fun k => f32 (r.o.getD k 0)
  let d := fun k => r.d.getD k 0
  let mag := fun k => fmtF32.signOp false (d k)
  let kz := if mag 0 ≥ mag 1 ∧ mag 0 ≥ mag 2 then 0 else if mag 1 ≥ mag 2 then 1 else 2
  let ex := decide (0x80000000 < d kz)
  let kx := if ex then (kz + 2) % 3 else (kz + 1) % 3
  let ky := if ex then (kz + 1) % 3 else (kz + 2) % 3
  let sx := (fmtF32.div 0 (d kx) (d kz)).1
  let sy := (fmtF32.div 0 (d ky) (d kz)).1
  let sz := (fmtF32.div 0 0x3F800000 (d kz)).1
  let point := fun (n : Nat) =>
    let q := fun k => f32 (rne ((f32 (fieldAt leaf (4 + 12 * n + 4 * k) 4)).add (o k).neg))
    let px := rne ((q kx).add ((f32 sx).mul (q kz)).neg)
    let py := rne ((q ky).add ((f32 sy).mul (q kz)).neg)
    let pz := rne ((f32 sz).mul (q kz))
    (px, py, pz)
  let (ax, ay, az) := point 0
  let (bx, by_, bz) := point 1
  let (cx, cy, cz) := point 2
  let cross := fun a b c d => ((f32 a).mul (f32 b)).add ((f32 c).mul (f32 d)).neg
  let edges := [cross cx by_ cy bx, cross ax cy ay cx, cross bx ay by_ ax]
  let u := rne (edges.getD 0 (.nan false false))
  let v := rne (edges.getD 1 (.nan false false))
  let w := rne (edges.getD 2 (.nan false false))
  let det := rne (((f32 u).add (f32 v)).add (f32 w))
  let num := rne ((((f32 u).mul (f32 az)).add ((f32 v).mul (f32 bz))).add ((f32 w).mul (f32 cz)))
  let t := (fmtF32.div 0 num det).1
  let bu := (fmtF32.div 0 v det).1
  let bv := (fmtF32.div 0 w det).1
  let zero : FVal := .fin false 0 0
  let anyNan := ([ax, ay, az, bx, by_, bz, cx, cy, cz, u, v, w, det, num, t, bu, bv, sx, sy, sz, r.tmin, tcur] ++ r.o ++ r.d).any
    (fun p => (f32 p).isNan)
  let zeroDir := r.d.all (fun p => (f32 p).eq zero)
  let le := fun a b => FVal.lt false (f32 a) (f32 b) || (f32 a).eq (f32 b)
  if zeroDir || anyNan then none
  else if edges.any (fun x => FVal.lt false x zero) && edges.any (fun x => FVal.lt false zero x) then none
  else if (f32 det).eq zero then none
  else if cull && FVal.lt false (f32 det) zero && fieldAt leaf 44 1 % 2 == 0 then none
  else if le r.tmin t && le t tcur then some { t := t, prim := fieldAt leaf 40 4, u := bu, v := bv }
  else none

/-- The better of the hit so far and a new one: least t, then least primitive index (R164). -/
def better (best : Option Hit) (h : Hit) : Hit :=
  match best with
  | none => h
  | some b => if FVal.lt false (f32 h.t) (f32 b.t) || ((f32 h.t).eq (f32 b.t) && decide (h.prim < b.prim)) then h else b

/-- Insertion by entering t, the lower child first on a tie (R399). -/
def insertVisit (x : Bound × Bound × Nat) : List (Bound × Bound × Nat) → List (Bound × Bound × Nat)
  | [] => [x]
  | y :: ys => if y.1.le x.1 then y :: insertVisit x ys else x :: y :: ys

/-- The children of a node in the order of their entry, with their intervals and addresses. -/
def childVisits (r : Ray) (sbase : Nat) (node : List Byte) : List (Bound × Bound × Nat) :=
  let e := fieldAt node 15 1
  if e = 0 ∨ e = 255 then []
  else
    ((List.range 8).filter (fun i => decide (fieldAt node (16 + 6 * i) 1 ≤ fieldAt node (19 + 6 * i) 1))).foldl (fun l i =>
      let (lo, hi) := boxSpan r (childBox node i)
      if lo.le hi then insertVisit (lo, hi, sbase + 64 * (fieldAt node 12 3 + i)) l else l) []

/-- Does an interval meet [tmin, tcur] (R399)? -/
def meetsRange (tmin tcur : Nat) (lo hi : Bound) : Bool :=
  match boundOf (f32 tmin), boundOf (f32 tcur) with
  | some a, some b => lo.le b && a.le hi && a.le b
  | _, _ => false

/-- The traversal (R399): records still to visit, depth first; `fuel` bounds the records. A traversal that never ends has no
result. DEDUCED (log 78). -/
def State.traverse (s : State) (die asid : Nat) (r : Ray) (first cull : Bool) (sbase : Nat) :
    Nat → List (Bound × Bound × Nat) → Option Hit → Option (Got (Option Hit))
  | _, [], best => some (.pure best)
  | 0, _ :: _, _ => none
  | fuel + 1, (lo, hi, at_) :: rest, best =>
    let tcur := match best with
      | some b => b.t
      | none => r.tmax
    if !meetsRange r.tmin tcur lo hi then s.traverse die asid r first cull sbase fuel rest best
    else match s.unitRead die asid at_ 64 with
      | .fail k va => some (.fail k va)
      | .ok seen rec =>
        let go :=
          if fieldAt rec 0 4 = 0xFFFFFFFF then
            match leafTest r cull tcur rec with
            | none => s.traverse die asid r first cull sbase fuel rest best
            | some h => if first then some (.pure (some h)) else s.traverse die asid r first cull sbase fuel rest (some (better best h))
          else s.traverse die asid r first cull sbase fuel (childVisits r sbase rec ++ rest) best
        go.map (fun g => (Got.ok seen ()).andThen (fun _ => g))

/-- Are components finite? R399 gives the slabs of a ray with finite ones. -/
def allFinite (l : List Nat) : Bool :=
  l.all (fun p =>
    match f32 p with
    | .fin _ _ _ => true
    | _ => false)

/-- Is any quantity of a ray a NaN? Such a ray misses every leaf (R400). -/
def Ray.anyNan (r : Ray) : Bool := (r.tmin :: r.tmax :: r.o ++ r.d).any (fun p => (f32 p).isNan)

/-- Records a traversal visits at most before the model calls it endless. -/
def visitFuel : Nat := 2 ^ 64

/-- The result lanes of a miss (R164). -/
def missLanes : List Nat := [0x7F800000, 0xFFFFFFFF, 0, 0]

/-- The result lanes of a ray's end. -/
def hitLanes (h : Option Hit) : List Nat :=
  match h with
  | none => missLanes
  | some h => [h.t, h.prim, h.u, h.v]

/-- Has a node no child that is not empty (R398)? -/
def childless (node : List Byte) : Bool :=
  let e := fieldAt node 15 1
  e == 0 || e == 255 || (List.range 8).all (fun i => decide (fieldAt node (19 + 6 * i) 1 < fieldAt node (16 + 6 * i) 1))

/-- The result of a ray with an infinite component, which R399 gives no slabs, once its root is read. An infinite origin, or two infinite
directions, bring a NaN into every leaf's test, so the ray misses (R400). With one infinite direction a root that is a leaf is tested, and
a root that has children leaves the result open: free values. DEDUCED (log 78). -/
def Ray.unbounded (r : Ray) (free : Nat) (cull : Bool) (root : List Byte) : List Nat :=
  if !allFinite r.o || decide (1 < (r.d.filter (fun p => !allFinite [p])).length) then missLanes
  else if fieldAt root 0 4 = 0xFFFFFFFF then hitLanes (leafTest r cull r.tmax root)
  else if childless root then missLanes
  else (List.range 4).map (fun i => (Config.freeLane (free + i)).toNat)

/-- The four result lanes of a ray (R164). A NaN, a zero direction or tmin > tmax misses every leaf (R400). DEDUCED (log 78). -/
def State.rayLane (s : State) (free die asid : Nat) (root sbase : Nat) (flags : Nat) (r : Ray) : Option (Got (List Nat)) :=
  let cull := flags / 2 % 2 == 1
  if r.anyNan || r.d.all (fun p => p % 2 ^ 31 == 0) || FVal.lt false (f32 r.tmax) (f32 r.tmin) then some (.pure missLanes)
  else if !allFinite r.o || !allFinite r.d then some ((s.unitRead die asid root 64).andThen (fun b => .pure (r.unbounded free cull b)))
  else
    (s.traverse die asid r (flags % 2 == 1) cull sbase visitFuel [(.low, .high, root)] none).map (fun g =>
      g.andThen (fun h => .pure (hitLanes h)))

end Sys2Proof.Machine
end

