-- ==== Sys2Proof/Machine/Message.lean ====
section
/-!
DEFINITION. The graphics messages TEX, TEX3, RAYQ and PEXP: issue and completion (R161-R165).
-/

namespace Sys2Proof.Machine

/-- The run of registers a field names (R161). -/
def runOf (o : VOpd) (n : Nat) : List Nat := (List.range n).map (fun i => o.idx.toNat + i)

/-- The sources of a message read in its issue cycle: for each active lane the run of A, then B where the word reads it. -/
def Crew.messageArgs (c : Crew) (free : Nat) (act : Lane) (a : VOpd) (n : Nat) (b : Option VOpd) : List (Nat × List Lane) :=
  (lanesOf act).map (fun j =>
    (j, (List.range n).map (fun i => c.readLane (free + 32 * i + j) (a.idx.toNat + i) j) ++
      (match b with
       | some o => [c.src (free + 1024 + j) o 0 j]
       | none => [])))

/-- A message issues (R161): its token is raised, and its destinations are undefined until the token is lowered. -/
def State.sendMessage (s : State) (i : Instr) (f : VGfx) (nA : Nat) (b : Option VOpd) (nD : Nat) : State :=
  let c := s.crew
  let act := c.activeLanes (s.free + 50000) f.h
  let (id, s1) := s.fresh
  let regs := runOf f.d nD
  let zeros := if f.h.mmode = 2 then regs.flatMap (fun r => (lanesOf (~~~act)).map (fun j => 32 * r + j)) else []
  let v : VWord :=
    { id := id, kind := .message i, tok := f.tok, ty := f.ty.toNat, oc := 0, sc := 0, elems := [], zeros := zeros, regs := regs,
      closes := none, olds := [], flags := 0, pc := c.v.pc, poisoned := none, args := c.messageArgs s.free act f.a nA b,
      en := fcsrEn c.fcsr, mayFlag := false }
  s1.issueV f.h v

/-- What a message names: its runs and its b operand (R161, R166). -/
def messageUse (f : VGfx) (nA : Nat) (b : Option VOpd) (nD : Nat) : VUse :=
  { srcs := f.a :: b.toList, dregs := runOf f.d nD, sregs := runOf f.a nA, dmasks := [], dst := if nD = 0 then none else some f.d }

/-- A message: its runs checked, its slots judged, then issued (R161). sr.tval is 0 for a class-5 cause. DESIGN CHOICE (log 43). -/
def messageWord (i : Instr) (f : VGfx) (nA : Nat) (b : Option VOpd) (nD : Nat) (bad : State → Option Nat) (s : State) : Out :=
  vectorWord i f.h (messageUse f nA b nD) (some f.tok) s (fun s =>
    match bad s with
    | some d => .next (s.trapW .v 5 d 0)
    | none => .next (s.sendMessage i f nA b nD))

/-- Is a texture slot of a kind with its sampler present? -/
def Kernel.hasTexture (k : Kernel) (kind : Nat) (desc : BitVec 12) : Bool :=
  (k.texture kind (desc.toNat / 16)).isSome && (k.sampler (desc.toNat % 16)).isSome

/-- TEX (R162). -/
def execTex (f : VGfx) (s : State) : Out :=
  messageWord (.tex f) f 2 (some f.b) 4 (fun s => if s.crew.kern.hasTexture 1 f.desc then none else some 7) s

/-- TEX3 (R163). -/
def execTex3 (f : VGfx) (s : State) : Out :=
  messageWord (.tex3 f) f 3 none 1 (fun s => if s.crew.kern.hasTexture 2 f.desc then none else some 7) s

/-- RAYQ (R164). -/
def execRayq (f : VGfx) (s : State) : Out :=
  messageWord (.rayq f) f 8 none 4 (fun s => if (s.crew.kern.structure_ (f.desc.toNat / 16)).isSome then none else some 7) s

/-- Is a pass the one of a raster identity? -/
def Pass.has (p : Pass) (r : RasterId) : Bool := p.die == r.die && p.own == r.own && p.q == r.q

/-- The pass a pixel crew belongs to. -/
def State.passOf (s : State) (r : RasterId) : Option Pass := s.passes.find? (fun p => p.has r)

/-- The render targets a pass defines (R386). -/
def Pass.targets (p : Pass) : List Nat := 0 :: p.attach.map (fun b => fieldAt b 1 1)

/-- Why a PEXP traps before issue (R165): no pixel crew, or a target the pass does not define. -/
def State.exportBad (s : State) (target : Nat) : Option Nat :=
  match s.crew.raster with
  | none => some 6
  | some r =>
    match s.passOf r with
    | none => some 7
    | some p => if p.targets.contains target then none else some 7

/-- PEXP (R165). -/
def execPexp (f : VGfx) (s : State) : Out :=
  messageWord (.pexp f) f 4 (if f.desc.getLsbD 4 then some f.b else none) 0 (fun s => s.exportBad (f.desc.toNat % 8)) s

/-! ## Completion -/

/-- The pixel of a lane of a block (R391). -/
def blockPixel (x0 y0 j : Nat) : Nat × Nat :=
  let q := j / 4
  (x0 + 2 * (q % 4) + j % 2, y0 + 2 * (q / 4) + j / 2 % 2)

/-- What a message gives for one lane: its results by register; none while it has no result. -/
def State.messageLane (s : State) (i : Instr) (ty free : Nat) (args : List Lane) : Option (Got (List Nat)) :=
  let c := s.crew
  let die := c.place.die
  let asid := c.bindRec.asid
  let a := fun n => (args.getD n 0).toNat
  let f16 := fun (l : List Nat) => if ty = 10 then l.map (fun p => (convert 0 0 9 10 0 false p).1) else l
  match i with
  | .tex f =>
    match c.kern.texture 1 (f.desc.toNat / 16), c.kern.sampler (f.desc.toNat % 16) with
    | some t, some p => some ((s.texLane free die asid t p (a 0) (a 1) (a 2)).andThen (fun l => .pure (f16 l)))
    | _, _ => none
  | .tex3 f =>
    match c.kern.texture 2 (f.desc.toNat / 16), c.kern.sampler (f.desc.toNat % 16) with
    | some t, some p => some (s.tex3Lane die asid t p (a 0) (a 1) (a 2))
    | _, _ => none
  | .rayq f =>
    match c.kern.structure_ (f.desc.toNat / 16) with
    | some (root, sbase) =>
      s.rayLane free die asid root sbase (f.desc.toNat % 16)
        { o := (List.range 3).map a, d := (List.range 3).map (fun n => a (3 + n)), tmin := a 6, tmax := a 7 }
    | none => none
  | _ => none

/-- The results of every active lane, keyed by register and lane. -/
def State.messageLanes (s : State) (i : Instr) (v : VWord) : Option (Got (List (Nat × Lane))) :=
  v.args.foldl (fun acc x =>
    match acc with
    | some (.ok seen l) =>
      (s.messageLane i v.ty (s.free + 8 * x.1) x.2).map (fun g =>
        (Got.ok seen l).andThen (fun l => g.andThen (fun r =>
          .pure (l ++ (v.regs.zip r).map (fun y => (32 * y.1 + x.1, BitVec.ofNat 32 y.2))))))
    | other => other) (some (.pure []))

/-- log2 of the samples per pixel, as their number. -/
def Pass.samples_ (p : Pass) : Nat := 2 ^ (fieldAt p.target 1 1 % 4)

/-- A colour target of the pass: address, pitch, format, load, blend and clear colour. -/
def Pass.colour (p : Pass) (n : Nat) : Option (Nat × Nat × Nat × Bool × Nat × List Nat) :=
  let clear := fun (b : List Byte) (at_ : Nat) => (List.range 4).map (fun i => fieldAt b (at_ + 4 * i) 4)
  if n = 0 then
    some (fieldAt p.target 8 8, fieldAt p.target 16 4, fieldAt p.target 2 1 % 4, fieldAt p.target 2 1 / 8 % 2 == 1,
      fieldAt p.target 63 1, clear p.target 40)
  else (p.attach.find? (fun b => fieldAt b 1 1 == n)).map (fun b =>
    (fieldAt b 8 8, fieldAt b 16 4, fieldAt b 2 1 % 4, fieldAt b 2 1 / 8 % 2 == 1, fieldAt b 3 1, clear b 24))

/-- The type code of a colour format. -/
def colourType (fmt : Nat) : Nat := if fmt = 0 then 9 else if fmt = 1 then 10 else 5

/-- The address of a sample in a buffer of elements of `n` bytes (R386). -/
def Pass.sampleAddr (p : Pass) (base pitch n x y i : Nat) : Nat := base + y * pitch + (x * p.samples_ + i) * n

/-- The addresses and lengths of what the blend unit reaches for one sample: the target's element, and where the draw tests late, the
stored depth and stencil (R386, R390). -/
def Pass.sampleRanges (p : Pass) (late : Bool) (target x y i : Nat) : List (Nat × Nat) :=
  let colour := match p.colour target with
    | some (base, pitch, fmt, _, _, _) =>
      let n := 4 * eltBytes (colourType fmt)
      [(p.sampleAddr base pitch n x y i, n)]
    | none => []
  let dpitch := fieldAt p.target 20 4
  let deep := if late && fieldAt p.target 3 1 / 16 % 2 == 1 then
      [(p.sampleAddr (fieldAt p.target 24 8) dpitch 4 x y i, 4), (p.sampleAddr (fieldAt p.target 32 8) (dpitch / 4) 1 x y i, 1)]
    else []
  colour ++ deep

/-- The reads of a PEXP's lanes tried: a translation fault is met here, not in the blend unit (R161, R334). -/
def State.exportReads (s : State) (f : VGfx) (v : VWord) : Got (List (List Byte)) :=
  match s.crew.raster.bind (fun r => (s.passOf r).map (fun p => (r, p))) with
  | none => .pure []
  | some (r, p) =>
    let ranges := v.args.flatMap (fun x =>
      let (px, py) := blockPixel r.x0 r.y0 x.1
      let live := (if r.late then r.cover else r.pass).getD x.1 0
      (List.range p.samples_).flatMap (fun i =>
        if live.testBit i then p.sampleRanges r.late (f.desc.toNat % 8) px py i else []))
    Got.all (fun x => s.unitRead p.die p.asid x.1 x.2) ranges

/-- The exports of a PEXP handed to the blend unit: those of lanes with a covered sample (R165, R391). -/
def State.acceptExports (s : State) (f : VGfx) (v : VWord) : State :=
  match s.crew.raster with
  | none => s
  | some r =>
    v.args.foldl (fun s x =>
      if r.cover.getD x.1 0 = 0 then s
      else
        let (id, s1) := s.fresh
        let e : Export := { id := id, word := v.id, rid := r, lane := x.1, target := f.desc.toNat % 8, rgba := x.2.take 4, depth := x.2[4]? }
        { s1 with passes := s1.passes.map (fun p => if p.has r then { p with exports := p.exports ++ [e] } else p) }) s

/-- GRAPHICS_MESSAGE_COMPLETE (R161): the lanes are written, or zeros and a class-3 trap follow a translation fault; a PEXP that meets
one exports nothing. DESIGN CHOICE (log 115). -/
def execGraphicsMessageComplete (u id : Nat) (s : State) : Out :=
  onUid s u (fun s =>
    let c := s.crew
    match c.vwords.find? (fun v => v.id == id) with
    | none => .next s
    | some v =>
      let zeros := v.zeros.map (fun k => (k, (0 : Lane)))
      match v.kind with
      | .message (.pexp f) =>
        (match s.exportReads f v with
         | .ok _ _ => .next { (s.acceptExports f v) with crew := c.landWord v [] 0 false }
         | .fail r va =>
           .next { s with crew := (c.landData v [] 0).postPend .v ⟨causeCode 3 (48 + r), BitVec.ofNat 64 va⟩ (some v.tok) })
      | .message i =>
        match s.messageLanes i v with
        | none => .next s
        | some (.ok seen l) => .next (({ s.unitSees seen with crew := c.landWord v (zeros ++ l) 0 false } : State).useFree 1024)
        | some (.fail r va) =>
          let l := v.args.flatMap (fun x => v.regs.map (fun g => (32 * g + x.1, (0 : Lane))))
          let c1 := (c.landData v (zeros ++ l) 0).postPend .v ⟨causeCode 3 (48 + r), BitVec.ofNat 64 va⟩ (some v.tok)
          .next (({ s with crew := c1 } : State).useFree 1024)
      | _ => .next s)

end Sys2Proof.Machine
end

