-- ==== Sys2Proof/Machine/Crew.lean ====
section
/-!
DEFINITION. The life of a crew as it runs: gaps and issue, coupling deadlock, trap entry, retirement, pre-emption and what still
arrives in a sealed image (R20-R36, R86, R118, R254-R261, R352).
-/

namespace Sys2Proof.Machine

/-! ## Issue (R35, R86, R118) -/

/-- ISSUE_GAP_ELAPSE (R86): the gap behind a word has run out. DEDUCED (log 28). -/
def execIssueGapElapse (u : Nat) (st : Strm) (s : State) : Out :=
  onUid s u (fun s => onCrew s (fun c => c.setStrm st { c.strm st with gap := 0 }))

/-- ISSUE_STARVATION_BOOST (R35): a stream that could issue and has not for 48 cycles goes first. DEDUCED (log 28). -/
def execIssueStarvationBoost (u : Nat) (st : Strm) (s : State) : Out :=
  onUid s u (fun s => onCrew s (fun c =>
    if c.canIssue st && (c.strm st).starves s.now then c.setStrm st { c.strm st with boosted := true } else c))

/-- YIELD_RELEASE (R118): the scalar stream is eligible again. -/
def execYieldRelease (u : Nat) (s : State) : Out := onUid s u (fun s => onCrew s (fun c => { c with yielded := false }))

/-! ## Traps (R254) -/

/-- TRAP_ENTRY (R254): the trap that waits is taken once no result is in flight; a crew that halts records it (R260). -/
def execTrapEntry (u : Nat) (s : State) : Out :=
  onUid s u (fun s => onCrew s (fun c => if c.life == .running then c.takeTrap else c))

/-! ## Coupling deadlock (R28, R168, R169) -/

/-- The tile that a parked entry awaits (R168). -/
def PortEntry.tile (e : PortEntry) : BitVec 3 :=
  match e.ins with
  | .mread f => f.acc
  | .mcvt f => f.acc
  | .mrel _ _ acc => acc
  | _ => 0

/-- The token of a parked entry. -/
def PortEntry.tok? (e : PortEntry) : Option Tok :=
  match e.ins with
  | .mread f => some f.sig
  | .mcvt f => some f.sig
  | _ => none

/-- Can the port's oldest entry be performed (R168)? -/
def Crew.portReady (c : Crew) : Bool :=
  match c.port with
  | e :: _ => c.tileFull e.tile
  | [] => false

/-- The tile at which a nest is held (R168). DEDUCED (log 83). -/
def Crew.nestHeldAt (c : Crew) : Option (BitVec 3) :=
  match c.nest with
  | some n => if c.array.isNone && c.tileFull (c.nestStep n).acc then some (c.nestStep n).acc else none
  | none => none

/-- The full/empty resources a blocked stream waits on now, as waits; none where it is blocked on none (R25, R169). A parked read whose own
tile is full waits behind the port's oldest entry, and so on the tile which that one awaits (R168). -/
def Crew.couplingOf (c : Crew) (st : Strm) : Option (List Wait) :=
  let x := c.strm st
  let one := fun (p : Bool) => if p then some [x.wait] else none
  if x.isIdle then none
  else match x.wait with
    | .flag f => one (!c.flagFull f)
    | .shared g => one (c.gEmpty g)
    | .tileFull t => one (c.tileFull t)
    | .tileEmpty t => one (!c.tileFull t)
    | .queue q n push => one (if push then decide (16 < (c.dq.getD q []).length + n) else decide ((c.dqHeld q).length < n))
    | .port => (c.port.head?).bind (fun e => if c.tileFull e.tile then none else some [.tileEmpty e.tile])
    | .array => c.nestHeldAt.map (fun t => [.tileFull t])
    | .token mask lim =>
      let waiting := (List.range 8).filter (fun i => mask.getLsbD i && decide (lim < SMap.get 0 c.tok i))
      let parked := fun (i : Nat) => c.port.filter (fun e => e.tok? == some (BitVec.ofNat 3 i))
      let first := (c.port.head?).elim 0 PortEntry.tile
      if (st == .s || st == .v) && !waiting.isEmpty && !c.portReady &&
          waiting.all (fun i => decide ((parked i).length = SMap.get 0 c.tok i)) then
        some (waiting.flatMap (fun i => (parked i).map (fun e => .tileEmpty (if c.tileFull e.tile then first else e.tile))))
      else none
    | _ => none

/-- Does the scalar stream wait in RDV or HALT for a stream that is coupling-blocked? -/
def Crew.joinsBlocked (c : Crew) : Bool :=
  let blocked := fun (st : Strm) => (c.couplingOf st).isSome
  match c.s.wait with
  | .rdv mask => ([.v, .m, .k] : List Strm).any (fun st => inMask mask st && blocked st)
  | .retire => ([.v, .m, .k] : List Strm).any blocked
  | _ => false

/-- Will an operation in flight write or empty a resource? A nest that goes on counts as one that may. -/
def Crew.willChange (c : Crew) (w : Wait) : Bool :=
  match w with
  | .flag f => c.vwin.any (fun x =>
      match x.flag with
      | some (g, _) => g == f
      | none => false)
  | .shared g =>
    c.vwin.any (fun x =>
      match x.shared with
      | some (r, _) => r == g
      | none => false) ||
    c.sres.any (fun r => r.d == g) ||
    c.jobs.any (fun j =>
      match j.ins with
      | .jsub _ o => o.gb == g
      | .sqgo _ o => o.gb == g
      | _ => false)
  | .tileEmpty t =>
    (match c.array with
     | some a =>
       (match a.kind with
        | .step f _ _ _ => f.acc == t && f.fin == 1
        | _ => false)
     | none => false)
  | .queue q _ _ => (c.dq.getD q []).any (fun e => e.bytes.isNone)
  | _ => false

/-- Is the crew coupling-deadlocked (R28)? `infuser` says that a table load of it is outstanding. DEDUCED (log 29). -/
def Crew.deadlocked (c : Crew) (infuser : Bool) : Bool :=
  let live := ([.s, .v, .m, .k] : List Strm).filter (fun st => !(c.strm st).isIdle)
  let waits := live.filterMap c.couplingOf
  c.life == .running && c.trap.isNone && !infuser && !c.portReady && (c.nest.isNone || c.nestHeldAt.isSome) && !waits.isEmpty &&
    live.all (fun st => (c.couplingOf st).isSome || (st == .s && c.joinsBlocked)) &&
    waits.all (fun l => l.all (fun w => !c.willChange w))

/-- COUPLING_DEADLOCK_DETECT (R28): the scalar stream traps with class-5 detail 1 and the bitmap of the blocked streams.
DEDUCED (log 29). -/
def execCouplingDeadlockDetect (u : Nat) (s : State) : Out :=
  onUid s u (fun s =>
    let infuser := !s.tablesDue.isEmpty
    onCrew s (fun c =>
      if c.deadlocked infuser then c.raise .s (causeCode 5 1) (BitVec.ofNat 64 c.live.toNat) c.s.pc else c))

/-! ## Leaving a slot (R23, R250, R258) -/

/-- A crew's slot freed, its blocks returned to the pool, what its core keeps for it dropped. -/
def State.freeSlot (s : State) (c : Crew) : State :=
  let k := c.agent
  let x := s.core k
  let old := SMap.get Slot.free x.slots c.place.slot
  s.setCore k { x with
    poolFree := x.poolFree + c.ext
    poolWait := x.poolWait.filter (fun p => p.1 != c.uid)
    inf := x.inf.filter (fun b => b.uid != c.uid)
    slots := SMap.set Slot.free x.slots c.place.slot { old with state := 0, uid := 0 } }

/-- A crew gone for good. -/
def State.dropCrew (s : State) (u : Nat) : State :=
  { s with crew := if s.crew.uid = u then Crew.absent else s.crew, rest := s.rest.filter (fun c => c.uid != u) }

/-- A launch changed. -/
def State.mapLaunch (s : State) (id : Nat) (f : Launch → Launch) : State :=
  { s with launches := s.launches.map (fun l => if l.id = id then f l else l) }

/-- Does a side log hold a store of the crew (R23)? -/
def State.inLog (s : State) (u : Nat) : Bool := s.cores.any (fun x => x.2.log.any (fun e => e.w.uid == u))

/-- Does an atomic of the scalar stream still wait for its page? It holds the stream (R109, R334). DEDUCED (log 45). -/
def SRes.waitsAtomic (r : SRes) : Bool :=
  match r.kind with
  | .atomic e _ _ _ _ _ _ _ _ => !e.tr
  | _ => false

/-- May a crew at HALT retire (R23)? DEDUCED (log 45). DEDUCED (log 46). -/
def State.mayRetire (s : State) (c : Crew) : Bool :=
  c.life == .running && c.trap.isNone && c.s.wait == .retire && !c.s.isIdle && c.v.isIdle && c.m.isIdle && c.k.isIdle &&
    (List.range 8).all (fun i => SMap.get 0 c.tok i == 0) && !s.inLog c.uid && !c.sres.any SRes.waitsAtomic

/-- CREW_RETIRE (R23): blocks return to the pool, every full/empty bit goes with the crew, the slot is free. -/
def execCrewRetire (u : Nat) (s : State) : Out :=
  onUid s u (fun s =>
    let c := s.crew
    if !s.mayRetire c then .next s
    else
      let s1 := (s.freeSlot c).mapLaunch c.launch (fun l =>
        { l with retired := l.retired + 1, parts := l.parts.map (fun p => if p.uid = u then { p with retired := true } else p) })
      let mine := fun (p : Pass) =>
        match c.raster with
        | some r => p.has r
        | none => false
      .next (({ s1 with passes := s1.passes.map (fun p => if mine p then { p with crews := p.crews.filter (· != u), count := p.count + 1 } else p) } : State).dropCrew u))

/-! ## Pre-emption (R258-R261, R352) -/

/-- PREEMPT (R352): a running crew starts to halt; one that waits for its group leaves, and its slot is free; a free slot does
nothing. A fresh crew that had not started has no image and goes back to its launch or its pass. -/
def execPreempt (core slot : Nat) (s : State) : Out :=
  let x := SMap.get Slot.free (s.core core).slots slot
  let put := fun (s : State) (n : Nat) =>
    s.setCore core { s.core core with slots := SMap.set Slot.free (s.core core).slots slot { x with state := n } }
  match x.state with
  | 2 => .next ((put s 3).onCrewOf x.uid (fun c => if c.life == .running then { c with life := .halting } else c))
  | 1 =>
    match s.findCrew x.uid with
    | none => .next s
    | some c =>
      let s1 := s.freeSlot c
      if c.hasImage then .next (s1.onCrewOf c.uid (fun c => { c with life := if c.stop.isSome then .stopped else .preempted }))
      else
        let back := fun (p : Pass) =>
          match c.raster with
          | some r => if p.has r ∧ p.crews.contains c.uid then
              { p with crews := p.crews.filter (· != c.uid), todo := { r with pass := [] } :: p.todo } else p
          | none => p
        .next ((({ s1 with passes := s1.passes.map back } : State).mapLaunch c.launch (fun l =>
          { l with bound := l.bound - 1, parts := l.parts.filter (fun p => p.uid != c.uid) })).dropCrew c.uid)
  | _ => .next s

/-- Has every stage of R258 come to its end but the image? The array step is done, or held and so abandoned (R187, R362); parked
reads whose tile is full are performed; local results have landed. What the core still keeps of the crew has left it too: its buffered
stores are performed, so that it meets no older value on another core (R303, R306). DEDUCED (log 112). -/
def State.mayHalt (s : State) (c : Crew) : Bool :=
  let arrayStops := match c.array with
    | some a => a.held.isSome || s.onTable c a
    | none => true
  c.life == .halting && arrayStops && !c.portReady && !s.writes.any (fun w => (w.uid == c.uid && !s.behindLoad w) || c.seen.any (fun x => x.2 == w.id)) && c.vwin.isEmpty && c.vwords.all VWord.pendsAfterHalt &&
    c.sres.all (fun r =>
      match r.kind with
      | .value _ => false
      | _ => true)

/-- The table in use by a crew's prologue on its core: the one that its step awaits, else the one it has, else table 0 (R362). -/
def State.tableInUse (s : State) (c : Crew) : Nat :=
  match c.proReload, c.array.bind (fun a => s.tableAwaited c a) with
  | some t, _ => t
  | none, some t => t
  | none, none => (((s.core c.agent).inf.find? (fun b => b.uid == c.uid)).map (fun b => b.t)).getD 0

/-- The crew as its image takes it: a waiting trap is recorded, an abandoned step of its own starts again, a nest's step is generated
again from its point, a word that waits has not issued (R98, R187, R260). The table in use is to be loaded again (R187, R362). -/
def Crew.halted (c : Crew) (table : Nat) : Crew :=
  let c1 := match c.trap with
    | some t => c.recordTrap t
    | none => c
  let again := fun (a : ArrayOp) => { a with fifoA := [], fifoB := [], gotA := 0, gotB := 0, flags := 0, words := [], held := none }
  let array := c1.array.bind (fun a =>
    match a.kind with
    | .step _ _ _ true => none
    | _ => some (again a))
  let rest := fun (x : Stream) => { x with gap := 0, boosted := false, wait := .nothing, mark := none }
  { c1 with proReload := if 1 ≤ c.pro ∧ c.pro ≤ 3 then some table else none, array := array, s := rest c1.s, v := rest c1.v, m := rest c1.m, k := rest c1.k, yielded := false }

/-- The command queue whose completion record takes the trap events of a crew (R348): its die and number, and the crews of the command
that have retired. -/
def State.trapQueue (s : State) (c : Crew) : Option (Nat × Nat × Nat × Nat × Nat × Nat) :=
  let drawn := fun (die q : Nat) => ((s.passes.filter (fun x => x.own == die && x.q == q)).map (fun x => x.count)).sum
  match s.launches.find? (fun l => l.id == c.launch) with
  | none => (c.raster.bind s.passOf).map (fun x => (x.own, x.q, x.asid, x.crec, drawn x.own x.q, x.a))
  | some l =>
    match l.src with
    | .queue die q => some (die, q, l.asid, l.crec, l.retired, l.a)
    | .chain id => (s.chains.find? (fun x => x.id == id && x.solver.isNone)).map (fun h => (h.die, h.q, h.asid, h.crec, h.crews + l.retired, h.a))
    | .draw die q => some (die, q, l.asid, l.crec, drawn die q + l.retired, l.a)
    | _ => none

/-- A task whose crew stops on a fatal fault has failed: its fence fails (R128, R415). DEDUCED (log 125). -/
def State.failTask (s : State) (c : Crew) (p : Pend) : State :=
  match s.launches.find? (fun l => l.id == c.launch) with
  | none => s
  | some l =>
    match l.src with
    | .task die _ serial => if p.code.toNat / 64 = 3 then s.endFence die serial false else s
    | _ => s

/-- The record of a trap event (R348): in the launching command's completion record, or, where the launch has none of its own, on the
event queue. DEDUCED (log 47). -/
def State.trapEvent (s : State) (c : Crew) (p : Pend) : Fetch State :=
  let onQueue := s.tell c.place.die 5 (leBytes 2 c.bindRec.asid ++ leBytes 2 p.code.toNat ++ leBytes 4 c.q ++ leBytes 8 c.kern.desc ++
    leBytes 8 s.now ++ leBytes 8 0)
  match s.trapQueue c with
  | some (die, q, asid, crec, crews, a) => s.postRecord (Asker.queue die q asid) crec (recordBytes 2 0 asid crews p.code.toNat c.q s.now a)
  | none => .ok (onQueue.failTask c p)

/-- The asker of a trap event's record. -/
def State.trapAsker (s : State) (c : Crew) : Asker :=
  match s.trapQueue c with
  | some (die, q, asid, _) => Asker.queue die q asid
  | none => c.imageAsker

/-- PREEMPT_HALT (R258, R259): the image is written and sealed where nothing is still to land, the slot is free; a crew stopped by a
trap posts its event (R255). While its image cannot be written the crew stays halting (log 32). DEDUCED (log 47). -/
def execPreemptHalt (u : Nat) (s : State) : Out :=
  onUid s u (fun s =>
    let c := s.crew
    if !s.mayHalt c then .next s
    else
      let c1 := c.halted (s.tableInUse c)
      let bad := fun (_ : Nat) => (.next s : Out)
      s.settleFetch c.imageAsker 7 (s.writeImage c1 c1.sealable) bad (fun s1 =>
        let c2 := { c1 with life := if c1.stop.isSome then .stopped else .preempted, sealed := c1.sealable, hasImage := true }
        let s2 := ({ s1 with crew := c2 } : State).freeSlot c2
        match c2.stop with
        | none => .next s2
        | some p => s.settleFetch (s.trapAsker c) 7 (s2.trapEvent c2 p) bad (fun t => .next t)))

/-- A crew off its core treated as bound, for the results that land in its image. -/
def State.asBound (s : State) (u : Nat) : State := s.onCrewOf u (fun c => { c with life := .halting })

/-- PENDING_COMPLETION_ARRIVE (R259): a pending completion or a carried job lands in the image of a crew that has halted; with the
last one the image is sealed. A job that a fault or a queue keeps goes on at resumption (R197). DEDUCED (log 52). -/
def execPendingCompletionArrive (u id : Nat) (s : State) : Out :=
  match s.findCrew u with
  | none => .next s
  | some c =>
    if !(c.life == .preempted || c.life == .stopped) then .next s
    else
      let carried := c.jobs.any (fun j => j.id == id && j.holdsBack)
      let land :=
        if c.proLoads.any (fun p => p.id == id) then execInfuserTableArrive u (s.asBound u)
        else if c.vwords.any (fun v => v.id == id) then
          (if c.vwords.any (fun v => v.id == id && (match v.kind with
              | .message _ => true
              | _ => false)) then execGraphicsMessageComplete u id (s.asBound u)
           else execVectorWordComplete u id (s.asBound u))
        else if c.sres.any (fun r => r.id == id) then execScalarResultComplete u id (s.asBound u)
        else if !carried then .next s
        else
          (match execCopyJobFail u id (s.asBound u) with
           | .next t => if (t.findCrew u).any (fun x => x.jobs.any (fun j => j.id == id)) then execCopyJobComplete u id (s.asBound u) else .next t
           | x => x)
      match land with
      | .next t => .next (s.syncImage (t.onCrewOf u (fun x => { x with life := c.life, sealed := c.sealed || x.sealable })) u)
      | x => x

/-! ## A crew at its start -/

/-- The place that a core's key and a slot name. -/
def placeAt (core slot : Nat) : Place :=
  { npu := agentNpu core, die := agentDie core, core := if agentNpu core then core % 128 else core % 512, slot := slot }

/-- A fresh crew bound to a slot: every register at its value at crew start (R20, R24, R238-R244). Only an NPU core has a copy stream to
start (R19). -/
def Crew.bound (uid : Nat) (r : BindRec) (k : Kernel) (p : Place) (launch q : Nat) : Crew :=
  { Crew.absent with
    uid := uid
    life := .waiting
    place := p
    home := p
    bindRec := r
    launch := launch
    q := q
    kern := k
    s := { Stream.start with status := .running, pc := k.entry }
    k := if k.ae && p.npu then { Stream.start with status := .running, pc := k.kentry } else Stream.start
    g := SMap.ofList 0 ((List.range 6).map (fun i => (i + 1, BitVec.ofNat 64 (r.g.getD i 0))))
    ocdef := BitVec.ofNat 64 (k.oc + 16 * k.sc) }

/-- A crew that starts or goes on: a pending trap is entered before any word issues (R34, R260). Its image is used up (R259). -/
def Crew.go (now : Nat) (c : Crew) : Crew :=
  let from_ := fun (x : Stream) => { x with tried := now }
  let c1 := { c with life := .running, hasImage := false, sealed := false, evicted := false,
                     s := from_ c.s, v := from_ c.v, m := from_ c.m, k := from_ c.k }
  if c1.act then c1
  else match c1.firstPend c1.live with
    | some st => c1.enterPend st
    | none => c1

/-- The slot of a crew given a state (R351). -/
def State.slotState (s : State) (c : Crew) (n : Nat) : State :=
  let x := s.core c.agent
  let old := SMap.get Slot.free x.slots c.place.slot
  s.setCore c.agent { x with slots := SMap.set Slot.free x.slots c.place.slot { old with state := n, uid := c.uid, record := c.bindRec } }

/-- A waiting crew starts. -/
def State.startCrew (s : State) (u : Nat) : State :=
  match s.findCrew u with
  | some c => (s.slotState c 2).onCrewOf u (Crew.go s.now)
  | none => s

/-- Is a crew that waits ready to start? A pixel crew is once its early tests are done (R390); one with entries in a side log is once they
are out of it (R336); one whose reads have returned a write of another core once it is performed (R303, R305). -/
def State.mayStart (s : State) (c : Crew) : Bool :=
  c.life == .waiting && !s.inLog c.uid && !c.seen.any (fun x => s.writes.any (fun w => w.id == x.2 && w.core != c.agent)) &&
    (match c.raster with
     | some r => c.hasImage || !r.pass.isEmpty
     | none => true)

/-- The crews that wait on a die with a group tag and are ready to start. -/
def State.groupWaiting (s : State) (die tag : Nat) : List Crew :=
  s.crews.filter (fun c => s.mayStart c && c.place.die == die && c.bindRec.group == tag)

/-- The crews of a group start together, or one without a group alone (R352). -/
def State.start (s : State) (c : Crew) : State :=
  if !s.mayStart c then s
  else if c.bindRec.group = 0 then s.startCrew c.uid
  else
    let l := s.groupWaiting c.place.die c.bindRec.group
    if c.bindRec.gsize ≤ l.length then l.foldl (fun s x => s.startCrew x.uid) s else s

/-- An accepted record's crew starts at once, or with the last of its group on the die (R352); one with entries in a side log once they
are out of it (R336). -/
def State.seat (s : State) (c : Crew) : State :=
  let s1 := s.slotState c 1
  match s1.findCrew c.uid with
  | some x => s1.start x
  | none => s1

/-- A bound crew that waits starts, once it may (R336, R352). -/
def State.seatNow (s : State) (u : Nat) : Out :=
  match s.findCrew u with
  | some c => .next (s.start c)
  | none => .next s

/-- The firmware pre-empts the crew of a slot to bind another there, and binds it again elsewhere (R397, R429). -/
def State.pushOut (s : State) (core slot : Nat) : Out :=
  let u := (SMap.get Slot.free (s.core core).slots slot).uid
  match execPreempt core slot s with
  | .next t => .next (t.onCrewOf u (fun c => { c with evicted := true }))
  | x => x

end Sys2Proof.Machine
end

