-- ==== Sys2Proof/Machine/Launch.lean ====
section
/-!
DEFINITION. The front end: launch descriptors and their tables (R234-R237, R343, R344, R355, R380), command queues and completion
records (R346-R348), operator chains (R349, R350), tasks (R407-R409), job cards (R353, R354) and the end of a launch (R308).
-/

namespace Sys2Proof.Machine

/-! ## Queues (R346, R406) -/

/-- A command queue. -/
def State.cmdq (s : State) (die q : Nat) : CmdQueue := SMap.get CmdQueue.reset (s.die die).cmdQueues q

/-- A command queue replaced. -/
def State.setCmdq (s : State) (die q : Nat) (x : CmdQueue) : State :=
  s.setDie die { s.die die with cmdQueues := SMap.set CmdQueue.reset (s.die die).cmdQueues q x }

/-- A task queue. -/
def State.taskq (s : State) (die q : Nat) : TaskQueue := SMap.get TaskQueue.reset (s.die die).taskQueues q

/-- A task queue replaced. -/
def State.setTaskq (s : State) (die q : Nat) (x : TaskQueue) : State :=
  s.setDie die { s.die die with taskQueues := SMap.set TaskQueue.reset (s.die die).taskQueues q x }

/-- Slots of a command ring (R346). -/
def CmdQueue.slots (q : CmdQueue) : Nat := 2 ^ (min (q.ctl.toNat % 16) 8 + 4)

/-- The priority in a queue's control register. -/
def ctlPrio (w : Word) : Nat := w.toNat / 16 % 8

/-- The ASID in a queue's control register. -/
def ctlAsid (w : Word) : Nat := w.toNat / 256 % 2 ^ 16

/-- Has a command queue a command to take? -/
def CmdQueue.ready (q : CmdQueue) : Bool := q.ctl.getLsbD 7 && !q.busy && q.head.toNat % q.slots != q.tail.toNat % q.slots

/-- Has a task queue a task to take? -/
def TaskQueue.ready (q : TaskQueue) : Bool := q.ctl.getLsbD 7 && !q.busy && q.head != q.tail

/-- May a job card start (R354)? -/
def Die.cardReady (d : Die) (k : Card) : Bool := !k.started && k.preds.all (fun n => !d.cards.any (fun e => e.serial == n))

/-- The commands that run on a die (R346). -/
def State.running (s : State) (die : Nat) : Nat :=
  let d := s.die die
  (d.cmdQueues.filter (fun x => x.2.busy)).length + (d.taskQueues.filter (fun x => x.2.busy)).length +
    (d.cards.filter (fun k => (k.started || k.taken) && k.kind == 1)).length +
    (s.chains.filter (fun c => c.die == die && c.solver.isSome && (c.taken || c.current.isSome))).length

/-- Is a kill of an ASID in progress (R262, R312)? -/
def State.killing (s : State) (asid : Nat) : Bool := s.kills.any (fun k => k.asid == asid)

/-- Can the front end read a ring at a physical address: not HBM4E in reduced service (R428)? DEDUCED (log 124). -/
def State.ringReach (s : State) (pa : Nat) : Bool := !(s.reduced && isHbm pa)

/-- Where a command queue's next command stands; the ring has a physical address. -/
def CmdQueue.slotAt (q : CmdQueue) : Nat := q.base.toNat + 64 * (q.head.toNat % q.slots)

/-- Where a task queue's next slot stands. -/
def TaskQueue.slotAt (q : TaskQueue) : Nat := q.base.toNat + 16 * q.head.toNat

/-- Does a command queue offer a command that may be taken? While an ASID is killed none of its work starts (R312). DEDUCED (log 124). -/
def State.offersCmd (s : State) (q : CmdQueue) : Bool := q.ready && !s.killing (ctlAsid q.ctl) && s.ringReach q.slotAt

/-- Does a task queue offer a task that may be taken? DEDUCED (log 124). -/
def State.offersTask (s : State) (q : TaskQueue) : Bool := q.ready && !s.killing (ctlAsid q.ctl) && s.ringReach q.slotAt

/-- Does a sequencer's chain offer its next operator? -/
def Chain.offers (c : Chain) : Bool := c.solver.isSome && c.ready && c.current.isNone && !c.taken && !c.killed

/-- The number among a die's queues of a chain's sequencer. -/
def Chain.queueNo (c : Chain) : Nat := 128 + c.solver.getD 0 % 64

/-- The number of the job cards among a die's queues. -/
def cardQueueNo : Nat := 192

/-- The work that waits at a die's front end, as a queue's number and its priority: command queues 0 to 63, task queues from 64, sequencers
from 128, job cards of kind 1 (R346). -/
def State.waitingWork (s : State) (die : Nat) : List (Nat × Nat) :=
  let d := s.die die
  ((d.cmdQueues.filter (fun x => s.offersCmd x.2)).map (fun x => (x.1, ctlPrio x.2.ctl))) ++
    ((d.taskQueues.filter (fun x => s.offersTask x.2)).map (fun x => (64 + x.1, ctlPrio x.2.ctl))) ++
    ((s.chains.filter (fun c => c.die == die && c.offers)).map (fun c => (c.queueNo, c.prio))) ++
    (if d.cards.any (fun k => k.kind == 1 && !k.taken && d.cardReady k) then [(cardQueueNo, 0)] else [])

/-- How far behind the queue served last a queue stands in the rotation of a die. DESIGN CHOICE (log 11): by queue number. -/
def Die.rank (d : Die) (n : Nat) : Nat := (n + 255 - d.served) % 256

/-- May the front end take work of queue `n` at a priority now: fewer than 16 commands run, nothing of a higher priority waits, and
nothing of the same one stands before it in the rotation (R346)? -/
def State.mayTake (s : State) (die n prio : Nat) : Bool :=
  decide (s.running die < 16) && (s.waitingWork die).all (fun w =>
    decide (w.2 < prio) || (w.2 == prio && decide ((s.die die).rank n ≤ (s.die die).rank w.1)))

/-- Queue `n` served (R346). -/
def State.serves (s : State) (die n : Nat) : State := s.setDie die { s.die die with served := n }

/-- The 64 bytes of a queue's next command. -/
def State.command (s : State) (q : CmdQueue) : List Byte := s.phys q.slotAt 64

/-- A command taken: the head moves. What it names is still to be read. -/
def CmdQueue.take (q : CmdQueue) (b : List Byte) : CmdQueue :=
  { q with head := BitVec.ofNat 16 ((q.head.toNat + 1) % q.slots), busy := true, reading := true, cmd := b }

/-- A queue's command taken, of the ops that `mine` names, or taken before and still to be gone on with: `k` goes on with it (R346). -/
def State.takeCommand (s : State) (die q : Nat) (mine : Nat → Bool) (k : List Byte → State → Out) : Out :=
  let x := s.cmdq die q
  if x.reading then (if mine (fieldAt x.cmd 0 1) then k x.cmd s else .next s)
  else if !s.offersCmd x || !s.mayTake die q (ctlPrio x.ctl) || !mine (fieldAt (s.command x) 0 1) then .next s
  else if s.snoops x.slotAt 64 then .next (s.engineRead x.slotAt 64)
  else k (s.command x) ((s.setCmdq die q (x.take (s.command x))).serves die q)

/-- What a taken command names has been read. -/
def State.readDone (s : State) (die q : Nat) : State := s.setCmdq die q { s.cmdq die q with reading := false }

/-- A command done: a write to `cq.ctl.n` made meanwhile takes effect (R346). -/
def CmdQueue.release (q : CmdQueue) : CmdQueue :=
  { q with busy := false, waiting := none, reading := false, killed := false, ctl := q.ctlNext.getD q.ctl, ctlNext := none }

/-- An interrupt raised to the host kernel of a die, where it is asked for (R347, R410). -/
def State.interrupt (s : State) (die : Nat) (asked : Bool) : State :=
  if asked then s.setDie die { s.die die with irqs := (s.die die).irqs + 1 } else s

/-- A pass of a command, as its accesses ask; `agent` is that of the front end (R433). -/
def Asker.pass (die own q asid agent : Nat) : Asker := { die := die, asid := asid, key := 256 + 64 * own + q, agent := some agent }

/-- What asked for a command holds on no fault any more. -/
def State.queueLetsGo (s : State) (die q asid : Nat) : State :=
  (((s.letGo (Asker.queue die q asid)).letGo (Asker.queue die q asid).ahead).letGo (Asker.pass 0 die q asid 0)).letGo
    (Asker.pass 1 die q asid 0)

/-- A command's end: its record is written, its interrupt is raised, then the queue is free. -/
def State.endCommand (s : State) (die q asid crec : Nat) (bytes : List Byte) (k : State → Out) : Out :=
  let w := Asker.queue die q asid
  s.settleFetch w 7 (s.postRecord w crec bytes) (fun _ => .next s) (fun t =>
    let x := t.cmdq die q
    k (((t.setCmdq die q x.release).interrupt die (bitOf (fieldAt x.cmd 1 1) 1)).queueLetsGo die q asid))

/-! ## Tables of a launch -/

/-- A loop table's entries (R343); none where one breaks the table. -/
def loopLevels (b : List Byte) (n : Nat) : Option (List (Nat × Nat)) :=
  ((List.range n).mapM (fun i =>
    let count := fieldAt b (8 * i) 4
    let kind := fieldAt b (8 * i + 4) 1
    if count = 0 ∨ 2 < kind ∨ fieldAt b (8 * i + 5) 3 ≠ 0 then none else some (kind, count)))

/-- The crews of some levels: the product of the spatial counts (R32). -/
def crewCount (l : List (Nat × Nat)) : Nat := l.foldl (fun n x => if x.1 = 0 then n else n * x.2) 1

/-- Does a loop table keep R31? -/
def loopGood (l : List (Nat × Nat)) : Bool :=
  let spatial := l.filter (fun x => x.1 != 0)
  let ds := l.filter (fun x => x.1 == 2)
  ds.all (fun x => x.2 == 2) && decide (ds.length ≤ 1) && (spatial.drop 1).all (fun x => x.1 != 2) && decide (crewCount l ≤ 2 ^ 32)

/-- An entry of the handle table (R344). -/
def handleOf (b : List Byte) : Handle :=
  let type := fieldAt b 16 1 % 32
  let path := fieldAt b 16 1 / 32
  { base := fieldAt b 0 8, pitch := fieldAt b 8 4, rows := fieldAt b 12 2, cols := fieldAt b 14 2, type := type, path := path
    ok := !([4, 8, 14, 15, 30, 31] : List Nat).contains type && ([0, 1, 3, 4] : List Nat).contains path && fieldAt b 17 15 == 0 }

/-- An entry of the prologue table list (R355). -/
def ptabOf (b : List Byte) : PTab :=
  let kind := fieldAt b 8 1
  let gsz := fieldAt b 9 1
  let tpr := fieldAt b 12 4
  let vbase := fieldAt b 16 8
  let vpitch := fieldAt b 24 4
  let tbase : Word := BitVec.ofNat 64 (fieldAt b 0 8)
  let shape :=
    if kind = 1 then decide (gsz < 3) && decide (1 ≤ tpr) && vbase == 0 && vpitch == 0
    else if kind = 2 ∨ kind = 3 then gsz == 0 && decide (1 ≤ tpr) && vbase == 0 && vpitch == 0
    else kind == 4 && gsz == 0 && tpr == 0 && (placeOf (BitVec.ofNat 64 vbase)).isSome && vpitch % 2 == 0
  { tbase := tbase, kind := kind, gsz := gsz, tpr := tpr, vbase := BitVec.ofNat 64 vbase, vpitch := vpitch
    ok := shape && (placeOf tbase).isSome && fieldAt b 10 2 == 0 && fieldAt b 28 4 == 0 }

/-- A graphics slot table, read at its physical address (R380). -/
def State.gfxTable (s : State) (gs : Word) : List (Nat × List Byte) × List (Nat × Nat) :=
  if gs = 0 then ([], [])
  else
    ((List.range 256).map (fun i => (i, s.phys (gs.toNat + 32 * i) 32)),
     (List.range 16).map (fun i => (i, leNat (s.phys (gs.toNat + 8192 + 8 * i) 8))))

/-- Does a launch descriptor keep R236, for the kinds that its command may start? A kind of 3, which R235 gives no meaning, is refused
like a wrong one. DESIGN CHOICE (log 79). -/
def descGood (addr : Nat) (b : List Byte) (kinds : List Nat) : Bool :=
  let flags := fieldAt b 4 4
  let npu := flags % 2 == 1
  let ae := flags / 2 % 2 == 1
  let bar := flags / 4 % 8
  let kind := flags / 2 ^ 15 % 4
  let levels := fieldAt b 72 1
  addr % 64 == 0 && flags / 2 ^ 17 == 0 && fieldAt b 73 1 == 0 && fieldAt b 104 24 == 0 && (npu || !ae) && (kind == 0 || !npu) &&
    kinds.contains kind && decide (1 ≤ bar) && decide (bar ≤ 5) && decide (flags / 32 % 8 ≤ 4) &&
    (if kind = 0 then decide (1 ≤ levels) && decide (levels ≤ 6) else levels == 0) && decide (fieldAt b 74 2 ≤ 256) &&
    decide (fieldAt b 76 2 ≤ 4096) && decide (fieldAt b 78 2 ≤ 256)

/-- A failure no mapping can cure, as a refusal. -/
def Fetch.orRefuse {α : Type} (reason : Nat) (x : Fetch α) (k : α → Fetch (Nat ⊕ Kernel)) : Fetch (Nat ⊕ Kernel) :=
  match x with
  | .ok a => k a
  | .bad _ _ => .ok (.inl reason)
  | .held va r => .held va r
  | .busy => .busy
  | .snoop pa len => .snoop pa len

/-- A kernel that was read, or refused; a refusal meets the fatal verdicts on what was read (R337). -/
def State.settleKernel (s : State) (w : Asker) (x : Fetch (Nat ⊕ Kernel)) (bad : Nat → Out) (ok : Nat ⊕ Kernel → Out) : Out :=
  s.settleFetch w 6 x bad (fun k =>
    match k with
    | .inl _ => spendIn w (fun f => f.asid == w.asid && f.kind == 6) (ok k)
    | .inr _ => ok k)

/-- Slots of a core (R16). -/
def coreSlots (npu : Bool) : Nat := if npu then 8 else 16

/-- The number of cores a set names. -/
def setSize (set : Nat) : Nat := ((List.range 128).filter (fun c => set.testBit c)).length

/-- Are the core sets of a command right for a descriptor (R347, R348 reason 4, R428, R429)? -/
def State.setsGood (s : State) (die : Nat) (npu hasD : Bool) (set0 set1 : Nat) : Bool :=
  let one := fun (d set : Nat) =>
    set != 0 && decide (set < 2 ^ Config.cores npu) &&
      !(s.die d).fenced.any (fun f => f.1 == 0 && set.testBit (f.2 % 128) && f.2 / 128 == (if npu then 1 else 0))
  !(npu && s.reduced) &&
    (if hasD then one 0 set0 && one 1 set1 else if die = 0 then one 0 set0 && set1 == 0 else one 1 set1 && set0 == 0)

/-- Can the groups of a launch be bound at once (R120, R348 reason 3)? -/
def groupsFit (die : Nat) (npu : Bool) (bar : Nat) (levels : List (Nat × Nat)) (set0 set1 : Nat) : Bool :=
  let hasD := levels.any (fun x => x.1 == 2)
  let n := crewCount levels
  let fits := fun (set crews : Nat) => decide (crews ≤ setSize set * coreSlots npu)
  decide (bar ≤ 1) || (if hasD then fits set0 (n / 2) && fits set1 (n / 2) else fits (if die = 0 then set0 else set1) n)

/-- The kernel that a descriptor and its tables describe (R234, R235). An entry of 2^18 or more, for which the spec names no outcome,
counts modulo 2^18. DESIGN CHOICE (log 114). -/
def kernelOf (addr : Nat) (b : List Byte) (levels : List (Nat × Nat)) (pool hand pt : List Byte)
    (gfx : List (Nat × List Byte) × List (Nat × Nat)) : Kernel :=
  let f := fun (i n : Nat) => fieldAt b i n
  let flags := f 4 4
  { desc := addr, npu := flags % 2 == 1, ae := flags / 2 % 2 == 1, bar := flags / 4 % 8, oc := flags / 2 ^ 8 % 16,
    sc := flags / 2 ^ 12 % 8, kind := flags / 2 ^ 15 % 4,
    base := (List.range 4).map (fun i => BitVec.ofNat 64 (f (8 + 8 * i) 8)),
    len := (List.range 4).map (fun i => f (40 + 4 * i) 4), entry := BitVec.ofNat 18 (f 56 4),
    kentry := BitVec.ofNat 18 (f 60 4), levels := levels,
    pool := SMap.ofList 0 ((List.range (pool.length / 4)).map (fun i => (i, BitVec.ofNat 32 (fieldAt pool (4 * i) 4)))),
    handles := (List.range (hand.length / 32)).map (fun i => handleOf ((hand.drop (32 * i)).take 32)),
    ptabs := (List.range (pt.length / 32)).map (fun i => ptabOf ((pt.drop (32 * i)).take 32)),
    gfx := gfx.1, samplers := gfx.2 }

/-- A launch's descriptor and tables read under an ASID and checked, in the order of R348: a refusal's reason, or the kernel. `kinds`
are the kernel kinds that may start: a draw record that names one of the others breaks R386, which is reason 7 (R236). Whether a table
has a D level is read from its kind bytes, broken or not; where it cannot be read, core sets that are wrong either way are refused first.
A pool, a handle table or a prologue table list is read where its address stands, aligned or not. DESIGN CHOICE (log 123). -/
def State.readKernel (s : State) (w : Asker) (addr : Nat) (kinds : List Nat) (set0 set1 : Nat)
    (gfx : List (Nat × List Byte) × List (Nat × Nat)) : Fetch (Nat ⊕ Kernel) :=
  let die := w.die
  let could := fun (npus : List Bool) => npus.any (fun n => [false, true].any (fun d => s.setsGood die n d set0 set1))
  (s.vaFetch w addr 128).orRefuse (if could [false, true] then 8 else 4) (fun b =>
    let f := fun (i n : Nat) => fieldAt b i n
    let flags := f 4 4
    let npu := flags % 2 == 1
    let kind := flags / 2 ^ 15 % 4
    let n := if f 72 1 ≤ 6 then f 72 1 else 0
    if kinds != [0] && decide (kind ≤ 2) && !kinds.contains kind then .ok (.inl 7)
    else (s.vaFetch w (f 64 8) (8 * n)).orRefuse (if could [npu] then 8 else 4) (fun loop =>
      let levels := (loopLevels loop n).getD []
      let hasD := (List.range n).any (fun i => fieldAt loop (8 * i + 4) 1 == 2)
      if !s.setsGood die npu hasD set0 set1 then .ok (.inl 4)
      else
        let cap := fun (x m : Nat) => if x ≤ m then x else 0
        (s.vaFetch w (f 80 8) (4 * cap (f 74 2) 256)).orRefuse 8 (fun pool =>
        (s.vaFetch w (f 88 8) (32 * cap (f 76 2) 4096)).orRefuse 8 (fun hand =>
        (s.vaFetch w (f 96 8) (32 * cap (f 78 2) 256)).orRefuse 8 (fun pt =>
          if !descGood addr b kinds then .ok (.inl 1)
          else if f 64 8 % 8 != 0 || (loopLevels loop n).isNone || !loopGood levels then .ok (.inl 2)
          else if !groupsFit die npu (flags / 4 % 8) levels set0 set1 then .ok (.inl 3)
          else .ok (.inr (kernelOf addr b levels pool hand pt gfx)))))))

/-- The kernel of a descriptor that no launch has had read: what can be read of it and of its tables; an empty one where the descriptor
cannot (R34). DEDUCED (log 57). -/
def State.strayKernel (s : State) (w : Asker) (addr : Nat) : Fetch Kernel :=
  let tryRead := fun (a n : Nat) (k : List Byte → Fetch Kernel) =>
    match s.vaFetch w a n with
    | .bad _ _ => k []
    | x => x.andThen k
  tryRead addr 128 (fun b =>
    let f := fun (i n : Nat) => fieldAt b i n
    let cap := fun (x m : Nat) => if x ≤ m then x else 0
    let n := cap (f 72 1) 6
    tryRead (f 64 8) (8 * n) (fun loop =>
    tryRead (f 80 8) (4 * cap (f 74 2) 256) (fun pool =>
    tryRead (f 88 8) (32 * cap (f 76 2) 4096) (fun hand =>
    tryRead (f 96 8) (32 * cap (f 78 2) 256) (fun pt =>
      .ok (kernelOf addr b ((loopLevels loop n).getD []) pool hand pt ([], [])))))))

/-! ## Launches (R32, R246, R347) -/

/-- The spatial digits of a crew's position, outermost first (R32). -/
def spatialDigits (counts : List Nat) (q : Nat) : List Nat :=
  (counts.foldr (fun n (x : List Nat × Nat) => (x.2 % n :: x.1, x.2 / n)) ([], q)).1

/-- The spatial counts of a kernel. -/
def Kernel.spatial (k : Kernel) : List (Nat × Nat) := k.levels.filter (fun x => x.1 != 0)

/-- The spatial indices of a crew by level: g(n+1) for level n, 0 for a temporal or unused one (R30). -/
def Kernel.levelIndices (k : Kernel) (q : Nat) : List Nat :=
  let go := fun (x : List Nat × List Nat) (l : Nat × Nat) =>
    if l.1 = 0 then (x.1 ++ [0], x.2) else (x.1 ++ [x.2.headD 0], x.2.drop 1)
  let out := (k.levels.foldl go ([], spatialDigits (k.spatial.map (fun x => x.2)) q)).1
  out ++ List.replicate (6 - out.length) 0

/-- The die of a crew: its D index, or the launch's die (R32). -/
def Launch.dieOf (l : Launch) (q : Nat) : Nat :=
  match ((l.kern.spatial.zip (spatialDigits (l.kern.spatial.map (fun x => x.2)) q)).find? (fun x => x.1.1 == 2)) with
  | some x => x.2
  | none => l.die

/-- The core set of a launch on a die. -/
def Launch.setOf (l : Launch) (die : Nat) : Nat := if die = 0 then l.set0 else l.set1

/-- The position of the next crew that the dispatcher binds on a die: the first in odometer order that is not bound (R32). -/
def Launch.nextOn (l : Launch) (die : Nat) : Option Nat :=
  (List.range l.total).find? (fun q => l.dieOf q == die && !l.parts.any (fun p => p.q == q))

/-- The record that the firmware writes for the next crew of a launch on a die: one group for all its crews there where the launch
declares a barrier scope of core or wider (R120, R351). The tag it gives a group is its own choice. DESIGN CHOICE (log 49). -/
def Launch.record (l : Launch) (die q : Nat) : BindRec :=
  { desc := l.kern.desc, asid := l.asid, prio := l.prio, resume := false, handlerValid := l.flags % 2 == 1, handler := l.handler,
    g := l.kern.levelIndices q, lanebase := 32 * q % 2 ^ 32, blk := 0, ext := 0, group := if l.kern.bar ≤ 1 then 0 else l.id % 65535 + 1,
    image := l.image + Config.imageStride * q,
    gsize := ((List.range l.total).filter (fun k => l.dieOf k == die)).length, rsv := 0 }

/-- A kernel image: the words of its streams as memory holds them (R425). DESIGN CHOICE (log 16). -/
def State.kernelImage (s : State) (die asid : Nat) (k : Kernel) : List Byte :=
  ([.s, .v, .m, .k] : List Strm).flatMap (fun st =>
    let n := k.len.getD (strmNo st) 0 * wordBytes st
    (rangePieces (k.base.getD (strmNo st) 0).toNat n).flatMap (fun p =>
      match s.engineTr die asid p.1 0 with
      | .ok pa att => (s.homeBytes die pa p.2 att).getD []
      | _ => []))

/-- A launch accepted: from now on its crews may be bound; its kernel image is measured before its first launch (R425). -/
def State.begin (s : State) (src : Source) (die asid prio flags handler set0 set1 image crec a total : Nat) (k : Kernel) : Nat × State :=
  let (id, s1) := s.fresh
  let l : Launch :=
    { id := id, src := src, die := die, asid := asid, prio := prio, flags := flags, handler := handler, set0 := set0, set1 := set1,
      image := image, crec := crec, a := a, kern := k, total := total, bound := 0, retired := 0, killed := false, failed := false, phased := [],
      parts := [], agents := [] }
  let m : Measured := .kernel (s.kernelImage die asid k)
  (id, { s1 with launches := s1.launches ++ [l], measured := if s1.measured.contains m then s1.measured else s1.measured ++ [m] })

/-- Does a command keep its reserved bits zero, for its op (R347)? -/
def commandGood (b : List Byte) : Bool :=
  let op := fieldAt b 0 1
  decide (1 ≤ op) && decide (op ≤ 4) && decide (fieldAt b 1 1 < 4) && fieldAt b 2 2 == 0 && decide (fieldAt b 4 4 < 2 ^ 18) &&
    (op != 4 || fieldAt b 24 32 == 0)

/-- Is an ASID valid and not retiring (R332, R340, R348 reason 5)? -/
def State.asidGood (s : State) (die asid : Nat) : Bool :=
  pteBit (s.pte ((s.die die).atab.toNat + 8 * asid)) 0 && !(s.die die).retiring.contains asid

/-- The refusals that need no table: 7, 6, 5 (R348). `image` says whether the command's image area counts. DEDUCED (log 58). -/
def State.earlyRefusal (s : State) (die asid : Nat) (b : List Byte) (image : Bool) : Option Nat :=
  if !commandGood b then some 7
  else if fieldAt b 56 8 % 32 != 0 || (image && fieldAt b 48 8 % 4096 != 0) then some 6
  else if !s.asidGood die asid then some 5
  else none

/-- A queue's command refused. -/
def State.refuseCommand (s : State) (die q : Nat) (b : List Byte) (reason : Nat) : Out :=
  let asid := ctlAsid (s.cmdq die q).ctl
  s.endCommand die q asid (fieldAt b 56 8) (recordBytes 1 reason asid 0 0 0 s.now (fieldAt b 8 8)) .next

/-- LAUNCH (R347): the next command of a queue, an op 1 or one that is none, is taken; once what it names has been read it is refused, or
its launch begins. DEDUCED (log 58). -/
def execLaunch (die q : Nat) (s : State) : Out :=
  s.takeCommand die q (fun op => op != 2 && op != 3 && op != 4) (fun b s =>
    let x := s.cmdq die q
    let asid := ctlAsid x.ctl
    match s.earlyRefusal die asid b true with
    | some r => s.refuseCommand die q b r
    | none =>
      let set0 := fieldAt b 16 16
      let set1 := fieldAt b 32 16
      let w := Asker.queue die q asid
      s.settleKernel w (s.readKernel w (fieldAt b 8 8) [0] set0 set1 (s.gfxTable x.gs)) (fun _ => .next s) (fun k =>
        match k with
        | .inl r => s.refuseCommand die q b r
        | .inr k =>
          .next ((s.readDone die q).begin (.queue die q) die asid (ctlPrio x.ctl) (fieldAt b 1 1) (fieldAt b 4 4) set0 set1 (fieldAt b 48 8)
            (fieldAt b 56 8) (fieldAt b 8 8) (crewCount k.levels) k).2))

/-! ## Waits (R347) -/


/-- WAIT_COMMAND (R347): the command is taken. -/
def execWaitCommand (die q : Nat) (s : State) : Out :=
  s.takeCommand die q (fun op => op == 4) (fun b s =>
    let x := s.cmdq die q
    match s.earlyRefusal die (ctlAsid x.ctl) b false with
    | some r => s.refuseCommand die q b r
    | none => .next (s.setCmdq die q { x with reading := false, waiting := some (fieldAt b 8 8, fieldAt b 16 8) }))

/-- WAIT_COMMAND_POLL (R347); a wait that was killed, or a command killed while what it names was read, ends with status 3. -/
def execWaitCommandPoll (die q : Nat) (s : State) : Out :=
  let x := s.cmdq die q
  match x.waiting with
  | none =>
    if x.killed then
      let asid := ctlAsid x.ctl
      let b := x.cmd
      s.endCommand die q asid (fieldAt b 56 8) (recordBytes 3 0 asid 0 0 0 s.now (fieldAt b 8 8)) .next
    else .next s
  | some (a, v) =>
    let asid := ctlAsid x.ctl
    let crec := fieldAt x.cmd 56 8
    let w := Asker.queue die q asid
    let fail := fun (_ : Nat) => s.endCommand die q asid crec (recordBytes 1 8 asid 0 0 0 s.now a) .next
    s.settleFetch w 6 (s.vaFetch w a 8) fail (fun b =>
      if leNat b < v then .next s else s.endCommand die q asid crec (recordBytes 0 0 asid 0 0 0 s.now a) .next)

/-! ## Operator chains (R349, R350) -/

/-- A bank of zeros. -/
def Bank.zero : Bank := { desc := 0, hdl := 0, set0 := 0, set1 := 0, image := 0, pool := [], pmask := [] }

/-- A write of an operator record; none for a register outside the table (R349, R350). DEDUCED (log 60). -/
def Bank.put (k : Bank) (solver : Bool) (n : Nat) (v : Word) : Option Bank :=
  let half := fun (w : BitVec 128) (i : Nat) =>
    if i = 0 then BitVec.ofNat 128 (w.toNat / 2 ^ 64 * 2 ^ 64 + v.toNat) else BitVec.ofNat 128 (w.toNat % 2 ^ 64 + v.toNat * 2 ^ 64)
  if n = 0x000 then some { k with desc := v }
  else if n = 0x001 then some { k with hdl := v }
  else if n = 0x002 ∨ n = 0x003 then some (if solver then k else { k with set0 := half k.set0 (n - 2) })
  else if n = 0x004 ∨ n = 0x005 then some (if solver then k else { k with set1 := half k.set1 (n - 4) })
  else if n = 0x006 then some { k with image := v }
  else if 0x100 ≤ n ∧ n < 0x200 then some { k with pool := SMap.set 0 k.pool (n - 0x100) (v.truncate 32) }
  else if 0x200 ≤ n ∧ n < 0x300 then
    -- bit e mod 64 of the word of entry e: R349 gives each entry the register 0x200 + e div 64
    if n < 0x204 then
      some { k with pmask := (List.range 64).foldl (fun m i => SMap.set false m (64 * (n - 0x200) + i) (v.getLsbD i)) k.pmask }
    else some k
  else none

/-- The writes of a record's bytes applied in order. DEDUCED (log 60). -/
def Bank.apply (k : Bank) (solver : Bool) (b : List Byte) : Nat → Option Bank
  | 0 => some k
  | n + 1 =>
    match k.apply solver b n with
    | none => none
    | some k1 =>
      if fieldAt b (16 * n + 2) 6 ≠ 0 then none
      else k1.put solver (fieldAt b (16 * n) 2) (BitVec.ofNat 64 (fieldAt b (16 * n + 8) 8))

/-- The core sets of a sequencer's own cluster in both copies (R350). -/
def Bank.clusterSets (k : Bank) (seq : Nat) : Bank :=
  let set : BitVec 128 := BitVec.ofNat 128 (0xFF * 2 ^ (8 * (seq % 16)))
  if seq / 64 = 0 then { k with set0 := set, set1 := 0 } else { k with set0 := 0, set1 := set }

/-- A chain started: both copies zero, but for a sequencer's core sets (R350). -/
def State.newChain (s : State) (die q : Nat) (solver : Option Nat) (asid prio flags crec a : Nat) : Nat × State :=
  let (id, s1) := s.fresh
  let bank := match solver with
    | some k => Bank.zero.clusterSets k
    | none => Bank.zero
  let c : Chain :=
    { id := id, die := die, q := q, solver := solver, asid := asid, prio := prio, flags := flags, crec := crec, a := a, next := some a,
      active := bank, shadow := bank, current := none, crews := 0, ready := false, taken := false, held := false,
      killed := false }
  (id, { s1 with chains := s1.chains ++ [c] })

/-- A chain changed. -/
def State.mapChain (s : State) (id : Nat) (f : Chain → Chain) : State :=
  { s with chains := s.chains.map (fun c => if c.id = id then f c else c) }

/-- A chain ends: its command's record is written, or its sequencer is told (R350, R373); then `k`. -/
def State.endChain (s : State) (c : Chain) (status reason : Nat) (k : State → State) : Out :=
  let gone := fun (t : State) => k { t with chains := t.chains.filter (fun x => x.id != c.id) }
  match c.solver with
  | some n =>
    let q := s.sequencer n
    .next ((gone s).setSequencer n { q with run := q.run.map (fun r => if r.chain = c.id then { r with ended := some status } else r) })
  | none =>
    s.endCommand c.die c.q c.asid c.crec (recordBytes status reason c.asid c.crews 0 0 s.now c.a) (fun t => .next (gone t))

/-- A chain as its accesses ask: its queue, or its sequencer. -/
def Chain.asker (c : Chain) : Asker :=
  match c.solver with
  | some n => Asker.solver n c.asid
  | none => Asker.queue c.die c.q c.asid

/-- The record that a chain names next expanded into the shadow while the current operator runs (R350). -/
def State.expandRecord (s : State) (c : Chain) (at_ : Nat) : Out :=
  let broken := if c.current.isSome then .next s else s.endChain c 1 7 (fun t => t)
  let unreadable := fun (_ : Nat) => if c.current.isSome then .next s else s.endChain c 1 8 (fun t => t)
  if at_ % 64 ≠ 0 then broken
  else s.settleFetch c.asker.ahead 6 (s.vaFetch c.asker.ahead at_ 16) unreadable (fun h =>
    let nw := fieldAt h 8 2
    if 1023 < nw ∨ fieldAt h 10 6 ≠ 0 then broken
    else s.settleFetch c.asker.ahead 6 (s.vaFetch c.asker.ahead (at_ + 16) (16 * nw)) unreadable (fun b =>
      match c.shadow.apply c.solver.isSome b nw with
      | none => broken
      | some k =>
        let next := if fieldAt h 0 8 = 0 then none else some (fieldAt h 0 8)
        .next (s.mapChain c.id (fun c => { c with shadow := k, ready := true, next := next }))))

/-- OPERATOR_CHAIN (R350): a queue's op 2 is taken, or the chain's next record is expanded. Queue numbers from 64 on name the
sequencers of the die. -/
def execOperatorChain (die q : Nat) (s : State) : Out :=
  match s.chains.find? (fun c => c.die == die && c.q == q) with
  | some c =>
    if c.killed then (if c.current.isSome then .next s else s.endChain c 3 0 (fun t => t))
    else if c.ready then .next s
    else (match c.next with
      | some a => s.expandRecord c a
      | none => .next s)
  | none =>
    if 64 ≤ q then .next s
    else s.takeCommand die q (fun op => op == 2) (fun b s =>
      let x := s.cmdq die q
      let asid := ctlAsid x.ctl
      match s.earlyRefusal die asid b false with
      | some r => s.refuseCommand die q b r
      | none =>
        .next ((s.readDone die q).newChain die q none asid (ctlPrio x.ctl) (fieldAt b 1 1) (fieldAt b 56 8) (fieldAt b 8 8)).2)

/-- The lead of a die over its neighbour (R419). DEDUCED (log 61). -/
def State.lead (s : State) (die : Nat) : Int := ((s.die die).laPhase - (s.die (1 - die)).laPhase).toInt

/-- Does its lead allowance hold a die (R419)? A value of 0 acts as 1; in reduced service no die is held. -/
def State.leadHolds (s : State) (die : Nat) : Bool :=
  !s.reduced && decide ((max 1 (s.die die).laAllow.toNat : Int) ≤ s.lead die)

/-- One cycle held by the lead allowance (R419). -/
def Die.leadStall (d : Die) : Die := { d with laStall := d.laStall + 1 }

/-- A phase completed on a die (R419). DEDUCED (log 61). -/
def State.phaseDone (s : State) (die : Nat) : State := s.setDie die { s.die die with laPhase := (s.die die).laPhase + 1 }

/-- The pool an operator's crews see (R350). -/
def Bank.poolOver (k : Bank) (pool : SMap Lane) : SMap Lane :=
  (List.range 256).foldl (fun m e => if SMap.get false k.pmask e then SMap.set 0 m e (SMap.get 0 k.pool e) else m) pool

/-- Has a kernel a D level? -/
def Kernel.twoDies (k : Kernel) : Bool := k.levels.any (fun x => x.1 == 2)

/-- OPERATOR_SWAP (R350, R419): the previous operator has ended; the shadow becomes active, and the operator launches or ends the chain. -/
def execOperatorSwap (id : Nat) (s : State) : Out :=
  match s.chains.find? (fun c => c.id == id) with
  | none => .next s
  | some c =>
    if !c.ready || c.killed || c.current.isSome || (c.offers && !s.mayTake c.die c.queueNo c.prio) then .next s
    else
      let k := c.shadow
      let w := c.asker
      let s := if c.offers then (s.serves c.die c.queueNo).mapChain id (fun c => { c with taken := true }) else s
      let gfx := if c.solver.isSome then ([], []) else s.gfxTable (s.cmdq c.die c.q).gs
      let fail := fun (r : Nat) => (s.mapChain id (fun c => { c with active := k })).endChain c 4 r (fun t => t)
      if k.image.toNat % 4096 ≠ 0 then fail 6
      else if !s.asidGood c.die c.asid then fail 5
      else
        s.settleKernel w (s.readKernel w k.desc.toNat [0] k.set0.toNat k.set1.toNat gfx) (fun _ => fail 8) (fun r =>
          match r with
          | .inl reason => fail reason
          | .inr kern =>
            if kern.twoDies && (s.leadHolds 0 || s.leadHolds 1) then .next (s.mapChain id (fun c => { c with held := true }))
            else
              let flags := c.flags / 2 * 2 + (if k.hdl.getLsbD 63 then 1 else 0)
              let (lid, s1) := s.begin (.chain id) c.die c.asid c.prio flags (k.hdl.toNat % 2 ^ 18) k.set0.toNat k.set1.toNat k.image.toNat
                c.crec k.desc.toNat (crewCount kern.levels) { kern with pool := k.poolOver kern.pool }
              .next (s1.mapChain id (fun c => { c with active := k, current := some lid, ready := false, taken := false, held := false })))

/-! ## Tasks (R407-R409) -/

/-- Does a task descriptor keep R407? -/
def taskGood (addr : Nat) (b : List Byte) : Bool :=
  addr % 64 == 0 && decide (fieldAt b 8 1 ≤ 8) && decide (fieldAt b 9 1 < 2) && fieldAt b 10 2 == 0 && decide (fieldAt b 12 4 < 2 ^ 18) &&
    fieldAt b 48 16 == 0

/-- A task taken: the head moves; its descriptors are still to be read. -/
def TaskQueue.take (x : TaskQueue) (desc serial : Nat) : TaskQueue :=
  { x with head := BitVec.ofNat 16 ((x.head.toNat + 1) % x.slots), busy := true, reading := some (desc, serial) }

/-- A task over: its queue is free, its fence signals or fails (R408, R409). -/
def State.endTask (s : State) (die q serial : Nat) (ok : Bool) : State :=
  ((s.setTaskq die q { s.taskq die q with busy := false, reading := none }).endFence die serial ok).letGo (Asker.task die q 0)

/-- A task queue's next task taken, or one taken before and still to be gone on with: `k` goes on with its descriptor's address and its
fence's serial (R346, R407). -/
def State.takeTask (s : State) (die q : Nat) (k : Nat → Nat → State → Out) : Out :=
  let x := s.taskq die q
  match x.reading with
  | some (desc, serial) => k desc serial s
  | none =>
    if !s.offersTask x || !s.mayTake die (64 + q) (ctlPrio x.ctl) then .next s
    else if s.snoops x.slotAt 16 then .next (s.engineRead x.slotAt 16)
    else
      let slot := s.phys x.slotAt 16
      let desc := fieldAt slot 0 8
      let serial := fieldAt slot 8 8 / 2 ^ 16 % 2 ^ 32
      k desc serial ((s.setTaskq die q (x.take desc serial)).serves die (64 + q))

/-- TASK_LAUNCH (R407, R408): the next slot of a task queue is taken; a task that is refused fails its fence. DEDUCED (log 59). -/
def execTaskLaunch (die q : Nat) (s : State) : Out :=
  s.takeTask die q (fun desc serial s =>
    let x := s.taskq die q
    let asid := ctlAsid x.ctl
    let w := Asker.task die q asid
    let refuse := fun (_ : Nat) => (.next (s.endTask die q serial false) : Out)
    s.settleFetch w 6 (s.vaFetch w desc 64) refuse (fun b =>
      if !taskGood desc b || !s.asidGood die asid || x.image.toNat % 4096 != 0 then refuse 0
      else s.settleKernel w (s.readKernel w (fieldAt b 0 8) [0] x.set0.toNat x.set1.toNat ([], [])) refuse (fun r =>
        match r with
        | .inl _ => refuse 0
        | .inr k =>
          if !k.npu then refuse 0
          else
            let pool := (List.range (fieldAt b 8 1)).foldl (fun m i => SMap.set 0 m i (BitVec.ofNat 32 (fieldAt b (16 + 4 * i) 4))) k.pool
            .next ((s.setTaskq die q { x with reading := none }).begin (.task die q serial) die asid (ctlPrio x.ctl) (fieldAt b 9 1)
              (fieldAt b 12 4) x.set0.toNat x.set1.toNat x.image.toNat 0 (fieldAt b 0 8) (crewCount k.levels) { k with pool := pool }).2)))

/-! ## Job cards (R353, R354) -/

/-- A card done: it leaves the scheduler, and its fence signals or fails. -/
def State.endCard (s : State) (die serial : Nat) (ok : Bool) : State :=
  let d := s.die die
  ((s.setDie die { d with cards := d.cards.filter (fun k => k.serial != serial) }).endFence die serial ok).letGo (Asker.card die serial 0 0)

/-- The agent that a card's accesses name: NPU core 8c of its cluster (R433). -/
def Card.crew (k : Card) (die : Nat) : Crew :=
  { Crew.absent with place := { npu := true, die := die, core := 8 * k.cluster, slot := 0 }, bindRec := { BindRec.empty with asid := k.asid } }

/-- A card as its accesses ask. -/
def Card.asker (k : Card) (die : Nat) : Asker := Asker.card die k.serial k.asid (k.crew die).agent

/-- The sequencer of a die that a card of kind 3 goes to: the fewest queued jobs, the lowest cluster on a tie. -/
def State.leastSequencer (s : State) (die : Nat) : Nat :=
  let key := fun (c : Nat) => 64 * die + 16 + c
  let load := fun (c : Nat) => (s.sequencer (key c)).queue.length
  key ((List.range 5).foldl (fun best c => if load (c + 1) < load best then c + 1 else best) 0)

/-- A card as a run of its list leaves it: what its reads returned stays, and what is done stays done (R195). -/
def JobRun.keepCard (r : JobRun) (die : Nat) (k : Card) (held : Option (Nat × Nat)) : State :=
  let d := r.s.die die
  let put := fun (x : Card) => if x.serial = k.serial then { x with got := r.reads.reverse, wrote := r.wrote, held := held } else x
  r.s.setDie die { d with cards := d.cards.map put }

/-- A scatter-gather list of a card taken up where it stands (R195, R202); none where its predicate word has no place on path 0. While it
runs, the engine stands for a crew of the submitting core. -/
def State.cardRun (s : State) (die : Nat) (k : Card) : Option JobRun :=
  let pred := if k.b = 0 then some none else ((placeOf k.b).filter (fun p => p.1 == 0)).map (fun p => some p.2)
  let back := fun (t : State) => (match t.rest with
    | x :: l => ({ t with crew := x, rest := l } : State)
    | [] => t)
  pred.map (fun p =>
    let r0 : JobRun :=
      { s := { s with crew := k.crew die, rest := s.crew :: s.rest }, old := k.got, reads := [], skip := k.wrote, wrote := 0, flags := 0,
        fin := .ok () }
    let r1 := r0.walk (k.crew die) 0 0 5 p (2 ^ 20) k.a
    { r1 with s := back r1.s })

/-- A scatter-gather list of a card run (R354): a page that is out holds it until RESUME, and a fatal verdict fails it (R337).
DEDUCED (log 59). -/
def State.runListCard (s : State) (die : Nat) (k : Card) : Out :=
  let c := k.crew die
  let w := k.asker die
  let fail := fun (t : State) => (t.endCard die k.serial false)
  let met := k.held.bind (fun h => s.doom w h.1 h.2)
  if k.held.any (fun h => (s.faultOut die k.asid h.1 h.2).isSome) then .next s
  else if met.isSome then .next (fail s)
  else
    match s.cardRun die k with
    | none => .next (fail s)
    | some r =>
      match r.fin with
      | .ok _ => .next (if r.s.farOut 0 then r.keepCard die k none else r.s.endCard die k.serial true)
      | .held va reason =>
        let kind := s.faultKind c va
        .next ((r.keepCard die k (some (va, kind))).frontFault w va kind reason)
      | .busy => .next (r.keepCard die k none)
      | .snoop pa len => .next ((r.keepCard die k none).engineRead pa len)
      | .bad _ _ => .next (fail r.s)

/-- A card of a die changed. -/
def State.mapCard (s : State) (die serial : Nat) (f : Card → Card) : State :=
  s.setDie die { s.die die with cards := (s.die die).cards.map (fun x => if x.serial = serial then f x else x) }

/-- A card's launch taken, and begun once what it names has been read; one that is refused fails its fence (R346, R354).
DEDUCED (log 59). -/
def State.launchCard (s : State) (die : Nat) (k : Card) : Out :=
  let s := if k.taken then s else (s.mapCard die k.serial (fun x => { x with taken := true })).serves die cardQueueNo
  let w := k.asker die
  let fail := fun (_ : Nat) => (.next (s.endCard die k.serial false) : Out)
  s.settleFetch w 6 (s.vaFetch w k.a 64) fail (fun b =>
    if fieldAt b 0 1 ≠ 1 ∨ (s.earlyRefusal die k.asid b true).isSome then fail 0
    else
      let set0 := fieldAt b 16 16
      let set1 := fieldAt b 32 16
      s.settleKernel w (s.readKernel w (fieldAt b 8 8) [0] set0 set1 ([], [])) fail (fun r =>
        match r with
        | .inl _ => fail 0
        | .inr kern =>
          .next ((s.mapCard die k.serial (fun x => { x with started := true, taken := false })).begin (.card die k.serial) die k.asid 0
            (fieldAt b 1 1) (fieldAt b 4 4) set0 set1 (fieldAt b 48 8) (fieldAt b 56 8) (fieldAt b 8 8) (crewCount kern.levels) kern).2))

/-- JOB_CARD_START (R354): a card with no edge outstanding starts: a launch, a scatter-gather list, or a solver job.
DEDUCED (log 59). DEDUCED (log 62). -/
def execJobCardStart (die serial : Nat) (s : State) : Out :=
  let d := s.die die
  match d.cards.find? (fun k => k.serial == serial) with
  | none => .next s
  | some k =>
    if !d.cardReady k then .next s
    else if k.kind = 1 then (if !k.taken && !s.mayTake die cardQueueNo 0 then .next s else s.launchCard die k)
    else if k.kind = 2 then s.runListCard die k
    else
      let q := s.leastSequencer die
      let x := s.sequencer q
      if 4 ≤ x.queue.length then .next s
      else .next ((s.mapCard die serial (fun x => { x with started := true })).setSequencer q { x with queue := x.queue ++
          [{ serial := serial, die := die, asid := k.asid, desc := k.a, uid := k.uid }] })

/-! ## The end of a launch (R308) -/

/-- A core's L1 emptied: dirty data is at home, every line is invalid (R308). -/
def State.flushCore (s : State) (agent : Nat) : State :=
  (s.lines.filter (fun l => l.agent == agent)).foldl (fun s l => s.release l) s

/-- Lease lines of some L1s dropped: they may be stale (R303, R308). -/
def State.dropLeaseLines (s : State) (agents : List Nat) : State :=
  let stale := fun (x : Line) =>
    match x.state with
    | .lease _ => agents.contains x.agent
    | _ => false
  { s with lines := s.lines.filter (fun x => !stale x) }

/-- Has every write of some crews been performed, and no entry of theirs a side log? -/
def State.writesOver (s : State) (mine : Nat → Bool) : Bool :=
  !s.writes.any (fun w => mine w.uid) && !s.cores.any (fun x => x.2.log.any (fun e => mine e.w.uid))

/-- Has every crew of a launch retired or been killed, and every job and write of theirs ended (R308)? DEDUCED (log 46). -/
def State.launchOver (s : State) (l : Launch) : Bool :=
  let mine := fun (u : Nat) => l.parts.any (fun p => p.uid == u)
  (decide (l.total ≤ l.retired) || l.killed) && !s.crews.any (fun c => c.launch == l.id && c.life != .none) &&
    s.writesOver mine &&
    !s.dies.any (fun x => x.2.cards.any (fun k => mine k.uid)) &&
    !s.solvers.any (fun x => x.2.queue.any (fun j => mine j.uid) ||
      (match x.2.run with
       | some r => mine r.job.uid
       | none => false))

/-- Is a chain's operator over on a die: its crews there have retired, and their writes are performed (R419)? DEDUCED (log 61). -/
def State.dieOver (s : State) (l : Launch) (die : Nat) : Bool :=
  (List.range l.total).all (fun q => l.dieOf q != die || l.parts.any (fun p => p.q == q && p.retired)) &&
    s.writesOver (fun u => l.parts.any (fun p => p.uid == u && l.dieOf p.q == die))

/-- The die on which an operator with a D level has completed, and whose phase has not risen for it yet (R419). -/
def State.phaseDue (s : State) (l : Launch) : Option Nat :=
  match l.src with
  | .chain _ =>
    if l.kern.twoDies && !l.killed then [0, 1].find? (fun d => !l.phased.contains d && s.dieOver l d) else none
  | _ => none

/-- LAUNCH_END (R308, R348, R350): the phase of a die rises once an operator with a D level has completed there; at the end of the launch
the cores' L1s are emptied, and the end is told where the launch came from. An operator that was killed, or one of whose crews' tasks has
failed, ends its chain. DEDUCED (log 125). -/
def execLaunchEnd (id : Nat) (s : State) : Out :=
  match s.launches.find? (fun l => l.id == id) with
  | none => .next s
  | some l =>
    match s.phaseDue l with
    | some d => .next ((s.phaseDone d).mapLaunch id (fun l => { l with phased := l.phased ++ [d] }))
    | none =>
    if !s.launchOver l then .next s
    else
      let s1 := l.agents.dedup.foldl (fun s k => s.flushCore k) s
      let gone := fun (t : State) => ({ t with launches := t.launches.filter (fun x => x.id != id) } : State)
      let s2 := gone s1
      match l.src with
      | .queue die q =>
        s1.endCommand die q l.asid l.crec (recordBytes (if l.killed then 3 else 0) 0 l.asid l.retired 0 0 s.now l.a) (fun t => .next (gone t))
      | .task die q serial => .next (s2.endTask die q serial (!l.killed))
      | .card die serial => .next (s2.endCard die serial (!l.killed))
      | .draw _ _ =>
        .next { s2 with passes := s2.passes.map (fun p => if p.vlaunch = some id then { p with vlaunch := none, count := p.count + l.retired } else p) }
      | .chain cid =>
        match s1.chains.find? (fun c => c.id == cid) with
        | none => .next s2
        | some c =>
          let c1 := { c with current := none, crews := c.crews + l.retired }
          if l.killed || l.failed then s1.endChain c1 4 0 gone
          else if c.next.isNone ∧ !c.ready then s1.endChain c1 0 0 gone
          else .next (s2.mapChain cid (fun _ => c1))

end Sys2Proof.Machine
end

