-- ==== Sys2Proof/Machine/Raster.lean ====
section
/-!
DEFINITION. Draw streams, primitives, bins, pixel crews, depth, stencil and blending (R386-R397), and the lead allowance of split
passes (R419).
-/

namespace Sys2Proof.Machine

/-! ## Records (R386) -/

/-- Width and height of the target. -/
def Pass.size (p : Pass) : Nat × Nat := (fieldAt p.target 4 2, fieldAt p.target 6 2)

/-- Is the target in split-frame mode? -/
def splitOf (target : List Byte) : Bool := fieldAt target 2 1 / 16 % 2 == 1

/-- Bins in a row. -/
def Pass.binCols (p : Pass) : Nat := (p.size.1 + 31) / 32

/-- Bins of the target. -/
def Pass.binCount (p : Pass) : Nat := p.binCols * ((p.size.2 + 31) / 32)

/-- Is a bin this die's (R396)? -/
def Pass.ownBin (p : Pass) (b : Nat) : Bool := !splitOf p.target || b % 2 == p.die

/-- Does a record keep the table of R386? -/
def recordGood (b : List Byte) : Bool :=
  let f := fun (i n : Nat) => fieldAt b i n
  let colour := fun (x : Nat) => decide (x % 4 ≤ 2) && x / 4 % 2 == 0
  match f 0 1 with
  | 0 => f 1 63 == 0
  | 1 =>
    f 1 1 / 4 == 0 && colour (f 2 1) && f 2 1 / 32 == 0 && f 3 1 / 32 == 0 && decide (1 ≤ f 4 2) && decide (f 4 2 ≤ 16384) &&
      decide (1 ≤ f 6 2) && decide (f 6 2 ≤ 16384) && f 61 1 / 32 == 0 && decide (f 63 1 ≤ 2)
  | 2 =>
    f 1 1 / 8 == 0 && f 2 2 == 0 && decide (1 ≤ f 4 4) && decide (f 4 4 ≤ 2 ^ 24) && (f 1 1 / 4 % 2 == 1 || f 32 8 == 0) && f 44 20 == 0
  | 3 =>
    decide (1 ≤ f 1 1) && decide (f 1 1 ≤ 7) && colour (f 2 1) && f 2 1 / 16 == 0 && decide (f 3 1 ≤ 2) && f 4 4 == 0 && f 20 4 == 0 &&
      f 40 24 == 0
  | _ => false

/-! ## Geometry (R388-R391) -/

/-- A value as 24.8 fixed point, RNE (R388); none for a NaN or an infinity. -/
def snap (v : FVal) : Option Int :=
  match v with
  | .fin neg m e => some (toInt 0 neg m (e + 8)).1
  | _ => none

/-- The edge function of a and b at a point (R388). -/
def edge (xa ya xb yb xp yp : Int) : Int := (xb - xa) * (yp - ya) - (yb - ya) * (xp - xa)

/-- A vertex of a primitive. -/
def Prim.at_ (t : Prim) (i : Nat) : Int × Int := (t.xs.getD (i % 3) 0, t.ys.getD (i % 3) 0)

/-- The edge function of the edge from vertex i to the next at a point. -/
def Prim.edgeAt (t : Prim) (i : Nat) (x y : Int) : Int :=
  edge (t.at_ i).1 (t.at_ i).2 (t.at_ (i + 1)).1 (t.at_ (i + 1)).2 x y

/-- Twice the area. -/
def Prim.area (t : Prim) : Int := t.edgeAt 0 (t.at_ 2).1 (t.at_ 2).2

/-- The second and the third of three exchanged. DEDUCED (log 97). -/
def swapBC {α : Type} : List α → List α
  | [a, b, c] => [a, c, b]
  | l => l

/-- A primitive from three vertices of x, y, z; none where R388 discards it. DEDUCED (log 97). -/
def makePrim (prim draw : Nat) (cull : Bool) (v : List (Nat × Nat × Nat)) : Option Prim :=
  let finite := fun (p : Nat) => snap (f32 p)
  if v.any (fun x => (f32 x.2.2).isNan) then none
  else match v.mapM (fun x => finite x.1), v.mapM (fun x => finite x.2.1) with
    | some xs, some ys =>
      let t : Prim := { prim := prim, draw := draw, xs := xs, ys := ys, zs := v.map (fun x => BitVec.ofNat 32 x.2.2) }
      let far := fun (z : Int) => decide ((2 : Int) ^ 23 - 1 < z) || decide (z < -((2 : Int) ^ 23 - 1))
      if xs.any far || ys.any far || t.area == 0 || (decide (t.area < 0) && cull) then none
      else if t.area < 0 then
        some { t with xs := swapBC t.xs, ys := swapBC t.ys, zs := swapBC t.zs }
      else some t
    | _, _ => none

/-- Where the samples of a pixel lie, in sixteenths (R389). -/
def samplePlaces (n : Nat) : List (Nat × Nat) :=
  match n with
  | 1 => [(8, 8)]
  | 2 => [(4, 4), (12, 12)]
  | 4 => [(6, 2), (14, 6), (2, 10), (10, 14)]
  | _ => [(1, 3), (5, 1), (3, 9), (7, 13), (9, 5), (13, 7), (11, 15), (15, 11)]

/-- The place of sample `i` of a pixel in 24.8. -/
def samplePoint (n x y i : Nat) : Int × Int :=
  let o := (samplePlaces n).getD i (8, 8)
  ((256 * x + 16 * o.1 : Nat), (256 * y + 16 * o.2 : Nat))

/-- Is a point covered (R389)? -/
def Prim.covers (t : Prim) (x y : Int) : Bool :=
  (List.range 3).all (fun i =>
    let e := t.edgeAt i x y
    let a := t.at_ i
    let b := t.at_ (i + 1)
    decide (0 < e) || (e == 0 && (decide (b.2 < a.2) || (b.2 == a.2 && decide (a.1 < b.1)))))

/-- The covered samples of a pixel as a bitmap; a pixel outside the target has none. -/
def Pass.coverage (p : Pass) (t : Prim) (x y : Nat) : Nat :=
  let n := p.samples_
  if p.size.1 ≤ x ∨ p.size.2 ≤ y then 0
  else (List.range n).foldl (fun m i =>
    let q := samplePoint n x y i
    if t.covers q.1 q.2 then m + 2 ^ i else m) 0

/-- The blocks of a bin: tiles row by row, the blocks of a tile in block order (R391, R392). -/
def Pass.binBlocks (p : Pass) (b : Nat) : List (Nat × Nat) :=
  let bx := 32 * (b % p.binCols)
  let by_ := 32 * (b / p.binCols)
  (List.range 4).flatMap (fun t => (List.range 8).map (fun k =>
    (bx + 16 * (t % 2) + 8 * (k % 2), by_ + 16 * (t / 2) + 4 * (k / 2))))

/-- The coverage of a block, lane by lane. -/
def Pass.blockCover (p : Pass) (t : Prim) (x0 y0 : Nat) : List Nat :=
  (List.range 32).map (fun j => p.coverage t (blockPixel x0 y0 j).1 (blockPixel x0 y0 j).2)

/-- The bins of this die that a primitive touches: those with a covered sample. -/
def Pass.binsOf (p : Pass) (t : Prim) : List Nat :=
  let lo := fun (l : List Int) => (l.foldl min (l.headD 0) / 8192).toNat
  let hi := fun (l : List Int) => (l.foldl max (l.headD 0) / 8192).toNat
  let cols := (List.range (min (hi t.xs + 1) p.binCols)).drop (lo t.xs)
  let rows := (List.range (min (hi t.ys + 1) ((p.size.2 + 31) / 32))).drop (lo t.ys)
  (rows.flatMap (fun r => cols.map (fun c => r * p.binCols + c))).filter (fun b =>
    p.ownBin b && (p.binBlocks b).any (fun o => (p.blockCover t o.1 o.2).any (· != 0)))

/-- A numerator over an area, rounded to f32. -/
def overArea (v : FVal) (area : Nat) : Nat :=
  match v with
  | .fin neg m e =>
    if m = 0 then 0
    else
      let (q, k) := quotient (m * 2 ^ 64) (e - 64) area 0
      rne (.fin neg q k)
  | other => rne other

/-- The depth of a primitive at a point: the plane value rounded once (R390); a free value where a vertex depth is infinite. -/
def Prim.depth (t : Prim) (free : Nat) (x y : Int) : Nat :=
  let z := fun (i : Nat) => f32 (t.zs.getD i 0).toNat
  let finite := (List.range 3).all (fun i =>
    match z i with
    | .fin _ _ _ => true
    | _ => false)
  if !finite then (Config.freeLane free).toNat
  else
    let part := fun (i : Nat) (e : Int) => ((z i).add (z 0).neg).mul (intVal e)
    overArea ((((z 0).mul (intVal t.area)).add (part 1 (t.edgeAt 2 x y))).add (part 2 (t.edgeAt 0 x y))) t.area.toNat

/-- The slice contents of a lane of a pixel crew (R391). -/
def Prim.laneBytes (t : Prim) (free x y cover : Nat) : List Byte :=
  if cover = 0 then leBytes 16 0
  else
    let c := samplePoint 1 x y 0
    leBytes 4 (overArea (intVal (t.edgeAt 2 c.1 c.2)) t.area.toNat) ++ leBytes 4 (overArea (intVal (t.edgeAt 0 c.1 c.2)) t.area.toNat) ++
      leBytes 4 (t.depth free c.1 c.2) ++ leBytes 4 cover

/-! ## Targets -/

/-- A channel as an f32 pattern written in a format: n8 as unorm, RNE and clamped (R390). DEDUCED (log 98). -/
def channelOut (fmt v : Nat) : List Byte :=
  if fmt = 0 then leBytes 4 v
  else if fmt = 1 then leBytes 2 (convert 0 0 9 10 0 false v).1
  else leBytes 1 (toIntElt 0 true (.nInt 8) 8 (.inr ((f32 v).mul (intVal 255)))).1

/-- The agent that the fault records of a raster front end name: graphics core 8c of its cluster c (R433). -/
def Pass.agent (p : Pass) (c : Nat) : Nat := 512 * p.die + 8 * c

/-- A pass as the accesses of its front end `c` ask. -/
def Pass.asker (p : Pass) (c : Nat) : Asker := Asker.pass p.die p.own p.q p.asid (p.agent c)

/-- A read of the raster front end under the queue's ASID. -/
def State.rasterRead (s : State) (p : Pass) (a n : Nat) : Fetch (List Byte) := s.vaFetch (p.asker 0) a n

/-- A write of the raster front end. -/
def State.rasterWrite (s : State) (p : Pass) (a : Nat) (bs : List Byte) : Fetch State := s.vaStore (p.asker 0) a bs

/-- A comparison of R386: the new value or the reference against the stored one. DEDUCED (log 96). -/
def rasterFunc (func : Nat) (lt eq : Bool) (ordered : Bool) : Bool :=
  match func with
  | 0 => false
  | 1 => lt
  | 2 => lt || eq
  | 3 => eq
  | 4 => ordered && !lt && !eq
  | 5 => ordered && !lt
  | 6 => !eq
  | _ => true

/-- The depth and stencil test of one sample and what it stores on a pass (R386, R390). DEDUCED (log 96). -/
def State.sampleTest (s : State) (p : Pass) (x y i z : Nat) : Fetch (State × Bool) :=
  let f3 := fieldAt p.target 3 1
  if f3 / 16 % 2 = 0 then .ok (s, true)
  else
    let dpitch := fieldAt p.target 20 4
    let da := p.sampleAddr (fieldAt p.target 24 8) dpitch 4 x y i
    let sa := p.sampleAddr (fieldAt p.target 32 8) (dpitch / 4) 1 x y i
    let mode := fieldAt p.target 61 1
    let ref := fieldAt p.target 62 1
    (s.rasterRead p da 4).andThen (fun db => (s.rasterRead p sa 1).andThen (fun sb =>
      let d := f32 (leNat db)
      let st := leNat sb
      let v := f32 z
      let zok := rasterFunc (f3 % 8) (FVal.lt false v d) (FVal.eq v d) (!v.isNan && !d.isNan)
      let sok := rasterFunc (mode % 8) (decide (ref < st)) (ref == st) true
      if !(zok && sok) then .ok (s, false)
      else
        let st' := match mode / 8 % 4 with
          | 0 => st
          | 1 => ref
          | 2 => min 255 (st + 1)
          | _ => 0
        (if f3 / 8 % 2 = 1 then s.rasterWrite p da (leBytes 4 z) else .ok s).andThen (fun s1 =>
          (s1.rasterWrite p sa (leBytes 1 st')).andThen (fun s2 => .ok (s2, true)))))

/-- The tests of the covered samples of a lane: those that pass (R390). `z` gives each sample's depth. -/
def State.laneTest (s : State) (p : Pass) (x y cover : Nat) (z : Nat → Nat) : Fetch (State × Nat) :=
  (List.range p.samples_).foldl (fun acc i =>
    acc.andThen (fun (r : State × Nat) =>
      if cover.testBit i then (r.1.sampleTest p x y i (z i)).andThen (fun t => .ok (t.1, if t.2 then r.2 + 2 ^ i else r.2)) else .ok r))
    (.ok (s, 0))

/-- The early tests of a block, lane by lane. -/
def State.blockTest (s : State) (p : Pass) (r : RasterId) : Fetch (State × List Nat) :=
  (List.range 32).foldl (fun acc j =>
    acc.andThen (fun (x : State × List Nat) =>
      let (px, py) := blockPixel r.x0 r.y0 j
      let z := fun (i : Nat) =>
        let q := samplePoint p.samples_ px py i
        r.tri.depth s.free q.1 q.2
      (x.1.laneTest p px py (r.cover.getD j 0) z).andThen (fun t => .ok (t.1, x.2 ++ [t.2])))) (.ok (s, []))

/-- One sample of a target blended (R390). -/
def State.blendSample (s : State) (p : Pass) (target x y i : Nat) (rgba : List Nat) : Fetch State :=
  match p.colour target with
  | none => .ok s
  | some (base, pitch, fmt, _, blend, _) =>
    let n := eltBytes (colourType fmt)
    let a := p.sampleAddr base pitch (4 * n) x y i
    (s.rasterRead p a (4 * n)).andThen (fun b =>
      let old := (List.range 4).map (fun c => texelValue (colourType fmt) (fieldAt b (n * c) n))
      let alpha := f32 (rgba.getD 3 0)
      let new := (old.zip rgba).map (fun x =>
        match blend with
        | 0 => x.2
        | 1 => lerp x.1 x.2 alpha
        | _ => rne ((f32 x.2).add (f32 x.1)))
      s.rasterWrite p a (new.flatMap (channelOut fmt)))

/-! ## Passes -/

/-- A pass changed. -/
def State.mapPass (s : State) (p : Pass) (f : Pass → Pass) : State :=
  { s with passes := s.passes.map (fun x => if x.die = p.die ∧ x.own = p.own ∧ x.q = p.q then f x else x) }

/-- The passes of the same command. -/
def State.siblings (s : State) (p : Pass) : List Pass := s.passes.filter (fun x => x.own == p.own && x.q == p.q)

/-- Have the crews of a command's passes gone, and are their writes performed (R308, R386)? -/
def State.streamOver (s : State) (p : Pass) : Bool :=
  (s.siblings p).all (fun x =>
    x.crews.isEmpty && x.vlaunch.isNone && s.writesOver (fun u => x.past.any (fun k => k.1 == u)))

/-- A command's end with a status: the L1s its pixel crews used are emptied, its record is written, its passes go (R308, R386). A
refusal waits for the crews of its passes. -/
def State.endStream (s : State) (p : Pass) (status reason : Nat) : Out :=
  let l := s.siblings p
  if !s.streamOver p then .next s
  else
    let crews := (l.map (fun x => x.count)).sum
    let s1 := ((l.flatMap (fun x => x.past.map (fun k => k.2))).dedup).foldl (fun s k => s.flushCore k) s
    s1.endCommand p.own p.q p.asid p.crec (recordBytes status reason p.asid crews 0 0 s.now p.a) (fun t =>
      .next { t with passes := t.passes.filter (fun x => !(x.own == p.own && x.q == p.q)) })

/-- The core set of a command that a pass uses on its die. DEDUCED (log 95). -/
def Pass.sets (p : Pass) : Nat × Nat := if p.die = 0 then (p.set0, 0) else (0, p.set1)

/-- The cores of graphics cluster `c` in the set of a pass: those of its raster front end (R15, R33). -/
def Pass.cluster (p : Pass) (c : Nat) : Nat := (p.sets.1 + p.sets.2) / 2 ^ (8 * c) % 256 * 2 ^ (8 * c)

/-- Is front end `c` one of the pass's: has its cluster a core in the set? -/
def Pass.hasFront (p : Pass) (c : Nat) : Bool := decide (c < 16) && p.cluster c != 0

/-- An access of a raster front end as the end of an event. -/
def State.settleFront {α : Type} (s : State) (p : Pass) (c kind : Nat) (x : Fetch α) (bad : Nat → Out) (ok : α → Out) : Out :=
  s.settleFetch (p.asker c) kind x bad ok

/-- A stream that fails ends: nothing more of it is read or created, its pixel crews that have not started go, and once the others have
retired the command ends with status 1 (R348). -/
def State.failStream (s : State) (p : Pass) (reason : Nat) : Out :=
  let l := s.siblings p
  let idle := s.crews.filter (fun c => c.life == .waiting && !c.hasImage && l.any (fun x => x.crews.contains c.uid))
  let s1 := idle.foldl (fun s c => (s.freeSlot c).dropCrew c.uid) s
  let stop := fun (x : Pass) => if x.own = p.own ∧ x.q = p.q then
      { x with state := 5, fail := some reason, todo := [], bins := [], cur := none, exports := [], held := false,
               crews := x.crews.filter (fun u => !idle.any (fun c => c.uid == u)) } else x
  ({ s1 with passes := s1.passes.map stop } : State).endStream p 1 reason

/-! ## The tray (R393)

A caddy window of the firmware: bin heads of 8 bytes, then blocks of 64 bytes. The tray of a die stands at the base of the window that
the firmware's ASID has there (R273); where it has none, at the base of the caddy. The blocks that have come free stand first in the free
list, the last one freed at its head, and the blocks never taken follow in rising order. DESIGN CHOICE (log 116). -/

/-- The tray's blocks: 22 MiB of 64-byte blocks behind 2 MiB of bin heads. -/
def trayBlocks : Nat := 22 * 2 ^ 20 / 64

/-- The first block's index: blocks are counted from the window's base. -/
def trayFirst : Nat := 2 * 2 ^ 20 / 64

/-- Bytes put into the tray of a pass's die. -/
def State.trayPut (s : State) (p : Pass) (off : Nat) (bs : List Byte) : State :=
  s.setSpace (.caddy p.die) ((s.window p.die Config.firmwareAsid).1 + off) bs

/-- Every bin head of the tray cleared (R394), and every block on the free list: each is linked to the next, the last to none (R393). -/
def State.trayClear (s : State) (p : Pass) : State :=
  let base := p.die * 2 ^ 29 + (s.window p.die Config.firmwareAsid).1
  let s1 := { s with caddy := s.caddy.zero base (2 * 2 ^ 20), caddyOpen := closeRange s.caddyOpen base (2 * 2 ^ 20) }
  (List.range trayBlocks).foldl (fun t i =>
    t.trayPut p (64 * (trayFirst + i)) (leBytes 4 (if i + 1 < trayBlocks then trayFirst + i + 1 else 0))) s1

/-- The blocks of a bin, in order. -/
def Pass.binChain (p : Pass) (b : Nat) : List Nat := ((p.blocks.find? (fun x => x.1 == b)).map (fun x => x.2)).getD []

/-- The entries of a bin. -/
def Pass.binList (p : Pass) (b : Nat) : List (Nat × Prim) := ((p.bins.find? (fun x => x.1 == b)).map (fun x => x.2)).getD []

/-- A bin's head written: first and last block, and whether its contents are in memory. -/
def State.trayHead (s : State) (p : Pass) (b : Nat) (chain : List Nat) (stored : Bool) : State :=
  s.trayPut p (8 * b) (leBytes 8 (chain.headD 0 + 2 ^ 24 * chain.getLastD 0 + (if stored then 2 ^ 48 else 0)))

/-- The number of free blocks. -/
def Pass.free (p : Pass) : Nat := trayBlocks - p.taken + p.freed.length

/-- The head of the free list: 0 where it is empty. -/
def Pass.freeHead (p : Pass) : Nat := p.freed.headD (if p.taken < trayBlocks then trayFirst + p.taken else 0)

/-- A free block taken: the head of the free list. -/
def Pass.takeBlock (p : Pass) : Nat × Pass :=
  (p.freeHead, if p.freed.isEmpty then { p with taken := p.taken + 1 } else { p with freed := p.freed.drop 1 })

/-- An entry appended to a bin: in its last block, or in a new one linked behind it. -/
def State.trayAdd (s : State) (p : Pass) (b : Nat) (t : Prim) : State × Pass :=
  let n := (p.binList b).length
  let entry := leBytes 4 (t.prim % 2 ^ 24 + 2 ^ 24 * (t.draw % 64))
  let chain := p.binChain b
  if n % 15 = 0 then
    let (k, p1) := p.takeBlock
    let s1 := s.trayPut p (64 * k) (leBytes 4 (2 ^ 24) ++ entry)
    let s2 := if chain.isEmpty then s1 else s1.trayPut p (64 * chain.getLastD 0) (leBytes 4 (k + 15 * 2 ^ 24))
    (s2.trayHead p b (chain ++ [k]) (p.stored.contains b),
     { p1 with blocks := (p1.blocks.filter (fun x => x.1 != b)) ++ [(b, chain ++ [k])] })
  else
    ((s.trayPut p (64 * chain.getLastD 0) (leBytes 4 (2 ^ 24 * (n % 15 + 1)))).trayPut p (64 * chain.getLastD 0 + 4 + 4 * (n % 15)) entry, p)

/-- The blocks of a stored bin freed: they are put at the head of the free list, in order. -/
def State.trayFree (s : State) (p : Pass) (b : Nat) : State :=
  let chain := p.binChain b
  let s1 := (chain.zip (chain.drop 1 ++ [p.freeHead])).foldl (fun s x => s.trayPut p (64 * x.1) (leBytes 4 x.2)) s
  s1.trayHead p b [] true

/-- A target record begins a pass (R394). -/
def Pass.beginPass (p : Pass) (b : List Byte) : Pass :=
  { p with at_ := p.at_ + 64, state := 1, held := false, target := b, attach := [], draw := [], drawNo := 0, vlaunch := none,
           kerns := [], nextPrim := 0, bins := [], stored := [], ended := 0, blocks := [], freed := [], taken := 0, front := none,
           nextSeq := 0, cur := none, todo := [], exports := [], tests := [] }

/-- A pass begins on a die: every bin head of its tray is cleared (R394). -/
def State.beginPass (s : State) (p : Pass) (b : List Byte) : State := (s.mapPass p (fun x => x.beginPass b)).trayClear p

/-- The target record at the stream's place: a split pass brings in the other die, waits for its lead allowance, or begins; a die
that a pass does not use goes past it (R394, R396, R419). -/
def State.targetRecord (s : State) (p : Pass) (b : List Byte) : Out :=
  let split := splitOf b
  let past := fun (x : Pass) => { x with at_ := x.at_ + 64 }
  if s.passes.any (fun x => x.die == p.die && !(x.own == p.own && x.q == p.q) && decide (1 ≤ x.state) && decide (x.state ≤ 3)) then .next s
  else if !split then .next (if p.die = p.own then s.beginPass p b else s.mapPass p past)
  else if (if p.die = 0 then p.set1 else p.set0) = 0 ∨ (if p.die = 0 then p.set0 else p.set1) = 0 then s.failStream p 4
  else
    let s1 := if (s.siblings p).length = 1 then
        { s with passes := s.passes ++ [{ p with die := 1 - p.die, state := 0, crews := [], past := [], count := 0 }] }
      else s
    if s1.leadHolds p.die then .next (s1.mapPass p (fun x => { x with held := true }))
    else .next (s1.beginPass p b)

/-- A pass as the reader of its stream asks: the front end names no agent (log 101). -/
def Pass.streamAsker (p : Pass) : Asker := { p.asker 0 with agent := none }

/-- The reason that comes first in the order of R348. -/
def firstReason (a b : Nat) : Nat := (([7, 6, 5, 4, 8, 1, 2, 3] : List Nat).find? (fun r => r == a || r == b)).getD a

/-- A draw record: both descriptors are read, and the vertex crews may be bound (R386, R387). DEDUCED (log 95). -/
def State.drawRecord (s : State) (p : Pass) (b : List Byte) : Out :=
  let sets := p.sets
  let bad := fun (_ : Nat) => s.failStream p 8
  let w := p.streamAsker
  s.settleKernel w (s.readKernel w (fieldAt b 8 8) [1] sets.1 sets.2 (p.gfx, p.samplers)) bad (fun v =>
    s.settleKernel w (s.readKernel w (fieldAt b 16 8) [2] sets.1 sets.2 (p.gfx, p.samplers)) bad (fun x =>
      match v, x with
      | .inr vk, .inr pk =>
        let total := (fieldAt b 40 4 + 31) / 32
        let (id, s1) := s.begin (.draw p.own p.q) p.die p.asid p.prio p.flags p.handler sets.1 sets.2 p.image p.crec p.a total vk
        .next (s1.mapPass p (fun y =>
          { y with at_ := y.at_ + 64, draw := b, vlaunch := some id, nextPrim := 0,
                   kerns := y.kerns ++ [(y.drawNo, pk, fieldAt b 1 1 / 2 % 2 == 1)] }))
      | .inl r, .inl q => s.failStream p (firstReason r q)
      | .inl r, _ => s.failStream p r
      | _, .inl r => s.failStream p r))

/-- The record at a pass's place in its stream (R386, R394). -/
def State.nextRecord (s : State) (p : Pass) : Out :=
  s.settleFetch p.streamAsker 6 (s.vaFetch p.streamAsker p.at_ 64) (fun _ => s.failStream p 8) (fun b =>
    let kind := fieldAt b 0 1
    let skip := p.die != p.own && p.state == 0
    if !recordGood b then s.failStream p 7
    else if kind = 0 then
      (if p.state = 1 then .next (s.mapPass p (fun x => { x with state := 3 })) else .next (s.mapPass p (fun x => { x with state := 4 })))
    else if kind = 1 then
      (if p.state = 1 then .next (s.mapPass p (fun x => { x with state := 3 })) else s.targetRecord p b)
    else if skip then .next (s.mapPass p (fun x => { x with at_ := x.at_ + 64 }))
    else if p.state ≠ 1 then s.failStream p 7
    else if kind = 3 then
      (if p.drawNo ≠ 0 ∨ !p.draw.isEmpty ∨ p.targets.contains (fieldAt b 1 1) then s.failStream p 7
       else .next (s.mapPass p (fun x => { x with at_ := x.at_ + 64, attach := x.attach ++ [b] })))
    else s.drawRecord p b)

/-- May a pass read its next record: no draw is in progress, and no bin is rendered? -/
def Pass.reads (p : Pass) : Bool := !p.held && (p.state == 0 || (p.state == 1 && p.draw.isEmpty && p.vlaunch.isNone))

/-- The part of a queue's streams on a die that reads its next record: the one whose pass is active before one that waits for it (R394). -/
def State.reader (s : State) (die q : Nat) : Option Pass :=
  let l := s.passes.filter (fun p => p.die == die && p.q == q && p.reads)
  (l.find? (fun p => p.state == 1)).or l.head?

/-- DRAW_STREAM (R386): a queue's op 3 is taken, the next record of a die's part of a stream is processed, or the command completes
once every part has ended. -/
def execDrawStream (die q : Nat) (s : State) : Out :=
  match s.reader die q with
  | some p => s.nextRecord p
  | none =>
    match s.passes.find? (fun p => p.die == die && p.own == die && p.q == q) with
    | some p =>
      if p.state = 5 then s.endStream p (if p.fail.isSome then 1 else 3) (p.fail.getD 0)
      else if (s.siblings p).all (fun x => x.state == 4) then s.endStream p 0 0 else .next s
    | none =>
      s.takeCommand die q (fun op => op == 3) (fun b s =>
        let x := s.cmdq die q
        let asid := ctlAsid x.ctl
        let own := if die = 0 then fieldAt b 16 16 else fieldAt b 32 16
        match s.earlyRefusal die asid b true with
        | some r => s.refuseCommand die q b r
        | none =>
          if own = 0 ∨ 2 ^ 128 ≤ own then s.refuseCommand die q b 4
          else
            let (gfx, samplers) := s.gfxTable x.gs
            let p : Pass :=
              { die := die, own := die, q := q, asid := asid, prio := ctlPrio x.ctl, flags := fieldAt b 1 1, handler := fieldAt b 4 4,
                set0 := fieldAt b 16 16, set1 := fieldAt b 32 16, image := fieldAt b 48 8, crec := fieldAt b 56 8, a := fieldAt b 8 8,
                gfx := gfx, samplers := samplers, at_ := fieldAt b 8 8, state := 0, fail := none, held := false, target := [], attach := [],
                draw := [], drawNo := 0, vlaunch := none, kerns := [], nextPrim := 0, bins := [], stored := [], ended := 0,
                blocks := [], freed := [], taken := 0, front := none, nextSeq := 0, cur := none, todo := [], crews := [], past := [],
                exports := [], tests := [], count := 0 }
            .next { s.readDone die q with passes := s.passes ++ [p] })

/-- LEAD_ALLOWANCE_RELEASE (R419): a die held by its lead allowance goes on once its lead has fallen. -/
def execLeadAllowanceRelease (die : Nat) (s : State) : Out :=
  if s.leadHolds die then .next s
  else .next { s with passes := s.passes.map (fun p => if p.die = die then { p with held := false } else p) }

/-! ## Rendering (R394) -/

/-- The clear values of one sample of a bin, where its buffers are cleared. -/
def State.clearSample (s : State) (p : Pass) (x y i : Nat) : Fetch State :=
  let one := fun (acc : Fetch State) (n : Nat) =>
    match p.colour n with
    | some (base, pitch, fmt, load, _, clear) =>
      if load then acc
      else acc.andThen (fun s =>
        s.rasterWrite p (p.sampleAddr base pitch (4 * eltBytes (colourType fmt)) x y i) (clear.flatMap (channelOut fmt)))
    | none => acc
  let s1 := p.targets.foldl one (.ok s)
  if fieldAt p.target 3 1 / 16 % 2 = 0 ∨ fieldAt p.target 2 1 / 8 % 2 = 1 then s1
  else
    let dpitch := fieldAt p.target 20 4
    s1.andThen (fun s => (s.rasterWrite p (p.sampleAddr (fieldAt p.target 24 8) dpitch 4 x y i) (leBytes 4 (fieldAt p.target 56 4))).andThen
      (fun s => s.rasterWrite p (p.sampleAddr (fieldAt p.target 32 8) (dpitch / 4) 1 x y i) (leBytes 1 (fieldAt p.target 60 1))))

/-- A bin's buffers cleared where they are not loaded. -/
def State.clearBin (s : State) (p : Pass) (b : Nat) : Fetch State :=
  let px := (List.range 1024).map (fun n => (32 * (b % p.binCols) + n % 32, 32 * (b / p.binCols) + n / 32))
  let within := px.filter (fun x => decide (x.1 < p.size.1) && decide (x.2 < p.size.2))
  within.foldl (fun acc x => (List.range p.samples_).foldl (fun acc i => acc.andThen (fun s => s.clearSample p x.1 x.2 i)) acc) (.ok s)

/-- The blocks of a bin's list, in entry order and block order (R392). -/
def Pass.listBlocks (p : Pass) (b : Nat) (l : List (Nat × Prim)) : List RasterId :=
  l.flatMap (fun e => (p.binBlocks b).filterMap (fun o =>
    let cover := p.blockCover e.2 o.1 o.2
    if cover.any (· != 0) then
      some { die := p.die, own := p.own, q := p.q, seq := e.1, tri := e.2, x0 := o.1, y0 := o.2, cover := cover, pass := [], fe := 0,
             late := ((p.kerns.find? (fun k => k.1 == e.2.draw)).map (fun k => k.2.2)).getD false }
    else none))

/-- A listed bin starts: cleared unless it is stored, its blocks to be created. -/
def State.startBin (s : State) (p : Pass) (b : Nat) (l : List (Nat × Prim)) : Fetch State :=
  (if p.stored.contains b then .ok s else s.clearBin p b).andThen (fun s1 =>
    .ok (s1.mapPass p (fun x => { x with cur := some b, todo := p.listBlocks b l })))

/-- The bin in progress is done: no block is left, every pixel crew has retired, every export is applied. -/
def Pass.binDone (p : Pass) : Bool := p.todo.isEmpty && p.crews.isEmpty && p.exports.isEmpty

/-- The bin in progress stored: its entries go, its blocks are free (R394). -/
def Pass.storeBin (p : Pass) (b : Nat) : Pass :=
  { p with cur := none, stored := b :: p.stored, bins := p.bins.filter (fun x => x.1 != b), freed := p.binChain b ++ p.freed,
           blocks := p.blocks.filter (fun x => x.1 != b), front := none, tests := [] }

/-- A step of rendering by front end `c`: the bin in progress ends, or the next one starts, in bin-index order; `all` says that unlisted
bins are dealt with too (FINAL). `done` follows the last. DEDUCED (log 99). -/
def State.renderStep (s : State) (p : Pass) (c : Nat) (all : Bool) (done : State → Out) : Out :=
  let bad := fun (_ : Nat) => s.failStream p 8
  match p.cur with
  | some b => if p.binDone then .next ((s.trayFree p b).mapPass p (fun x => (x.storeBin b))) else .next s
  | none =>
    if all then
      if p.binCount ≤ p.ended then done s
      else
        let b := p.ended
        match p.bins.find? (fun x => x.1 == b) with
        | some x => s.settleFront p c 7 (s.startBin p b x.2) bad .next
        | none =>
          let on := fun (t : State) => t.mapPass p (fun x => { x with ended := x.ended + 1 })
          if p.stored.contains b || !p.ownBin b then .next (on s)
          else s.settleFront p c 7 (s.clearBin p b) bad (fun t => .next (on t))
    else match p.bins.foldl (fun best x => if best.any (fun y => decide (y.1 < x.1)) then best else some x) none with
      | some x => s.settleFront p c 7 (s.startBin p x.1 x.2) bad .next
      | none => done s

/-- The vertices of a primitive as x, y, z patterns; none where an index discards it (R387). -/
def State.vertices (s : State) (p : Pass) : Fetch (Option (List (Nat × Nat × Nat))) :=
  let d := p.draw
  let count := fieldAt d 40 4
  let index := fun (k : Nat) =>
    if fieldAt d 1 1 / 4 % 2 = 1 then (s.rasterRead p (fieldAt d 32 8 + 4 * k) 4).andThen (fun b => .ok (leNat b)) else .ok k
  (Fetch.all index [3 * p.nextPrim, 3 * p.nextPrim + 1, 3 * p.nextPrim + 2]).andThen (fun l =>
    if l.any (fun v => decide (count ≤ v)) then .ok none
    else (Fetch.all (fun v => (s.rasterRead p (fieldAt d 24 8 + 16 * v) 16).andThen (fun b =>
      .ok (fieldAt b 0 4, fieldAt b 4 4, fieldAt b 8 4))) l).andThen (fun vs => .ok (some vs)))

/-- A primitive put into the list of each bin it touches, in the tray too. DEDUCED (log 99). -/
def State.binPrim (s : State) (p : Pass) (t : Prim) (bins : List Nat) : State :=
  let put := fun (x : State × Pass) (b : Nat) =>
    let (s1, p1) := x.1.trayAdd x.2 b t
    (s1, { p1 with bins := (p1.bins.filter (fun y => y.1 != b)) ++ [(b, p1.binList b ++ [(p.nextSeq, t)])] })
  let (s1, p1) := bins.foldl put (s, p)
  s1.mapPass p (fun _ => { p1 with nextSeq := p.nextSeq + 1, nextPrim := p.nextPrim + 1 })

/-- The new tray blocks that a primitive's bins need (R393). -/
def Pass.blocksNeeded (p : Pass) (bins : List Nat) : Nat :=
  (bins.filter (fun b => (p.binList b).length % 15 == 0)).length

/-- The lane slices of a pixel crew written before it starts (R391); a slot that owns none has none (R271). -/
def State.pixelSlices (s : State) (p : Place) (t : RasterId) : State :=
  if !s.hasSlice p then s
  else (List.range 32).foldl (fun s j =>
    let (x, y) := blockPixel t.x0 t.y0 j
    ((t.tri.laneBytes s.free x y (t.cover.getD j 0)).mapIdx (fun i b => (i, b))).foldl (fun s z =>
      s.setSpace (.spad p.agent) (sliceByte p.npu p.slot j z.1) [z.2]) s) s

/-- Does earlier work on the same block keep a pixel crew's early test waiting: an export, a late test, or an early test of a lower place
in primitive order (R390)? -/
def State.earlyWaits (s : State) (x : Pass) (t : RasterId) : Bool :=
  let same := fun (r : RasterId) => r.x0 == t.x0 && r.y0 == t.y0 && decide (r.seq < t.seq)
  x.exports.any (fun e => same e.rid && e.rid.late) ||
    s.crews.any (fun c =>
      match c.raster with
      | some r => x.crews.contains c.uid && same r && (r.late || r.pass.isEmpty)
      | none => false)

/-- The pixel crew of a front end that is bound, not tested, and has nothing to wait for. -/
def State.untested (s : State) (die c : Nat) : Option (Crew × Pass × RasterId) :=
  s.crews.findSome? (fun u =>
    match u.raster with
    | some t =>
      (match s.passOf t with
       | some x =>
         if u.life = .waiting ∧ u.hasImage = false ∧ t.pass.isEmpty = true ∧ t.die = die ∧ t.fe = c ∧ (t.late || !s.earlyWaits x t) = true then
           some (u, x, t)
         else none
       | none => none)
    | none => none)

/-- A bound pixel crew gets its early tests and its slices; then it starts (R390, R391). -/
def State.readyPixel (s : State) (u : Crew) (x : Pass) (t : RasterId) : Out :=
  let tested : Fetch (State × List Nat) := if t.late then .ok (s, t.cover) else s.blockTest x t
  s.settleFront x t.fe 8 tested (fun _ => s.failStream x 8) (fun y =>
    let t1 := { t with pass := y.2 }
    let s1 := (y.1.pixelSlices u.place t1).onCrewOf u.uid (fun c => { c with raster := some t1 })
    .next ((s1.seat u).useFree 1))

/-- PRIMITIVE_BIN (R393, R394): a pixel crew of front end `c` of a die gets its early tests, the next primitive of the die's draw is
binned or discarded, or a partial render goes on; `fe` is 16 times the die and c. DEDUCED (log 39). -/
def execPrimitiveBin (fe : Nat) (s : State) : Out :=
  let c := fe % 16
  match s.untested (fe / 16) c with
  | some (u, x, t) => s.readyPixel u x t
  | none =>
  match s.passes.find? (fun p => p.die == fe / 16 && p.hasFront c && (p.state == 1 || p.state == 2)) with
  | none => .next s
  | some p =>
    if p.state = 2 then s.renderStep p c false (fun t => .next (t.mapPass p (fun x => { x with state := 1 })))
    else if p.draw.isEmpty || p.vlaunch.isSome then .next s
    else if fieldAt p.draw 4 4 ≤ p.nextPrim then .next (s.mapPass p (fun x => { x with draw := [], drawNo := x.drawNo + 1, nextPrim := 0 }))
    else if p.nextPrim = 0 ∧ p.drawNo ≠ 0 ∧ p.drawNo % 64 = 0 ∧ !p.bins.isEmpty then .next (s.mapPass p (fun x => { x with state := 2 }))
    else s.settleFront p c 6 (s.vertices p) (fun _ => s.failStream p 8) (fun v =>
      match v.bind (makePrim p.nextPrim p.drawNo (fieldAt p.draw 1 1 % 2 == 1)) with
      | none => .next (s.mapPass p (fun x => { x with nextPrim := x.nextPrim + 1 }))
      | some t =>
        let bins := p.binsOf t
        let need := p.blocksNeeded bins
        if p.free < need then .next (s.mapPass p (fun x => { x with state := 2 }))
        else .next (s.binPrim p t bins))

/-- PASS_FINAL (R394): the bins of a pass rendered, cleared or kept, one step at a time; once its writes are performed the die is idle, its phase done where the
pass was split (R419). Which of the die's front ends makes the step is a free choice. DEDUCED (log 39). -/
def execPassFinal (die q : Nat) (s : State) : Out :=
  match s.passes.find? (fun p => p.die == die && p.q == q && p.state == 3) with
  | none => .next s
  | some p =>
    let mine := (List.range 16).filter p.hasFront
    let c := mine.getD (Config.freeChoice s.free % mine.length) 0
    s.renderStep p c true (fun t =>
      if !t.writesOver (fun u => p.past.any (fun k => k.1 == u)) then .next t
      else
      let t1 := t.mapPass p (fun x => { x with state := 0 })
      .next (if splitOf p.target then t1.phaseDone die else t1))

/-! ## The blend unit (R390) -/

/-- Does earlier work on the same block come first: a crew of an earlier primitive, or an export accepted before in primitive order? -/
def State.blendWaits (s : State) (p : Pass) (e : Export) : Bool :=
  let sameBlock := fun (r : RasterId) => r.x0 == e.rid.x0 && r.y0 == e.rid.y0
  p.exports.any (fun x => sameBlock x.rid && x.lane == e.lane &&
      (decide (x.rid.seq < e.rid.seq) || (x.rid.seq == e.rid.seq && decide (x.id < e.id)))) ||
    s.crews.any (fun c =>
      match c.raster with
      | some r => p.has r && p.crews.contains c.uid && sameBlock r && decide (r.seq < e.rid.seq)
      | none => false)

/-- The result of a late test that an earlier export of the same lane has made. -/
def Pass.knownTest (p : Pass) (e : Export) : Option (Nat × Nat × Nat × Nat × Nat) :=
  p.tests.find? (fun t => t.1 == e.rid.seq && t.2.1 == e.rid.x0 && t.2.2.1 == e.rid.y0 && t.2.2.2.1 == e.lane)

/-- What the blend unit does for an export: tests its samples, where its draw is late and the lane has not been tested, and blends those
that pass. -/
def State.exportRun (s : State) (p : Pass) (e : Export) : Fetch (State × Nat) :=
  let r := e.rid
  let (x, y) := blockPixel r.x0 r.y0 e.lane
  let z := fun (i : Nat) =>
    match e.depth with
    | some d => d.toNat
    | none =>
      let q := samplePoint p.samples_ x y i
      r.tri.depth s.free q.1 q.2
  let tested : Fetch (State × Nat) :=
    if !r.late then .ok (s, r.pass.getD e.lane 0)
    else match p.knownTest e with
      | some t => .ok (s, t.2.2.2.2)
      | none => s.laneTest p x y (r.cover.getD e.lane 0) z
  tested.andThen (fun (t : State × Nat) =>
    ((List.range p.samples_).foldl (fun (acc : Fetch State) i =>
      if t.2.testBit i then acc.andThen (fun s => s.blendSample p e.target x y i (e.rgba.map (fun v => v.toNat))) else acc)
      (.ok t.1)).andThen (fun s1 => .ok (s1, t.2)))

/-- BLEND_EXPORT (R390): an export of front end `c` of a die that nothing precedes is tested, where its draw is late, and blended into the
samples that pass; `fe` is 16 times the die and c. DEDUCED (log 39). -/
def execBlendExport (fe id : Nat) (s : State) : Out :=
  match s.passes.find? (fun p => p.die == fe / 16 && p.exports.any (fun e => e.id == id && e.rid.fe == fe % 16)) with
  | none => .next s
  | some p =>
    match p.exports.find? (fun e => e.id == id) with
    | none => .next s
    | some e =>
      if s.blendWaits p e then .next s
      else
        s.settleFront p e.rid.fe 8 (s.exportRun p e) (fun _ => s.failStream p 8) (fun t =>
          .next ((t.1.mapPass p (fun x => { x with
            exports := x.exports.filter (fun y => y.id != id)
            tests := if e.rid.late && (p.knownTest e).isNone then (e.rid.seq, e.rid.x0, e.rid.y0, e.lane, t.2) :: x.tests else x.tests })).useFree 1))

end Sys2Proof.Machine
end

