-- ==== Sys2Proof/Machine/Slots.lean ====
section
/-!
DEFINITION. The slot table: binding fresh and resumed crews (R34, R238-R246, R249, R270, R351, R352, R387, R391), and killing a
context (R250, R262, R263).
-/

namespace Sys2Proof.Machine

/-! ## Scratchpads -/

/-- A scratchpad that held another ASID's data is zeroed before the bind (R270). -/
def State.takeSpad (s : State) (core asid : Nat) : State :=
  let x := s.core core
  if x.spadAsid = some asid then s
  else { s.setCore core { x with spadAsid := some asid } with spad := s.spad.zero (core * 2 ^ 20) (Config.spadBytes (agentNpu core)) }

/-! ## What a record may start -/

/-- The image that a record resumes: a halted crew's, by ASID and address. -/
def State.imageOf (s : State) (r : BindRec) : Option Crew :=
  s.crews.find? (fun c => c.hasImage && (c.life == .preempted || c.life == .stopped) && c.bindRec.asid == r.asid && c.bindRec.image == r.image)

/-- Does the firmware resume a crew at a place (R120, R249)? -/
def Crew.mayResumeAt (c : Crew) (p : Place) : Bool :=
  c.place.npu == p.npu &&
    (match c.kern.bar with
     | 2 => c.home.die == p.die && c.home.core == p.core
     | 3 => c.home.die == p.die && c.home.core / 8 == p.core / 8
     | 4 => c.home.die == p.die
     | _ => true)

/-- The bytes of a whole image (R261). -/
def imageLength (npu : Bool) : Nat := if npu then 0x9B000 else 0x1B000

/-- The image of a crew, as the firmware reads it under the record's ASID. -/
def State.imageBytes (s : State) (w : Asker) (r : BindRec) (c : Crew) : Fetch (List Byte) := s.vaFetch w r.image (imageLength c.place.npu)

/-- Is a core shut: fenced off (R429), or an NPU core in reduced service (R428)? Its slots are not free. DEDUCED (log 57). -/
def State.coreShut (s : State) (core : Nat) : Bool :=
  (s.die (agentDie core)).fenced.contains (0, core % 512) || (agentNpu core && s.reduced)

/-- The first reason to refuse a record (R352); `image` is the image that it resumes, where it can be read.
DEDUCED (log 57). -/
def State.bindRefusal (s : State) (core slot : Nat) (r : BindRec) (image : Option (List Byte)) : Option Nat :=
  let p := placeAt core slot
  let x := s.core core
  let sealed := match s.imageOf r, image with
    | some c, some b => c.sealed && fieldAt b 4 2 == r.asid && bitOf (fieldAt b 16 1) 0
    | _, _ => false
  let otherData := match x.spadAsid with
    | some a => a != r.asid && x.slots.any (fun y => y.2.state != 0)
    | none => false
  if (SMap.get Slot.free x.slots slot).state ≠ 0 ∨ s.coreShut core = true then some 1
  else if r.blk ≠ slot then some 2
  else if (s.die p.die).retiring.contains r.asid || s.killing r.asid then some 3
  else if r.resume && !sealed then some 4
  else if otherData then some 5
  else if r.resume && decide (min x.poolFree 4 < r.ext) then some 6
  else if r.rsv ≠ 0 then some 7
  else none

/-- A record refused: `refused` and the firmware's event log (R352). -/
def State.refuseBind (s : State) (core slot : Nat) (r : BindRec) (reason : Nat) : State :=
  let x := s.core core
  let s1 := s.setCore core { x with slots := SMap.set Slot.free x.slots slot { SMap.get Slot.free x.slots slot with refused := reason } }
  let d := s1.die (agentDie core)
  s1.setDie (agentDie core) { d with log := d.log ++ [.bindRefused reason r.asid] }

/-- The launch and the position that a fresh record is for: it is what the firmware writes for the next crew of the launch on the die
(R32, R246, R347, R351). -/
def State.bindTarget (s : State) (p : Place) (r : BindRec) : Option (Launch × Nat) :=
  let fits := fun (l : Launch) (q : Nat) =>
    let want := l.record p.die q
    l.asid == r.asid && l.kern.desc == r.desc && l.prio == r.prio && l.kern.npu == p.npu && (l.setOf p.die).testBit p.core &&
      r.handlerValid == want.handlerValid && r.handler == l.handler && r.lanebase == want.lanebase && r.image == want.image &&
      (l.kern.kind != 0 || r.g == want.g) && (r.group == 0) == (want.group == 0) && (r.group == 0 || r.gsize == want.gsize)
  s.launches.findSome? (fun l =>
    if l.killed then none
    else match l.nextOn p.die with
      | some q => if fits l q then some (l, q) else none
      | none => none)

/-- The crews of a pass created so far. -/
def Pass.created (p : Pass) : Nat := p.count + p.crews.length

/-- The cores on which the next pixel crew of a pass may be bound: those of the front end that creates the crews of its primitive in the
bin; before the first of them, of any front end (R33, R392). DEDUCED (log 39). -/
def Pass.frontSet (p : Pass) (t : RasterId) : Nat :=
  match p.front with
  | some (seq, c) => if seq = t.seq then p.cluster c else p.sets.1 + p.sets.2
  | none => p.sets.1 + p.sets.2

/-- The pass whose next pixel crew a fresh record is for (R391). -/
def State.pixelTarget (s : State) (p : Place) (r : BindRec) : Option (Pass × RasterId × Kernel) :=
  s.passes.findSome? (fun x =>
    match x.todo with
    | [] => none
    | t :: _ =>
      match x.kerns.find? (fun k => k.1 == t.tri.draw) with
      | some (_, k, _) =>
        if x.die = p.die ∧ !p.npu ∧ (x.frontSet t).testBit p.core ∧ x.asid = r.asid ∧ k.desc = r.desc ∧ x.prio = r.prio ∧
            r.handlerValid = (x.flags % 2 == 1) ∧ r.handler = x.handler ∧ (decide (x.state = 2) || decide (x.state = 3)) = true then some (x, t, k)
        else none
      | none => none)

/-- Every lease line of the cores of a launch's sets dropped before its first crew is bound (R308). -/
def State.freshLines (s : State) (l : Launch) : State :=
  s.dropLeaseLines ((List.range 2).flatMap (fun d => ((List.range 128).filter (fun c => (l.setOf d).testBit c)).map (fun c =>
    ({ npu := l.kern.npu, die := d, core := c, slot := 0 } : Place).agent)))

/-! ## BIND (R351, R352) -/

/-- A fresh crew of a launch bound. -/
def State.bindFresh (s : State) (p : Place) (r : BindRec) (l : Launch) (q : Nat) : State :=
  let (u, s1) := s.fresh
  let draw : Option Pass := match l.src with
    | .draw d n => s.passes.find? (fun x => x.die == p.die && x.own == d && x.q == n)
    | _ => none
  let g := match draw with
    | some x => [32 * q % 2 ^ 32, fieldAt x.draw 40 4, fieldAt x.draw 24 8, x.drawNo, 0, 0]
    | none => r.g
  let c := Crew.bound u { r with g := g } l.kern p l.id q
  let s2 := if l.parts.isEmpty then s1.freshLines l else s1
  let part : Part :=
    { uid := u, q := q, place := p, idx := spatialDigits (l.kern.spatial.map (fun x => x.2)) q, arrived := [], colls := [], retired := false }
  let s3 := s2.mapLaunch l.id (fun l => { l with bound := l.bound + 1, parts := l.parts ++ [part], agents := p.agent :: l.agents })
  ({ s3.takeSpad p.agent r.asid with rest := c :: s3.rest } : State).seat c

/-- A pixel crew bound: its registers, and its position, which is its place among the crews of the pass (R391). It starts once its front
end has made its early tests and written its slices (PRIMITIVE_BIN). DESIGN CHOICE (log 103). -/
def State.bindPixel (s : State) (p : Place) (r : BindRec) (x : Pass) (t : RasterId) (k : Kernel) : State :=
  let (u, s1) := s.fresh
  let fe := p.core / 8
  let lanes := ofBits 32 (fun j => t.cover.getD j 0 != 0)
  let g := [t.x0, t.y0, t.tri.prim, t.tri.draw, lanes, x.samples_]
  let base := 32 * (t.y0 / 4 * ((x.size.1 + 7) / 8) + t.x0 / 8) % 2 ^ 32
  let c := { Crew.bound u { r with g := g, lanebase := base } k p 0 x.created with raster := some { t with fe := fe, pass := [] } }
  let s2 := s1.mapPass x (fun z => { z with todo := z.todo.drop 1, crews := z.crews ++ [u], past := (u, p.agent) :: z.past, front := some (t.seq, fe) })
  let s3 := (s2.takeSpad p.agent r.asid).dropLeaseLines [p.agent]
  ({ s3 with rest := c :: s3.rest } : State).slotState c 1

/-- A crew bound by a record that is for no launch's next crew (R34): its kernel is what stands at the record's descriptor address, its
registers what the record gives. DEDUCED (log 57). -/
def State.bindStray (s : State) (p : Place) (r : BindRec) : Out :=
  let w := Asker.bind p.die p.agent p.slot r.asid
  s.settleFetch w 6 (s.strayKernel w r.desc) (fun _ => (.next s : Out)) (fun k =>
    let (u, s1) := s.fresh
    let c := Crew.bound u r { k with npu := p.npu, ae := k.ae && p.npu } p 0 (r.lanebase / 32)
    let s2 := (s1.takeSpad p.agent r.asid).dropLeaseLines [p.agent]
    .next (({ s2 with rest := c :: s2.rest } : State).seat c))

/-- A crew resumed from its image (R249, R260): its suspended jobs go on from where they stood (R197), and on another core it meets no
lease line, and what it has still in a core's buffer moves with it (R303, R306). Its extended blocks are those that the record's ext
grants (R352), whatever the image's own count. DESIGN CHOICE (log 128). -/
def State.bindResume (s : State) (p : Place) (r : BindRec) (c : Crew) (image : List Byte) : State :=
  let s1 := (s.takeSpad p.agent r.asid).dropLeaseLines [p.agent]
  let c0 := ({ c with place := p } : Crew).restore image r.ext
  let c1 := { c0 with
    bindRec := { r with g := c.bindRec.g }, life := .waiting, stop := none, jobs := c0.jobs.map (fun j => { j with held := none }) }
  let s2 := (s1.onCrewOf c.uid (fun _ => c1)).restoreSlices p image
  let x := s2.core p.agent
  let s3 := (s2.setCore p.agent { x with poolFree := x.poolFree - r.ext }).mapLaunch c.launch (fun l => { l with agents := p.agent :: l.agents })
  let used := fun (z : Pass) => if z.crews.contains c.uid then { z with past := (c.uid, p.agent) :: z.past } else z
  let move := fun (w : Write) => if w.uid = c.uid then { w with core := p.agent } else w
  ({ s3 with passes := s3.passes.map used, writes := s3.writes.map move } : State).seat c1

/-- A fresh record that no reason refuses: the next crew of a launch or a pass, or a crew of its own. -/
def State.bindNew (s : State) (p : Place) (r : BindRec) : Out :=
  match s.bindTarget p r with
  | some (l, q) => .next (s.bindFresh p r l q)
  | none =>
    match s.pixelTarget p r with
    | some (x, t, k) => .next (s.bindPixel p r x t k)
    | none => s.bindStray p r

/-- A record that resumes an image is refused with reason 4 where the image cannot be read. DEDUCED (log 57). -/
def State.bindImage (s : State) (core slot : Nat) (r : BindRec) : Out :=
  let p := placeAt core slot
  let w := Asker.bind p.die core slot r.asid
  let refuse := fun (n : Nat) => (.next ((s.refuseBind core slot r n).letGo w) : Out)
  match s.imageOf r with
  | none => refuse 4
  | some c =>
    s.settleFetch w 6 (s.imageBytes w r c) (fun _ => refuse 4) (fun b =>
      match s.bindRefusal core slot r (some b) with
      | some n => refuse n
      | none => .next ((s.bindResume p r c b).letGo w))

/-- BIND (R34, R351, R352): a record written to a slot is refused, or it resumes a sealed image, or it starts the next crew of a launch or
a pass, or a crew of its own. DEDUCED (log 57). -/
def execBind (core slot : Nat) (r : BindRec) (s : State) : Out :=
  let p := placeAt core slot
  if !agentExists core || decide (coreSlots p.npu ≤ slot) then .next s
  else
    match s.bindRefusal core slot r none with
    | some n => if n = 4 then s.bindImage core slot r else .next (s.refuseBind core slot r n)
    | none => s.bindNew p r

/-! ## Killing a context (R250, R262, R263) -/

/-- The jobs of a killed crew stop: each destination byte holds its old value or the one the job would have written. -/
def State.stopJobs (s : State) (c : Crew) : State := c.jobs.foldl (fun t j => t.mix (t.reached c j)) s

/-- A fence whose job was killed: it signals nothing (R375). -/
def State.muteFence (s : State) (die serial : Nat) : State :=
  let d := s.die die
  s.setDie die { d with fences := d.fences.map (fun x => if x.2.serial = serial ∧ x.2.state = 0 then (x.1, { x.2 with state := 3 }) else x) }

/-- Is a crew of an ASID and still there? -/
def Crew.killedBy (c : Crew) (asid : Nat) : Bool :=
  c.bindRec.asid == asid && (c.life == .waiting || c.life == .running || c.life == .halting || c.life == .preempted || c.life == .stopped)

/-- The jobs of an ASID on a die, outside crews: cards that have no launch, and solver jobs of its sequencers. DEDUCED (log 54). -/
def State.killCards (s : State) (asid die : Nat) : Nat × State :=
  let d := s.die die
  let mine := fun (k : Card) => k.asid == asid && !(k.kind == 1 && k.started)
  let gone := d.cards.filter mine
  let stop := fun (t : State) (k : Card) =>
    if k.kind != 2 || (k.got.isEmpty && k.wrote == 0) then t
    else match t.cardRun die k with
      | some r => t.mix r.s
      | none => t
  let s0 := gone.foldl stop s
  let s1 := s0.setDie die { s0.die die with cards := d.cards.filter (fun k => !mine k) }
  ((gone.filter (fun k => k.kind != 3 || !k.started)).length, gone.foldl (fun s k => s.muteFence die k.serial) s1)

/-- One sequencer rid of an ASID's jobs. DEDUCED (log 94). -/
def State.killSequencer (s : State) (asid n : Nat) : Nat × State :=
  let x := s.sequencer n
  let run := match x.run with
    | some r => if r.job.asid = asid then some r else none
    | none => none
  let queued := x.queue.filter (fun j => j.asid == asid)
  let s1 := s.setSequencer n { run := if run.isSome then none else x.run, queue := x.queue.filter (fun j => j.asid != asid) }
  let jobs := (run.map (fun r => r.job)).toList ++ queued
  (jobs.length, jobs.foldl (fun s j => s.muteFence j.die j.serial) s1)

/-- The queues, chains, passes and launches of an ASID marked as killed. DEDUCED (log 54). -/
def State.killWork (s : State) (asid : Nat) : State :=
  let dieOne := fun (s : State) (die : Nat) =>
    let d := s.die die
    s.setDie die { d with
      doomed := d.doomed.filter (fun f => f.asid != asid)
      cmdQueues := d.cmdQueues.map (fun x =>
        if ctlAsid x.2.ctl = asid ∧ (x.2.waiting.isSome ∨ x.2.reading = true) then
          (x.1, { x.2 with waiting := none, reading := false, killed := true })
        else x) }
  let taskOne := fun (s : State) (die : Nat) => (s.die die).taskQueues.foldl (fun s x =>
    match x.2.reading with
    | some (_, serial) => if ctlAsid x.2.ctl = asid then s.endTask die x.1 serial false else s
    | none => s) s
  let s1 := (List.range 2).foldl taskOne ((List.range 2).foldl dieOne s)
  let stop := fun (p : Pass) => if p.asid = asid then
      { p with state := 5, todo := [], crews := [], exports := [], bins := [], cur := none, held := false } else p
  { s1 with
    launches := s1.launches.map (fun l => if l.asid = asid then { l with killed := true } else l)
    chains := (s1.chains.filter (fun c => !(c.asid == asid && c.solver.isSome))).map (fun c => if c.asid = asid then { c with killed := true } else c)
    passes := s1.passes.map stop }

/-- A context killed (R262): every crew of the ASID goes, bound or halted; jobs stop; log entries are discarded; the kill-complete
record waits for the writes under way. A kill in progress stands as it is. DEDUCED (log 53). -/
def State.killContext (s : State) (asid : Nat) : State :=
  if s.kills.any (fun k => k.asid == asid) then s
  else
    let gone := s.crews.filter (fun c => c.killedBy asid)
    let s1 := gone.foldl (fun s c => s.stopJobs c) s
    let s2 := gone.foldl (fun s c =>
      let s := if c.life == .preempted || c.life == .stopped then s else s.freeSlot c
      s.dropCrew c.uid) s1
    let (cards, s3) := (List.range 2).foldl (fun (x : Nat × State) die =>
      let (n, s) := x.2.killCards asid die
      (x.1 + n, s)) (0, s2)
    let (solves, s4) := (s3.solvers.map (fun x => x.1)).foldl (fun (x : Nat × State) n =>
      let (m, s) := x.2.killSequencer asid n
      (x.1 + m, s)) (0, s3)
    let entries := (s4.cores.map (fun x => (logBlocks (x.2.log.filter (fun e => e.w.asid == asid))).length)).sum
    let s5 := (s4.cores.map (fun x => x.1)).foldl (fun s k =>
      let x := s.core k
      s.setCore k { x with log := x.log.filter (fun e => e.w.asid != asid) }) s4
    let out := fun (x : FabOut) => x.asid == asid && x.store
    let writes := (s5.dies.map (fun x => (x.2.fabOut.filter out).length)).sum
    let s6 := (List.range 2).foldl (fun s die =>
      let d := s.die die
      s.setDie die { d with fabOut := d.fabOut.filter (fun x => x.asid != asid || x.store) }) s5
    let s7 := s6.killWork asid
    { s7 with kills := s7.kills ++
      [{ asid := asid, crews := gone.length, jobs := (gone.map (fun c => c.jobs.length)).sum + cards + solves, entries := entries, writes := writes }] }

/-- Has the leading firmware core renewed its lease within 45 ms? One that has not acts no more (R427). -/
def State.leads (s : State) : Bool := s.acting && decide (s.now < s.renewed + cyclesOf 45000)

/-- CONTEXT_KILL (R262, R427): the leading firmware core accepts the kill of an ASID. DEDUCED (log 53). -/
def execContextKill (asid : Nat) (s : State) : Out :=
  if 2 ^ 16 ≤ asid ∨ !s.leads then .next s else .next (s.killContext asid)

/-- The body of a kill-complete record (R263). -/
def Kill.body (k : Kill) (time : Nat) : List Byte :=
  leBytes 2 k.asid ++ leBytes 2 k.crews ++ leBytes 4 k.jobs ++ leBytes 4 k.entries ++ leBytes 4 k.writes ++ leBytes 8 time ++ leBytes 8 0

/-- Can a write on behalf of an ASID still land: a store, a store over the fabric, that of work still there, or the record of a command
(R263, R312)? -/
def State.mayStillWrite (s : State) (asid : Nat) : Bool :=
  s.writes.any (fun w => w.asid == asid) || s.crews.any (fun c => c.killedBy asid) || s.launches.any (fun l => l.asid == asid) ||
    s.chains.any (fun c => c.asid == asid) || s.passes.any (fun p => p.asid == asid) ||
    s.solvers.any (fun x => x.2.queue.any (fun j => j.asid == asid) || x.2.run.any (fun r => r.job.asid == asid)) ||
    s.dies.any (fun x => x.2.fabOut.any (fun y => y.asid == asid && y.store) || x.2.cards.any (fun k => k.asid == asid) ||
      x.2.cmdQueues.any (fun q => ctlAsid q.2.ctl == asid && (q.2.killed || q.2.busy)))

/-- KILL_COMPLETE (R263): no write on behalf of the ASID can land any more; the record is handed to the leader's queue (R427). -/
def execKillComplete (asid : Nat) (s : State) : Out :=
  match s.kills.find? (fun k => k.asid == asid) with
  | none => .next s
  | some k =>
    if !s.leads || s.mayStillWrite asid then .next s
    else
      .next (({ s with kills := s.kills.filter (fun x => x.asid != asid) } : State).tell s.leader 3 (k.body s.now))

end Sys2Proof.Machine
end

