-- ==== Sys2Proof/Machine/Solver.lean ====
section
/-!
DEFINITION. The solver sequencer: its tables, its arithmetic, its rounds and the end of a job (R367-R375).
-/

namespace Sys2Proof.Machine

/-! ## Accesses -/

/-- What an access of a sequencer ends its event with: a held one posts a fault that names NPU core 8c of its cluster (R334, R433).
DEDUCED (log 94). -/
def State.solverSettle {α : Type} (s : State) (w : Asker) (kind : Nat) (x : Fetch α) (bad : Out) (ok : α → Out) : Out :=
  s.settleFetch w kind x (fun _ => bad) ok

/-- Bytes at an address, with a free value for each that two samples claim, or a sample and the batch area (R370). -/
def State.clashBytes (s : State) (clash : List (Nat × Nat)) (a : Nat) (bs : List Byte) : List Byte :=
  let lost := fun (x : Nat) => clash.any (fun r => decide (r.1 ≤ x) && decide (x < r.1 + r.2))
  bs.mapIdx (fun i b => if lost (a + i) then Config.freeByte (s.free + a + i) else b)

/-- Writes of a sequencer in order; what lands in an overlap is a free value (R370). -/
def State.solverStore (s : State) (w : Asker) (clash : List (Nat × Nat)) (l : List (Nat × List Byte)) : Fetch State :=
  l.foldl (fun acc x => acc.andThen (fun s =>
    (s.vaStore w x.1 (s.clashBytes clash x.1 x.2)).andThen (fun t => .ok (if clash.isEmpty then t else t.useFree 1)))) (.ok s)

/-- A read of a sequencer in the areas of its samples; what has landed in an overlap is undefined, whoever wrote it (R370). -/
def State.solverRead (s : State) (w : Asker) (clash : List (Nat × Nat)) (a n : Nat) : Fetch (List Byte) :=
  (s.vaFetch w a n).andThen (fun b => .ok (s.clashBytes clash a b))

/-- `n` f32 patterns at an address. -/
def State.solverVec (s : State) (w : Asker) (clash : List (Nat × Nat)) (a n : Nat) : Fetch (List Nat) :=
  (s.solverRead w clash a (4 * n)).andThen (fun b => .ok ((List.range n).map (fun i => fieldAt b (4 * i) 4)))

/-- f32 patterns as bytes. -/
def vecBytes (l : List Nat) : List Byte := l.flatMap (leBytes 4)

/-! ## Tables (R367-R370) -/

/-- Is an f32 pattern finite? -/
def finiteF32 (p : Nat) : Bool := p / 2 ^ 23 % 256 != 255

/-- Is an f32 pattern finite and above zero? -/
def positiveF32 (p : Nat) : Bool := finiteF32 p && decide (0 < p) && decide (p < 2 ^ 31)

/-- Does a job descriptor keep R367? -/
def solverDescGood (addr : Nat) (b : List Byte) : Bool :=
  let f := fun (i n : Nat) => fieldAt b i n
  addr % 64 == 0 && f 0 8 % 64 == 0 && f 8 8 % 64 == 0 && f 16 8 % 64 == 0 && decide (1 ≤ f 24 4) && decide (f 24 4 ≤ 4096) &&
    decide (1 ≤ f 28 4) && decide (f 28 4 ≤ 2 ^ 20) && f 40 8 % 4096 == 0 && positiveF32 (f 48 4) &&
    (positiveF32 (f 52 4) || f 52 4 % 2 ^ 31 == 0) && positiveF32 (f 56 4) && positiveF32 (f 60 4) && decide (f 56 4 ≤ f 60 4) &&
    decide (1 ≤ f 64 2) && decide (f 66 1 ≤ 6) && f 67 1 == 0 && f 80 48 == 0

/-- Does a coefficient table keep R368? -/
def coefGood (b : List Byte) : Bool :=
  let f := fun (i n : Nat) => fieldAt b i n
  let s := f 0 1
  let order := fun (q : Nat) => decide (1 ≤ q) && decide (q ≤ 15)
  decide (1 ≤ s) && decide (s ≤ 8) && order (f 1 1) && order (f 2 1) && f 1 1 != f 2 1 && decide (f 3 1 ≤ 1) && f 4 4 == 0 &&
    (List.range 88).all (fun i => finiteF32 (f (8 + 4 * i) 4)) &&
    (List.range 8).all (fun i => (List.range 8).all (fun j => (decide (j < i) && decide (i < s)) || f (8 + 32 * i + 4 * j) 4 == 0)) &&
    (List.range 8).all (fun j => decide (j < s) || (f (264 + 4 * j) 4 == 0 && f (296 + 4 * j) 4 == 0 && f (328 + 4 * j) 4 == 0))

/-- Does a step-factor table keep R369? -/
def ftabGood (b : List Byte) : Bool := (List.range 256).all (fun i => positiveF32 (fieldAt b (4 * i) 4))

/-- Does a sample record keep R370? DEDUCED (log 93). -/
def sampleGood (hmin : Nat) (b : List Byte) : Bool :=
  let f := fun (i : Nat) => f32 (fieldAt b i 4)
  let le := fun (x y : FVal) => FVal.lt false x y || FVal.eq x y
  le (f 0) (f 8) && le (f32 hmin) (f 4) && decide (fieldAt b 22 1 ≤ 2) && decide (fieldAt b 23 1 < 16) && decide (fieldAt b 23 1 % 8 ≤ 5) &&
    fieldAt b 56 8 == 0

/-- The index of an error in the step-factor table (R369). -/
def factorIndex (err : Nat) : Nat :=
  let e : Nat := err / 2 ^ 23 % 256
  let m2 : Nat := err / 2 ^ 21 % 4
  if e = 0 then 0
  else if e = 255 then 255
  else (clampTo 1 254 (4 * ((e : Int) - 127) + m2 + 128)).toNat

/-! ## A running job -/

/-- A field of the descriptor. -/
def SolverRun.d (r : SolverRun) (i n : Nat) : Nat := fieldAt r.dbytes i n

/-- Elements of a sample. -/
def SolverRun.nelem (r : SolverRun) : Nat := r.d 28 4

/-- Stages. -/
def SolverRun.stages (r : SolverRun) : Nat := fieldAt r.coef 0 1

/-- The address of a sample record. -/
def SolverRun.sampleAddr (r : SolverRun) (k : Nat) : Nat := r.d 16 8 + 64 * k

/-- The first coefficients of a row. -/
def SolverRun.row (r : SolverRun) (at_ n : Nat) : List Nat := (List.range n).map (fun j => fieldAt r.coef (at_ + 4 * j) 4)

/-- The areas of a sample and the batch area, as owner, address and length; owner 0 is the batch area. -/
def solverAreas (nelem nsamp work : Nat) (samples : List (List Byte)) : List (Nat × Nat × Nat) :=
  (0, work, 32832 + 8 * nelem * nsamp) ::
    (samples.mapIdx (fun k b => [(k + 1, fieldAt b 24 8, 4 * nelem), (k + 1, fieldAt b 32 8, 32 * nelem), (k + 1, fieldAt b 40 8, 24 * nelem),
      (k + 1, fieldAt b 48 8, 8 * nelem)])).flatten

/-- The ranges that two owners claim. -/
def clashes (l : List (Nat × Nat × Nat)) : List (Nat × Nat) :=
  l.flatMap (fun a => l.filterMap (fun b =>
    let lo := max a.2.1 b.2.1
    let hi := min (a.2.1 + a.2.2) (b.2.1 + b.2.2)
    if a.1 < b.1 ∧ lo < hi then some (lo, hi - lo) else none))

/-- A run of a job that has not begun. -/
def SolverRun.idle (j : SolverJob) : SolverRun :=
  { job := j, dbytes := [], coef := [], ftab := [], stage := 0, batch := [], rows := [], clash := [], rounds := 0, chain := 0, ended := none,
    phase := 0, fin := none }

/-- A sequencer as its accesses ask. -/
def SolverRun.asker (r : SolverRun) (n : Nat) : Asker := Asker.solver n r.job.asid

/-- A job ends: status, fsamp and, where it ran, rounds are written; its fence signals or fails once every write is acknowledged (R296,
R375). How it ends is settled before the write, which may be held; a fatal fault of the write fails the fence. -/
def State.endSolver (s : State) (n : Nat) (r : SolverRun) (queue : List SolverJob) (rounds : Option Nat) (status fsamp : Nat) : Out :=
  let j := r.job
  let w := r.asker n
  let s0 := s.setSequencer n { run := some { r with fin := some (status, fsamp, rounds) }, queue := queue }
  let ends := fun (ok : Bool) (t : State) =>
    (.next (((t.setSequencer n { run := none, queue := queue }).endCard j.die j.serial ok).letGo w) : Out)
  let bytes := leBytes 4 status ++ leBytes 4 fsamp ++
    (match rounds with
     | some k => leBytes 4 k
     | none => [])
  if r.phase = 2 then (if s.farOut 0 then .next s else ends (status == 1) s)
  else s0.solverSettle w 7 (s0.vaStore w (j.desc + 68) bytes) (ends false s0) (fun t =>
    if t.farOut 0 then .next (t.setSequencer n { run := some { r with fin := some (status, fsamp, rounds), phase := 2 }, queue := queue })
    else ends (status == 1) t)

/-- SOLVER_JOB_START (R371): the next job's descriptor and tables are read and checked; each sample is set active or done. -/
def execSolverJobStart (seq : Nat) (s : State) : Out :=
  let x := s.sequencer seq
  match x.run, x.queue with
  | none, j :: rest =>
    let none_ := 2 ^ 32 - 1
    let w := Asker.solver seq j.asid
    let fatal := s.endSolver seq (SolverRun.idle j) rest (some 0) 5 none_
    let breach := s.endSolver seq (SolverRun.idle j) rest none 2 none_
    s.solverSettle w 6 (s.vaFetch w j.desc 128) fatal (fun d =>
      if !solverDescGood j.desc d then breach
      else
        let nsamp := fieldAt d 24 4
        let tables := (s.vaFetch w (fieldAt d 0 8) 360).andThen (fun c => (s.vaFetch w (fieldAt d 8 8) 1024).andThen (fun f =>
          (s.vaFetch w (fieldAt d 16 8) (64 * nsamp)).andThen (fun m => .ok (c, f, m))))
        s.solverSettle w 6 tables fatal (fun t =>
          let samples := (List.range nsamp).map (fun i => (t.2.2.drop (64 * i)).take 64)
          if !coefGood t.1 || !ftabGood t.2.1 || !samples.all (sampleGood (fieldAt d 56 4)) then breach
          else
            let done := fun (b : List Byte) => FVal.eq (f32 (fieldAt b 0 4)) (f32 (fieldAt b 8 4))
            let active := (List.range nsamp).filter (fun i => !done (samples.getD i []))
            let clash := clashes (solverAreas (fieldAt d 28 4) nsamp (fieldAt d 40 8) samples)
            let run : SolverRun :=
              { job := j, dbytes := d, coef := t.1, ftab := t.2.1, stage := 0, batch := active, rows := [], clash := clash, rounds := 0,
                chain := 0, ended := none, phase := 0, fin := none }
            let writes := samples.mapIdx (fun i b => (run.sampleAddr i + 22, leBytes 1 (if done b then 1 else 0)))
            s.solverSettle w 7 (s.solverStore w [] writes) fatal (fun s1 =>
              if active.isEmpty then s1.endSolver seq run rest (some 0) 1 none_
              else .next (s1.setSequencer seq { run := some run, queue := rest }))))
  | _, _ => .next s

/-! ## Stages (R372, R373) -/

/-- h times each coefficient, rounded. -/
def stepWeights (h : Nat) (coef : List Nat) : List Nat := coef.map (fun a => (fmtF32.mul 0 h a).1)

/-- y with the weighted evaluations added in order, fused (R372). -/
def weighted (ws : List Nat) (ks : List (List Nat)) (y : List Nat) : List Nat :=
  (ws.zip ks).foldl (fun acc x => (acc.zip x.2).map (fun e => (fmtF32.fma 0 x.1 e.2 e.1).1)) y

/-- The first evaluations of a sample. -/
def State.evaluations (s : State) (w : Asker) (r : SolverRun) (b : List Byte) (n : Nat) : Fetch (List (List Nat)) :=
  Fetch.all (fun i => s.solverVec w r.clash (fieldAt b 32 8 + 4 * i * r.nelem) r.nelem) (List.range n)

/-- Does a sample reuse its last evaluation at stage 0 (R372)? -/
def SolverRun.reuses (r : SolverRun) (b : List Byte) : Bool := r.stage == 0 && fieldAt r.coef 3 1 == 1 && bitOf (fieldAt b 23 1) 3

/-- What building a stage of a sample gives: the copy of a ring slot into K_0, or the entry and the input row of the batch area. -/
def State.stageRow (s : State) (w : Asker) (r : SolverRun) (k : Nat) : Fetch ((Nat × List Byte) ⊕ (Nat × Nat × List Nat)) :=
  (s.vaFetch w (r.sampleAddr k) 64).andThen (fun b =>
    let ring := fieldAt b 40 8
    if r.reuses b then
      (s.solverRead w r.clash (ring + 4 * ((fieldAt b 23 1 % 8 + 5) % 6) * r.nelem) (4 * r.nelem)).andThen (fun v => .ok (.inl (fieldAt b 32 8, v)))
    else
      let h := fieldAt b 4 4
      (s.solverVec w r.clash (fieldAt b 24 8) r.nelem).andThen (fun y => (s.evaluations w r b r.stage).andThen (fun ks =>
        let ws := stepWeights h (r.row (8 + 32 * r.stage) r.stage)
        let t := (fmtF32.add 0 (fieldAt b 0 4) (fmtF32.mul 0 (fieldAt r.coef (328 + 4 * r.stage) 4) h).1).1
        .ok (.inr (k, t, weighted ws ks y)))))

/-- The writes that build the batch area (R373). -/
def SolverRun.batchWrites (r : SolverRun) (rows : List (Nat × Nat × List Nat)) : List (Nat × List Byte) :=
  let work := r.d 40 8
  [(work, leBytes 4 rows.length ++ leBytes 4 r.stage), (work + 64, rows.flatMap (fun x => leBytes 4 x.1 ++ leBytes 4 x.2.1)),
   (work + 32832, rows.flatMap (fun x => vecBytes x.2.2))]

/-- A sequencer's run replaced. -/
def State.setRun (s : State) (n : Nat) (r : SolverRun) : State := s.setSequencer n { s.sequencer n with run := some r }

/-! ## The end of a round (R374) -/

/-- The pairwise tree of R151 over f32 sums. -/
def sumTree (levels : Nat) (l : List (Option Lane)) : Option Lane :=
  (combTree (fun a b => (BitVec.ofNat 32 (fmtF32.add 0 a.toNat b.toNat).1, 0)) levels l).1

/-- The total of values: blocks of 32 by the tree, then the block sums by the tree. -/
def totalOf (l : List Nat) : Nat :=
  let n := (l.length + 31) / 32
  let block := fun (i : Nat) => sumTree 5 ((List.range 32).map (fun j => (l[32 * i + j]?).map (BitVec.ofNat 32)))
  let levels := if n ≤ 1 then 0 else Nat.log2 (n - 1) + 1
  let sums := (List.range (2 ^ levels)).map (fun i => if i < n then block i else none)
  ((sumTree levels sums).getD 0).toNat

/-- The error of a sample (R374). DEDUCED (log 93). -/
def SolverRun.error (r : SolverRun) (y new low : List Nat) : Nat :=
  let abs := fun (p : Nat) => p % 2 ^ 31
  let x := (y.zip (new.zip low)).map (fun e =>
    let d := (fmtF32.sub 0 e.2.1 e.2.2).1
    let m := (fltMinMax true (abs e.1) (abs e.2.1)).1
    let sc := (fmtF32.add 0 (r.d 48 4) (fmtF32.mul 0 (r.d 52 4) m).1).1
    let q := (fmtF32.div 0 d sc).1
    (fmtF32.mul 0 q q).1)
  let mean := (fmtF32.div 0 (totalOf x) (rne (intVal r.nelem))).1
  (sqrtF32 0 mean).1

/-- A sample's update: its record, and what else is written (R374). -/
def SolverRun.update (r : SolverRun) (k : Nat) (b : List Byte) (y new low last : List Nat) : Nat × List (Nat × List Byte) :=
  let f := fun (i n : Nat) => fieldAt b i n
  let err := r.error y new low
  let t := f 0 4
  let h := f 4 4
  let tend := f 8 4
  let v := f32
  let head := f 23 1 % 8
  let accept := !(v err).isNan && !FVal.lt false (v 0x3F800000) (v err)
  let reach := fun (t h : Nat) => (v t).add (v h)
  let t1 := if !accept then t else if FVal.lt false (reach t h) (v tend) then (fmtF32.add 0 t h).1 else tend
  let cons := if accept then 0 else (f 20 2 + 1) % 2 ^ 16
  let head1 := if accept then (head + 1) % 6 else head
  let hf := (fmtF32.mul 0 h (fieldAt r.ftab (4 * factorIndex err) 4)).1
  let hc := if FVal.lt false (v hf) (v (r.d 56 4)) then r.d 56 4 else if FVal.lt false (v (r.d 60 4)) (v hf) then r.d 60 4 else hf
  let h1 := if FVal.lt false (v tend) (reach t1 hc) then (fmtF32.sub 0 tend t1).1 else hc
  let state := if cons = r.d 64 2 then 2 else if accept && FVal.eq (v t1) (v tend) then 1 else 0
  let record := leBytes 4 t1 ++ leBytes 4 h1 ++ leBytes 4 tend ++ leBytes 4 (f 12 4 + (if accept then 1 else 0)) ++
    leBytes 4 (f 16 4 + (if accept then 0 else 1)) ++ leBytes 2 cons ++ leBytes 1 state ++ leBytes 1 (head1 + (if accept then 8 else 0))
  let scratch := [(f 48 8, vecBytes new ++ vecBytes low)]
  let kept := if accept then [(f 24 8, vecBytes new), (f 40 8 + 4 * head * r.nelem, vecBytes last)] else []
  (state, scratch ++ kept ++ [(r.sampleAddr k, record)])

/-- A sample at the end of a round: its new state and what is written. -/
def State.endSample (s : State) (w : Asker) (r : SolverRun) (k : Nat) : Fetch (Nat × Nat × List (Nat × List Byte)) :=
  (s.vaFetch w (r.sampleAddr k) 64).andThen (fun b => (s.solverVec w r.clash (fieldAt b 24 8) r.nelem).andThen (fun y =>
    (s.evaluations w r b r.stages).andThen (fun ks =>
      let h := fieldAt b 4 4
      let new := weighted (stepWeights h (r.row 264 r.stages)) ks y
      let low := weighted (stepWeights h (r.row 296 r.stages)) ks y
      .ok (k, r.update k b y new low (ks.getD (r.stages - 1) [])))))

/-- A stage is behind the sequencer: the next one is to be built, or the round ends (R374, R375). -/
def State.stageDone (s : State) (n : Nat) (r : SolverRun) : Out :=
  let w := r.asker n
  let none_ := 2 ^ 32 - 1
  let rest := (s.sequencer n).queue
  let fatal := s.endSolver n r rest (some r.rounds) 5 none_
  if r.stage + 1 < r.stages then .next (s.setRun n { r with stage := r.stage + 1, phase := 0, ended := none })
  else
    s.solverSettle w 6 (Fetch.all (s.endSample w r) r.batch) fatal (fun l =>
      s.solverSettle w 7 (s.solverStore w r.clash (l.flatMap (fun x => x.2.2))) fatal (fun s1 =>
        let failed := (l.filter (fun x => x.2.1 == 2)).map (fun x => x.1)
        let next := (l.filter (fun x => x.2.1 == 0)).map (fun x => x.1)
        match failed with
        | k :: _ => s1.endSolver n r rest (some (r.rounds + 1)) 3 k
        | [] =>
          if next.isEmpty then s1.endSolver n r rest (some (r.rounds + 1)) 1 none_
          else .next (s1.setRun n { r with stage := 0, phase := 0, ended := none, batch := next, rounds := r.rounds + 1 })))

/-- A stage built: the batch area is written and the chain is submitted, or every sample reuses its evaluation (R372, R373). -/
def State.buildStage (s : State) (n : Nat) (r : SolverRun) : Out :=
  let die := n / 64
  let j := r.job
  let w := r.asker n
  let fatal := s.endSolver n r (s.sequencer n).queue (some r.rounds) 5 (2 ^ 32 - 1)
  s.solverSettle w 6 (Fetch.all (s.stageRow w r) r.batch) fatal (fun l =>
    let copies := l.filterMap (fun x =>
      match x with
      | .inl w => some w
      | .inr _ => none)
    let rows := l.filterMap (fun x =>
      match x with
      | .inl _ => none
      | .inr w => some w)
    let writes := copies ++ (if rows.isEmpty then [] else r.batchWrites rows)
    s.solverSettle w 7 (s.solverStore w r.clash writes) fatal (fun s1 =>
      if rows.isEmpty then s1.stageDone n r
      else
        let (id, s2) := s1.newChain die (64 + n % 64) (some n) j.asid (r.d 66 1 % 8) 0 0 (r.d 32 8)
        .next (s2.setRun n { r with phase := 1, chain := id, ended := none, rows := rows.map (fun x => x.1) })))

/-- The outputs of a stage become the rows' evaluations (R373). What has landed meanwhile in bytes that two areas share is undefined (R370):
those bytes take free values. -/
def State.takeOutputs (s : State) (n : Nat) (r : SolverRun) : Out :=
  let w := r.asker n
  let m := r.rows.length
  let fatal := s.endSolver n r (s.sequencer n).queue (some r.rounds) 5 (2 ^ 32 - 1)
  let one := fun (x : Nat × Nat) =>
    (s.vaFetch w (r.sampleAddr x.2) 64).andThen (fun b =>
      (s.solverRead w r.clash (r.d 40 8 + 32832 + 4 * r.nelem * (m + x.1)) (4 * r.nelem)).andThen (fun v =>
        .ok (fieldAt b 32 8 + 4 * r.stage * r.nelem, v)))
  s.solverSettle w 6 (Fetch.all one (r.rows.mapIdx (fun p k => (p, k)))) fatal (fun l =>
    s.solverSettle w 7 (s.solverStore w r.clash (l ++ r.clash.map (fun x => (x.1, List.replicate x.2 0)))) fatal (fun s1 => s1.stageDone n r))

/-- SOLVER_STAGE_COMPLETE (R372-R375): the sequencer's next piece of work: it builds a stage, or takes the outputs of one whose chain has
ended, and behind the last stage it forms the errors and ends the round. -/
def execSolverStageComplete (seq : Nat) (s : State) : Out :=
  match (s.sequencer seq).run with
  | none => .next s
  | some r =>
    match r.fin with
    | some (status, fsamp, rounds) => s.endSolver seq r (s.sequencer seq).queue rounds status fsamp
    | none =>
      if r.phase = 0 then s.buildStage seq r
      else match r.ended with
        | none => .next s
        | some 0 => s.takeOutputs seq r
        | some _ => s.endSolver seq r (s.sequencer seq).queue (some r.rounds) 4 (2 ^ 32 - 1)

end Sys2Proof.Machine
end

