-- ==== Sys2Proof/Machine/Registers.lean ====
section
/-!
DEFINITION. The event queue (R410), hotness snapshots (R420), the split of the base die's SRAM (R274), and the register space of a die
(R273, R282, R288, R338, R346, R380, R406, R410, R411, R418-R422, R431, R435, R436).
-/

namespace Sys2Proof.Machine

/-! ## The event queue (R410) -/

/-- Slots of the event ring. -/
def Die.eqSlots (d : Die) : Nat := 2 ^ (min (d.eqCtl.toNat % 16) 12 + 4)

/-- Is the ring configured, and has it room? -/
def Die.eqRoom (d : Die) : Bool :=
  d.eqBase != 0 && (d.eqTail.toNat + 1) % d.eqSlots != d.eqHead.toNat % d.eqSlots

/-- A slot's 64 bytes: the body, its time of posting where the record carries one, type, phase and sequence number. -/
def Event.bytes (e : Event) (phase : Bool) (seq now : Nat) : List Byte :=
  let body := if e.type = 1 then e.body else e.body.take 16 ++ leBytes 8 now ++ e.body.drop 24
  body ++ leBytes 1 e.type ++ leBytes 1 (if phase then 1 else 0) ++ leBytes 2 0 ++ leBytes 4 seq ++ leBytes 24 0

/-- EVENT_RECORD_POST (R410): the oldest record of a die is written whole, then the tail moves; the phase inverts as the tail wraps. With
`eq.ctl.ie` set the host kernel is interrupted.
DESIGN CHOICE (log 102). -/
def execEventRecordPost (die : Nat) (s : State) : Out :=
  let d := s.die die
  match d.events with
  | [] => .next s
  | e :: rest =>
    let at_ := d.eqBase.toNat + 64 * (d.eqTail.toNat % d.eqSlots)
    if !d.eqRoom || !s.homesFree at_ 64 then .next s
    else
      let s1 := s.engineWrite at_ (e.bytes d.eqPhase d.eqSeq.toNat s.now)
      let tail := (d.eqTail.toNat + 1) % d.eqSlots
      .next (s1.setDie die { s1.die die with
        events := rest, eqTail := BitVec.ofNat 16 tail, eqSeq := d.eqSeq + 1, eqPhase := if tail = 0 then !d.eqPhase else d.eqPhase
        irqs := (s1.die die).irqs + (if d.eqCtl.getLsbD 4 then 1 else 0) })

/-- EQ_HEAD_WRITE (R410): the host has read the slots before the new head. -/
def execEqHeadWrite (die val : Nat) (s : State) : Out := .next (s.setDie die { s.die die with eqHead := BitVec.ofNat 16 val })

/-! ## Hotness (R420) -/

/-- The counts of a die as a snapshot lays them out. -/
def Die.hotBytes (d : Die) : List Byte := (List.range (131072 + 262144)).flatMap (fun n => leBytes 2 (SMap.get 0 d.hot n))

/-- The counts behind a snapshot: cleared, or halved. -/
def Die.cooled (d : Die) (halve : Bool) : SMap Nat :=
  if halve then SMap.ofList 0 (d.hot.map (fun x => (x.1, x.2 / 2))) else []

/-- HOTNESS_SNAPSHOT (R420): a write of `hc.cmd` with go set, which waits while a home of its array has a write outstanding. The counts are
cleared or halved as they are read; the requests of the snapshot's own write count in the next one. -/
def execHotnessSnapshot (die : Nat) (halve : Bool) (s : State) : Out :=
  let d := s.die die
  if !s.homesFree d.hcBase.toNat 786432 then .next (s.setDie die { d with hcGo := true, hcHalve := halve })
  else
    let s1 := s.setDie die { d with hot := d.cooled halve, hcHalve := halve, hcGo := false }
    .next (s1.engineWrite d.hcBase.toNat d.hotBytes)

/-! ## The split (R274) -/

/-- MC_SPLIT_WRITE (R274): refused, or the ways start to move. Ways that leave the caddy lose their contents; the bytes of those that join
it are undefined until written. DEDUCED (log 25). -/
def execMcSplitWrite (die val : Nat) (s : State) : Out :=
  let d := s.die die
  let ways := val % 16
  let refused := decide (ways = 0) || decide (12 < ways) || d.splitBusy.isSome || d.windows.any (fun w => decide (32 * ways < w.2.1 + w.2.2))
  let acked := if val / 2 ^ 9 % 2 = 1 then false else d.splitRefused
  if refused then .next (s.setDie die { d with splitRefused := true })
  else
    let s1 := s.setDie die { d with cways := ways, splitBusy := some d.cways, splitRefused := acked }
    let base := die * 2 ^ 29
    let left := closeRange s1.caddyOpen (base + ways * 2 ^ 25) (2 ^ 29 - ways * 2 ^ 25)
    let joined := if d.cways < ways then [(base + d.cways * 2 ^ 25, base + ways * 2 ^ 25, s.free)] else []
    .next (({ s1 with caddy := s1.caddy.zero (base + ways * 2 ^ 25) (2 ^ 29 - ways * 2 ^ 25), caddyOpen := left ++ joined } : State).useFree (2 ^ 29))

/-- SPLIT_CHANGE_COMPLETE (R274). DEDUCED (log 25). -/
def execSplitChangeComplete (die : Nat) (s : State) : Out := .next (s.setDie die { s.die die with splitBusy := none })

/-! ## Stall counters (R359, R401, R405, R416, R419) -/

/-- Does the array of a crew wait for a slice (R401)? The Infuser's waits are not counted. DEDUCED (log 84). -/
def Crew.starves (c : Crew) : Bool :=
  match c.array with
  | some a =>
    (match a.kind with
     | .step f _ _ _ => a.held.isNone && (decide (a.gotA < fetchGoal f false) || (f.pro == 0 && decide (a.gotB < fetchGoal f true)))
     | _ => false)
  | none => false

/-- Is the decoupling of a crew lost (R405)? A copy BRF waits on an empty flag; a push waits for room; a copy word waits on an empty shared
scalar, or the scalar stream on a token that only tile reads hold; or a job that fills a queue, or a step's fetch, is held. Only the
access/execute mode is decoupled (R24). DEDUCED (log 84). -/
def Crew.couples (c : Crew) : Bool :=
  let waits := fun (st : Strm) => if (c.strm st).isIdle then Wait.nothing else (c.strm st).wait
  let full := fun (st : Strm) => match waits st with
    | .queue q n true => decide (16 < (c.dq.getD q []).length + n)
    | _ => false
  c.kern.ae && ((match waits .k with
   | .flag f => !c.flagFull f
   | .shared g => c.gEmpty g
   | _ => false) || full .k || full .v ||
    (match waits .s with
     | .token mask lim =>
       let waiting := (List.range 8).filter (fun i => mask.getLsbD i && decide (lim < SMap.get 0 c.tok i))
       !waiting.isEmpty && waiting.all (fun i => (c.port.filter (fun e => e.tok? == some (BitVec.ofNat 3 i))).length == SMap.get 0 c.tok i)
     | _ => false) ||
    c.jobs.any (fun j => j.held.isSome && isPush j.ins) || (c.array.bind (fun a => a.held)).isSome)

/-- Has some crew that runs or halts on a core a property? -/
def State.onCore (s : State) (k : Nat) (p : Crew → Bool) : Bool :=
  s.crews.any (fun c => c.agent == k && (c.life == .running || c.life == .halting) && c.place.npu && p c)

/-- The NPU cores on which some crew runs or halts, each once. -/
def State.npuCores (s : State) : List Nat :=
  ((s.crews.filter (fun c => (c.life == .running || c.life == .halting) && c.place.npu)).map (fun c => c.agent)).dedup

/-- What one cycle adds to a core's stall counters: Infuser stalls, operand stalls, lost decoupling (R401, R405, R421). -/
def State.stallOf (s : State) (k off : Nat) : Bool :=
  match off with
  | 0x18 => s.onCore k s.tableStall
  | 0x20 => s.onCore k Crew.starves
  | 0x28 => s.onCore k Crew.couples
  | _ => false

/-- A core's stall counter by its offset, one higher. -/
def Core.stall (c : Core) (off : Nat) : Core :=
  match off with
  | 0x18 => c.stalled
  | 0x20 => c.starved
  | 0x28 => c.coupled
  | _ => c

/-- A core's stall counters after a cycle, those of the offsets named. -/
def State.stallAt (s : State) (k : Nat) (offs : List Nat) (c : Core) : Core :=
  offs.foldl (fun c off => if s.stallOf k off then c.stall off else c) c

/-- Does the lead allowance hold a pass or an operator on a die in this cycle (R419)? DEDUCED (log 61). -/
def State.leadWaits (s : State) (die : Nat) : Bool :=
  s.leadHolds die && (s.passes.any (fun p => p.die == die && p.held) || s.chains.any (fun c => c.held && !c.killed))

/-- The stall counters of one cycle. -/
def State.stalls (s : State) : State :=
  let s1 := s.npuCores.foldl (fun t k => t.setCore k (s.stallAt k [0x18, 0x20, 0x28] (t.core k))) s
  ([0, 1] : List Nat).foldl (fun t die => if s.leadWaits die then t.setDie die (t.die die).leadStall else t) s1

/-! ## The register space (R436) -/

/-- The bits [51:12] of a written value. -/
def pageField (v : Nat) : Word := BitVec.ofNat 64 (v / 2 ^ 12 % 2 ^ 40 * 2 ^ 12)

/-- A queue's control register after a write: only the firmware sets prio 7; another write of 7 leaves the field (R346). -/
def ctlWrite (old : Word) (v : Nat) (fw : Bool) : Word :=
  let prio := if v / 16 % 8 = 7 ∧ !fw then ctlPrio old else v / 16 % 8
  BitVec.ofNat 64 (v % 16 + 16 * prio + v / 128 % 2 * 128 + v / 256 % 2 ^ 16 * 256)

/-- One word of a two-word register written. -/
def halfWrite (old : BitVec 128) (high : Bool) (v : Nat) : BitVec 128 :=
  if high then BitVec.ofNat 128 (old.toNat % 2 ^ 64 + v * 2 ^ 64) else BitVec.ofNat 128 (old.toNat / 2 ^ 64 * 2 ^ 64 + v)

/-- A command queue's register written (R346, R380). -/
def CmdQueue.poke (q : CmdQueue) (off v : Nat) (fw : Bool) : CmdQueue :=
  match off with
  | 0x00 => { q with base := pageField v }
  | 0x08 => if q.busy then { q with ctlNext := some (ctlWrite (q.ctlNext.getD q.ctl) v fw) } else { q with ctl := ctlWrite q.ctl v fw }
  | 0x10 => { q with tail := BitVec.ofNat 16 v }
  | 0x20 => { q with gs := pageField v }
  | _ => q

/-- A task queue's register written (R406). -/
def TaskQueue.poke (q : TaskQueue) (off v : Nat) (fw : Bool) : TaskQueue :=
  match off with
  | 0x00 => { q with base := pageField v }
  | 0x08 => { q with ctl := ctlWrite q.ctl v fw }
  | 0x10 => { q with set0 := halfWrite q.set0 false v }
  | 0x18 => { q with set0 := halfWrite q.set0 true v }
  | 0x20 => { q with set1 := halfWrite q.set1 false v }
  | 0x28 => { q with set1 := halfWrite q.set1 true v }
  | 0x30 => { q with image := pageField v }
  | _ => q

/-- A core's register written (R271, R288, R418, R421). -/
def Core.poke (c : Core) (npu : Bool) (off v : Nat) (fw : Bool) : Core :=
  match off with
  | 0x00 => if fw && decide (v % 32 ≤ 8) && c.slots.all (fun x => x.2.state == 0) then { c with carve := v % 32 } else c
  | 0x08 => { c with subUpd := v % 2 == 1 }
  | 0x10 => { c with lease := v % 512 }
  | 0x18 => if npu then { c with istall := BitVec.ofNat 48 v } else c
  | 0x20 => if npu then { c with ostall := BitVec.ofNat 48 v } else c
  | 0x28 => if npu then { c with dloss := BitVec.ofNat 48 v } else c
  | _ => c

/-- A slice's counter written (R421). -/
def Die.pokeSlice (d : Die) (n off v : Nat) : Die :=
  let put := fun (m : SMap (BitVec 48)) => SMap.set 0 m n (BitVec.ofNat 48 v)
  match off with
  | 0x00 => { d with subInv := put d.subInv }
  | 0x08 => { d with subUpd := put d.subUpd }
  | 0x10 => { d with subSupp := put d.subSupp }
  | 0x18 => { d with subOvf := put d.subOvf }
  | _ => d

/-- A regulator after a write (R282): a lat of 3 is ignored (R283). DEDUCED (log 118): it orders requests in time only. -/
def qosField (old : Word) (v : Nat) : Word :=
  let new := BitVec.ofNat 64 v &&& 0x0003FFFFFFFF0FFF
  if v / 2 ^ 48 % 4 = 3 then (new &&& 0x0000FFFFFFFFFFFF) ||| (old &&& 0x0003000000000000) else new

/-- An entry of the caddy window table written by the firmware, in its private space: [15:0] ASID, [31:16] base, [47:32] size, the table
of 64 entries kept by ASID (R273). The form of the word is the model's own. DESIGN CHOICE (log 24). -/
def Die.pokeWindow (d : Die) (v : Nat) : Die :=
  let asid := v % 2 ^ 16
  let others := d.windows.filter (fun w => w.1 != asid)
  let size := v / 2 ^ 32 % 2 ^ 16
  if size = 0 then { d with windows := others }
  else if 64 ≤ others.length then d
  else { d with windows := others ++ [(asid, v / 2 ^ 16 % 2 ^ 16, size)] }

/-- A register of the die itself written; `fw` says that the firmware writes. -/
def Die.poke (d : Die) (addr v : Nat) (fw : Bool) : Die :=
  match addr with
  | 0x0000 => { d with atab := pageField v }
  | 0x0008 => { d with cqBase := pageField v, cqSize := v / 2 ^ 52 % 16 }
  | 0x0010 => { d with tcTail := BitVec.ofNat 16 v }
  | 0x0020 => { d with wrec := pageField v }
  | 0x0040 => { d with eqBase := pageField v }
  | 0x0048 => { d with eqCtl := BitVec.ofNat 64 (v % 32) }
  | 0x0050 => { d with eqHead := BitVec.ofNat 16 v }
  | 0x0080 => { d with fxTmo := BitVec.ofNat 20 v }
  | 0x0088 => { d with fxItmo := BitVec.ofNat 21 v }
  | 0x0090 => if v % 2 = 1 then { d with fxPst := false } else d
  | 0x0098 => if fw then { d with fxPkg := BitVec.ofNat 7 v } else d
  | 0x00C0 => { d with laAllow := BitVec.ofNat 4 v }
  | 0x00D0 => { d with laStall := BitVec.ofNat 48 v }
  | 0x0100 => { d with hcBase := pageField v }
  | 0x0140 => { d with erTrans := BitVec.ofNat 32 v }
  | 0x0148 => { d with erLast := BitVec.ofNat 16 v }
  | _ =>
    if fw && decide (0x200 ≤ addr) && decide (addr < 0x238) then { d with qos := d.qos.set ((addr - 0x200) / 8) (qosField (d.qos.getD ((addr - 0x200) / 8) 0) v) }
    else if fw && addr == 2 ^ 24 then d.pokeWindow v
    else d

/-- Does an offset of the register space name a register (R436)? -/
def registerNamed (addr : Nat) : Bool :=
  let n := addr / 0x1000 % 0x100
  let off := addr % 0x1000
  addr % 8 == 0 &&
    (match addr / 0x10_0000 with
     | 0 =>
       if 0x1000 ≤ addr ∧ addr < 0x2000 then decide (addr % 0x40 ≤ 0x20)
       else if 0x2000 ≤ addr ∧ addr < 0x2800 then decide (addr % 0x80 ≤ 0x40)
       else if 0x200 ≤ addr ∧ addr < 0x240 then true
       else ([0x00, 0x08, 0x10, 0x18, 0x20, 0x40, 0x48, 0x50, 0x58, 0x80, 0x88, 0x90, 0x98, 0xC0, 0xC8, 0xD0, 0x100, 0x108, 0x140,
              0x148, 0x150, 0x158, 0x160, 0x180] : List Nat).contains addr
     | 1 => decide (n < 128) && decide (off ≤ 0x10)
     | 2 => decide (n < 48) && decide (off ≤ 0x28)
     | 3 => decide (n < 64) && decide (off ≤ 0x18)
     | _ => false)

/-- REGISTER_WRITE (R436): one aligned 8-byte store to a die's register space. An offset that names no register, a read-only one and a
host's write of a register of the firmware are ignored. A stall counter takes its increment of the cycle after the written value (R416).
Offset 2^24 stands for the firmware's private space.
DEDUCED (log 8). DESIGN CHOICE (log 24). DEDUCED (log 26). -/
def execRegisterWrite (die addr val : Nat) (fw : Bool) (s : State) : Out :=
  let v := val % 2 ^ 64
  let d := s.die die
  let n := addr / 0x1000 % 0x100
  let off := addr % 0x1000
  if !s.power || !(registerNamed addr || addr == 2 ^ 24) then .next s
  else match addr / 0x10_0000 with
    | 0 =>
      if 0x1000 ≤ addr ∧ addr < 0x2000 then
        .next (s.setCmdq die ((addr - 0x1000) / 0x40) ((s.cmdq die ((addr - 0x1000) / 0x40)).poke (addr % 0x40) v fw))
      else if 0x2000 ≤ addr ∧ addr < 0x2800 then
        .next (s.setTaskq die ((addr - 0x2000) / 0x80) ((s.taskq die ((addr - 0x2000) / 0x80)).poke (addr % 0x80) v fw))
      else match addr with
        | 0x108 => if v % 2 = 1 then execHotnessSnapshot die (v / 2 % 2 == 1) s else .next (s.setDie die { d with hcHalve := v / 2 % 2 == 1 })
        | 0x160 => .next (if fw then s else { s with pwHost := v % 2 == 1 })
        | 0x180 => if fw then execMcSplitWrite die v s else .next s
        | 0x0D0 => .next (s.setDie die (if s.leadWaits die then (d.poke addr v fw).leadStall else d.poke addr v fw))
        | _ => .next (s.setDie die (d.poke addr v fw))
    | 1 =>
      let k := ({ npu := false, die := die, core := n, slot := 0 } : Place).agent
      .next (if n < 128 then s.setCore k ((s.core k).poke false off v fw) else s)
    | 2 =>
      let k := ({ npu := true, die := die, core := n, slot := 0 } : Place).agent
      .next (if n < 48 then s.setCore k (s.stallAt k [off] ((s.core k).poke true off v fw)) else s)
    | 3 => .next (if n < 64 then s.setDie die (d.pokeSlice n off v) else s)
    | 16 => .next (s.setDie die (d.poke addr v fw))
    | _ => .next s

/-! ## Loads of the register space (R436) -/

/-- A bit of a register. -/
def bitAt (n : Nat) (b : Bool) : Nat := if b then 2 ^ n else 0

/-- A command queue's register as a load reads it (R346, R380). -/
def CmdQueue.peek (q : CmdQueue) (off : Nat) : Nat :=
  match off with
  | 0x00 => q.base.toNat
  | 0x08 => (q.ctlNext.getD q.ctl).toNat
  | 0x10 => q.tail.toNat
  | 0x18 => q.head.toNat
  | _ => q.gs.toNat

/-- A task queue's register as a load reads it (R406). -/
def TaskQueue.peek (q : TaskQueue) (off : Nat) : Nat :=
  match off with
  | 0x00 => q.base.toNat
  | 0x08 => q.ctl.toNat
  | 0x10 => q.set0.toNat % 2 ^ 64
  | 0x18 => q.set0.toNat / 2 ^ 64
  | 0x20 => q.set1.toNat % 2 ^ 64
  | 0x28 => q.set1.toNat / 2 ^ 64
  | 0x30 => q.image.toNat
  | 0x38 => q.head.toNat
  | _ => q.tail.toNat

/-- A core's register as a load reads it (R271, R288, R418, R421). -/
def Core.peek (c : Core) (off : Nat) : Nat :=
  match off with
  | 0x00 => c.carve
  | 0x08 => bitAt 0 c.subUpd
  | 0x10 => c.lease
  | 0x18 => c.istall.toNat
  | 0x20 => c.ostall.toNat
  | _ => c.dloss.toNat

/-- A slice's counter as a load reads it (R421). -/
def Die.peekSlice (d : Die) (n off : Nat) : Nat :=
  (SMap.get 0 (match off with
    | 0x00 => d.subInv
    | 0x08 => d.subUpd
    | 0x10 => d.subSupp
    | _ => d.subOvf) n).toNat

/-- A register of the die itself as a load reads it. -/
def Die.peek (d : Die) (addr : Nat) : Nat :=
  match addr with
  | 0x0000 => d.atab.toNat
  | 0x0008 => d.cqBase.toNat + 2 ^ 52 * d.cqSize
  | 0x0010 => d.tcTail.toNat
  | 0x0018 => d.tcHead.toNat
  | 0x0020 => d.wrec.toNat
  | 0x0040 => d.eqBase.toNat
  | 0x0048 => d.eqCtl.toNat
  | 0x0050 => d.eqHead.toNat
  | 0x0058 => d.eqTail.toNat
  | 0x0080 => d.fxTmo.toNat
  | 0x0088 => d.fxItmo.toNat
  | 0x0090 => bitAt 0 d.fxPst
  | 0x0098 => d.fxPkg.toNat
  | 0x00C0 => d.laAllow.toNat
  | 0x00C8 => d.laPhase.toNat
  | 0x00D0 => d.laStall.toNat
  | 0x0100 => d.hcBase.toNat
  | 0x0108 => bitAt 0 d.hcGo + bitAt 1 d.hcHalve
  | 0x0140 => d.erTrans.toNat
  | 0x0148 => d.erLast.toNat
  | 0x0180 => d.cways + bitAt 8 d.splitBusy.isSome + bitAt 9 d.splitRefused
  | _ => (d.qos.getD ((addr - 0x200) / 8) 0).toNat

/-- What an aligned 8-byte load of a die's register space reads (R436): zero where the offset names no register. -/
def State.registerRead (s : State) (die addr : Nat) : Nat :=
  let d := s.die die
  let n := addr / 0x1000 % 0x100
  let off := addr % 0x1000
  if !registerNamed addr then 0
  else match addr / 0x10_0000 with
    | 0 =>
      if 0x1000 ≤ addr ∧ addr < 0x2000 then (s.cmdq die ((addr - 0x1000) / 0x40)).peek (addr % 0x40)
      else if 0x2000 ≤ addr ∧ addr < 0x2800 then (s.taskq die ((addr - 0x2000) / 0x80)).peek (addr % 0x80)
      else match addr with
        | 0x150 => s.svn
        | 0x158 => SMap.get 0 s.bsState die
        | 0x160 => bitAt 0 s.pwHost + bitAt 1 s.pwTchief + bitAt 2 (s.pwHost || s.pwTchief)
        | _ => d.peek addr
    | 1 => (s.core ({ npu := false, die := die, core := n, slot := 0 } : Place).agent).peek off
    | 2 => (s.core ({ npu := true, die := die, core := n, slot := 0 } : Place).agent).peek off
    | _ => d.peekSlice n off

end Sys2Proof.Machine
end

