-- ==== Sys2Proof/Machine/Firmware.lean ====
section
/-!
DEFINITION. The firmware and the package at its edges: boot and fuses (R423, R425), attestation (R426), leadership (R427), training
(R428), errors and fencing (R429), the Tchief port, power and resets (R430, R431).
-/

namespace Sys2Proof.Machine

/-! ## Boot (R423, R425) -/

/-- Does the boot ROM accept an image? DESIGN CHOICE (log 14). -/
def State.imageGood (s : State) (i : Nat) : Bool :=
  Config.signatureGood i && !s.leaves.contains (Config.leafIndex i) && decide (s.svn ≤ Config.securityVersion i)

/-- An image accepted: it runs, its leaf is used, the fuse counter advances by one where its version is above it, and both dies are in
reduced service. The die-0 core leads first. -/
def State.bootFrom (s : State) (i : Nat) : State :=
  let up := decide (s.svn < Config.securityVersion i)
  let s1 : State :=
    { s with
      power := true
      bsState := SMap.set 0 (SMap.set 0 s.bsState 0 1) 1 1
      trained := []
      svn := if up && decide (s.svn < 128) then s.svn + 1 else s.svn
      svnBlowing := up && decide (s.svn < 128)
      leader := 0
      acting := true
      renewed := s.now
      fwImage := some i
      measured := [.firmware i]
      leaves := Config.leafIndex i :: s.leaves }
  if up && decide (128 ≤ s.svn) then s1.fwLog 0 .fuseLimit else s1

/-- POWER_ON_BOOT (R425): the image in flash is tried, then the one that TFTP delivers. -/
def execPowerOnBoot (image : Nat) (s : State) : Out :=
  if s.fwImage.isSome then .next s
  else match [s.flash, image].find? s.imageGood with
    | some i => .next (s.bootFrom i)
    | none => .next { s with power := true }

/-! ## Attestation (R426) -/

/-- An SPDM request served, once the firmware runs: a signed response goes out. DESIGN CHOICE (log 16). -/
def State.serve (s : State) (kind : SpdmKind) (req : Nat) (blocks : List Measured) : Out :=
  if s.fwImage.isNone then .next s
  else
    let a : SpdmAnswer := { kind := kind, req := req, blocks := blocks, signature := Config.freeSignature s.free }
    .next (({ s with spdm := s.spdm ++ [a] } : State).useFree 1)

/-- GET_VERSION. -/
def execGetVersion (req : Nat) (s : State) : Out := s.serve .version req []

/-- GET_CAPABILITIES. -/
def execGetCapabilities (req : Nat) (s : State) : Out := s.serve .capabilities req []

/-- NEGOTIATE_ALGORITHMS. -/
def execNegotiateAlgorithms (req : Nat) (s : State) : Out := s.serve .algorithms req []

/-- GET_DIGESTS. -/
def execGetDigests (req : Nat) (s : State) : Out := s.serve .digests req []

/-- GET_CERTIFICATE. -/
def execGetCertificate (req : Nat) (s : State) : Out := s.serve .certificate req []

/-- CHALLENGE. -/
def execChallenge (req : Nat) (s : State) : Out := s.serve .challenge req []

/-- GET_MEASUREMENTS: index 1 is the firmware, the images follow in load order. -/
def execGetMeasurements (req : Nat) (s : State) : Out := s.serve .measurements req s.measured

/-! ## Leadership (R427) -/

/-- LEADER_RENEW: the acting leader renews its lease; a fuse blow of its boot is over. DEDUCED (log 15). DEDUCED (log 23). -/
def execLeaderRenew (s : State) : Out :=
  if s.leads then .next { s with renewed := s.now, svnBlowing := false } else .next s

/-- LEADER_STEP_DOWN: a leader that has not renewed for 45 ms stops acting. DEDUCED (log 23). -/
def execLeaderStepDown (s : State) : Out :=
  if s.acting && decide (s.renewed + cyclesOf 45000 ≤ s.now) then .next { s with acting := false } else .next s

/-- LEADERSHIP_TAKEOVER: 50 ms after the last renewal the follower leads; what the old leader accepted it completes: kills stand in
the state, and a fuse advance under way is done. DEDUCED (log 15). -/
def execLeadershipTakeover (s : State) : Out :=
  if s.fwImage.isSome && decide (s.renewed + cyclesOf 50000 ≤ s.now) then
    .next { s with leader := 1 - s.leader, acting := true, renewed := s.now, svnBlowing := false }
  else .next s

/-! ## Training (R428) -/

/-- TRAINING_COMPLETE: memory training (0) or die-link training (1) is done; with both the package is in full service.
DEDUCED (log 18). -/
def execTrainingComplete (link : Nat) (s : State) : Out :=
  if !s.reduced || decide (1 < link) then .next s
  else
    let done := if s.trained.contains link then s.trained else s.trained ++ [link]
    .next { s with
      trained := done
      bsState := if done.length = 2 then SMap.set 0 (SMap.set 0 s.bsState 0 2) 1 2 else s.bsState }

/-! ## Resets (R423, R430) -/

/-- The package reset: every context ends without a record. Blown fuses, used leaves and the flash stay; a fuse blow that is
interrupted reads as the old value or the new one, freely. The model's own fields go on. DEDUCED (log 19). -/
def State.packageReset (s : State) (power : Bool) : State :=
  { State.reset with
    power := power
    svn := if s.svnBlowing && Config.freeChoice s.free % 2 == 0 then s.svn - 1 else s.svn
    leaves := s.leaves
    flash := s.flash
    now := s.now
    turn := s.turn
    free := s.free + 1
    nextId := s.nextId }

/-- POWER_LOSS (R423). -/
def execPowerLoss (s : State) : Out := .next (s.packageReset false)

/-- TCHIEF_RESET (R430). -/
def execTchiefReset (s : State) : Out := .next (s.packageReset s.power)

/-! ## Errors (R429) -/

/-- UNIT_ERROR (R429): a core (kind 0: number, 128 more for an NPU core), a memory channel (1), a die-link lane group (2) or a fabric
port (3) retries; uncorrectable memory data (4) poisons its frame (R252). DESIGN CHOICE (log 20). -/
def execUnitError (die kind unit : Nat) (s : State) : Out :=
  let d := s.die die
  if !s.power || d.fenced.contains (kind, unit) || decide (4 < kind) then .next s
  else if kind = 4 then .next { s with poisoned := if s.poisoned.contains unit then s.poisoned else unit :: s.poisoned }
  else .next (s.setDie die { d with retrying := d.retrying ++ [(kind, unit)] })

/-- Does the translation of a crew's image keep it from being written? DEDUCED (log 22). -/
def State.imageOut (s : State) (c : Crew) : Bool :=
  match s.writeImage (c.halted (s.tableInUse c)) false with
  | .held _ _ => true
  | .bad _ _ => true
  | _ => false

/-- The crews of a fenced core are pre-empted, and bound elsewhere; where the image of one cannot be written, its context is killed (R429).
DEDUCED (log 22). -/
def State.fenceCore (s : State) (core : Nat) : State :=
  let mine := s.crews.filter (fun c => c.agent == core && (c.life == .running || c.life == .halting))
  let lost := ((mine.filter s.imageOut).map (fun c => c.bindRec.asid)).dedup
  (List.range (coreSlots (agentNpu core))).foldl (fun t slot =>
    match t.pushOut core slot with
    | .next t1 => t1
    | _ => t) (lost.foldl State.killContext s)

/-- The saturating sum of a counter. -/
def satUp {w : Nat} (x : BitVec w) : BitVec w := if x = BitVec.allOnes w then x else x + 1

/-- ERROR_RETRY_RESULT (R429): the oldest unit that retries succeeds, or is fenced off; the last lane group of the die link resets the
package. DESIGN CHOICE (log 20). -/
def execErrorRetryResult (die : Nat) (ok : Bool) (s : State) : Out :=
  let d := s.die die
  match d.retrying with
  | [] => .next s
  | (kind, unit) :: rest =>
    let s1 := s.fwLog die (.unitError kind unit (!ok))
    let d1 := { s1.die die with retrying := rest }
    if ok then .next (s1.setDie die { d1 with erTrans := satUp d1.erTrans })
    else
      let fenced := if d1.fenced.contains (kind, unit) then d1.fenced else d1.fenced ++ [(kind, unit)]
      let s2 := s1.setDie die { d1 with erLast := satUp d1.erLast, fenced := fenced }
      let lost := (((fenced ++ (s2.die (1 - die)).fenced).filter (fun f => f.1 == 2)).dedup).length
      if kind = 2 ∧ Config.laneGroups ≤ lost then .next (s.packageReset s.power)
      else if kind = 0 then .next (s2.fenceCore (512 * die + unit))
      else .next s2

/-! ## The Tchief port and power (R430, R431) -/

/-- TCHIEF_SENSOR_READ: sensors 0 to 3 are the error counters of the dies; any other reading is a free value. DESIGN CHOICE (log 17). -/
def execTchiefSensorRead (sensor : Nat) (s : State) : Out :=
  let reading := match sensor with
    | 0 => (s.die 0).erTrans.toNat
    | 1 => (s.die 0).erLast.toNat
    | 2 => (s.die 1).erTrans.toNat
    | 3 => (s.die 1).erLast.toNat
    | _ => Config.freeReading s.free
  .next (({ s with sensor := some (sensor, reading) } : State).useFree 1)

/-- TCHIEF_POWER_REQUEST. -/
def execTchiefPowerRequest (p : Nat) (s : State) : Out := .next { s with pwTchief := p % 2 == 1 }

/-- TCHIEF_FW_UPDATE: the image in flash. -/
def execTchiefFwUpdate (image : Nat) (s : State) : Out := .next { s with flash := image }

/-- POWER_REQUEST_WRITE: the host's request in `pw.ctl`. -/
def execPowerRequestWrite (p : Nat) (s : State) : Out := .next { s with pwHost := p % 2 == 1 }

/-- `pw.ctl.act` (R431). -/
def State.pwAct (s : State) : Bool := s.pwHost || s.pwTchief

/-- PROFILE_CHANGE: the clocks follow the profile applied. -/
def execProfileChange (s : State) : Out := .next { s with profile := s.pwAct }

end Sys2Proof.Machine
end

