-- ==== Sys2Proof/Machine/Fetch.lean ====
section
/-!
DEFINITION. Fetching a stream's next word (R62, R63, R92, R328, R334): the bytes, the instruction they are, or the wait or trap.
-/

namespace Sys2Proof.Machine

/-- Where a stream's next word stands: base + PC × width (R62). -/
def Crew.fetchAt (c : Crew) (st : Strm) : Nat :=
  ((c.kern.base.getD (strmNo st) 0).toNat + (c.strm st).pc.toNat * wordBytes st) % 2 ^ 64

/-- Is the fetch off the grid: a misaligned base, or a PC at or beyond the section's length (R63)? -/
def Crew.offGrid (c : Crew) (st : Strm) : Bool :=
  (c.kern.base.getD (strmNo st) 0).toNat % 64 != 0 || decide (c.kern.len.getD (strmNo st) 0 ≤ (c.strm st).pc.toNat)

/-- sr.tval of a class-0 trap from the word itself (R92). -/
def tvalWord (st : Strm) (w : Nat) : Word :=
  match st with
  | .s => BitVec.ofNat 64 w
  | .m => BitVec.ofNat 64 (w / 2 ^ 128)
  | _ => BitVec.ofNat 64 (w / 2 ^ 32)

/-- UNASSIGNED_OPCODE (R92): a word that breaks an encoding rule traps with its lowest detail. -/
def execUnassignedOpcode (st : Strm) (w : Nat) (s : State) : Out :=
  onCrew s (fun c =>
    if !c.canIssue st then c
    else if c.pendDue st then c.enterPend st
    else match classZero c.env st (w % 2 ^ (8 * wordBytes st)) with
      | some d => c.raise st (causeCode 0 d) (tvalWord st (w % 2 ^ (8 * wordBytes st))) (c.strm st).pc
      | none => c)

/-- OFF_GRID_FETCH (R63): class-0 detail 7; no word is read. -/
def execOffGridFetch (st : Strm) (s : State) : Out :=
  onCrew s (fun c =>
    if !c.canIssue st then c
    else if c.pendDue st then c.enterPend st
    else if c.offGrid st then c.raise st (causeCode 0 7) (BitVec.ofNat 64 (c.fetchAt st)) (c.strm st).pc
    else c)

/-- One piece of a word's bytes: translated as a fetch of the crew's core, read at home. DEDUCED (log 36). -/
def State.fetchPiece (s : State) (a n : Nat) : Fetch (List Byte) :=
  match s.translate s.crew.agent s.crew.bindRec.asid a 0 with
  | .ok pa att =>
    match s.homeBytes s.crew.place.die pa n att with
    | some b => .ok b
    | none => .bad (causeCode 3 6) a
  | .miss => .held a 0
  | .denied r => .held a r
  | .now r => .bad (causeCode 3 r) a

/-- The bytes of a word, which may lie in two pages. DEDUCED (log 36). -/
def State.fetchWord (s : State) (st : Strm) : Fetch (List Byte) :=
  (Fetch.all (fun p => s.fetchPiece p.1 p.2) (pagePieces 3 (s.crew.fetchAt st) (wordBytes st))).andThen (fun l => .ok l.flatten)

/-- What a stream's turn comes to: an instruction, or the outcome of a fetch that gave none. -/
inductive Fetched where
  | instr (i : Instr)
  | out (o : Out)

/-- The next word of a stream of the focused crew; one that breaks an encoding rule, or lies off the grid, traps. A page that is out blocks the stream (R334). -/
def State.fetched (s : State) (st : Strm) : Fetched :=
  let c := s.crew
  if !c.canIssue st then .out (.next s)
  else if c.pendDue st then .out (.next { s with crew := c.enterPend st })
  else if c.offGrid st then .out (execOffGridFetch st s)
  else match s.fetchWord st with
    | .ok b =>
      (match decode c.env st (leNat b) with
       | some i => .instr i
       | none => .out (execUnassignedOpcode st (leNat b) s))
    | .held va _ => .out (.next (s.blockS st (.translation va 0)))
    | .bad code va => .out (.next { s with crew := c.raise st code (BitVec.ofNat 64 va) (c.strm st).pc })
    | .busy => .out (.next s)
    | .snoop pa len => .out (.next (s.engineRead pa len))

end Sys2Proof.Machine
end

