-- ==== Sys2Proof/Machine/Dispatch.lean ====
section
/-!
DEFINITION. One arm for each instruction and event of the opcode table.
-/

namespace Sys2Proof.Machine

/-- The effect of an instruction of the focused crew, or of an event of the device. -/
def exec (i : Instr) (s : State) : Host.Outcome State Fault Refusal :=
  match i with
  | .add d a b => Sys2Proof.Machine.execAdd d a b s
  | .sub d a b => Sys2Proof.Machine.execSub d a b s
  | .mul d a b => Sys2Proof.Machine.execMul d a b s
  | .mulhS d a b => Sys2Proof.Machine.execMulhS d a b s
  | .mulhN d a b => Sys2Proof.Machine.execMulhN d a b s
  | .divS d a b => Sys2Proof.Machine.execDivS d a b s
  | .divN d a b => Sys2Proof.Machine.execDivN d a b s
  | .remS d a b => Sys2Proof.Machine.execRemS d a b s
  | .remN d a b => Sys2Proof.Machine.execRemN d a b s
  | .and d a b => Sys2Proof.Machine.execAnd d a b s
  | .or d a b => Sys2Proof.Machine.execOr d a b s
  | .xor d a b => Sys2Proof.Machine.execXor d a b s
  | .andn d a b => Sys2Proof.Machine.execAndn d a b s
  | .sll d a b => Sys2Proof.Machine.execSll d a b s
  | .srl d a b => Sys2Proof.Machine.execSrl d a b s
  | .sra d a b => Sys2Proof.Machine.execSra d a b s
  | .rol d a b => Sys2Proof.Machine.execRol d a b s
  | .ror d a b => Sys2Proof.Machine.execRor d a b s
  | .minS d a b => Sys2Proof.Machine.execMinS d a b s
  | .minN d a b => Sys2Proof.Machine.execMinN d a b s
  | .maxS d a b => Sys2Proof.Machine.execMaxS d a b s
  | .maxN d a b => Sys2Proof.Machine.execMaxN d a b s
  | .clz d a => Sys2Proof.Machine.execClz d a s
  | .ctz d a => Sys2Proof.Machine.execCtz d a s
  | .popc d a => Sys2Proof.Machine.execPopc d a s
  | .bilv2 d a b => Sys2Proof.Machine.execBilv2 d a b s
  | .bilv3 d a b => Sys2Proof.Machine.execBilv3 d a b s
  | .adds d a b k => Sys2Proof.Machine.execAdds d a b k s
  | .sel d a b c => Sys2Proof.Machine.execSel d a b c s
  | .cmp c a b f => Sys2Proof.Machine.execCmp c a b f s
  | .addi d a imm => Sys2Proof.Machine.execAddi d a imm s
  | .andi d a imm => Sys2Proof.Machine.execAndi d a imm s
  | .ori d a imm => Sys2Proof.Machine.execOri d a imm s
  | .xori d a imm => Sys2Proof.Machine.execXori d a imm s
  | .slli d a n => Sys2Proof.Machine.execSlli d a n s
  | .srli d a n => Sys2Proof.Machine.execSrli d a n s
  | .srai d a n => Sys2Proof.Machine.execSrai d a n s
  | .rori d a n => Sys2Proof.Machine.execRori d a n s
  | .cmpi cond c a imm => Sys2Proof.Machine.execCmpi cond c a imm s
  | .lil d imm => Sys2Proof.Machine.execLil d imm s
  | .lih d imm => Sys2Proof.Machine.execLih d imm s
  | .bfxS d a pos w => Sys2Proof.Machine.execBfxS d a pos w s
  | .bfxN d a pos w => Sys2Proof.Machine.execBfxN d a pos w s
  | .bfi d a pos w => Sys2Proof.Machine.execBfi d a pos w s
  | .jalr d a imm => Sys2Proof.Machine.execJalr d a imm s
  | .fcvt d a src tgt rnd sat => Sys2Proof.Machine.execFcvt d a src tgt rnd sat s
  | .fadd d a b rnd fmt => Sys2Proof.Machine.execFadd d a b rnd fmt s
  | .fsub d a b rnd fmt => Sys2Proof.Machine.execFsub d a b rnd fmt s
  | .fmul d a b rnd fmt => Sys2Proof.Machine.execFmul d a b rnd fmt s
  | .ffma d a b rnd fmt => Sys2Proof.Machine.execFfma d a b rnd fmt s
  | .fmin d a b rnd fmt => Sys2Proof.Machine.execFmin d a b rnd fmt s
  | .fmax d a b rnd fmt => Sys2Proof.Machine.execFmax d a b rnd fmt s
  | .fabs d a rnd fmt => Sys2Proof.Machine.execFabs d a rnd fmt s
  | .fneg d a rnd fmt => Sys2Proof.Machine.execFneg d a rnd fmt s
  | .ld d a oc sc size sx off => Sys2Proof.Machine.execLd d a oc sc size sx off s
  | .st d a oc sc size off => Sys2Proof.Machine.execSt d a oc sc size off s
  | .amoAdd d a oc sc size => Sys2Proof.Machine.execAmoAdd d a oc sc size s
  | .amoAnd d a oc sc size => Sys2Proof.Machine.execAmoAnd d a oc sc size s
  | .amoOr d a oc sc size => Sys2Proof.Machine.execAmoOr d a oc sc size s
  | .amoXor d a oc sc size => Sys2Proof.Machine.execAmoXor d a oc sc size s
  | .amoMinS d a oc sc size => Sys2Proof.Machine.execAmoMinS d a oc sc size s
  | .amoMaxS d a oc sc size => Sys2Proof.Machine.execAmoMaxS d a oc sc size s
  | .amoMinN d a oc sc size => Sys2Proof.Machine.execAmoMinN d a oc sc size s
  | .amoMaxN d a oc sc size => Sys2Proof.Machine.execAmoMaxN d a oc sc size s
  | .amoSwap d a oc sc size => Sys2Proof.Machine.execAmoSwap d a oc sc size s
  | .amoCas d a oc sc size => Sys2Proof.Machine.execAmoCas d a oc sc size s
  | .brf c take sense off => Sys2Proof.Machine.execBrf c take sense off s
  | .jal d off => Sys2Proof.Machine.execJal d off s
  | .lpset lv ci cnt len => Sys2Proof.Machine.execLpset lv ci cnt len s
  | .lpbrk lv => Sys2Proof.Machine.execLpbrk lv s
  | .fence sc cmask => Sys2Proof.Machine.execFence sc cmask s
  | .bar sc cmask => Sys2Proof.Machine.execBar sc cmask s
  | .efenceCopy sc cmask => Sys2Proof.Machine.execEfenceCopy sc cmask s
  | .efenceColl sc cmask => Sys2Proof.Machine.execEfenceColl sc cmask s
  | .efenceSolve sc cmask => Sys2Proof.Machine.execEfenceSolve sc cmask s
  | .efenceInfuse sc cmask => Sys2Proof.Machine.execEfenceInfuse sc cmask s
  | .srd d n => Sys2Proof.Machine.execSrd d n s
  | .swr a n => Sys2Proof.Machine.execSwr a n s
  | .trap code => Sys2Proof.Machine.execTrap code s
  | .eret => Sys2Proof.Machine.execEret s
  | .yield => Sys2Proof.Machine.execYield s
  | .halt => Sys2Proof.Machine.execHalt s
  | .drain path => Sys2Proof.Machine.execDrain path s
  | .tokw kmask lim => Sys2Proof.Machine.execTokw kmask lim s
  | .regacq n => Sys2Proof.Machine.execRegacq n s
  | .regrel => Sys2Proof.Machine.execRegrel s
  | .forkImm smask pc => Sys2Proof.Machine.execForkImm smask pc s
  | .forkReg smask a => Sys2Proof.Machine.execForkReg smask a s
  | .rdv smask => Sys2Proof.Machine.execRdv smask s
  | .tnext c => Sys2Proof.Machine.execTnext c s
  | .tqput d a q => Sys2Proof.Machine.execTqput d a q s
  | .tqwait a => Sys2Proof.Machine.execTqwait a s
  | .tqtest d a => Sys2Proof.Machine.execTqtest d a s
  | .gtake d a => Sys2Proof.Machine.execGtake d a s
  | .vadd f => Sys2Proof.Machine.execVadd f s
  | .vsub f => Sys2Proof.Machine.execVsub f s
  | .vmul f => Sys2Proof.Machine.execVmul f s
  | .vfma f => Sys2Proof.Machine.execVfma f s
  | .vmin f => Sys2Proof.Machine.execVmin f s
  | .vmax f => Sys2Proof.Machine.execVmax f s
  | .vabs f => Sys2Proof.Machine.execVabs f s
  | .vneg f => Sys2Proof.Machine.execVneg f s
  | .vmulh f => Sys2Proof.Machine.execVmulh f s
  | .vmad f => Sys2Proof.Machine.execVmad f s
  | .vshl f => Sys2Proof.Machine.execVshl f s
  | .vshr f => Sys2Proof.Machine.execVshr f s
  | .vrot f => Sys2Proof.Machine.execVrot f s
  | .vand f => Sys2Proof.Machine.execVand f s
  | .vor f => Sys2Proof.Machine.execVor f s
  | .vxor f => Sys2Proof.Machine.execVxor f s
  | .vandn f => Sys2Proof.Machine.execVandn f s
  | .vclz f => Sys2Proof.Machine.execVclz f s
  | .vpopc f => Sys2Proof.Machine.execVpopc f s
  | .vbilvTwo f => Sys2Proof.Machine.execVbilvTwo f s
  | .vbilvThree f => Sys2Proof.Machine.execVbilvThree f s
  | .vcmp f => Sys2Proof.Machine.execVcmp f s
  | .vmlogAnd f => Sys2Proof.Machine.execVmlogAnd f s
  | .vmlogOr f => Sys2Proof.Machine.execVmlogOr f s
  | .vmlogXor f => Sys2Proof.Machine.execVmlogXor f s
  | .vmlogAndn f => Sys2Proof.Machine.execVmlogAndn f s
  | .vmlogNot f => Sys2Proof.Machine.execVmlogNot f s
  | .vmlogMov f => Sys2Proof.Machine.execVmlogMov f s
  | .vmpop f => Sys2Proof.Machine.execVmpop f s
  | .vsig f => Sys2Proof.Machine.execVsig f s
  | .vsel f => Sys2Proof.Machine.execVsel f s
  | .vtos f => Sys2Proof.Machine.execVtos f s
  | .vmov f => Sys2Proof.Machine.execVmov f s
  | .vcvt f => Sys2Proof.Machine.execVcvt f s
  | .vrcp f => Sys2Proof.Machine.execVrcp f s
  | .vrsqrt f => Sys2Proof.Machine.execVrsqrt f s
  | .vsqrt f => Sys2Proof.Machine.execVsqrt f s
  | .vexp2 f => Sys2Proof.Machine.execVexp2 f s
  | .vlog2 f => Sys2Proof.Machine.execVlog2 f s
  | .vsinpi f => Sys2Proof.Machine.execVsinpi f s
  | .vcospi f => Sys2Proof.Machine.execVcospi f s
  | .vshuf f => Sys2Proof.Machine.execVshuf f s
  | .vrotl f => Sys2Proof.Machine.execVrotl f s
  | .vbcast f => Sys2Proof.Machine.execVbcast f s
  | .vredAdd f => Sys2Proof.Machine.execVredAdd f s
  | .vredMin f => Sys2Proof.Machine.execVredMin f s
  | .vredMax f => Sys2Proof.Machine.execVredMax f s
  | .vld f => Sys2Proof.Machine.execVld f s
  | .vldDq f => Sys2Proof.Machine.execVldDq f s
  | .vldx f => Sys2Proof.Machine.execVldx f s
  | .vgath f => Sys2Proof.Machine.execVgath f s
  | .vst f => Sys2Proof.Machine.execVst f s
  | .vstDq f => Sys2Proof.Machine.execVstDq f s
  | .vstx f => Sys2Proof.Machine.execVstx f s
  | .vscat f => Sys2Proof.Machine.execVscat f s
  | .vatomAdd f => Sys2Proof.Machine.execVatomAdd f s
  | .vatomAnd f => Sys2Proof.Machine.execVatomAnd f s
  | .vatomOr f => Sys2Proof.Machine.execVatomOr f s
  | .vatomXor f => Sys2Proof.Machine.execVatomXor f s
  | .vatomMinS f => Sys2Proof.Machine.execVatomMinS f s
  | .vatomMaxS f => Sys2Proof.Machine.execVatomMaxS f s
  | .vatomMinN f => Sys2Proof.Machine.execVatomMinN f s
  | .vatomMaxN f => Sys2Proof.Machine.execVatomMaxN f s
  | .vatomSwap f => Sys2Proof.Machine.execVatomSwap f s
  | .vatomCas f => Sys2Proof.Machine.execVatomCas f s
  | .vlds f => Sys2Proof.Machine.execVlds f s
  | .vcp16 f => Sys2Proof.Machine.execVcp16 f s
  | .tex f => Sys2Proof.Machine.execTex f s
  | .tex3 f => Sys2Proof.Machine.execTex3 f s
  | .rayq f => Sys2Proof.Machine.execRayq f s
  | .pexp f => Sys2Proof.Machine.execPexp f s
  | .vBrf gap wait c take sense off => Sys2Proof.Machine.execVBrf gap wait c take sense off s
  | .vRdv gap wait => Sys2Proof.Machine.execVRdv gap wait s
  | .vHalt gap wait => Sys2Proof.Machine.execVHalt gap wait s
  | .mstep f => Sys2Proof.Machine.execMstep f s
  | .mnset f => Sys2Proof.Machine.execMnset f s
  | .mngo f => Sys2Proof.Machine.execMngo f s
  | .mnstop gap wait => Sys2Proof.Machine.execMnstop gap wait s
  | .mzero gap wait acc => Sys2Proof.Machine.execMzero gap wait acc s
  | .mrel gap wait acc => Sys2Proof.Machine.execMrel gap wait acc s
  | .mread f => Sys2Proof.Machine.execMread f s
  | .mwrite f => Sys2Proof.Machine.execMwrite f s
  | .msca f => Sys2Proof.Machine.execMsca f s
  | .mcvt f => Sys2Proof.Machine.execMcvt f s
  | .mproNone gap wait sig ptab => Sys2Proof.Machine.execMproNone gap wait sig ptab s
  | .mproInt4 gap wait sig ptab => Sys2Proof.Machine.execMproInt4 gap wait sig ptab s
  | .mproCb3 gap wait sig ptab => Sys2Proof.Machine.execMproCb3 gap wait sig ptab s
  | .mproCb4 gap wait sig ptab => Sys2Proof.Machine.execMproCb4 gap wait sig ptab s
  | .mproBmap gap wait sig ptab => Sys2Proof.Machine.execMproBmap gap wait sig ptab s
  | .mBrf gap wait c take sense off => Sys2Proof.Machine.execMBrf gap wait c take sense off s
  | .mRdv gap wait => Sys2Proof.Machine.execMRdv gap wait s
  | .mHalt gap wait => Sys2Proof.Machine.execMHalt gap wait s
  | .cpyKh h o => Sys2Proof.Machine.execCpyKh h o s
  | .cpyKr h o => Sys2Proof.Machine.execCpyKr h o s
  | .cpysg h o => Sys2Proof.Machine.execCpysg h o s
  | .cpymcKh h o => Sys2Proof.Machine.execCpymcKh h o s
  | .cpymcKr h o => Sys2Proof.Machine.execCpymcKr h o s
  | .scatNative h o => Sys2Proof.Machine.execScatNative h o s
  | .scatStrain h red o => Sys2Proof.Machine.execScatStrain h red o s
  | .gath h o => Sys2Proof.Machine.execGath h o s
  | .collAllred h red o => Sys2Proof.Machine.execCollAllred h red o s
  | .collRedsc h red o => Sys2Proof.Machine.execCollRedsc h red o s
  | .collGath h red o => Sys2Proof.Machine.execCollGath h red o s
  | .xfmTr h o => Sys2Proof.Machine.execXfmTr h o s
  | .xfmCvt h o => Sys2Proof.Machine.execXfmCvt h o s
  | .xfmBdb h o => Sys2Proof.Machine.execXfmBdb h o s
  | .xfmPsum h o => Sys2Proof.Machine.execXfmPsum h o s
  | .jsub h o => Sys2Proof.Machine.execJsub h o s
  | .dqpushKh h q o => Sys2Proof.Machine.execDqpushKh h q o s
  | .dqpushKr h q o => Sys2Proof.Machine.execDqpushKr h q o s
  | .dqpopKh h q o => Sys2Proof.Machine.execDqpopKh h q o s
  | .dqpopKr h q o => Sys2Proof.Machine.execDqpopKr h q o s
  | .sqgo h o => Sys2Proof.Machine.execSqgo h o s
  | .kBrf gap wait c take sense off => Sys2Proof.Machine.execKBrf gap wait c take sense off s
  | .kRdv gap wait => Sys2Proof.Machine.execKRdv gap wait s
  | .kHalt gap wait => Sys2Proof.Machine.execKHalt gap wait s
  | .kTokw gap wait kmask lim => Sys2Proof.Machine.execKTokw gap wait kmask lim s
  | .kDrain gap wait path => Sys2Proof.Machine.execKDrain gap wait path s
  | .issueGapElapse u st => Sys2Proof.Machine.execIssueGapElapse u st s
  | .issueStarvationBoost u st => Sys2Proof.Machine.execIssueStarvationBoost u st s
  | .yieldRelease u => Sys2Proof.Machine.execYieldRelease u s
  | .scalarResultComplete u id => Sys2Proof.Machine.execScalarResultComplete u id s
  | .vectorResultLand u id => Sys2Proof.Machine.execVectorResultLand u id s
  | .vectorWordComplete u id => Sys2Proof.Machine.execVectorWordComplete u id s
  | .graphicsMessageComplete u id => Sys2Proof.Machine.execGraphicsMessageComplete u id s
  | .blendExport fe id => Sys2Proof.Machine.execBlendExport fe id s
  | .crewRetire u => Sys2Proof.Machine.execCrewRetire u s
  | .couplingDeadlockDetect u => Sys2Proof.Machine.execCouplingDeadlockDetect u s
  | .trapEntry u => Sys2Proof.Machine.execTrapEntry u s
  | .tileStepComplete u => Sys2Proof.Machine.execTileStepComplete u s
  | .nestStepGenerate u => Sys2Proof.Machine.execNestStepGenerate u s
  | .tileReadPerform u => Sys2Proof.Machine.execTileReadPerform u s
  | .mrelPerform u => Sys2Proof.Machine.execMrelPerform u s
  | .operandSliceArrive u sideB => Sys2Proof.Machine.execOperandSliceArrive u sideB s
  | .infuserTableArrive u => Sys2Proof.Machine.execInfuserTableArrive u s
  | .copyJobComplete u id => Sys2Proof.Machine.execCopyJobComplete u id s
  | .copyJobFail u id => Sys2Proof.Machine.execCopyJobFail u id s
  | .collectivePerform u id => Sys2Proof.Machine.execCollectivePerform u id s
  | .dqEntryArrive u q => Sys2Proof.Machine.execDqEntryArrive u q s
  | .sideLogReplay core id => Sys2Proof.Machine.execSideLogReplay core id s
  | .translationWalk core asid va kind => Sys2Proof.Machine.execTranslationWalk core asid va kind s
  | .inval die => Sys2Proof.Machine.execInval die s
  | .resume die => Sys2Proof.Machine.execResume die s
  | .resumeFatal die => Sys2Proof.Machine.execResumeFatal die s
  | .fill die => Sys2Proof.Machine.execFill die s
  | .retire die => Sys2Proof.Machine.execRetire die s
  | .harvest die => Sys2Proof.Machine.execHarvest die s
  | .migrate die => Sys2Proof.Machine.execMigrate die s
  | .homeWrite core id => Sys2Proof.Machine.execHomeWrite core id s
  | .writePerformed id => Sys2Proof.Machine.execWritePerformed id s
  | .homeEngineRead pa => Sys2Proof.Machine.execHomeEngineRead pa s
  | .subscribeFill core pa fmt => Sys2Proof.Machine.execSubscribeFill core pa fmt s
  | .upgrade core pa => Sys2Proof.Machine.execUpgrade core pa s
  | .subscriptionRelease core pa => Sys2Proof.Machine.execSubscriptionRelease core pa s
  | .invalidationReceive agent => Sys2Proof.Machine.execInvalidationReceive agent s
  | .updateReceive agent => Sys2Proof.Machine.execUpdateReceive agent s
  | .fabricInvalidate die region off len => Sys2Proof.Machine.execFabricInvalidate die region off len s
  | .fabricUpdate die region off bytes => Sys2Proof.Machine.execFabricUpdate die region off bytes s
  | .sharerAckTimeout die pkg region => Sys2Proof.Machine.execSharerAckTimeout die pkg region s
  | .linkLoss die pkg => Sys2Proof.Machine.execLinkLoss die pkg s
  | .leaseExpire core pa => Sys2Proof.Machine.execLeaseExpire core pa s
  | .inboundFabricRequest die port arrival => Sys2Proof.Machine.execInboundFabricRequest die port arrival s
  | .targetTimeout die port => Sys2Proof.Machine.execTargetTimeout die port s
  | .initiatorTimeout die id => Sys2Proof.Machine.execInitiatorTimeout die id s
  | .poisonedCompletion die id => Sys2Proof.Machine.execPoisonedCompletion die id s
  | .launch die q => Sys2Proof.Machine.execLaunch die q s
  | .operatorChain die q => Sys2Proof.Machine.execOperatorChain die q s
  | .operatorSwap id => Sys2Proof.Machine.execOperatorSwap id s
  | .drawStream die q => Sys2Proof.Machine.execDrawStream die q s
  | .waitCommand die q => Sys2Proof.Machine.execWaitCommand die q s
  | .waitCommandPoll die q => Sys2Proof.Machine.execWaitCommandPoll die q s
  | .launchEnd id => Sys2Proof.Machine.execLaunchEnd id s
  | .taskLaunch die q => Sys2Proof.Machine.execTaskLaunch die q s
  | .jobCardStart die serial => Sys2Proof.Machine.execJobCardStart die serial s
  | .bind core slot r => Sys2Proof.Machine.execBind core slot r s
  | .preempt core slot => Sys2Proof.Machine.execPreempt core slot s
  | .preemptHalt u => Sys2Proof.Machine.execPreemptHalt u s
  | .pendingCompletionArrive u id => Sys2Proof.Machine.execPendingCompletionArrive u id s
  | .contextKill asid => Sys2Proof.Machine.execContextKill asid s
  | .killComplete asid => Sys2Proof.Machine.execKillComplete asid s
  | .solverJobStart seq => Sys2Proof.Machine.execSolverJobStart seq s
  | .solverStageComplete seq => Sys2Proof.Machine.execSolverStageComplete seq s
  | .primitiveBin fe => Sys2Proof.Machine.execPrimitiveBin fe s
  | .passFinal die q => Sys2Proof.Machine.execPassFinal die q s
  | .leadAllowanceRelease die => Sys2Proof.Machine.execLeadAllowanceRelease die s
  | .hotnessSnapshot die halve => Sys2Proof.Machine.execHotnessSnapshot die halve s
  | .mcSplitWrite die val => Sys2Proof.Machine.execMcSplitWrite die val s
  | .splitChangeComplete die => Sys2Proof.Machine.execSplitChangeComplete die s
  | .eqHeadWrite die val => Sys2Proof.Machine.execEqHeadWrite die val s
  | .eventRecordPost die => Sys2Proof.Machine.execEventRecordPost die s
  | .registerWrite die addr val byFirmware => Sys2Proof.Machine.execRegisterWrite die addr val byFirmware s
  | .powerOnBoot image => Sys2Proof.Machine.execPowerOnBoot image s
  | .getVersion req => Sys2Proof.Machine.execGetVersion req s
  | .getCapabilities req => Sys2Proof.Machine.execGetCapabilities req s
  | .negotiateAlgorithms req => Sys2Proof.Machine.execNegotiateAlgorithms req s
  | .getDigests req => Sys2Proof.Machine.execGetDigests req s
  | .getCertificate req => Sys2Proof.Machine.execGetCertificate req s
  | .challenge req => Sys2Proof.Machine.execChallenge req s
  | .getMeasurements req => Sys2Proof.Machine.execGetMeasurements req s
  | .leaderRenew => Sys2Proof.Machine.execLeaderRenew s
  | .leaderStepDown => Sys2Proof.Machine.execLeaderStepDown s
  | .leadershipTakeover => Sys2Proof.Machine.execLeadershipTakeover s
  | .trainingComplete link => Sys2Proof.Machine.execTrainingComplete link s
  | .unitError die kind unit => Sys2Proof.Machine.execUnitError die kind unit s
  | .errorRetryResult die ok => Sys2Proof.Machine.execErrorRetryResult die ok s
  | .tchiefSensorRead sensor => Sys2Proof.Machine.execTchiefSensorRead sensor s
  | .tchiefPowerRequest p => Sys2Proof.Machine.execTchiefPowerRequest p s
  | .tchiefFwUpdate image => Sys2Proof.Machine.execTchiefFwUpdate image s
  | .tchiefReset => Sys2Proof.Machine.execTchiefReset s
  | .powerRequestWrite p => Sys2Proof.Machine.execPowerRequestWrite p s
  | .profileChange => Sys2Proof.Machine.execProfileChange s
  | .unassignedOpcode st w => Sys2Proof.Machine.execUnassignedOpcode st w s
  | .offGridFetch st => Sys2Proof.Machine.execOffGridFetch st s
  | .exactFill agent pa => Sys2Proof.Machine.execExactFill agent pa s
  | .writeOwnershipRequest agent pa => Sys2Proof.Machine.execWriteOwnershipRequest agent pa s
  | .scanoutRead head addr len => Sys2Proof.Machine.execScanoutRead head addr len s
  | .pcieInboundRequest port addr len wr => Sys2Proof.Machine.execPcieInboundRequest port addr len wr s
  | .powerLoss => Sys2Proof.Machine.execPowerLoss s
  | .nvmeReadComplete die ok bytes => Sys2Proof.Machine.execNvmeReadComplete die ok bytes s

end Sys2Proof.Machine
end

