-- ==== Sys2Proof/Machine/Schedule.lean ====
section
/-!
DEFINITION. What moves next (log 2): the inputs that wait in `agenda`, then a stream with a starvation boost (R35), then one of the
actions that the state offers, in rotation. An offered action whose moment has not come changes nothing.
-/

namespace Sys2Proof.Machine

/-! ## What the state offers -/

/-- The translations that a crew's accesses wait for: address and access kind. -/
def Crew.wants (c : Crew) : List (Nat × Nat) :=
  let waits := ([.s, .v, .m, .k] : List Strm).filterMap (fun st =>
    match (c.strm st).wait with
    | .translation va k => some (va, k)
    | _ => none)
  let out := c.sres.filterMap (fun r =>
    match r.kind with
    | .load e _ _ _ => if e.tr then none else some (e.va, 1)
    | .atomic e _ _ _ _ _ _ _ _ => if e.tr then none else some (e.va, 3)
    | .value _ => none)
  waits ++ out

/-- The request that an element's read at a format waits for; format 0 is a plain read (R288). -/
def State.lineAct (s : State) (agent fmt : Nat) (e : Elem) : List Act :=
  if e.space != .phys || !e.tr then []
  else match s.line agent e.addr with
    | none => [if fmt = 0 ∨ e.att.mtype ≠ 0 then .exactFill agent e.addr else .subscribeFill agent e.addr fmt]
    | some l =>
      match l.state with
      | .sub g => if fmt = g ∧ l.etype = e.att.etype ∧ l.len = e.att.grain then [] else [.upgrade agent e.addr]
      | .lease _ => [.exactFill agent e.addr]
      | _ => []

/-- The lines that a crew's loads wait for. -/
def State.fills (s : State) (c : Crew) : List Act :=
  let scalar := c.sres.flatMap (fun r =>
    match r.kind with
    | .load e _ _ _ => s.lineAct c.agent 0 e
    | _ => [])
  let vector := c.vwords.flatMap (fun v =>
    match v.kind with
    | .load => v.elems.flatMap (s.lineAct c.agent 0)
    | .subscribe => v.elems.flatMap (fun e => s.lineAct c.agent (slotFormat e.att.etype v.ty) e)
    | _ => [])
  (scalar ++ vector).dedup

/-- The events of a crew that runs or halts. -/
def Crew.events (c : Crew) (now : Nat) : List Act :=
  let u := c.uid
  let gaps := ([.v, .m, .k] : List Strm).filterMap (fun st => if (c.strm st).gap = 0 then none else some (Act.issueGapElapse u st))
  let boosts := ([.s, .v, .m, .k] : List Strm).filterMap (fun st =>
    if c.canIssue st && (c.strm st).starves now then some (Act.issueStarvationBoost u st) else none)
  gaps ++ boosts ++ (if c.yielded then [.yieldRelease u] else []) ++ (if c.trap.isSome then [.trapEntry u] else []) ++
    c.sres.map (fun r => .scalarResultComplete u r.id) ++ c.vwin.map (fun v => .vectorResultLand u v.id) ++
    c.vwords.flatMap (fun v => [.vectorWordComplete u v.id, .graphicsMessageComplete u v.id]) ++
    [.tileStepComplete u, .nestStepGenerate u, .tileReadPerform u, .mrelPerform u, .operandSliceArrive u false, .operandSliceArrive u true,
      .infuserTableArrive u, .crewRetire u, .couplingDeadlockDetect u] ++
    c.jobs.flatMap (fun j => [.copyJobComplete u j.id, .copyJobFail u j.id, .collectivePerform u j.id]) ++
    (List.range 4).map (fun q => .dqEntryArrive u q) ++ (if c.life == .halting then [.preemptHalt u] else []) ++
    c.wants.map (fun w => .translationWalk c.agent c.bindRec.asid w.1 w.2)

/-- The events of a crew whose image waits for results (R259). -/
def Crew.lateEvents (c : Crew) : List Act :=
  (c.vwords.map (fun v => v.id) ++ (c.sres.filter SRes.delays).map (fun r => r.id) ++ c.proLoads.map (fun p => p.id) ++
    (c.jobs.filter Job.holdsBack).map (fun j => j.id)).map (fun id => .pendingCompletionArrive c.uid id)

/-- The issue slots of a kind on a core (R16). -/
def issueWidth (npu : Bool) (st : Strm) : Nat :=
  match st with
  | .s | .v => if npu then 2 else 4
  | _ => 1

/-- Does a ready stream of the same kind and core come before a crew's, by its priority (R35)? -/
def Crew.outranks (x c : Crew) (st : Strm) (now : Nat) : Bool :=
  x.agent == c.agent && x.canIssue st && (x.strm st).wait == .nothing && decide (c.issuePrio st now < x.issuePrio st now)

/-- May a stream take an issue slot of its kind on its core now: do fewer ready crews of a higher priority want one than there are slots
(R16, R35)? DEDUCED (log 28). -/
def State.mayIssue (s : State) (c : Crew) (st : Strm) : Bool :=
  decide ((s.crews.filter (fun x => x.outranks c st s.now)).length < issueWidth c.place.npu st)

/-- What a crew offers. -/
def State.crewOffers (s : State) (c : Crew) : List Act :=
  match c.life with
  | .running => (([.s, .v, .m, .k] : List Strm).filter (s.mayIssue c)).map (fun st => .issue c.uid st) ++ c.events s.now
  | .halting => c.events s.now
  | .waiting => if s.mayStart c then [.seat c.uid] else []
  | .preempted => c.lateEvents
  | .stopped => c.lateEvents
  | _ => []

/-- A core's place at slot 0. -/
def corePlace (npu : Bool) (die c : Nat) : Place := { npu := npu, die := die, core := c, slot := 0 }

/-- The cores of a set on a die that are not shut (R428, R429). -/
def State.coresIn (s : State) (die : Nat) (npu : Bool) (set : Nat) : List Nat :=
  (List.range (Config.cores npu)).filter (fun c => set.testBit c && !s.coreShut (corePlace npu die c).agent)

/-- The cores of a set on a die on which crews of an ASID may be bound: no crew of another ASID is bound there (R270). -/
def State.coresFor (s : State) (die : Nat) (npu : Bool) (set asid : Nat) : List Nat :=
  (s.coresIn die npu set).filter (fun c =>
    let x := s.core (corePlace npu die c).agent
    !(x.spadAsid.any (fun a => a != asid) && x.slots.any (fun y => y.2.state != 0)))

/-- The free slot that the firmware binds to: the first slot number free on any core that may take crews of the ASID, the cores in order,
so that crews are spread over the cores. DEDUCED (log 56). -/
def State.freePlace (s : State) (die : Nat) (npu : Bool) (set asid : Nat) : Option Place :=
  let cores := s.coresFor die npu set asid
  (List.range (coreSlots npu)).findSome? (fun slot =>
    cores.findSome? (fun c =>
      let p : Place := { corePlace npu die c with slot := slot }
      if (SMap.get Slot.free (s.core p.agent).slots slot).state = 0 then some p else none))

/-- A crew put into a list by its name. -/
def insertCrew (c : Crew) : List Crew → List Crew
  | [] => [c]
  | x :: r => if c.uid ≤ x.uid then c :: x :: r else x :: insertCrew c r

/-- The crews by name, whichever is focused. -/
def State.byName (s : State) : List Crew := s.crews.foldr insertCrew []

/-- A record put into a place, as a bind. -/
def bindAt (p : Place) (r : BindRec) : Act := .bind p.agent p.slot { r with blk := p.slot }

/-- The record that the firmware writes for the next pixel crew of a pass. DESIGN CHOICE (log 103). -/
def Pass.record (x : Pass) (k : Kernel) : BindRec :=
  { BindRec.empty with
    desc := k.desc
    asid := x.asid
    prio := x.prio
    handlerValid := x.flags % 2 == 1
    handler := x.handler
    image := x.image + Config.imageStride * (2 * x.created + (if x.die = x.own then 0 else 1)) }

/-- The free slots for crews of an ASID on the cores of a set on a die. -/
def State.freeSlots (s : State) (die : Nat) (npu : Bool) (set asid : Nat) : Nat :=
  ((s.coresFor die npu set asid).map (fun c =>
    ((List.range (coreSlots npu)).filter (fun slot =>
      (SMap.get Slot.free (s.core (corePlace npu die c).agent).slots slot).state == 0)).length)).sum

/-- The crews of a launch that are to be bound on a die together: all of them, where it has a barrier group (R120), else one. -/
def Launch.together (l : Launch) (die : Nat) : Nat :=
  if l.kern.bar ≤ 1 then (if (l.nextOn die).isSome then 1 else 0) else ((List.range l.total).filter (fun q => l.dieOf q == die)).length

/-- Is a launch's barrier group partly bound (R120)? -/
def Launch.partly (l : Launch) : Bool := decide (2 ≤ l.kern.bar) && !l.killed && decide (0 < l.bound) && decide (l.bound < l.total)

/-- May the crews of a launch be bound now? A barrier group is bound all or none: it begins once the slots of each die can hold all of it,
and until it is complete nothing else is bound (R120). -/
def State.mayBind (s : State) (l : Launch) : Bool :=
  !l.killed &&
    (match s.launches.find? Launch.partly with
     | some x => x.id == l.id
     | none =>
       decide (l.kern.bar ≤ 1) || (List.range 2).all (fun die =>
         decide (l.together die ≤ s.freeSlots die l.kern.npu (l.setOf die) l.asid)))

/-- Is nothing else bound while a barrier group is partly bound (R120)? -/
def State.grouping (s : State) : Bool := s.launches.any Launch.partly

/-- Where the firmware makes room for the work of priority 7 (R397): a running crew of the lowest priority on the named cores, one at a time,
while `need` slots are neither free nor being freed. DEDUCED (log 56). -/
def State.makeRoom (s : State) (die : Nat) (npu : Bool) (set asid need : Nat) : List Act :=
  let cores := s.coresIn die npu set
  let on := s.byName.filter (fun c => c.place.npu == npu && c.place.die == die && cores.contains c.place.core)
  let leaving := (on.filter (fun c => c.life == .halting)).length
  if need ≤ s.freeSlots die npu set asid + leaving then []
  else
    let lower := fun (best : Option Crew) (c : Crew) =>
      if c.life != .running || decide (7 ≤ c.bindRec.prio) || best.any (fun b => decide (b.bindRec.prio ≤ c.bindRec.prio)) then best else some c
    match on.foldl lower none with
    | some c => [.evict c.agent c.place.slot]
    | none => []

/-- The pre-emptions that the firmware has to do for the work of priority 7 (R397). -/
def State.evictions (s : State) : List Act :=
  if s.grouping then []
  else
    (s.launches.filter (fun l => l.prio == 7 && !l.killed && decide (l.bound < l.total))).flatMap (fun l =>
      (List.range 2).flatMap (fun die => s.makeRoom die l.kern.npu (l.setOf die) l.asid (l.together die))) ++
      s.passes.flatMap (fun x =>
        match x.todo with
        | [] => []
        | t :: _ => if x.prio = 7 then s.makeRoom x.die false (x.frontSet t) x.asid 1 else [])

/-- The cores that the command of a crew names on a die; every core where there is no command (R249). -/
def State.namedCores (s : State) (c : Crew) (die : Nat) : Nat :=
  match s.launches.find? (fun l => l.id == c.launch) with
  | some l => l.setOf die
  | none =>
    match c.raster.bind s.passOf with
    | some x => if x.die = die then x.sets.1 + x.sets.2 else 0
    | none => 2 ^ 128 - 1

/-- Where the firmware resumes a crew that it has pre-empted: a free slot of a core that its barrier scope allows and whose pool holds its
extended blocks (R120, R249, R352). -/
def State.resumePlace (s : State) (c : Crew) : Option Place :=
  (List.range 2).findSome? (fun die =>
    let allowed := (List.range (Config.cores c.place.npu)).filter (fun k =>
      (s.namedCores c die).testBit k && c.mayResumeAt (corePlace c.place.npu die k) &&
        decide (c.ext ≤ min (s.core (corePlace c.place.npu die k).agent).poolFree 4))
    s.freePlace die c.place.npu (allowed.map (fun k => 2 ^ k)).sum c.bindRec.asid)

/-- The record by which the firmware resumes a crew that it has pre-empted (R352). -/
def Crew.resumeRecord (c : Crew) : BindRec := { c.bindRec with resume := true, ext := c.ext, group := 0, gsize := 0 }

/-- The resumptions that the firmware has to do: those of the crews that it has pre-empted itself, once no work of priority 7 waits for
their slots (R397, R429). DEDUCED (log 56). -/
def State.resumptions (s : State) : List Act :=
  if s.grouping || s.launches.any (fun l => l.prio == 7 && !l.killed && decide (l.bound < l.total)) ||
      s.passes.any (fun x => x.prio == 7 && !x.todo.isEmpty) then []
  else s.byName.filterMap (fun c =>
    if c.evicted && c.life == .preempted && c.sealed then (s.resumePlace c).map (fun p => bindAt p c.resumeRecord) else none)

/-- The binds that the firmware has to do: the next crew of each launch on each die, the next pixel crew of each pass, and the crews that
it has pre-empted. DEDUCED (log 56). -/
def State.binds (s : State) : List Act :=
  let launches := s.launches.flatMap (fun l => (List.range 2).filterMap (fun die =>
    if !s.mayBind l then none
    else match l.nextOn die, s.freePlace die l.kern.npu (l.setOf die) l.asid with
      | some q, some p => some (bindAt p (l.record die q))
      | _, _ => none))
  let pixels := s.passes.filterMap (fun x =>
    match x.todo with
    | [] => none
    | t :: _ =>
      if s.grouping then none
      else match x.kerns.find? (fun k => k.1 == t.tri.draw), s.freePlace x.die false (x.frontSet t) x.asid with
      | some (_, k, _), some p =>
        some (bindAt p (x.record k))
      | _, _ => none)
  launches ++ pixels ++ s.resumptions ++ s.evictions

/-- The events of a die's front end and controller. -/
def State.dieEvents (s : State) (die : Nat) : List Act :=
  let d := s.die die
  let control := if d.tcRun.isSome || d.tcHead != d.tcTail then
      [Act.inval die, .resume die, .resumeFatal die, .fill die, .retire die, .harvest die, .migrate die] else []
  let queues := d.cmdQueues.flatMap (fun x => [Act.launch die x.1, .operatorChain die x.1, .drawStream die x.1, .waitCommand die x.1,
    .waitCommandPoll die x.1])
  let streams := (s.passes.filter (fun p => p.die == die)).flatMap (fun p => [Act.drawStream die p.q, .passFinal die p.q])
  let inbound := (List.range 8).flatMap (fun p =>
    if d.fabIn.any (fun x => x.1 == p) then [Act.inboundFabricRequest die p none, .targetTimeout die p] else [])
  control ++ queues ++ streams.dedup ++ d.taskQueues.map (fun x => .taskLaunch die x.1) ++ d.cards.map (fun k => .jobCardStart die k.serial) ++ inbound ++
    d.fabOut.map (fun x => .initiatorTimeout die x.id) ++
    (if d.hcGo then [.hotnessSnapshot die] else []) ++ [.eventRecordPost die, .splitChangeComplete die, .leadAllowanceRelease die] ++
    ((s.passes.filter (fun p => p.die == die)).flatMap (fun p =>
      ((List.range 16).filter p.hasFront).map (fun c => .primitiveBin (16 * die + c)) ++
        p.exports.map (fun e => .blendExport (16 * die + e.rid.fe) e.id)))

/-- The events of memory and its caches. -/
def State.memoryEvents (s : State) : List Act :=
  s.writes.flatMap (fun w => [Act.homeWrite w.core w.id, .writePerformed w.id]) ++
    s.msgs.map (fun m => if m.update then .updateReceive m.agent else .invalidationReceive m.agent) ++
    s.cores.flatMap (fun x => x.2.log.flatMap (fun e => [Act.sideLogReplay x.1 e.w.id, .translationWalk x.1 e.w.asid e.w.va e.w.kind])) ++
    s.lines.filterMap (fun l =>
      match l.state with
      | .lease _ => some (Act.leaseExpire l.agent l.pa)
      | _ => none)

/-- The events of launches, chains, sequencers, kills and the firmware. -/
def State.workEvents (s : State) : List Act :=
  s.launches.map (fun l => .launchEnd l.id) ++ s.chains.flatMap (fun c => [Act.operatorChain c.die c.q, .operatorSwap c.id]) ++
    s.solvers.flatMap (fun x => [Act.solverJobStart x.1, .solverStageComplete x.1]) ++ s.kills.map (fun k => .killComplete k.asid) ++ s.binds ++
    (if s.fwImage.isSome then [Act.leaderRenew, .leaderStepDown, .leadershipTakeover] else []) ++
    (if s.profile == s.pwAct then [] else [.profileChange])

/-- Everything that may move. DESIGN CHOICE (log 2). -/
def State.offers (s : State) : List Act :=
  s.byName.flatMap (fun c => s.crewOffers c ++ s.fills c) ++ s.memoryEvents ++ s.workEvents ++ s.dieEvents 0 ++ s.dieEvents 1

/-! ## The choice -/

/-- The stream of a boosted word that may issue. -/
def State.boosted (s : State) : Option Act :=
  s.byName.findSome? (fun c => ([.s, .v, .m, .k] : List Strm).findSome? (fun st =>
    if (c.strm st).boosted && c.canIssue st then some (.issue c.uid st) else none))

/-- The state in which a stream takes its turn: its crew focused, its boost spent, the cycle noted (R35). -/
def State.takeTurn (s : State) (u : Nat) (st : Strm) : Option State :=
  (s.focus u).map (fun s1 => { s1 with crew := s1.crew.setStrm st { s1.crew.strm st with boosted := false, tried := s.now } })

/-- The action taken next. DESIGN CHOICE (log 2). -/
def State.nextAct (s : State) : Option Act :=
  match s.agenda with
  | a :: _ => some a
  | [] =>
    match s.boosted with
    | some a => some a
    | none =>
      let l := s.offers
      l[s.turn % l.length]?

/-- The slot of a crew that a trap has stopped reads halting (R255, R351). -/
def State.haltSlots (s : State) : State :=
  let on := fun (c : Crew) => c.life == .halting && (SMap.get Slot.free (s.core c.agent).slots c.place.slot).state == 2
  (s.crews.filter on).foldl (fun t c => t.slotState c 3) s

/-- A step of the schedule goes by: the stall counters count, one firmware-clock cycle passes, and one turn of the rotation where the action was the rotation's; an
input that is taken leaves the agenda. DESIGN CHOICE (log 9). -/
def State.tick (s : State) : State :=
  { s.haltSlots.stalls with
    now := s.now + 1
    turn := if s.agenda.isEmpty && s.boosted.isNone then s.turn + 1 else s.turn
    agenda := s.agenda.drop 1 }

/-! ## Performing an event -/

/-- The meaning of an event that the device offers, the one that `exec` calls for it; the other actions are the step's. -/
def Act.run (a : Act) (s : State) : Out :=
  match a with
  | .issue _ _ => .next s
  | .input _ => .next s
  | .issueGapElapse u st => execIssueGapElapse u st s
  | .issueStarvationBoost u st => execIssueStarvationBoost u st s
  | .yieldRelease u => execYieldRelease u s
  | .scalarResultComplete u id => execScalarResultComplete u id s
  | .vectorResultLand u id => execVectorResultLand u id s
  | .vectorWordComplete u id => execVectorWordComplete u id s
  | .graphicsMessageComplete u id => execGraphicsMessageComplete u id s
  | .blendExport fe id => execBlendExport fe id s
  | .crewRetire u => execCrewRetire u s
  | .couplingDeadlockDetect u => execCouplingDeadlockDetect u s
  | .trapEntry u => execTrapEntry u s
  | .tileStepComplete u => execTileStepComplete u s
  | .nestStepGenerate u => execNestStepGenerate u s
  | .tileReadPerform u => execTileReadPerform u s
  | .mrelPerform u => execMrelPerform u s
  | .operandSliceArrive u sideB => execOperandSliceArrive u sideB s
  | .infuserTableArrive u => execInfuserTableArrive u s
  | .copyJobComplete u id => execCopyJobComplete u id s
  | .copyJobFail u id => execCopyJobFail u id s
  | .collectivePerform u id => execCollectivePerform u id s
  | .dqEntryArrive u q => execDqEntryArrive u q s
  | .sideLogReplay core id => execSideLogReplay core id s
  | .translationWalk core asid va kind => execTranslationWalk core asid va kind s
  | .inval die => execInval die s
  | .resume die => execResume die s
  | .resumeFatal die => execResumeFatal die s
  | .fill die => execFill die s
  | .retire die => execRetire die s
  | .harvest die => execHarvest die s
  | .migrate die => execMigrate die s
  | .homeWrite core id => execHomeWrite core id s
  | .writePerformed id => execWritePerformed id s
  | .subscribeFill core pa fmt => execSubscribeFill core pa fmt s
  | .upgrade core pa => execUpgrade core pa s
  | .invalidationReceive agent => execInvalidationReceive agent s
  | .updateReceive agent => execUpdateReceive agent s
  | .leaseExpire core pa => execLeaseExpire core pa s
  | .inboundFabricRequest die port arrival => execInboundFabricRequest die port arrival s
  | .targetTimeout die port => execTargetTimeout die port s
  | .initiatorTimeout die id => execInitiatorTimeout die id s
  | .launch die q => execLaunch die q s
  | .operatorChain die q => execOperatorChain die q s
  | .operatorSwap id => execOperatorSwap id s
  | .drawStream die q => execDrawStream die q s
  | .waitCommand die q => execWaitCommand die q s
  | .waitCommandPoll die q => execWaitCommandPoll die q s
  | .launchEnd id => execLaunchEnd id s
  | .taskLaunch die q => execTaskLaunch die q s
  | .jobCardStart die serial => execJobCardStart die serial s
  | .bind core slot r => execBind core slot r s
  | .preemptHalt u => execPreemptHalt u s
  | .pendingCompletionArrive u id => execPendingCompletionArrive u id s
  | .killComplete asid => execKillComplete asid s
  | .solverJobStart seq => execSolverJobStart seq s
  | .solverStageComplete seq => execSolverStageComplete seq s
  | .primitiveBin fe => execPrimitiveBin fe s
  | .passFinal die q => execPassFinal die q s
  | .leadAllowanceRelease die => execLeadAllowanceRelease die s
  | .splitChangeComplete die => execSplitChangeComplete die s
  | .eventRecordPost die => execEventRecordPost die s
  | .leaderRenew => execLeaderRenew s
  | .leaderStepDown => execLeaderStepDown s
  | .leadershipTakeover => execLeadershipTakeover s
  | .profileChange => execProfileChange s
  | .exactFill agent pa => execExactFill agent pa s
  | .evict core slot => s.pushOut core slot
  | .seat u => s.seatNow u
  | .hotnessSnapshot die => if (s.die die).hcGo then execHotnessSnapshot die (s.die die).hcHalve s else .next s

/-! ## A word placed where the next step fetches it -/

/-- The page that `withFetchWord` puts a word on. -/
def fetchPage : Nat := 0x10000

/-- A translation of that page for every ASID, with every right. -/
def fetchTlb : TlbEntry :=
  { asid := 0, global := true, va := fetchPage, size := 4096, pa := fetchPage, r := true, w := true, x := true, att := Att.plain }

/-- A crew on slot 0 of NPU core 0 of die 0 whose stream stands at the word. DESIGN CHOICE (log 6). -/
def Crew.atWord (c : Crew) (u : Nat) (st : Strm) : Crew :=
  { c with
    uid := u
    life := .running
    place := Place.zero
    kern := { c.kern with npu := true, base := List.replicate 4 (BitVec.ofNat 64 fetchPage), len := [1, 1, 1, 1] }
    yielded := false
    trap := none
    act := false }.setStrm st { Stream.start with status := .running }

end Sys2Proof.Machine
end

