-- ==== Sys2Proof/Machine/Step.lean ====
section
/-!
DEFINITION. One step: the schedule's next action, performed (log 2).
-/

namespace Sys2Proof.Machine

/-- An action performed: an event, or the next word of a stream. -/
def State.perform_ (s : State) (a : Act) : Host.Outcome State Fault Refusal :=
  match a with
  | .input i => exec i s
  | .issue u st =>
    match s.takeTurn u st with
    | none => .next s
    | some s1 =>
      match s1.fetched st with
      | .instr i => exec i s1
      | .out o => o
  | other => other.run s

/-- One step of the package. DEDUCED (log 10). -/
def step (s : State) : Host.Outcome State Fault Refusal :=
  match s.nextAct with
  | some a => s.tick.perform_ a
  | none => .next s.tick

/-- The word `w` of `nbits` bits stored where the next step fetches it: a crew bound to slot 0 of NPU core 0 of die 0 stands at it, with
its translation in the core's TLB, and the stream's turn is first in the agenda. DESIGN CHOICE (log 6). -/
def State.withFetchWord (s : State) (nbits w : Nat) : State :=
  match streamOfBits nbits with
  | none => s
  | some st =>
    let k := Place.zero.agent
    let x := s.core k
    let u := s.nextId
    let s1 := s.setCore k { x with
      tlb := fetchTlb :: x.tlb
      slots := SMap.set Slot.free x.slots 0 { SMap.get Slot.free x.slots 0 with state := 2, uid := u } }
    { s1 with
      crew := s1.crew.atWord u st
      mem := s1.mem.write fetchPage (leBytes (wordBytes st) w)
      agenda := [.issue u st]
      nextId := u + 1 }

end Sys2Proof.Machine
end

