-- ==== Sys2Proof/Safety.lean ====
section
/-!
DEFINITION. The terms claims are made in: when a word of a stream is ready to issue, the canonical form of the memories, and a run
that neither faults nor is refused.
-/

namespace Sys2Proof.Machine

/-! ## Words that are ready -/

/-- The stream may issue, no pending trap of it is due, and the word breaks no encoding rule (R20, R92, R256). -/
def Crew.ready (c : Crew) (st : Strm) (i : Instr) : Bool :=
  c.canIssue st && !c.pendDue st && i.wf c.env

/-- A scalar word that reads `srcs` and may write `d` meets no poison, waits for no result and finds its shared scalars full (R96,
R97, R264). -/
def Crew.readyScalar (c : Crew) (i : Instr) (srcs : List GReg) (d : GReg) : Bool :=
  c.ready .s i && (c.gPoison srcs).isNone && (c.scalarWait srcs d).isNone

/-- A word of v, m or k whose wait tokens are all at zero (R86). -/
def Crew.readyWord (c : Crew) (st : Strm) (i : Instr) (wait : BitVec 8) : Bool := c.ready st i && c.tokensAtMost wait 0

/-- A vector word issues in the settled state: its operands name registers that the crew holds, no source is poisoned, no shared scalar
read is empty, no destination is locked, and its token is below 63 (R86, R137, R239, R243). -/
def State.readyVector (s : State) (i : Instr) (h : VHdr) (use : VUse) (tok : Option Tok) : Bool :=
  let c := s.settled.crew
  let opds := use.dst.toList ++ use.srcs
  let shared := use.srcs.filterMap opShared
  s.crew.canIssue .v && c.readyWord .v i h.wait && (opds.findSome? (c.opFault h.grp.toNat)).isNone &&
    (c.regsFault (use.dregs ++ use.sregs)).isNone &&
    (c.vPoison (use.srcs.flatMap (fun o => opRegs o h.grp.toNat) ++ use.sregs) shared).isNone && (shared.find? c.gEmpty).isNone &&
    !use.dregs.any c.vLocked && tok.all (fun t => c.tokCount t != 63)

/-- A matrix word: wait tokens, registers held, no poisoned source (R86, R180, R182). -/
def Crew.readyMatrix (c : Crew) (i : Instr) (wait : BitVec 8) (regs : List Nat) (reads : Bool) : Bool :=
  c.readyWord .m i wait && (c.regsFault regs).isNone && (if reads then c.vPoison regs [] else none).isNone

/-- The array side of a crew is free: no nest runs, the array is idle (R167, R168). -/
def Crew.arrayFree (c : Crew) : Bool := c.nest.isNone && c.array.isNone

/-- A copy word: wait tokens, no low register, no poison, its scalars full, no cause before issue, room, its token below 63 (R189,
R194, R195). -/
def State.readyCopy (s : State) (i : Instr) (seq : Nat) (room : State → Job → Option Wait) : Bool :=
  let c := s.crew
  let j := c.jobOf s.nextId seq i
  c.readyWord .k i (hdrOf i).wait && !lowRegister i && (c.gPoison (jobScalars i)).isNone && ((jobScalars i).find? c.gEmpty).isNone &&
    (leastCause (s.jobCk c j)).isNone && (room s j).isNone && c.tokCount (hdrOf i).sig != 63

/-! ## Forms of claims -/

/-- A scalar register word is done: its register holds the value, and the stream stands at the word that follows (R97, R113). -/
def State.wrote (s : State) (d : GReg) (w : Word) : State := { s with crew := (s.crew.wrG d w).advance }

/-- A scalar word that raised flags is done: its register, then its flags with their trap (R51). -/
def State.wroteFlags (s : State) (d : GReg) (r : Word × Flags) : State := { s with crew := (s.crew.wrG d r.1).advanceFlags r.2 }

/-- Ready, the scalar word answers the next state `after`. -/
def AnswersS (i : Instr) (srcs : List GReg) (d : GReg) (after : State → State) : Prop :=
  ∀ s : State, s.crew.readyScalar i srcs d = true → exec i s = .next (after s)

/-- A floating-point result as its register takes it (R104). -/
def fpuResult (r : Nat × Flags) : Word × Flags := (BitVec.ofNat 64 r.1, r.2)

/-- Ready, the vector word with latency bound `lat` opens a window with the effect that its sources give at issue (R88). -/
def AnswersV (i : Instr) (h : VHdr) (use : VUse) (lat : Nat) (eff : Crew → Nat → VEff) : Prop :=
  ∀ s : State, s.readyVector i h use none = true →
    exec i s = .next (s.settled.openWindow h use lat (raisesFlags i) (eff s.settled.crew s.settled.free))

/-- Ready, the copy word hands the job `job` to its engine, raises its token, and the stream goes on behind its gap (R86, R194). `take`
is what the word takes at issue. -/
def AnswersK (i : Instr) (seq : Crew → Nat) (room : State → Job → Option Wait) (take : Crew → Job → Crew × Job) : Prop :=
  ∀ s : State, s.readyCopy i (seq s.crew) room = true →
    exec i s = .next
      (let x := take s.crew (s.crew.jobOf s.nextId (seq s.crew) i)
       { s.fresh.2 with
         crew := (({ x.1 with jobs := x.1.jobs ++ [x.2] } : Crew).raiseTok (hdrOf i).sig).pass .k (hdrOf i).gap (s.crew.k.pc + 1) })

/-- The crew named `u`, bound to a core, brought to the front: `t` is the machine with its record in reach. -/
def State.front (s : State) (u : Nat) (t : State) : Prop :=
  s.focus u = some t ∧ (t.crew.life = .running ∨ t.crew.life = .halting)

/-- Every element of a word on path 0 is mapped: nothing traps, waits or is out (R154). -/
def Mapped.whole (m : Mapped) : Prop := m.now = none ∧ m.wait = none ∧ m.out = []

/-- A word that writes on path 0 is under way: a write in the core's buffer for each element of `reach`, then the word in flight with all
its elements (R156, R158). -/
def State.putWord (s : State) (f : VMemF) (mayFlag : Bool) (kind : VKind) (op : Elem → WOp) (bytes : Elem → List Byte) (regs zeros : List Nat)
    (reach el : List Elem) : State :=
  (s.fresh.2.putWrites s.nextId f op bytes false (fun _ => true) reach).issueV f.h (s.crew.mkWord s.nextId f mayFlag kind el regs zeros)

/-- Where an element of a local word stands: its kind of memory and the place in it. -/
def Elem.at_ (e : Elem) : Nat × Nat :=
  match e.space with
  | .phys => (0, e.addr)
  | .spad core => (1, core * 2 ^ 20 + e.addr)
  | .caddy die => (2, die * 2 ^ 29 + e.addr)

/-- No byte that an element writes is one of those that another element of the word writes. -/
def Elem.clearOf (e : Elem) (ty : Nat) (y : Elem) : Prop :=
  y.at_.1 ≠ e.at_.1 ∨ e.at_.2 + max 1 (storeBytes ty e.data).length ≤ y.at_.2 ∨ y.at_.2 + max 1 (storeBytes ty y.data).length ≤ e.at_.2

/-! ## Frames -/

/-- The crew may have waited, trapped or moved on in its streams; every register, flag, mask, lane, tile and queue is as before. -/
def Crew.sameData (c d : Crew) : Prop :=
  d = { c with s := d.s, v := d.v, m := d.m, k := d.k, tok := d.tok, trap := d.trap, stop := d.stop, life := d.life, epc := d.epc,
               cause := d.cause, tval := d.tval, act := d.act, held := d.held, sHeld := d.sHeld }

/-- A word that writes one scalar register: its destination, with the full bit and poison of that register, and the loop counts apart,
every register is as before. -/
def Crew.sameButG (c d : Crew) : Prop :=
  d = { c with s := d.s, v := d.v, m := d.m, k := d.k, tok := d.tok, trap := d.trap, stop := d.stop, life := d.life, epc := d.epc,
               cause := d.cause, tval := d.tval, act := d.act, held := d.held, sHeld := d.sHeld, g := d.g, gFull := d.gFull, poisonG := d.poisonG, lc := d.lc }

/-- The destination of a word whose one effect on registers is to write a scalar register, floating point apart. -/
def destOf : Instr → Option GReg
  | .add d _ _ | .sub d _ _ | .mul d _ _ | .mulhS d _ _ | .mulhN d _ _ | .and d _ _ | .or d _ _ | .xor d _ _ | .andn d _ _
  | .sll d _ _ | .srl d _ _ | .sra d _ _ | .rol d _ _ | .ror d _ _ | .minS d _ _ | .minN d _ _ | .maxS d _ _ | .maxN d _ _
  | .clz d _ | .ctz d _ | .popc d _ | .bilv2 d _ _ | .bilv3 d _ _ | .adds d _ _ _ | .sel d _ _ _ | .addi d _ _ | .andi d _ _
  | .ori d _ _ | .xori d _ _ | .slli d _ _ | .srli d _ _ | .srai d _ _ | .rori d _ _ | .lil d _ | .lih d _ | .bfxS d _ _ _
  | .bfxN d _ _ _ | .bfi d _ _ _ | .jal d _ | .jalr d _ _ | .srd d _ => some d
  | _ => none

/-- The destination of a scalar floating-point word. -/
def floatDestOf : Instr → Option GReg
  | .fadd d _ _ _ _ | .fsub d _ _ _ _ | .fmul d _ _ _ _ | .ffma d _ _ _ _ | .fmin d _ _ _ _ | .fmax d _ _ _ _ | .fabs d _ _ _
  | .fneg d _ _ _ | .fcvt d _ _ _ _ _ => some d
  | _ => none

/-! ## Memories -/

/-- The canonical form of every memory: addresses rising, no listed byte equal to what an unlisted address reads as. -/
def State.canonical (s : State) : Prop := s.mem.wf = true ∧ s.spad.wf = true ∧ s.caddy.wf = true

/-- Nothing but the crew has changed: every memory, core, die, cache and work list is as before. -/
def State.onlyCrew (s t : State) : Prop := t = { s with crew := t.crew }

/-! ## Runs -/

/-- A safe run: no step faults or is refused. -/
def State.safe (s : State) : Prop := ∀ n, ∃ t, Sys2Proof.core.run n s = .next t

end Sys2Proof.Machine
end

