-- ==== Sys2Proof/Certificates/Slice0/Obligations.lean ====
section
/-!
DEFINITION. The statements for the provers. Each docstring names the rules of spec/ that it formalises.
-/

section Statements

open Sys2Proof Sys2Proof.Machine

/-! ## Encoding -/

/-- Words written out from the encoding tables decode to the instructions they stand for: an ALU word (R64, R66), a load (R68), a
special-register write and ERET (R71), a vector word of layout A and one of layout L (R74, R79, R80), a tile step (R84, R85), a copy
word (R81-R83). -/
def Obligations.WrittenWordsDecode : Prop :=
  decode Env.start .s 0b000001_000011_000001_000010_00000000 = some (.add 3 1 2) ∧
  decode Env.start .s 0b010000_000111_001000_0010_000_10_1_0001 = some (.ld 7 8 2 0 2 1 1) ∧
  decode Env.start .s 0b100000_0100_000100_000000010010_0000 = some (.swr 4 0x012) ∧
  decode Env.start .s 0x81800000 = some .eret ∧
  decode Env.start .v (0x01 * 2 ^ 88 + 3 * 2 ^ 84 + 9 * 2 ^ 62 + (3 * 2 ^ 4) * 2 ^ 48 + (4 * 2 ^ 4) * 2 ^ 34 + (5 * 2 ^ 4 + 1) * 2 ^ 20) =
    some (.vadd { h := { gap := 3, wait := 0, msk := 0, mmode := 0, grp := 0, hold := 0 }, ty := 9, d := ⟨0, 0, 3⟩, a := ⟨0, 0, 4⟩,
                  b := ⟨1, 0, 5⟩, nab := 0, rnd := 0, sat := 0 }) ∧
  decode Env.start .v (0x10 * 2 ^ 88 + 7 * 2 ^ 62 + (3 * 2 ^ 4) * 2 ^ 48 + (4 * 2 ^ 4) * 2 ^ 34 + 5) =
    some (.vshl { h := { gap := 0, wait := 0, msk := 0, mmode := 0, grp := 0, hold := 0 }, ty := 7, d := ⟨0, 0, 3⟩, a := ⟨0, 0, 4⟩,
                  b := ⟨0, 0, 0⟩, imm := 5 }) ∧
  decode Env.start .m (0x05 * 2 ^ 184 + 2 * 2 ^ 148) = some (.mzero 0 0 2) ∧
  decode Env.start .k (0x01 * 2 ^ 88 + 5 * 2 ^ 73 + 1 * 2 ^ 65 + 3 * 2 ^ 62 + 48 * 2 ^ 52 + 49 * 2 ^ 46 + 64) =
    some (.cpyKr { gap := 0, wait := 0, sig := 5, path := 3, oc := 0 } { imm := 64, gc := 0, gb := 49, ga := 48 })

/-- Decoding an encoded instruction gives it back: for every instruction of every stream that breaks no rule on fields, with every operand
at every value that its field admits, under every core type and binary8 descriptor (R62-R92). -/
def Obligations.DecodeEncode : Prop :=
  ∀ (e : Env) (st : Strm) (i : Instr), i.stream = some st → i.wf e = true → decode e st (encode i) = some i

/-- A word that decodes breaks no rule on fields (R92), and it is a word of its own stream. -/
def Obligations.DecodedIsWellFormed : Prop :=
  ∀ (e : Env) (st : Strm) (n : Nat) (i : Instr), decode e st n = some i → i.wf e = true ∧ i.stream = some st

/-! ## Scalar words on registers -/

/-- Integer, bit and address words (R97, R99): ready, each writes the function of its sources to its destination, g0 discarding the
write, and the stream goes on to the word that follows. -/
def Obligations.IntegerWords : Prop :=
  ∀ d a b : GReg,
    AnswersS (.add d a b) [a, b] d (fun s => s.wrote d (s.crew.rdG a + s.crew.rdG b)) ∧
    AnswersS (.sub d a b) [a, b] d (fun s => s.wrote d (s.crew.rdG a - s.crew.rdG b)) ∧
    AnswersS (.mul d a b) [a, b] d (fun s => s.wrote d (s.crew.rdG a * s.crew.rdG b)) ∧
    AnswersS (.mulhS d a b) [a, b] d (fun s => s.wrote d (mulhS (s.crew.rdG a) (s.crew.rdG b))) ∧
    AnswersS (.mulhN d a b) [a, b] d (fun s => s.wrote d (mulhN (s.crew.rdG a) (s.crew.rdG b))) ∧
    AnswersS (.and d a b) [a, b] d (fun s => s.wrote d (s.crew.rdG a &&& s.crew.rdG b)) ∧
    AnswersS (.or d a b) [a, b] d (fun s => s.wrote d (s.crew.rdG a ||| s.crew.rdG b)) ∧
    AnswersS (.xor d a b) [a, b] d (fun s => s.wrote d (s.crew.rdG a ^^^ s.crew.rdG b)) ∧
    AnswersS (.andn d a b) [a, b] d (fun s => s.wrote d (s.crew.rdG a &&& ~~~(s.crew.rdG b))) ∧
    AnswersS (.sll d a b) [a, b] d (fun s => s.wrote d (s.crew.rdG a <<< ((s.crew.rdG b).toNat % 64))) ∧
    AnswersS (.srl d a b) [a, b] d (fun s => s.wrote d (s.crew.rdG a >>> ((s.crew.rdG b).toNat % 64))) ∧
    AnswersS (.sra d a b) [a, b] d (fun s => s.wrote d ((s.crew.rdG a).sshiftRight ((s.crew.rdG b).toNat % 64))) ∧
    AnswersS (.rol d a b) [a, b] d (fun s => s.wrote d ((s.crew.rdG a).rotateLeft ((s.crew.rdG b).toNat % 64))) ∧
    AnswersS (.ror d a b) [a, b] d (fun s => s.wrote d ((s.crew.rdG a).rotateRight ((s.crew.rdG b).toNat % 64))) ∧
    AnswersS (.minS d a b) [a, b] d (fun s => s.wrote d (BitVec.ofInt 64 (min (s.crew.rdG a).toInt (s.crew.rdG b).toInt))) ∧
    AnswersS (.maxS d a b) [a, b] d (fun s => s.wrote d (BitVec.ofInt 64 (max (s.crew.rdG a).toInt (s.crew.rdG b).toInt))) ∧
    AnswersS (.minN d a b) [a, b] d (fun s => s.wrote d (BitVec.ofNat 64 (min (s.crew.rdG a).toNat (s.crew.rdG b).toNat))) ∧
    AnswersS (.maxN d a b) [a, b] d (fun s => s.wrote d (BitVec.ofNat 64 (max (s.crew.rdG a).toNat (s.crew.rdG b).toNat))) ∧
    AnswersS (.clz d a) [a] d (fun s => s.wrote d (BitVec.ofNat 64 (clzNat 64 (s.crew.rdG a).toNat))) ∧
    AnswersS (.ctz d a) [a] d (fun s => s.wrote d (BitVec.ofNat 64 (ctzFrom 64 (s.crew.rdG a).toNat))) ∧
    AnswersS (.popc d a) [a] d (fun s => s.wrote d (BitVec.ofNat 64 (popNat 64 (s.crew.rdG a).toNat))) ∧
    AnswersS (.bilv2 d a b) [a, b] d (fun s => s.wrote d (bilv2 (s.crew.rdG a) (s.crew.rdG b))) ∧
    AnswersS (.bilv3 d a b) [a, b, d] d (fun s => s.wrote d (bilv3 (s.crew.rdG a) (s.crew.rdG b) (s.crew.rdG d))) ∧
    (∀ k : BitVec 3, AnswersS (.adds d a b k) [a, b] d (fun s => s.wrote d (s.crew.rdG a + (s.crew.rdG b <<< k.toNat))))

/-- What the functions of R99 that are no single operation of a bit vector compute: the high halves of the exact products, the counts of
bits, and the interleaved bits.
Bit fields bit by bit (R102), for a field that lies within 64 bits: BFX gives the field with its top bit or zeros above, BFI replaces
the field and keeps every other bit. -/
def Obligations.IntegerAndFieldFunctions : Prop :=
  (
    ∀ a b e : Word,
      mulhS a b = BitVec.ofInt 64 (a.toInt * b.toInt / 2 ^ 64) ∧
      mulhN a b = BitVec.ofNat 64 (a.toNat * b.toNat / 2 ^ 64) ∧
      (clzNat 64 a.toNat ≤ 64 ∧ (∀ i, 64 - clzNat 64 a.toNat ≤ i → a.getLsbD i = false) ∧
        (a ≠ 0 → a.getLsbD (63 - clzNat 64 a.toNat) = true) ∧ (a = 0 → clzNat 64 a.toNat = 64)) ∧
      (ctzFrom 64 a.toNat ≤ 64 ∧ (∀ i, i < ctzFrom 64 a.toNat → a.getLsbD i = false) ∧
        (a ≠ 0 → a.getLsbD (ctzFrom 64 a.toNat) = true) ∧ (a = 0 → ctzFrom 64 a.toNat = 64)) ∧
      popNat 64 a.toNat = ((List.range 64).filter (fun i => a.getLsbD i)).length ∧
      (∀ i, i < 32 → (bilv2 a b).getLsbD (2 * i) = a.getLsbD i ∧ (bilv2 a b).getLsbD (2 * i + 1) = b.getLsbD i) ∧
      (∀ i, i < 21 → (bilv3 a b e).getLsbD (3 * i) = a.getLsbD i ∧ (bilv3 a b e).getLsbD (3 * i + 1) = b.getLsbD i ∧
        (bilv3 a b e).getLsbD (3 * i + 2) = e.getLsbD i) ∧ (bilv3 a b e).getLsbD 63 = false) ∧
  (
    ∀ (old a : Word) (pos w : BitVec 6) (i : Nat), pos.toNat + w.toNat + 1 ≤ 64 → i < 64 →
      (bfx false a pos w).getLsbD i = (decide (i ≤ w.toNat) && a.getLsbD (pos.toNat + i)) ∧
      (bfx true a pos w).getLsbD i = a.getLsbD (pos.toNat + min i w.toNat) ∧
      (bfi old a pos w).getLsbD i =
        (if pos.toNat ≤ i ∧ i ≤ pos.toNat + w.toNat then a.getLsbD (i - pos.toNat) else old.getLsbD i))

/-- Immediates, long constants and bit fields (R100, R101, R102): ready, each word writes its value.
Division words (R96, R99): ready, each has the quotient or remainder of R99 in flight for its destination, by zero and in the overflow
case too, raises no flag, and lets the stream go on. -/
def Obligations.ImmediateAndDivisionWords : Prop :=
  (
    ∀ (d a : GReg) (i : BitVec 14) (n pos w : BitVec 6) (x : BitVec 20),
      AnswersS (.addi d a i) [a] d (fun s => s.wrote d (s.crew.rdG a + i.signExtend 64)) ∧
      AnswersS (.andi d a i) [a] d (fun s => s.wrote d (s.crew.rdG a &&& i.signExtend 64)) ∧
      AnswersS (.ori d a i) [a] d (fun s => s.wrote d (s.crew.rdG a ||| i.signExtend 64)) ∧
      AnswersS (.xori d a i) [a] d (fun s => s.wrote d (s.crew.rdG a ^^^ i.signExtend 64)) ∧
      AnswersS (.slli d a n) [a] d (fun s => s.wrote d (s.crew.rdG a <<< n.toNat)) ∧
      AnswersS (.srli d a n) [a] d (fun s => s.wrote d (s.crew.rdG a >>> n.toNat)) ∧
      AnswersS (.srai d a n) [a] d (fun s => s.wrote d ((s.crew.rdG a).sshiftRight n.toNat)) ∧
      AnswersS (.rori d a n) [a] d (fun s => s.wrote d ((s.crew.rdG a).rotateRight n.toNat)) ∧
      AnswersS (.lil d x) [] d (fun s => s.wrote d (x.signExtend 64)) ∧
      AnswersS (.lih d x) [d] d (fun s => s.wrote d ((s.crew.rdG d <<< 20) ||| x.zeroExtend 64)) ∧
      AnswersS (.bfxS d a pos w) [a] d (fun s => s.wrote d (bfx true (s.crew.rdG a) pos w)) ∧
      AnswersS (.bfxN d a pos w) [a] d (fun s => s.wrote d (bfx false (s.crew.rdG a) pos w)) ∧
      AnswersS (.bfi d a pos w) [a, d] d (fun s => s.wrote d (bfi (s.crew.rdG d) (s.crew.rdG a) pos w))) ∧
  (
    ∀ (d a b : GReg) (s : State),
      let A := s.crew.rdG a
      let B := s.crew.rdG b
      let flight := fun (w : Word) =>
        ({ s with nextId := s.nextId + 1
                  crew := ({ s.crew with sres := s.crew.sres ++ [{ id := s.nextId, d := d, kind := .value w }] } : Crew).advance } : State)
      (s.crew.readyScalar (.divS d a b) [a, b] d = true →
        exec (.divS d a b) s = .next (flight (if B = 0 then BitVec.allOnes 64 else BitVec.ofInt 64 (A.toInt.tdiv B.toInt)))) ∧
      (s.crew.readyScalar (.divN d a b) [a, b] d = true →
        exec (.divN d a b) s = .next (flight (if B = 0 then BitVec.allOnes 64 else BitVec.ofNat 64 (A.toNat / B.toNat)))) ∧
      (s.crew.readyScalar (.remS d a b) [a, b] d = true →
        exec (.remS d a b) s = .next (flight (if B = 0 then A else BitVec.ofInt 64 (A.toInt.tmod B.toInt)))) ∧
      (s.crew.readyScalar (.remN d a b) [a, b] d = true →
        exec (.remN d a b) s = .next (flight (if B = 0 then A else BitVec.ofNat 64 (A.toNat % B.toNat)))))

/-- Selects and compares on integers (R99, R103): sel takes A where its flag is 1 and B otherwise, and leaves the flag full; CMP and CMPI
write the named flag full with the truth of the condition.
A floating-point compare (R103): ready, CMP writes the truth of its condition to the flag, which is full, and ORs in its flag; a NaN
on either side makes every condition but unordered false and unordered true. -/
def Obligations.SelectAndCompare : Prop :=
  (
    ∀ (d a b : GReg) (f : CFlag) (cond : BitVec 3) (i : BitVec 14) (s : State),
      let A := s.crew.rdG a
      let holds := fun (B : Word) =>
        match cond.toNat with
        | 0 => decide (A = B)
        | 1 => decide (A ≠ B)
        | 2 => decide (A.toInt < B.toInt)
        | 3 => decide (B.toInt ≤ A.toInt)
        | 4 => decide (A.toNat < B.toNat)
        | _ => decide (B.toNat ≤ A.toNat)
      (s.crew.readyScalar (.sel d a b f) [a, b] d = true → s.crew.flagFull f = true →
        exec (.sel d a b f) s = .next (s.wrote d (if s.crew.flagVal f then A else s.crew.rdG b))) ∧
      (cond.toNat ≤ 5 → s.crew.readyScalar (.cmp f a b (cond.zeroExtend 8)) [a, b] 0 = true →
        exec (.cmp f a b (cond.zeroExtend 8)) s = .next { s with crew := (s.crew.setFlag f (holds (s.crew.rdG b))).advance }) ∧
      (s.crew.readyScalar (.cmpi cond f a i) [a] 0 = true →
        exec (.cmpi cond f a i) s = .next { s with crew := (s.crew.setFlag f (holds (i.signExtend 64))).advance })) ∧
  (
    ∀ (a b : GReg) (f : CFlag) (cond : BitVec 8) (s : State), 8 ≤ cond.toNat → cond.toNat ≤ 11 →
      s.crew.readyScalar (.cmp f a b cond) [a, b] 0 = true →
      let r := fltCond cond.toNat ((s.crew.rdG a).toNat % 2 ^ 32) ((s.crew.rdG b).toNat % 2 ^ 32)
      exec (.cmp f a b cond) s = .next { s with crew := (s.crew.setFlag f r.1).advanceFlags r.2 } ∧
      ((fmtF32.value ((s.crew.rdG a).toNat % 2 ^ 32)).isNan = true ∨ (fmtF32.value ((s.crew.rdG b).toNat % 2 ^ 32)).isNan = true →
        r.1 = decide (cond.toNat = 11)))

/-- Scalar floating point (R104, R105): ready, each word computes on the patterns in the low bits of its registers with one rounding in the
mode that its fields name, writes the result zero-extended (an s32 of FCVT sign-extended), and ORs its flags in. -/
def Obligations.FloatWords : Prop :=
  ∀ (d a b : GReg) (r : BitVec 3) (f : BitVec 2) (src tgt : BitVec 3) (sat : BitVec 1),
    let m := fun (s : State) => modeOf s.crew.fcsr r
    let x := fun (s : State) => fpuBits f (s.crew.rdG a)
    let y := fun (s : State) => fpuBits f (s.crew.rdG b)
    AnswersS (.fadd d a b r f) [a, b] d (fun s => s.wroteFlags d (fpuResult ((fpuFmt f).add (m s) (x s) (y s)))) ∧
    AnswersS (.fsub d a b r f) [a, b] d (fun s => s.wroteFlags d (fpuResult ((fpuFmt f).sub (m s) (x s) (y s)))) ∧
    AnswersS (.fmul d a b r f) [a, b] d (fun s => s.wroteFlags d (fpuResult ((fpuFmt f).mul (m s) (x s) (y s)))) ∧
    AnswersS (.ffma d a b r f) [a, b, d] d
      (fun s => s.wroteFlags d (fpuResult ((fpuFmt f).fma (m s) (x s) (y s) (fpuBits f (s.crew.rdG d))))) ∧
    AnswersS (.fmin d a b r f) [a, b] d (fun s => s.wroteFlags d (fpuResult ((fpuFmt f).minMax false (x s) (y s)))) ∧
    AnswersS (.fmax d a b r f) [a, b] d (fun s => s.wroteFlags d (fpuResult ((fpuFmt f).minMax true (x s) (y s)))) ∧
    AnswersS (.fabs d a r f) [a] d (fun s => s.wroteFlags d (fpuResult ((fpuFmt f).signOp false (x s), 0))) ∧
    AnswersS (.fneg d a r f) [a] d (fun s => s.wroteFlags d (fpuResult ((fpuFmt f).signOp true (x s), 0))) ∧
    AnswersS (.fcvt d a src tgt r sat) [a] d (fun s => s.wroteFlags d (fcvtVal (s.crew.rdG a) src tgt (m s) (sat == 1)))

/-- Registers read and written (R97): g0 reads as zero and a write to it changes nothing; any other register reads back what was written,
and every other keeps its value; a shared scalar is left full. -/
def Obligations.ScalarRegisters : Prop :=
  ∀ (c : Crew) (d : GReg) (w : Word),
    c.rdG 0 = 0 ∧ c.wrG 0 w = c ∧ (d ≠ 0 → (c.wrG d w).rdG d = w) ∧ (∀ r, r ≠ d → (c.wrG d w).rdG r = c.rdG r) ∧
    (isShared d = true → (c.wrG d w).gEmpty d = false) ∧ (∀ r, r ≠ d → (c.wrG d w).gEmpty r = c.gEmpty r)

/-- R113, the successor of a scalar word at p that completes without a transfer, with the loop counts: level 1 first, then level 0 where
the word is the last of its body too. -/
def Obligations.LoopSuccessor : Prop :=
  ∀ c : Crew,
    let p := c.s.pc
    let lc := fun (n : Nat) => SMap.get 0 c.lc n
    let at_ := fun (n : Nat) => decide (lc n ≠ 0) && decide (p = ((SMap.get 0 c.le n).truncate 18 : Pc))
    let back := fun (n : Nat) => at_ n && decide (1 < (lc n).toNat)
    let next1 : Pc := if back 1 then (SMap.get 0 c.ls 1).truncate 18 else p + 1
    let outer := decide (next1 = p + 1) && at_ 0
    let t := c.advance
    SMap.get 0 t.lc 1 = (if at_ 1 then lc 1 - 1 else lc 1) ∧
    SMap.get 0 t.lc 0 = (if outer then lc 0 - 1 else lc 0) ∧
    t.s.pc = (if outer && back 0 then (SMap.get 0 c.ls 0).truncate 18 else next1) ∧
    t.s.status = .running ∧ t.ls = c.ls ∧ t.le = c.le ∧ t.g = c.g

/-- R114, a taken transfer: the count of every active level whose body does not hold the target is cleared, no other loop register
changes, and the stream stands at the target. ERET and the taking of a
trap change no loop register. -/
def Obligations.TransferLeavesLoops : Prop :=
  (∀ (c : Crew) (target : Pc) (n : Nat), n < 2 →
    let inside := decide (((SMap.get 0 c.ls n).truncate 18 : Pc) ≤ target) && decide (target ≤ ((SMap.get 0 c.le n).truncate 18 : Pc))
    SMap.get 0 (c.transfer target).lc n = (if inside then SMap.get 0 c.lc n else 0) ∧
    (c.transfer target).s.pc = target ∧ (c.transfer target).ls = c.ls ∧ (c.transfer target).le = c.le) ∧
  (∀ c : Crew, c.takeTrap.ls = c.ls ∧ c.takeTrap.le = c.le ∧ c.takeTrap.lc = c.lc) ∧
  (∀ s : State, ∃ t, exec .eret s = .next t ∧ t.crew.ls = s.crew.ls ∧ t.crew.le = s.crew.le ∧ t.crew.lc = s.crew.lc)

/-- Branches and jumps (R110, R111): BRF waits on an empty flag, is taken where the flag equals its sense, and empties the flag with take
set whether taken or not; JAL and JALR link to the word behind; a JALR target beyond 18 bits traps with class-0 detail 7 before any
write.
LPBRK (R115): with no active loop at its level it only goes on; else the level's count becomes 1, an outer break clears the inner
count, and the end of the body's last word is applied. -/
def Obligations.BranchesJumpsAndBreaks : Prop :=
  (
    ∀ (s : State) (f : CFlag) (take sense : BitVec 1) (off : BitVec 18) (d a : GReg) (i : BitVec 14),
      let c := s.crew
      (c.readyScalar (.brf f take sense off) [] 0 = true →
        (c.flagFull f = false → exec (.brf f take sense off) s = .next { s with crew := c.block .s (.flag f) 0 }) ∧
        (c.flagFull f = true →
          let c1 := if take = 1 then c.emptyFlag f else c
          exec (.brf f take sense off) s =
            .next { s with crew := if c.flagVal f = decide (sense = 1) then c1.transfer (c.s.pc + off) else c1.advance })) ∧
      (c.readyScalar (.jal d off) [] d = true →
        exec (.jal d off) s = .next { s with crew := (c.wrG d ((c.s.pc + 1).zeroExtend 64)).transfer (c.s.pc + off) }) ∧
      (c.readyScalar (.jalr d a i) [a] d = true →
        let target := c.rdG a + i.signExtend 64
        exec (.jalr d a i) s = .next { s with crew :=
          (if target.toNat < 2 ^ 18 then (c.wrG d ((c.s.pc + 1).zeroExtend 64)).transfer (target.truncate 18)
           else c.raise .s (causeCode 0 7) target c.s.pc) })) ∧
  (
    ∀ (s : State) (lv : BitVec 1), s.crew.readyScalar (.lpbrk lv) [] 0 = true →
      let c := s.crew
      let l := lv.toNat
      (SMap.get 0 c.lc l = 0 → exec (.lpbrk lv) s = .next { s with crew := { c with s := c.s.goto (c.s.pc + 1) } }) ∧
      (SMap.get 0 c.lc l ≠ 0 →
        let lc := if l = 0 then SMap.set 0 c.lc 1 0 else c.lc
        let r := ({ c with lc := SMap.set 0 lc l 1 } : Crew).loopNext ((SMap.get 0 c.le l).truncate 18)
        exec (.lpbrk lv) s = .next { s with crew := { c with lc := r.1, s := c.s.goto r.2 } } ∧ SMap.get 0 r.1 l = 0))

/-- LPSET (R112): the count from the word or from a register's low 32 bits; a broken nesting traps with class-1 detail 5 and changes no loop
register; else the level is set up and a count of zero passes the body. That the trap's sr.tval is 0 is the model's choice (log 43), and
so is the last address of a body modulo 2^18 (log 121). -/
def Obligations.LoopSetup : Prop :=
  ∀ (s : State) (lv ci : BitVec 1) (cnt : BitVec 10) (len : BitVec 14),
    let c := s.crew
    let i : Instr := .lpset lv ci cnt len
    let n := if ci = 1 then cnt.toNat else (c.rdG (cnt.extractLsb' 4 6)).toNat % 2 ^ 32
    let broken := (lv = 0 ∧ SMap.get 0 c.lc 1 ≠ 0) ∨
      (lv = 1 ∧ SMap.get 0 c.lc 0 ≠ 0 ∧ (SMap.get 0 c.le 0).toNat % 2 ^ 18 < c.s.pc.toNat + len.toNat)
    c.readyScalar i (if ci = 1 then [] else [cnt.extractLsb' 4 6]) 0 = true →
    (broken → exec i s = .next { s with crew := c.raise .s (causeCode 1 5) 0 c.s.pc } ∧
      (let t := c.raise .s (causeCode 1 5) 0 c.s.pc
       t.ls = c.ls ∧ t.le = c.le ∧ t.lc = c.lc ∧ t.g = c.g)) ∧
    (¬broken → ∃ t, exec i s = .next { s with crew := t } ∧
      SMap.get 0 t.ls lv.toNat = ((c.s.pc + 1).zeroExtend 64 : Word) ∧
      SMap.get 0 t.le lv.toNat = ((BitVec.ofNat 18 (c.s.pc.toNat + len.toNat)).zeroExtend 64 : Word) ∧
      SMap.get 0 t.lc lv.toNat = BitVec.ofNat 64 n ∧
      t.s.pc = (if n = 0 then BitVec.ofNat 18 (c.s.pc.toNat + len.toNat + 1) else c.s.pc + 1) ∧
      (∀ k, k ≠ lv.toNat → SMap.get 0 t.ls k = SMap.get 0 c.ls k ∧ SMap.get 0 t.le k = SMap.get 0 c.le k ∧
        SMap.get 0 t.lc k = SMap.get 0 c.lc k) ∧
      t.g = c.g)

/-- Starting and joining streams (R21, R22, R117, R118): FORK starts every named stream at its PC where all are idle-done, in the order v,
m, k, and else traps with class-5 detail 0 starting none; a register PC of 2^18 or more traps with class-0 detail 7; RDV waits until every named stream is idle-done; YIELD completes and the
stream is not eligible; HALT waits for the crew's retirement.
A started stream runs at the PC given and a stream that is not named is left (R21). That sr.tval is 0 in the class-5 trap and the
register's value in the class-0 one is the model's choice (log 43). -/
def Obligations.StreamWords : Prop :=
  (
    ∀ (s : State) (mask : BitVec 3) (pc : BitVec 18) (a : GReg),
      let c := s.crew
      let idle := (named mask).all (fun st => (c.strm st).isIdle)
      let busy : State := { s with crew := c.raise .s (causeCode 5 0) 0 c.s.pc }
      (c.readyScalar (.forkImm mask pc) [] 0 = true →
        exec (.forkImm mask pc) s =
          .next (if idle then { s with crew := (c.startAll ((named mask).map (fun st => (st, pc)))).advance } else busy)) ∧
      (c.readyScalar (.forkReg mask a) (forkRegs mask a) 0 = true →
        (∀ r ∈ forkRegs mask a, (c.rdG r).toNat < 2 ^ 18) →
        exec (.forkReg mask a) s =
          .next (if idle then { s with crew := (c.startAll ((named mask).zip ((forkRegs mask a).map (fun r => (c.rdG r).truncate 18)))).advance }
            else busy)) ∧
      (c.readyScalar (.forkReg mask a) (forkRegs mask a) 0 = true →
        ∀ r, (forkRegs mask a).find? (fun r => decide (2 ^ 18 ≤ (c.rdG r).toNat)) = some r →
          exec (.forkReg mask a) s = .next { s with crew := c.raise .s (causeCode 0 7) (c.rdG r) c.s.pc }) ∧
      (c.readyScalar (.rdv mask) [] 0 = true →
        exec (.rdv mask) s = .next { s with crew := if idle then c.advance else c.block .s (.rdv mask) 0 }) ∧
      (c.readyScalar .yield [] 0 = true → exec .yield s = .next { s with crew := { c.advance with yielded := true } }) ∧
      (c.readyScalar .halt [] 0 = true → exec .halt s = .next { s with crew := c.block .s .retire 0 })) ∧
  (
    ∀ (c : Crew) (mask : BitVec 3) (pc : Pc) (st : Strm),
      let t := c.startAll ((named mask).map (fun x => (x, pc)))
      (inMask mask st = true → (t.strm st).status = .running ∧ (t.strm st).pc = pc) ∧ (inMask mask st = false → t.strm st = c.strm st))

/-- Waits on tokens, temporal indices and shared scalars (R123, R126, R128): TOKW waits until every named token is at most its limit; TNEXT
advances the T indices and says whether an iteration remains; GTAKE empties its source before it writes its destination, and traps with
class-1 detail 3 where its source is no shared scalar (its sr.tval of 0 is the model's choice, log 43). -/
def Obligations.TokenIndexAndTake : Prop :=
  ∀ (s : State) (kmask : BitVec 8) (lim : BitVec 6) (f : CFlag) (d a : GReg),
    let c := s.crew
    (c.readyScalar (.tokw kmask lim) [] 0 = true →
      ((∀ i, i < 8 → kmask.getLsbD i = true → SMap.get 0 c.tok i ≤ lim.toNat) → exec (.tokw kmask lim) s = .next { s with crew := c.advance }) ∧
      ((∃ i, i < 8 ∧ kmask.getLsbD i = true ∧ lim.toNat < SMap.get 0 c.tok i) →
        exec (.tokw kmask lim) s = .next { s with crew := c.block .s (.token kmask lim.toNat) 0 })) ∧
    (c.readyScalar (.tnext f) [] 0 = true →
      let levels := (List.range c.kern.levels.length).filter (fun n => (c.kern.levels.getD n (0, 0)).1 == 0)
      let now := levels.map (fun n => ((c.kern.levels.getD n (0, 0)).2, (SMap.get 0 c.ti n).toNat))
      ∃ ti, exec (.tnext f) s = .next { s with crew := (({ c with ti := ti } : Crew).setFlag f (odometer now).isSome).advance } ∧
        levels.map (fun n => SMap.get 0 ti n) = ((odometer now).getD (levels.map (fun _ => 0))).map (BitVec.ofNat 64) ∧
        (∀ n, n ∉ levels → SMap.get 0 ti n = SMap.get 0 c.ti n)) ∧
    (isShared a = true → c.readyScalar (.gtake d a) [a] d = true →
      exec (.gtake d a) s = .next { s with crew := ((c.emptyG a).wrG d (c.rdG a)).advance }) ∧
    (isShared a = false → c.ready .s (.gtake d a) = true →
      exec (.gtake d a) s = .next { s with crew := c.raise .s (causeCode 1 3) 0 c.s.pc })

/-- Special registers (R129, R244): SRD writes the register named, or traps with class-1 detail 0 where the number names none; SWR writes
it from the next word on, and traps with class-1 detail 2 on a register that is read-only in whole.
The table of R244: which numbers name a special register, which of these a program may write, and what a written register reads as
then: its writable bits as written, and the others as 0. That sr.tval is 0 in both traps is the model's choice (log 43). -/
def Obligations.SpecialRegisters : Prop :=
  (
    ∀ (s : State) (d a : GReg) (n : BitVec 12),
      let c := s.crew
      let none_ : State := { s with crew := c.raise .s (causeCode 1 0) 0 c.s.pc }
      (c.readyScalar (.srd d n) [] d = true →
        exec (.srd d n) s = .next (match c.readSr n.toNat with
          | some w => s.wrote d w
          | none => none_)) ∧
      (c.readyScalar (.swr a n) [a] 0 = true →
        exec (.swr a n) s = .next (match c.readSr n.toNat, c.advance.writeSr n.toNat (c.rdG a) with
          | none, _ => none_
          | some _, some c1 => { s with crew := c1 }
          | some _, none => { s with crew := c.raise .s (causeCode 1 2) 0 c.s.pc }))) ∧
  (
    ∀ (c : Crew) (n : Nat) (w : Word),
      ((c.readSr n).isSome = true ↔ n ≤ 0x004 ∨ (0x010 ≤ n ∧ n ≤ 0x015) ∨ (0x020 ≤ n ∧ n ≤ 0x025) ∨ (0x030 ≤ n ∧ n ≤ 0x036) ∨
        (0x040 ≤ n ∧ n ≤ 0x042)) ∧
      ((c.writeSr n w).isSome = true ↔ n ≤ 0x001 ∨ (0x010 ≤ n ∧ n ≤ 0x015) ∨ (0x030 ≤ n ∧ n ≤ 0x035)) ∧
      (∀ d, c.writeSr n w = some d →
        d.readSr n = some (w &&&
          (if n = 0x000 then fcsrMask else if n = 0x001 then 0x7F
           else if n = 0x012 ∨ n = 0x015 then 0xFFFFFFFF
           else if n = 0x034 then 0x7FF else if n = 0x035 then BitVec.allOnes 64 else 0x3FFFF))))

/-! ## Frames of scalar words -/

/-- What a word that writes one scalar register leaves (R92, R97, R99-R102, R111, R129): whether it completes, waits or traps, every memory,
core and other crew is as before; of its crew only the destination (with its full bit), the streams and loop counts, and what a trap
entry writes may differ; every other scalar register, and every flag, mask, lane, tile, queue and special register besides, is as
before; and where no trap is entered the trap registers are too. -/
def Obligations.RegisterWordFrame : Prop :=
  ∀ (i : Instr) (d : GReg) (s t : State), destOf i = some d → exec i s = .next t →
    s.onlyCrew t ∧ s.crew.sameButG t.crew ∧ (∀ r, r ≠ d → t.crew.rdG r = s.crew.rdG r ∧ t.crew.gEmpty r = s.crew.gEmpty r) ∧
    (t.crew.act = s.crew.act →
      t.crew.epc = s.crew.epc ∧ t.crew.cause = s.crew.cause ∧ t.crew.tval = s.crew.tval ∧ t.crew.held = s.crew.held)

/-- What a scalar floating-point word leaves (R104, R105): as a register word, but that it may set flags in sr.fcsr; it clears none, and
no other bit of sr.fcsr changes.
What ORing flags into sr.fcsr changes (R47, R51): bits [12:8], which are set where the flag is raised and else stay. -/
def Obligations.FloatWordFrame : Prop :=
  (
    ∀ (i : Instr) (d : GReg) (s t : State), floatDestOf i = some d → exec i s = .next t →
      s.onlyCrew t ∧ ({ s.crew with fcsr := t.crew.fcsr } : Crew).sameButG t.crew ∧
      (∀ r, r ≠ d → t.crew.rdG r = s.crew.rdG r ∧ t.crew.gEmpty r = s.crew.gEmpty r) ∧
      (t.crew.fcsr = s.crew.fcsr ∨ ∃ f : Flags, t.crew.fcsr = fcsrOr s.crew.fcsr f)) ∧
  (
    ∀ (w : Word) (f : Flags) (n : Nat),
      (fcsrOr w f).getLsbD n = (if 8 ≤ n ∧ n ≤ 12 then w.getLsbD n || f.getLsbD (n - 8) else w.getLsbD n))

/-! ## Traps -/

/-- R254, TAKING A TRAP: a crew whose trap waits issues nothing; the trap waits while a result is in flight; with a valid handler and none
running, every stopped stream's PC is saved, the raising stream's by its rule, cause, value and status are written, the streams are held,
and the scalar stream stands at the handler; tokens, full/empty state, loop registers, flags and every other register are as before. A
pending trap that is entered gives its place to the condition kept behind it (R256). -/
def Obligations.TrapEntry : Prop :=
  ∀ (c : Crew) (t : TrapReq), c.trap = some t →
    (∀ st, c.canIssue st = false) ∧
    (c.inFlight = true → c.takeTrap = c) ∧
    (c.inFlight = false → c.bindRec.handlerValid = true → c.act = false →
      let d := c.takeTrap
      let c1 := if t.pended then c.popPend t.strm else c
      d.act = true ∧ d.held = c.live ∧ d.cause = causeWord t.code t.strm ∧ d.tval = t.tval ∧ d.trap = none ∧
      d.s.pc = BitVec.ofNat 18 c.bindRec.handler ∧ d.s.status = .running ∧
      SMap.get 0 d.epc (strmNo t.strm) = (t.epc.zeroExtend 64 : Word) ∧
      (∀ y, y ≠ t.strm → SMap.get 0 d.epc (strmNo y) =
        if (c.strm y).isIdle then SMap.get 0 c.epc (strmNo y) else ((c.strm y).pc.zeroExtend 64 : Word)) ∧
      (∀ y, y ≠ .s → d.strm y = c1.strm y ∧ d.canIssue y = false) ∧
      d = { c1 with epc := d.epc, cause := d.cause, tval := d.tval, act := d.act, held := d.held, trap := none, sHeld := c1.s.pend.isSome,
                    s := d.s })

/-- A crew without a valid handler, or in which a handler runs already, is stopped as for pre-emption (R255, R256): it keeps the cause as
the stream's pending trap, ahead of any that the stream holds, the stream stands where the rule says, and sr.epc, sr.cause, sr.tval and sr.tstat stay as they are.
A condition found after completion lowers its token and is the stream's pending trap, or keeps its token behind one; in the scalar stream
of a running crew under a handler it is a nested trap at once. That a trap of a v, m or k stream under a handler is nested as a scalar
one is, is the model's choice (log 104). A pending trap is entered before the stream's next word, and the oldest kept condition takes
its place and lowers its token (R256). -/
def Obligations.TrapsThatWaitOrHalt : Prop :=
  (
    ∀ (c : Crew) (t : TrapReq), c.trap = some t → c.inFlight = false → (c.bindRec.handlerValid = false ∨ c.act = true) →
      let d := c.takeTrap
      d.life = .halting ∧ d.stop = some ⟨t.code, t.tval⟩ ∧ (d.strm t.strm).pc = t.epc ∧
      (t.pended = false → (d.strm t.strm).pend = some ⟨t.code, t.tval⟩ ∧
        (d.strm t.strm).kept = (c.strm t.strm).pend.toList.map (fun q => (q, none)) ++ (c.strm t.strm).kept) ∧
      (t.pended = true → (d.strm t.strm).pend = (c.strm t.strm).pend ∧ (d.strm t.strm).kept = (c.strm t.strm).kept) ∧
      d.epc = c.epc ∧ d.cause = c.cause ∧ d.tval = c.tval ∧ d.act = c.act ∧ d.held = c.held ∧ ∀ st, d.canIssue st = false) ∧
  (
    ∀ (c : Crew) (st : Strm) (p : Pend) (t : Option Tok),
      let nested := st = .s ∧ c.act = true ∧ c.trap = none ∧ c.life = .running
      let low := c.lowerTok? t
      (nested → c.postPend st p t = low.raise .s p.code p.tval c.s.pc) ∧
      (¬nested → (c.strm st).pend = none → ((c.postPend st p t).strm st).pend = some p ∧
        ((c.postPend st p t).strm st).kept = (c.strm st).kept ∧ (c.postPend st p t).tok = low.tok) ∧
      (¬nested → ∀ q, (c.strm st).pend = some q → ((c.postPend st p t).strm st).pend = some q ∧
        ((c.postPend st p t).strm st).kept = (c.strm st).kept ++ [(p, t)] ∧ (c.postPend st p t).tok = c.tok) ∧
      (∀ k, t = some k → low = c.lowerTok k ∧ low.tokCount k = c.tokCount k - 1) ∧
      (∀ q u ks, (c.strm st).pend = some p → (c.strm st).kept = (q, some u) :: ks → c.bindRec.handlerValid = true → c.act = false →
        c.inFlight = false →
        ((c.enterPend st).strm st).pend = some q ∧ ((c.enterPend st).strm st).kept = ks ∧
        (c.enterPend st).tokCount u = c.tokCount u - 1 ∧ (c.enterPend st).cause = causeWord p.code st ∧ (c.enterPend st).tval = p.tval))

/-- TRAP (R130): ready, it completes and then traps with class 7 and its code, sr.tval 0 and sr.epc the word that follows; with a valid
handler, none running and nothing in flight, the handler is entered.
A word that raises an enabled flag completes and then traps (R51, R116): with a valid handler, none running and no result in flight,
its flags are set, cause is class 2 with the lowest enabled detail, sr.tval is the word's own PC, sr.epc is the word that follows, and
the scalar stream stands at the handler; with no enabled flag raised the stream goes on. -/
def Obligations.TrapWordAndFlagTrap : Prop :=
  (
    ∀ (s : State) (code : BitVec 6), s.crew.readyScalar (.trap code) [] 0 = true →
      exec (.trap code) s = .next { s with crew := s.crew.advance.raise .s (causeCode 7 code.toNat) 0 s.crew.advance.s.pc } ∧
      (s.crew.bindRec.handlerValid = true → s.crew.act = false → s.crew.inFlight = false →
        let t := s.crew.advance.raise .s (causeCode 7 code.toNat) 0 s.crew.advance.s.pc
        t.cause.toNat = 7 * 64 + code.toNat ∧ t.tval = 0 ∧ SMap.get 0 t.epc 0 = (s.crew.advance.s.pc.zeroExtend 64 : Word) ∧
          t.s.pc = BitVec.ofNat 18 s.crew.bindRec.handler ∧ t.act = true)) ∧
  (
    ∀ (c : Crew) (f : Flags),
      (enabledDetail (fcsrEn c.fcsr) f = none → c.advanceFlags f = (c.orFlags f).advance) ∧
      (∀ d, enabledDetail (fcsrEn c.fcsr) f = some d → c.bindRec.handlerValid = true → c.act = false → c.inFlight = false →
        let t := c.advanceFlags f
        t.fcsr = fcsrOr c.fcsr f ∧ t.cause = causeWord (causeCode 2 d) .s ∧ t.tval = c.s.pc.zeroExtend 64 ∧
          SMap.get 0 t.epc 0 = (c.advance.s.pc.zeroExtend 64 : Word) ∧ t.act = true ∧ t.s.pc = BitVec.ofNat 18 c.bindRec.handler ∧
          t.lc = c.advance.lc ∧ t.g = c.g))

/-- RETURNING (R257): with no trap handled ERET traps with class-1 detail 6 (its sr.tval of 0 is the model's choice, log 43); else the status is cleared, each held stream resumes at its
sr.epc, a stream outside the held ones stays as it was, no loop register changes, and the first pending trap of a held stream in the
order s, v, m, k is entered. -/
def Obligations.ReturnFromTrap : Prop :=
  ∀ s : State, s.crew.readyScalar .eret [] 0 = true →
    let c := s.crew
    (c.act = false → exec .eret s = .next { s with crew := c.raise .s (causeCode 1 6) 0 c.s.pc }) ∧
    (c.act = true → ∃ r : Crew,
      (∀ st, (c.held.getLsbD (strmNo st) = true → (r.strm st).status = .running ∧
          (r.strm st).pc = ((SMap.get 0 c.epc (strmNo st)).truncate 18 : Pc) ∧ (r.strm st).pend = (c.strm st).pend) ∧
        (c.held.getLsbD (strmNo st) = false → r.strm st = c.strm st)) ∧
      r = { c with s := r.s, v := r.v, m := r.m, k := r.k, act := false, held := 0, sHeld := false } ∧
      exec .eret s = .next { s with crew :=
        (match ([.s, .v, .m, .k] : List Strm).find? (fun st => c.held.getLsbD (strmNo st) && (c.strm st).pend.isSome) with
         | some st => r.enterPend st
         | none => r) })

/-- A word that breaks an encoding rule traps before it issues (R92): class 0 with its lowest detail, the word's most significant 64 bits in
sr.tval, the stream at the word's PC; nothing else is done. Vector words first let closed windows land and are not of this form.
A word that names no instruction, and a fetch off the grid (R63, R92): class 0 with the lowest detail that the word breaks, and class-0
detail 7 with the address of the fetch. -/
def Obligations.EncodingTraps : Prop :=
  (
    ∀ (s : State) (i : Instr) (st : Strm) (d : Nat), i.stream = some st → st ≠ .v → s.crew.canIssue st = true →
      (s.crew.strm st).pend = none → lowest (i.details s.crew.env) = some d →
      exec i s = .next { s with crew := s.crew.raise st (causeCode 0 d) (tval0 i) (s.crew.strm st).pc }) ∧
  (
    ∀ (s : State) (st : Strm) (w : Nat), s.crew.canIssue st = true → (s.crew.strm st).pend = none →
      let n := w % 2 ^ (8 * wordBytes st)
      (∀ d, classZero s.crew.env st n = some d →
        exec (.unassignedOpcode st w) s = .next { s with crew := s.crew.raise st (causeCode 0 d) (tvalWord st n) (s.crew.strm st).pc }) ∧
      (s.crew.offGrid st = true →
        exec (.offGridFetch st) s =
          .next { s with crew := s.crew.raise st (causeCode 0 7) (BitVec.ofNat 64 (s.crew.fetchAt st)) (s.crew.strm st).pc }))

/-! ## Scalar memory words, fences, blocks and tasks -/

/-- LD (R106, R107): ready, aligned and free of its class's side log, on a page that may be read it leaves its physical address in flight for
its destination and the stream goes on, memory as before; on a page that is out, or that denies the read, it is in flight too,
untranslated; a misaligned address traps with class-4 detail 0, a page that cannot be cured with class 3. That sr.tval holds the
misaligned address is the model's choice (log 43). -/
def Obligations.ScalarLoad : Prop :=
  ∀ (s : State) (d a : GReg) (oc : BitVec 4) (sc : BitVec 3) (size : BitVec 2) (sx : BitVec 1) (off : BitVec 4),
    let i : Instr := .ld d a oc sc size sx off
    let n := 2 ^ size.toNat
    let va := (s.crew.rdG a + BitVec.ofNat 64 (off.toNat * n)).toNat
    let tr := s.translate s.crew.agent s.crew.bindRec.asid va 1
    let flight := fun (x : Option (Nat × Att)) =>
      ({ s.crew with sres := s.crew.sres ++ [{ id := s.nextId, d := d, kind := .load (scalarElem va n x) (sx == 1) oc.toNat sc.toNat }] } :
        Crew).advance
    s.crew.readyScalar i [a] d = true →
    (va % n ≠ 0 → exec i s = .next { s with crew := s.crew.raise .s (causeCode 4 0) (BitVec.ofNat 64 va) s.crew.s.pc }) ∧
    (va % n = 0 → s.logged s.crew.agent s.crew.uid .s oc.toNat = false →
      (∀ pa att, tr = .ok pa att → ∃ t, exec i s = .next t ∧ t.crew = flight (some (pa, att)) ∧ t.mem = s.mem ∧ t.spad = s.spad ∧
        t.caddy = s.caddy ∧ t.writes = s.writes ∧ t.rest = s.rest) ∧
      ((tr = .miss ∨ ∃ r, tr = .denied r) → ∃ t, exec i s = .next t ∧ t.crew = flight none ∧ t.mem = s.mem ∧ t.spad = s.spad ∧ t.caddy = s.caddy) ∧
      (∀ r, tr = .now r → exec i s = .next { s with crew := s.crew.raise .s (causeCode 3 (8 + r)) (BitVec.ofNat 64 va) s.crew.s.pc }))

/-- ST (R106, R108): ready, aligned, its class with no entry in the side log and its page writable, it hands the low bytes of g[d] to the core's
buffer and the stream goes on; no memory changes before the write is performed. A misaligned one traps with class-4 detail 0 (that sr.tval holds the address is the
model's choice, log 43). -/
def Obligations.ScalarStore : Prop :=
  ∀ (s : State) (d a : GReg) (oc : BitVec 4) (sc : BitVec 3) (size : BitVec 2) (off : BitVec 4),
    let i : Instr := .st d a oc sc size off
    let n := 2 ^ size.toNat
    let va := (s.crew.rdG a + BitVec.ofNat 64 (off.toNat * n)).toNat
    s.crew.readyScalar i [a, d] 0 = true →
    (va % n ≠ 0 → exec i s = .next { s with crew := s.crew.raise .s (causeCode 4 0) (BitVec.ofNat 64 va) s.crew.s.pc }) ∧
    (∀ pa att, va % n = 0 → s.logged s.crew.agent s.crew.uid .s oc.toNat = false →
      s.translate s.crew.agent s.crew.bindRec.asid va 2 = .ok pa att →
      ∃ t, exec i s = .next t ∧ t.crew = s.crew.advance ∧
        t.writes = s.writes ++ [s.mkWrite .s s.nextId s.nextId 0 oc.toNat sc.toNat va pa (leBytes n ((s.crew.rdG d).toNat % 2 ^ (8 * n))) none
          .store att] ∧
        t.mem = s.mem ∧ t.spad = s.spad ∧ t.caddy = s.caddy ∧ t.rest = s.rest)

/-- The ten atomics by their aop (R68), and whether the old value is sign-extended (R109): ready, aligned, its class clear and its page
mapped with both rights, each leaves its operation in the core's buffer and its old value in flight; a misaligned one traps with class-4
detail 0 (that sr.tval holds the address is the model's choice, log 43).
R109, what an atomic computes on w-bit integers from M and X: the new value, and for cas Y where M matches and no write where not. -/
def Obligations.ScalarAtomics : Prop :=
  (
    ∀ (s : State) (d a : GReg) (oc : BitVec 4) (sc : BitVec 3) (z : BitVec 1) (x : Instr × Nat × Bool),
      x ∈ ([(.amoAdd d a oc sc z, 0, false), (.amoAnd d a oc sc z, 1, false), (.amoOr d a oc sc z, 2, false),
        (.amoXor d a oc sc z, 3, false), (.amoMinS d a oc sc z, 4, true), (.amoMaxS d a oc sc z, 5, true),
        (.amoMinN d a oc sc z, 6, false), (.amoMaxN d a oc sc z, 7, false), (.amoSwap d a oc sc z, 8, false),
        (.amoCas d a oc sc z, 9, false)] : List (Instr × Nat × Bool)) →
      let n := 4 * 2 ^ z.toNat
      let va := (s.crew.rdG a).toNat
      let v := fun (r : GReg) => (s.crew.rdG r).toNat % 2 ^ (8 * n)
      s.crew.readyScalar x.1 (if x.2.1 = 9 then [a, d, pairReg d] else [a, d]) d = true →
      (va % n ≠ 0 → exec x.1 s = .next { s with crew := s.crew.raise .s (causeCode 4 0) (BitVec.ofNat 64 va) s.crew.s.pc }) ∧
      (∀ pa att, va % n = 0 → s.logged s.crew.agent s.crew.uid .s oc.toNat = false → s.crew.classPending oc.toNat = false →
        s.translate s.crew.agent s.crew.bindRec.asid va 3 = .ok pa att →
        ∃ t, exec x.1 s = .next t ∧
          t.crew = ({ s.crew with sres := s.crew.sres ++ [{ id := s.nextId, d := d, kind := (SKind.atomic
            (scalarElem va n (some (pa, att))) x.2.2 oc.toNat sc.toNat x.2.1 3 (v d) (v (pairReg d)) none) }] } : Crew).advance ∧
          t.writes = s.writes ++ [s.mkWrite .s s.nextId s.nextId 0 oc.toNat sc.toNat va pa (leBytes n 0) none
            (.atomic x.2.1 3 (v d) (v (pairReg d))) att] ∧
          t.mem = s.mem ∧ t.spad = s.spad ∧ t.caddy = s.caddy)) ∧
  (
    ∀ (w m x y : Nat), 0 < w → m < 2 ^ w → x < 2 ^ w → y < 2 ^ w →
      let S := fun (v : Nat) => (BitVec.ofNat w v).toInt
      (atomicNew 0 3 w m x y).1 = some ((m + x) % 2 ^ w) ∧ (atomicNew 1 3 w m x y).1 = some (m &&& x) ∧
      (atomicNew 2 3 w m x y).1 = some (m ||| x) ∧ (atomicNew 3 3 w m x y).1 = some (m ^^^ x) ∧
      (∃ v, (atomicNew 4 3 w m x y).1 = some v ∧ (v = m ∨ v = x) ∧ S v = min (S m) (S x)) ∧
      (∃ v, (atomicNew 5 3 w m x y).1 = some v ∧ (v = m ∨ v = x) ∧ S v = max (S m) (S x)) ∧
      (atomicNew 6 3 w m x y).1 = some (min m x) ∧ (atomicNew 7 3 w m x y).1 = some (max m x) ∧
      (atomicNew 8 3 w m x y).1 = some x ∧ (atomicNew 9 3 w m x y).1 = (if m = x then some y else none) ∧
      (∀ aop, (atomicNew aop 3 w m x y).2 = 0))

/-- FENCE, EFENCE and BAR (R119, R121, R122): ready, FENCE waits while a covered write or read is outstanding and else completes, dropping
the core's lease lines at a scope of cluster or wider; EFENCE waits for writes alone; BAR traps with class-5 detail 5 beyond the
launch's declared scope, else releases as FENCE does, arrives, and completes once every participant has arrived; one that arrived before
a trap or a pre-emption and did not complete does not arrive again (R120). That BAR's trap has sr.tval 0 is the model's choice (log 43);
how arrivals are counted (log 40) and which writes and reads a scope waits for (log 41) are its readings. -/
def Obligations.FencesAndBarriers : Prop :=
  ∀ (s : State) (sc : BitVec 4) (cm : BitVec 16),
    let w := s.writesPending cm sc.toNat s.markS
    let r := s.readsPending cm sc.toNat s.markS
    let n := sc.toNat
    (s.crew.readyScalar (.fence sc cm) [] 0 = true →
      (w = false → r = false → exec (.fence sc cm) s = .next (s.fenceDone true n)) ∧
      (w = true ∨ r = true → exec (.fence sc cm) s = .next (s.blockS .s .fence))) ∧
    (∀ i ∈ ([.efenceCopy sc cm, .efenceColl sc cm, .efenceSolve sc cm, .efenceInfuse sc cm] : List Instr),
      s.crew.readyScalar i [] 0 = true → (w = false → exec i s = .next (s.fenceDone false n)) ∧
        (w = true → exec i s = .next (s.blockS .s .fence))) ∧
    (s.crew.readyScalar (.bar sc cm) [] 0 = true →
      let past := fun (t : State) (k : Nat) =>
        ({ t with crew := { t.crew with bars := t.crew.bars.filter (fun b => b.1 != t.crew.s.pc) } } : State).fenceDone true k
      (s.crew.barAt = none →
        (s.crew.kern.bar < n → exec (.bar sc cm) s = .next { s with crew := s.crew.raise .s (causeCode 5 5) 0 s.crew.s.pc }) ∧
        (n ≤ s.crew.kern.bar → w = true ∨ r = true → exec (.bar sc cm) s = .next (s.blockS .s .fence)) ∧
        (n ≤ s.crew.kern.bar → w = false → r = false →
          let x := s.arriveAt n
          (x.2.allArrived x.2.crew n x.1 = true → exec (.bar sc cm) s = .next (past x.2 n)) ∧
          (x.2.allArrived x.2.crew n x.1 = false → exec (.bar sc cm) s = .next (x.2.blockS .s (.barrier n x.1))))) ∧
      (∀ p k target, s.crew.barAt = some (p, k, target) →
        (s.allArrived s.crew k target = true → exec (.bar sc cm) s = .next (past s k)) ∧
        (s.allArrived s.crew k target = false → exec (.bar sc cm) s = .next (s.blockS .s (.barrier k target)))))

/-- What a completed fence leaves (R121, R305, R307): memory, the writes under way, every other crew and every core are as before, the stream
has gone on, and no lease line of the core is left where the scope is cluster or wider.
What a task word leaves but for the record TQPUT stores (R127, R128, R410): TQWAIT and TQTEST change nothing but their crew, and a TQPUT
that completes stores 16 bytes at the queue's tail: every byte outside them, and outside the write-record bytes of their frames, reads
as before. -/
def Obligations.FenceAndTaskFrame : Prop :=
  (
    ∀ (s : State) (leases : Bool) (sc : Nat),
      let t := s.fenceDone leases sc
      t.mem = s.mem ∧ t.spad = s.spad ∧ t.caddy = s.caddy ∧ t.writes = s.writes ∧ t.rest = s.rest ∧ t.cores = s.cores ∧
      t.crew = { s.crew.advance with seen := t.crew.seen } ∧
      (leases = true → 3 ≤ sc → ∀ l ∈ t.lines, ∀ k, l.state = .lease k → l.agent ≠ s.crew.agent)) ∧
  (
    ∀ (s t : State) (d a : GReg) (q : BitVec 4),
      (exec (.tqwait a) s = .next t → s.onlyCrew t) ∧ (exec (.tqtest d a) s = .next t → s.onlyCrew t) ∧
      (exec (.tqput d a q) s = .next t →
        let tq := SMap.get TaskQueue.reset (s.die s.crew.place.die).taskQueues q.toNat
        let slot := tq.base.toNat + 16 * tq.tail.toNat
        ∀ x, (x < slot ∨ slot + 16 ≤ x) → (∀ f ∈ framesOf slot 16, x ≠ recordByte s f) → t.mem.byte x = s.mem.byte x))

/-- REGACQ and REGREL (R124, R125): ready and holding none, REGACQ joins the line of the crews that wait for blocks, at its end unless it
stands there already; first in line with n blocks free, it takes them and leaves the line and their registers read as zero, and else it
waits; holding some it traps with class-1 detail 4 (its sr.tval of 0 is the model's choice, log 43); REGREL of none does nothing, and of
blocks no write or lock keeps returns them all. -/
def Obligations.RegisterBlocks : Prop :=
  ∀ (s : State) (n : BitVec 3),
    let k := s.crew.agent
    (s.crew.readyScalar (.regacq n) [] 0 = true →
      (s.crew.ext ≠ 0 → exec (.regacq n) s = .next { s with crew := s.crew.raise .s (causeCode 1 4) 0 s.crew.s.pc }) ∧
      (s.crew.ext = 0 →
        let u := s.crew.uid
        let waits := fun (x : Nat) => match s.findCrew x with
          | some y => y.s.wait == .pool
          | none => false
        let live := (s.core k).poolWait.filter (fun x => waits x.1 && (x.1 != u || x.2 == n.toNat))
        let line := if live.any (fun x => x.1 == u) then live else live ++ [(u, n.toNat)]
        (∀ rest, line = (u, n.toNat) :: rest → n.toNat ≤ (s.core k).poolFree →
          ∃ t, exec (.regacq n) s = .next t ∧ t.crew = ({ s.crew.clearExt with ext := n.toNat } : Crew).advance ∧
            (t.core k).poolFree = (s.core k).poolFree - n.toNat ∧ (t.core k).poolWait = rest ∧
            (∀ r j, 128 ≤ r → r < 640 → j < 32 → t.crew.lane r j = 0) ∧ (∀ r j, r < 128 → j < 32 → t.crew.lane r j = s.crew.lane r j)) ∧
        ((∀ rest, line = (u, n.toNat) :: rest → (s.core k).poolFree < n.toNat) →
          exec (.regacq n) s = .next ((s.setCore k { s.core k with poolWait := line }).blockS .s .pool)))) ∧
    (s.crew.readyScalar .regrel [] 0 = true →
      (s.crew.ext = 0 → exec .regrel s = .next { s with crew := s.crew.advance }) ∧
      (s.crew.ext ≠ 0 → s.crew.extBusy = false →
        ∃ t, exec .regrel s = .next t ∧ t.crew = ({ s.crew.clearExt with ext := 0 } : Crew).advance ∧
          (t.core k).poolFree = (s.core k).poolFree + s.crew.ext))

/-- Task words and DRAIN (R123, R127, R128, R407): TQPUT into an open queue with room, with a fence free, completes: the record and the handle
stand at the tail, the tail moves on and g[d] holds the handle; a queue that is not open traps with class-5 detail 2, a full one waits,
and so does one with no fence free.
TQWAIT completes once the fence that its handle names has signalled, traps with class-5 detail 4 where it has failed, and waits else;
TQTEST completes with 1 or 0 in g[d]; both trap with class-5 detail 3 where the handle names no fence of the ASID's. DRAIN completes once
no copy into the memory is left. That sr.tval is 0 in these traps is the model's choice (log 43). -/
def Obligations.TaskWords : Prop :=
  ∀ (s : State) (d a : GReg) (q : BitVec 4) (path : BitVec 3),
    let c := s.crew
    let tq := SMap.get TaskQueue.reset (s.die c.place.die).taskQueues q.toNat
    let slot := tq.base.toNat + 16 * tq.tail.toNat
    let no := { s with crew := c.raise .s (causeCode 5 3) 0 c.s.pc }
    (c.readyScalar (.tqput d a q) [a] d = true →
      (tq.open_ c.bindRec.asid = false → exec (.tqput d a q) s = .next { s with crew := c.raise .s (causeCode 5 2) 0 c.s.pc }) ∧
      (∀ n s1, tq.open_ c.bindRec.asid = true → (tq.tail.toNat + 1) % tq.slots ≠ tq.head.toNat → s.homesFree slot 16 = true →
        s.newFence c.place.die c.bindRec.asid c.launch = some (n, s1) →
        let h := fenceHandle c.place.die n c.bindRec.asid
        ∃ t, exec (.tqput d a q) s = .next t ∧ t.crew = (c.wrG d h).advance ∧
          (∀ i, i < 16 → t.mem.byte (slot + i) = (leBytes 8 (c.rdG a).toNat ++ leBytes 8 h.toNat).getD i 0) ∧
          SMap.get TaskQueue.reset (t.die c.place.die).taskQueues q.toNat =
            { tq with tail := BitVec.ofNat 16 ((tq.tail.toNat + 1) % tq.slots) }) ∧
      (tq.open_ c.bindRec.asid = true → ((tq.tail.toNat + 1) % tq.slots = tq.head.toNat ∨ s.homesFree slot 16 = false) →
        exec (.tqput d a q) s = .next (s.blockS .s .other)) ∧
      (tq.open_ c.bindRec.asid = true → s.newFence c.place.die c.bindRec.asid c.launch = none →
        exec (.tqput d a q) s = .next (s.blockS .s .other))) ∧
    (c.readyScalar (.tqwait a) [a] 0 = true →
      (∀ f, s.fenceOf c.bindRec.asid (c.rdG a) = some f →
        (f.state = 1 → exec (.tqwait a) s = .next { s with crew := c.advance }) ∧
        (f.state = 2 → exec (.tqwait a) s = .next { s with crew := c.raise .s (causeCode 5 4) 0 c.s.pc }) ∧
        (f.state = 0 → exec (.tqwait a) s = .next (s.blockS .s .other))) ∧
      (s.fenceOf c.bindRec.asid (c.rdG a) = none → exec (.tqwait a) s = .next no)) ∧
    (c.readyScalar (.tqtest d a) [a] d = true →
      (∀ f, s.fenceOf c.bindRec.asid (c.rdG a) = some f →
        exec (.tqtest d a) s = .next (s.wrote d (if f.state = 1 ∨ f.state = 2 then 1 else 0))) ∧
      (s.fenceOf c.bindRec.asid (c.rdG a) = none → exec (.tqtest d a) s = .next no)) ∧
    (c.readyScalar (.drain path) [] 0 = true →
      (s.copiesInto c.agent path.toNat s.markS = false → exec (.drain path) s = .next { s with crew := c.advance }) ∧
      (s.copiesInto c.agent path.toNat s.markS = true → exec (.drain path) s = .next (s.blockS .s .other)))

/-! ## Vector words on lanes -/

/-- Lane arithmetic, elementary functions and conversion (R138, R139, R141, R142, R60, R61): ready, each opens a window of its latency bound
in which every active lane of every register of its group takes the function of its source lanes. VMIN and VMAX do not saturate (R139;
that their integer result is taken modulo 2^32 is the model's reading, log 105).
Lane words on bits, selects, moves and permutes (R140, R147, R150): ready, each opens a window in which every active lane takes the
function of 32-bit patterns; a permute takes its lane of a from the lane it names. -/
def Obligations.VectorWords : Prop :=
  (
    ∀ (f : VArith) (g : VCvtF),
      let lat := fun (n : Nat) => if isFpTy f.ty then 6 else n
      let a := laneUse f.h f.d [f.a] false
      let ab := laneUse f.h f.d [f.a, f.b] false
      let abd := laneUse f.h f.d [f.a, f.b] true
      let fn := fun (op : Nat → Nat → Nat × Flags) => laneEff f.h f.d (funcLane f op)
      AnswersV (.vadd f) f.h ab (lat 4) (laneEff f.h f.d (arithLane f true false (fun t m x y _ => t.add m x y) (fun x y _ => x + y))) ∧
      AnswersV (.vsub f) f.h ab (lat 4) (laneEff f.h f.d (arithLane f true false (fun t m x y _ => t.sub m x y) (fun x y _ => x - y))) ∧
      AnswersV (.vmul f) f.h ab 6 (laneEff f.h f.d (arithLane f true false (fun t m x y _ => t.mul m x y) (fun x y _ => x * y))) ∧
      AnswersV (.vfma f) f.h abd 6 (laneEff f.h f.d (arithLane f true true (fun t m x y z => t.fma m x y z) (fun x y z => x * y + z))) ∧
      AnswersV (.vmin f) f.h ab (lat 4)
        (laneEff f.h f.d (arithLane { f with sat := 0 } true false (fun t _ x y _ => t.minMax false x y) (fun x y _ => min x y))) ∧
      AnswersV (.vmax f) f.h ab (lat 4)
        (laneEff f.h f.d (arithLane { f with sat := 0 } true false (fun t _ x y _ => t.minMax true x y) (fun x y _ => max x y))) ∧
      AnswersV (.vabs f) f.h a (lat 4)
        (laneEff f.h f.d (arithLane f false false (fun t _ x _ _ => (t.signOp false x, 0)) (fun x _ _ => (x.natAbs : Int)))) ∧
      AnswersV (.vneg f) f.h a (lat 4)
        (laneEff f.h f.d (arithLane f false false (fun t _ x _ _ => (t.signOp true x, 0)) (fun x _ _ => -x))) ∧
      AnswersV (.vmulh f) f.h ab 6 (laneEff f.h f.d (arithLane f true false (fun _ _ _ _ _ => (0, 0)) (fun x y _ => x * y / 2 ^ 32))) ∧
      AnswersV (.vmad f) f.h abd 6 (laneEff f.h f.d (arithLane f true true (fun _ _ _ _ _ => (0, 0)) (fun x y z => x * y + z))) ∧
      AnswersV (.vrcp f) f.h a 16 (fn rcpF32) ∧ AnswersV (.vrsqrt f) f.h a 16 (fn rsqrtF32) ∧ AnswersV (.vsqrt f) f.h a 16 (fn sqrtF32) ∧
      AnswersV (.vexp2 f) f.h a 20 (fn exp2F32) ∧ AnswersV (.vlog2 f) f.h a 20 (fn log2F32) ∧
      AnswersV (.vsinpi f) f.h a 24 (fn sinpiF32) ∧ AnswersV (.vcospi f) f.h a 24 (fn cospiF32) ∧
      AnswersV (.vcvt g) g.h (laneUse g.h g.d [g.a] false) 6 (laneEff g.h g.d (cvtLane g))) ∧
  (
    ∀ f : VImm,
      let a := laneUse f.h f.d [f.a] false
      let ab := laneUse f.h f.d [f.a, f.b] false
      let bits := fun (two readsD : Bool) (op : Lane → Lane → Lane → Nat → Lane) => laneEff f.h f.d (bitLane f two readsD op)
      AnswersV (.vshl f) f.h a 4 (bits false false (fun x _ _ n => x <<< n)) ∧
      AnswersV (.vshr f) f.h a 4 (bits false false (fun x _ _ n => if f.ty = 3 then x.sshiftRight n else x >>> n)) ∧
      AnswersV (.vrot f) f.h a 4 (bits false false (fun x _ _ n => x.rotateLeft n)) ∧
      AnswersV (.vand f) f.h ab 4 (bits true false (fun x y _ _ => x &&& y)) ∧
      AnswersV (.vor f) f.h ab 4 (bits true false (fun x y _ _ => x ||| y)) ∧
      AnswersV (.vxor f) f.h ab 4 (bits true false (fun x y _ _ => x ^^^ y)) ∧
      AnswersV (.vandn f) f.h ab 4 (bits true false (fun x y _ _ => x &&& ~~~y)) ∧
      AnswersV (.vclz f) f.h a 4 (bits false false (fun x _ _ _ => BitVec.ofNat 32 (clzNat 32 x.toNat))) ∧
      AnswersV (.vpopc f) f.h a 4 (bits false false (fun x _ _ _ => BitVec.ofNat 32 (popNat 32 x.toNat))) ∧
      AnswersV (.vbilvTwo f) f.h ab 4
        (bits true false (fun x y _ _ => BitVec.ofNat 32 (spread 2 16 x.toNat + 2 * spread 2 16 y.toNat))) ∧
      AnswersV (.vbilvThree f) f.h (laneUse f.h f.d [f.a, f.b] true) 4
        (bits true true (fun x y z _ => BitVec.ofNat 32 (spread 3 10 x.toNat + 2 * spread 3 10 y.toNat + 4 * spread 3 10 z.toNat))) ∧
      AnswersV (.vmov f) f.h a 4 (bits false false (fun x _ _ _ => x)) ∧
      AnswersV (.vsel f) f.h ab 4 (laneEff f.h f.d (selLane f)) ∧
      AnswersV (.vshuf f) f.h ab 8 (laneEff f.h f.d (permLane f (fun c n k j => (c.src (n + 1) f.b k j).toNat % 32))) ∧
      AnswersV (.vrotl f) f.h a 8 (laneEff f.h f.d (permLane f (fun _ _ _ j => (j + f.imm.toNat) % 32))) ∧
      AnswersV (.vbcast f) f.h a 8 (laneEff f.h f.d (permLane f (fun _ _ _ _ => f.imm.toNat))))

/-- Compares, masks and reductions (R143-R146, R151): ready, each completes: vcmp, vmlog.and, vmlog.or, vmlog.xor, vmlog.andn, vmlog.not,
vmlog.mov, vmpop, vsig, vtos, vred.add, vred.min and vred.max answer the next state in which a window stands open for the masks, the
shared scalar, the flag or the lanes that the word writes; a reduction combines the active lanes by the pairwise tree. -/
def Obligations.VectorMasks : Prop :=
  ∀ (s : State) (f : VImm) (g : VCmpF),
    let done := fun (i : Instr) (h : VHdr) (use : VUse) (lat : Nat) (eff : Crew → Nat → VEff) =>
      s.settled.openWindow h use lat (raisesFlags i) (eff s.settled.crew s.settled.free)
    let red := laneUse f.h f.d [f.a] false
    (s.readyVector (.vcmp g) g.h (cmpUse g) none = true → exec (.vcmp g) s = .next (done (.vcmp g) g.h (cmpUse g) 4 (cmpEff g))) ∧
    (∀ x ∈ ([(.vmlogAnd f, true, fun a b => a &&& b), (.vmlogOr f, true, fun a b => a ||| b), (.vmlogXor f, true, fun a b => a ^^^ b),
        (.vmlogAndn f, true, fun a b => a &&& ~~~b), (.vmlogNot f, false, fun a _ => ~~~a), (.vmlogMov f, false, fun a _ => a)] :
        List (Instr × Bool × (Lane → Lane → Lane))),
      s.readyVector x.1 f.h (mlogUse f) none = true →
        exec x.1 s = .next (done x.1 f.h (mlogUse f) 4 (mlogEff f x.2.1 x.2.2))) ∧
    (s.readyVector (.vmpop f) f.h (postUse [] (some f.d)) none = true →
      exec (.vmpop f) s = .next (done (.vmpop f) f.h (postUse [] (some f.d)) 8 (mpopEff f))) ∧
    (s.readyVector (.vsig f) f.h (postUse [] none) none = true →
      exec (.vsig f) s = .next (done (.vsig f) f.h (postUse [] none) 8 (sigEff f))) ∧
    (s.readyVector (.vtos f) f.h (postUse [f.a] (some f.d)) none = true →
      exec (.vtos f) s = .next (done (.vtos f) f.h (postUse [f.a] (some f.d)) 8 (tosEff f))) ∧
    (∀ x ∈ ([(.vredAdd f, fun a b =>
          if f.ty = 9 then (BitVec.ofNat 32 (fmtF32.add 0 a.toNat b.toNat).1, (fmtF32.add 0 a.toNat b.toNat).2) else (a + b, 0)),
        (.vredMin f, laneMinMax f.ty false), (.vredMax f, laneMinMax f.ty true)] : List (Instr × (Lane → Lane → Lane × Flags))),
      s.readyVector x.1 f.h red none = true → exec x.1 s = .next (done x.1 f.h red 12 (redEff f x.2)))

/-- R133 and R139, THE LANE RULE: a group word writes the result to every active lane of every register of its group and zero to an inactive
lane under mmode zero, and no other lane; flags come from active lanes alone; an inactive mask bit is kept under merge and zero under
zero; the integer result is e mod 2^32, or e clamped to the range of s32 or n32 where sat is 1. -/
def Obligations.LaneRule : Prop :=
  (∀ (h : VHdr) (act : Lane) (d : VOpd) (val : Nat → Nat → Lane × Flags),
    let r := groupLanes h act d val
    (∀ key x, (key, x) ∈ r.1 ↔ ∃ i j, i ≤ h.grp.toNat ∧ j < 32 ∧ key = 32 * opReg d i + j ∧
      ((act.getLsbD j = true ∧ x = (val i j).1) ∨ (act.getLsbD j = false ∧ h.mmode = 2 ∧ x = 0))) ∧
    (∀ b, r.2.getLsbD b = true ↔ ∃ i j, i ≤ h.grp.toNat ∧ j < 32 ∧ act.getLsbD j = true ∧ (val i j).2.getLsbD b = true)) ∧
  (∀ (h : VHdr) (act old val : Lane) (j : Nat), (maskResult h act old val).getLsbD j =
    if act.getLsbD j then val.getLsbD j else decide (h.mmode = 1) && old.getLsbD j) ∧
  (∀ (ty : BitVec 5) (e : Int), ty = 3 ∨ ty = 7 →
    laneClip ty false e = BitVec.ofInt 32 e ∧
    laneInt ty (laneClip ty true e) = (if ty = 3 then max (-2 ^ 31) (min (2 ^ 31 - 1) e) else max 0 (min (2 ^ 32 - 1) e)))

/-- A window opens and lands (R88): the issue of a word with a latency bound changes no lane but those of its destinations, no tile, scalar,
flag or memory; when the result lands, its lanes, masks, scalar and flag hold it, a register that it writes whole is poisoned no more
(R264), the flags are ORed in, one that was enabled when the word issued (R48) becomes the stream's pending trap or is kept behind one,
with the word's token, which else goes down; every other lane, mask, scalar, flag, poison and token and all else is as before. That a word
moves the window clock by 1 + gap is the model's reading (log 37). -/
def Obligations.WindowLands : Prop :=
  (∀ (s : State) (h : VHdr) (use : VUse) (lat : Nat) (mayFlag : Bool) (e : VEff),
    let t := s.openWindow h use lat mayFlag e
    t = { s with crew := t.crew, nextId := s.nextId + 1, free := s.free + freeStep } ∧
    t.crew.vwin = s.crew.vwin ++ [e.window s.crew s.nextId use lat mayFlag] ∧ t.crew.vclock = s.crew.vclock + 1 + h.gap.toNat ∧
    t.crew.v.pc = s.crew.v.pc + 1 ∧ t.crew.v.gap = h.gap.toNat ∧
    (∀ r j, j < 32 → r ∉ use.dregs → t.crew.lane r j = s.crew.lane r j) ∧
    t.crew = { s.crew with vwin := t.crew.vwin, vclock := t.crew.vclock, v := t.crew.v, vreg := t.crew.vreg, mask := t.crew.mask,
                           spoilV := t.crew.spoilV, spoilM := t.crew.spoilM }) ∧
  (∀ (c : Crew) (w : VWin),
    let t := c.landWin w
    ((w.lanes.map Prod.fst).Nodup → ∀ x ∈ w.lanes, SMap.get 0 t.vreg x.1 = x.2) ∧
    (∀ k, k ∉ w.lanes.map Prod.fst → SMap.get 0 t.vreg k = SMap.get 0 c.vreg k) ∧
    ((w.masks.map Prod.fst).Nodup → ∀ x ∈ w.masks, x.1 ≠ 0 → t.maskOf x.1 = x.2) ∧
    (∀ m, m ∉ w.masks.map Prod.fst → t.maskOf m = c.maskOf m) ∧
    (∀ r v, w.shared = some (r, v) → r ≠ 0 → t.rdG r = v ∧ t.gEmpty r = false) ∧
    (∀ r, (∀ v, w.shared ≠ some (r, v)) → t.rdG r = c.rdG r ∧ t.gEmpty r = c.gEmpty r) ∧
    (∀ r, (∀ v, w.shared ≠ some (r, v)) → SMap.get 0 t.poisonG r.toNat = SMap.get 0 c.poisonG r.toNat) ∧
    (∀ f b, w.flag = some (f, b) → t.flagVal f = b ∧ t.flagFull f = true ∧
      ∀ y, y ≠ f → t.flagVal y = c.flagVal y ∧ t.flagFull y = c.flagFull y) ∧
    (w.flag = none → t.cVal = c.cVal ∧ t.cFull = c.cFull) ∧
    t.fcsr = fcsrOr c.fcsr w.flags ∧ t.vwin = c.vwin.filter (fun x => x.id != w.id) ∧
    (let low := c.lowerTok? w.tok
     (enabledDetail w.en w.flags = none → t.v = c.v ∧ t.tok = low.tok) ∧
     (∀ d, enabledDetail w.en w.flags = some d →
       let p : Pend := ⟨causeCode 2 d, w.pc.zeroExtend 64⟩
       (c.v.pend = none → t.v = { c.v with pend := some p } ∧ t.tok = low.tok) ∧
       (∀ q, c.v.pend = some q → t.v = { c.v with kept := c.v.kept ++ [(p, w.tok)] } ∧ t.tok = c.tok))) ∧
    (∀ r, (r ∈ w.regs ∧ ∀ j, j < 32 → 32 * r + j ∈ w.lanes.map Prod.fst) → SMap.get 0 t.poisonV r = 0) ∧
    (∀ r, ¬ (r ∈ w.regs ∧ ∀ j, j < 32 → 32 * r + j ∈ w.lanes.map Prod.fst) → SMap.get 0 t.poisonV r = SMap.get 0 c.poisonV r) ∧
    t = { c with vwin := t.vwin, vreg := t.vreg, mask := t.mask, g := t.g, gFull := t.gFull, poisonG := t.poisonG, poisonV := t.poisonV,
                 cVal := t.cVal, cFull := t.cFull, fcsr := t.fcsr, v := t.v, tok := t.tok }) ∧
  (∀ (s t : State) (u : Nat) (w : VWin), s.front u t → t.crew.vwin.head? = some w →
    (t.crew.dqWaits w = false → exec (.vectorResultLand u w.id) s = .next { t with crew := t.crew.landWin w }) ∧
    (t.crew.dqWaits w = true → exec (.vectorResultLand u w.id) s = .next t))

/-! ## Vector memory words and messages -/

/-- Vector loads (R152-R155, R159): ready, a load whose elements are all aligned, placed and mapped is in flight with its token raised, on
paths 4 and 5 to land within 12 slots, once no earlier access of its class is pending (R157, R304; that it waits unissued, and lands by
slot 12 or earlier, is the model's reading, log 75); the first element that fails its checks traps, nothing issued. That sr.tval of VLDS's
class-4 detail 2 is an element's address is the model's reading too (log 76). A load of a data queue that holds its entries pops them. -/
def Obligations.VectorLoads : Prop :=
  ∀ (s : State) (f : VMemF),
    let t := s.settled
    let c := t.crew
    let act := c.activeLanes (t.free + 50000) f.h
    let es := eltBytes f.ty.toNat
    let regs := opRegs f.d f.h.grp.toNat
    let n := f.h.grp.toNat + 1
    (∀ x ∈ ([(.vld f, .linear), (.vldx f, .strided), (.vgath f, .offsets)] : List (Instr × Shape)),
      s.readyVector x.1 f.h (loadUse f x.2) (some f.tok) = true →
      let placed := t.elemList c f.path.toNat (f.ty == 0) es (c.cells t.free f x.2 es act)
      let after := fun (el : List Elem) => t.fresh.2.issueV f.h
        { c.mkWord t.nextId f (raisesFlags x.1) .load el regs (zeroKeys f act) with
          closes := if f.path = 4 ∨ f.path = 5 then some (c.vclock + 12) else none }
      (∀ k d a, placed = .inr (k, d, a) → exec x.1 s = .next (t.trapW .v k d (BitVec.ofNat 64 a))) ∧
      let waits := c.vPending f.oc.toNat || t.readWaits c .v f.oc.toNat t.nextId 0
      (∀ el, placed = .inl el → f.path ≠ 0 → (f.path = 4 ∨ f.path = 5 → waits = false) → exec x.1 s = .next (after el)) ∧
      (∀ el, placed = .inl el → (f.path = 4 ∨ f.path = 5) → waits = true → exec x.1 s = .next (t.blockS .v .result)) ∧
      (∀ el, placed = .inl el → f.path = 0 → t.logged c.agent c.uid .v f.oc.toNat = false → (t.mapElems 4 el).whole →
        exec x.1 s = .next (after (t.mapElems 4 el).ok))) ∧
    (s.readyVector (.vlds f) f.h (loadUse f .linear) (some f.tok) = true → t.logged c.agent c.uid .v f.oc.toNat = false →
      ∀ pa att, t.translate c.agent c.bindRec.asid (c.base f.a).toNat 4 = .ok pa att →
        (srcType att.etype = none → exec (.vlds f) s = .next (t.trapW .v 4 2 (c.base f.a))) ∧
        (∀ src el, srcType att.etype = some src →
          t.elemList c 0 false (srcBytes att.etype) ((List.range n).flatMap (fun i => (lanesOf act).map (fun j =>
            ({ key := 32 * opReg f.d i + j, lane := j, a := ((c.base f.a).toNat + (32 * i + j) * srcBytes att.etype) % 2 ^ 64, data := 0,
               data2 := 0 } : Cell)))) = .inl el →
          (t.mapElems 4 el).whole → (∀ e ∈ (t.mapElems 4 el).ok, e.att.etype = att.etype) →
          exec (.vlds f) s = .next (t.fresh.2.issueV f.h (c.mkWord t.nextId f false .subscribe (t.mapElems 4 el).ok regs (zeroKeys f act))))) ∧
    (s.readyVector (.vldDq f) f.h (dqUse f) (some f.tok) = true →
      let q := f.sub.toNat % 4
      (n ≤ (c.dqHeld q).length → exec (.vldDq f) s = .next (t.popDq f q n)) ∧
      ((c.dqHeld q).length < n → exec (.vldDq f) s = .next (t.blockS .v (.queue q n false))))

/-- Vector stores, atomics and copies (R153, R156, R158, R160): ready, a word on a local path is in flight; on path 0, with its elements
mapped, its class free and no log entry, the write of every element that no later lane overwrites goes to the core's buffer, and so does
every lane's operation of an atomic; VCP16 reads global memory; a store into a data queue with room adds its entries. No memory changes at
issue; a scratchpad that the word is to write is its ASID's from then on (R272). -/
def Obligations.VectorStores : Prop :=
  ∀ (s : State) (f : VMemF),
    let t := s.settled
    let c := t.crew
    let act := c.activeLanes (t.free + 50000) f.h
    let es := eltBytes f.ty.toNat
    let n := f.h.grp.toNat + 1
    let clear := c.vPending f.oc.toNat = false ∧ t.logged c.agent c.uid .v f.oc.toNat = false ∧ t.logUse c.agent ≤ 256
    let zeros := if isNr f then [] else zeroKeys f act
    (∀ x ∈ ([(.vst f, .linear), (.vstx f, .strided), (.vscat f, .offsets)] : List (Instr × Shape)),
      s.readyVector x.1 f.h (storeUse (storeSrcs f x.2)) (some f.tok) = true →
      ∀ el, t.elemList c f.path.toNat (f.ty == 0) es (c.cells t.free f x.2 es act) = .inl el →
        (f.path ≠ 0 → exec x.1 s = .next ((t.fresh.2.claims el).issueV f.h (c.mkWord t.nextId f false .store el [] []))) ∧
        (f.path = 0 → clear → (t.mapElems 5 el).whole →
          exec x.1 s = .next (t.putWord f false .store (fun _ => .store) (fun e => storeBytes f.ty.toNat e.data) [] []
            (lastLanes Elem.addr (t.mapElems 5 el).ok) (t.mapElems 5 el).ok))) ∧
    (∀ x ∈ ([(.vatomAdd f, 0), (.vatomAnd f, 1), (.vatomOr f, 2), (.vatomXor f, 3), (.vatomMinS f, 4), (.vatomMaxS f, 5),
        (.vatomMinN f, 6), (.vatomMaxN f, 7), (.vatomSwap f, 8), (.vatomCas f, 9)] : List (Instr × Nat)),
      s.readyVector x.1 f.h (atomUse f x.2) (some f.tok) = true →
      ∀ el, t.elemList c f.path.toNat false 4 (c.cells t.free f .offsets 4 act) = .inl el →
        (f.path ≠ 0 → exec x.1 s = .next ((t.fresh.2.claims el).issueV f.h
          (c.mkWord t.nextId f (raisesFlags x.1) (.atomic x.2 (isNr f)) el (atomRegs f) zeros))) ∧
        (f.path = 0 → clear → (t.mapElems 3 el).whole →
          exec x.1 s = .next (t.putWord f (raisesFlags x.1) (.atomic x.2 (isNr f))
            (fun e => .atomic x.2 f.ty.toNat e.data.toNat e.data2.toNat) (fun _ => leBytes 4 0) (atomRegs f) zeros
            (t.mapElems 3 el).ok (t.mapElems 3 el).ok))) ∧
    (s.readyVector (.vcp16 f) f.h (storeUse [f.a, f.b, f.d]) (some f.tok) = true → t.logged c.agent c.uid .v f.oc.toNat = false →
      ∀ el, t.copyPlaces c f.path.toNat ((List.range n).flatMap (fun i => (lanesOf act).map (fun j =>
          let va := ((((c.base f.a).toNat : Int) + (c.src (t.free + 1024 * i + 32 * j) f.b i j).toInt) % 2 ^ 64).toNat
          (({ key := 0, space := .phys, va := va, addr := va, len := 16, nib := none, att := Att.plain, tr := false, data := 0, data2 := 0,
              space2 := .phys, addr2 := 0 } : Elem), j, (c.src (t.free + 1024 * i + 32 * j + 1) f.d i j).toNat)))) = .inl el →
        (t.mapElems 4 el).whole →
        exec (.vcp16 f) s = .next ((t.fresh.2.claims (t.mapElems 4 el).ok).issueV f.h
          (c.mkWord t.nextId f false .copy16 (t.mapElems 4 el).ok [] []))) ∧
    (s.readyVector (.vstDq f) f.h (storeUse [f.d]) (some f.tok) = true →
      let q := f.sub.toNat % 4
      ((c.dq.getD q []).length + n ≤ 16 → exec (.vstDq f) s = .next (t.pushDq f q n)) ∧
      (16 < (c.dq.getD q []).length + n → exec (.vstDq f) s = .next (t.blockS .v (.queue q n true)))) ∧
    (∀ (v : VWord), let r := t.issueV f.h v
      r.mem = t.mem ∧ r.spad = t.spad ∧ r.caddy = t.caddy ∧ r.writes = t.writes ∧ r.crew.tokCount v.tok = c.tokCount v.tok + 1)

/-- What a local vector word does when it performs (R155, R156, R158, R304): with no earlier word of its class before it and no older
write of its class to wait for, a store writes its elements' bytes and nothing else (they read back where no later element of the word
overwrites them, and no other byte of a scratchpad, a caddy or memory changes), an atomic writes the new and takes the old values, lane by
lane, and a load takes its lanes; the word's token goes down by one, unless the load's flag trap is kept behind a pending one. That all
lanes of a word act at one moment is the model's reading (log 76), and so is that a scratchpad which another ASID has taken since keeps
its bytes (log 127). -/
def Obligations.VectorWordPerforms : Prop :=
  ∀ (s t : State) (u id : Nat) (v : VWord), s.front u t → t.crew.vwords.find? (fun x => x.id == id) = some v →
    v.elems.any (fun e => e.space == .phys) = false → t.crew.behindWord v = false → t.readWaits t.crew .v v.oc id 0 = false →
    (v.kind = .store →
      exec (.vectorWordComplete u id) s = .next { t.storeLocal v.ty v.elems with crew := t.crew.landWord v [] 0 false } ∧
      (t.storeLocal v.ty v.elems).mem = t.mem ∧
      (∀ x, (∀ e ∈ v.elems, ∀ core, e.space = .spad core →
          x < core * 2 ^ 20 + e.addr ∨ core * 2 ^ 20 + e.addr + max 1 (storeBytes v.ty e.data).length ≤ x) →
        (t.storeLocal v.ty v.elems).spad.byte x = t.spad.byte x) ∧
      (∀ x, (∀ e ∈ v.elems, ∀ die, e.space = .caddy die →
          x < die * 2 ^ 29 + e.addr ∨ die * 2 ^ 29 + e.addr + max 1 (storeBytes v.ty e.data).length ≤ x) →
        (t.storeLocal v.ty v.elems).caddyBytes x 1 = t.caddyBytes x 1) ∧
      (∀ pre e post, v.elems = pre ++ e :: post → e.nib = none → t.lost t.crew.bindRec.asid e.space = false →
        (∀ y ∈ post, e.clearOf v.ty y) →
        (t.storeLocal v.ty v.elems).space e.space e.addr (storeBytes v.ty e.data).length = storeBytes v.ty e.data) ∧
      (∀ pre e post h, v.elems = pre ++ e :: post → e.nib = some h → t.lost t.crew.bindRec.asid e.space = false →
        (∀ y ∈ post, e.clearOf v.ty y ∨ (y.space = e.space ∧ y.addr = e.addr ∧ y.nib = some (!h))) →
        leNat ((t.storeLocal v.ty v.elems).space e.space e.addr 1) / (if h then 16 else 1) % 16 = leNat (storeBytes v.ty e.data) % 16) ∧
      (t.crew.landWord v [] 0 false).tokCount v.tok = t.crew.tokCount v.tok - 1) ∧
    (∀ aop nr, v.kind = .atomic aop nr →
      let r := t.atomLocal aop v.ty v.elems
      exec (.vectorWordComplete u id) s = .next { r.2.2 with
        crew := t.crew.landWord v (if nr then [] else v.zeros.map (fun k => (k, 0)) ++ r.1) r.2.1 false } ∧
      (t.crew.landWord v (if nr then [] else v.zeros.map (fun k => (k, 0)) ++ r.1) r.2.1 false).tokCount v.tok =
        t.crew.tokCount v.tok - 1) ∧
    (v.kind = .load →
      let f := (loadLanes v (v.elems.map (fun e => t.localBytes e.space e.addr e.len))).2
      exec (.vectorWordComplete u id) s = .next (t.landLocal v) ∧
      (enabledDetail v.en f = none ∨ t.crew.v.pend = none → (t.landLocal v).crew.tokCount v.tok = t.crew.tokCount v.tok - 1) ∧
      (∀ d q, enabledDetail v.en f = some d → t.crew.v.pend = some q → (t.landLocal v).crew.tokCount v.tok = t.crew.tokCount v.tok))

/-- Graphics messages (R161-R165): ready, with its texture, sampler, structure or target present, a message is in flight with its token raised
and its destinations undefined; with one of them absent it traps with class 5. When it has its results its lanes hold them and its
token goes down; a PEXP whose targets can be reached hands its exports to the blend unit and its token goes down. That sr.tval is 0 in the
class-5 traps is the model's choice (log 43). -/
def Obligations.GraphicsMessages : Prop :=
  ∀ (s : State) (f : VGfx),
    let t := s.settled
    let k := t.crew.kern
    let b := if f.desc.getLsbD 4 then some f.b else none
    (s.readyVector (.tex f) f.h (messageUse f 2 (some f.b) 4) (some f.tok) = true →
      let here := (k.texture 1 (f.desc.toNat / 16)).isSome && (k.sampler (f.desc.toNat % 16)).isSome
      (here = true → exec (.tex f) s = .next (t.sendMessage (.tex f) f 2 (some f.b) 4)) ∧
      (here = false → exec (.tex f) s = .next (t.trapW .v 5 7 0))) ∧
    (s.readyVector (.tex3 f) f.h (messageUse f 3 none 1) (some f.tok) = true →
      let here := (k.texture 2 (f.desc.toNat / 16)).isSome && (k.sampler (f.desc.toNat % 16)).isSome
      (here = true → exec (.tex3 f) s = .next (t.sendMessage (.tex3 f) f 3 none 1)) ∧
      (here = false → exec (.tex3 f) s = .next (t.trapW .v 5 7 0))) ∧
    (s.readyVector (.rayq f) f.h (messageUse f 8 none 4) (some f.tok) = true →
      let here := (k.structure_ (f.desc.toNat / 16)).isSome
      (here = true → exec (.rayq f) s = .next (t.sendMessage (.rayq f) f 8 none 4)) ∧
      (here = false → exec (.rayq f) s = .next (t.trapW .v 5 7 0))) ∧
    (s.readyVector (.pexp f) f.h (messageUse f 4 b 0) (some f.tok) = true →
      (t.crew.raster = none → exec (.pexp f) s = .next (t.trapW .v 5 6 0)) ∧
      (∀ r p, t.crew.raster = some r → t.passOf r = some p →
        (f.desc.toNat % 8 ∈ p.targets → exec (.pexp f) s = .next (t.sendMessage (.pexp f) f 4 b 0)) ∧
        (f.desc.toNat % 8 ∉ p.targets → exec (.pexp f) s = .next (t.trapW .v 5 7 0)))) ∧
    (∀ (s t : State) (u id : Nat) (v : VWord) (i : Instr), s.front u t →
      t.crew.vwords.find? (fun x => x.id == id) = some v → v.kind = .message i →
      (∀ seen l, (∀ g, i ≠ .pexp g) → t.messageLanes i v = some (.ok seen l) →
        exec (.graphicsMessageComplete u id) s = .next
          (({ t.unitSees seen with crew := t.crew.landWord v (v.zeros.map (fun k => (k, 0)) ++ l) 0 false } : State).useFree 1024)) ∧
      (∀ g seen l, i = .pexp g → t.exportReads g v = .ok seen l →
        exec (.graphicsMessageComplete u id) s = .next { t.acceptExports g v with crew := t.crew.landWord v [] 0 false }))

/-! ## Control words of the other streams -/

/-- Control words of the vector, matrix and copy streams (R148, R186, R212, R213, R22): BRF waits on an empty flag and else goes to its target
or on, with take emptying the flag, with no loop register touched; RDV and HALT leave the stream idle-done; TOKW and DRAIN wait or go
on behind their gap. A word of the vector stream does so once every window that has closed has landed (R88). -/
def Obligations.StreamControl : Prop :=
  ∀ (s : State) (gap : BitVec 4) (wait kmask : BitVec 8) (f : CFlag) (take sense : BitVec 1) (off : BitVec 18) (off16 : BitVec 16)
    (lim : BitVec 6) (path : BitVec 3),
    let c := s.crew
    (∀ x ∈ ([(.vBrf gap wait f take sense off, .v, off), (.mBrf gap wait f take sense off16, .m, off16.signExtend 18),
        (.kBrf gap wait f take sense off, .k, off)] : List (Instr × Strm × Pc)),
      let t := if x.2.1 = .v then s.settled else s
      let c := t.crew
      s.crew.canIssue x.2.1 = true → c.readyWord x.2.1 x.1 wait = true →
      (c.flagFull f = false → exec x.1 s = .next { t with crew := c.block x.2.1 (.flag f) 0 }) ∧
      (c.flagFull f = true → ∃ d, exec x.1 s = .next { t with crew := d } ∧
        (d.strm x.2.1).pc = (c.strm x.2.1).pc + (if c.flagVal f = decide (sense = 1) then x.2.2 else 1) ∧
        (d.strm x.2.1).gap = gap.toNat ∧ (d.strm x.2.1).status = .running ∧ d.flagFull f = decide (take = 0) ∧
        d.lc = c.lc ∧ d.s = c.s ∧ d.g = c.g ∧ d.cVal = c.cVal)) ∧
    (∀ x ∈ ([(.vRdv gap wait, .v), (.vHalt gap wait, .v), (.mRdv gap wait, .m), (.mHalt gap wait, .m), (.kRdv gap wait, .k),
        (.kHalt gap wait, .k)] : List (Instr × Strm)),
      let t := if x.2 = .v then s.settled else s
      let c := t.crew
      s.crew.canIssue x.2 = true → c.readyWord x.2 x.1 wait = true →
        ∃ d, exec x.1 s = .next { t with crew := d } ∧ (d.strm x.2).isIdle = true ∧
        (∀ st, st ≠ x.2 → d.strm st = c.strm st) ∧ d.g = c.g ∧ d.tok = c.tok) ∧
    (c.readyWord .k (.kTokw gap wait kmask lim) wait = true →
      ((∀ i, i < 8 → kmask.getLsbD i = true → SMap.get 0 c.tok i ≤ lim.toNat) →
        exec (.kTokw gap wait kmask lim) s = .next { s with crew := c.pass .k gap (c.k.pc + 1) }) ∧
      ((∃ i, i < 8 ∧ kmask.getLsbD i = true ∧ lim.toNat < SMap.get 0 c.tok i) →
        exec (.kTokw gap wait kmask lim) s = .next { s with crew := c.block .k (.token kmask lim.toNat) 0 })) ∧
    (c.readyWord .k (.kDrain gap wait path) wait = true →
      let into := s.copiesInto c.agent path.toNat (c.k.mark.getD s.nextId)
      (into = false → exec (.kDrain gap wait path) s = .next { s with crew := c.pass .k gap (c.k.pc + 1) }) ∧
      (into = true → exec (.kDrain gap wait path) s = .next (s.blockS .k .other)))

/-! ## Matrix words -/

/-- Words of the array side (R167, R168, R171, R173, R175-R177, R180, R185): ready, a step whose handles fit issues into a free array with its
tile empty, and waits else; what it then breaks traps, with the word's top 64 bits in sr.tval for class 0 and 0 for the others; MNSET writes a level of the shadow table; MNGO starts its nest from the shadow table; MNSTOP ends the nest
and lets the step in the array complete; MZERO, MWRITE and MSCA enter the array, MSCA once its source is full.
Words of the tile-read port and prologues (R168, R182-R184, R358): ready, with fewer than four entries parked and its token below 63, MREL,
MREAD and MCVT park behind the others and the stream goes on; a full port holds them; MPRO selects its prologue, raising its token and
requesting its first table, with the class and scope of sr.ocdef (R245), where it has tables; loads of earlier MPROs go on. No tile
changes. That a word waits for the array to be free is the model's reading (log 81), and so are a step's checks behind its waits and MPRO's
class-4 detail 3 ahead of them (log 82). -/
def Obligations.MatrixWords : Prop :=
  (
    ∀ s : State,
      let c := s.crew
      let ty := resolveType (fcsrB8d0 c.fcsr) (fcsrB8d1 c.fcsr)
      let wait := s.blockS .m .array
      (∀ f : MStepF, c.readyMatrix (.mstep f) f.wait [] false = true →
        (c.arrayFree = false → exec (.mstep f) s = .next wait) ∧
        (c.arrayFree = true → c.tileFull f.acc = true → exec (.mstep f) s = .next (s.blockS .m (.tileFull f.acc))) ∧
        (c.arrayFree = true → c.tileFull f.acc = false → c.proWaits f = true → exec (.mstep f) s = .next wait) ∧
        (c.arrayFree = true → c.tileFull f.acc = false → c.proWaits f = false →
          (∀ k d, c.stepFault f = some (k, d) → exec (.mstep f) s = .next (s.trapW .m k d (if k = 0 then tval0 (.mstep f) else 0))) ∧
          (c.stepFault f = none →
            exec (.mstep f) s = .next (s.issueArray f.gap (.step f (ty f.fmta.toNat) (ty f.fmtb.toNat) false) [])))) ∧
      (∀ f : MStepF, c.readyMatrix (.mngo f) f.wait [] false = true →
        (c.arrayFree = false → exec (.mngo f) s = .next wait) ∧
        (∀ k d, c.arrayFree = true → c.stepFault f = some (k, d) →
          exec (.mngo f) s = .next (s.trapW .m k d (if k = 0 then tval0 (.mngo f) else 0))) ∧
        (c.stepFault f = none → c.arrayFree = true → exec (.mngo f) s = .next { s with crew :=
          (({ c with active := c.shadow, nest := some { tmpl := f, pc := c.m.pc, pt := List.replicate 6 0, fa := ty f.fmta.toNat,
                                                        fb := ty f.fmtb.toNat } } : Crew).pass .m f.gap (c.m.pc + 1)) })) ∧
      (∀ f : MNSetF, c.readyWord .m (.mnset f) f.wait = true → exec (.mnset f) s = .next { s with crew :=
        (({ c with shadow := c.shadow.set f.lv.toNat { count := f.count.toNat, ar := f.ar, ac := f.ac, br := f.br, bc := f.bc, ts := f.ts } } :
          Crew).pass .m f.gap (c.m.pc + 1)) }) ∧
      (∀ (gap : BitVec 4) (w : BitVec 8), c.readyWord .m (.mnstop gap w) w = true →
        ∃ d, exec (.mnstop gap w) s = .next { s with crew := d } ∧ d.nest = none ∧ d.m.pc = c.m.pc + 1 ∧ d.tile = c.tile ∧
          d.array.map (fun a => (a.id, a.gotA, a.gotB, a.held)) = c.array.map (fun a => (a.id, a.gotA, a.gotB, a.held))) ∧
      (∀ (gap : BitVec 4) (w : BitVec 8) (t : BitVec 3), c.readyMatrix (.mzero gap w t) w [] false = true → c.arrayFree = true →
        (c.tileFull t = false → exec (.mzero gap w t) s = .next (s.issueArray gap (.zero t) [])) ∧
        (c.tileFull t = true → exec (.mzero gap w t) s = .next (s.blockS .m (.tileFull t)))) ∧
      (∀ f : MRowF, c.readyMatrix (.mwrite f) f.wait (rowRegs f) true = true → c.arrayFree = true →
        (c.tileFull f.acc = false → exec (.mwrite f) s =
          .next ((s.issueArray f.gap (.write f.acc f.row.toNat (c.lockLanes s.free (rowRegs f))) (rowRegs f)).useFree freeStep)) ∧
        (c.tileFull f.acc = true → exec (.mwrite f) s = .next (s.blockS .m (.tileFull f.acc)))) ∧
      (∀ f : MScaF,
        let ra := (List.range 4).map (fun n => f.sa.toNat + n)
        let rb := (List.range 4).map (fun n => f.sb.toNat + n)
        c.readyMatrix (.msca f) f.wait (ra ++ rb) true = true → c.arrayFree = true → c.tileFull f.acc = false →
          (c.tileFull f.src = true → exec (.msca f) s = .next
            ((s.issueArray f.gap (.scale f.acc f.src (c.lockLanes s.free ra) (c.lockLanes s.free rb)) (ra ++ rb)).useFree freeStep)) ∧
          (c.tileFull f.src = false → exec (.msca f) s = .next (s.blockS .m (.tileEmpty f.src))))) ∧
  (
    ∀ s : State,
      let c := s.crew
      let entry := fun (i : Instr) =>
        ({ id := s.nextId, ins := i, rm := BitVec.ofNat 2 (fcsrRm c.fcsr), b8d0 := fcsrB8d0 c.fcsr, b8d1 := fcsrB8d1 c.fcsr } : PortEntry)
      let parked := fun (i : Instr) (gap : BitVec 4) => ∃ t, exec i s = .next t ∧
        t = { s with crew := t.crew, nextId := s.nextId + 1, free := s.free + freeStep } ∧ t.crew.port = c.port ++ [entry i] ∧
        t.crew.m.pc = c.m.pc + 1 ∧ t.crew.m.gap = gap.toNat ∧ t.crew.tile = c.tile ∧ t.crew.tFull = c.tFull
      (∀ (gap : BitVec 4) (w : BitVec 8) (a : BitVec 3), c.readyMatrix (.mrel gap w a) w [] false = true →
        (c.port.length < 4 → parked (.mrel gap w a) gap) ∧ (4 ≤ c.port.length → exec (.mrel gap w a) s = .next (s.blockS .m .port))) ∧
      (∀ f : MRowF, ∀ i ∈ ([.mread f, .mcvt f] : List Instr), c.readyMatrix i f.wait (rowRegs f) false = true →
        (c.port.length < 4 → c.tokCount f.sig ≠ 63 → parked i f.gap ∧
          ∀ t, exec i s = .next t → t.crew.tokCount f.sig = c.tokCount f.sig + 1) ∧
        (4 ≤ c.port.length → exec i s = .next (s.blockS .m .port)) ∧
        (c.port.length < 4 → c.tokCount f.sig = 63 → exec i s = .next (s.blockS .m .tokenLimit))) ∧
      (∀ (gap : BitVec 4) (w : BitVec 8) (sig : BitVec 3) (tab : BitVec 8),
        ∀ x ∈ ([(.mproNone gap w sig tab, 0), (.mproInt4 gap w sig tab, 1), (.mproCb3 gap w sig tab, 2), (.mproCb4 gap w sig tab, 3),
          (.mproBmap gap w sig tab, 4)] : List (Instr × Nat)),
        c.readyMatrix x.1 w [] false = true →
        (x.2 ≠ 0 → c.kern.ptabOf x.2 tab.toNat = none → exec x.1 s = .next (s.trapW .m 4 3 0)) ∧
        ((x.2 = 0 ∨ (c.kern.ptabOf x.2 tab.toNat).isSome = true) → c.arrayFree = true → c.tokCount sig ≠ 63 →
          ∃ t, exec x.1 s = .next t ∧ t.crew.pro = x.2 ∧ t.crew.ptab = tab.toNat ∧ t.crew.m.pc = c.m.pc + 1 ∧ t.crew.tile = c.tile ∧
            t.crew.proLoads = c.proLoads ++ (if x.2 = 0 ∨ x.2 = 4 then [] else
              [{ id := s.nextId, ptab := tab.toNat, tok := sig, oc := c.ocdef.toNat % 16, sc := c.ocdef.toNat / 16 % 8 }]) ∧
            t.crew.proReload = none ∧ t.crew.tokCount sig = c.tokCount sig + (if x.2 = 0 ∨ x.2 = 4 then 0 else 1) ∧
            (t.core c.agent).inf = (if x.2 = 0 ∨ x.2 = 4 then [] else [s.tableLoad tab.toNat 0]))))

/-- R173, A STEP COMPLETES: with all its slices there, rows and columns of its tile take the accumulation of its groups from their old values or
from +0, all at once, and every other element of every tile is as before; the array is free; `fin` fills the tile. MZERO and MWRITE write
their tile and MSCA adds its scaled source to it (R59, R180). A lane of a locked register that a token word has written meanwhile is the
old or the new one (R181, log 86). -/
def Obligations.TileStepCompletes : Prop :=
  ∀ (s t : State) (u : Nat) (a : ArrayOp), s.front u t → t.crew.array = some a →
    let c := t.crew
    let done := fun (d : Crew) => ({ t.useFree freeStep with crew := d } : State)
    (∀ f fa fb nest, a.kind = .step f fa fb nest → a.held = none → fetchGoal f false ≤ a.gotA → fetchGoal f true ≤ a.gotB →
      ∃ d, exec (.tileStepComplete u) s = .next (done d) ∧ d.array = none ∧
        (∀ i j, i ≤ f.mx.toNat → j ≤ f.nx.toNat →
          let pairs := (List.range (stepK f)).map (fun k =>
            (eltValue (eltOf 0 0 fa) (SMap.get 0 a.fifoA (fifoKey k i)).toNat, eltValue (eltOf 0 0 fb) (SMap.get 0 a.fifoB (fifoKey k j)).toNat))
          let old := if f.zacc = 1 then 0 else (c.elem f.acc.toNat i j).toNat
          d.elem f.acc.toNat i j = BitVec.ofNat 32 (accumulate old (pieces (groupSize f) (stepK f) pairs)).1) ∧
        (∀ k, (∀ i j, i ≤ f.mx.toNat → j ≤ f.nx.toNat → k ≠ tileKey f.acc.toNat i j) → SMap.get 0 d.tile k = SMap.get 0 c.tile k) ∧
        (f.fin = 1 → d.tileFull f.acc = true) ∧ (f.fin = 0 → d.tFull = c.tFull) ∧ d.g = c.g ∧ d.vreg = c.vreg ∧ d.mask = c.mask ∧
        d.port = c.port ∧ d.s = c.s ∧ d.v = c.v ∧ d.k = c.k) ∧
    (∀ x, a.kind = .zero x → ∃ d, exec (.tileStepComplete u) s = .next (done d) ∧ d.array = none ∧
      (∀ i j, i < 128 → j < 128 → d.elem x.toNat i j = 0) ∧
      (∀ k, (k < tileKey x.toNat 0 0 ∨ tileKey x.toNat 0 0 + 16384 ≤ k) → SMap.get 0 d.tile k = SMap.get 0 c.tile k)) ∧
    (∀ x row vals, a.kind = .write x row vals →
      let w := c.lockedLanes t.free a a.locks vals
      (a.late = [] → w = vals) ∧
      ∃ d, exec (.tileStepComplete u) s = .next (done d) ∧ d.array = none ∧
        (∀ n, n < vals.length → SMap.get 0 d.tile (tileKey x.toNat row 0 + n) = w.getD n 0) ∧
        (∀ k, (k < tileKey x.toNat row 0 ∨ tileKey x.toNat row 0 + vals.length ≤ k) → SMap.get 0 d.tile k = SMap.get 0 c.tile k)) ∧
    (∀ x src sa sb, a.kind = .scale x src sa sb →
      let A := c.lockedLanes t.free a (a.locks.take 4) sa
      let B := c.lockedLanes (t.free + 4096) a (a.locks.drop 4) sb
      (a.late = [] → A = sa ∧ B = sb) ∧
      ∃ d, exec (.tileStepComplete u) s = .next (done d) ∧ d.array = none ∧
        (∀ i j, i < 128 → j < 128 → d.elem x.toNat i j = BitVec.ofNat 32
          (scaleElem (c.elem x.toNat i j).toNat (c.elem src.toNat i j).toNat (A.getD i 0).toNat (B.getD j 0).toNat).1) ∧
        (∀ k, (k < tileKey x.toNat 0 0 ∨ tileKey x.toNat 0 0 + 16384 ≤ k) → SMap.get 0 d.tile k = SMap.get 0 c.tile k))

/-- What else happens in the matrix unit (R168, R176, R182, R183, R358, R401): a nest generates the step of its point into a free array where
the step's tile is empty; a parked read whose tile is full writes its lanes and lowers its token; a parked MREL empties its full tile and
keeps its elements; an operand slice arrives in its FIFO; a table arrives in its buffer, the first one of an MPRO lowering its token, one
that a resumed crew has loaded again (identity 0) taking the second place. -/
def Obligations.MatrixEvents : Prop :=
  ∀ (s t : State) (u : Nat), s.front u t →
    let c := t.crew
    (∀ n, c.nest = some n → c.life = .running → c.trap = none → c.act = false → c.array = none → c.m.pend = none →
      c.tileFull (c.nestStep n).acc = false → c.proWaits (c.nestStep n) = false →
      exec (.nestStepGenerate u) s = .next { t.fresh.2 with crew := c.enterArray t.nextId n.pc (.step (c.nestStep n) n.fa n.fb true) [] }) ∧
    (∀ e rest f, c.port = e :: rest → (e.ins = .mread f ∨ e.ins = .mcvt f) → c.tileFull f.acc = true →
      (rowRegs f).any c.vLocked = false →
      let val := fun (x : Lane) =>
        if e.ins = .mread f then x
        else laneOf f.fmt.toNat (convert e.b8d0 e.b8d1 9 f.fmt.toNat e.rm.toNat true x.toNat).1
      ∃ d, exec (.tileReadPerform u) s = .next { t with crew := d } ∧ d.port = rest ∧ d.tokCount f.sig = c.tokCount f.sig - 1 ∧
        (∀ n, n < 128 * (f.mx.toNat + 1) →
          SMap.get 0 d.vreg (32 * f.vx.toNat + n) = val (c.elem f.acc.toNat (f.row.toNat + n / 128) (n % 128))) ∧
        (∀ k, (k < 32 * f.vx.toNat ∨ 32 * f.vx.toNat + 128 * (f.mx.toNat + 1) ≤ k) → SMap.get 0 d.vreg k = SMap.get 0 c.vreg k) ∧
        d.tile = c.tile ∧ d.tFull = c.tFull ∧ d.g = c.g) ∧
    (∀ e rest gap w a, c.port = e :: rest → e.ins = .mrel gap w a → c.tileFull a = true →
      ∃ d, exec (.mrelPerform u) s = .next { t with crew := d } ∧ d.port = rest ∧ d.tileFull a = false ∧ d.tile = c.tile ∧
        (∀ x, x ≠ a → d.tileFull x = c.tileFull x) ∧ d.tok = c.tok) ∧
    (∀ a f fa fb nest (b : Bool) l, c.array = some a → a.kind = .step f fa fb nest → a.held = none → (b = true → f.pro = 0) →
      let got := if b then a.gotB else a.gotA
      let fifo := SMap.write 0 (if b then a.fifoB else a.fifoA) (fifoKey got 0) (l.1.map (BitVec.ofNat 32))
      let a2 : ArrayOp := if b then { a with words := l.2, fifoB := fifo, gotB := got + 1 }
        else { a with words := l.2, fifoA := fifo, gotA := got + 1 }
      got < stepK f → t.slice f b got a.words = .ok l →
      exec (.operandSliceArrive u b) s = .next
        (({ t with crew := { c with array := some a2 } } : State).keepReach f.oc.toNat (t.sliceReach f b got))) ∧
    (∀ b bs p bytes, t.tablesDue = b :: bs → c.kern.ptabs[b.ptab]? = some p → t.fetchTable c p b.t = .ok bytes →
      let r := (t.tableSees p b).tableIn b bytes
      exec (.infuserTableArrive u) s = .next r ∧
        (b.id ≠ 0 → (r.core c.agent).inf = (t.core c.agent).inf.map (fun x => if x.id = b.id then { x with bytes := some bytes } else x)) ∧
        (b.id = 0 → (r.core c.agent).inf = (t.core c.agent).inf.take 1 ++ [{ b with bytes := some bytes }]) ∧
        (∀ l, c.proLoads.find? (fun l => l.id == b.id) = some l → r.crew.tokCount l.tok = c.tokCount l.tok - 1 ∧
          r.crew.proLoads = c.proLoads.filter (fun x => x.id != b.id)) ∧
        (c.proLoads.any (fun l => l.id == b.id) = false → r.crew.tok = c.tok) ∧ r.mem = t.mem)

/-! ## Copy words -/

/-- Copy words (R86, R189, R194-R211): ready, each hands its job to the engine with the scalars read at issue, raises its token and lets the
stream go on behind its gap; a COLL takes the next number of its class and extent; DQPUSH reserves its entries and DQPOP takes them;
JSUB and SQGO need room in their queue. -/
def Obligations.CopyWords : Prop :=
  ∀ (h : KHdr) (o : KR) (p : KH) (q : BitVec 2) (red : BitVec 4),
    let zero := fun (_ : Crew) => 0
    let free := fun (_ : State) (_ : Job) => (none : Option Wait)
    let same := fun (c : Crew) (j : Job) => (c, j)
    (∀ i ∈ ([.cpyKh h p, .cpyKr h o, .cpysg h o, .cpymcKh h p, .cpymcKr h o, .scatNative h o, .scatStrain h red o, .gath h o, .xfmTr h o,
      .xfmCvt h o, .xfmBdb h o, .xfmPsum h o] : List Instr), AnswersK i zero free same) ∧
    (∀ i ∈ ([.collAllred h red o, .collRedsc h red o, .collGath h red o] : List Instr),
      let key := collKey h.oc.toNat h.path.toNat
      AnswersK i (fun c => SMap.get 0 c.colls key) free
        (fun c j => ({ c with colls := SMap.set 0 c.colls key (SMap.get 0 c.colls key + 1) }, j))) ∧
    (∀ i ∈ ([.dqpushKh h q p, .dqpushKr h q o] : List Instr),
      AnswersK i zero
        (fun s j => if 16 < (s.crew.dq.getD q.toNat []).length + j.dqEntries s.crew then some (.queue q.toNat (j.dqEntries s.crew) true)
          else none)
        (fun c j => (c.setDq q.toNat (c.dq.getD q.toNat [] ++ List.replicate (j.dqEntries c) { bytes := none, job := j.id }), j))) ∧
    (∀ i ∈ ([.dqpopKh h q p, .dqpopKr h q o] : List Instr),
      AnswersK i zero
        (fun s j => if (s.crew.dqHeld q.toNat).length < j.dqEntries s.crew then some (.queue q.toNat (j.dqEntries s.crew) false) else none)
        (fun c j => (c.setDq q.toNat ((c.dq.getD q.toNat []).drop (j.dqEntries c)),
          { j with data := ((c.dqHeld q.toNat).take (j.dqEntries c)).flatten }))) ∧
    AnswersK (.jsub h o) zero (fun s _ => if 256 ≤ (s.die s.crew.place.die).cards.length then some .other else none) same ∧
    AnswersK (.sqgo h o) zero (fun s _ => if 4 ≤ (s.sequencer (s.crew.agent / 8)).queue.length then some .other else none) same

/-- What becomes of a job (R194-R199, R206, R209-R211, R403): with no job before it, a data-moving job that meets no failure performs, ORs its
flags in, and is gone with its token lowered, once no other package has still to acknowledge a write of it (R296; log 64) (a CPY of a byte
range that crosses no page: the bytes read at its source are stored at its destination); one that meets a page that is out is held there, with what it has done; a failed one is recorded with its cause; a card
goes to the scheduler and a solver job to its sequencer; the entry of a queue reserved first takes its bytes and the last lowers the
token; a COLL whose participants have all arrived writes every destination. -/
def Obligations.CopyEvents : Prop :=
  ∀ (s t : State) (u : Nat), s.front u t →
    let c := t.crew
    (∀ j id, c.jobs.find? (fun x => x.id == id) = some j → j.held = none → collOf j.ins = none → isPush j.ins = false →
      t.behindJob c j = false →
      let r := t.runJob c j
      let d := r.s.crew.jobDone j r.flags
      (∀ x, r.fin = .ok x → (∀ h o, j.ins ≠ .jsub h o ∧ j.ins ≠ .sqgo h o) →
        (r.s.farOut j.id = true → exec (.copyJobComplete u id) s = .next (r.keep j)) ∧
        (r.s.farOut j.id = false → exec (.copyJobComplete u id) s = .next (({ r.s with crew := d } : State).useFree 1)) ∧
        d.tokCount (jobTok j.ins) = r.s.crew.tokCount (jobTok j.ins) - 1 ∧ d.jobs = r.s.crew.jobs.filter (fun x => x.id != id) ∧
        d.fcsr = fcsrOr r.s.crew.fcsr r.flags) ∧
      (∀ h o bs t1, j.ins = .cpyKr h o → j.reads = [] → j.wrote = 0 →
        let n := j.c.toNat + o.imm.toNat
        let (path, a) := placeOr j.a
        rangePieces a n = [(a, n)] → rangePieces j.b.toNat bs.length = [(j.b.toNat, bs.length)] → t.fetchBytes c path a n = .ok bs →
        (t.engineSees j.oc 5 path a n).storeRange c h.path.toNat j.b.toNat bs = .ok t1 → r.fin = .ok () ∧ r.s = t1) ∧
      (∀ x h o, j.ins = .jsub h o → r.fin = .ok x → exec (.copyJobComplete u id) s = .next (r.s.acceptCard j r.reads.reverse.flatten)) ∧
      (∀ h o, j.ins = .sqgo h o → exec (.copyJobComplete u id) s = .next (t.acceptSolver j)) ∧
      (∀ va k, r.fin = .held va k → (∀ h o, j.ins ≠ .sqgo h o) →
        exec (.copyJobComplete u id) s = .next ((r.keep j).holdJob j va (t.faultKind c va) k)) ∧
      (∀ code a, r.fin = .bad code a → ∃ w, exec (.copyJobFail u id) s = .next w ∧
        w.crew = (c.orFlags r.flags).failJob j code (BitVec.ofNat 64 a))) ∧
    (∀ q e j, (c.dq.getD q []).find? (fun e => e.bytes.isNone) = some e → c.jobs.find? (fun x => x.id == e.job) = some j → j.held = none →
      t.behindJob c j = false →
      let x := t.runPush c j
      ∀ y, x.1.fin = .ok y → ∃ w, exec (.dqEntryArrive u q) s = .next w ∧ w.mem = x.1.s.mem ∧
        (q < x.1.s.crew.dq.length → w.crew.dq.getD q [] = fillEntry x.2 (c.dq.getD q []) ∧
          (w.crew.awaited j.id = 0 → w.crew.tokCount (jobTok j.ins) = x.1.s.crew.tokCount (jobTok j.ins) - 1))) ∧
    (∀ id j kind op peers, c.jobs.find? (fun x => x.id == id) = some j → collOf j.ins = some (kind, op) →
      (t.participants c j.path).mapM (t.collPeer j) = some peers → t.collRanks c j.path ≤ peers.length →
      peers.all (fun x => collOf x.2.ins == some (kind, op) && x.2.imm == j.imm) = true →
      peers.any (fun x => t.behindJob x.1 x.2) = false →
      let n := j.imm % 2 ^ 32
      let srcs := peers.map (fun x => unpackElems j.type n (t.spad.read (x.1.agent * 2 ^ 20 + x.2.a.toNat) (n * alignOf j.type)))
      let outs := (List.range peers.length).map (fun k => collResult kind j.path j.type op n peers.length k srcs)
      ∃ w, exec (.collectivePerform u id) s = .next w ∧ w.mem = t.mem ∧ w.caddy = t.caddy ∧
        w.spad = (peers.zip outs).foldl
          (fun m x => m.write (x.1.1.agent * 2 ^ 20 + x.1.2.b.toNat) (x.2.1.flatMap (leBytes (alignOf j.type)))) t.spad)

/-! ## Events of a crew -/

/-- Issue and results (R35, R86, R96, R97, R107, R109, R118, R254, R28): a gap runs out; a stream that may issue and has not for 48 cycles
is boosted; a yielded stream is released (that a gap and a yield end at any turn is the model's reading, log 28); a result in flight lands in its register, full, and every other register is as before; a waiting trap is taken; a
coupling-deadlocked crew traps with class-5 detail 1. -/
def Obligations.CrewEvents : Prop :=
  ∀ (s t : State) (u id : Nat) (st : Strm), s.front u t →
    let c := t.crew
    let lands := fun (r : SRes) (v : Word) => ∃ w, exec (.scalarResultComplete u id) s = .next w ∧
      w.crew.rdG r.d = (if r.d = 0 then 0 else v) ∧ w.crew.gEmpty r.d = false ∧ w.crew.sres = c.sres.filter (fun x => x.id != r.id) ∧
      (∀ g, g ≠ r.d → w.crew.rdG g = c.rdG g ∧ w.crew.gEmpty g = c.gEmpty g) ∧ w.mem = t.mem ∧ w.spad = t.spad ∧ w.crew.s = c.s
    exec (.issueGapElapse u st) s = .next { t with crew := c.setStrm st { c.strm st with gap := 0 } } ∧
    (c.canIssue st = true → (c.strm st).tried + 48 ≤ t.now → exec (.issueStarvationBoost u st) s = .next { t with crew := c.setStrm st { c.strm st with boosted := true } }) ∧
    exec (.yieldRelease u) s = .next { t with crew := { c with yielded := false } } ∧
    (c.life = .running → exec (.trapEntry u) s = .next { t with crew := c.takeTrap }) ∧
    (∀ r v, c.sres.find? (fun x => x.id == id) = some r → r.kind = .value v → lands r v) ∧
    (∀ r e sx oc sc bs, c.sres.find? (fun x => x.id == id) = some r → r.kind = .load e sx oc sc → e.tr = true → inPod e.addr = false →
      ({ c with sres := c.sres.takeWhile (fun x => x.id != id) } : Crew).classPending oc = false →
      t.readWaits c .s oc r.id (t.forwarded c .s oc e.addr e.len) = false → t.blockBad c.agent e.addr e.len e.att = false →
      t.readTo c.agent e.addr e.len e.att (t.readLimit c.uid oc r.id) = some bs →
      lands r (if sx then BitVec.ofInt 64 (sVal (8 * e.len) (leNat bs)) else BitVec.ofNat 64 (leNat bs))) ∧
    (∀ r e sx oc sc aop ty x y old, c.sres.find? (fun x => x.id == id) = some r → r.kind = .atomic e sx oc sc aop ty x y (some old) →
      ({ c with sres := c.sres.takeWhile (fun x => x.id != id) } : Crew).classPending oc = false →
      lands r (if sx then BitVec.ofInt 64 (sVal (8 * e.len) old) else BitVec.ofNat 64 old)) ∧
    (c.deadlocked (!t.tablesDue.isEmpty) = true →
      exec (.couplingDeadlockDetect u) s = .next { t with crew := c.raise .s (causeCode 5 1) (BitVec.ofNat 64 c.live.toNat) c.s.pc })

/-- Leaving a slot (R23, R258-R260, R352): a crew at HALT with its other streams idle-done, its tokens at zero and no store in a side log
retires: its slot is free and its blocks return; PREEMPT of a running slot makes it halt; a crew whose stages have ended writes its
image and frees its slot; a result that arrives later lands in the halted crew, for every such crew and result, and goes to its image. -/
def Obligations.CrewLeaves : Prop :=
  (∀ (s t : State) (u : Nat), s.front u t →
    let c := t.crew
    (t.mayRetire c = true → ∃ w, exec (.crewRetire u) s = .next w ∧ w.crew = Crew.absent ∧ w.rest = t.rest.filter (fun x => x.uid != u) ∧
      (SMap.get Slot.free (w.core c.agent).slots c.place.slot).state = 0 ∧ (w.core c.agent).poolFree = (t.core c.agent).poolFree + c.ext ∧
      w.mem = t.mem ∧ w.writes = t.writes) ∧
    (t.mayRetire c = false → exec (.crewRetire u) s = .next t) ∧
    (∀ t1, let h := c.halted (t.tableInUse c)
      let d : Crew := { h with life := .preempted, sealed := h.sealable, hasImage := true }
      t.mayHalt c = true → h.stop = none → t.writeImage h h.sealable = .ok t1 →
        exec (.preemptHalt u) s = .next (({ t1 with crew := d } : State).freeSlot d))) ∧
  (∀ (s : State) (core slot : Nat),
    let x := SMap.get Slot.free (s.core core).slots slot
    (x.state = 2 → ∃ w, exec (.preempt core slot) s = .next w ∧ (SMap.get Slot.free (w.core core).slots slot).state = 3 ∧ w.mem = s.mem ∧
      ∀ c, s.findCrew x.uid = some c → c.life = .running → w.findCrew x.uid = some { c with life := .halting }) ∧
    (x.state = 0 → exec (.preempt core slot) s = .next s)) ∧
  (∀ (s : State) (u id : Nat) (c : Crew) (r : SRes) (v : Word), s.findCrew u = some c → (c.life = .preempted ∨ c.life = .stopped) →
    c.proLoads.any (fun p => p.id == id) = false → c.vwords.any (fun v => v.id == id) = false →
    c.sres.find? (fun x => x.id == id) = some r → r.kind = .value v →
    ∃ (w : State) (x : Crew), exec (.pendingCompletionArrive u id) s = .next w ∧ w.findCrew u = some x ∧ x.life = c.life ∧
      x.rdG r.d = (if r.d = 0 then 0 else v) ∧ x.gEmpty r.d = false ∧ x.sres = c.sres.filter (fun y => y.id != r.id)) ∧
  (∀ (s t : State) (u id : Nat) (c : Crew), s.findCrew u = some c → (c.life = .preempted ∨ c.life = .stopped) →
    c.proLoads.any (fun p => p.id == id) = false → c.vwords.any (fun v => v.id == id) = false → c.sres.any (fun r => r.id == id) = true →
    exec (.scalarResultComplete u id) (s.asBound u) = .next t →
    exec (.pendingCompletionArrive u id) s =
      .next (s.syncImage (t.onCrewOf u (fun x => { x with life := c.life, sealed := c.sealed || x.sealable })) u))

/-! ## Translation, the side log and the controller -/

/-- Walks and the side log (R333-R336): a translation that the walk finds fills the core's TLB, its pointers the walk cache; one it does not
find, and that can be cured, posts one fault record and no more while it is outstanding; a released entry that nothing of its stream and
class precedes goes to the core's buffer. -/
def Obligations.Translation : Prop :=
  ∀ (s : State) (core asid va kind : Nat),
    let die := agentDie core
    let s1 := s.walked core asid va
    (s.translate core asid va kind = .miss → ∀ e, s.coreWalk core asid va = .entry e →
      exec (.translationWalk core asid va kind) s = .next (s1.fillTlb core e)) ∧
    (s.translate core asid va kind = .miss → ∀ r pa v, s.coreWalk core asid va = .fail r false pa v →
      exec (.translationWalk core asid va kind) s = .next (s1.postFault die asid va kind r false core pa v) ∧
      ((s1.faultOut die asid va kind).isSome = true → exec (.translationWalk core asid va kind) s = .next s1) ∧
      (s1.faultOut die asid va kind = none → ∃ w, exec (.translationWalk core asid va kind) s = .next w ∧
        (w.die die).events = (s1.die die).events ++ [⟨1, faultBody asid kind r false core va pa v⟩] ∧
        (w.faultOut die asid va kind).isSome = true ∧ w.mem = s1.mem ∧ w.crew = s1.crew)) ∧
    (s.translate core asid va kind = .miss → ∀ r pa v, s.coreWalk core asid va = .fail r true pa v →
      exec (.translationWalk core asid va kind) s = .next (s1.failHeld core asid va kind r)) ∧
    (∀ r, s.translate core asid va kind = .denied r → exec (.translationWalk core asid va kind) s =
      .next (s.postFault die asid va kind r false core (s.lastEntry die asid va).1 (s.lastEntry die asid va).2)) ∧
    (∀ r, s.translate core asid va kind = .now r → exec (.translationWalk core asid va kind) s = .next (s.failHeld core asid va kind r)) ∧
    (∀ id e pa att, (s.core core).log.find? (fun e => e.w.id == id) = some e → e.released = true →
      (∀ x ∈ (s.core core).log, x.w.uid = e.w.uid → x.w.strm = e.w.strm → x.w.oc = e.w.oc → id ≤ x.w.id) →
      s.translate core e.w.asid e.w.va e.w.kind = .ok pa att →
      ∃ w, exec (.sideLogReplay core id) s = .next w ∧ w.writes = s.writes ++ [{ e.w with pa := pa, att := att }] ∧
        (w.core core).log = (s.core core).log.filter (fun e => e.w.id != id) ∧ w.mem = s.mem)

/-- The completion record's body (R338): op, status, ASID, count, address, and zeros. -/
def ctlBody (c : CtlCmd) (status n : Nat) : List Byte :=
  leBytes 1 c.op ++ leBytes 1 status ++ leBytes 2 c.asid ++ leBytes 4 n ++ leBytes 8 c.va ++ leBytes 8 0 ++ leBytes 8 0

/-- The controller's descriptors (R337-R342): a descriptor with a reserved value is refused with status 1; INVAL drops the TLB entries it
covers and completes once no access they translated is under way; RESUME, which is refused likewise, releases a page and completes once what it released has
replayed; FILL starts the storage port where its leaf stands, which ends with the frame and the leaf written; RETIRE is refused while its
ASID is in use, and else takes two turns; HARVEST counts its leaves; MIGRATE is refused with status 5 where its leaf does not stand and
with status 3 where its frames meet a migration in progress, and else, once no other package shares the page, copies the frame, stores the
leaf, and drops the old translations. That RETIRE takes two turns (log 69) and that MIGRATE freezes, copies and stores in one last step
(log 70) is the model's own timing. -/
def Obligations.Controller : Prop :=
  ∀ (s : State) (die : Nat),
    (∀ c status n, let r := s.ctlDone die c status n
      (r.die die).tcRun = none ∧ (r.die die).tcHead = BitVec.ofNat 16 (((s.die die).tcHead.toNat + 1) % (s.die die).ctlSlots) ∧
      (r.die die).events = (s.die die).events ++ [⟨2, ctlBody c status n⟩] ∧ r.mem = s.mem) ∧
    (∀ c, s.ctlNext die = some (c, false) → ∀ x ∈ ([(.inval die, 1), (.fill die, 3), (.retire die, 4), (.harvest die, 5), (.migrate die, 6)] :
      List (Instr × Nat)), c.op = x.2 → exec x.1 s = .next (s.ctlDone die c 1 0)) ∧
    (∀ c, s.ctlNext die = some (c, false) → c.op = 2 →
      exec (if c.flags % 2 = 0 then .resume die else .resumeFatal die) s = .next (s.ctlDone die c 1 0)) ∧
    (∀ c, s.ctlNext die = some (c, true) →
      (c.op = 1 →
        let drop := s.allTlb.filter (invalHits c)
        let t := (s.dropTlb (invalHits c) (ptrHits c)).ctlActs die c drop
        (t.underWay c.asid c.va (c.count * 4096) drop s.nextId = false → exec (.inval die) s = .next (t.ctlDone die c 0 0)) ∧
        (t.underWay c.asid c.va (c.count * 4096) drop s.nextId = true → exec (.inval die) s = .next t)) ∧
      (c.op = 2 → c.flags % 2 = 0 →
        let t := (s.resumePage c.asid (c.va / 4096)).ctlActs die c []
        (t.replaying c.asid c.onePage 4096 = false → exec (.resume die) s = .next (t.ctlDone die c 0 0)) ∧
        (t.replaying c.asid c.onePage 4096 = true → exec (.resume die) s = .next t)) ∧
      (c.op = 2 → c.flags % 2 = 1 → exec (.resumeFatal die) s = .next ((s.fatalPage c.asid (c.va / 4096)).ctlDone die c 0 0)) ∧
      (c.op = 3 → (s.holdsLeaf die c = true → exec (.fill die) s = .next (s.setDie die { s.die die with tcRun := some c })) ∧
        (s.holdsLeaf die c = false → exec (.fill die) s = .next (s.ctlDone die c 5 0))) ∧
      (c.op = 4 → s.asidInUse c.asid = true → exec (.retire die) s = .next (s.ctlDone die c 2 0)) ∧
      (c.op = 4 → s.asidInUse c.asid = false → ∃ w, exec (.retire die) s = .next w ∧ (w.die die).tcRun = some c ∧ w.mem = s.mem ∧
        (∀ d, d < 2 → c.asid ∈ (w.die d).retiring)) ∧
      (c.op = 5 → s.harvestFree die c.asid (c.va + c.count * 4096) c.count c.va = true →
        let r := s.harvestFrom die c.asid (c.va + c.count * 4096) c.count c.va 0
        exec (.harvest die) s = .next (r.2.ctlDone die c 0 r.1)) ∧
      (c.op = 6 → s.holdsLeaf die c = false → exec (.migrate die) s = .next (s.ctlDone die c 5 0)) ∧
      (c.op = 6 → s.holdsLeaf die c = true →
        let old := pteFrame (s.pte c.a)
        let new := pteFrame c.b
        let (va, len) := c.page
        (s.migrating die old new len = true → exec (.migrate die) s = .next (s.ctlDone die c 3 0)) ∧
        (s.migrating die old new len = false →
        s.homesFree old len = true → s.homesFree new len = true → s.homesFree c.a 8 = true → s.sharersIn old len = [] →
        exec (.migrate die) s =
          .next (let t := (s.migrateBegins die c).evict old len
                 let t1 := (t.engineWrite new (t.mem.read old len)).engineWrite c.a (leBytes 8 c.b)
                 let t2 := t1.dropTlb (fun e => decide (e.va < va + len) && decide (va < e.va + e.size) && (e.global || e.asid == c.asid))
                   (fun e => e.asid == c.asid && e.meets va len)
                 (t2.moved die old len).ctlDone die c 0 0)))) ∧
    (∀ c, s.ctlWaits die 1 = some c →
      let on := s.underWay c.asid c.va (c.count * 4096) (s.die die).tcDrop (s.die die).tcMark
      (on = false → exec (.inval die) s = .next (s.ctlDone die c 0 0)) ∧ (on = true → exec (.inval die) s = .next s)) ∧
    (∀ c bytes, (s.die die).tcRun = some c → (s.die die).tcActed = false →
      (c.op = 3 → exec (.nvmeReadComplete die false bytes) s = .next (s.ctlDone die c 4 0)) ∧
      (c.op = 3 → bytes.length = c.page.2 → s.homesFree (pteFrame c.b) c.page.2 = true → s.homesFree c.a 8 = true →
        let t := (((s.engineWrite (pteFrame c.b) bytes).engineWrite c.a (leBytes 8 c.b)).resumeAll c.asid c.page.1 c.page.2).ctlActs die c []
        (t.replaying c.asid c.page.1 c.page.2 = false → exec (.nvmeReadComplete die true bytes) s = .next (t.ctlDone die c 0 0)) ∧
        (t.replaying c.asid c.page.1 c.page.2 = true → exec (.nvmeReadComplete die true bytes) s = .next t)) ∧
      (c.op = 4 → s.homesFree ((s.die die).atab.toNat + 8 * c.asid) 8 = true → ∃ w, exec (.retire die) s = .next w ∧
        (w.die die).tcRun = none ∧ ∀ d, d < 2 → c.asid ∉ (w.die d).retiring))

/-! ## Writes and caches -/

/-- WHERE A WRITE LANDS (R291, R292, R341): a buffered write that nothing holds back reaches its home, and one whose messages are all
acknowledged is performed; either way every byte of memory outside the write's own range reads as before, but for the byte of the
write-record bitmap that holds its frame's bit. A store that lands leaves its bytes at its address. -/
def Obligations.WritesLand : Prop :=
  (∀ (s : State) (core id : Nat) (w : Write), s.writes.find? (fun x => x.id == id && x.core == core) = some w →
    (w.sent = false → s.heldBack w = false → exec (.homeWrite core id) s = .next (s.arrive w)) ∧
    (∀ t, (w.nib = none ∨ w.bytes.length = 1) → exec (.homeWrite core id) s = .next t → t.spad = s.spad ∧ t.caddy = s.caddy ∧
      ∀ a, (a < w.pa ∨ w.pa + w.span ≤ a) → a ≠ recordByte s w.pa → t.mem.byte a = s.mem.byte a)) ∧
  (∀ (s : State) (id : Nat) (w : Write), s.writes.find? (fun x => x.id == id) = some w →
    (w.sent = true → s.msgs.any (fun m => m.write == id) = false → exec (.writePerformed id) s = .next (s.perform w) ∧
      (s.perform w).writes = s.writes.filter (fun x => x.id != w.id)) ∧
    (∀ t, (w.nib = none ∨ w.bytes.length = 1) → exec (.writePerformed id) s = .next t → t.spad = s.spad ∧ t.caddy = s.caddy ∧
      ∀ a, (a < w.pa ∨ w.pa + w.span ≤ a) → a ≠ recordByte s w.pa → t.mem.byte a = s.mem.byte a)) ∧
  (∀ (s : State) (w : Write), w.op = .store → w.nib = none → (recordByte s w.pa < w.pa ∨ w.pa + w.bytes.length ≤ recordByte s w.pa) →
    ∀ i, i < w.bytes.length → (s.perform w).mem.byte (w.pa + i) = w.bytes.getD i 0)

/-- What the L1s and the directory do (R284-R294, R296, R307, R418, R433): an agent takes its messages in order, an invalidation dropping its
line, or its package's share of the region; a read that misses fills its line with the bytes at home, in E where no one else holds the
grain; a subscribing one fills a subscribed line; an upgrade makes it exact; a release frees its slot; a lease line that is over goes; an
engine's read changes no memory. That a line fills at the turn of its event, whole, is the model's reading (log 74). -/
def Obligations.Caches : Prop :=
  ∀ (s : State) (agent pa : Nat),
    let att := s.pageOf agent pa
    let dir := s.dirFind pa att.grain
    let local_ := (isHbm pa || isLpddr pa) = true ∧ isCache agent = true
    (∀ m rest, isProxy agent = false → takeMsg agent false s.msgs = some (m, rest) →
      exec (.invalidationReceive agent) s = .next (({ s with msgs := rest } : State).receive m) ∧
      (m.update = false → (({ s with msgs := rest } : State).receive m).line m.agent m.pa = none)) ∧
    (∀ m rest, isProxy agent = false → takeMsg agent true s.msgs = some (m, rest) →
      exec (.updateReceive agent) s = .next (({ s with msgs := rest } : State).receive m)) ∧
    (∀ m rest, isProxy agent = true → takeMsg agent false s.msgs = some (m, rest) →
      ∃ w, exec (.invalidationReceive agent) s = .next w ∧ w.msgs = rest ∧ w.mem = s.mem ∧ (w.die (homeDie m.pa)).regions =
        (s.die (homeDie m.pa)).regions.filter (fun r => !(proxyAgent m.pa r.pkg == agent && r.region == m.pa / 2048))) ∧
    ((isHbm pa || isLpddr pa) = true → exec (.homeEngineRead pa) s = .next (s.engineRead pa 1) ∧ (s.engineRead pa 1).mem = s.mem) ∧
    (local_ → s.line agent pa = none → att.bdb = false → att.mtype = 0 → dir.2.busy = none →
      ∃ w, exec (.exactFill agent pa) s = .next w ∧ w.mem = s.mem ∧ w.crew = s.crew ∧
        (∃ l ∈ w.lines, l.agent = agent ∧ l.pa = dir.1 ∧ l.len = dir.2.len ∧ l.bytes = s.mem.read dir.1 dir.2.len ∧
          l.state = (if dir.2.isEmpty ∧ s.sharers pa = [] then .excl else .shrd))) ∧
    (local_ → s.line agent pa = none → att.bdb = false → att.mtype = 1 → s.homesFree (pa / att.grain * att.grain) att.grain = true →
      ∃ w, exec (.exactFill agent pa) s = .next w ∧ w.mem = s.mem ∧ w.crew = s.crew ∧
        ∃ l ∈ w.lines, l.agent = agent ∧ l.state = .lease s.now ∧ l.bytes = s.mem.read (pa / att.grain * att.grain) att.grain) ∧
    (∀ fmt, local_ → (l1Size agent).isSome = true → s.line agent pa = none → att.bdb = false → att.mtype = 0 → dir.2.busy = none →
      1 ≤ fmt → fmt ≤ 7 → (srcType att.etype).isSome = true → (dir.2.etype = 0 ∨ dir.2.etype = att.etype) →
      (dir.2.len = att.grain ∨ dir.2.isEmpty = true) → ∃ w, exec (.subscribeFill agent pa fmt) s = .next w ∧ w.mem = s.mem ∧
        ∃ l ∈ w.lines, l.agent = agent ∧ l.pa = dir.1 ∧ l.state = .sub fmt ∧ l.etype = att.etype) ∧
    (∀ l fmt, (isHbm pa || isLpddr pa) = true → s.line agent pa = some l → l.state = .sub fmt → (s.dirFind l.pa l.len).2.busy = none →
      ∃ w, exec (.upgrade agent pa) s = .next w ∧ w.mem = s.mem ∧ ∃ x, w.line agent pa = some x ∧ x.state = .shrd ∧
        x.bytes = s.mem.read (s.dirFind l.pa l.len).1 (s.dirFind l.pa l.len).2.len) ∧
    (∀ l, s.line agent pa = some l → exec (.subscriptionRelease agent pa) s = .next (s.release l) ∧
      (inPod (l.pa % 2 ^ 52) = false → (∀ n, l.state ≠ .lease n) → s.release l =
        (s.dropLine l.agent l.pa).settle (s.dirFind l.pa l.len).1 ((s.dirFind l.pa l.len).2.drop agent))) ∧
    (∀ l, s.line agent pa = some l → (s.leaseOver l = true → exec (.leaseExpire agent pa) s = .next (s.dropLine agent pa)) ∧
      (s.leaseOver l = false → exec (.leaseExpire agent pa) s = .next s)) ∧
    (local_ → (∀ l, s.line agent pa = some l → l.writable = false) → att.bdb = false → att.mtype = 0 → dir.2.busy = none →
      exec (.writeOwnershipRequest agent pa) s = .next
        (let w : Write := { id := s.nextId, core := agent, uid := 0, strm := .s, word := s.nextId, key := 0, asid := 0, oc := 0, sc := 5,
                            va := 0, pa := pa, bytes := [], nib := none, op := .own, att := att, sent := false, takes := false }
         (s.fresh.2.buffer w).arrive w))

/-- The fabric, display and PCIe (R264, R283, R295-R297, R300, R411, R412): an invalidation drops every local copy of the bytes that it names,
an update is processed by the proxy; a lost link drops every copy of its package on both dies; a package that does not acknowledge within
the bound is dropped with an error record; a request arrives at one of the 8 ports that is not fenced and has room, and the first that may
be performed is: a write, an atomic or a read at its home; one that is late, or answered with poison, ends with its record or its poison; display and PCIe read and write at home. -/
def Obligations.Fabric : Prop :=
  ∀ (s : State) (die : Nat),
    let d := s.die die
    (∀ region off len, off + len ≤ 2048 →
      let key := grainKey die (regionAddr region off)
      ∃ w, exec (.fabricInvalidate die region off len) s = .next w ∧ w.mem = s.mem ∧ w.crew = s.crew ∧ w.rest = s.rest ∧
        ∀ l, l ∈ w.lines ↔ l ∈ s.lines ∧ ¬(l.pa < key + len ∧ key < l.pa + l.len)) ∧
    (∀ region off bytes, off + bytes.length ≤ 2048 → exec (.fabricUpdate die region off bytes) s =
      .next ((s.proxyApply die (regionAddr region off) bytes).proxySync die (regionAddr region off))) ∧
    (∀ pkg, ∃ w, exec (.linkLoss die pkg) s = .next w ∧ w.mem = s.mem ∧ w.crew = s.crew ∧ w.rest = s.rest ∧
      (∀ x, (x = die ∨ x = 1 - die) → (w.die x).proxies = (s.die x).proxies.filter (fun r => r.pkg != pkg)) ∧
      ∀ l, l ∈ w.lines ↔ l ∈ s.lines ∧ ¬(2 ^ 52 ≤ l.pa ∧ podPkg (l.pa % 2 ^ 52) = pkg)) ∧
    (∀ pkg region, let mine := fun (m : Msg) => m.agent == 512 * die + 384 + pkg % 128 && m.pa / 2048 == region
      d.regions.any (fun r => r.pkg == pkg && r.region == region) = true →
      s.msgs.any (fun m => mine m && decide (m.sent + cyclesOf d.fxItmo.toNat ≤ s.now)) = true →
      ∃ w, exec (.sharerAckTimeout die pkg region) s = .next w ∧
        (w.die die).regions = d.regions.filter (fun r => !(r.pkg == pkg && r.region == region)) ∧
        w.msgs = s.msgs.filter (fun m => !mine m) ∧
        (w.die die).events.length = d.events.length + 1 ∧ (w.die die).log = d.log ++ [.sharerDropped pkg region] ∧ w.mem = s.mem) ∧
    (∀ port a, port < 8 → d.fenced.contains (3, port) = false → ((d.fabIn.filter (fun x => x.1 == port)).map (fun x => x.2)).length < 512 →
      exec (.inboundFabricRequest die port (some a)) s = .next (s.fresh.2.setDie die { d with fabIn := d.fabIn ++ [(port,
        { id := s.nextId, stream := a.stream, oc := a.oc, asid := a.asid, pkg := a.pkg, va := a.va, len := a.len, data := a.data,
          aop := a.aop, fmt := a.fmt, upd := a.upd, etype := a.etype, arrived := s.now })] })) ∧
    (∀ port a, 8 ≤ port ∨ d.fenced.contains (3, port) = true → exec (.inboundFabricRequest die port a) s = .next s) ∧
    (∀ port r pa att, port < 8 → d.fenced.contains (3, port) = false → pickReq (fun r => (s.faultOut die r.asid r.va r.kind).isNone) [] ((d.fabIn.filter (fun x => x.1 == port)).map (fun x => x.2)) = some r →
      s.engineTr die r.asid r.va r.kind = .ok pa att → s.homesFree pa r.len = true →
      (∀ bs, r.data = some bs → exec (.inboundFabricRequest die port none) s = .next ((s.reqDone die r.id).engineWrite pa bs)) ∧
      (∀ a, r.data = none → r.aop = some a →
        exec (.inboundFabricRequest die port none) s = .next ((s.reqDone die r.id).engineAtomic pa r.len a)) ∧
      (r.data = none → r.aop = none → isPcie pa = false →
        exec (.inboundFabricRequest die port none) s = .next (((s.reqDone die r.id).engineRead pa r.len).noteSharer pa r)) ∧
      (r.data = none → r.aop = none → isPcie pa = true →
        exec (.inboundFabricRequest die port none) s = .next ((s.reqDone die r.id).engineRead pa r.len))) ∧
    (∀ port x, (d.fabIn.filter (fun x => x.1 == port)).find? (fun x => decide (x.2.arrived + cyclesOf (max d.fxTmo.toNat 10) ≤ s.now)) = some x →
      exec (.targetTimeout die port) s =
        .next (((s.reqDone die x.2.id).fabricError die x.2.asid 1 port x.2.pkg x.2.va).fwLog die (.inboundFault x.2.asid x.2.va true))) ∧
    (∀ id x, d.fabOut.find? (fun x => x.id == id) = some x →
      (x.left + cyclesOf d.fxItmo.toNat ≤ s.now → exec (.initiatorTimeout die id) s = .next (s.poisonOut die x 2)) ∧
      (s.now < x.left + cyclesOf d.fxItmo.toNat → exec (.initiatorTimeout die id) s = .next s) ∧
      exec (.poisonedCompletion die id) s = .next (s.poisonOut die x 1)) ∧
    (∀ head addr len, head < 4 → (localReach s.reduced addr == .memory) = true → ∃ w, exec (.scanoutRead head addr len) s = .next w ∧
      (head, s.mem.read addr len) ∈ w.scanout ∧ w.mem = s.mem) ∧
    (∀ port addr len, port < 2 → (localReach s.reduced addr == .memory) = true →
      exec (.pcieInboundRequest port addr len none) s = .next (s.engineRead addr len) ∧
      (∀ bs, s.homesFree addr bs.length = true → exec (.pcieInboundRequest port addr len (some bs)) s = .next (s.engineWrite addr bs)))

/-! ## The front end -/

/-- A command queue free for its next command, its interrupt raised where the command asks for it (R346, R347). -/
def Sys2Proof.Machine.State.freed (t : State) (die q asid : Nat) : State :=
  let x := t.cmdq die q
  ((t.setCmdq die q x.release).interrupt die (bitOf (fieldAt x.cmd 1 1) 1)).queueLetsGo die q asid

/-- Commands (R346-R348, R386): a queue that offers a command, while fewer than 16 commands run on the die, nothing of a higher priority
waits and nothing of its own stands before it in the rotation, has its next command taken; one that was taken before, and held while what
it names was read, goes on. A launch whose tables are good starts with its kernel's crews still to be bound; a wait holds the queue; a
chain starts with both copies zero; a draw stream starts at its first record; a command that breaks a rule gets a record of status 1. A
wait ends with status 0 once the word has reached the value. That a command counts as taken while what it names is still read is the
model's reading (log 101). -/
def Obligations.Commands : Prop :=
  ∀ (s : State) (die q : Nat),
    let x := s.cmdq die q
    let asid := ctlAsid x.ctl
    let w := Asker.queue die q asid
    let b := if x.reading then x.cmd else s.command x
    let f := fieldAt b
    let s1 := if x.reading then s else (s.setCmdq die q (x.take b)).serves die q
    let taken := fun (t : State) => (t.cmdq die q).busy = (s1.cmdq die q).busy ∧ (t.cmdq die q).reading = false ∧
      (t.cmdq die q).head = (s1.cmdq die q).head ∧ t.mem = s.mem ∧ t.crew = s.crew ∧ t.rest = s.rest
    (x.reading = false → (s1.cmdq die q).busy = true ∧ (s1.cmdq die q).head = BitVec.ofNat 16 ((x.head.toNat + 1) % x.slots)) ∧
    (x.reading = true ∨ (s.offersCmd x = true ∧ s.mayTake die q (ctlPrio x.ctl) = true ∧ s.snoops x.slotAt 64 = false) →
      (∀ k, f 0 1 = 1 → s1.earlyRefusal die asid b true = none →
        s1.readKernel w (f 8 8) [0] (f 16 16) (f 32 16) (s1.gfxTable x.gs) = .ok (.inr k) →
        ∃ (t : State) (l : Launch), exec (.launch die q) s = .next t ∧ taken t ∧ t.launches = s.launches ++ [l] ∧ l.src = .queue die q ∧ l.asid = asid ∧
          l.prio = ctlPrio x.ctl ∧ l.kern = k ∧ l.total = crewCount k.levels ∧ l.set0 = f 16 16 ∧ l.set1 = f 32 16 ∧ l.image = f 48 8 ∧
          l.crec = f 56 8 ∧ l.parts = [] ∧ l.bound = 0) ∧
      (f 0 1 = 4 → s1.earlyRefusal die asid b false = none → ∃ t : State, exec (.waitCommand die q) s = .next t ∧ taken t ∧
        (t.cmdq die q).waiting = some (f 8 8, f 16 8)) ∧
      (f 0 1 = 2 → q < 64 → s.chains.find? (fun c => c.die == die && c.q == q) = none → s1.earlyRefusal die asid b false = none →
        ∃ (t : State) (c : Chain), exec (.operatorChain die q) s = .next t ∧ taken t ∧ t.chains = s.chains ++ [c] ∧ c.die = die ∧ c.q = q ∧ c.asid = asid ∧
          c.next = some (f 8 8) ∧ c.active = Bank.zero ∧ c.shadow = Bank.zero ∧ c.current = none) ∧
      (f 0 1 = 3 → s.reader die q = none → s.passes.find? (fun p => p.die == die && p.own == die && p.q == q) = none →
        s1.earlyRefusal die asid b true = none → 0 < (if die = 0 then f 16 16 else f 32 16) →
        (if die = 0 then f 16 16 else f 32 16) < 2 ^ 128 →
        ∃ (t : State) (p : Pass), exec (.drawStream die q) s = .next t ∧ taken t ∧ t.passes = s.passes ++ [p] ∧ p.at_ = f 8 8 ∧ p.state = 0 ∧ p.asid = asid) ∧
      (∀ r t, f 0 1 = 1 → s1.earlyRefusal die asid b true = some r →
        s1.postRecord w (f 56 8) (recordBytes 1 r asid 0 0 0 s.now (f 8 8)) = .ok t →
        exec (.launch die q) s = .next (t.freed die q asid) ∧ ((t.freed die q asid).cmdq die q).busy = false)) ∧
    (x.reading = false → (s.offersCmd x = false ∨ s.mayTake die q (ctlPrio x.ctl) = false) → exec (.launch die q) s = .next s) ∧
    (∀ a v c, x.waiting = some (a, v) → s.vaFetch w a 8 = .ok c →
      (leNat c < v → exec (.waitCommandPoll die q) s = .next s) ∧
      (∀ t, v ≤ leNat c → s.postRecord w (fieldAt x.cmd 56 8) (recordBytes 0 0 asid 0 0 0 s.now a) = .ok t →
        exec (.waitCommandPoll die q) s = .next (t.freed die q asid)))

/-- Chains, tasks and job cards (R308, R349, R350, R354, R407, R408): a chain's next record is applied to its shadow; once no operator
runs, the shadow becomes active and its operator launches, unless it has a D level and a lead allowance holds a die; a task launches its kernel with its parameters over the pool; a card whose
edges are done starts: a launch, a list that the scatter-gather engine runs, or a solver job. A launch whose crews have all retired and
whose writes have all ended empties the L1s of the cores its crews ran on and is told; before that the phase of each die rises as an
operator with a D level completes there (log 61). -/
def Obligations.ChainsTasksCards : Prop :=
  ∀ (s : State),
    (∀ die q c at_ h b k, s.chains.find? (fun c => c.die == die && c.q == q) = some c → c.killed = false → c.ready = false →
      c.next = some at_ → at_ % 64 = 0 → s.vaFetch c.asker.ahead at_ 16 = .ok h → fieldAt h 8 2 ≤ 1023 → fieldAt h 10 6 = 0 →
      s.vaFetch c.asker.ahead (at_ + 16) (16 * fieldAt h 8 2) = .ok b → c.shadow.apply c.solver.isSome b (fieldAt h 8 2) = some k →
      exec (.operatorChain die q) s = .next (s.mapChain c.id (fun c =>
        { c with shadow := k, ready := true, next := if fieldAt h 0 8 = 0 then none else some (fieldAt h 0 8) }))) ∧
    (∀ id c kern, s.chains.find? (fun c => c.id == id) = some c → c.ready = true → c.killed = false → c.current = none →
      (c.offers = true → s.mayTake c.die c.queueNo c.prio = true) → c.shadow.image.toNat % 4096 = 0 → s.asidGood c.die c.asid = true →
      let s1 := if c.offers then (s.serves c.die c.queueNo).mapChain id (fun c => { c with taken := true }) else s
      let holds := s1.leadHolds 0 || s1.leadHolds 1
      s1.readKernel c.asker c.shadow.desc.toNat [0] c.shadow.set0.toNat c.shadow.set1.toNat
        (if c.solver.isSome then ([], []) else s1.gfxTable (s1.cmdq c.die c.q).gs) = .ok (.inr kern) →
      (kern.twoDies = true → holds = true → exec (.operatorSwap id) s = .next (s1.mapChain id (fun c => { c with held := true }))) ∧
      (kern.twoDies = false ∨ holds = false →
        ∃ (t : State) (l : Launch), exec (.operatorSwap id) s = .next t ∧ t.launches = s.launches ++ [l] ∧ l.src = .chain id ∧ l.total = crewCount kern.levels ∧
          l.kern = { kern with pool := c.shadow.poolOver kern.pool } ∧ t.mem = s.mem ∧
          t.chains = s1.chains.map (fun y => if y.id = id then
            { y with active := c.shadow, current := some l.id, ready := false, taken := false, held := false } else y))) ∧
    (∀ die q b k, let x := s.taskq die q
      let slot := s.phys x.slotAt 16
      let desc := fieldAt slot 0 8
      let serial := fieldAt slot 8 8 / 2 ^ 16 % 2 ^ 32
      let w := Asker.task die q (ctlAsid x.ctl)
      let s1 := (s.setTaskq die q (x.take desc serial)).serves die (64 + q)
      x.reading = none → s.offersTask x = true → s.mayTake die (64 + q) (ctlPrio x.ctl) = true → s.snoops x.slotAt 16 = false →
      s1.vaFetch w desc 64 = .ok b → taskGood desc b = true → s1.asidGood die (ctlAsid x.ctl) = true → x.image.toNat % 4096 = 0 →
      s1.readKernel w (fieldAt b 0 8) [0] x.set0.toNat x.set1.toNat ([], []) = .ok (.inr k) → k.npu = true →
      ∃ (t : State) (l : Launch), exec (.taskLaunch die q) s = .next t ∧ (t.taskq die q).busy = true ∧
        (t.taskq die q).head = BitVec.ofNat 16 ((x.head.toNat + 1) % x.slots) ∧ t.launches = s.launches ++ [l] ∧
        l.src = .task die q serial ∧ l.total = crewCount k.levels ∧ t.mem = s.mem ∧
        (∀ i, i < fieldAt b 8 1 → SMap.get 0 l.kern.pool i = BitVec.ofNat 32 (fieldAt b (16 + 4 * i) 4)) ∧
        (∀ i, fieldAt b 8 1 ≤ i → SMap.get 0 l.kern.pool i = SMap.get 0 k.pool i)) ∧
    (∀ die serial k, (s.die die).cards.find? (fun k => k.serial == serial) = some k → (s.die die).cardReady k = true →
      (∀ b kern, k.kind = 1 → (k.taken = true ∨ s.mayTake die cardQueueNo 0 = true) →
        let s1 := if k.taken then s else (s.mapCard die k.serial (fun x => { x with taken := true })).serves die cardQueueNo
        s1.vaFetch (k.asker die) k.a 64 = .ok b → fieldAt b 0 1 = 1 → s1.earlyRefusal die k.asid b true = none →
        s1.readKernel (k.asker die) (fieldAt b 8 8) [0] (fieldAt b 16 16) (fieldAt b 32 16) ([], []) = .ok (.inr kern) →
        ∃ (t : State) (l : Launch), exec (.jobCardStart die serial) s = .next t ∧ t.launches = s.launches ++ [l] ∧ l.src = .card die serial ∧ l.kern = kern ∧
          l.prio = 0 ∧ t.mem = s.mem) ∧
      (∀ r, k.kind = 2 → k.held = none → s.cardRun die k = some r → r.fin = .ok () →
        exec (.jobCardStart die serial) s = .next (if r.s.farOut 0 then r.keepCard die k none else r.s.endCard die k.serial true)) ∧
      (k.kind = 3 → (s.sequencer (s.leastSequencer die)).queue.length < 4 → ∃ t : State, exec (.jobCardStart die serial) s = .next t ∧
        (t.sequencer (s.leastSequencer die)).queue = (s.sequencer (s.leastSequencer die)).queue ++
          [⟨serial, die, k.asid, k.a, k.uid⟩] ∧ t.mem = s.mem)) ∧
    (∀ id l d, s.launches.find? (fun l => l.id == id) = some l → s.phaseDue l = some d →
      exec (.launchEnd id) s = .next ((s.phaseDone d).mapLaunch id (fun l => { l with phased := l.phased ++ [d] }))) ∧
    (∀ id l, s.launches.find? (fun l => l.id == id) = some l → s.phaseDue l = none → s.launchOver l = false →
      exec (.launchEnd id) s = .next s) ∧
    (∀ id l, s.launches.find? (fun l => l.id == id) = some l → s.phaseDue l = none → s.launchOver l = true →
      let emptied := l.agents.dedup.foldl (fun s k => s.flushCore k) s
      (∀ die q t, l.src = .queue die q →
        emptied.postRecord (Asker.queue die q l.asid) l.crec (recordBytes (if l.killed then 3 else 0) 0 l.asid l.retired 0 0 s.now l.a) = .ok t →
        ∃ w : State, exec (.launchEnd id) s = .next w ∧ w.mem = t.mem ∧ w.cmdq die q = (t.cmdq die q).release ∧
          w.launches = t.launches.filter (fun x => x.id != id)) ∧
      (∀ die serial, l.src = .card die serial → ∃ t : State, exec (.launchEnd id) s = .next t ∧ t.mem = s.mem ∧
        (t.die die).cards = (s.die die).cards.filter (fun k => k.serial != serial) ∧
        t.launches.map (fun x => x.id) = (s.launches.filter (fun x => x.id != id)).map (fun x => x.id)))

/-! ## The slot table -/

/-- BIND (R34, R351, R352): a record that a rule refuses changes its slot's `refused` and the log alone; a fresh record for the next crew of
a launch starts it with its kernel's entry PCs and its loop indices in g1 to g6; a resumed one goes on from its image, and is refused
where there is none or it is not sealed. Two clauses are the model's choice (log 57): a record that is for no launch's next crew starts a
crew of its own, and a core that is shut refuses with reason 1. -/
def Obligations.Bind : Prop :=
  ∀ (s : State) (core slot : Nat) (r : BindRec), agentExists core = true → slot < coreSlots (placeAt core slot).npu →
    let p := placeAt core slot
    (s.coreShut core = true → s.bindRefusal core slot r none = some 1) ∧
    (∀ n, n ≠ 4 → s.bindRefusal core slot r none = some n → exec (.bind core slot r) s = .next (s.refuseBind core slot r n) ∧
      (SMap.get Slot.free ((s.refuseBind core slot r n).core core).slots slot).refused = n ∧
      ((s.refuseBind core slot r n).die (agentDie core)).log = (s.die (agentDie core)).log ++ [.bindRefused n r.asid] ∧
      (s.refuseBind core slot r n).crews = s.crews) ∧
    (∀ l q, s.bindRefusal core slot r none = none → s.bindTarget p r = some (l, q) →
      exec (.bind core slot r) s = .next (s.bindFresh p r l q) ∧
      (r.group = 0 → (∀ d n, l.src ≠ .draw d n) → (∀ c ∈ s.crews, c.uid ≠ s.nextId) →
        ∃ c, (s.bindFresh p r l q).findCrew s.nextId = some c ∧ c.life = .running ∧ c.place = p ∧ c.q = q ∧ c.kern = l.kern ∧
          c.s.pc = l.kern.entry ∧ c.s.status = .running ∧ c.v = Stream.start ∧ c.m = Stream.start ∧
          c.k.status = (if l.kern.ae && p.npu then .running else Stream.start.status) ∧
          (∀ n : GReg, 1 ≤ n.toNat → n.toNat ≤ 6 → c.rdG n = BitVec.ofNat 64 (r.g.getD (n.toNat - 1) 0)) ∧
          (∀ n : GReg, 6 < n.toNat → c.rdG n = 0) ∧
          (SMap.get Slot.free ((s.bindFresh p r l q).core p.agent).slots slot).state = 2)) ∧
    (∀ k, s.bindRefusal core slot r none = none → s.bindTarget p r = none →
      s.pixelTarget p r = none → s.strayKernel (Asker.bind p.die p.agent p.slot r.asid) r.desc = .ok k → (∀ c ∈ s.crews, c.uid ≠ s.nextId) →
      ∃ (t : State) (c : Crew), exec (.bind core slot r) s = .next t ∧ t.findCrew s.nextId = some c ∧ c.place = p ∧ c.bindRec = r ∧
        c.s.pc = k.entry) ∧
    (let w := Asker.bind p.die core slot r.asid
     s.bindRefusal core slot r none = some 4 →
      (s.imageOf r = none → exec (.bind core slot r) s = .next ((s.refuseBind core slot r 4).letGo w)) ∧
      (∀ c b, s.imageOf r = some c → s.imageBytes w r c = .ok b →
        (∀ n, s.bindRefusal core slot r (some b) = some n → exec (.bind core slot r) s = .next ((s.refuseBind core slot r n).letGo w)) ∧
        (s.bindRefusal core slot r (some b) = none → exec (.bind core slot r) s = .next ((s.bindResume p r c b).letGo w))))

/-- A kill (R262, R263, R427): no crew of the ASID is left, and no entry of a side log; what was stopped is counted; the record is handed
to the leading die's queue once no write of the ASID can land, the records of its killed commands among them (`mayStillWrite`). A firmware
core that has lost its lease does neither (R427). -/
def Obligations.ContextKill : Prop :=
  ∀ (s : State) (asid : Nat), (s.leads = false → exec (.contextKill asid) s = .next s ∧ exec (.killComplete asid) s = .next s) ∧
    (s.leads = true →
    (asid < 2 ^ 16 → s.kills.any (fun k => k.asid == asid) = false → ∃ t : State, exec (.contextKill asid) s = .next t ∧
      (∀ c ∈ t.crews, c.killedBy asid = false) ∧ (∀ k, ∀ e ∈ (t.core k).log, e.w.asid ≠ asid) ∧
      (∃ k, t.kills = s.kills ++ [k] ∧ k.asid = asid ∧ k.crews = (s.crews.filter (fun c => c.killedBy asid)).length)) ∧
    (asid < 2 ^ 16 → s.kills.any (fun k => k.asid == asid) = true → exec (.contextKill asid) s = .next s) ∧
    (∀ k, s.kills.find? (fun k => k.asid == asid) = some k → s.mayStillWrite asid = false →
      ∃ t : State, exec (.killComplete asid) s = .next t ∧ t.kills = s.kills.filter (fun x => x.asid != asid) ∧
        (t.die s.leader).events = (s.die s.leader).events ++ [⟨3, k.body s.now⟩] ∧ t.mem = s.mem) ∧
    (s.mayStillWrite asid = true → exec (.killComplete asid) s = .next s))

/-! ## The solver sequencer and the raster front end -/

/-- The sequencer (R367, R371-R375): a job whose descriptor breaks a rule ends with status 2; a good one starts with the samples that are not
done; a stage is built into the batch area and its chain submitted; its outputs become the samples' evaluations; a chain that failed ends
the job with status 4. A job's end writes its status, the failed sample and the rounds, waits for the sharer packages' acknowledgements
(R296), and then signals or fails its fence.
The raster front end (R387, R390, R393, R394, R419): a primitive goes into the list of each bin it touches, or, where the tray has no room,
a partial render starts; a pixel crew gets its early tests; the bins of a pass are rendered in order; an export that nothing precedes is
blended; a die held by its lead allowance goes on. Front end c of die d is numbered 16 d + c (log 39). -/
def Obligations.SolverAndRaster : Prop :=
  (
    ∀ (s : State) (seq : Nat), let die := seq / 64
      (∀ r queue rounds status fsamp,
        let w := r.asker seq
        let bytes := leBytes 4 status ++ leBytes 4 fsamp ++ (match rounds with
          | some k => leBytes 4 k
          | none => [])
        let kept : SolverRun := { r with fin := some (status, fsamp, rounds) }
        let ends := fun (t : State) => ((t.setSequencer seq { run := none, queue := queue }).endCard r.job.die r.job.serial (status == 1)).letGo w
        (r.phase = 2 → s.endSolver seq r queue rounds status fsamp = .next (if s.farOut 0 then s else ends s)) ∧
        (∀ t, r.phase ≠ 2 → (s.setSequencer seq { run := some kept, queue := queue }).vaStore w (r.job.desc + 68) bytes = .ok t →
          s.endSolver seq r queue rounds status fsamp =
            .next (if t.farOut 0 then t.setSequencer seq { run := some { kept with phase := 2 }, queue := queue } else ends t))) ∧
      (∀ j rest d, let w := Asker.solver seq j.asid
        (s.sequencer seq).run = none → (s.sequencer seq).queue = j :: rest → s.vaFetch w j.desc 128 = .ok d →
        (solverDescGood j.desc d = false → exec (.solverJobStart seq) s = s.endSolver seq (SolverRun.idle j) rest none 2 0xFFFFFFFF) ∧
        (∀ c f m t, let part := fun (i : Nat) => (m.drop (64 * i)).take 64
          let n := fieldAt d 24 4
          let active := (List.range n).filter (fun i => !FVal.eq (f32 (fieldAt (part i) 0 4)) (f32 (fieldAt (part i) 8 4)))
          solverDescGood j.desc d = true → s.vaFetch w (fieldAt d 0 8) 360 = .ok c → s.vaFetch w (fieldAt d 8 8) 1024 = .ok f →
          s.vaFetch w (fieldAt d 16 8) (64 * n) = .ok m → coefGood c = true → ftabGood f = true →
          (∀ i, i < n → sampleGood (fieldAt d 56 4) (part i) = true) → active ≠ [] →
          s.solverStore w [] (((List.range n).map part).mapIdx (fun i b => (fieldAt d 16 8 + 64 * i + 22,
            leBytes 1 (if FVal.eq (f32 (fieldAt b 0 4)) (f32 (fieldAt b 8 4)) then 1 else 0)))) = .ok t →
          ∃ (x : State) (r : SolverRun), exec (.solverJobStart seq) s = .next x ∧ x.sequencer seq = { run := some r, queue := rest } ∧ r.job = j ∧ r.dbytes = d ∧
            r.coef = c ∧ r.ftab = f ∧ r.stage = 0 ∧ r.phase = 0 ∧ r.rounds = 0 ∧ r.batch = active ∧ x.mem = t.mem)) ∧
      (∀ r, let w := r.asker seq
        (s.sequencer seq).run = some r →
        (∀ status fsamp rounds, r.fin = some (status, fsamp, rounds) →
          exec (.solverStageComplete seq) s = s.endSolver seq r (s.sequencer seq).queue rounds status fsamp) ∧
        (r.fin = none → r.phase ≠ 0 → r.ended = none → exec (.solverStageComplete seq) s = .next s) ∧
        (∀ n, r.fin = none → r.phase ≠ 0 → r.ended = some (n + 1) →
          exec (.solverStageComplete seq) s = s.endSolver seq r (s.sequencer seq).queue (some r.rounds) 4 0xFFFFFFFF) ∧
        (∀ l t, r.fin = none → r.phase = 0 → Fetch.all (s.stageRow w r) r.batch = .ok l →
          let rows := l.filterMap (fun x => x.getRight?)
          rows ≠ [] → s.solverStore w r.clash (l.filterMap (fun x => x.getLeft?) ++ r.batchWrites rows) = .ok t →
          ∃ (x : State) (c : Chain), exec (.solverStageComplete seq) s = .next x ∧ x.chains = t.chains ++ [c] ∧ c.solver = some seq ∧ c.next = some (r.d 32 8) ∧
            (x.sequencer seq).run = some { r with phase := 1, chain := c.id, ended := none, rows := rows.map (fun x => x.1) } ∧ x.mem = t.mem) ∧
        (∀ l t, r.fin = none → r.phase ≠ 0 → r.ended = some 0 → r.stage + 1 < r.stages →
          Fetch.all (fun (x : Nat × Nat) => (s.vaFetch w (r.sampleAddr x.2) 64).andThen (fun b =>
            (s.solverRead w r.clash (r.d 40 8 + 32832 + 4 * r.nelem * (r.rows.length + x.1)) (4 * r.nelem)).andThen (fun v =>
              .ok (fieldAt b 32 8 + 4 * r.stage * r.nelem, v)))) (r.rows.mapIdx (fun p k => (p, k))) = .ok l →
          s.solverStore w r.clash (l ++ r.clash.map (fun x => (x.1, List.replicate x.2 0))) = .ok t →
          exec (.solverStageComplete seq) s = .next (t.setRun seq { r with stage := r.stage + 1, phase := 0, ended := none })))) ∧
  (
    ∀ (s : State) (die fe : Nat), let at_ := fe / 16
      (∀ u x t y, s.untested at_ (fe % 16) = some (u, x, t) → (if t.late then .ok (s, t.cover) else s.blockTest x t) = .ok y →
        ∃ w : State, exec (.primitiveBin fe) s = .next w ∧ w.mem = y.1.mem) ∧
      (∀ p, s.untested at_ (fe % 16) = none → s.passes.find? (fun p => p.die == at_ && p.hasFront (fe % 16) && (p.state == 1 || p.state == 2)) = some p →
        p.state = 1 → p.draw ≠ [] → p.vlaunch = none →
        (fieldAt p.draw 4 4 ≤ p.nextPrim → exec (.primitiveBin fe) s =
          .next (s.mapPass p (fun x => { x with draw := [], drawNo := x.drawNo + 1, nextPrim := 0 }))) ∧
        (∀ v, p.nextPrim < fieldAt p.draw 4 4 → ¬(p.nextPrim = 0 ∧ p.drawNo ≠ 0 ∧ p.drawNo % 64 = 0 ∧ p.bins ≠ []) → s.vertices p = .ok v →
          let prim := v.bind (makePrim p.nextPrim p.drawNo (fieldAt p.draw 1 1 % 2 == 1))
          (prim = none → exec (.primitiveBin fe) s = .next (s.mapPass p (fun x => { x with nextPrim := x.nextPrim + 1 }))) ∧
          (∀ t, prim = some t → p.blocksNeeded (p.binsOf t) ≤ p.free → exec (.primitiveBin fe) s =
            .next (s.binPrim p t (p.binsOf t))) ∧
          (∀ t, prim = some t → p.free < p.blocksNeeded (p.binsOf t) → exec (.primitiveBin fe) s =
            .next (s.mapPass p (fun x => { x with state := 2 }))))) ∧
      (∀ q p, s.passes.find? (fun p => p.die == die && p.q == q && p.state == 3) = some p →
        (∀ b, p.cur = some b → exec (.passFinal die q) s = .next (if p.binDone then (s.trayFree p b).mapPass p (fun x => x.storeBin b) else s)) ∧
        (∀ t b l, p.cur = none → p.ended < p.binCount → p.bins.find? (fun x => x.1 == p.ended) = some (b, l) → s.startBin p p.ended l = .ok t →
          exec (.passFinal die q) s = .next t) ∧
        (p.cur = none → p.binCount ≤ p.ended → s.writesOver (fun u => p.past.any (fun k => k.1 == u)) = false →
          exec (.passFinal die q) s = .next s) ∧
        (p.cur = none → p.binCount ≤ p.ended → s.writesOver (fun u => p.past.any (fun k => k.1 == u)) = true → exec (.passFinal die q) s =
          .next (let t := s.mapPass p (fun x => { x with state := 0 })
                 if splitOf p.target then t.phaseDone die else t))) ∧
      (∀ id p e t, s.passes.find? (fun p => p.die == at_ && p.exports.any (fun e => e.id == id && e.rid.fe == fe % 16)) = some p →
        p.exports.find? (fun e => e.id == id) = some e →
        (s.blendWaits p e = true → exec (.blendExport fe id) s = .next s) ∧
        (s.blendWaits p e = false → s.exportRun p e = .ok t → ∃ w : State, exec (.blendExport fe id) s = .next w ∧ w.mem = t.1.mem ∧
          w.passes = t.1.passes.map (fun x => if x.die = p.die ∧ x.own = p.own ∧ x.q = p.q then
            { x with
              exports := x.exports.filter (fun y => y.id != id)
              tests := (if e.rid.late && (p.knownTest e).isNone then (e.rid.seq, e.rid.x0, e.rid.y0, e.lane, t.2) :: x.tests else x.tests) }
            else x))) ∧
      (s.leadHolds die = true → exec (.leadAllowanceRelease die) s = .next s) ∧
      (s.leadHolds die = false → exec (.leadAllowanceRelease die) s =
        .next { s with passes := s.passes.map (fun p => if p.die = die then { p with held := false } else p) }))

/-! ## The device's registers and the firmware -/

/-- Registers (R274, R338, R346, R410, R420, R436): a record is written whole before the tail moves, the phase inverts as it wraps, and the
host is interrupted where it asked for it; a snapshot writes the counts and halves or clears them, and waits, its go bit set, while its
array has a write outstanding; a split that would cut off a window is refused; a store to a register's offset writes it, one to no
register's offset, one that is misaligned or one without power changes nothing; a load of no register's offset reads zero.
The firmware (R423, R425-R431): boot takes the image in flash, else the one that TFTP delivers, if its signature and version are good;
a request is answered once the firmware runs; the leader renews its lease, and loses it after 45 ms, to the follower after 50 ms; training
on both parts ends reduced service; a unit that fails its retry is fenced; a reset keeps fuses, used leaves and the flash. The numbers of
sensors (log 17), of the parts that train (log 18) and of unit kinds (log 20), that memory and registers are lost at a reset and a power
loss (log 19), and that die 0's core leads first (log 23) are the model's choices or readings. -/
def Obligations.RegistersAndFirmware : Prop :=
  (
    ∀ (s : State) (die : Nat), let d := s.die die
      (∀ val, ∃ t : State, exec (.eqHeadWrite die val) s = .next t ∧ (t.die die).eqHead = BitVec.ofNat 16 val ∧ t.mem = s.mem) ∧
      (∀ e rest, d.events = e :: rest → d.eqRoom = true →
        let at_ := d.eqBase.toNat + 64 * (d.eqTail.toNat % d.eqSlots)
        let tail := (d.eqTail.toNat + 1) % d.eqSlots
        s.homesFree at_ 64 = true → ∃ t : State, exec (.eventRecordPost die) s = .next t ∧
          (∀ i, i < (e.bytes d.eqPhase d.eqSeq.toNat s.now).length → t.mem.byte (at_ + i) = (e.bytes d.eqPhase d.eqSeq.toNat s.now).getD i 0) ∧
          (t.die die).events = rest ∧ (t.die die).eqTail = BitVec.ofNat 16 tail ∧ (t.die die).eqSeq = d.eqSeq + 1 ∧
          (t.die die).eqPhase = (if tail = 0 then !d.eqPhase else d.eqPhase) ∧
          (t.die die).irqs = d.irqs + (if d.eqCtl.getLsbD 4 then 1 else 0)) ∧
      (d.eqRoom = false → exec (.eventRecordPost die) s = .next s) ∧
      (∀ halve, s.homesFree d.hcBase.toNat 786432 = true →
        let cooled : Die := { d with hot := d.cooled halve, hcHalve := halve, hcGo := false }
        exec (.hotnessSnapshot die halve) s = .next ((s.setDie die cooled).engineWrite d.hcBase.toNat d.hotBytes) ∧
        (∀ n, (d.hot.map Prod.fst).Nodup → SMap.get 0 cooled.hot n = if halve then SMap.get 0 d.hot n / 2 else 0) ∧
        ∀ t, exec (.hotnessSnapshot die halve) s = .next t → (t.die die).hcHalve = halve ∧
          ∀ i, i < d.hotBytes.length → t.mem.byte (d.hcBase.toNat + i) = d.hotBytes.getD i 0) ∧
      (∀ halve, s.homesFree d.hcBase.toNat 786432 = false →
        exec (.hotnessSnapshot die halve) s = .next (s.setDie die { d with hcGo := true, hcHalve := halve })) ∧
      (∀ val, let ways := val % 16
        let refused := ways = 0 ∨ 12 < ways ∨ d.splitBusy.isSome = true ∨ ∃ w ∈ d.windows, 32 * ways < w.2.1 + w.2.2
        (refused → exec (.mcSplitWrite die val) s = .next (s.setDie die { d with splitRefused := true })) ∧
        (¬refused → ∃ t : State, exec (.mcSplitWrite die val) s = .next t ∧ (t.die die).cways = ways ∧ (t.die die).splitBusy = some d.cways ∧
          (t.die die).windows = d.windows ∧ t.mem = s.mem ∧ ∀ a, a < die * 2 ^ 29 + ways * 2 ^ 25 → t.caddy.byte a = s.caddy.byte a)) ∧
      (∃ t : State, exec (.splitChangeComplete die) s = .next t ∧ (t.die die).splitBusy = none ∧ t.mem = s.mem) ∧
      (∀ addr val fw, (s.power = false ∨ addr % 8 ≠ 0) → exec (.registerWrite die addr val fw) s = .next s) ∧
      (∀ addr, registerNamed addr = false → s.registerRead die addr = 0 ∧
        (addr ≠ 2 ^ 24 → ∀ val fw, exec (.registerWrite die addr val fw) s = .next s)) ∧
      (∀ val fw, s.power = true → let v := val % 2 ^ 64
        (∃ t : State, exec (.registerWrite die 0x10 val fw) s = .next t ∧ (t.die die).tcTail = BitVec.ofNat 16 v ∧
          t.registerRead die 0x10 = v % 2 ^ 16 ∧ t.mem = s.mem ∧ t.crew = s.crew) ∧
        (∃ t : State, exec (.registerWrite die 0x0 val fw) s = .next t ∧ (t.die die).atab = pageField v ∧
          t.registerRead die 0x0 = (pageField v).toNat ∧ t.mem = s.mem) ∧
        (∃ t : State, exec (.registerWrite die 0x18 val fw) s = .next t ∧ t.die die = d ∧ t.mem = s.mem) ∧
        (∀ q, q < 64 → ∃ t : State, exec (.registerWrite die (0x1000 + 0x40 * q + 0x10) val fw) s = .next t ∧
          t.cmdq die q = { s.cmdq die q with tail := BitVec.ofNat 16 v } ∧ ∀ n, n ≠ q → t.cmdq die n = s.cmdq die n) ∧
        exec (.registerWrite die 0x160 val false) s = .next { s with pwHost := v % 2 == 1 })) ∧
  (
    ∀ (s : State),
      (∀ i, s.fwImage = none →
        (s.imageGood s.flash = true → exec (.powerOnBoot i) s = .next (s.bootFrom s.flash)) ∧
        (s.imageGood s.flash = false → s.imageGood i = true → exec (.powerOnBoot i) s = .next (s.bootFrom i)) ∧
        (s.imageGood s.flash = false → s.imageGood i = false → exec (.powerOnBoot i) s = .next { s with power := true })) ∧
      (∀ i, (s.bootFrom i).fwImage = some i ∧ (s.bootFrom i).reduced = true ∧ (s.bootFrom i).leader = 0 ∧
        (s.bootFrom i).mem = s.mem) ∧
      (∀ req, s.fwImage.isSome = true → ∀ x ∈ ([(.getVersion req, .version, []), (.getCapabilities req, .capabilities, []),
          (.negotiateAlgorithms req, .algorithms, []), (.getDigests req, .digests, []), (.getCertificate req, .certificate, []),
          (.challenge req, .challenge, []), (.getMeasurements req, .measurements, s.measured)] : List (Instr × SpdmKind × List Measured)),
        ∃ (t : State) (a : SpdmAnswer), exec x.1 s = .next t ∧ t.spdm = s.spdm ++ [a] ∧ a.kind = x.2.1 ∧ a.req = req ∧ a.blocks = x.2.2 ∧ t.mem = s.mem) ∧
      (s.acting = true → s.now < s.renewed + 54000000 → exec .leaderRenew s = .next { s with renewed := s.now, svnBlowing := false }) ∧
      (s.acting = true → s.renewed + 54000000 ≤ s.now → exec .leaderStepDown s = .next { s with acting := false } ∧
        exec .leaderRenew s = .next s) ∧
      (s.fwImage.isSome = true → s.renewed + 60000000 ≤ s.now → exec .leadershipTakeover s =
        .next { s with leader := 1 - s.leader, acting := true, renewed := s.now, svnBlowing := false }) ∧
      (s.now < s.renewed + 60000000 → exec .leadershipTakeover s = .next s) ∧
      (∀ link, s.reduced = true → link < 2 → s.trained = [1 - link] → ∃ t : State, exec (.trainingComplete link) s = .next t ∧ t.reduced = false ∧
        t.mem = s.mem) ∧
      (∀ link, s.reduced = true → link < 2 → s.trained = [] → exec (.trainingComplete link) s = .next { s with trained := [link] }) ∧
      (∀ die kind unit, s.power = true → kind < 4 → (kind, unit) ∉ (s.die die).fenced → ∃ t : State, exec (.unitError die kind unit) s = .next t ∧
        (t.die die).retrying = (s.die die).retrying ++ [(kind, unit)] ∧ t.mem = s.mem) ∧
      (∀ die kind unit rest, (s.die die).retrying = (kind, unit) :: rest →
        (∃ t : State, exec (.errorRetryResult die true) s = .next t ∧ (t.die die).retrying = rest ∧
          (t.die die).erTrans = satUp (s.die die).erTrans ∧ (t.die die).fenced = (s.die die).fenced ∧ t.mem = s.mem) ∧
        (kind = 1 ∨ kind = 3 → ∃ t : State, exec (.errorRetryResult die false) s = .next t ∧ (t.die die).retrying = rest ∧
          (t.die die).erLast = satUp (s.die die).erLast ∧ (kind, unit) ∈ (t.die die).fenced ∧ t.mem = s.mem)) ∧
      (∃ t : State, exec (.tchiefSensorRead 0) s = .next t ∧ t.sensor = some (0, (s.die 0).erTrans.toNat) ∧ t.mem = s.mem) ∧
      (∀ n, ∃ t v, exec (.tchiefSensorRead n) s = .next t ∧ t.sensor = some (n, v) ∧ t.mem = s.mem) ∧
      (∀ p, exec (.tchiefPowerRequest p) s = .next { s with pwTchief := p % 2 == 1 } ∧
        exec (.powerRequestWrite p) s = .next { s with pwHost := p % 2 == 1 }) ∧
      exec .profileChange s = .next { s with profile := s.pwHost || s.pwTchief } ∧
      (∀ i, exec (.tchiefFwUpdate i) s = .next { s with flash := i }) ∧
      (∃ t : State, exec .tchiefReset s = .next t ∧ t.power = s.power ∧ t.leaves = s.leaves ∧ t.flash = s.flash ∧ (s.svnBlowing = false → t.svn = s.svn) ∧
        t.mem = [] ∧ t.rest = [] ∧ t.crew = Crew.absent) ∧
      (∃ t : State, exec .powerLoss s = .next t ∧ t.power = false ∧ t.leaves = s.leaves ∧ t.flash = s.flash ∧ (s.svnBlowing = false → t.svn = s.svn) ∧
        t.mem = [] ∧ t.rest = [] ∧ t.crew = Crew.absent))

/-! ## The machine -/

/-- A step runs the decoded instruction (R62, R63): where the schedule gives a stream its turn, nothing keeps it from issuing, and the bytes at
base + PC × width decode, the step is that instruction's meaning; where they do not decode, it is the encoding trap; an input is
performed as the event it is. The schedule that picks the turn is the model's own (log 2).
Inputs (log 2): the input at the head of the agenda is the next step, performed as the event it is; it leaves the agenda, the stall
counters count (log 84), a crew that a trap has stopped reads halting in its slot, and one firmware-clock cycle goes by. This is the model's choice of schedule. -/
def Obligations.StepRunsDecoded : Prop :=
  (
    ∀ (s s1 : State) (u : Nat) (st : Strm), s.nextAct = some (.issue u st) → s.tick.takeTurn u st = some s1 →
      (∀ b i, s1.crew.canIssue st = true → (s1.crew.strm st).pend = none → s1.crew.offGrid st = false → s1.fetchWord st = .ok b →
        decode s1.crew.env st (leNat b) = some i → step s = exec i s1) ∧
      (∀ b, s1.crew.canIssue st = true → (s1.crew.strm st).pend = none → s1.crew.offGrid st = false → s1.fetchWord st = .ok b →
        decode s1.crew.env st (leNat b) = none → step s = exec (.unassignedOpcode st (leNat b)) s1) ∧
      (s1.crew.canIssue st = true → (s1.crew.strm st).pend = none → s1.crew.offGrid st = true → step s = exec (.offGridFetch st) s1) ∧
      (s1.crew.canIssue st = false → step s = .next s1)) ∧
  (
    ∀ (s : State) (i : Instr) (rest : List Act), s.agenda = .input i :: rest → step s = exec i { s.haltSlots.stalls with now := s.now + 1, agenda := rest })

/-- Every step keeps the canonical form of memory, scratchpads and caddies: addresses rise, and no listed byte equals what an unlisted
address reads as (log 3, the model's form). From every state, whatever the schedule picks. -/
def Obligations.StepKeepsMemoryCanonical : Prop :=
  ∀ s t : State, s.canonical → step s = .next t → t.canonical

/-- What reset leaves (R346, R351, R406, R410, R419, R420, R422): no crew is bound, every slot is free, every queue's registers are zero and
no command is taken.
The reset state's memories are canonical and list nothing (the form is the model's, log 3). -/
def Obligations.ResetState : Prop :=
  (
    let s := State.reset
    (∀ c ∈ s.crews, c.life = .none) ∧ s.launches = [] ∧ s.writes = [] ∧ s.lines = [] ∧ s.dir = [] ∧
    (∀ core slot, SMap.get Slot.free (s.core core).slots slot = Slot.free) ∧ Slot.free.state = 0 ∧
    (∀ die q, s.cmdq die q = CmdQueue.reset ∧ s.taskq die q = TaskQueue.reset) ∧ CmdQueue.reset.ctl = 0 ∧ CmdQueue.reset.head = 0 ∧
    CmdQueue.reset.tail = 0 ∧ TaskQueue.reset.ctl = 0 ∧
    (∀ die, (s.die die).atab = 0 ∧ (s.die die).cqBase = 0 ∧ (s.die die).tcHead = 0 ∧ (s.die die).tcTail = 0 ∧ (s.die die).eqBase = 0 ∧
      (s.die die).eqHead = 0 ∧ (s.die die).eqTail = 0 ∧ (s.die die).events = [])) ∧
  (
    State.reset.canonical ∧ State.reset.mem = [] ∧ State.reset.spad = [] ∧ State.reset.caddy = [])
end Statements
end

