-- ==== Sys2Proof/Laws/Sparse.lean ====
section
/-!
SUPPORT. Sparse maps: reading after a write, and the canonical form, which every operation keeps.
-/

namespace Sys2Proof.Machine

variable {α : Type}

/-! ## Reading after a write -/

theorem SMap.get_append (d : α) (m m' : SMap α) (x : Nat) :
    SMap.get d (m ++ m') x = if x ∈ m.map Prod.fst then SMap.get d m x else SMap.get d m' x := by
  induction m with
  | nil => simp
  | cons c m ih =>
    obtain ⟨k, v⟩ := c
    by_cases h : k = x
    · simp [SMap.get, h]
    · have : x ≠ k := fun e => h e.symm
      simp only [List.cons_append, SMap.get, h, if_false, ih, List.map_cons, List.mem_cons, this, false_or]

theorem SMap.get_of_not_mem (d : α) (m : SMap α) (x : Nat) (h : x ∉ m.map Prod.fst) : SMap.get d m x = d := by
  induction m with
  | nil => rfl
  | cons c m ih =>
    obtain ⟨k, v⟩ := c
    simp only [List.map_cons, List.mem_cons, not_or] at h
    simp [SMap.get, Ne.symm h.1, ih h.2]

theorem SMap.get_filter (d : α) (p : Nat × α → Bool) (m : SMap α) (x : Nat) (h : ∀ v, p (x, v) = true) :
    SMap.get d (m.filter p) x = SMap.get d m x := by
  induction m with
  | nil => rfl
  | cons c m ih =>
    obtain ⟨k, v⟩ := c
    by_cases hk : k = x
    · subst hk
      simp [h, SMap.get]
    · by_cases hp : p (k, v) = true <;> simp [hp, SMap.get, hk, ih]

theorem SMap.not_mem_filter (p : Nat × α → Bool) (m : SMap α) (x : Nat) (h : ∀ v, p (x, v) = false) :
    x ∉ (m.filter p).map Prod.fst := by
  simp only [List.mem_map, List.mem_filter, not_exists, not_and]
  rintro ⟨k, v⟩ ⟨_, hv⟩ hk
  simp only at hk
  subst hk
  simp [h v] at hv

variable [DecidableEq α]

theorem SMap.get_cells (d : α) (x y : Nat) (vs : List α) :
    SMap.get d (SMap.cells d x vs) y = if x ≤ y then vs.getD (y - x) d else d := by
  induction vs generalizing x with
  | nil => simp [SMap.cells, SMap.get]
  | cons v vs ih =>
    by_cases hv : v = d
    · simp only [SMap.cells, hv, if_true, ih]
      rcases Nat.lt_trichotomy x y with h | h | h
      · obtain ⟨n, rfl⟩ := Nat.exists_eq_add_of_lt h
        simp [show x + n + 1 - x = n + 1 by omega, show x + n + 1 - (x + 1) = n by omega,
          show x + 1 ≤ x + n + 1 by omega, show x ≤ x + n + 1 by omega]
      · subst h; simp
      · simp [show ¬x + 1 ≤ y by omega, show ¬x ≤ y by omega]
    · simp only [SMap.cells, hv, if_false, SMap.get, ih]
      rcases Nat.lt_trichotomy x y with h | h | h
      · obtain ⟨n, rfl⟩ := Nat.exists_eq_add_of_lt h
        simp [show x + n + 1 - x = n + 1 by omega, show x + n + 1 - (x + 1) = n by omega,
          show x + 1 ≤ x + n + 1 by omega, show x ≤ x + n + 1 by omega, show x ≠ x + n + 1 by omega]
      · subst h; simp
      · simp [show ¬x + 1 ≤ y by omega, show ¬x ≤ y by omega, show x ≠ y by omega]

theorem SMap.cells_keys (d : α) (x y : Nat) (vs : List α) (h : y ∈ (SMap.cells d x vs).map Prod.fst) : x ≤ y ∧ y < x + vs.length := by
  induction vs generalizing x with
  | nil => simp [SMap.cells] at h
  | cons v vs ih =>
    simp only [SMap.cells] at h
    split at h
    · have := ih (x + 1) h
      simp only [List.length_cons]; omega
    · simp only [List.map_cons, List.mem_cons] at h
      simp only [List.length_cons]
      rcases h with rfl | h
      · omega
      · have := ih (x + 1) h
        omega

/-- A key that has been written reads as the value written; every other key reads as before. -/
theorem SMap.get_write (d : α) (m : SMap α) (x : Nat) (vs : List α) (y : Nat) :
    SMap.get d (SMap.write d m x vs) y = if x ≤ y ∧ y < x + vs.length then vs.getD (y - x) d else SMap.get d m y := by
  simp only [SMap.write, SMap.below, SMap.from, SMap.get_append]
  by_cases h1 : y < x
  · have hn : y ∉ (SMap.cells d x vs).map Prod.fst := fun h => by have := SMap.cells_keys d x y vs h; omega
    simp only [hn, if_false, show ¬(x ≤ y ∧ y < x + vs.length) by omega]
    split
    · exact SMap.get_filter d _ m y (by simp [h1])
    · rename_i h
      rw [SMap.get_of_not_mem d (m.filter _) y (SMap.not_mem_filter _ m y (by simp; omega))]
      refine (SMap.get_of_not_mem d m y fun hm => h ?_).symm
      simp only [List.mem_map, List.mem_filter] at hm ⊢
      obtain ⟨c, hc, rfl⟩ := hm
      exact ⟨c, ⟨hc, by simpa using h1⟩, rfl⟩
  · have hb : y ∉ (m.filter (fun c => decide (c.1 < x))).map Prod.fst := SMap.not_mem_filter _ m y (by simp; omega)
    simp only [hb, if_false]
    by_cases h2 : y < x + vs.length
    · simp only [show x ≤ y ∧ y < x + vs.length from ⟨by omega, h2⟩]
      split
      · simp [SMap.get_cells, show x ≤ y by omega]
      · rename_i h
        rw [SMap.get_of_not_mem d (m.filter _) y (SMap.not_mem_filter _ m y (by simp; omega))]
        have := SMap.get_of_not_mem d (SMap.cells d x vs) y h
        rw [SMap.get_cells, if_pos (show x ≤ y by omega)] at this
        exact this.symm
    · have hn : y ∉ (SMap.cells d x vs).map Prod.fst := fun h => by have := SMap.cells_keys d x y vs h; omega
      simp only [hn, if_false, show ¬(x ≤ y ∧ y < x + vs.length) by omega]
      exact SMap.get_filter d _ m y (by simp; omega)

@[simp] theorem SMap.get_set (d : α) (m : SMap α) (x : Nat) (v : α) (y : Nat) :
    SMap.get d (SMap.set d m x v) y = if x = y then v else SMap.get d m y := by
  simp only [SMap.set, SMap.get_write, List.length_singleton]
  by_cases h : x = y
  · subst h; simp
  · rw [if_neg (by omega), if_neg h]

omit [DecidableEq α] in
/-- A cleared range reads as the default; every other key reads as before. -/
theorem SMap.get_clear (d : α) (m : SMap α) (x n y : Nat) :
    SMap.get d (SMap.clear m x n) y = if x ≤ y ∧ y < x + n then d else SMap.get d m y := by
  simp only [SMap.clear, SMap.below, SMap.from, SMap.get_append]
  by_cases h1 : y < x
  · simp only [show ¬(x ≤ y ∧ y < x + n) by omega, if_false]
    split
    · exact SMap.get_filter d _ m y (by simp [h1])
    · rename_i h
      rw [SMap.get_of_not_mem d (m.filter _) y (SMap.not_mem_filter _ m y (by simp; omega))]
      refine (SMap.get_of_not_mem d m y fun hm => h ?_).symm
      simp only [List.mem_map, List.mem_filter] at hm ⊢
      obtain ⟨c, hc, rfl⟩ := hm
      exact ⟨c, ⟨hc, by simpa using h1⟩, rfl⟩
  · have hb : y ∉ (m.filter (fun c => decide (c.1 < x))).map Prod.fst := SMap.not_mem_filter _ m y (by simp; omega)
    simp only [hb, if_false]
    by_cases h2 : y < x + n
    · simp only [show x ≤ y ∧ y < x + n from ⟨by omega, h2⟩]
      exact SMap.get_of_not_mem d _ y (SMap.not_mem_filter _ m y (by simp; omega))
    · simp only [show ¬(x ≤ y ∧ y < x + n) by omega, if_false]
      exact SMap.get_filter d _ m y (by simp; omega)

/-! ## The canonical form -/

theorem SMap.wfFrom_mono (d : α) {lo lo' : Nat} (h : lo' ≤ lo) (m : SMap α) (hm : SMap.wfFrom d lo m = true) :
    SMap.wfFrom d lo' m = true := by
  cases m with
  | nil => rfl
  | cons c m =>
    simp only [SMap.wfFrom, Bool.and_eq_true, decide_eq_true_eq] at hm ⊢
    exact ⟨⟨by omega, hm.1.2⟩, hm.2⟩

theorem SMap.wfFrom_filter (d : α) (p : Nat × α → Bool) (m : SMap α) :
    ∀ lo, SMap.wfFrom d lo m = true → SMap.wfFrom d lo (m.filter p) = true := by
  induction m with
  | nil => intro lo _; rfl
  | cons c m ih =>
    intro lo hm
    simp only [SMap.wfFrom, Bool.and_eq_true, decide_eq_true_eq] at hm
    by_cases hp : p c = true
    · simp only [List.filter_cons, hp, if_true, SMap.wfFrom, Bool.and_eq_true, decide_eq_true_eq]
      exact ⟨hm.1, ih _ hm.2⟩
    · simp only [List.filter_cons, hp]
      exact SMap.wfFrom_mono d (by omega) _ (ih _ hm.2)

/-- The entries from a key up start there. -/
theorem SMap.wfFrom_from (d : α) (x : Nat) (m : SMap α) : ∀ lo, SMap.wfFrom d lo m = true → SMap.wfFrom d x (SMap.from x m) = true := by
  induction m with
  | nil => intro lo _; rfl
  | cons c m ih =>
    intro lo hm
    simp only [SMap.wfFrom, Bool.and_eq_true, decide_eq_true_eq] at hm
    by_cases hx : x ≤ c.1
    · have hrest := SMap.wfFrom_filter d (fun c => decide (x ≤ c.1)) m _ hm.2
      simp [SMap.from, hx, SMap.wfFrom, hm.1.2]
      exact hrest
    · simp only [SMap.from, List.filter_cons, hx, decide_false, Bool.false_eq_true, if_false]
      exact ih _ hm.2

theorem SMap.wfFrom_cells (d : α) (x : Nat) (vs : List α) (m : SMap α) (hm : SMap.wfFrom d (x + vs.length) m = true) :
    SMap.wfFrom d x (SMap.cells d x vs ++ m) = true := by
  induction vs generalizing x with
  | nil => simpa [SMap.cells] using hm
  | cons v vs ih =>
    have h := ih (x + 1) (by simpa [Nat.add_assoc, Nat.add_comm 1] using hm)
    simp only [SMap.cells]
    split
    · exact SMap.wfFrom_mono d (by omega) _ h
    · rename_i hv
      simp [SMap.wfFrom, hv, h]

theorem SMap.wfFrom_below (d : α) (x : Nat) (m r : SMap α) (hr : SMap.wfFrom d x r = true) :
    ∀ lo, lo ≤ x → SMap.wfFrom d lo m = true → SMap.wfFrom d lo (SMap.below x m ++ r) = true := by
  induction m with
  | nil => intro lo hlo _; exact SMap.wfFrom_mono d hlo _ hr
  | cons c m ih =>
    intro lo hlo hm
    simp only [SMap.wfFrom, Bool.and_eq_true, decide_eq_true_eq] at hm
    by_cases hx : c.1 < x
    · have := ih (c.1 + 1) (by omega) hm.2
      simp only [SMap.below] at this
      simp [SMap.below, hx, SMap.wfFrom, hm.1.1, hm.1.2, this]
    · have h := ih x (le_refl x)
      simp only [SMap.below, List.filter_cons, hx, decide_false, Bool.false_eq_true, if_false]
      have hall : m.filter (fun c => decide (c.1 < x)) = [] := by
        have : ∀ (l : SMap α) (k : Nat), x ≤ k → SMap.wfFrom d k l = true → l.filter (fun c => decide (c.1 < x)) = [] := by
          intro l
          induction l with
          | nil => intros; rfl
          | cons e l ihl =>
            intro k hk hl
            simp only [SMap.wfFrom, Bool.and_eq_true, decide_eq_true_eq] at hl
            simp only [List.filter_cons, show ¬e.1 < x by omega, decide_false, Bool.false_eq_true, if_false]
            exact ihl _ (by omega) hl.2
        exact this m _ (by omega) hm.2
      simp only [hall, List.nil_append]
      exact SMap.wfFrom_mono d hlo _ hr

/-- A write keeps the canonical form. -/
theorem SMap.wf_write (d : α) (m : SMap α) (x : Nat) (vs : List α) (h : SMap.wf d m = true) : SMap.wf d (SMap.write d m x vs) = true :=
  SMap.wfFrom_below d x m _ (SMap.wfFrom_cells d x vs _ (SMap.wfFrom_from d _ m 0 h)) 0 (Nat.zero_le x) h

/-- So does clearing a range. -/
theorem SMap.wf_clear (d : α) (m : SMap α) (x n : Nat) (h : SMap.wf d m = true) : SMap.wf d (SMap.clear m x n) = true :=
  SMap.wfFrom_below d x m _ (SMap.wfFrom_mono d (Nat.le_add_right x n) _ (SMap.wfFrom_from d (x + n) m 0 h)) 0 (Nat.zero_le x) h

/-! ## Memories -/

/-- A byte written reads as written; every other byte reads as before. -/
theorem Memory.byte_write (m : Memory) (a : Nat) (bs : List Byte) (x : Nat) :
    Memory.byte (Memory.write m a bs) x = if a ≤ x ∧ x < a + bs.length then bs.getD (x - a) 0 else Memory.byte m x :=
  SMap.get_write Memory.unlisted m a bs x

/-- A range reads as its bytes, one by one. -/
theorem Memory.read_eq (m : Memory) (a n : Nat) : Memory.read m a n = (List.range n).map (fun i => Memory.byte m (a + i)) := by
  refine List.map_congr_left fun i hi => ?_
  have : i < n := List.mem_range.mp hi
  exact SMap.get_filter Memory.unlisted _ m (a + i) (by simp; omega)

/-- Bytes written read back. -/
theorem Memory.read_write_same (m : Memory) (a : Nat) (bs : List Byte) : Memory.read (Memory.write m a bs) a bs.length = bs := by
  rw [Memory.read_eq]
  refine List.ext_getElem (by simp) fun i h1 h2 => ?_
  have : i < bs.length := by simpa using h1
  simp [Memory.byte_write, this]

/-- A range that a write does not meet reads as before. -/
theorem Memory.read_write_apart (m : Memory) (a : Nat) (bs : List Byte) (x n : Nat) (h : x + n ≤ a ∨ a + bs.length ≤ x) :
    Memory.read (Memory.write m a bs) x n = Memory.read m x n := by
  rw [Memory.read_eq, Memory.read_eq]
  refine List.map_congr_left fun i hi => ?_
  have : i < n := List.mem_range.mp hi
  rw [Memory.byte_write, if_neg (by omega)]

theorem Memory.byte_zero (m : Memory) (a n x : Nat) :
    Memory.byte (Memory.zero m a n) x = if a ≤ x ∧ x < a + n then 0 else Memory.byte m x :=
  SMap.get_clear Memory.unlisted m a n x

theorem Memory.wf_write (m : Memory) (a : Nat) (bs : List Byte) (h : m.wf = true) : (Memory.write m a bs).wf = true :=
  SMap.wf_write Memory.unlisted m a bs h

theorem Memory.wf_zero (m : Memory) (a n : Nat) (h : m.wf = true) : (Memory.zero m a n).wf = true :=
  SMap.wf_clear Memory.unlisted m a n h

theorem Memory.wf_mix (keep : Nat → Bool) (old new : Memory) (h : new.wf = true) : (Memory.mix keep old new).wf = true := by
  have : ∀ (l : List Nat) (m : Memory), m.wf = true →
      (l.foldl (fun m a => if Memory.byte old a = Memory.byte new a ∨ !keep a then m else Memory.write m a [Memory.byte old a]) m).wf = true := by
    intro l
    induction l with
    | nil => intro m hm; exact hm
    | cons a l ih =>
      intro m hm
      simp only [List.foldl_cons]
      apply ih
      split
      · exact hm
      · exact Memory.wf_write _ _ _ hm
  exact this _ _ h

end Sys2Proof.Machine
end

