-- ==== Sys2Proof/Laws/State.lean ====
section
/-!
SUPPORT. What each named update of the state leaves and changes: one lemma per field per update, so that no proof unfolds a record
update; then what a read finds behind an update of its own kind.
-/

namespace Sys2Proof.Machine

/-! ## State.setCore -/

@[simp] theorem State.setCore_crew (s : State) (k : Nat) (x : Core) : (s.setCore k x).crew = s.crew := rfl
@[simp] theorem State.setCore_rest (s : State) (k : Nat) (x : Core) : (s.setCore k x).rest = s.rest := rfl
@[simp] theorem State.setCore_mem (s : State) (k : Nat) (x : Core) : (s.setCore k x).mem = s.mem := rfl
@[simp] theorem State.setCore_spad (s : State) (k : Nat) (x : Core) : (s.setCore k x).spad = s.spad := rfl
@[simp] theorem State.setCore_caddy (s : State) (k : Nat) (x : Core) : (s.setCore k x).caddy = s.caddy := rfl
@[simp] theorem State.setCore_caddyOpen (s : State) (k : Nat) (x : Core) : (s.setCore k x).caddyOpen = s.caddyOpen := rfl
@[simp] theorem State.setCore_dies (s : State) (k : Nat) (x : Core) : (s.setCore k x).dies = s.dies := rfl
@[simp] theorem State.setCore_writes (s : State) (k : Nat) (x : Core) : (s.setCore k x).writes = s.writes := rfl
@[simp] theorem State.setCore_lines (s : State) (k : Nat) (x : Core) : (s.setCore k x).lines = s.lines := rfl
@[simp] theorem State.setCore_dir (s : State) (k : Nat) (x : Core) : (s.setCore k x).dir = s.dir := rfl
@[simp] theorem State.setCore_msgs (s : State) (k : Nat) (x : Core) : (s.setCore k x).msgs = s.msgs := rfl
@[simp] theorem State.setCore_poisoned (s : State) (k : Nat) (x : Core) : (s.setCore k x).poisoned = s.poisoned := rfl
@[simp] theorem State.setCore_launches (s : State) (k : Nat) (x : Core) : (s.setCore k x).launches = s.launches := rfl
@[simp] theorem State.setCore_chains (s : State) (k : Nat) (x : Core) : (s.setCore k x).chains = s.chains := rfl
@[simp] theorem State.setCore_solvers (s : State) (k : Nat) (x : Core) : (s.setCore k x).solvers = s.solvers := rfl
@[simp] theorem State.setCore_passes (s : State) (k : Nat) (x : Core) : (s.setCore k x).passes = s.passes := rfl
@[simp] theorem State.setCore_kills (s : State) (k : Nat) (x : Core) : (s.setCore k x).kills = s.kills := rfl
@[simp] theorem State.setCore_power (s : State) (k : Nat) (x : Core) : (s.setCore k x).power = s.power := rfl
@[simp] theorem State.setCore_bsState (s : State) (k : Nat) (x : Core) : (s.setCore k x).bsState = s.bsState := rfl
@[simp] theorem State.setCore_trained (s : State) (k : Nat) (x : Core) : (s.setCore k x).trained = s.trained := rfl
@[simp] theorem State.setCore_svn (s : State) (k : Nat) (x : Core) : (s.setCore k x).svn = s.svn := rfl
@[simp] theorem State.setCore_svnBlowing (s : State) (k : Nat) (x : Core) : (s.setCore k x).svnBlowing = s.svnBlowing := rfl
@[simp] theorem State.setCore_leader (s : State) (k : Nat) (x : Core) : (s.setCore k x).leader = s.leader := rfl
@[simp] theorem State.setCore_acting (s : State) (k : Nat) (x : Core) : (s.setCore k x).acting = s.acting := rfl
@[simp] theorem State.setCore_renewed (s : State) (k : Nat) (x : Core) : (s.setCore k x).renewed = s.renewed := rfl
@[simp] theorem State.setCore_flash (s : State) (k : Nat) (x : Core) : (s.setCore k x).flash = s.flash := rfl
@[simp] theorem State.setCore_fwImage (s : State) (k : Nat) (x : Core) : (s.setCore k x).fwImage = s.fwImage := rfl
@[simp] theorem State.setCore_measured (s : State) (k : Nat) (x : Core) : (s.setCore k x).measured = s.measured := rfl
@[simp] theorem State.setCore_leaves (s : State) (k : Nat) (x : Core) : (s.setCore k x).leaves = s.leaves := rfl
@[simp] theorem State.setCore_spdm (s : State) (k : Nat) (x : Core) : (s.setCore k x).spdm = s.spdm := rfl
@[simp] theorem State.setCore_sensor (s : State) (k : Nat) (x : Core) : (s.setCore k x).sensor = s.sensor := rfl
@[simp] theorem State.setCore_pwHost (s : State) (k : Nat) (x : Core) : (s.setCore k x).pwHost = s.pwHost := rfl
@[simp] theorem State.setCore_pwTchief (s : State) (k : Nat) (x : Core) : (s.setCore k x).pwTchief = s.pwTchief := rfl
@[simp] theorem State.setCore_profile (s : State) (k : Nat) (x : Core) : (s.setCore k x).profile = s.profile := rfl
@[simp] theorem State.setCore_scanout (s : State) (k : Nat) (x : Core) : (s.setCore k x).scanout = s.scanout := rfl
@[simp] theorem State.setCore_now (s : State) (k : Nat) (x : Core) : (s.setCore k x).now = s.now := rfl
@[simp] theorem State.setCore_turn (s : State) (k : Nat) (x : Core) : (s.setCore k x).turn = s.turn := rfl
@[simp] theorem State.setCore_agenda (s : State) (k : Nat) (x : Core) : (s.setCore k x).agenda = s.agenda := rfl
@[simp] theorem State.setCore_free (s : State) (k : Nat) (x : Core) : (s.setCore k x).free = s.free := rfl
@[simp] theorem State.setCore_nextId (s : State) (k : Nat) (x : Core) : (s.setCore k x).nextId = s.nextId := rfl

/-! ## State.setDie -/

@[simp] theorem State.setDie_crew (s : State) (d : Nat) (x : Die) : (s.setDie d x).crew = s.crew := rfl
@[simp] theorem State.setDie_rest (s : State) (d : Nat) (x : Die) : (s.setDie d x).rest = s.rest := rfl
@[simp] theorem State.setDie_mem (s : State) (d : Nat) (x : Die) : (s.setDie d x).mem = s.mem := rfl
@[simp] theorem State.setDie_spad (s : State) (d : Nat) (x : Die) : (s.setDie d x).spad = s.spad := rfl
@[simp] theorem State.setDie_caddy (s : State) (d : Nat) (x : Die) : (s.setDie d x).caddy = s.caddy := rfl
@[simp] theorem State.setDie_caddyOpen (s : State) (d : Nat) (x : Die) : (s.setDie d x).caddyOpen = s.caddyOpen := rfl
@[simp] theorem State.setDie_cores (s : State) (d : Nat) (x : Die) : (s.setDie d x).cores = s.cores := rfl
@[simp] theorem State.setDie_writes (s : State) (d : Nat) (x : Die) : (s.setDie d x).writes = s.writes := rfl
@[simp] theorem State.setDie_lines (s : State) (d : Nat) (x : Die) : (s.setDie d x).lines = s.lines := rfl
@[simp] theorem State.setDie_dir (s : State) (d : Nat) (x : Die) : (s.setDie d x).dir = s.dir := rfl
@[simp] theorem State.setDie_msgs (s : State) (d : Nat) (x : Die) : (s.setDie d x).msgs = s.msgs := rfl
@[simp] theorem State.setDie_poisoned (s : State) (d : Nat) (x : Die) : (s.setDie d x).poisoned = s.poisoned := rfl
@[simp] theorem State.setDie_launches (s : State) (d : Nat) (x : Die) : (s.setDie d x).launches = s.launches := rfl
@[simp] theorem State.setDie_chains (s : State) (d : Nat) (x : Die) : (s.setDie d x).chains = s.chains := rfl
@[simp] theorem State.setDie_solvers (s : State) (d : Nat) (x : Die) : (s.setDie d x).solvers = s.solvers := rfl
@[simp] theorem State.setDie_passes (s : State) (d : Nat) (x : Die) : (s.setDie d x).passes = s.passes := rfl
@[simp] theorem State.setDie_kills (s : State) (d : Nat) (x : Die) : (s.setDie d x).kills = s.kills := rfl
@[simp] theorem State.setDie_power (s : State) (d : Nat) (x : Die) : (s.setDie d x).power = s.power := rfl
@[simp] theorem State.setDie_bsState (s : State) (d : Nat) (x : Die) : (s.setDie d x).bsState = s.bsState := rfl
@[simp] theorem State.setDie_trained (s : State) (d : Nat) (x : Die) : (s.setDie d x).trained = s.trained := rfl
@[simp] theorem State.setDie_svn (s : State) (d : Nat) (x : Die) : (s.setDie d x).svn = s.svn := rfl
@[simp] theorem State.setDie_svnBlowing (s : State) (d : Nat) (x : Die) : (s.setDie d x).svnBlowing = s.svnBlowing := rfl
@[simp] theorem State.setDie_leader (s : State) (d : Nat) (x : Die) : (s.setDie d x).leader = s.leader := rfl
@[simp] theorem State.setDie_acting (s : State) (d : Nat) (x : Die) : (s.setDie d x).acting = s.acting := rfl
@[simp] theorem State.setDie_renewed (s : State) (d : Nat) (x : Die) : (s.setDie d x).renewed = s.renewed := rfl
@[simp] theorem State.setDie_flash (s : State) (d : Nat) (x : Die) : (s.setDie d x).flash = s.flash := rfl
@[simp] theorem State.setDie_fwImage (s : State) (d : Nat) (x : Die) : (s.setDie d x).fwImage = s.fwImage := rfl
@[simp] theorem State.setDie_measured (s : State) (d : Nat) (x : Die) : (s.setDie d x).measured = s.measured := rfl
@[simp] theorem State.setDie_leaves (s : State) (d : Nat) (x : Die) : (s.setDie d x).leaves = s.leaves := rfl
@[simp] theorem State.setDie_spdm (s : State) (d : Nat) (x : Die) : (s.setDie d x).spdm = s.spdm := rfl
@[simp] theorem State.setDie_sensor (s : State) (d : Nat) (x : Die) : (s.setDie d x).sensor = s.sensor := rfl
@[simp] theorem State.setDie_pwHost (s : State) (d : Nat) (x : Die) : (s.setDie d x).pwHost = s.pwHost := rfl
@[simp] theorem State.setDie_pwTchief (s : State) (d : Nat) (x : Die) : (s.setDie d x).pwTchief = s.pwTchief := rfl
@[simp] theorem State.setDie_profile (s : State) (d : Nat) (x : Die) : (s.setDie d x).profile = s.profile := rfl
@[simp] theorem State.setDie_scanout (s : State) (d : Nat) (x : Die) : (s.setDie d x).scanout = s.scanout := rfl
@[simp] theorem State.setDie_now (s : State) (d : Nat) (x : Die) : (s.setDie d x).now = s.now := rfl
@[simp] theorem State.setDie_turn (s : State) (d : Nat) (x : Die) : (s.setDie d x).turn = s.turn := rfl
@[simp] theorem State.setDie_agenda (s : State) (d : Nat) (x : Die) : (s.setDie d x).agenda = s.agenda := rfl
@[simp] theorem State.setDie_free (s : State) (d : Nat) (x : Die) : (s.setDie d x).free = s.free := rfl
@[simp] theorem State.setDie_nextId (s : State) (d : Nat) (x : Die) : (s.setDie d x).nextId = s.nextId := rfl

/-! ## State.setCmdq -/

@[simp] theorem State.setCmdq_crew (s : State) (d q : Nat) (x : CmdQueue) : (s.setCmdq d q x).crew = s.crew := rfl
@[simp] theorem State.setCmdq_rest (s : State) (d q : Nat) (x : CmdQueue) : (s.setCmdq d q x).rest = s.rest := rfl
@[simp] theorem State.setCmdq_mem (s : State) (d q : Nat) (x : CmdQueue) : (s.setCmdq d q x).mem = s.mem := rfl
@[simp] theorem State.setCmdq_spad (s : State) (d q : Nat) (x : CmdQueue) : (s.setCmdq d q x).spad = s.spad := rfl
@[simp] theorem State.setCmdq_caddy (s : State) (d q : Nat) (x : CmdQueue) : (s.setCmdq d q x).caddy = s.caddy := rfl
@[simp] theorem State.setCmdq_caddyOpen (s : State) (d q : Nat) (x : CmdQueue) : (s.setCmdq d q x).caddyOpen = s.caddyOpen := rfl
@[simp] theorem State.setCmdq_cores (s : State) (d q : Nat) (x : CmdQueue) : (s.setCmdq d q x).cores = s.cores := rfl
@[simp] theorem State.setCmdq_writes (s : State) (d q : Nat) (x : CmdQueue) : (s.setCmdq d q x).writes = s.writes := rfl
@[simp] theorem State.setCmdq_lines (s : State) (d q : Nat) (x : CmdQueue) : (s.setCmdq d q x).lines = s.lines := rfl
@[simp] theorem State.setCmdq_dir (s : State) (d q : Nat) (x : CmdQueue) : (s.setCmdq d q x).dir = s.dir := rfl
@[simp] theorem State.setCmdq_msgs (s : State) (d q : Nat) (x : CmdQueue) : (s.setCmdq d q x).msgs = s.msgs := rfl
@[simp] theorem State.setCmdq_poisoned (s : State) (d q : Nat) (x : CmdQueue) : (s.setCmdq d q x).poisoned = s.poisoned := rfl
@[simp] theorem State.setCmdq_launches (s : State) (d q : Nat) (x : CmdQueue) : (s.setCmdq d q x).launches = s.launches := rfl
@[simp] theorem State.setCmdq_chains (s : State) (d q : Nat) (x : CmdQueue) : (s.setCmdq d q x).chains = s.chains := rfl
@[simp] theorem State.setCmdq_solvers (s : State) (d q : Nat) (x : CmdQueue) : (s.setCmdq d q x).solvers = s.solvers := rfl
@[simp] theorem State.setCmdq_passes (s : State) (d q : Nat) (x : CmdQueue) : (s.setCmdq d q x).passes = s.passes := rfl
@[simp] theorem State.setCmdq_kills (s : State) (d q : Nat) (x : CmdQueue) : (s.setCmdq d q x).kills = s.kills := rfl
@[simp] theorem State.setCmdq_power (s : State) (d q : Nat) (x : CmdQueue) : (s.setCmdq d q x).power = s.power := rfl
@[simp] theorem State.setCmdq_bsState (s : State) (d q : Nat) (x : CmdQueue) : (s.setCmdq d q x).bsState = s.bsState := rfl
@[simp] theorem State.setCmdq_trained (s : State) (d q : Nat) (x : CmdQueue) : (s.setCmdq d q x).trained = s.trained := rfl
@[simp] theorem State.setCmdq_svn (s : State) (d q : Nat) (x : CmdQueue) : (s.setCmdq d q x).svn = s.svn := rfl
@[simp] theorem State.setCmdq_svnBlowing (s : State) (d q : Nat) (x : CmdQueue) : (s.setCmdq d q x).svnBlowing = s.svnBlowing := rfl
@[simp] theorem State.setCmdq_leader (s : State) (d q : Nat) (x : CmdQueue) : (s.setCmdq d q x).leader = s.leader := rfl
@[simp] theorem State.setCmdq_acting (s : State) (d q : Nat) (x : CmdQueue) : (s.setCmdq d q x).acting = s.acting := rfl
@[simp] theorem State.setCmdq_renewed (s : State) (d q : Nat) (x : CmdQueue) : (s.setCmdq d q x).renewed = s.renewed := rfl
@[simp] theorem State.setCmdq_flash (s : State) (d q : Nat) (x : CmdQueue) : (s.setCmdq d q x).flash = s.flash := rfl
@[simp] theorem State.setCmdq_fwImage (s : State) (d q : Nat) (x : CmdQueue) : (s.setCmdq d q x).fwImage = s.fwImage := rfl
@[simp] theorem State.setCmdq_measured (s : State) (d q : Nat) (x : CmdQueue) : (s.setCmdq d q x).measured = s.measured := rfl
@[simp] theorem State.setCmdq_leaves (s : State) (d q : Nat) (x : CmdQueue) : (s.setCmdq d q x).leaves = s.leaves := rfl
@[simp] theorem State.setCmdq_spdm (s : State) (d q : Nat) (x : CmdQueue) : (s.setCmdq d q x).spdm = s.spdm := rfl
@[simp] theorem State.setCmdq_sensor (s : State) (d q : Nat) (x : CmdQueue) : (s.setCmdq d q x).sensor = s.sensor := rfl
@[simp] theorem State.setCmdq_pwHost (s : State) (d q : Nat) (x : CmdQueue) : (s.setCmdq d q x).pwHost = s.pwHost := rfl
@[simp] theorem State.setCmdq_pwTchief (s : State) (d q : Nat) (x : CmdQueue) : (s.setCmdq d q x).pwTchief = s.pwTchief := rfl
@[simp] theorem State.setCmdq_profile (s : State) (d q : Nat) (x : CmdQueue) : (s.setCmdq d q x).profile = s.profile := rfl
@[simp] theorem State.setCmdq_scanout (s : State) (d q : Nat) (x : CmdQueue) : (s.setCmdq d q x).scanout = s.scanout := rfl
@[simp] theorem State.setCmdq_now (s : State) (d q : Nat) (x : CmdQueue) : (s.setCmdq d q x).now = s.now := rfl
@[simp] theorem State.setCmdq_turn (s : State) (d q : Nat) (x : CmdQueue) : (s.setCmdq d q x).turn = s.turn := rfl
@[simp] theorem State.setCmdq_agenda (s : State) (d q : Nat) (x : CmdQueue) : (s.setCmdq d q x).agenda = s.agenda := rfl
@[simp] theorem State.setCmdq_free (s : State) (d q : Nat) (x : CmdQueue) : (s.setCmdq d q x).free = s.free := rfl
@[simp] theorem State.setCmdq_nextId (s : State) (d q : Nat) (x : CmdQueue) : (s.setCmdq d q x).nextId = s.nextId := rfl

/-! ## State.setTaskq -/

@[simp] theorem State.setTaskq_crew (s : State) (d q : Nat) (x : TaskQueue) : (s.setTaskq d q x).crew = s.crew := rfl
@[simp] theorem State.setTaskq_rest (s : State) (d q : Nat) (x : TaskQueue) : (s.setTaskq d q x).rest = s.rest := rfl
@[simp] theorem State.setTaskq_mem (s : State) (d q : Nat) (x : TaskQueue) : (s.setTaskq d q x).mem = s.mem := rfl
@[simp] theorem State.setTaskq_spad (s : State) (d q : Nat) (x : TaskQueue) : (s.setTaskq d q x).spad = s.spad := rfl
@[simp] theorem State.setTaskq_caddy (s : State) (d q : Nat) (x : TaskQueue) : (s.setTaskq d q x).caddy = s.caddy := rfl
@[simp] theorem State.setTaskq_caddyOpen (s : State) (d q : Nat) (x : TaskQueue) : (s.setTaskq d q x).caddyOpen = s.caddyOpen := rfl
@[simp] theorem State.setTaskq_cores (s : State) (d q : Nat) (x : TaskQueue) : (s.setTaskq d q x).cores = s.cores := rfl
@[simp] theorem State.setTaskq_writes (s : State) (d q : Nat) (x : TaskQueue) : (s.setTaskq d q x).writes = s.writes := rfl
@[simp] theorem State.setTaskq_lines (s : State) (d q : Nat) (x : TaskQueue) : (s.setTaskq d q x).lines = s.lines := rfl
@[simp] theorem State.setTaskq_dir (s : State) (d q : Nat) (x : TaskQueue) : (s.setTaskq d q x).dir = s.dir := rfl
@[simp] theorem State.setTaskq_msgs (s : State) (d q : Nat) (x : TaskQueue) : (s.setTaskq d q x).msgs = s.msgs := rfl
@[simp] theorem State.setTaskq_poisoned (s : State) (d q : Nat) (x : TaskQueue) : (s.setTaskq d q x).poisoned = s.poisoned := rfl
@[simp] theorem State.setTaskq_launches (s : State) (d q : Nat) (x : TaskQueue) : (s.setTaskq d q x).launches = s.launches := rfl
@[simp] theorem State.setTaskq_chains (s : State) (d q : Nat) (x : TaskQueue) : (s.setTaskq d q x).chains = s.chains := rfl
@[simp] theorem State.setTaskq_solvers (s : State) (d q : Nat) (x : TaskQueue) : (s.setTaskq d q x).solvers = s.solvers := rfl
@[simp] theorem State.setTaskq_passes (s : State) (d q : Nat) (x : TaskQueue) : (s.setTaskq d q x).passes = s.passes := rfl
@[simp] theorem State.setTaskq_kills (s : State) (d q : Nat) (x : TaskQueue) : (s.setTaskq d q x).kills = s.kills := rfl
@[simp] theorem State.setTaskq_power (s : State) (d q : Nat) (x : TaskQueue) : (s.setTaskq d q x).power = s.power := rfl
@[simp] theorem State.setTaskq_bsState (s : State) (d q : Nat) (x : TaskQueue) : (s.setTaskq d q x).bsState = s.bsState := rfl
@[simp] theorem State.setTaskq_trained (s : State) (d q : Nat) (x : TaskQueue) : (s.setTaskq d q x).trained = s.trained := rfl
@[simp] theorem State.setTaskq_svn (s : State) (d q : Nat) (x : TaskQueue) : (s.setTaskq d q x).svn = s.svn := rfl
@[simp] theorem State.setTaskq_svnBlowing (s : State) (d q : Nat) (x : TaskQueue) : (s.setTaskq d q x).svnBlowing = s.svnBlowing := rfl
@[simp] theorem State.setTaskq_leader (s : State) (d q : Nat) (x : TaskQueue) : (s.setTaskq d q x).leader = s.leader := rfl
@[simp] theorem State.setTaskq_acting (s : State) (d q : Nat) (x : TaskQueue) : (s.setTaskq d q x).acting = s.acting := rfl
@[simp] theorem State.setTaskq_renewed (s : State) (d q : Nat) (x : TaskQueue) : (s.setTaskq d q x).renewed = s.renewed := rfl
@[simp] theorem State.setTaskq_flash (s : State) (d q : Nat) (x : TaskQueue) : (s.setTaskq d q x).flash = s.flash := rfl
@[simp] theorem State.setTaskq_fwImage (s : State) (d q : Nat) (x : TaskQueue) : (s.setTaskq d q x).fwImage = s.fwImage := rfl
@[simp] theorem State.setTaskq_measured (s : State) (d q : Nat) (x : TaskQueue) : (s.setTaskq d q x).measured = s.measured := rfl
@[simp] theorem State.setTaskq_leaves (s : State) (d q : Nat) (x : TaskQueue) : (s.setTaskq d q x).leaves = s.leaves := rfl
@[simp] theorem State.setTaskq_spdm (s : State) (d q : Nat) (x : TaskQueue) : (s.setTaskq d q x).spdm = s.spdm := rfl
@[simp] theorem State.setTaskq_sensor (s : State) (d q : Nat) (x : TaskQueue) : (s.setTaskq d q x).sensor = s.sensor := rfl
@[simp] theorem State.setTaskq_pwHost (s : State) (d q : Nat) (x : TaskQueue) : (s.setTaskq d q x).pwHost = s.pwHost := rfl
@[simp] theorem State.setTaskq_pwTchief (s : State) (d q : Nat) (x : TaskQueue) : (s.setTaskq d q x).pwTchief = s.pwTchief := rfl
@[simp] theorem State.setTaskq_profile (s : State) (d q : Nat) (x : TaskQueue) : (s.setTaskq d q x).profile = s.profile := rfl
@[simp] theorem State.setTaskq_scanout (s : State) (d q : Nat) (x : TaskQueue) : (s.setTaskq d q x).scanout = s.scanout := rfl
@[simp] theorem State.setTaskq_now (s : State) (d q : Nat) (x : TaskQueue) : (s.setTaskq d q x).now = s.now := rfl
@[simp] theorem State.setTaskq_turn (s : State) (d q : Nat) (x : TaskQueue) : (s.setTaskq d q x).turn = s.turn := rfl
@[simp] theorem State.setTaskq_agenda (s : State) (d q : Nat) (x : TaskQueue) : (s.setTaskq d q x).agenda = s.agenda := rfl
@[simp] theorem State.setTaskq_free (s : State) (d q : Nat) (x : TaskQueue) : (s.setTaskq d q x).free = s.free := rfl
@[simp] theorem State.setTaskq_nextId (s : State) (d q : Nat) (x : TaskQueue) : (s.setTaskq d q x).nextId = s.nextId := rfl

/-! ## State.setSequencer -/

@[simp] theorem State.setSequencer_crew (s : State) (n : Nat) (x : Sequencer) : (s.setSequencer n x).crew = s.crew := rfl
@[simp] theorem State.setSequencer_rest (s : State) (n : Nat) (x : Sequencer) : (s.setSequencer n x).rest = s.rest := rfl
@[simp] theorem State.setSequencer_mem (s : State) (n : Nat) (x : Sequencer) : (s.setSequencer n x).mem = s.mem := rfl
@[simp] theorem State.setSequencer_spad (s : State) (n : Nat) (x : Sequencer) : (s.setSequencer n x).spad = s.spad := rfl
@[simp] theorem State.setSequencer_caddy (s : State) (n : Nat) (x : Sequencer) : (s.setSequencer n x).caddy = s.caddy := rfl
@[simp] theorem State.setSequencer_caddyOpen (s : State) (n : Nat) (x : Sequencer) : (s.setSequencer n x).caddyOpen = s.caddyOpen := rfl
@[simp] theorem State.setSequencer_cores (s : State) (n : Nat) (x : Sequencer) : (s.setSequencer n x).cores = s.cores := rfl
@[simp] theorem State.setSequencer_dies (s : State) (n : Nat) (x : Sequencer) : (s.setSequencer n x).dies = s.dies := rfl
@[simp] theorem State.setSequencer_writes (s : State) (n : Nat) (x : Sequencer) : (s.setSequencer n x).writes = s.writes := rfl
@[simp] theorem State.setSequencer_lines (s : State) (n : Nat) (x : Sequencer) : (s.setSequencer n x).lines = s.lines := rfl
@[simp] theorem State.setSequencer_dir (s : State) (n : Nat) (x : Sequencer) : (s.setSequencer n x).dir = s.dir := rfl
@[simp] theorem State.setSequencer_msgs (s : State) (n : Nat) (x : Sequencer) : (s.setSequencer n x).msgs = s.msgs := rfl
@[simp] theorem State.setSequencer_poisoned (s : State) (n : Nat) (x : Sequencer) : (s.setSequencer n x).poisoned = s.poisoned := rfl
@[simp] theorem State.setSequencer_launches (s : State) (n : Nat) (x : Sequencer) : (s.setSequencer n x).launches = s.launches := rfl
@[simp] theorem State.setSequencer_chains (s : State) (n : Nat) (x : Sequencer) : (s.setSequencer n x).chains = s.chains := rfl
@[simp] theorem State.setSequencer_passes (s : State) (n : Nat) (x : Sequencer) : (s.setSequencer n x).passes = s.passes := rfl
@[simp] theorem State.setSequencer_kills (s : State) (n : Nat) (x : Sequencer) : (s.setSequencer n x).kills = s.kills := rfl
@[simp] theorem State.setSequencer_power (s : State) (n : Nat) (x : Sequencer) : (s.setSequencer n x).power = s.power := rfl
@[simp] theorem State.setSequencer_bsState (s : State) (n : Nat) (x : Sequencer) : (s.setSequencer n x).bsState = s.bsState := rfl
@[simp] theorem State.setSequencer_trained (s : State) (n : Nat) (x : Sequencer) : (s.setSequencer n x).trained = s.trained := rfl
@[simp] theorem State.setSequencer_svn (s : State) (n : Nat) (x : Sequencer) : (s.setSequencer n x).svn = s.svn := rfl
@[simp] theorem State.setSequencer_svnBlowing (s : State) (n : Nat) (x : Sequencer) : (s.setSequencer n x).svnBlowing = s.svnBlowing := rfl
@[simp] theorem State.setSequencer_leader (s : State) (n : Nat) (x : Sequencer) : (s.setSequencer n x).leader = s.leader := rfl
@[simp] theorem State.setSequencer_acting (s : State) (n : Nat) (x : Sequencer) : (s.setSequencer n x).acting = s.acting := rfl
@[simp] theorem State.setSequencer_renewed (s : State) (n : Nat) (x : Sequencer) : (s.setSequencer n x).renewed = s.renewed := rfl
@[simp] theorem State.setSequencer_flash (s : State) (n : Nat) (x : Sequencer) : (s.setSequencer n x).flash = s.flash := rfl
@[simp] theorem State.setSequencer_fwImage (s : State) (n : Nat) (x : Sequencer) : (s.setSequencer n x).fwImage = s.fwImage := rfl
@[simp] theorem State.setSequencer_measured (s : State) (n : Nat) (x : Sequencer) : (s.setSequencer n x).measured = s.measured := rfl
@[simp] theorem State.setSequencer_leaves (s : State) (n : Nat) (x : Sequencer) : (s.setSequencer n x).leaves = s.leaves := rfl
@[simp] theorem State.setSequencer_spdm (s : State) (n : Nat) (x : Sequencer) : (s.setSequencer n x).spdm = s.spdm := rfl
@[simp] theorem State.setSequencer_sensor (s : State) (n : Nat) (x : Sequencer) : (s.setSequencer n x).sensor = s.sensor := rfl
@[simp] theorem State.setSequencer_pwHost (s : State) (n : Nat) (x : Sequencer) : (s.setSequencer n x).pwHost = s.pwHost := rfl
@[simp] theorem State.setSequencer_pwTchief (s : State) (n : Nat) (x : Sequencer) : (s.setSequencer n x).pwTchief = s.pwTchief := rfl
@[simp] theorem State.setSequencer_profile (s : State) (n : Nat) (x : Sequencer) : (s.setSequencer n x).profile = s.profile := rfl
@[simp] theorem State.setSequencer_scanout (s : State) (n : Nat) (x : Sequencer) : (s.setSequencer n x).scanout = s.scanout := rfl
@[simp] theorem State.setSequencer_now (s : State) (n : Nat) (x : Sequencer) : (s.setSequencer n x).now = s.now := rfl
@[simp] theorem State.setSequencer_turn (s : State) (n : Nat) (x : Sequencer) : (s.setSequencer n x).turn = s.turn := rfl
@[simp] theorem State.setSequencer_agenda (s : State) (n : Nat) (x : Sequencer) : (s.setSequencer n x).agenda = s.agenda := rfl
@[simp] theorem State.setSequencer_free (s : State) (n : Nat) (x : Sequencer) : (s.setSequencer n x).free = s.free := rfl
@[simp] theorem State.setSequencer_nextId (s : State) (n : Nat) (x : Sequencer) : (s.setSequencer n x).nextId = s.nextId := rfl

/-! ## State.setDir -/

@[simp] theorem State.setDir_crew (s : State) (b : Nat) (e : DirEntry) : (s.setDir b e).crew = s.crew := rfl
@[simp] theorem State.setDir_rest (s : State) (b : Nat) (e : DirEntry) : (s.setDir b e).rest = s.rest := rfl
@[simp] theorem State.setDir_mem (s : State) (b : Nat) (e : DirEntry) : (s.setDir b e).mem = s.mem := rfl
@[simp] theorem State.setDir_spad (s : State) (b : Nat) (e : DirEntry) : (s.setDir b e).spad = s.spad := rfl
@[simp] theorem State.setDir_caddy (s : State) (b : Nat) (e : DirEntry) : (s.setDir b e).caddy = s.caddy := rfl
@[simp] theorem State.setDir_caddyOpen (s : State) (b : Nat) (e : DirEntry) : (s.setDir b e).caddyOpen = s.caddyOpen := rfl
@[simp] theorem State.setDir_cores (s : State) (b : Nat) (e : DirEntry) : (s.setDir b e).cores = s.cores := rfl
@[simp] theorem State.setDir_dies (s : State) (b : Nat) (e : DirEntry) : (s.setDir b e).dies = s.dies := rfl
@[simp] theorem State.setDir_writes (s : State) (b : Nat) (e : DirEntry) : (s.setDir b e).writes = s.writes := rfl
@[simp] theorem State.setDir_lines (s : State) (b : Nat) (e : DirEntry) : (s.setDir b e).lines = s.lines := rfl
@[simp] theorem State.setDir_msgs (s : State) (b : Nat) (e : DirEntry) : (s.setDir b e).msgs = s.msgs := rfl
@[simp] theorem State.setDir_poisoned (s : State) (b : Nat) (e : DirEntry) : (s.setDir b e).poisoned = s.poisoned := rfl
@[simp] theorem State.setDir_launches (s : State) (b : Nat) (e : DirEntry) : (s.setDir b e).launches = s.launches := rfl
@[simp] theorem State.setDir_chains (s : State) (b : Nat) (e : DirEntry) : (s.setDir b e).chains = s.chains := rfl
@[simp] theorem State.setDir_solvers (s : State) (b : Nat) (e : DirEntry) : (s.setDir b e).solvers = s.solvers := rfl
@[simp] theorem State.setDir_passes (s : State) (b : Nat) (e : DirEntry) : (s.setDir b e).passes = s.passes := rfl
@[simp] theorem State.setDir_kills (s : State) (b : Nat) (e : DirEntry) : (s.setDir b e).kills = s.kills := rfl
@[simp] theorem State.setDir_power (s : State) (b : Nat) (e : DirEntry) : (s.setDir b e).power = s.power := rfl
@[simp] theorem State.setDir_bsState (s : State) (b : Nat) (e : DirEntry) : (s.setDir b e).bsState = s.bsState := rfl
@[simp] theorem State.setDir_trained (s : State) (b : Nat) (e : DirEntry) : (s.setDir b e).trained = s.trained := rfl
@[simp] theorem State.setDir_svn (s : State) (b : Nat) (e : DirEntry) : (s.setDir b e).svn = s.svn := rfl
@[simp] theorem State.setDir_svnBlowing (s : State) (b : Nat) (e : DirEntry) : (s.setDir b e).svnBlowing = s.svnBlowing := rfl
@[simp] theorem State.setDir_leader (s : State) (b : Nat) (e : DirEntry) : (s.setDir b e).leader = s.leader := rfl
@[simp] theorem State.setDir_acting (s : State) (b : Nat) (e : DirEntry) : (s.setDir b e).acting = s.acting := rfl
@[simp] theorem State.setDir_renewed (s : State) (b : Nat) (e : DirEntry) : (s.setDir b e).renewed = s.renewed := rfl
@[simp] theorem State.setDir_flash (s : State) (b : Nat) (e : DirEntry) : (s.setDir b e).flash = s.flash := rfl
@[simp] theorem State.setDir_fwImage (s : State) (b : Nat) (e : DirEntry) : (s.setDir b e).fwImage = s.fwImage := rfl
@[simp] theorem State.setDir_measured (s : State) (b : Nat) (e : DirEntry) : (s.setDir b e).measured = s.measured := rfl
@[simp] theorem State.setDir_leaves (s : State) (b : Nat) (e : DirEntry) : (s.setDir b e).leaves = s.leaves := rfl
@[simp] theorem State.setDir_spdm (s : State) (b : Nat) (e : DirEntry) : (s.setDir b e).spdm = s.spdm := rfl
@[simp] theorem State.setDir_sensor (s : State) (b : Nat) (e : DirEntry) : (s.setDir b e).sensor = s.sensor := rfl
@[simp] theorem State.setDir_pwHost (s : State) (b : Nat) (e : DirEntry) : (s.setDir b e).pwHost = s.pwHost := rfl
@[simp] theorem State.setDir_pwTchief (s : State) (b : Nat) (e : DirEntry) : (s.setDir b e).pwTchief = s.pwTchief := rfl
@[simp] theorem State.setDir_profile (s : State) (b : Nat) (e : DirEntry) : (s.setDir b e).profile = s.profile := rfl
@[simp] theorem State.setDir_scanout (s : State) (b : Nat) (e : DirEntry) : (s.setDir b e).scanout = s.scanout := rfl
@[simp] theorem State.setDir_now (s : State) (b : Nat) (e : DirEntry) : (s.setDir b e).now = s.now := rfl
@[simp] theorem State.setDir_turn (s : State) (b : Nat) (e : DirEntry) : (s.setDir b e).turn = s.turn := rfl
@[simp] theorem State.setDir_agenda (s : State) (b : Nat) (e : DirEntry) : (s.setDir b e).agenda = s.agenda := rfl
@[simp] theorem State.setDir_free (s : State) (b : Nat) (e : DirEntry) : (s.setDir b e).free = s.free := rfl
@[simp] theorem State.setDir_nextId (s : State) (b : Nat) (e : DirEntry) : (s.setDir b e).nextId = s.nextId := rfl

/-! ## State.dropLine -/

@[simp] theorem State.dropLine_crew (s : State) (a pa : Nat) : (s.dropLine a pa).crew = s.crew := rfl
@[simp] theorem State.dropLine_rest (s : State) (a pa : Nat) : (s.dropLine a pa).rest = s.rest := rfl
@[simp] theorem State.dropLine_mem (s : State) (a pa : Nat) : (s.dropLine a pa).mem = s.mem := rfl
@[simp] theorem State.dropLine_spad (s : State) (a pa : Nat) : (s.dropLine a pa).spad = s.spad := rfl
@[simp] theorem State.dropLine_caddy (s : State) (a pa : Nat) : (s.dropLine a pa).caddy = s.caddy := rfl
@[simp] theorem State.dropLine_caddyOpen (s : State) (a pa : Nat) : (s.dropLine a pa).caddyOpen = s.caddyOpen := rfl
@[simp] theorem State.dropLine_cores (s : State) (a pa : Nat) : (s.dropLine a pa).cores = s.cores := rfl
@[simp] theorem State.dropLine_dies (s : State) (a pa : Nat) : (s.dropLine a pa).dies = s.dies := rfl
@[simp] theorem State.dropLine_writes (s : State) (a pa : Nat) : (s.dropLine a pa).writes = s.writes := rfl
@[simp] theorem State.dropLine_dir (s : State) (a pa : Nat) : (s.dropLine a pa).dir = s.dir := rfl
@[simp] theorem State.dropLine_msgs (s : State) (a pa : Nat) : (s.dropLine a pa).msgs = s.msgs := rfl
@[simp] theorem State.dropLine_poisoned (s : State) (a pa : Nat) : (s.dropLine a pa).poisoned = s.poisoned := rfl
@[simp] theorem State.dropLine_launches (s : State) (a pa : Nat) : (s.dropLine a pa).launches = s.launches := rfl
@[simp] theorem State.dropLine_chains (s : State) (a pa : Nat) : (s.dropLine a pa).chains = s.chains := rfl
@[simp] theorem State.dropLine_solvers (s : State) (a pa : Nat) : (s.dropLine a pa).solvers = s.solvers := rfl
@[simp] theorem State.dropLine_passes (s : State) (a pa : Nat) : (s.dropLine a pa).passes = s.passes := rfl
@[simp] theorem State.dropLine_kills (s : State) (a pa : Nat) : (s.dropLine a pa).kills = s.kills := rfl
@[simp] theorem State.dropLine_power (s : State) (a pa : Nat) : (s.dropLine a pa).power = s.power := rfl
@[simp] theorem State.dropLine_bsState (s : State) (a pa : Nat) : (s.dropLine a pa).bsState = s.bsState := rfl
@[simp] theorem State.dropLine_trained (s : State) (a pa : Nat) : (s.dropLine a pa).trained = s.trained := rfl
@[simp] theorem State.dropLine_svn (s : State) (a pa : Nat) : (s.dropLine a pa).svn = s.svn := rfl
@[simp] theorem State.dropLine_svnBlowing (s : State) (a pa : Nat) : (s.dropLine a pa).svnBlowing = s.svnBlowing := rfl
@[simp] theorem State.dropLine_leader (s : State) (a pa : Nat) : (s.dropLine a pa).leader = s.leader := rfl
@[simp] theorem State.dropLine_acting (s : State) (a pa : Nat) : (s.dropLine a pa).acting = s.acting := rfl
@[simp] theorem State.dropLine_renewed (s : State) (a pa : Nat) : (s.dropLine a pa).renewed = s.renewed := rfl
@[simp] theorem State.dropLine_flash (s : State) (a pa : Nat) : (s.dropLine a pa).flash = s.flash := rfl
@[simp] theorem State.dropLine_fwImage (s : State) (a pa : Nat) : (s.dropLine a pa).fwImage = s.fwImage := rfl
@[simp] theorem State.dropLine_measured (s : State) (a pa : Nat) : (s.dropLine a pa).measured = s.measured := rfl
@[simp] theorem State.dropLine_leaves (s : State) (a pa : Nat) : (s.dropLine a pa).leaves = s.leaves := rfl
@[simp] theorem State.dropLine_spdm (s : State) (a pa : Nat) : (s.dropLine a pa).spdm = s.spdm := rfl
@[simp] theorem State.dropLine_sensor (s : State) (a pa : Nat) : (s.dropLine a pa).sensor = s.sensor := rfl
@[simp] theorem State.dropLine_pwHost (s : State) (a pa : Nat) : (s.dropLine a pa).pwHost = s.pwHost := rfl
@[simp] theorem State.dropLine_pwTchief (s : State) (a pa : Nat) : (s.dropLine a pa).pwTchief = s.pwTchief := rfl
@[simp] theorem State.dropLine_profile (s : State) (a pa : Nat) : (s.dropLine a pa).profile = s.profile := rfl
@[simp] theorem State.dropLine_scanout (s : State) (a pa : Nat) : (s.dropLine a pa).scanout = s.scanout := rfl
@[simp] theorem State.dropLine_now (s : State) (a pa : Nat) : (s.dropLine a pa).now = s.now := rfl
@[simp] theorem State.dropLine_turn (s : State) (a pa : Nat) : (s.dropLine a pa).turn = s.turn := rfl
@[simp] theorem State.dropLine_agenda (s : State) (a pa : Nat) : (s.dropLine a pa).agenda = s.agenda := rfl
@[simp] theorem State.dropLine_free (s : State) (a pa : Nat) : (s.dropLine a pa).free = s.free := rfl
@[simp] theorem State.dropLine_nextId (s : State) (a pa : Nat) : (s.dropLine a pa).nextId = s.nextId := rfl

/-! ## State.mapLine -/

@[simp] theorem State.mapLine_crew (s : State) (a pa : Nat) (f : Line → Line) : (s.mapLine a pa f).crew = s.crew := rfl
@[simp] theorem State.mapLine_rest (s : State) (a pa : Nat) (f : Line → Line) : (s.mapLine a pa f).rest = s.rest := rfl
@[simp] theorem State.mapLine_mem (s : State) (a pa : Nat) (f : Line → Line) : (s.mapLine a pa f).mem = s.mem := rfl
@[simp] theorem State.mapLine_spad (s : State) (a pa : Nat) (f : Line → Line) : (s.mapLine a pa f).spad = s.spad := rfl
@[simp] theorem State.mapLine_caddy (s : State) (a pa : Nat) (f : Line → Line) : (s.mapLine a pa f).caddy = s.caddy := rfl
@[simp] theorem State.mapLine_caddyOpen (s : State) (a pa : Nat) (f : Line → Line) : (s.mapLine a pa f).caddyOpen = s.caddyOpen := rfl
@[simp] theorem State.mapLine_cores (s : State) (a pa : Nat) (f : Line → Line) : (s.mapLine a pa f).cores = s.cores := rfl
@[simp] theorem State.mapLine_dies (s : State) (a pa : Nat) (f : Line → Line) : (s.mapLine a pa f).dies = s.dies := rfl
@[simp] theorem State.mapLine_writes (s : State) (a pa : Nat) (f : Line → Line) : (s.mapLine a pa f).writes = s.writes := rfl
@[simp] theorem State.mapLine_dir (s : State) (a pa : Nat) (f : Line → Line) : (s.mapLine a pa f).dir = s.dir := rfl
@[simp] theorem State.mapLine_msgs (s : State) (a pa : Nat) (f : Line → Line) : (s.mapLine a pa f).msgs = s.msgs := rfl
@[simp] theorem State.mapLine_poisoned (s : State) (a pa : Nat) (f : Line → Line) : (s.mapLine a pa f).poisoned = s.poisoned := rfl
@[simp] theorem State.mapLine_launches (s : State) (a pa : Nat) (f : Line → Line) : (s.mapLine a pa f).launches = s.launches := rfl
@[simp] theorem State.mapLine_chains (s : State) (a pa : Nat) (f : Line → Line) : (s.mapLine a pa f).chains = s.chains := rfl
@[simp] theorem State.mapLine_solvers (s : State) (a pa : Nat) (f : Line → Line) : (s.mapLine a pa f).solvers = s.solvers := rfl
@[simp] theorem State.mapLine_passes (s : State) (a pa : Nat) (f : Line → Line) : (s.mapLine a pa f).passes = s.passes := rfl
@[simp] theorem State.mapLine_kills (s : State) (a pa : Nat) (f : Line → Line) : (s.mapLine a pa f).kills = s.kills := rfl
@[simp] theorem State.mapLine_power (s : State) (a pa : Nat) (f : Line → Line) : (s.mapLine a pa f).power = s.power := rfl
@[simp] theorem State.mapLine_bsState (s : State) (a pa : Nat) (f : Line → Line) : (s.mapLine a pa f).bsState = s.bsState := rfl
@[simp] theorem State.mapLine_trained (s : State) (a pa : Nat) (f : Line → Line) : (s.mapLine a pa f).trained = s.trained := rfl
@[simp] theorem State.mapLine_svn (s : State) (a pa : Nat) (f : Line → Line) : (s.mapLine a pa f).svn = s.svn := rfl
@[simp] theorem State.mapLine_svnBlowing (s : State) (a pa : Nat) (f : Line → Line) : (s.mapLine a pa f).svnBlowing = s.svnBlowing := rfl
@[simp] theorem State.mapLine_leader (s : State) (a pa : Nat) (f : Line → Line) : (s.mapLine a pa f).leader = s.leader := rfl
@[simp] theorem State.mapLine_acting (s : State) (a pa : Nat) (f : Line → Line) : (s.mapLine a pa f).acting = s.acting := rfl
@[simp] theorem State.mapLine_renewed (s : State) (a pa : Nat) (f : Line → Line) : (s.mapLine a pa f).renewed = s.renewed := rfl
@[simp] theorem State.mapLine_flash (s : State) (a pa : Nat) (f : Line → Line) : (s.mapLine a pa f).flash = s.flash := rfl
@[simp] theorem State.mapLine_fwImage (s : State) (a pa : Nat) (f : Line → Line) : (s.mapLine a pa f).fwImage = s.fwImage := rfl
@[simp] theorem State.mapLine_measured (s : State) (a pa : Nat) (f : Line → Line) : (s.mapLine a pa f).measured = s.measured := rfl
@[simp] theorem State.mapLine_leaves (s : State) (a pa : Nat) (f : Line → Line) : (s.mapLine a pa f).leaves = s.leaves := rfl
@[simp] theorem State.mapLine_spdm (s : State) (a pa : Nat) (f : Line → Line) : (s.mapLine a pa f).spdm = s.spdm := rfl
@[simp] theorem State.mapLine_sensor (s : State) (a pa : Nat) (f : Line → Line) : (s.mapLine a pa f).sensor = s.sensor := rfl
@[simp] theorem State.mapLine_pwHost (s : State) (a pa : Nat) (f : Line → Line) : (s.mapLine a pa f).pwHost = s.pwHost := rfl
@[simp] theorem State.mapLine_pwTchief (s : State) (a pa : Nat) (f : Line → Line) : (s.mapLine a pa f).pwTchief = s.pwTchief := rfl
@[simp] theorem State.mapLine_profile (s : State) (a pa : Nat) (f : Line → Line) : (s.mapLine a pa f).profile = s.profile := rfl
@[simp] theorem State.mapLine_scanout (s : State) (a pa : Nat) (f : Line → Line) : (s.mapLine a pa f).scanout = s.scanout := rfl
@[simp] theorem State.mapLine_now (s : State) (a pa : Nat) (f : Line → Line) : (s.mapLine a pa f).now = s.now := rfl
@[simp] theorem State.mapLine_turn (s : State) (a pa : Nat) (f : Line → Line) : (s.mapLine a pa f).turn = s.turn := rfl
@[simp] theorem State.mapLine_agenda (s : State) (a pa : Nat) (f : Line → Line) : (s.mapLine a pa f).agenda = s.agenda := rfl
@[simp] theorem State.mapLine_free (s : State) (a pa : Nat) (f : Line → Line) : (s.mapLine a pa f).free = s.free := rfl
@[simp] theorem State.mapLine_nextId (s : State) (a pa : Nat) (f : Line → Line) : (s.mapLine a pa f).nextId = s.nextId := rfl

/-! ## State.mapCrews -/

@[simp] theorem State.mapCrews_mem (s : State) (f : Crew → Crew) : (s.mapCrews f).mem = s.mem := rfl
@[simp] theorem State.mapCrews_spad (s : State) (f : Crew → Crew) : (s.mapCrews f).spad = s.spad := rfl
@[simp] theorem State.mapCrews_caddy (s : State) (f : Crew → Crew) : (s.mapCrews f).caddy = s.caddy := rfl
@[simp] theorem State.mapCrews_caddyOpen (s : State) (f : Crew → Crew) : (s.mapCrews f).caddyOpen = s.caddyOpen := rfl
@[simp] theorem State.mapCrews_cores (s : State) (f : Crew → Crew) : (s.mapCrews f).cores = s.cores := rfl
@[simp] theorem State.mapCrews_dies (s : State) (f : Crew → Crew) : (s.mapCrews f).dies = s.dies := rfl
@[simp] theorem State.mapCrews_writes (s : State) (f : Crew → Crew) : (s.mapCrews f).writes = s.writes := rfl
@[simp] theorem State.mapCrews_lines (s : State) (f : Crew → Crew) : (s.mapCrews f).lines = s.lines := rfl
@[simp] theorem State.mapCrews_dir (s : State) (f : Crew → Crew) : (s.mapCrews f).dir = s.dir := rfl
@[simp] theorem State.mapCrews_msgs (s : State) (f : Crew → Crew) : (s.mapCrews f).msgs = s.msgs := rfl
@[simp] theorem State.mapCrews_poisoned (s : State) (f : Crew → Crew) : (s.mapCrews f).poisoned = s.poisoned := rfl
@[simp] theorem State.mapCrews_launches (s : State) (f : Crew → Crew) : (s.mapCrews f).launches = s.launches := rfl
@[simp] theorem State.mapCrews_chains (s : State) (f : Crew → Crew) : (s.mapCrews f).chains = s.chains := rfl
@[simp] theorem State.mapCrews_solvers (s : State) (f : Crew → Crew) : (s.mapCrews f).solvers = s.solvers := rfl
@[simp] theorem State.mapCrews_passes (s : State) (f : Crew → Crew) : (s.mapCrews f).passes = s.passes := rfl
@[simp] theorem State.mapCrews_kills (s : State) (f : Crew → Crew) : (s.mapCrews f).kills = s.kills := rfl
@[simp] theorem State.mapCrews_power (s : State) (f : Crew → Crew) : (s.mapCrews f).power = s.power := rfl
@[simp] theorem State.mapCrews_bsState (s : State) (f : Crew → Crew) : (s.mapCrews f).bsState = s.bsState := rfl
@[simp] theorem State.mapCrews_trained (s : State) (f : Crew → Crew) : (s.mapCrews f).trained = s.trained := rfl
@[simp] theorem State.mapCrews_svn (s : State) (f : Crew → Crew) : (s.mapCrews f).svn = s.svn := rfl
@[simp] theorem State.mapCrews_svnBlowing (s : State) (f : Crew → Crew) : (s.mapCrews f).svnBlowing = s.svnBlowing := rfl
@[simp] theorem State.mapCrews_leader (s : State) (f : Crew → Crew) : (s.mapCrews f).leader = s.leader := rfl
@[simp] theorem State.mapCrews_acting (s : State) (f : Crew → Crew) : (s.mapCrews f).acting = s.acting := rfl
@[simp] theorem State.mapCrews_renewed (s : State) (f : Crew → Crew) : (s.mapCrews f).renewed = s.renewed := rfl
@[simp] theorem State.mapCrews_flash (s : State) (f : Crew → Crew) : (s.mapCrews f).flash = s.flash := rfl
@[simp] theorem State.mapCrews_fwImage (s : State) (f : Crew → Crew) : (s.mapCrews f).fwImage = s.fwImage := rfl
@[simp] theorem State.mapCrews_measured (s : State) (f : Crew → Crew) : (s.mapCrews f).measured = s.measured := rfl
@[simp] theorem State.mapCrews_leaves (s : State) (f : Crew → Crew) : (s.mapCrews f).leaves = s.leaves := rfl
@[simp] theorem State.mapCrews_spdm (s : State) (f : Crew → Crew) : (s.mapCrews f).spdm = s.spdm := rfl
@[simp] theorem State.mapCrews_sensor (s : State) (f : Crew → Crew) : (s.mapCrews f).sensor = s.sensor := rfl
@[simp] theorem State.mapCrews_pwHost (s : State) (f : Crew → Crew) : (s.mapCrews f).pwHost = s.pwHost := rfl
@[simp] theorem State.mapCrews_pwTchief (s : State) (f : Crew → Crew) : (s.mapCrews f).pwTchief = s.pwTchief := rfl
@[simp] theorem State.mapCrews_profile (s : State) (f : Crew → Crew) : (s.mapCrews f).profile = s.profile := rfl
@[simp] theorem State.mapCrews_scanout (s : State) (f : Crew → Crew) : (s.mapCrews f).scanout = s.scanout := rfl
@[simp] theorem State.mapCrews_now (s : State) (f : Crew → Crew) : (s.mapCrews f).now = s.now := rfl
@[simp] theorem State.mapCrews_turn (s : State) (f : Crew → Crew) : (s.mapCrews f).turn = s.turn := rfl
@[simp] theorem State.mapCrews_agenda (s : State) (f : Crew → Crew) : (s.mapCrews f).agenda = s.agenda := rfl
@[simp] theorem State.mapCrews_free (s : State) (f : Crew → Crew) : (s.mapCrews f).free = s.free := rfl
@[simp] theorem State.mapCrews_nextId (s : State) (f : Crew → Crew) : (s.mapCrews f).nextId = s.nextId := rfl

/-! ## State.onCrewOf -/

@[simp] theorem State.onCrewOf_mem (s : State) (u : Nat) (f : Crew → Crew) : (s.onCrewOf u f).mem = s.mem := rfl
@[simp] theorem State.onCrewOf_spad (s : State) (u : Nat) (f : Crew → Crew) : (s.onCrewOf u f).spad = s.spad := rfl
@[simp] theorem State.onCrewOf_caddy (s : State) (u : Nat) (f : Crew → Crew) : (s.onCrewOf u f).caddy = s.caddy := rfl
@[simp] theorem State.onCrewOf_caddyOpen (s : State) (u : Nat) (f : Crew → Crew) : (s.onCrewOf u f).caddyOpen = s.caddyOpen := rfl
@[simp] theorem State.onCrewOf_cores (s : State) (u : Nat) (f : Crew → Crew) : (s.onCrewOf u f).cores = s.cores := rfl
@[simp] theorem State.onCrewOf_dies (s : State) (u : Nat) (f : Crew → Crew) : (s.onCrewOf u f).dies = s.dies := rfl
@[simp] theorem State.onCrewOf_writes (s : State) (u : Nat) (f : Crew → Crew) : (s.onCrewOf u f).writes = s.writes := rfl
@[simp] theorem State.onCrewOf_lines (s : State) (u : Nat) (f : Crew → Crew) : (s.onCrewOf u f).lines = s.lines := rfl
@[simp] theorem State.onCrewOf_dir (s : State) (u : Nat) (f : Crew → Crew) : (s.onCrewOf u f).dir = s.dir := rfl
@[simp] theorem State.onCrewOf_msgs (s : State) (u : Nat) (f : Crew → Crew) : (s.onCrewOf u f).msgs = s.msgs := rfl
@[simp] theorem State.onCrewOf_poisoned (s : State) (u : Nat) (f : Crew → Crew) : (s.onCrewOf u f).poisoned = s.poisoned := rfl
@[simp] theorem State.onCrewOf_launches (s : State) (u : Nat) (f : Crew → Crew) : (s.onCrewOf u f).launches = s.launches := rfl
@[simp] theorem State.onCrewOf_chains (s : State) (u : Nat) (f : Crew → Crew) : (s.onCrewOf u f).chains = s.chains := rfl
@[simp] theorem State.onCrewOf_solvers (s : State) (u : Nat) (f : Crew → Crew) : (s.onCrewOf u f).solvers = s.solvers := rfl
@[simp] theorem State.onCrewOf_passes (s : State) (u : Nat) (f : Crew → Crew) : (s.onCrewOf u f).passes = s.passes := rfl
@[simp] theorem State.onCrewOf_kills (s : State) (u : Nat) (f : Crew → Crew) : (s.onCrewOf u f).kills = s.kills := rfl
@[simp] theorem State.onCrewOf_power (s : State) (u : Nat) (f : Crew → Crew) : (s.onCrewOf u f).power = s.power := rfl
@[simp] theorem State.onCrewOf_bsState (s : State) (u : Nat) (f : Crew → Crew) : (s.onCrewOf u f).bsState = s.bsState := rfl
@[simp] theorem State.onCrewOf_trained (s : State) (u : Nat) (f : Crew → Crew) : (s.onCrewOf u f).trained = s.trained := rfl
@[simp] theorem State.onCrewOf_svn (s : State) (u : Nat) (f : Crew → Crew) : (s.onCrewOf u f).svn = s.svn := rfl
@[simp] theorem State.onCrewOf_svnBlowing (s : State) (u : Nat) (f : Crew → Crew) : (s.onCrewOf u f).svnBlowing = s.svnBlowing := rfl
@[simp] theorem State.onCrewOf_leader (s : State) (u : Nat) (f : Crew → Crew) : (s.onCrewOf u f).leader = s.leader := rfl
@[simp] theorem State.onCrewOf_acting (s : State) (u : Nat) (f : Crew → Crew) : (s.onCrewOf u f).acting = s.acting := rfl
@[simp] theorem State.onCrewOf_renewed (s : State) (u : Nat) (f : Crew → Crew) : (s.onCrewOf u f).renewed = s.renewed := rfl
@[simp] theorem State.onCrewOf_flash (s : State) (u : Nat) (f : Crew → Crew) : (s.onCrewOf u f).flash = s.flash := rfl
@[simp] theorem State.onCrewOf_fwImage (s : State) (u : Nat) (f : Crew → Crew) : (s.onCrewOf u f).fwImage = s.fwImage := rfl
@[simp] theorem State.onCrewOf_measured (s : State) (u : Nat) (f : Crew → Crew) : (s.onCrewOf u f).measured = s.measured := rfl
@[simp] theorem State.onCrewOf_leaves (s : State) (u : Nat) (f : Crew → Crew) : (s.onCrewOf u f).leaves = s.leaves := rfl
@[simp] theorem State.onCrewOf_spdm (s : State) (u : Nat) (f : Crew → Crew) : (s.onCrewOf u f).spdm = s.spdm := rfl
@[simp] theorem State.onCrewOf_sensor (s : State) (u : Nat) (f : Crew → Crew) : (s.onCrewOf u f).sensor = s.sensor := rfl
@[simp] theorem State.onCrewOf_pwHost (s : State) (u : Nat) (f : Crew → Crew) : (s.onCrewOf u f).pwHost = s.pwHost := rfl
@[simp] theorem State.onCrewOf_pwTchief (s : State) (u : Nat) (f : Crew → Crew) : (s.onCrewOf u f).pwTchief = s.pwTchief := rfl
@[simp] theorem State.onCrewOf_profile (s : State) (u : Nat) (f : Crew → Crew) : (s.onCrewOf u f).profile = s.profile := rfl
@[simp] theorem State.onCrewOf_scanout (s : State) (u : Nat) (f : Crew → Crew) : (s.onCrewOf u f).scanout = s.scanout := rfl
@[simp] theorem State.onCrewOf_now (s : State) (u : Nat) (f : Crew → Crew) : (s.onCrewOf u f).now = s.now := rfl
@[simp] theorem State.onCrewOf_turn (s : State) (u : Nat) (f : Crew → Crew) : (s.onCrewOf u f).turn = s.turn := rfl
@[simp] theorem State.onCrewOf_agenda (s : State) (u : Nat) (f : Crew → Crew) : (s.onCrewOf u f).agenda = s.agenda := rfl
@[simp] theorem State.onCrewOf_free (s : State) (u : Nat) (f : Crew → Crew) : (s.onCrewOf u f).free = s.free := rfl
@[simp] theorem State.onCrewOf_nextId (s : State) (u : Nat) (f : Crew → Crew) : (s.onCrewOf u f).nextId = s.nextId := rfl

/-! ## State.useFree -/

@[simp] theorem State.useFree_crew (s : State) (n : Nat) : (s.useFree n).crew = s.crew := rfl
@[simp] theorem State.useFree_rest (s : State) (n : Nat) : (s.useFree n).rest = s.rest := rfl
@[simp] theorem State.useFree_mem (s : State) (n : Nat) : (s.useFree n).mem = s.mem := rfl
@[simp] theorem State.useFree_spad (s : State) (n : Nat) : (s.useFree n).spad = s.spad := rfl
@[simp] theorem State.useFree_caddy (s : State) (n : Nat) : (s.useFree n).caddy = s.caddy := rfl
@[simp] theorem State.useFree_caddyOpen (s : State) (n : Nat) : (s.useFree n).caddyOpen = s.caddyOpen := rfl
@[simp] theorem State.useFree_cores (s : State) (n : Nat) : (s.useFree n).cores = s.cores := rfl
@[simp] theorem State.useFree_dies (s : State) (n : Nat) : (s.useFree n).dies = s.dies := rfl
@[simp] theorem State.useFree_writes (s : State) (n : Nat) : (s.useFree n).writes = s.writes := rfl
@[simp] theorem State.useFree_lines (s : State) (n : Nat) : (s.useFree n).lines = s.lines := rfl
@[simp] theorem State.useFree_dir (s : State) (n : Nat) : (s.useFree n).dir = s.dir := rfl
@[simp] theorem State.useFree_msgs (s : State) (n : Nat) : (s.useFree n).msgs = s.msgs := rfl
@[simp] theorem State.useFree_poisoned (s : State) (n : Nat) : (s.useFree n).poisoned = s.poisoned := rfl
@[simp] theorem State.useFree_launches (s : State) (n : Nat) : (s.useFree n).launches = s.launches := rfl
@[simp] theorem State.useFree_chains (s : State) (n : Nat) : (s.useFree n).chains = s.chains := rfl
@[simp] theorem State.useFree_solvers (s : State) (n : Nat) : (s.useFree n).solvers = s.solvers := rfl
@[simp] theorem State.useFree_passes (s : State) (n : Nat) : (s.useFree n).passes = s.passes := rfl
@[simp] theorem State.useFree_kills (s : State) (n : Nat) : (s.useFree n).kills = s.kills := rfl
@[simp] theorem State.useFree_power (s : State) (n : Nat) : (s.useFree n).power = s.power := rfl
@[simp] theorem State.useFree_bsState (s : State) (n : Nat) : (s.useFree n).bsState = s.bsState := rfl
@[simp] theorem State.useFree_trained (s : State) (n : Nat) : (s.useFree n).trained = s.trained := rfl
@[simp] theorem State.useFree_svn (s : State) (n : Nat) : (s.useFree n).svn = s.svn := rfl
@[simp] theorem State.useFree_svnBlowing (s : State) (n : Nat) : (s.useFree n).svnBlowing = s.svnBlowing := rfl
@[simp] theorem State.useFree_leader (s : State) (n : Nat) : (s.useFree n).leader = s.leader := rfl
@[simp] theorem State.useFree_acting (s : State) (n : Nat) : (s.useFree n).acting = s.acting := rfl
@[simp] theorem State.useFree_renewed (s : State) (n : Nat) : (s.useFree n).renewed = s.renewed := rfl
@[simp] theorem State.useFree_flash (s : State) (n : Nat) : (s.useFree n).flash = s.flash := rfl
@[simp] theorem State.useFree_fwImage (s : State) (n : Nat) : (s.useFree n).fwImage = s.fwImage := rfl
@[simp] theorem State.useFree_measured (s : State) (n : Nat) : (s.useFree n).measured = s.measured := rfl
@[simp] theorem State.useFree_leaves (s : State) (n : Nat) : (s.useFree n).leaves = s.leaves := rfl
@[simp] theorem State.useFree_spdm (s : State) (n : Nat) : (s.useFree n).spdm = s.spdm := rfl
@[simp] theorem State.useFree_sensor (s : State) (n : Nat) : (s.useFree n).sensor = s.sensor := rfl
@[simp] theorem State.useFree_pwHost (s : State) (n : Nat) : (s.useFree n).pwHost = s.pwHost := rfl
@[simp] theorem State.useFree_pwTchief (s : State) (n : Nat) : (s.useFree n).pwTchief = s.pwTchief := rfl
@[simp] theorem State.useFree_profile (s : State) (n : Nat) : (s.useFree n).profile = s.profile := rfl
@[simp] theorem State.useFree_scanout (s : State) (n : Nat) : (s.useFree n).scanout = s.scanout := rfl
@[simp] theorem State.useFree_now (s : State) (n : Nat) : (s.useFree n).now = s.now := rfl
@[simp] theorem State.useFree_turn (s : State) (n : Nat) : (s.useFree n).turn = s.turn := rfl
@[simp] theorem State.useFree_agenda (s : State) (n : Nat) : (s.useFree n).agenda = s.agenda := rfl
@[simp] theorem State.useFree_nextId (s : State) (n : Nat) : (s.useFree n).nextId = s.nextId := rfl

/-! ## State.tally -/

@[simp] theorem State.tally_crew (s : State) (pa i u p o : Nat) : (s.tally pa i u p o).crew = s.crew := rfl
@[simp] theorem State.tally_rest (s : State) (pa i u p o : Nat) : (s.tally pa i u p o).rest = s.rest := rfl
@[simp] theorem State.tally_mem (s : State) (pa i u p o : Nat) : (s.tally pa i u p o).mem = s.mem := rfl
@[simp] theorem State.tally_spad (s : State) (pa i u p o : Nat) : (s.tally pa i u p o).spad = s.spad := rfl
@[simp] theorem State.tally_caddy (s : State) (pa i u p o : Nat) : (s.tally pa i u p o).caddy = s.caddy := rfl
@[simp] theorem State.tally_caddyOpen (s : State) (pa i u p o : Nat) : (s.tally pa i u p o).caddyOpen = s.caddyOpen := rfl
@[simp] theorem State.tally_cores (s : State) (pa i u p o : Nat) : (s.tally pa i u p o).cores = s.cores := rfl
@[simp] theorem State.tally_writes (s : State) (pa i u p o : Nat) : (s.tally pa i u p o).writes = s.writes := rfl
@[simp] theorem State.tally_lines (s : State) (pa i u p o : Nat) : (s.tally pa i u p o).lines = s.lines := rfl
@[simp] theorem State.tally_dir (s : State) (pa i u p o : Nat) : (s.tally pa i u p o).dir = s.dir := rfl
@[simp] theorem State.tally_msgs (s : State) (pa i u p o : Nat) : (s.tally pa i u p o).msgs = s.msgs := rfl
@[simp] theorem State.tally_poisoned (s : State) (pa i u p o : Nat) : (s.tally pa i u p o).poisoned = s.poisoned := rfl
@[simp] theorem State.tally_launches (s : State) (pa i u p o : Nat) : (s.tally pa i u p o).launches = s.launches := rfl
@[simp] theorem State.tally_chains (s : State) (pa i u p o : Nat) : (s.tally pa i u p o).chains = s.chains := rfl
@[simp] theorem State.tally_solvers (s : State) (pa i u p o : Nat) : (s.tally pa i u p o).solvers = s.solvers := rfl
@[simp] theorem State.tally_passes (s : State) (pa i u p o : Nat) : (s.tally pa i u p o).passes = s.passes := rfl
@[simp] theorem State.tally_kills (s : State) (pa i u p o : Nat) : (s.tally pa i u p o).kills = s.kills := rfl
@[simp] theorem State.tally_power (s : State) (pa i u p o : Nat) : (s.tally pa i u p o).power = s.power := rfl
@[simp] theorem State.tally_bsState (s : State) (pa i u p o : Nat) : (s.tally pa i u p o).bsState = s.bsState := rfl
@[simp] theorem State.tally_trained (s : State) (pa i u p o : Nat) : (s.tally pa i u p o).trained = s.trained := rfl
@[simp] theorem State.tally_svn (s : State) (pa i u p o : Nat) : (s.tally pa i u p o).svn = s.svn := rfl
@[simp] theorem State.tally_svnBlowing (s : State) (pa i u p o : Nat) : (s.tally pa i u p o).svnBlowing = s.svnBlowing := rfl
@[simp] theorem State.tally_leader (s : State) (pa i u p o : Nat) : (s.tally pa i u p o).leader = s.leader := rfl
@[simp] theorem State.tally_acting (s : State) (pa i u p o : Nat) : (s.tally pa i u p o).acting = s.acting := rfl
@[simp] theorem State.tally_renewed (s : State) (pa i u p o : Nat) : (s.tally pa i u p o).renewed = s.renewed := rfl
@[simp] theorem State.tally_flash (s : State) (pa i u p o : Nat) : (s.tally pa i u p o).flash = s.flash := rfl
@[simp] theorem State.tally_fwImage (s : State) (pa i u p o : Nat) : (s.tally pa i u p o).fwImage = s.fwImage := rfl
@[simp] theorem State.tally_measured (s : State) (pa i u p o : Nat) : (s.tally pa i u p o).measured = s.measured := rfl
@[simp] theorem State.tally_leaves (s : State) (pa i u p o : Nat) : (s.tally pa i u p o).leaves = s.leaves := rfl
@[simp] theorem State.tally_spdm (s : State) (pa i u p o : Nat) : (s.tally pa i u p o).spdm = s.spdm := rfl
@[simp] theorem State.tally_sensor (s : State) (pa i u p o : Nat) : (s.tally pa i u p o).sensor = s.sensor := rfl
@[simp] theorem State.tally_pwHost (s : State) (pa i u p o : Nat) : (s.tally pa i u p o).pwHost = s.pwHost := rfl
@[simp] theorem State.tally_pwTchief (s : State) (pa i u p o : Nat) : (s.tally pa i u p o).pwTchief = s.pwTchief := rfl
@[simp] theorem State.tally_profile (s : State) (pa i u p o : Nat) : (s.tally pa i u p o).profile = s.profile := rfl
@[simp] theorem State.tally_scanout (s : State) (pa i u p o : Nat) : (s.tally pa i u p o).scanout = s.scanout := rfl
@[simp] theorem State.tally_now (s : State) (pa i u p o : Nat) : (s.tally pa i u p o).now = s.now := rfl
@[simp] theorem State.tally_turn (s : State) (pa i u p o : Nat) : (s.tally pa i u p o).turn = s.turn := rfl
@[simp] theorem State.tally_agenda (s : State) (pa i u p o : Nat) : (s.tally pa i u p o).agenda = s.agenda := rfl
@[simp] theorem State.tally_free (s : State) (pa i u p o : Nat) : (s.tally pa i u p o).free = s.free := rfl
@[simp] theorem State.tally_nextId (s : State) (pa i u p o : Nat) : (s.tally pa i u p o).nextId = s.nextId := rfl

/-! ## State.tell -/

@[simp] theorem State.tell_crew (s : State) (d t : Nat) (b : List Byte) : (s.tell d t b).crew = s.crew := rfl
@[simp] theorem State.tell_rest (s : State) (d t : Nat) (b : List Byte) : (s.tell d t b).rest = s.rest := rfl
@[simp] theorem State.tell_mem (s : State) (d t : Nat) (b : List Byte) : (s.tell d t b).mem = s.mem := rfl
@[simp] theorem State.tell_spad (s : State) (d t : Nat) (b : List Byte) : (s.tell d t b).spad = s.spad := rfl
@[simp] theorem State.tell_caddy (s : State) (d t : Nat) (b : List Byte) : (s.tell d t b).caddy = s.caddy := rfl
@[simp] theorem State.tell_caddyOpen (s : State) (d t : Nat) (b : List Byte) : (s.tell d t b).caddyOpen = s.caddyOpen := rfl
@[simp] theorem State.tell_cores (s : State) (d t : Nat) (b : List Byte) : (s.tell d t b).cores = s.cores := rfl
@[simp] theorem State.tell_writes (s : State) (d t : Nat) (b : List Byte) : (s.tell d t b).writes = s.writes := rfl
@[simp] theorem State.tell_lines (s : State) (d t : Nat) (b : List Byte) : (s.tell d t b).lines = s.lines := rfl
@[simp] theorem State.tell_dir (s : State) (d t : Nat) (b : List Byte) : (s.tell d t b).dir = s.dir := rfl
@[simp] theorem State.tell_msgs (s : State) (d t : Nat) (b : List Byte) : (s.tell d t b).msgs = s.msgs := rfl
@[simp] theorem State.tell_poisoned (s : State) (d t : Nat) (b : List Byte) : (s.tell d t b).poisoned = s.poisoned := rfl
@[simp] theorem State.tell_launches (s : State) (d t : Nat) (b : List Byte) : (s.tell d t b).launches = s.launches := rfl
@[simp] theorem State.tell_chains (s : State) (d t : Nat) (b : List Byte) : (s.tell d t b).chains = s.chains := rfl
@[simp] theorem State.tell_solvers (s : State) (d t : Nat) (b : List Byte) : (s.tell d t b).solvers = s.solvers := rfl
@[simp] theorem State.tell_passes (s : State) (d t : Nat) (b : List Byte) : (s.tell d t b).passes = s.passes := rfl
@[simp] theorem State.tell_kills (s : State) (d t : Nat) (b : List Byte) : (s.tell d t b).kills = s.kills := rfl
@[simp] theorem State.tell_power (s : State) (d t : Nat) (b : List Byte) : (s.tell d t b).power = s.power := rfl
@[simp] theorem State.tell_bsState (s : State) (d t : Nat) (b : List Byte) : (s.tell d t b).bsState = s.bsState := rfl
@[simp] theorem State.tell_trained (s : State) (d t : Nat) (b : List Byte) : (s.tell d t b).trained = s.trained := rfl
@[simp] theorem State.tell_svn (s : State) (d t : Nat) (b : List Byte) : (s.tell d t b).svn = s.svn := rfl
@[simp] theorem State.tell_svnBlowing (s : State) (d t : Nat) (b : List Byte) : (s.tell d t b).svnBlowing = s.svnBlowing := rfl
@[simp] theorem State.tell_leader (s : State) (d t : Nat) (b : List Byte) : (s.tell d t b).leader = s.leader := rfl
@[simp] theorem State.tell_acting (s : State) (d t : Nat) (b : List Byte) : (s.tell d t b).acting = s.acting := rfl
@[simp] theorem State.tell_renewed (s : State) (d t : Nat) (b : List Byte) : (s.tell d t b).renewed = s.renewed := rfl
@[simp] theorem State.tell_flash (s : State) (d t : Nat) (b : List Byte) : (s.tell d t b).flash = s.flash := rfl
@[simp] theorem State.tell_fwImage (s : State) (d t : Nat) (b : List Byte) : (s.tell d t b).fwImage = s.fwImage := rfl
@[simp] theorem State.tell_measured (s : State) (d t : Nat) (b : List Byte) : (s.tell d t b).measured = s.measured := rfl
@[simp] theorem State.tell_leaves (s : State) (d t : Nat) (b : List Byte) : (s.tell d t b).leaves = s.leaves := rfl
@[simp] theorem State.tell_spdm (s : State) (d t : Nat) (b : List Byte) : (s.tell d t b).spdm = s.spdm := rfl
@[simp] theorem State.tell_sensor (s : State) (d t : Nat) (b : List Byte) : (s.tell d t b).sensor = s.sensor := rfl
@[simp] theorem State.tell_pwHost (s : State) (d t : Nat) (b : List Byte) : (s.tell d t b).pwHost = s.pwHost := rfl
@[simp] theorem State.tell_pwTchief (s : State) (d t : Nat) (b : List Byte) : (s.tell d t b).pwTchief = s.pwTchief := rfl
@[simp] theorem State.tell_profile (s : State) (d t : Nat) (b : List Byte) : (s.tell d t b).profile = s.profile := rfl
@[simp] theorem State.tell_scanout (s : State) (d t : Nat) (b : List Byte) : (s.tell d t b).scanout = s.scanout := rfl
@[simp] theorem State.tell_now (s : State) (d t : Nat) (b : List Byte) : (s.tell d t b).now = s.now := rfl
@[simp] theorem State.tell_turn (s : State) (d t : Nat) (b : List Byte) : (s.tell d t b).turn = s.turn := rfl
@[simp] theorem State.tell_agenda (s : State) (d t : Nat) (b : List Byte) : (s.tell d t b).agenda = s.agenda := rfl
@[simp] theorem State.tell_free (s : State) (d t : Nat) (b : List Byte) : (s.tell d t b).free = s.free := rfl
@[simp] theorem State.tell_nextId (s : State) (d t : Nat) (b : List Byte) : (s.tell d t b).nextId = s.nextId := rfl

/-! ## State.wrote -/

@[simp] theorem State.wrote_rest (s : State) (d : GReg) (w : Word) : (s.wrote d w).rest = s.rest := rfl
@[simp] theorem State.wrote_mem (s : State) (d : GReg) (w : Word) : (s.wrote d w).mem = s.mem := rfl
@[simp] theorem State.wrote_spad (s : State) (d : GReg) (w : Word) : (s.wrote d w).spad = s.spad := rfl
@[simp] theorem State.wrote_caddy (s : State) (d : GReg) (w : Word) : (s.wrote d w).caddy = s.caddy := rfl
@[simp] theorem State.wrote_caddyOpen (s : State) (d : GReg) (w : Word) : (s.wrote d w).caddyOpen = s.caddyOpen := rfl
@[simp] theorem State.wrote_cores (s : State) (d : GReg) (w : Word) : (s.wrote d w).cores = s.cores := rfl
@[simp] theorem State.wrote_dies (s : State) (d : GReg) (w : Word) : (s.wrote d w).dies = s.dies := rfl
@[simp] theorem State.wrote_writes (s : State) (d : GReg) (w : Word) : (s.wrote d w).writes = s.writes := rfl
@[simp] theorem State.wrote_lines (s : State) (d : GReg) (w : Word) : (s.wrote d w).lines = s.lines := rfl
@[simp] theorem State.wrote_dir (s : State) (d : GReg) (w : Word) : (s.wrote d w).dir = s.dir := rfl
@[simp] theorem State.wrote_msgs (s : State) (d : GReg) (w : Word) : (s.wrote d w).msgs = s.msgs := rfl
@[simp] theorem State.wrote_poisoned (s : State) (d : GReg) (w : Word) : (s.wrote d w).poisoned = s.poisoned := rfl
@[simp] theorem State.wrote_launches (s : State) (d : GReg) (w : Word) : (s.wrote d w).launches = s.launches := rfl
@[simp] theorem State.wrote_chains (s : State) (d : GReg) (w : Word) : (s.wrote d w).chains = s.chains := rfl
@[simp] theorem State.wrote_solvers (s : State) (d : GReg) (w : Word) : (s.wrote d w).solvers = s.solvers := rfl
@[simp] theorem State.wrote_passes (s : State) (d : GReg) (w : Word) : (s.wrote d w).passes = s.passes := rfl
@[simp] theorem State.wrote_kills (s : State) (d : GReg) (w : Word) : (s.wrote d w).kills = s.kills := rfl
@[simp] theorem State.wrote_power (s : State) (d : GReg) (w : Word) : (s.wrote d w).power = s.power := rfl
@[simp] theorem State.wrote_bsState (s : State) (d : GReg) (w : Word) : (s.wrote d w).bsState = s.bsState := rfl
@[simp] theorem State.wrote_trained (s : State) (d : GReg) (w : Word) : (s.wrote d w).trained = s.trained := rfl
@[simp] theorem State.wrote_svn (s : State) (d : GReg) (w : Word) : (s.wrote d w).svn = s.svn := rfl
@[simp] theorem State.wrote_svnBlowing (s : State) (d : GReg) (w : Word) : (s.wrote d w).svnBlowing = s.svnBlowing := rfl
@[simp] theorem State.wrote_leader (s : State) (d : GReg) (w : Word) : (s.wrote d w).leader = s.leader := rfl
@[simp] theorem State.wrote_acting (s : State) (d : GReg) (w : Word) : (s.wrote d w).acting = s.acting := rfl
@[simp] theorem State.wrote_renewed (s : State) (d : GReg) (w : Word) : (s.wrote d w).renewed = s.renewed := rfl
@[simp] theorem State.wrote_flash (s : State) (d : GReg) (w : Word) : (s.wrote d w).flash = s.flash := rfl
@[simp] theorem State.wrote_fwImage (s : State) (d : GReg) (w : Word) : (s.wrote d w).fwImage = s.fwImage := rfl
@[simp] theorem State.wrote_measured (s : State) (d : GReg) (w : Word) : (s.wrote d w).measured = s.measured := rfl
@[simp] theorem State.wrote_leaves (s : State) (d : GReg) (w : Word) : (s.wrote d w).leaves = s.leaves := rfl
@[simp] theorem State.wrote_spdm (s : State) (d : GReg) (w : Word) : (s.wrote d w).spdm = s.spdm := rfl
@[simp] theorem State.wrote_sensor (s : State) (d : GReg) (w : Word) : (s.wrote d w).sensor = s.sensor := rfl
@[simp] theorem State.wrote_pwHost (s : State) (d : GReg) (w : Word) : (s.wrote d w).pwHost = s.pwHost := rfl
@[simp] theorem State.wrote_pwTchief (s : State) (d : GReg) (w : Word) : (s.wrote d w).pwTchief = s.pwTchief := rfl
@[simp] theorem State.wrote_profile (s : State) (d : GReg) (w : Word) : (s.wrote d w).profile = s.profile := rfl
@[simp] theorem State.wrote_scanout (s : State) (d : GReg) (w : Word) : (s.wrote d w).scanout = s.scanout := rfl
@[simp] theorem State.wrote_now (s : State) (d : GReg) (w : Word) : (s.wrote d w).now = s.now := rfl
@[simp] theorem State.wrote_turn (s : State) (d : GReg) (w : Word) : (s.wrote d w).turn = s.turn := rfl
@[simp] theorem State.wrote_agenda (s : State) (d : GReg) (w : Word) : (s.wrote d w).agenda = s.agenda := rfl
@[simp] theorem State.wrote_free (s : State) (d : GReg) (w : Word) : (s.wrote d w).free = s.free := rfl
@[simp] theorem State.wrote_nextId (s : State) (d : GReg) (w : Word) : (s.wrote d w).nextId = s.nextId := rfl

/-! ## A fresh identity -/

@[simp] theorem State.fresh_crew (s : State) : s.fresh.2.crew = s.crew := rfl
@[simp] theorem State.fresh_rest (s : State) : s.fresh.2.rest = s.rest := rfl
@[simp] theorem State.fresh_mem (s : State) : s.fresh.2.mem = s.mem := rfl
@[simp] theorem State.fresh_spad (s : State) : s.fresh.2.spad = s.spad := rfl
@[simp] theorem State.fresh_caddy (s : State) : s.fresh.2.caddy = s.caddy := rfl
@[simp] theorem State.fresh_caddyOpen (s : State) : s.fresh.2.caddyOpen = s.caddyOpen := rfl
@[simp] theorem State.fresh_cores (s : State) : s.fresh.2.cores = s.cores := rfl
@[simp] theorem State.fresh_dies (s : State) : s.fresh.2.dies = s.dies := rfl
@[simp] theorem State.fresh_writes (s : State) : s.fresh.2.writes = s.writes := rfl
@[simp] theorem State.fresh_lines (s : State) : s.fresh.2.lines = s.lines := rfl
@[simp] theorem State.fresh_dir (s : State) : s.fresh.2.dir = s.dir := rfl
@[simp] theorem State.fresh_msgs (s : State) : s.fresh.2.msgs = s.msgs := rfl
@[simp] theorem State.fresh_poisoned (s : State) : s.fresh.2.poisoned = s.poisoned := rfl
@[simp] theorem State.fresh_launches (s : State) : s.fresh.2.launches = s.launches := rfl
@[simp] theorem State.fresh_chains (s : State) : s.fresh.2.chains = s.chains := rfl
@[simp] theorem State.fresh_solvers (s : State) : s.fresh.2.solvers = s.solvers := rfl
@[simp] theorem State.fresh_passes (s : State) : s.fresh.2.passes = s.passes := rfl
@[simp] theorem State.fresh_kills (s : State) : s.fresh.2.kills = s.kills := rfl
@[simp] theorem State.fresh_power (s : State) : s.fresh.2.power = s.power := rfl
@[simp] theorem State.fresh_bsState (s : State) : s.fresh.2.bsState = s.bsState := rfl
@[simp] theorem State.fresh_trained (s : State) : s.fresh.2.trained = s.trained := rfl
@[simp] theorem State.fresh_svn (s : State) : s.fresh.2.svn = s.svn := rfl
@[simp] theorem State.fresh_svnBlowing (s : State) : s.fresh.2.svnBlowing = s.svnBlowing := rfl
@[simp] theorem State.fresh_leader (s : State) : s.fresh.2.leader = s.leader := rfl
@[simp] theorem State.fresh_acting (s : State) : s.fresh.2.acting = s.acting := rfl
@[simp] theorem State.fresh_renewed (s : State) : s.fresh.2.renewed = s.renewed := rfl
@[simp] theorem State.fresh_flash (s : State) : s.fresh.2.flash = s.flash := rfl
@[simp] theorem State.fresh_fwImage (s : State) : s.fresh.2.fwImage = s.fwImage := rfl
@[simp] theorem State.fresh_measured (s : State) : s.fresh.2.measured = s.measured := rfl
@[simp] theorem State.fresh_leaves (s : State) : s.fresh.2.leaves = s.leaves := rfl
@[simp] theorem State.fresh_spdm (s : State) : s.fresh.2.spdm = s.spdm := rfl
@[simp] theorem State.fresh_sensor (s : State) : s.fresh.2.sensor = s.sensor := rfl
@[simp] theorem State.fresh_pwHost (s : State) : s.fresh.2.pwHost = s.pwHost := rfl
@[simp] theorem State.fresh_pwTchief (s : State) : s.fresh.2.pwTchief = s.pwTchief := rfl
@[simp] theorem State.fresh_profile (s : State) : s.fresh.2.profile = s.profile := rfl
@[simp] theorem State.fresh_scanout (s : State) : s.fresh.2.scanout = s.scanout := rfl
@[simp] theorem State.fresh_now (s : State) : s.fresh.2.now = s.now := rfl
@[simp] theorem State.fresh_turn (s : State) : s.fresh.2.turn = s.turn := rfl
@[simp] theorem State.fresh_agenda (s : State) : s.fresh.2.agenda = s.agenda := rfl
@[simp] theorem State.fresh_free (s : State) : s.fresh.2.free = s.free := rfl
@[simp] theorem State.fresh_id (s : State) : s.fresh.1 = s.nextId := rfl

/-! ## Updates under a condition -/

@[simp] theorem State.heat_crew (s : State) (pa n : Nat) : (s.heat pa n).crew = s.crew := by
  unfold State.heat; split <;> rfl
@[simp] theorem State.heat_rest (s : State) (pa n : Nat) : (s.heat pa n).rest = s.rest := by
  unfold State.heat; split <;> rfl
@[simp] theorem State.heat_mem (s : State) (pa n : Nat) : (s.heat pa n).mem = s.mem := by
  unfold State.heat; split <;> rfl
@[simp] theorem State.heat_spad (s : State) (pa n : Nat) : (s.heat pa n).spad = s.spad := by
  unfold State.heat; split <;> rfl
@[simp] theorem State.heat_caddy (s : State) (pa n : Nat) : (s.heat pa n).caddy = s.caddy := by
  unfold State.heat; split <;> rfl
@[simp] theorem State.heat_caddyOpen (s : State) (pa n : Nat) : (s.heat pa n).caddyOpen = s.caddyOpen := by
  unfold State.heat; split <;> rfl
@[simp] theorem State.heat_cores (s : State) (pa n : Nat) : (s.heat pa n).cores = s.cores := by
  unfold State.heat; split <;> rfl
@[simp] theorem State.heat_writes (s : State) (pa n : Nat) : (s.heat pa n).writes = s.writes := by
  unfold State.heat; split <;> rfl
@[simp] theorem State.heat_lines (s : State) (pa n : Nat) : (s.heat pa n).lines = s.lines := by
  unfold State.heat; split <;> rfl
@[simp] theorem State.heat_dir (s : State) (pa n : Nat) : (s.heat pa n).dir = s.dir := by
  unfold State.heat; split <;> rfl
@[simp] theorem State.heat_msgs (s : State) (pa n : Nat) : (s.heat pa n).msgs = s.msgs := by
  unfold State.heat; split <;> rfl
@[simp] theorem State.heat_poisoned (s : State) (pa n : Nat) : (s.heat pa n).poisoned = s.poisoned := by
  unfold State.heat; split <;> rfl
@[simp] theorem State.heat_launches (s : State) (pa n : Nat) : (s.heat pa n).launches = s.launches := by
  unfold State.heat; split <;> rfl
@[simp] theorem State.heat_chains (s : State) (pa n : Nat) : (s.heat pa n).chains = s.chains := by
  unfold State.heat; split <;> rfl
@[simp] theorem State.heat_solvers (s : State) (pa n : Nat) : (s.heat pa n).solvers = s.solvers := by
  unfold State.heat; split <;> rfl
@[simp] theorem State.heat_passes (s : State) (pa n : Nat) : (s.heat pa n).passes = s.passes := by
  unfold State.heat; split <;> rfl
@[simp] theorem State.heat_kills (s : State) (pa n : Nat) : (s.heat pa n).kills = s.kills := by
  unfold State.heat; split <;> rfl
@[simp] theorem State.heat_power (s : State) (pa n : Nat) : (s.heat pa n).power = s.power := by
  unfold State.heat; split <;> rfl
@[simp] theorem State.heat_bsState (s : State) (pa n : Nat) : (s.heat pa n).bsState = s.bsState := by
  unfold State.heat; split <;> rfl
@[simp] theorem State.heat_trained (s : State) (pa n : Nat) : (s.heat pa n).trained = s.trained := by
  unfold State.heat; split <;> rfl
@[simp] theorem State.heat_svn (s : State) (pa n : Nat) : (s.heat pa n).svn = s.svn := by
  unfold State.heat; split <;> rfl
@[simp] theorem State.heat_svnBlowing (s : State) (pa n : Nat) : (s.heat pa n).svnBlowing = s.svnBlowing := by
  unfold State.heat; split <;> rfl
@[simp] theorem State.heat_leader (s : State) (pa n : Nat) : (s.heat pa n).leader = s.leader := by
  unfold State.heat; split <;> rfl
@[simp] theorem State.heat_acting (s : State) (pa n : Nat) : (s.heat pa n).acting = s.acting := by
  unfold State.heat; split <;> rfl
@[simp] theorem State.heat_renewed (s : State) (pa n : Nat) : (s.heat pa n).renewed = s.renewed := by
  unfold State.heat; split <;> rfl
@[simp] theorem State.heat_flash (s : State) (pa n : Nat) : (s.heat pa n).flash = s.flash := by
  unfold State.heat; split <;> rfl
@[simp] theorem State.heat_fwImage (s : State) (pa n : Nat) : (s.heat pa n).fwImage = s.fwImage := by
  unfold State.heat; split <;> rfl
@[simp] theorem State.heat_measured (s : State) (pa n : Nat) : (s.heat pa n).measured = s.measured := by
  unfold State.heat; split <;> rfl
@[simp] theorem State.heat_leaves (s : State) (pa n : Nat) : (s.heat pa n).leaves = s.leaves := by
  unfold State.heat; split <;> rfl
@[simp] theorem State.heat_spdm (s : State) (pa n : Nat) : (s.heat pa n).spdm = s.spdm := by
  unfold State.heat; split <;> rfl
@[simp] theorem State.heat_sensor (s : State) (pa n : Nat) : (s.heat pa n).sensor = s.sensor := by
  unfold State.heat; split <;> rfl
@[simp] theorem State.heat_pwHost (s : State) (pa n : Nat) : (s.heat pa n).pwHost = s.pwHost := by
  unfold State.heat; split <;> rfl
@[simp] theorem State.heat_pwTchief (s : State) (pa n : Nat) : (s.heat pa n).pwTchief = s.pwTchief := by
  unfold State.heat; split <;> rfl
@[simp] theorem State.heat_profile (s : State) (pa n : Nat) : (s.heat pa n).profile = s.profile := by
  unfold State.heat; split <;> rfl
@[simp] theorem State.heat_scanout (s : State) (pa n : Nat) : (s.heat pa n).scanout = s.scanout := by
  unfold State.heat; split <;> rfl
@[simp] theorem State.heat_now (s : State) (pa n : Nat) : (s.heat pa n).now = s.now := by
  unfold State.heat; split <;> rfl
@[simp] theorem State.heat_turn (s : State) (pa n : Nat) : (s.heat pa n).turn = s.turn := by
  unfold State.heat; split <;> rfl
@[simp] theorem State.heat_agenda (s : State) (pa n : Nat) : (s.heat pa n).agenda = s.agenda := by
  unfold State.heat; split <;> rfl
@[simp] theorem State.heat_free (s : State) (pa n : Nat) : (s.heat pa n).free = s.free := by
  unfold State.heat; split <;> rfl
@[simp] theorem State.heat_nextId (s : State) (pa n : Nat) : (s.heat pa n).nextId = s.nextId := by
  unfold State.heat; split <;> rfl

@[simp] theorem State.recordWrite_crew (s : State) (pa : Nat) : (s.recordWrite pa).crew = s.crew := by
  unfold State.recordWrite; split <;> rfl
@[simp] theorem State.recordWrite_rest (s : State) (pa : Nat) : (s.recordWrite pa).rest = s.rest := by
  unfold State.recordWrite; split <;> rfl
@[simp] theorem State.recordWrite_spad (s : State) (pa : Nat) : (s.recordWrite pa).spad = s.spad := by
  unfold State.recordWrite; split <;> rfl
@[simp] theorem State.recordWrite_caddy (s : State) (pa : Nat) : (s.recordWrite pa).caddy = s.caddy := by
  unfold State.recordWrite; split <;> rfl
@[simp] theorem State.recordWrite_caddyOpen (s : State) (pa : Nat) : (s.recordWrite pa).caddyOpen = s.caddyOpen := by
  unfold State.recordWrite; split <;> rfl
@[simp] theorem State.recordWrite_cores (s : State) (pa : Nat) : (s.recordWrite pa).cores = s.cores := by
  unfold State.recordWrite; split <;> rfl
@[simp] theorem State.recordWrite_dies (s : State) (pa : Nat) : (s.recordWrite pa).dies = s.dies := by
  unfold State.recordWrite; split <;> rfl
@[simp] theorem State.recordWrite_writes (s : State) (pa : Nat) : (s.recordWrite pa).writes = s.writes := by
  unfold State.recordWrite; split <;> rfl
@[simp] theorem State.recordWrite_lines (s : State) (pa : Nat) : (s.recordWrite pa).lines = s.lines := by
  unfold State.recordWrite; split <;> rfl
@[simp] theorem State.recordWrite_dir (s : State) (pa : Nat) : (s.recordWrite pa).dir = s.dir := by
  unfold State.recordWrite; split <;> rfl
@[simp] theorem State.recordWrite_msgs (s : State) (pa : Nat) : (s.recordWrite pa).msgs = s.msgs := by
  unfold State.recordWrite; split <;> rfl
@[simp] theorem State.recordWrite_poisoned (s : State) (pa : Nat) : (s.recordWrite pa).poisoned = s.poisoned := by
  unfold State.recordWrite; split <;> rfl
@[simp] theorem State.recordWrite_launches (s : State) (pa : Nat) : (s.recordWrite pa).launches = s.launches := by
  unfold State.recordWrite; split <;> rfl
@[simp] theorem State.recordWrite_chains (s : State) (pa : Nat) : (s.recordWrite pa).chains = s.chains := by
  unfold State.recordWrite; split <;> rfl
@[simp] theorem State.recordWrite_solvers (s : State) (pa : Nat) : (s.recordWrite pa).solvers = s.solvers := by
  unfold State.recordWrite; split <;> rfl
@[simp] theorem State.recordWrite_passes (s : State) (pa : Nat) : (s.recordWrite pa).passes = s.passes := by
  unfold State.recordWrite; split <;> rfl
@[simp] theorem State.recordWrite_kills (s : State) (pa : Nat) : (s.recordWrite pa).kills = s.kills := by
  unfold State.recordWrite; split <;> rfl
@[simp] theorem State.recordWrite_power (s : State) (pa : Nat) : (s.recordWrite pa).power = s.power := by
  unfold State.recordWrite; split <;> rfl
@[simp] theorem State.recordWrite_bsState (s : State) (pa : Nat) : (s.recordWrite pa).bsState = s.bsState := by
  unfold State.recordWrite; split <;> rfl
@[simp] theorem State.recordWrite_trained (s : State) (pa : Nat) : (s.recordWrite pa).trained = s.trained := by
  unfold State.recordWrite; split <;> rfl
@[simp] theorem State.recordWrite_svn (s : State) (pa : Nat) : (s.recordWrite pa).svn = s.svn := by
  unfold State.recordWrite; split <;> rfl
@[simp] theorem State.recordWrite_svnBlowing (s : State) (pa : Nat) : (s.recordWrite pa).svnBlowing = s.svnBlowing := by
  unfold State.recordWrite; split <;> rfl
@[simp] theorem State.recordWrite_leader (s : State) (pa : Nat) : (s.recordWrite pa).leader = s.leader := by
  unfold State.recordWrite; split <;> rfl
@[simp] theorem State.recordWrite_acting (s : State) (pa : Nat) : (s.recordWrite pa).acting = s.acting := by
  unfold State.recordWrite; split <;> rfl
@[simp] theorem State.recordWrite_renewed (s : State) (pa : Nat) : (s.recordWrite pa).renewed = s.renewed := by
  unfold State.recordWrite; split <;> rfl
@[simp] theorem State.recordWrite_flash (s : State) (pa : Nat) : (s.recordWrite pa).flash = s.flash := by
  unfold State.recordWrite; split <;> rfl
@[simp] theorem State.recordWrite_fwImage (s : State) (pa : Nat) : (s.recordWrite pa).fwImage = s.fwImage := by
  unfold State.recordWrite; split <;> rfl
@[simp] theorem State.recordWrite_measured (s : State) (pa : Nat) : (s.recordWrite pa).measured = s.measured := by
  unfold State.recordWrite; split <;> rfl
@[simp] theorem State.recordWrite_leaves (s : State) (pa : Nat) : (s.recordWrite pa).leaves = s.leaves := by
  unfold State.recordWrite; split <;> rfl
@[simp] theorem State.recordWrite_spdm (s : State) (pa : Nat) : (s.recordWrite pa).spdm = s.spdm := by
  unfold State.recordWrite; split <;> rfl
@[simp] theorem State.recordWrite_sensor (s : State) (pa : Nat) : (s.recordWrite pa).sensor = s.sensor := by
  unfold State.recordWrite; split <;> rfl
@[simp] theorem State.recordWrite_pwHost (s : State) (pa : Nat) : (s.recordWrite pa).pwHost = s.pwHost := by
  unfold State.recordWrite; split <;> rfl
@[simp] theorem State.recordWrite_pwTchief (s : State) (pa : Nat) : (s.recordWrite pa).pwTchief = s.pwTchief := by
  unfold State.recordWrite; split <;> rfl
@[simp] theorem State.recordWrite_profile (s : State) (pa : Nat) : (s.recordWrite pa).profile = s.profile := by
  unfold State.recordWrite; split <;> rfl
@[simp] theorem State.recordWrite_scanout (s : State) (pa : Nat) : (s.recordWrite pa).scanout = s.scanout := by
  unfold State.recordWrite; split <;> rfl
@[simp] theorem State.recordWrite_now (s : State) (pa : Nat) : (s.recordWrite pa).now = s.now := by
  unfold State.recordWrite; split <;> rfl
@[simp] theorem State.recordWrite_turn (s : State) (pa : Nat) : (s.recordWrite pa).turn = s.turn := by
  unfold State.recordWrite; split <;> rfl
@[simp] theorem State.recordWrite_agenda (s : State) (pa : Nat) : (s.recordWrite pa).agenda = s.agenda := by
  unfold State.recordWrite; split <;> rfl
@[simp] theorem State.recordWrite_free (s : State) (pa : Nat) : (s.recordWrite pa).free = s.free := by
  unfold State.recordWrite; split <;> rfl
@[simp] theorem State.recordWrite_nextId (s : State) (pa : Nat) : (s.recordWrite pa).nextId = s.nextId := by
  unfold State.recordWrite; split <;> rfl

/-! ## Crew.setStrm -/

@[simp] theorem Crew.setStrm_uid (c : Crew) (st : Strm) (x : Stream) : (c.setStrm st x).uid = c.uid := rfl
@[simp] theorem Crew.setStrm_life (c : Crew) (st : Strm) (x : Stream) : (c.setStrm st x).life = c.life := rfl
@[simp] theorem Crew.setStrm_place (c : Crew) (st : Strm) (x : Stream) : (c.setStrm st x).place = c.place := rfl
@[simp] theorem Crew.setStrm_bindRec (c : Crew) (st : Strm) (x : Stream) : (c.setStrm st x).bindRec = c.bindRec := rfl
@[simp] theorem Crew.setStrm_launch (c : Crew) (st : Strm) (x : Stream) : (c.setStrm st x).launch = c.launch := rfl
@[simp] theorem Crew.setStrm_q (c : Crew) (st : Strm) (x : Stream) : (c.setStrm st x).q = c.q := rfl
@[simp] theorem Crew.setStrm_home (c : Crew) (st : Strm) (x : Stream) : (c.setStrm st x).home = c.home := rfl
@[simp] theorem Crew.setStrm_kern (c : Crew) (st : Strm) (x : Stream) : (c.setStrm st x).kern = c.kern := rfl
@[simp] theorem Crew.setStrm_g (c : Crew) (st : Strm) (x : Stream) : (c.setStrm st x).g = c.g := rfl
@[simp] theorem Crew.setStrm_gFull (c : Crew) (st : Strm) (x : Stream) : (c.setStrm st x).gFull = c.gFull := rfl
@[simp] theorem Crew.setStrm_cVal (c : Crew) (st : Strm) (x : Stream) : (c.setStrm st x).cVal = c.cVal := rfl
@[simp] theorem Crew.setStrm_cFull (c : Crew) (st : Strm) (x : Stream) : (c.setStrm st x).cFull = c.cFull := rfl
@[simp] theorem Crew.setStrm_vreg (c : Crew) (st : Strm) (x : Stream) : (c.setStrm st x).vreg = c.vreg := rfl
@[simp] theorem Crew.setStrm_mask (c : Crew) (st : Strm) (x : Stream) : (c.setStrm st x).mask = c.mask := rfl
@[simp] theorem Crew.setStrm_tile (c : Crew) (st : Strm) (x : Stream) : (c.setStrm st x).tile = c.tile := rfl
@[simp] theorem Crew.setStrm_tFull (c : Crew) (st : Strm) (x : Stream) : (c.setStrm st x).tFull = c.tFull := rfl
@[simp] theorem Crew.setStrm_tok (c : Crew) (st : Strm) (x : Stream) : (c.setStrm st x).tok = c.tok := rfl
@[simp] theorem Crew.setStrm_dq (c : Crew) (st : Strm) (x : Stream) : (c.setStrm st x).dq = c.dq := rfl
@[simp] theorem Crew.setStrm_fcsr (c : Crew) (st : Strm) (x : Stream) : (c.setStrm st x).fcsr = c.fcsr := rfl
@[simp] theorem Crew.setStrm_ocdef (c : Crew) (st : Strm) (x : Stream) : (c.setStrm st x).ocdef = c.ocdef := rfl
@[simp] theorem Crew.setStrm_ls (c : Crew) (st : Strm) (x : Stream) : (c.setStrm st x).ls = c.ls := rfl
@[simp] theorem Crew.setStrm_le (c : Crew) (st : Strm) (x : Stream) : (c.setStrm st x).le = c.le := rfl
@[simp] theorem Crew.setStrm_lc (c : Crew) (st : Strm) (x : Stream) : (c.setStrm st x).lc = c.lc := rfl
@[simp] theorem Crew.setStrm_ti (c : Crew) (st : Strm) (x : Stream) : (c.setStrm st x).ti = c.ti := rfl
@[simp] theorem Crew.setStrm_epc (c : Crew) (st : Strm) (x : Stream) : (c.setStrm st x).epc = c.epc := rfl
@[simp] theorem Crew.setStrm_cause (c : Crew) (st : Strm) (x : Stream) : (c.setStrm st x).cause = c.cause := rfl
@[simp] theorem Crew.setStrm_tval (c : Crew) (st : Strm) (x : Stream) : (c.setStrm st x).tval = c.tval := rfl
@[simp] theorem Crew.setStrm_act (c : Crew) (st : Strm) (x : Stream) : (c.setStrm st x).act = c.act := rfl
@[simp] theorem Crew.setStrm_held (c : Crew) (st : Strm) (x : Stream) : (c.setStrm st x).held = c.held := rfl
@[simp] theorem Crew.setStrm_ext (c : Crew) (st : Strm) (x : Stream) : (c.setStrm st x).ext = c.ext := rfl
@[simp] theorem Crew.setStrm_yielded (c : Crew) (st : Strm) (x : Stream) : (c.setStrm st x).yielded = c.yielded := rfl
@[simp] theorem Crew.setStrm_trap (c : Crew) (st : Strm) (x : Stream) : (c.setStrm st x).trap = c.trap := rfl
@[simp] theorem Crew.setStrm_sHeld (c : Crew) (st : Strm) (x : Stream) : (c.setStrm st x).sHeld = c.sHeld := rfl
@[simp] theorem Crew.setStrm_stop (c : Crew) (st : Strm) (x : Stream) : (c.setStrm st x).stop = c.stop := rfl
@[simp] theorem Crew.setStrm_sres (c : Crew) (st : Strm) (x : Stream) : (c.setStrm st x).sres = c.sres := rfl
@[simp] theorem Crew.setStrm_vwin (c : Crew) (st : Strm) (x : Stream) : (c.setStrm st x).vwin = c.vwin := rfl
@[simp] theorem Crew.setStrm_vwords (c : Crew) (st : Strm) (x : Stream) : (c.setStrm st x).vwords = c.vwords := rfl
@[simp] theorem Crew.setStrm_vclock (c : Crew) (st : Strm) (x : Stream) : (c.setStrm st x).vclock = c.vclock := rfl
@[simp] theorem Crew.setStrm_spoilV (c : Crew) (st : Strm) (x : Stream) : (c.setStrm st x).spoilV = c.spoilV := rfl
@[simp] theorem Crew.setStrm_spoilM (c : Crew) (st : Strm) (x : Stream) : (c.setStrm st x).spoilM = c.spoilM := rfl
@[simp] theorem Crew.setStrm_poisonV (c : Crew) (st : Strm) (x : Stream) : (c.setStrm st x).poisonV = c.poisonV := rfl
@[simp] theorem Crew.setStrm_poisonG (c : Crew) (st : Strm) (x : Stream) : (c.setStrm st x).poisonG = c.poisonG := rfl
@[simp] theorem Crew.setStrm_poisonAddr (c : Crew) (st : Strm) (x : Stream) : (c.setStrm st x).poisonAddr = c.poisonAddr := rfl
@[simp] theorem Crew.setStrm_shadow (c : Crew) (st : Strm) (x : Stream) : (c.setStrm st x).shadow = c.shadow := rfl
@[simp] theorem Crew.setStrm_active (c : Crew) (st : Strm) (x : Stream) : (c.setStrm st x).active = c.active := rfl
@[simp] theorem Crew.setStrm_nest (c : Crew) (st : Strm) (x : Stream) : (c.setStrm st x).nest = c.nest := rfl
@[simp] theorem Crew.setStrm_array (c : Crew) (st : Strm) (x : Stream) : (c.setStrm st x).array = c.array := rfl
@[simp] theorem Crew.setStrm_port (c : Crew) (st : Strm) (x : Stream) : (c.setStrm st x).port = c.port := rfl
@[simp] theorem Crew.setStrm_pro (c : Crew) (st : Strm) (x : Stream) : (c.setStrm st x).pro = c.pro := rfl
@[simp] theorem Crew.setStrm_ptab (c : Crew) (st : Strm) (x : Stream) : (c.setStrm st x).ptab = c.ptab := rfl
@[simp] theorem Crew.setStrm_proLoads (c : Crew) (st : Strm) (x : Stream) : (c.setStrm st x).proLoads = c.proLoads := rfl
@[simp] theorem Crew.setStrm_proReload (c : Crew) (st : Strm) (x : Stream) : (c.setStrm st x).proReload = c.proReload := rfl
@[simp] theorem Crew.setStrm_jobs (c : Crew) (st : Strm) (x : Stream) : (c.setStrm st x).jobs = c.jobs := rfl
@[simp] theorem Crew.setStrm_arrived (c : Crew) (st : Strm) (x : Stream) : (c.setStrm st x).arrived = c.arrived := rfl
@[simp] theorem Crew.setStrm_colls (c : Crew) (st : Strm) (x : Stream) : (c.setStrm st x).colls = c.colls := rfl
@[simp] theorem Crew.setStrm_bars (c : Crew) (st : Strm) (x : Stream) : (c.setStrm st x).bars = c.bars := rfl
@[simp] theorem Crew.setStrm_seen (c : Crew) (st : Strm) (x : Stream) : (c.setStrm st x).seen = c.seen := rfl
@[simp] theorem Crew.setStrm_raster (c : Crew) (st : Strm) (x : Stream) : (c.setStrm st x).raster = c.raster := rfl
@[simp] theorem Crew.setStrm_sealed (c : Crew) (st : Strm) (x : Stream) : (c.setStrm st x).sealed = c.sealed := rfl
@[simp] theorem Crew.setStrm_hasImage (c : Crew) (st : Strm) (x : Stream) : (c.setStrm st x).hasImage = c.hasImage := rfl

/-! ## Crew.wrG -/

@[simp] theorem Crew.wrG_uid (c : Crew) (r : GReg) (w : Word) : (c.wrG r w).uid = c.uid := rfl
@[simp] theorem Crew.wrG_life (c : Crew) (r : GReg) (w : Word) : (c.wrG r w).life = c.life := rfl
@[simp] theorem Crew.wrG_place (c : Crew) (r : GReg) (w : Word) : (c.wrG r w).place = c.place := rfl
@[simp] theorem Crew.wrG_bindRec (c : Crew) (r : GReg) (w : Word) : (c.wrG r w).bindRec = c.bindRec := rfl
@[simp] theorem Crew.wrG_launch (c : Crew) (r : GReg) (w : Word) : (c.wrG r w).launch = c.launch := rfl
@[simp] theorem Crew.wrG_q (c : Crew) (r : GReg) (w : Word) : (c.wrG r w).q = c.q := rfl
@[simp] theorem Crew.wrG_home (c : Crew) (r : GReg) (w : Word) : (c.wrG r w).home = c.home := rfl
@[simp] theorem Crew.wrG_kern (c : Crew) (r : GReg) (w : Word) : (c.wrG r w).kern = c.kern := rfl
@[simp] theorem Crew.wrG_s (c : Crew) (r : GReg) (w : Word) : (c.wrG r w).s = c.s := rfl
@[simp] theorem Crew.wrG_v (c : Crew) (r : GReg) (w : Word) : (c.wrG r w).v = c.v := rfl
@[simp] theorem Crew.wrG_m (c : Crew) (r : GReg) (w : Word) : (c.wrG r w).m = c.m := rfl
@[simp] theorem Crew.wrG_k (c : Crew) (r : GReg) (w : Word) : (c.wrG r w).k = c.k := rfl
@[simp] theorem Crew.wrG_cVal (c : Crew) (r : GReg) (w : Word) : (c.wrG r w).cVal = c.cVal := rfl
@[simp] theorem Crew.wrG_cFull (c : Crew) (r : GReg) (w : Word) : (c.wrG r w).cFull = c.cFull := rfl
@[simp] theorem Crew.wrG_vreg (c : Crew) (r : GReg) (w : Word) : (c.wrG r w).vreg = c.vreg := rfl
@[simp] theorem Crew.wrG_mask (c : Crew) (r : GReg) (w : Word) : (c.wrG r w).mask = c.mask := rfl
@[simp] theorem Crew.wrG_tile (c : Crew) (r : GReg) (w : Word) : (c.wrG r w).tile = c.tile := rfl
@[simp] theorem Crew.wrG_tFull (c : Crew) (r : GReg) (w : Word) : (c.wrG r w).tFull = c.tFull := rfl
@[simp] theorem Crew.wrG_tok (c : Crew) (r : GReg) (w : Word) : (c.wrG r w).tok = c.tok := rfl
@[simp] theorem Crew.wrG_dq (c : Crew) (r : GReg) (w : Word) : (c.wrG r w).dq = c.dq := rfl
@[simp] theorem Crew.wrG_fcsr (c : Crew) (r : GReg) (w : Word) : (c.wrG r w).fcsr = c.fcsr := rfl
@[simp] theorem Crew.wrG_ocdef (c : Crew) (r : GReg) (w : Word) : (c.wrG r w).ocdef = c.ocdef := rfl
@[simp] theorem Crew.wrG_ls (c : Crew) (r : GReg) (w : Word) : (c.wrG r w).ls = c.ls := rfl
@[simp] theorem Crew.wrG_le (c : Crew) (r : GReg) (w : Word) : (c.wrG r w).le = c.le := rfl
@[simp] theorem Crew.wrG_lc (c : Crew) (r : GReg) (w : Word) : (c.wrG r w).lc = c.lc := rfl
@[simp] theorem Crew.wrG_ti (c : Crew) (r : GReg) (w : Word) : (c.wrG r w).ti = c.ti := rfl
@[simp] theorem Crew.wrG_epc (c : Crew) (r : GReg) (w : Word) : (c.wrG r w).epc = c.epc := rfl
@[simp] theorem Crew.wrG_cause (c : Crew) (r : GReg) (w : Word) : (c.wrG r w).cause = c.cause := rfl
@[simp] theorem Crew.wrG_tval (c : Crew) (r : GReg) (w : Word) : (c.wrG r w).tval = c.tval := rfl
@[simp] theorem Crew.wrG_act (c : Crew) (r : GReg) (w : Word) : (c.wrG r w).act = c.act := rfl
@[simp] theorem Crew.wrG_held (c : Crew) (r : GReg) (w : Word) : (c.wrG r w).held = c.held := rfl
@[simp] theorem Crew.wrG_ext (c : Crew) (r : GReg) (w : Word) : (c.wrG r w).ext = c.ext := rfl
@[simp] theorem Crew.wrG_yielded (c : Crew) (r : GReg) (w : Word) : (c.wrG r w).yielded = c.yielded := rfl
@[simp] theorem Crew.wrG_trap (c : Crew) (r : GReg) (w : Word) : (c.wrG r w).trap = c.trap := rfl
@[simp] theorem Crew.wrG_sHeld (c : Crew) (r : GReg) (w : Word) : (c.wrG r w).sHeld = c.sHeld := rfl
@[simp] theorem Crew.wrG_stop (c : Crew) (r : GReg) (w : Word) : (c.wrG r w).stop = c.stop := rfl
@[simp] theorem Crew.wrG_sres (c : Crew) (r : GReg) (w : Word) : (c.wrG r w).sres = c.sres := rfl
@[simp] theorem Crew.wrG_vwin (c : Crew) (r : GReg) (w : Word) : (c.wrG r w).vwin = c.vwin := rfl
@[simp] theorem Crew.wrG_vwords (c : Crew) (r : GReg) (w : Word) : (c.wrG r w).vwords = c.vwords := rfl
@[simp] theorem Crew.wrG_vclock (c : Crew) (r : GReg) (w : Word) : (c.wrG r w).vclock = c.vclock := rfl
@[simp] theorem Crew.wrG_spoilV (c : Crew) (r : GReg) (w : Word) : (c.wrG r w).spoilV = c.spoilV := rfl
@[simp] theorem Crew.wrG_spoilM (c : Crew) (r : GReg) (w : Word) : (c.wrG r w).spoilM = c.spoilM := rfl
@[simp] theorem Crew.wrG_poisonV (c : Crew) (r : GReg) (w : Word) : (c.wrG r w).poisonV = c.poisonV := rfl
@[simp] theorem Crew.wrG_poisonAddr (c : Crew) (r : GReg) (w : Word) : (c.wrG r w).poisonAddr = c.poisonAddr := rfl
@[simp] theorem Crew.wrG_shadow (c : Crew) (r : GReg) (w : Word) : (c.wrG r w).shadow = c.shadow := rfl
@[simp] theorem Crew.wrG_active (c : Crew) (r : GReg) (w : Word) : (c.wrG r w).active = c.active := rfl
@[simp] theorem Crew.wrG_nest (c : Crew) (r : GReg) (w : Word) : (c.wrG r w).nest = c.nest := rfl
@[simp] theorem Crew.wrG_array (c : Crew) (r : GReg) (w : Word) : (c.wrG r w).array = c.array := rfl
@[simp] theorem Crew.wrG_port (c : Crew) (r : GReg) (w : Word) : (c.wrG r w).port = c.port := rfl
@[simp] theorem Crew.wrG_pro (c : Crew) (r : GReg) (w : Word) : (c.wrG r w).pro = c.pro := rfl
@[simp] theorem Crew.wrG_ptab (c : Crew) (r : GReg) (w : Word) : (c.wrG r w).ptab = c.ptab := rfl
@[simp] theorem Crew.wrG_proLoads (c : Crew) (r : GReg) (w : Word) : (c.wrG r w).proLoads = c.proLoads := rfl
@[simp] theorem Crew.wrG_proReload (c : Crew) (r : GReg) (w : Word) : (c.wrG r w).proReload = c.proReload := rfl
@[simp] theorem Crew.wrG_jobs (c : Crew) (r : GReg) (w : Word) : (c.wrG r w).jobs = c.jobs := rfl
@[simp] theorem Crew.wrG_arrived (c : Crew) (r : GReg) (w : Word) : (c.wrG r w).arrived = c.arrived := rfl
@[simp] theorem Crew.wrG_colls (c : Crew) (r : GReg) (w : Word) : (c.wrG r w).colls = c.colls := rfl
@[simp] theorem Crew.wrG_bars (c : Crew) (r : GReg) (w : Word) : (c.wrG r w).bars = c.bars := rfl
@[simp] theorem Crew.wrG_seen (c : Crew) (r : GReg) (w : Word) : (c.wrG r w).seen = c.seen := rfl
@[simp] theorem Crew.wrG_raster (c : Crew) (r : GReg) (w : Word) : (c.wrG r w).raster = c.raster := rfl
@[simp] theorem Crew.wrG_sealed (c : Crew) (r : GReg) (w : Word) : (c.wrG r w).sealed = c.sealed := rfl
@[simp] theorem Crew.wrG_hasImage (c : Crew) (r : GReg) (w : Word) : (c.wrG r w).hasImage = c.hasImage := rfl

/-! ## Crew.emptyG -/

@[simp] theorem Crew.emptyG_uid (c : Crew) (r : GReg) : (c.emptyG r).uid = c.uid := rfl
@[simp] theorem Crew.emptyG_life (c : Crew) (r : GReg) : (c.emptyG r).life = c.life := rfl
@[simp] theorem Crew.emptyG_place (c : Crew) (r : GReg) : (c.emptyG r).place = c.place := rfl
@[simp] theorem Crew.emptyG_bindRec (c : Crew) (r : GReg) : (c.emptyG r).bindRec = c.bindRec := rfl
@[simp] theorem Crew.emptyG_launch (c : Crew) (r : GReg) : (c.emptyG r).launch = c.launch := rfl
@[simp] theorem Crew.emptyG_q (c : Crew) (r : GReg) : (c.emptyG r).q = c.q := rfl
@[simp] theorem Crew.emptyG_home (c : Crew) (r : GReg) : (c.emptyG r).home = c.home := rfl
@[simp] theorem Crew.emptyG_kern (c : Crew) (r : GReg) : (c.emptyG r).kern = c.kern := rfl
@[simp] theorem Crew.emptyG_s (c : Crew) (r : GReg) : (c.emptyG r).s = c.s := rfl
@[simp] theorem Crew.emptyG_v (c : Crew) (r : GReg) : (c.emptyG r).v = c.v := rfl
@[simp] theorem Crew.emptyG_m (c : Crew) (r : GReg) : (c.emptyG r).m = c.m := rfl
@[simp] theorem Crew.emptyG_k (c : Crew) (r : GReg) : (c.emptyG r).k = c.k := rfl
@[simp] theorem Crew.emptyG_g (c : Crew) (r : GReg) : (c.emptyG r).g = c.g := rfl
@[simp] theorem Crew.emptyG_cVal (c : Crew) (r : GReg) : (c.emptyG r).cVal = c.cVal := rfl
@[simp] theorem Crew.emptyG_cFull (c : Crew) (r : GReg) : (c.emptyG r).cFull = c.cFull := rfl
@[simp] theorem Crew.emptyG_vreg (c : Crew) (r : GReg) : (c.emptyG r).vreg = c.vreg := rfl
@[simp] theorem Crew.emptyG_mask (c : Crew) (r : GReg) : (c.emptyG r).mask = c.mask := rfl
@[simp] theorem Crew.emptyG_tile (c : Crew) (r : GReg) : (c.emptyG r).tile = c.tile := rfl
@[simp] theorem Crew.emptyG_tFull (c : Crew) (r : GReg) : (c.emptyG r).tFull = c.tFull := rfl
@[simp] theorem Crew.emptyG_tok (c : Crew) (r : GReg) : (c.emptyG r).tok = c.tok := rfl
@[simp] theorem Crew.emptyG_dq (c : Crew) (r : GReg) : (c.emptyG r).dq = c.dq := rfl
@[simp] theorem Crew.emptyG_fcsr (c : Crew) (r : GReg) : (c.emptyG r).fcsr = c.fcsr := rfl
@[simp] theorem Crew.emptyG_ocdef (c : Crew) (r : GReg) : (c.emptyG r).ocdef = c.ocdef := rfl
@[simp] theorem Crew.emptyG_ls (c : Crew) (r : GReg) : (c.emptyG r).ls = c.ls := rfl
@[simp] theorem Crew.emptyG_le (c : Crew) (r : GReg) : (c.emptyG r).le = c.le := rfl
@[simp] theorem Crew.emptyG_lc (c : Crew) (r : GReg) : (c.emptyG r).lc = c.lc := rfl
@[simp] theorem Crew.emptyG_ti (c : Crew) (r : GReg) : (c.emptyG r).ti = c.ti := rfl
@[simp] theorem Crew.emptyG_epc (c : Crew) (r : GReg) : (c.emptyG r).epc = c.epc := rfl
@[simp] theorem Crew.emptyG_cause (c : Crew) (r : GReg) : (c.emptyG r).cause = c.cause := rfl
@[simp] theorem Crew.emptyG_tval (c : Crew) (r : GReg) : (c.emptyG r).tval = c.tval := rfl
@[simp] theorem Crew.emptyG_act (c : Crew) (r : GReg) : (c.emptyG r).act = c.act := rfl
@[simp] theorem Crew.emptyG_held (c : Crew) (r : GReg) : (c.emptyG r).held = c.held := rfl
@[simp] theorem Crew.emptyG_ext (c : Crew) (r : GReg) : (c.emptyG r).ext = c.ext := rfl
@[simp] theorem Crew.emptyG_yielded (c : Crew) (r : GReg) : (c.emptyG r).yielded = c.yielded := rfl
@[simp] theorem Crew.emptyG_trap (c : Crew) (r : GReg) : (c.emptyG r).trap = c.trap := rfl
@[simp] theorem Crew.emptyG_sHeld (c : Crew) (r : GReg) : (c.emptyG r).sHeld = c.sHeld := rfl
@[simp] theorem Crew.emptyG_stop (c : Crew) (r : GReg) : (c.emptyG r).stop = c.stop := rfl
@[simp] theorem Crew.emptyG_sres (c : Crew) (r : GReg) : (c.emptyG r).sres = c.sres := rfl
@[simp] theorem Crew.emptyG_vwin (c : Crew) (r : GReg) : (c.emptyG r).vwin = c.vwin := rfl
@[simp] theorem Crew.emptyG_vwords (c : Crew) (r : GReg) : (c.emptyG r).vwords = c.vwords := rfl
@[simp] theorem Crew.emptyG_vclock (c : Crew) (r : GReg) : (c.emptyG r).vclock = c.vclock := rfl
@[simp] theorem Crew.emptyG_spoilV (c : Crew) (r : GReg) : (c.emptyG r).spoilV = c.spoilV := rfl
@[simp] theorem Crew.emptyG_spoilM (c : Crew) (r : GReg) : (c.emptyG r).spoilM = c.spoilM := rfl
@[simp] theorem Crew.emptyG_poisonV (c : Crew) (r : GReg) : (c.emptyG r).poisonV = c.poisonV := rfl
@[simp] theorem Crew.emptyG_poisonG (c : Crew) (r : GReg) : (c.emptyG r).poisonG = c.poisonG := rfl
@[simp] theorem Crew.emptyG_poisonAddr (c : Crew) (r : GReg) : (c.emptyG r).poisonAddr = c.poisonAddr := rfl
@[simp] theorem Crew.emptyG_shadow (c : Crew) (r : GReg) : (c.emptyG r).shadow = c.shadow := rfl
@[simp] theorem Crew.emptyG_active (c : Crew) (r : GReg) : (c.emptyG r).active = c.active := rfl
@[simp] theorem Crew.emptyG_nest (c : Crew) (r : GReg) : (c.emptyG r).nest = c.nest := rfl
@[simp] theorem Crew.emptyG_array (c : Crew) (r : GReg) : (c.emptyG r).array = c.array := rfl
@[simp] theorem Crew.emptyG_port (c : Crew) (r : GReg) : (c.emptyG r).port = c.port := rfl
@[simp] theorem Crew.emptyG_pro (c : Crew) (r : GReg) : (c.emptyG r).pro = c.pro := rfl
@[simp] theorem Crew.emptyG_ptab (c : Crew) (r : GReg) : (c.emptyG r).ptab = c.ptab := rfl
@[simp] theorem Crew.emptyG_proLoads (c : Crew) (r : GReg) : (c.emptyG r).proLoads = c.proLoads := rfl
@[simp] theorem Crew.emptyG_proReload (c : Crew) (r : GReg) : (c.emptyG r).proReload = c.proReload := rfl
@[simp] theorem Crew.emptyG_jobs (c : Crew) (r : GReg) : (c.emptyG r).jobs = c.jobs := rfl
@[simp] theorem Crew.emptyG_arrived (c : Crew) (r : GReg) : (c.emptyG r).arrived = c.arrived := rfl
@[simp] theorem Crew.emptyG_colls (c : Crew) (r : GReg) : (c.emptyG r).colls = c.colls := rfl
@[simp] theorem Crew.emptyG_bars (c : Crew) (r : GReg) : (c.emptyG r).bars = c.bars := rfl
@[simp] theorem Crew.emptyG_seen (c : Crew) (r : GReg) : (c.emptyG r).seen = c.seen := rfl
@[simp] theorem Crew.emptyG_raster (c : Crew) (r : GReg) : (c.emptyG r).raster = c.raster := rfl
@[simp] theorem Crew.emptyG_sealed (c : Crew) (r : GReg) : (c.emptyG r).sealed = c.sealed := rfl
@[simp] theorem Crew.emptyG_hasImage (c : Crew) (r : GReg) : (c.emptyG r).hasImage = c.hasImage := rfl

/-! ## Crew.setFlag -/

@[simp] theorem Crew.setFlag_uid (c : Crew) (f : CFlag) (b : Bool) : (c.setFlag f b).uid = c.uid := rfl
@[simp] theorem Crew.setFlag_life (c : Crew) (f : CFlag) (b : Bool) : (c.setFlag f b).life = c.life := rfl
@[simp] theorem Crew.setFlag_place (c : Crew) (f : CFlag) (b : Bool) : (c.setFlag f b).place = c.place := rfl
@[simp] theorem Crew.setFlag_bindRec (c : Crew) (f : CFlag) (b : Bool) : (c.setFlag f b).bindRec = c.bindRec := rfl
@[simp] theorem Crew.setFlag_launch (c : Crew) (f : CFlag) (b : Bool) : (c.setFlag f b).launch = c.launch := rfl
@[simp] theorem Crew.setFlag_q (c : Crew) (f : CFlag) (b : Bool) : (c.setFlag f b).q = c.q := rfl
@[simp] theorem Crew.setFlag_home (c : Crew) (f : CFlag) (b : Bool) : (c.setFlag f b).home = c.home := rfl
@[simp] theorem Crew.setFlag_kern (c : Crew) (f : CFlag) (b : Bool) : (c.setFlag f b).kern = c.kern := rfl
@[simp] theorem Crew.setFlag_s (c : Crew) (f : CFlag) (b : Bool) : (c.setFlag f b).s = c.s := rfl
@[simp] theorem Crew.setFlag_v (c : Crew) (f : CFlag) (b : Bool) : (c.setFlag f b).v = c.v := rfl
@[simp] theorem Crew.setFlag_m (c : Crew) (f : CFlag) (b : Bool) : (c.setFlag f b).m = c.m := rfl
@[simp] theorem Crew.setFlag_k (c : Crew) (f : CFlag) (b : Bool) : (c.setFlag f b).k = c.k := rfl
@[simp] theorem Crew.setFlag_g (c : Crew) (f : CFlag) (b : Bool) : (c.setFlag f b).g = c.g := rfl
@[simp] theorem Crew.setFlag_gFull (c : Crew) (f : CFlag) (b : Bool) : (c.setFlag f b).gFull = c.gFull := rfl
@[simp] theorem Crew.setFlag_vreg (c : Crew) (f : CFlag) (b : Bool) : (c.setFlag f b).vreg = c.vreg := rfl
@[simp] theorem Crew.setFlag_mask (c : Crew) (f : CFlag) (b : Bool) : (c.setFlag f b).mask = c.mask := rfl
@[simp] theorem Crew.setFlag_tile (c : Crew) (f : CFlag) (b : Bool) : (c.setFlag f b).tile = c.tile := rfl
@[simp] theorem Crew.setFlag_tFull (c : Crew) (f : CFlag) (b : Bool) : (c.setFlag f b).tFull = c.tFull := rfl
@[simp] theorem Crew.setFlag_tok (c : Crew) (f : CFlag) (b : Bool) : (c.setFlag f b).tok = c.tok := rfl
@[simp] theorem Crew.setFlag_dq (c : Crew) (f : CFlag) (b : Bool) : (c.setFlag f b).dq = c.dq := rfl
@[simp] theorem Crew.setFlag_fcsr (c : Crew) (f : CFlag) (b : Bool) : (c.setFlag f b).fcsr = c.fcsr := rfl
@[simp] theorem Crew.setFlag_ocdef (c : Crew) (f : CFlag) (b : Bool) : (c.setFlag f b).ocdef = c.ocdef := rfl
@[simp] theorem Crew.setFlag_ls (c : Crew) (f : CFlag) (b : Bool) : (c.setFlag f b).ls = c.ls := rfl
@[simp] theorem Crew.setFlag_le (c : Crew) (f : CFlag) (b : Bool) : (c.setFlag f b).le = c.le := rfl
@[simp] theorem Crew.setFlag_lc (c : Crew) (f : CFlag) (b : Bool) : (c.setFlag f b).lc = c.lc := rfl
@[simp] theorem Crew.setFlag_ti (c : Crew) (f : CFlag) (b : Bool) : (c.setFlag f b).ti = c.ti := rfl
@[simp] theorem Crew.setFlag_epc (c : Crew) (f : CFlag) (b : Bool) : (c.setFlag f b).epc = c.epc := rfl
@[simp] theorem Crew.setFlag_cause (c : Crew) (f : CFlag) (b : Bool) : (c.setFlag f b).cause = c.cause := rfl
@[simp] theorem Crew.setFlag_tval (c : Crew) (f : CFlag) (b : Bool) : (c.setFlag f b).tval = c.tval := rfl
@[simp] theorem Crew.setFlag_act (c : Crew) (f : CFlag) (b : Bool) : (c.setFlag f b).act = c.act := rfl
@[simp] theorem Crew.setFlag_held (c : Crew) (f : CFlag) (b : Bool) : (c.setFlag f b).held = c.held := rfl
@[simp] theorem Crew.setFlag_ext (c : Crew) (f : CFlag) (b : Bool) : (c.setFlag f b).ext = c.ext := rfl
@[simp] theorem Crew.setFlag_yielded (c : Crew) (f : CFlag) (b : Bool) : (c.setFlag f b).yielded = c.yielded := rfl
@[simp] theorem Crew.setFlag_trap (c : Crew) (f : CFlag) (b : Bool) : (c.setFlag f b).trap = c.trap := rfl
@[simp] theorem Crew.setFlag_sHeld (c : Crew) (f : CFlag) (b : Bool) : (c.setFlag f b).sHeld = c.sHeld := rfl
@[simp] theorem Crew.setFlag_stop (c : Crew) (f : CFlag) (b : Bool) : (c.setFlag f b).stop = c.stop := rfl
@[simp] theorem Crew.setFlag_sres (c : Crew) (f : CFlag) (b : Bool) : (c.setFlag f b).sres = c.sres := rfl
@[simp] theorem Crew.setFlag_vwin (c : Crew) (f : CFlag) (b : Bool) : (c.setFlag f b).vwin = c.vwin := rfl
@[simp] theorem Crew.setFlag_vwords (c : Crew) (f : CFlag) (b : Bool) : (c.setFlag f b).vwords = c.vwords := rfl
@[simp] theorem Crew.setFlag_vclock (c : Crew) (f : CFlag) (b : Bool) : (c.setFlag f b).vclock = c.vclock := rfl
@[simp] theorem Crew.setFlag_spoilV (c : Crew) (f : CFlag) (b : Bool) : (c.setFlag f b).spoilV = c.spoilV := rfl
@[simp] theorem Crew.setFlag_spoilM (c : Crew) (f : CFlag) (b : Bool) : (c.setFlag f b).spoilM = c.spoilM := rfl
@[simp] theorem Crew.setFlag_poisonV (c : Crew) (f : CFlag) (b : Bool) : (c.setFlag f b).poisonV = c.poisonV := rfl
@[simp] theorem Crew.setFlag_poisonG (c : Crew) (f : CFlag) (b : Bool) : (c.setFlag f b).poisonG = c.poisonG := rfl
@[simp] theorem Crew.setFlag_poisonAddr (c : Crew) (f : CFlag) (b : Bool) : (c.setFlag f b).poisonAddr = c.poisonAddr := rfl
@[simp] theorem Crew.setFlag_shadow (c : Crew) (f : CFlag) (b : Bool) : (c.setFlag f b).shadow = c.shadow := rfl
@[simp] theorem Crew.setFlag_active (c : Crew) (f : CFlag) (b : Bool) : (c.setFlag f b).active = c.active := rfl
@[simp] theorem Crew.setFlag_nest (c : Crew) (f : CFlag) (b : Bool) : (c.setFlag f b).nest = c.nest := rfl
@[simp] theorem Crew.setFlag_array (c : Crew) (f : CFlag) (b : Bool) : (c.setFlag f b).array = c.array := rfl
@[simp] theorem Crew.setFlag_port (c : Crew) (f : CFlag) (b : Bool) : (c.setFlag f b).port = c.port := rfl
@[simp] theorem Crew.setFlag_pro (c : Crew) (f : CFlag) (b : Bool) : (c.setFlag f b).pro = c.pro := rfl
@[simp] theorem Crew.setFlag_ptab (c : Crew) (f : CFlag) (b : Bool) : (c.setFlag f b).ptab = c.ptab := rfl
@[simp] theorem Crew.setFlag_proLoads (c : Crew) (f : CFlag) (b : Bool) : (c.setFlag f b).proLoads = c.proLoads := rfl
@[simp] theorem Crew.setFlag_proReload (c : Crew) (f : CFlag) (b : Bool) : (c.setFlag f b).proReload = c.proReload := rfl
@[simp] theorem Crew.setFlag_jobs (c : Crew) (f : CFlag) (b : Bool) : (c.setFlag f b).jobs = c.jobs := rfl
@[simp] theorem Crew.setFlag_arrived (c : Crew) (f : CFlag) (b : Bool) : (c.setFlag f b).arrived = c.arrived := rfl
@[simp] theorem Crew.setFlag_colls (c : Crew) (f : CFlag) (b : Bool) : (c.setFlag f b).colls = c.colls := rfl
@[simp] theorem Crew.setFlag_bars (c : Crew) (f : CFlag) (b : Bool) : (c.setFlag f b).bars = c.bars := rfl
@[simp] theorem Crew.setFlag_seen (c : Crew) (f : CFlag) (b : Bool) : (c.setFlag f b).seen = c.seen := rfl
@[simp] theorem Crew.setFlag_raster (c : Crew) (f : CFlag) (b : Bool) : (c.setFlag f b).raster = c.raster := rfl
@[simp] theorem Crew.setFlag_sealed (c : Crew) (f : CFlag) (b : Bool) : (c.setFlag f b).sealed = c.sealed := rfl
@[simp] theorem Crew.setFlag_hasImage (c : Crew) (f : CFlag) (b : Bool) : (c.setFlag f b).hasImage = c.hasImage := rfl

/-! ## Crew.emptyFlag -/

@[simp] theorem Crew.emptyFlag_uid (c : Crew) (f : CFlag) : (c.emptyFlag f).uid = c.uid := rfl
@[simp] theorem Crew.emptyFlag_life (c : Crew) (f : CFlag) : (c.emptyFlag f).life = c.life := rfl
@[simp] theorem Crew.emptyFlag_place (c : Crew) (f : CFlag) : (c.emptyFlag f).place = c.place := rfl
@[simp] theorem Crew.emptyFlag_bindRec (c : Crew) (f : CFlag) : (c.emptyFlag f).bindRec = c.bindRec := rfl
@[simp] theorem Crew.emptyFlag_launch (c : Crew) (f : CFlag) : (c.emptyFlag f).launch = c.launch := rfl
@[simp] theorem Crew.emptyFlag_q (c : Crew) (f : CFlag) : (c.emptyFlag f).q = c.q := rfl
@[simp] theorem Crew.emptyFlag_home (c : Crew) (f : CFlag) : (c.emptyFlag f).home = c.home := rfl
@[simp] theorem Crew.emptyFlag_kern (c : Crew) (f : CFlag) : (c.emptyFlag f).kern = c.kern := rfl
@[simp] theorem Crew.emptyFlag_s (c : Crew) (f : CFlag) : (c.emptyFlag f).s = c.s := rfl
@[simp] theorem Crew.emptyFlag_v (c : Crew) (f : CFlag) : (c.emptyFlag f).v = c.v := rfl
@[simp] theorem Crew.emptyFlag_m (c : Crew) (f : CFlag) : (c.emptyFlag f).m = c.m := rfl
@[simp] theorem Crew.emptyFlag_k (c : Crew) (f : CFlag) : (c.emptyFlag f).k = c.k := rfl
@[simp] theorem Crew.emptyFlag_g (c : Crew) (f : CFlag) : (c.emptyFlag f).g = c.g := rfl
@[simp] theorem Crew.emptyFlag_gFull (c : Crew) (f : CFlag) : (c.emptyFlag f).gFull = c.gFull := rfl
@[simp] theorem Crew.emptyFlag_cVal (c : Crew) (f : CFlag) : (c.emptyFlag f).cVal = c.cVal := rfl
@[simp] theorem Crew.emptyFlag_vreg (c : Crew) (f : CFlag) : (c.emptyFlag f).vreg = c.vreg := rfl
@[simp] theorem Crew.emptyFlag_mask (c : Crew) (f : CFlag) : (c.emptyFlag f).mask = c.mask := rfl
@[simp] theorem Crew.emptyFlag_tile (c : Crew) (f : CFlag) : (c.emptyFlag f).tile = c.tile := rfl
@[simp] theorem Crew.emptyFlag_tFull (c : Crew) (f : CFlag) : (c.emptyFlag f).tFull = c.tFull := rfl
@[simp] theorem Crew.emptyFlag_tok (c : Crew) (f : CFlag) : (c.emptyFlag f).tok = c.tok := rfl
@[simp] theorem Crew.emptyFlag_dq (c : Crew) (f : CFlag) : (c.emptyFlag f).dq = c.dq := rfl
@[simp] theorem Crew.emptyFlag_fcsr (c : Crew) (f : CFlag) : (c.emptyFlag f).fcsr = c.fcsr := rfl
@[simp] theorem Crew.emptyFlag_ocdef (c : Crew) (f : CFlag) : (c.emptyFlag f).ocdef = c.ocdef := rfl
@[simp] theorem Crew.emptyFlag_ls (c : Crew) (f : CFlag) : (c.emptyFlag f).ls = c.ls := rfl
@[simp] theorem Crew.emptyFlag_le (c : Crew) (f : CFlag) : (c.emptyFlag f).le = c.le := rfl
@[simp] theorem Crew.emptyFlag_lc (c : Crew) (f : CFlag) : (c.emptyFlag f).lc = c.lc := rfl
@[simp] theorem Crew.emptyFlag_ti (c : Crew) (f : CFlag) : (c.emptyFlag f).ti = c.ti := rfl
@[simp] theorem Crew.emptyFlag_epc (c : Crew) (f : CFlag) : (c.emptyFlag f).epc = c.epc := rfl
@[simp] theorem Crew.emptyFlag_cause (c : Crew) (f : CFlag) : (c.emptyFlag f).cause = c.cause := rfl
@[simp] theorem Crew.emptyFlag_tval (c : Crew) (f : CFlag) : (c.emptyFlag f).tval = c.tval := rfl
@[simp] theorem Crew.emptyFlag_act (c : Crew) (f : CFlag) : (c.emptyFlag f).act = c.act := rfl
@[simp] theorem Crew.emptyFlag_held (c : Crew) (f : CFlag) : (c.emptyFlag f).held = c.held := rfl
@[simp] theorem Crew.emptyFlag_ext (c : Crew) (f : CFlag) : (c.emptyFlag f).ext = c.ext := rfl
@[simp] theorem Crew.emptyFlag_yielded (c : Crew) (f : CFlag) : (c.emptyFlag f).yielded = c.yielded := rfl
@[simp] theorem Crew.emptyFlag_trap (c : Crew) (f : CFlag) : (c.emptyFlag f).trap = c.trap := rfl
@[simp] theorem Crew.emptyFlag_sHeld (c : Crew) (f : CFlag) : (c.emptyFlag f).sHeld = c.sHeld := rfl
@[simp] theorem Crew.emptyFlag_stop (c : Crew) (f : CFlag) : (c.emptyFlag f).stop = c.stop := rfl
@[simp] theorem Crew.emptyFlag_sres (c : Crew) (f : CFlag) : (c.emptyFlag f).sres = c.sres := rfl
@[simp] theorem Crew.emptyFlag_vwin (c : Crew) (f : CFlag) : (c.emptyFlag f).vwin = c.vwin := rfl
@[simp] theorem Crew.emptyFlag_vwords (c : Crew) (f : CFlag) : (c.emptyFlag f).vwords = c.vwords := rfl
@[simp] theorem Crew.emptyFlag_vclock (c : Crew) (f : CFlag) : (c.emptyFlag f).vclock = c.vclock := rfl
@[simp] theorem Crew.emptyFlag_spoilV (c : Crew) (f : CFlag) : (c.emptyFlag f).spoilV = c.spoilV := rfl
@[simp] theorem Crew.emptyFlag_spoilM (c : Crew) (f : CFlag) : (c.emptyFlag f).spoilM = c.spoilM := rfl
@[simp] theorem Crew.emptyFlag_poisonV (c : Crew) (f : CFlag) : (c.emptyFlag f).poisonV = c.poisonV := rfl
@[simp] theorem Crew.emptyFlag_poisonG (c : Crew) (f : CFlag) : (c.emptyFlag f).poisonG = c.poisonG := rfl
@[simp] theorem Crew.emptyFlag_poisonAddr (c : Crew) (f : CFlag) : (c.emptyFlag f).poisonAddr = c.poisonAddr := rfl
@[simp] theorem Crew.emptyFlag_shadow (c : Crew) (f : CFlag) : (c.emptyFlag f).shadow = c.shadow := rfl
@[simp] theorem Crew.emptyFlag_active (c : Crew) (f : CFlag) : (c.emptyFlag f).active = c.active := rfl
@[simp] theorem Crew.emptyFlag_nest (c : Crew) (f : CFlag) : (c.emptyFlag f).nest = c.nest := rfl
@[simp] theorem Crew.emptyFlag_array (c : Crew) (f : CFlag) : (c.emptyFlag f).array = c.array := rfl
@[simp] theorem Crew.emptyFlag_port (c : Crew) (f : CFlag) : (c.emptyFlag f).port = c.port := rfl
@[simp] theorem Crew.emptyFlag_pro (c : Crew) (f : CFlag) : (c.emptyFlag f).pro = c.pro := rfl
@[simp] theorem Crew.emptyFlag_ptab (c : Crew) (f : CFlag) : (c.emptyFlag f).ptab = c.ptab := rfl
@[simp] theorem Crew.emptyFlag_proLoads (c : Crew) (f : CFlag) : (c.emptyFlag f).proLoads = c.proLoads := rfl
@[simp] theorem Crew.emptyFlag_proReload (c : Crew) (f : CFlag) : (c.emptyFlag f).proReload = c.proReload := rfl
@[simp] theorem Crew.emptyFlag_jobs (c : Crew) (f : CFlag) : (c.emptyFlag f).jobs = c.jobs := rfl
@[simp] theorem Crew.emptyFlag_arrived (c : Crew) (f : CFlag) : (c.emptyFlag f).arrived = c.arrived := rfl
@[simp] theorem Crew.emptyFlag_colls (c : Crew) (f : CFlag) : (c.emptyFlag f).colls = c.colls := rfl
@[simp] theorem Crew.emptyFlag_bars (c : Crew) (f : CFlag) : (c.emptyFlag f).bars = c.bars := rfl
@[simp] theorem Crew.emptyFlag_seen (c : Crew) (f : CFlag) : (c.emptyFlag f).seen = c.seen := rfl
@[simp] theorem Crew.emptyFlag_raster (c : Crew) (f : CFlag) : (c.emptyFlag f).raster = c.raster := rfl
@[simp] theorem Crew.emptyFlag_sealed (c : Crew) (f : CFlag) : (c.emptyFlag f).sealed = c.sealed := rfl
@[simp] theorem Crew.emptyFlag_hasImage (c : Crew) (f : CFlag) : (c.emptyFlag f).hasImage = c.hasImage := rfl

/-! ## Crew.orFlags -/

@[simp] theorem Crew.orFlags_uid (c : Crew) (f : Flags) : (c.orFlags f).uid = c.uid := rfl
@[simp] theorem Crew.orFlags_life (c : Crew) (f : Flags) : (c.orFlags f).life = c.life := rfl
@[simp] theorem Crew.orFlags_place (c : Crew) (f : Flags) : (c.orFlags f).place = c.place := rfl
@[simp] theorem Crew.orFlags_bindRec (c : Crew) (f : Flags) : (c.orFlags f).bindRec = c.bindRec := rfl
@[simp] theorem Crew.orFlags_launch (c : Crew) (f : Flags) : (c.orFlags f).launch = c.launch := rfl
@[simp] theorem Crew.orFlags_q (c : Crew) (f : Flags) : (c.orFlags f).q = c.q := rfl
@[simp] theorem Crew.orFlags_home (c : Crew) (f : Flags) : (c.orFlags f).home = c.home := rfl
@[simp] theorem Crew.orFlags_kern (c : Crew) (f : Flags) : (c.orFlags f).kern = c.kern := rfl
@[simp] theorem Crew.orFlags_s (c : Crew) (f : Flags) : (c.orFlags f).s = c.s := rfl
@[simp] theorem Crew.orFlags_v (c : Crew) (f : Flags) : (c.orFlags f).v = c.v := rfl
@[simp] theorem Crew.orFlags_m (c : Crew) (f : Flags) : (c.orFlags f).m = c.m := rfl
@[simp] theorem Crew.orFlags_k (c : Crew) (f : Flags) : (c.orFlags f).k = c.k := rfl
@[simp] theorem Crew.orFlags_g (c : Crew) (f : Flags) : (c.orFlags f).g = c.g := rfl
@[simp] theorem Crew.orFlags_gFull (c : Crew) (f : Flags) : (c.orFlags f).gFull = c.gFull := rfl
@[simp] theorem Crew.orFlags_cVal (c : Crew) (f : Flags) : (c.orFlags f).cVal = c.cVal := rfl
@[simp] theorem Crew.orFlags_cFull (c : Crew) (f : Flags) : (c.orFlags f).cFull = c.cFull := rfl
@[simp] theorem Crew.orFlags_vreg (c : Crew) (f : Flags) : (c.orFlags f).vreg = c.vreg := rfl
@[simp] theorem Crew.orFlags_mask (c : Crew) (f : Flags) : (c.orFlags f).mask = c.mask := rfl
@[simp] theorem Crew.orFlags_tile (c : Crew) (f : Flags) : (c.orFlags f).tile = c.tile := rfl
@[simp] theorem Crew.orFlags_tFull (c : Crew) (f : Flags) : (c.orFlags f).tFull = c.tFull := rfl
@[simp] theorem Crew.orFlags_tok (c : Crew) (f : Flags) : (c.orFlags f).tok = c.tok := rfl
@[simp] theorem Crew.orFlags_dq (c : Crew) (f : Flags) : (c.orFlags f).dq = c.dq := rfl
@[simp] theorem Crew.orFlags_ocdef (c : Crew) (f : Flags) : (c.orFlags f).ocdef = c.ocdef := rfl
@[simp] theorem Crew.orFlags_ls (c : Crew) (f : Flags) : (c.orFlags f).ls = c.ls := rfl
@[simp] theorem Crew.orFlags_le (c : Crew) (f : Flags) : (c.orFlags f).le = c.le := rfl
@[simp] theorem Crew.orFlags_lc (c : Crew) (f : Flags) : (c.orFlags f).lc = c.lc := rfl
@[simp] theorem Crew.orFlags_ti (c : Crew) (f : Flags) : (c.orFlags f).ti = c.ti := rfl
@[simp] theorem Crew.orFlags_epc (c : Crew) (f : Flags) : (c.orFlags f).epc = c.epc := rfl
@[simp] theorem Crew.orFlags_cause (c : Crew) (f : Flags) : (c.orFlags f).cause = c.cause := rfl
@[simp] theorem Crew.orFlags_tval (c : Crew) (f : Flags) : (c.orFlags f).tval = c.tval := rfl
@[simp] theorem Crew.orFlags_act (c : Crew) (f : Flags) : (c.orFlags f).act = c.act := rfl
@[simp] theorem Crew.orFlags_held (c : Crew) (f : Flags) : (c.orFlags f).held = c.held := rfl
@[simp] theorem Crew.orFlags_ext (c : Crew) (f : Flags) : (c.orFlags f).ext = c.ext := rfl
@[simp] theorem Crew.orFlags_yielded (c : Crew) (f : Flags) : (c.orFlags f).yielded = c.yielded := rfl
@[simp] theorem Crew.orFlags_trap (c : Crew) (f : Flags) : (c.orFlags f).trap = c.trap := rfl
@[simp] theorem Crew.orFlags_sHeld (c : Crew) (f : Flags) : (c.orFlags f).sHeld = c.sHeld := rfl
@[simp] theorem Crew.orFlags_stop (c : Crew) (f : Flags) : (c.orFlags f).stop = c.stop := rfl
@[simp] theorem Crew.orFlags_sres (c : Crew) (f : Flags) : (c.orFlags f).sres = c.sres := rfl
@[simp] theorem Crew.orFlags_vwin (c : Crew) (f : Flags) : (c.orFlags f).vwin = c.vwin := rfl
@[simp] theorem Crew.orFlags_vwords (c : Crew) (f : Flags) : (c.orFlags f).vwords = c.vwords := rfl
@[simp] theorem Crew.orFlags_vclock (c : Crew) (f : Flags) : (c.orFlags f).vclock = c.vclock := rfl
@[simp] theorem Crew.orFlags_spoilV (c : Crew) (f : Flags) : (c.orFlags f).spoilV = c.spoilV := rfl
@[simp] theorem Crew.orFlags_spoilM (c : Crew) (f : Flags) : (c.orFlags f).spoilM = c.spoilM := rfl
@[simp] theorem Crew.orFlags_poisonV (c : Crew) (f : Flags) : (c.orFlags f).poisonV = c.poisonV := rfl
@[simp] theorem Crew.orFlags_poisonG (c : Crew) (f : Flags) : (c.orFlags f).poisonG = c.poisonG := rfl
@[simp] theorem Crew.orFlags_poisonAddr (c : Crew) (f : Flags) : (c.orFlags f).poisonAddr = c.poisonAddr := rfl
@[simp] theorem Crew.orFlags_shadow (c : Crew) (f : Flags) : (c.orFlags f).shadow = c.shadow := rfl
@[simp] theorem Crew.orFlags_active (c : Crew) (f : Flags) : (c.orFlags f).active = c.active := rfl
@[simp] theorem Crew.orFlags_nest (c : Crew) (f : Flags) : (c.orFlags f).nest = c.nest := rfl
@[simp] theorem Crew.orFlags_array (c : Crew) (f : Flags) : (c.orFlags f).array = c.array := rfl
@[simp] theorem Crew.orFlags_port (c : Crew) (f : Flags) : (c.orFlags f).port = c.port := rfl
@[simp] theorem Crew.orFlags_pro (c : Crew) (f : Flags) : (c.orFlags f).pro = c.pro := rfl
@[simp] theorem Crew.orFlags_ptab (c : Crew) (f : Flags) : (c.orFlags f).ptab = c.ptab := rfl
@[simp] theorem Crew.orFlags_proLoads (c : Crew) (f : Flags) : (c.orFlags f).proLoads = c.proLoads := rfl
@[simp] theorem Crew.orFlags_proReload (c : Crew) (f : Flags) : (c.orFlags f).proReload = c.proReload := rfl
@[simp] theorem Crew.orFlags_jobs (c : Crew) (f : Flags) : (c.orFlags f).jobs = c.jobs := rfl
@[simp] theorem Crew.orFlags_arrived (c : Crew) (f : Flags) : (c.orFlags f).arrived = c.arrived := rfl
@[simp] theorem Crew.orFlags_colls (c : Crew) (f : Flags) : (c.orFlags f).colls = c.colls := rfl
@[simp] theorem Crew.orFlags_bars (c : Crew) (f : Flags) : (c.orFlags f).bars = c.bars := rfl
@[simp] theorem Crew.orFlags_seen (c : Crew) (f : Flags) : (c.orFlags f).seen = c.seen := rfl
@[simp] theorem Crew.orFlags_raster (c : Crew) (f : Flags) : (c.orFlags f).raster = c.raster := rfl
@[simp] theorem Crew.orFlags_sealed (c : Crew) (f : Flags) : (c.orFlags f).sealed = c.sealed := rfl
@[simp] theorem Crew.orFlags_hasImage (c : Crew) (f : Flags) : (c.orFlags f).hasImage = c.hasImage := rfl

/-! ## Crew.raiseTok -/

@[simp] theorem Crew.raiseTok_uid (c : Crew) (t : Tok) : (c.raiseTok t).uid = c.uid := rfl
@[simp] theorem Crew.raiseTok_life (c : Crew) (t : Tok) : (c.raiseTok t).life = c.life := rfl
@[simp] theorem Crew.raiseTok_place (c : Crew) (t : Tok) : (c.raiseTok t).place = c.place := rfl
@[simp] theorem Crew.raiseTok_bindRec (c : Crew) (t : Tok) : (c.raiseTok t).bindRec = c.bindRec := rfl
@[simp] theorem Crew.raiseTok_launch (c : Crew) (t : Tok) : (c.raiseTok t).launch = c.launch := rfl
@[simp] theorem Crew.raiseTok_q (c : Crew) (t : Tok) : (c.raiseTok t).q = c.q := rfl
@[simp] theorem Crew.raiseTok_home (c : Crew) (t : Tok) : (c.raiseTok t).home = c.home := rfl
@[simp] theorem Crew.raiseTok_kern (c : Crew) (t : Tok) : (c.raiseTok t).kern = c.kern := rfl
@[simp] theorem Crew.raiseTok_s (c : Crew) (t : Tok) : (c.raiseTok t).s = c.s := rfl
@[simp] theorem Crew.raiseTok_v (c : Crew) (t : Tok) : (c.raiseTok t).v = c.v := rfl
@[simp] theorem Crew.raiseTok_m (c : Crew) (t : Tok) : (c.raiseTok t).m = c.m := rfl
@[simp] theorem Crew.raiseTok_k (c : Crew) (t : Tok) : (c.raiseTok t).k = c.k := rfl
@[simp] theorem Crew.raiseTok_g (c : Crew) (t : Tok) : (c.raiseTok t).g = c.g := rfl
@[simp] theorem Crew.raiseTok_gFull (c : Crew) (t : Tok) : (c.raiseTok t).gFull = c.gFull := rfl
@[simp] theorem Crew.raiseTok_cVal (c : Crew) (t : Tok) : (c.raiseTok t).cVal = c.cVal := rfl
@[simp] theorem Crew.raiseTok_cFull (c : Crew) (t : Tok) : (c.raiseTok t).cFull = c.cFull := rfl
@[simp] theorem Crew.raiseTok_vreg (c : Crew) (t : Tok) : (c.raiseTok t).vreg = c.vreg := rfl
@[simp] theorem Crew.raiseTok_mask (c : Crew) (t : Tok) : (c.raiseTok t).mask = c.mask := rfl
@[simp] theorem Crew.raiseTok_tile (c : Crew) (t : Tok) : (c.raiseTok t).tile = c.tile := rfl
@[simp] theorem Crew.raiseTok_tFull (c : Crew) (t : Tok) : (c.raiseTok t).tFull = c.tFull := rfl
@[simp] theorem Crew.raiseTok_dq (c : Crew) (t : Tok) : (c.raiseTok t).dq = c.dq := rfl
@[simp] theorem Crew.raiseTok_fcsr (c : Crew) (t : Tok) : (c.raiseTok t).fcsr = c.fcsr := rfl
@[simp] theorem Crew.raiseTok_ocdef (c : Crew) (t : Tok) : (c.raiseTok t).ocdef = c.ocdef := rfl
@[simp] theorem Crew.raiseTok_ls (c : Crew) (t : Tok) : (c.raiseTok t).ls = c.ls := rfl
@[simp] theorem Crew.raiseTok_le (c : Crew) (t : Tok) : (c.raiseTok t).le = c.le := rfl
@[simp] theorem Crew.raiseTok_lc (c : Crew) (t : Tok) : (c.raiseTok t).lc = c.lc := rfl
@[simp] theorem Crew.raiseTok_ti (c : Crew) (t : Tok) : (c.raiseTok t).ti = c.ti := rfl
@[simp] theorem Crew.raiseTok_epc (c : Crew) (t : Tok) : (c.raiseTok t).epc = c.epc := rfl
@[simp] theorem Crew.raiseTok_cause (c : Crew) (t : Tok) : (c.raiseTok t).cause = c.cause := rfl
@[simp] theorem Crew.raiseTok_tval (c : Crew) (t : Tok) : (c.raiseTok t).tval = c.tval := rfl
@[simp] theorem Crew.raiseTok_act (c : Crew) (t : Tok) : (c.raiseTok t).act = c.act := rfl
@[simp] theorem Crew.raiseTok_held (c : Crew) (t : Tok) : (c.raiseTok t).held = c.held := rfl
@[simp] theorem Crew.raiseTok_ext (c : Crew) (t : Tok) : (c.raiseTok t).ext = c.ext := rfl
@[simp] theorem Crew.raiseTok_yielded (c : Crew) (t : Tok) : (c.raiseTok t).yielded = c.yielded := rfl
@[simp] theorem Crew.raiseTok_trap (c : Crew) (t : Tok) : (c.raiseTok t).trap = c.trap := rfl
@[simp] theorem Crew.raiseTok_sHeld (c : Crew) (t : Tok) : (c.raiseTok t).sHeld = c.sHeld := rfl
@[simp] theorem Crew.raiseTok_stop (c : Crew) (t : Tok) : (c.raiseTok t).stop = c.stop := rfl
@[simp] theorem Crew.raiseTok_sres (c : Crew) (t : Tok) : (c.raiseTok t).sres = c.sres := rfl
@[simp] theorem Crew.raiseTok_vwin (c : Crew) (t : Tok) : (c.raiseTok t).vwin = c.vwin := rfl
@[simp] theorem Crew.raiseTok_vwords (c : Crew) (t : Tok) : (c.raiseTok t).vwords = c.vwords := rfl
@[simp] theorem Crew.raiseTok_vclock (c : Crew) (t : Tok) : (c.raiseTok t).vclock = c.vclock := rfl
@[simp] theorem Crew.raiseTok_spoilV (c : Crew) (t : Tok) : (c.raiseTok t).spoilV = c.spoilV := rfl
@[simp] theorem Crew.raiseTok_spoilM (c : Crew) (t : Tok) : (c.raiseTok t).spoilM = c.spoilM := rfl
@[simp] theorem Crew.raiseTok_poisonV (c : Crew) (t : Tok) : (c.raiseTok t).poisonV = c.poisonV := rfl
@[simp] theorem Crew.raiseTok_poisonG (c : Crew) (t : Tok) : (c.raiseTok t).poisonG = c.poisonG := rfl
@[simp] theorem Crew.raiseTok_poisonAddr (c : Crew) (t : Tok) : (c.raiseTok t).poisonAddr = c.poisonAddr := rfl
@[simp] theorem Crew.raiseTok_shadow (c : Crew) (t : Tok) : (c.raiseTok t).shadow = c.shadow := rfl
@[simp] theorem Crew.raiseTok_active (c : Crew) (t : Tok) : (c.raiseTok t).active = c.active := rfl
@[simp] theorem Crew.raiseTok_nest (c : Crew) (t : Tok) : (c.raiseTok t).nest = c.nest := rfl
@[simp] theorem Crew.raiseTok_array (c : Crew) (t : Tok) : (c.raiseTok t).array = c.array := rfl
@[simp] theorem Crew.raiseTok_port (c : Crew) (t : Tok) : (c.raiseTok t).port = c.port := rfl
@[simp] theorem Crew.raiseTok_pro (c : Crew) (t : Tok) : (c.raiseTok t).pro = c.pro := rfl
@[simp] theorem Crew.raiseTok_ptab (c : Crew) (t : Tok) : (c.raiseTok t).ptab = c.ptab := rfl
@[simp] theorem Crew.raiseTok_proLoads (c : Crew) (t : Tok) : (c.raiseTok t).proLoads = c.proLoads := rfl
@[simp] theorem Crew.raiseTok_proReload (c : Crew) (t : Tok) : (c.raiseTok t).proReload = c.proReload := rfl
@[simp] theorem Crew.raiseTok_jobs (c : Crew) (t : Tok) : (c.raiseTok t).jobs = c.jobs := rfl
@[simp] theorem Crew.raiseTok_arrived (c : Crew) (t : Tok) : (c.raiseTok t).arrived = c.arrived := rfl
@[simp] theorem Crew.raiseTok_colls (c : Crew) (t : Tok) : (c.raiseTok t).colls = c.colls := rfl
@[simp] theorem Crew.raiseTok_bars (c : Crew) (t : Tok) : (c.raiseTok t).bars = c.bars := rfl
@[simp] theorem Crew.raiseTok_seen (c : Crew) (t : Tok) : (c.raiseTok t).seen = c.seen := rfl
@[simp] theorem Crew.raiseTok_raster (c : Crew) (t : Tok) : (c.raiseTok t).raster = c.raster := rfl
@[simp] theorem Crew.raiseTok_sealed (c : Crew) (t : Tok) : (c.raiseTok t).sealed = c.sealed := rfl
@[simp] theorem Crew.raiseTok_hasImage (c : Crew) (t : Tok) : (c.raiseTok t).hasImage = c.hasImage := rfl

/-! ## Crew.lowerTok -/

@[simp] theorem Crew.lowerTok_uid (c : Crew) (t : Tok) : (c.lowerTok t).uid = c.uid := rfl
@[simp] theorem Crew.lowerTok_life (c : Crew) (t : Tok) : (c.lowerTok t).life = c.life := rfl
@[simp] theorem Crew.lowerTok_place (c : Crew) (t : Tok) : (c.lowerTok t).place = c.place := rfl
@[simp] theorem Crew.lowerTok_bindRec (c : Crew) (t : Tok) : (c.lowerTok t).bindRec = c.bindRec := rfl
@[simp] theorem Crew.lowerTok_launch (c : Crew) (t : Tok) : (c.lowerTok t).launch = c.launch := rfl
@[simp] theorem Crew.lowerTok_q (c : Crew) (t : Tok) : (c.lowerTok t).q = c.q := rfl
@[simp] theorem Crew.lowerTok_home (c : Crew) (t : Tok) : (c.lowerTok t).home = c.home := rfl
@[simp] theorem Crew.lowerTok_kern (c : Crew) (t : Tok) : (c.lowerTok t).kern = c.kern := rfl
@[simp] theorem Crew.lowerTok_s (c : Crew) (t : Tok) : (c.lowerTok t).s = c.s := rfl
@[simp] theorem Crew.lowerTok_v (c : Crew) (t : Tok) : (c.lowerTok t).v = c.v := rfl
@[simp] theorem Crew.lowerTok_m (c : Crew) (t : Tok) : (c.lowerTok t).m = c.m := rfl
@[simp] theorem Crew.lowerTok_k (c : Crew) (t : Tok) : (c.lowerTok t).k = c.k := rfl
@[simp] theorem Crew.lowerTok_g (c : Crew) (t : Tok) : (c.lowerTok t).g = c.g := rfl
@[simp] theorem Crew.lowerTok_gFull (c : Crew) (t : Tok) : (c.lowerTok t).gFull = c.gFull := rfl
@[simp] theorem Crew.lowerTok_cVal (c : Crew) (t : Tok) : (c.lowerTok t).cVal = c.cVal := rfl
@[simp] theorem Crew.lowerTok_cFull (c : Crew) (t : Tok) : (c.lowerTok t).cFull = c.cFull := rfl
@[simp] theorem Crew.lowerTok_vreg (c : Crew) (t : Tok) : (c.lowerTok t).vreg = c.vreg := rfl
@[simp] theorem Crew.lowerTok_mask (c : Crew) (t : Tok) : (c.lowerTok t).mask = c.mask := rfl
@[simp] theorem Crew.lowerTok_tile (c : Crew) (t : Tok) : (c.lowerTok t).tile = c.tile := rfl
@[simp] theorem Crew.lowerTok_tFull (c : Crew) (t : Tok) : (c.lowerTok t).tFull = c.tFull := rfl
@[simp] theorem Crew.lowerTok_dq (c : Crew) (t : Tok) : (c.lowerTok t).dq = c.dq := rfl
@[simp] theorem Crew.lowerTok_fcsr (c : Crew) (t : Tok) : (c.lowerTok t).fcsr = c.fcsr := rfl
@[simp] theorem Crew.lowerTok_ocdef (c : Crew) (t : Tok) : (c.lowerTok t).ocdef = c.ocdef := rfl
@[simp] theorem Crew.lowerTok_ls (c : Crew) (t : Tok) : (c.lowerTok t).ls = c.ls := rfl
@[simp] theorem Crew.lowerTok_le (c : Crew) (t : Tok) : (c.lowerTok t).le = c.le := rfl
@[simp] theorem Crew.lowerTok_lc (c : Crew) (t : Tok) : (c.lowerTok t).lc = c.lc := rfl
@[simp] theorem Crew.lowerTok_ti (c : Crew) (t : Tok) : (c.lowerTok t).ti = c.ti := rfl
@[simp] theorem Crew.lowerTok_epc (c : Crew) (t : Tok) : (c.lowerTok t).epc = c.epc := rfl
@[simp] theorem Crew.lowerTok_cause (c : Crew) (t : Tok) : (c.lowerTok t).cause = c.cause := rfl
@[simp] theorem Crew.lowerTok_tval (c : Crew) (t : Tok) : (c.lowerTok t).tval = c.tval := rfl
@[simp] theorem Crew.lowerTok_act (c : Crew) (t : Tok) : (c.lowerTok t).act = c.act := rfl
@[simp] theorem Crew.lowerTok_held (c : Crew) (t : Tok) : (c.lowerTok t).held = c.held := rfl
@[simp] theorem Crew.lowerTok_ext (c : Crew) (t : Tok) : (c.lowerTok t).ext = c.ext := rfl
@[simp] theorem Crew.lowerTok_yielded (c : Crew) (t : Tok) : (c.lowerTok t).yielded = c.yielded := rfl
@[simp] theorem Crew.lowerTok_trap (c : Crew) (t : Tok) : (c.lowerTok t).trap = c.trap := rfl
@[simp] theorem Crew.lowerTok_sHeld (c : Crew) (t : Tok) : (c.lowerTok t).sHeld = c.sHeld := rfl
@[simp] theorem Crew.lowerTok_stop (c : Crew) (t : Tok) : (c.lowerTok t).stop = c.stop := rfl
@[simp] theorem Crew.lowerTok_sres (c : Crew) (t : Tok) : (c.lowerTok t).sres = c.sres := rfl
@[simp] theorem Crew.lowerTok_vwin (c : Crew) (t : Tok) : (c.lowerTok t).vwin = c.vwin := rfl
@[simp] theorem Crew.lowerTok_vwords (c : Crew) (t : Tok) : (c.lowerTok t).vwords = c.vwords := rfl
@[simp] theorem Crew.lowerTok_vclock (c : Crew) (t : Tok) : (c.lowerTok t).vclock = c.vclock := rfl
@[simp] theorem Crew.lowerTok_spoilV (c : Crew) (t : Tok) : (c.lowerTok t).spoilV = c.spoilV := rfl
@[simp] theorem Crew.lowerTok_spoilM (c : Crew) (t : Tok) : (c.lowerTok t).spoilM = c.spoilM := rfl
@[simp] theorem Crew.lowerTok_poisonV (c : Crew) (t : Tok) : (c.lowerTok t).poisonV = c.poisonV := rfl
@[simp] theorem Crew.lowerTok_poisonG (c : Crew) (t : Tok) : (c.lowerTok t).poisonG = c.poisonG := rfl
@[simp] theorem Crew.lowerTok_poisonAddr (c : Crew) (t : Tok) : (c.lowerTok t).poisonAddr = c.poisonAddr := rfl
@[simp] theorem Crew.lowerTok_shadow (c : Crew) (t : Tok) : (c.lowerTok t).shadow = c.shadow := rfl
@[simp] theorem Crew.lowerTok_active (c : Crew) (t : Tok) : (c.lowerTok t).active = c.active := rfl
@[simp] theorem Crew.lowerTok_nest (c : Crew) (t : Tok) : (c.lowerTok t).nest = c.nest := rfl
@[simp] theorem Crew.lowerTok_array (c : Crew) (t : Tok) : (c.lowerTok t).array = c.array := rfl
@[simp] theorem Crew.lowerTok_port (c : Crew) (t : Tok) : (c.lowerTok t).port = c.port := rfl
@[simp] theorem Crew.lowerTok_pro (c : Crew) (t : Tok) : (c.lowerTok t).pro = c.pro := rfl
@[simp] theorem Crew.lowerTok_ptab (c : Crew) (t : Tok) : (c.lowerTok t).ptab = c.ptab := rfl
@[simp] theorem Crew.lowerTok_proLoads (c : Crew) (t : Tok) : (c.lowerTok t).proLoads = c.proLoads := rfl
@[simp] theorem Crew.lowerTok_proReload (c : Crew) (t : Tok) : (c.lowerTok t).proReload = c.proReload := rfl
@[simp] theorem Crew.lowerTok_jobs (c : Crew) (t : Tok) : (c.lowerTok t).jobs = c.jobs := rfl
@[simp] theorem Crew.lowerTok_arrived (c : Crew) (t : Tok) : (c.lowerTok t).arrived = c.arrived := rfl
@[simp] theorem Crew.lowerTok_colls (c : Crew) (t : Tok) : (c.lowerTok t).colls = c.colls := rfl
@[simp] theorem Crew.lowerTok_bars (c : Crew) (t : Tok) : (c.lowerTok t).bars = c.bars := rfl
@[simp] theorem Crew.lowerTok_seen (c : Crew) (t : Tok) : (c.lowerTok t).seen = c.seen := rfl
@[simp] theorem Crew.lowerTok_raster (c : Crew) (t : Tok) : (c.lowerTok t).raster = c.raster := rfl
@[simp] theorem Crew.lowerTok_sealed (c : Crew) (t : Tok) : (c.lowerTok t).sealed = c.sealed := rfl
@[simp] theorem Crew.lowerTok_hasImage (c : Crew) (t : Tok) : (c.lowerTok t).hasImage = c.hasImage := rfl

/-! ## Crew.setLanes -/

@[simp] theorem Crew.setLanes_uid (c : Crew) (l : List (Nat × Lane)) : (c.setLanes l).uid = c.uid := rfl
@[simp] theorem Crew.setLanes_life (c : Crew) (l : List (Nat × Lane)) : (c.setLanes l).life = c.life := rfl
@[simp] theorem Crew.setLanes_place (c : Crew) (l : List (Nat × Lane)) : (c.setLanes l).place = c.place := rfl
@[simp] theorem Crew.setLanes_bindRec (c : Crew) (l : List (Nat × Lane)) : (c.setLanes l).bindRec = c.bindRec := rfl
@[simp] theorem Crew.setLanes_launch (c : Crew) (l : List (Nat × Lane)) : (c.setLanes l).launch = c.launch := rfl
@[simp] theorem Crew.setLanes_q (c : Crew) (l : List (Nat × Lane)) : (c.setLanes l).q = c.q := rfl
@[simp] theorem Crew.setLanes_home (c : Crew) (l : List (Nat × Lane)) : (c.setLanes l).home = c.home := rfl
@[simp] theorem Crew.setLanes_kern (c : Crew) (l : List (Nat × Lane)) : (c.setLanes l).kern = c.kern := rfl
@[simp] theorem Crew.setLanes_s (c : Crew) (l : List (Nat × Lane)) : (c.setLanes l).s = c.s := rfl
@[simp] theorem Crew.setLanes_v (c : Crew) (l : List (Nat × Lane)) : (c.setLanes l).v = c.v := rfl
@[simp] theorem Crew.setLanes_m (c : Crew) (l : List (Nat × Lane)) : (c.setLanes l).m = c.m := rfl
@[simp] theorem Crew.setLanes_k (c : Crew) (l : List (Nat × Lane)) : (c.setLanes l).k = c.k := rfl
@[simp] theorem Crew.setLanes_g (c : Crew) (l : List (Nat × Lane)) : (c.setLanes l).g = c.g := rfl
@[simp] theorem Crew.setLanes_gFull (c : Crew) (l : List (Nat × Lane)) : (c.setLanes l).gFull = c.gFull := rfl
@[simp] theorem Crew.setLanes_cVal (c : Crew) (l : List (Nat × Lane)) : (c.setLanes l).cVal = c.cVal := rfl
@[simp] theorem Crew.setLanes_cFull (c : Crew) (l : List (Nat × Lane)) : (c.setLanes l).cFull = c.cFull := rfl
@[simp] theorem Crew.setLanes_mask (c : Crew) (l : List (Nat × Lane)) : (c.setLanes l).mask = c.mask := rfl
@[simp] theorem Crew.setLanes_tile (c : Crew) (l : List (Nat × Lane)) : (c.setLanes l).tile = c.tile := rfl
@[simp] theorem Crew.setLanes_tFull (c : Crew) (l : List (Nat × Lane)) : (c.setLanes l).tFull = c.tFull := rfl
@[simp] theorem Crew.setLanes_tok (c : Crew) (l : List (Nat × Lane)) : (c.setLanes l).tok = c.tok := rfl
@[simp] theorem Crew.setLanes_dq (c : Crew) (l : List (Nat × Lane)) : (c.setLanes l).dq = c.dq := rfl
@[simp] theorem Crew.setLanes_fcsr (c : Crew) (l : List (Nat × Lane)) : (c.setLanes l).fcsr = c.fcsr := rfl
@[simp] theorem Crew.setLanes_ocdef (c : Crew) (l : List (Nat × Lane)) : (c.setLanes l).ocdef = c.ocdef := rfl
@[simp] theorem Crew.setLanes_ls (c : Crew) (l : List (Nat × Lane)) : (c.setLanes l).ls = c.ls := rfl
@[simp] theorem Crew.setLanes_le (c : Crew) (l : List (Nat × Lane)) : (c.setLanes l).le = c.le := rfl
@[simp] theorem Crew.setLanes_lc (c : Crew) (l : List (Nat × Lane)) : (c.setLanes l).lc = c.lc := rfl
@[simp] theorem Crew.setLanes_ti (c : Crew) (l : List (Nat × Lane)) : (c.setLanes l).ti = c.ti := rfl
@[simp] theorem Crew.setLanes_epc (c : Crew) (l : List (Nat × Lane)) : (c.setLanes l).epc = c.epc := rfl
@[simp] theorem Crew.setLanes_cause (c : Crew) (l : List (Nat × Lane)) : (c.setLanes l).cause = c.cause := rfl
@[simp] theorem Crew.setLanes_tval (c : Crew) (l : List (Nat × Lane)) : (c.setLanes l).tval = c.tval := rfl
@[simp] theorem Crew.setLanes_act (c : Crew) (l : List (Nat × Lane)) : (c.setLanes l).act = c.act := rfl
@[simp] theorem Crew.setLanes_held (c : Crew) (l : List (Nat × Lane)) : (c.setLanes l).held = c.held := rfl
@[simp] theorem Crew.setLanes_ext (c : Crew) (l : List (Nat × Lane)) : (c.setLanes l).ext = c.ext := rfl
@[simp] theorem Crew.setLanes_yielded (c : Crew) (l : List (Nat × Lane)) : (c.setLanes l).yielded = c.yielded := rfl
@[simp] theorem Crew.setLanes_trap (c : Crew) (l : List (Nat × Lane)) : (c.setLanes l).trap = c.trap := rfl
@[simp] theorem Crew.setLanes_sHeld (c : Crew) (l : List (Nat × Lane)) : (c.setLanes l).sHeld = c.sHeld := rfl
@[simp] theorem Crew.setLanes_stop (c : Crew) (l : List (Nat × Lane)) : (c.setLanes l).stop = c.stop := rfl
@[simp] theorem Crew.setLanes_sres (c : Crew) (l : List (Nat × Lane)) : (c.setLanes l).sres = c.sres := rfl
@[simp] theorem Crew.setLanes_vwin (c : Crew) (l : List (Nat × Lane)) : (c.setLanes l).vwin = c.vwin := rfl
@[simp] theorem Crew.setLanes_vwords (c : Crew) (l : List (Nat × Lane)) : (c.setLanes l).vwords = c.vwords := rfl
@[simp] theorem Crew.setLanes_vclock (c : Crew) (l : List (Nat × Lane)) : (c.setLanes l).vclock = c.vclock := rfl
@[simp] theorem Crew.setLanes_spoilV (c : Crew) (l : List (Nat × Lane)) : (c.setLanes l).spoilV = c.spoilV := rfl
@[simp] theorem Crew.setLanes_spoilM (c : Crew) (l : List (Nat × Lane)) : (c.setLanes l).spoilM = c.spoilM := rfl
@[simp] theorem Crew.setLanes_poisonV (c : Crew) (l : List (Nat × Lane)) : (c.setLanes l).poisonV = c.poisonV := rfl
@[simp] theorem Crew.setLanes_poisonG (c : Crew) (l : List (Nat × Lane)) : (c.setLanes l).poisonG = c.poisonG := rfl
@[simp] theorem Crew.setLanes_poisonAddr (c : Crew) (l : List (Nat × Lane)) : (c.setLanes l).poisonAddr = c.poisonAddr := rfl
@[simp] theorem Crew.setLanes_shadow (c : Crew) (l : List (Nat × Lane)) : (c.setLanes l).shadow = c.shadow := rfl
@[simp] theorem Crew.setLanes_active (c : Crew) (l : List (Nat × Lane)) : (c.setLanes l).active = c.active := rfl
@[simp] theorem Crew.setLanes_nest (c : Crew) (l : List (Nat × Lane)) : (c.setLanes l).nest = c.nest := rfl
@[simp] theorem Crew.setLanes_array (c : Crew) (l : List (Nat × Lane)) : (c.setLanes l).array = c.array := rfl
@[simp] theorem Crew.setLanes_port (c : Crew) (l : List (Nat × Lane)) : (c.setLanes l).port = c.port := rfl
@[simp] theorem Crew.setLanes_pro (c : Crew) (l : List (Nat × Lane)) : (c.setLanes l).pro = c.pro := rfl
@[simp] theorem Crew.setLanes_ptab (c : Crew) (l : List (Nat × Lane)) : (c.setLanes l).ptab = c.ptab := rfl
@[simp] theorem Crew.setLanes_proLoads (c : Crew) (l : List (Nat × Lane)) : (c.setLanes l).proLoads = c.proLoads := rfl
@[simp] theorem Crew.setLanes_proReload (c : Crew) (l : List (Nat × Lane)) : (c.setLanes l).proReload = c.proReload := rfl
@[simp] theorem Crew.setLanes_jobs (c : Crew) (l : List (Nat × Lane)) : (c.setLanes l).jobs = c.jobs := rfl
@[simp] theorem Crew.setLanes_arrived (c : Crew) (l : List (Nat × Lane)) : (c.setLanes l).arrived = c.arrived := rfl
@[simp] theorem Crew.setLanes_colls (c : Crew) (l : List (Nat × Lane)) : (c.setLanes l).colls = c.colls := rfl
@[simp] theorem Crew.setLanes_bars (c : Crew) (l : List (Nat × Lane)) : (c.setLanes l).bars = c.bars := rfl
@[simp] theorem Crew.setLanes_seen (c : Crew) (l : List (Nat × Lane)) : (c.setLanes l).seen = c.seen := rfl
@[simp] theorem Crew.setLanes_raster (c : Crew) (l : List (Nat × Lane)) : (c.setLanes l).raster = c.raster := rfl
@[simp] theorem Crew.setLanes_sealed (c : Crew) (l : List (Nat × Lane)) : (c.setLanes l).sealed = c.sealed := rfl
@[simp] theorem Crew.setLanes_hasImage (c : Crew) (l : List (Nat × Lane)) : (c.setLanes l).hasImage = c.hasImage := rfl

/-! ## Crew.setMask -/

@[simp] theorem Crew.setMask_uid (c : Crew) (m : Nat) (v : Lane) : (c.setMask m v).uid = c.uid := rfl
@[simp] theorem Crew.setMask_life (c : Crew) (m : Nat) (v : Lane) : (c.setMask m v).life = c.life := rfl
@[simp] theorem Crew.setMask_place (c : Crew) (m : Nat) (v : Lane) : (c.setMask m v).place = c.place := rfl
@[simp] theorem Crew.setMask_bindRec (c : Crew) (m : Nat) (v : Lane) : (c.setMask m v).bindRec = c.bindRec := rfl
@[simp] theorem Crew.setMask_launch (c : Crew) (m : Nat) (v : Lane) : (c.setMask m v).launch = c.launch := rfl
@[simp] theorem Crew.setMask_q (c : Crew) (m : Nat) (v : Lane) : (c.setMask m v).q = c.q := rfl
@[simp] theorem Crew.setMask_home (c : Crew) (m : Nat) (v : Lane) : (c.setMask m v).home = c.home := rfl
@[simp] theorem Crew.setMask_kern (c : Crew) (m : Nat) (v : Lane) : (c.setMask m v).kern = c.kern := rfl
@[simp] theorem Crew.setMask_s (c : Crew) (m : Nat) (v : Lane) : (c.setMask m v).s = c.s := rfl
@[simp] theorem Crew.setMask_v (c : Crew) (m : Nat) (v : Lane) : (c.setMask m v).v = c.v := rfl
@[simp] theorem Crew.setMask_m (c : Crew) (m : Nat) (v : Lane) : (c.setMask m v).m = c.m := rfl
@[simp] theorem Crew.setMask_k (c : Crew) (m : Nat) (v : Lane) : (c.setMask m v).k = c.k := rfl
@[simp] theorem Crew.setMask_g (c : Crew) (m : Nat) (v : Lane) : (c.setMask m v).g = c.g := rfl
@[simp] theorem Crew.setMask_gFull (c : Crew) (m : Nat) (v : Lane) : (c.setMask m v).gFull = c.gFull := rfl
@[simp] theorem Crew.setMask_cVal (c : Crew) (m : Nat) (v : Lane) : (c.setMask m v).cVal = c.cVal := rfl
@[simp] theorem Crew.setMask_cFull (c : Crew) (m : Nat) (v : Lane) : (c.setMask m v).cFull = c.cFull := rfl
@[simp] theorem Crew.setMask_vreg (c : Crew) (m : Nat) (v : Lane) : (c.setMask m v).vreg = c.vreg := rfl
@[simp] theorem Crew.setMask_tile (c : Crew) (m : Nat) (v : Lane) : (c.setMask m v).tile = c.tile := rfl
@[simp] theorem Crew.setMask_tFull (c : Crew) (m : Nat) (v : Lane) : (c.setMask m v).tFull = c.tFull := rfl
@[simp] theorem Crew.setMask_tok (c : Crew) (m : Nat) (v : Lane) : (c.setMask m v).tok = c.tok := rfl
@[simp] theorem Crew.setMask_dq (c : Crew) (m : Nat) (v : Lane) : (c.setMask m v).dq = c.dq := rfl
@[simp] theorem Crew.setMask_fcsr (c : Crew) (m : Nat) (v : Lane) : (c.setMask m v).fcsr = c.fcsr := rfl
@[simp] theorem Crew.setMask_ocdef (c : Crew) (m : Nat) (v : Lane) : (c.setMask m v).ocdef = c.ocdef := rfl
@[simp] theorem Crew.setMask_ls (c : Crew) (m : Nat) (v : Lane) : (c.setMask m v).ls = c.ls := rfl
@[simp] theorem Crew.setMask_le (c : Crew) (m : Nat) (v : Lane) : (c.setMask m v).le = c.le := rfl
@[simp] theorem Crew.setMask_lc (c : Crew) (m : Nat) (v : Lane) : (c.setMask m v).lc = c.lc := rfl
@[simp] theorem Crew.setMask_ti (c : Crew) (m : Nat) (v : Lane) : (c.setMask m v).ti = c.ti := rfl
@[simp] theorem Crew.setMask_epc (c : Crew) (m : Nat) (v : Lane) : (c.setMask m v).epc = c.epc := rfl
@[simp] theorem Crew.setMask_cause (c : Crew) (m : Nat) (v : Lane) : (c.setMask m v).cause = c.cause := rfl
@[simp] theorem Crew.setMask_tval (c : Crew) (m : Nat) (v : Lane) : (c.setMask m v).tval = c.tval := rfl
@[simp] theorem Crew.setMask_act (c : Crew) (m : Nat) (v : Lane) : (c.setMask m v).act = c.act := rfl
@[simp] theorem Crew.setMask_held (c : Crew) (m : Nat) (v : Lane) : (c.setMask m v).held = c.held := rfl
@[simp] theorem Crew.setMask_ext (c : Crew) (m : Nat) (v : Lane) : (c.setMask m v).ext = c.ext := rfl
@[simp] theorem Crew.setMask_yielded (c : Crew) (m : Nat) (v : Lane) : (c.setMask m v).yielded = c.yielded := rfl
@[simp] theorem Crew.setMask_trap (c : Crew) (m : Nat) (v : Lane) : (c.setMask m v).trap = c.trap := rfl
@[simp] theorem Crew.setMask_sHeld (c : Crew) (m : Nat) (v : Lane) : (c.setMask m v).sHeld = c.sHeld := rfl
@[simp] theorem Crew.setMask_stop (c : Crew) (m : Nat) (v : Lane) : (c.setMask m v).stop = c.stop := rfl
@[simp] theorem Crew.setMask_sres (c : Crew) (m : Nat) (v : Lane) : (c.setMask m v).sres = c.sres := rfl
@[simp] theorem Crew.setMask_vwin (c : Crew) (m : Nat) (v : Lane) : (c.setMask m v).vwin = c.vwin := rfl
@[simp] theorem Crew.setMask_vwords (c : Crew) (m : Nat) (v : Lane) : (c.setMask m v).vwords = c.vwords := rfl
@[simp] theorem Crew.setMask_vclock (c : Crew) (m : Nat) (v : Lane) : (c.setMask m v).vclock = c.vclock := rfl
@[simp] theorem Crew.setMask_spoilV (c : Crew) (m : Nat) (v : Lane) : (c.setMask m v).spoilV = c.spoilV := rfl
@[simp] theorem Crew.setMask_spoilM (c : Crew) (m : Nat) (v : Lane) : (c.setMask m v).spoilM = c.spoilM := rfl
@[simp] theorem Crew.setMask_poisonV (c : Crew) (m : Nat) (v : Lane) : (c.setMask m v).poisonV = c.poisonV := rfl
@[simp] theorem Crew.setMask_poisonG (c : Crew) (m : Nat) (v : Lane) : (c.setMask m v).poisonG = c.poisonG := rfl
@[simp] theorem Crew.setMask_poisonAddr (c : Crew) (m : Nat) (v : Lane) : (c.setMask m v).poisonAddr = c.poisonAddr := rfl
@[simp] theorem Crew.setMask_shadow (c : Crew) (m : Nat) (v : Lane) : (c.setMask m v).shadow = c.shadow := rfl
@[simp] theorem Crew.setMask_active (c : Crew) (m : Nat) (v : Lane) : (c.setMask m v).active = c.active := rfl
@[simp] theorem Crew.setMask_nest (c : Crew) (m : Nat) (v : Lane) : (c.setMask m v).nest = c.nest := rfl
@[simp] theorem Crew.setMask_array (c : Crew) (m : Nat) (v : Lane) : (c.setMask m v).array = c.array := rfl
@[simp] theorem Crew.setMask_port (c : Crew) (m : Nat) (v : Lane) : (c.setMask m v).port = c.port := rfl
@[simp] theorem Crew.setMask_pro (c : Crew) (m : Nat) (v : Lane) : (c.setMask m v).pro = c.pro := rfl
@[simp] theorem Crew.setMask_ptab (c : Crew) (m : Nat) (v : Lane) : (c.setMask m v).ptab = c.ptab := rfl
@[simp] theorem Crew.setMask_proLoads (c : Crew) (m : Nat) (v : Lane) : (c.setMask m v).proLoads = c.proLoads := rfl
@[simp] theorem Crew.setMask_proReload (c : Crew) (m : Nat) (v : Lane) : (c.setMask m v).proReload = c.proReload := rfl
@[simp] theorem Crew.setMask_jobs (c : Crew) (m : Nat) (v : Lane) : (c.setMask m v).jobs = c.jobs := rfl
@[simp] theorem Crew.setMask_arrived (c : Crew) (m : Nat) (v : Lane) : (c.setMask m v).arrived = c.arrived := rfl
@[simp] theorem Crew.setMask_colls (c : Crew) (m : Nat) (v : Lane) : (c.setMask m v).colls = c.colls := rfl
@[simp] theorem Crew.setMask_bars (c : Crew) (m : Nat) (v : Lane) : (c.setMask m v).bars = c.bars := rfl
@[simp] theorem Crew.setMask_seen (c : Crew) (m : Nat) (v : Lane) : (c.setMask m v).seen = c.seen := rfl
@[simp] theorem Crew.setMask_raster (c : Crew) (m : Nat) (v : Lane) : (c.setMask m v).raster = c.raster := rfl
@[simp] theorem Crew.setMask_sealed (c : Crew) (m : Nat) (v : Lane) : (c.setMask m v).sealed = c.sealed := rfl
@[simp] theorem Crew.setMask_hasImage (c : Crew) (m : Nat) (v : Lane) : (c.setMask m v).hasImage = c.hasImage := rfl

/-! ## Crew.advance -/

@[simp] theorem Crew.advance_uid (c : Crew) : c.advance.uid = c.uid := rfl
@[simp] theorem Crew.advance_life (c : Crew) : c.advance.life = c.life := rfl
@[simp] theorem Crew.advance_place (c : Crew) : c.advance.place = c.place := rfl
@[simp] theorem Crew.advance_bindRec (c : Crew) : c.advance.bindRec = c.bindRec := rfl
@[simp] theorem Crew.advance_launch (c : Crew) : c.advance.launch = c.launch := rfl
@[simp] theorem Crew.advance_q (c : Crew) : c.advance.q = c.q := rfl
@[simp] theorem Crew.advance_home (c : Crew) : c.advance.home = c.home := rfl
@[simp] theorem Crew.advance_kern (c : Crew) : c.advance.kern = c.kern := rfl
@[simp] theorem Crew.advance_v (c : Crew) : c.advance.v = c.v := rfl
@[simp] theorem Crew.advance_m (c : Crew) : c.advance.m = c.m := rfl
@[simp] theorem Crew.advance_k (c : Crew) : c.advance.k = c.k := rfl
@[simp] theorem Crew.advance_g (c : Crew) : c.advance.g = c.g := rfl
@[simp] theorem Crew.advance_gFull (c : Crew) : c.advance.gFull = c.gFull := rfl
@[simp] theorem Crew.advance_cVal (c : Crew) : c.advance.cVal = c.cVal := rfl
@[simp] theorem Crew.advance_cFull (c : Crew) : c.advance.cFull = c.cFull := rfl
@[simp] theorem Crew.advance_vreg (c : Crew) : c.advance.vreg = c.vreg := rfl
@[simp] theorem Crew.advance_mask (c : Crew) : c.advance.mask = c.mask := rfl
@[simp] theorem Crew.advance_tile (c : Crew) : c.advance.tile = c.tile := rfl
@[simp] theorem Crew.advance_tFull (c : Crew) : c.advance.tFull = c.tFull := rfl
@[simp] theorem Crew.advance_tok (c : Crew) : c.advance.tok = c.tok := rfl
@[simp] theorem Crew.advance_dq (c : Crew) : c.advance.dq = c.dq := rfl
@[simp] theorem Crew.advance_fcsr (c : Crew) : c.advance.fcsr = c.fcsr := rfl
@[simp] theorem Crew.advance_ocdef (c : Crew) : c.advance.ocdef = c.ocdef := rfl
@[simp] theorem Crew.advance_ls (c : Crew) : c.advance.ls = c.ls := rfl
@[simp] theorem Crew.advance_le (c : Crew) : c.advance.le = c.le := rfl
@[simp] theorem Crew.advance_ti (c : Crew) : c.advance.ti = c.ti := rfl
@[simp] theorem Crew.advance_epc (c : Crew) : c.advance.epc = c.epc := rfl
@[simp] theorem Crew.advance_cause (c : Crew) : c.advance.cause = c.cause := rfl
@[simp] theorem Crew.advance_tval (c : Crew) : c.advance.tval = c.tval := rfl
@[simp] theorem Crew.advance_act (c : Crew) : c.advance.act = c.act := rfl
@[simp] theorem Crew.advance_held (c : Crew) : c.advance.held = c.held := rfl
@[simp] theorem Crew.advance_ext (c : Crew) : c.advance.ext = c.ext := rfl
@[simp] theorem Crew.advance_yielded (c : Crew) : c.advance.yielded = c.yielded := rfl
@[simp] theorem Crew.advance_trap (c : Crew) : c.advance.trap = c.trap := rfl
@[simp] theorem Crew.advance_sHeld (c : Crew) : c.advance.sHeld = c.sHeld := rfl
@[simp] theorem Crew.advance_stop (c : Crew) : c.advance.stop = c.stop := rfl
@[simp] theorem Crew.advance_sres (c : Crew) : c.advance.sres = c.sres := rfl
@[simp] theorem Crew.advance_vwin (c : Crew) : c.advance.vwin = c.vwin := rfl
@[simp] theorem Crew.advance_vwords (c : Crew) : c.advance.vwords = c.vwords := rfl
@[simp] theorem Crew.advance_vclock (c : Crew) : c.advance.vclock = c.vclock := rfl
@[simp] theorem Crew.advance_spoilV (c : Crew) : c.advance.spoilV = c.spoilV := rfl
@[simp] theorem Crew.advance_spoilM (c : Crew) : c.advance.spoilM = c.spoilM := rfl
@[simp] theorem Crew.advance_poisonV (c : Crew) : c.advance.poisonV = c.poisonV := rfl
@[simp] theorem Crew.advance_poisonG (c : Crew) : c.advance.poisonG = c.poisonG := rfl
@[simp] theorem Crew.advance_poisonAddr (c : Crew) : c.advance.poisonAddr = c.poisonAddr := rfl
@[simp] theorem Crew.advance_shadow (c : Crew) : c.advance.shadow = c.shadow := rfl
@[simp] theorem Crew.advance_active (c : Crew) : c.advance.active = c.active := rfl
@[simp] theorem Crew.advance_nest (c : Crew) : c.advance.nest = c.nest := rfl
@[simp] theorem Crew.advance_array (c : Crew) : c.advance.array = c.array := rfl
@[simp] theorem Crew.advance_port (c : Crew) : c.advance.port = c.port := rfl
@[simp] theorem Crew.advance_pro (c : Crew) : c.advance.pro = c.pro := rfl
@[simp] theorem Crew.advance_ptab (c : Crew) : c.advance.ptab = c.ptab := rfl
@[simp] theorem Crew.advance_proLoads (c : Crew) : c.advance.proLoads = c.proLoads := rfl
@[simp] theorem Crew.advance_proReload (c : Crew) : c.advance.proReload = c.proReload := rfl
@[simp] theorem Crew.advance_jobs (c : Crew) : c.advance.jobs = c.jobs := rfl
@[simp] theorem Crew.advance_arrived (c : Crew) : c.advance.arrived = c.arrived := rfl
@[simp] theorem Crew.advance_colls (c : Crew) : c.advance.colls = c.colls := rfl
@[simp] theorem Crew.advance_bars (c : Crew) : c.advance.bars = c.bars := rfl
@[simp] theorem Crew.advance_seen (c : Crew) : c.advance.seen = c.seen := rfl
@[simp] theorem Crew.advance_raster (c : Crew) : c.advance.raster = c.raster := rfl
@[simp] theorem Crew.advance_sealed (c : Crew) : c.advance.sealed = c.sealed := rfl
@[simp] theorem Crew.advance_hasImage (c : Crew) : c.advance.hasImage = c.hasImage := rfl

/-! ## Crew.transfer -/

@[simp] theorem Crew.transfer_uid (c : Crew) (p : Pc) : (c.transfer p).uid = c.uid := rfl
@[simp] theorem Crew.transfer_life (c : Crew) (p : Pc) : (c.transfer p).life = c.life := rfl
@[simp] theorem Crew.transfer_place (c : Crew) (p : Pc) : (c.transfer p).place = c.place := rfl
@[simp] theorem Crew.transfer_bindRec (c : Crew) (p : Pc) : (c.transfer p).bindRec = c.bindRec := rfl
@[simp] theorem Crew.transfer_launch (c : Crew) (p : Pc) : (c.transfer p).launch = c.launch := rfl
@[simp] theorem Crew.transfer_q (c : Crew) (p : Pc) : (c.transfer p).q = c.q := rfl
@[simp] theorem Crew.transfer_home (c : Crew) (p : Pc) : (c.transfer p).home = c.home := rfl
@[simp] theorem Crew.transfer_kern (c : Crew) (p : Pc) : (c.transfer p).kern = c.kern := rfl
@[simp] theorem Crew.transfer_v (c : Crew) (p : Pc) : (c.transfer p).v = c.v := rfl
@[simp] theorem Crew.transfer_m (c : Crew) (p : Pc) : (c.transfer p).m = c.m := rfl
@[simp] theorem Crew.transfer_k (c : Crew) (p : Pc) : (c.transfer p).k = c.k := rfl
@[simp] theorem Crew.transfer_g (c : Crew) (p : Pc) : (c.transfer p).g = c.g := rfl
@[simp] theorem Crew.transfer_gFull (c : Crew) (p : Pc) : (c.transfer p).gFull = c.gFull := rfl
@[simp] theorem Crew.transfer_cVal (c : Crew) (p : Pc) : (c.transfer p).cVal = c.cVal := rfl
@[simp] theorem Crew.transfer_cFull (c : Crew) (p : Pc) : (c.transfer p).cFull = c.cFull := rfl
@[simp] theorem Crew.transfer_vreg (c : Crew) (p : Pc) : (c.transfer p).vreg = c.vreg := rfl
@[simp] theorem Crew.transfer_mask (c : Crew) (p : Pc) : (c.transfer p).mask = c.mask := rfl
@[simp] theorem Crew.transfer_tile (c : Crew) (p : Pc) : (c.transfer p).tile = c.tile := rfl
@[simp] theorem Crew.transfer_tFull (c : Crew) (p : Pc) : (c.transfer p).tFull = c.tFull := rfl
@[simp] theorem Crew.transfer_tok (c : Crew) (p : Pc) : (c.transfer p).tok = c.tok := rfl
@[simp] theorem Crew.transfer_dq (c : Crew) (p : Pc) : (c.transfer p).dq = c.dq := rfl
@[simp] theorem Crew.transfer_fcsr (c : Crew) (p : Pc) : (c.transfer p).fcsr = c.fcsr := rfl
@[simp] theorem Crew.transfer_ocdef (c : Crew) (p : Pc) : (c.transfer p).ocdef = c.ocdef := rfl
@[simp] theorem Crew.transfer_ls (c : Crew) (p : Pc) : (c.transfer p).ls = c.ls := rfl
@[simp] theorem Crew.transfer_le (c : Crew) (p : Pc) : (c.transfer p).le = c.le := rfl
@[simp] theorem Crew.transfer_ti (c : Crew) (p : Pc) : (c.transfer p).ti = c.ti := rfl
@[simp] theorem Crew.transfer_epc (c : Crew) (p : Pc) : (c.transfer p).epc = c.epc := rfl
@[simp] theorem Crew.transfer_cause (c : Crew) (p : Pc) : (c.transfer p).cause = c.cause := rfl
@[simp] theorem Crew.transfer_tval (c : Crew) (p : Pc) : (c.transfer p).tval = c.tval := rfl
@[simp] theorem Crew.transfer_act (c : Crew) (p : Pc) : (c.transfer p).act = c.act := rfl
@[simp] theorem Crew.transfer_held (c : Crew) (p : Pc) : (c.transfer p).held = c.held := rfl
@[simp] theorem Crew.transfer_ext (c : Crew) (p : Pc) : (c.transfer p).ext = c.ext := rfl
@[simp] theorem Crew.transfer_yielded (c : Crew) (p : Pc) : (c.transfer p).yielded = c.yielded := rfl
@[simp] theorem Crew.transfer_trap (c : Crew) (p : Pc) : (c.transfer p).trap = c.trap := rfl
@[simp] theorem Crew.transfer_sHeld (c : Crew) (p : Pc) : (c.transfer p).sHeld = c.sHeld := rfl
@[simp] theorem Crew.transfer_stop (c : Crew) (p : Pc) : (c.transfer p).stop = c.stop := rfl
@[simp] theorem Crew.transfer_sres (c : Crew) (p : Pc) : (c.transfer p).sres = c.sres := rfl
@[simp] theorem Crew.transfer_vwin (c : Crew) (p : Pc) : (c.transfer p).vwin = c.vwin := rfl
@[simp] theorem Crew.transfer_vwords (c : Crew) (p : Pc) : (c.transfer p).vwords = c.vwords := rfl
@[simp] theorem Crew.transfer_vclock (c : Crew) (p : Pc) : (c.transfer p).vclock = c.vclock := rfl
@[simp] theorem Crew.transfer_spoilV (c : Crew) (p : Pc) : (c.transfer p).spoilV = c.spoilV := rfl
@[simp] theorem Crew.transfer_spoilM (c : Crew) (p : Pc) : (c.transfer p).spoilM = c.spoilM := rfl
@[simp] theorem Crew.transfer_poisonV (c : Crew) (p : Pc) : (c.transfer p).poisonV = c.poisonV := rfl
@[simp] theorem Crew.transfer_poisonG (c : Crew) (p : Pc) : (c.transfer p).poisonG = c.poisonG := rfl
@[simp] theorem Crew.transfer_poisonAddr (c : Crew) (p : Pc) : (c.transfer p).poisonAddr = c.poisonAddr := rfl
@[simp] theorem Crew.transfer_shadow (c : Crew) (p : Pc) : (c.transfer p).shadow = c.shadow := rfl
@[simp] theorem Crew.transfer_active (c : Crew) (p : Pc) : (c.transfer p).active = c.active := rfl
@[simp] theorem Crew.transfer_nest (c : Crew) (p : Pc) : (c.transfer p).nest = c.nest := rfl
@[simp] theorem Crew.transfer_array (c : Crew) (p : Pc) : (c.transfer p).array = c.array := rfl
@[simp] theorem Crew.transfer_port (c : Crew) (p : Pc) : (c.transfer p).port = c.port := rfl
@[simp] theorem Crew.transfer_pro (c : Crew) (p : Pc) : (c.transfer p).pro = c.pro := rfl
@[simp] theorem Crew.transfer_ptab (c : Crew) (p : Pc) : (c.transfer p).ptab = c.ptab := rfl
@[simp] theorem Crew.transfer_proLoads (c : Crew) (p : Pc) : (c.transfer p).proLoads = c.proLoads := rfl
@[simp] theorem Crew.transfer_proReload (c : Crew) (p : Pc) : (c.transfer p).proReload = c.proReload := rfl
@[simp] theorem Crew.transfer_jobs (c : Crew) (p : Pc) : (c.transfer p).jobs = c.jobs := rfl
@[simp] theorem Crew.transfer_arrived (c : Crew) (p : Pc) : (c.transfer p).arrived = c.arrived := rfl
@[simp] theorem Crew.transfer_colls (c : Crew) (p : Pc) : (c.transfer p).colls = c.colls := rfl
@[simp] theorem Crew.transfer_bars (c : Crew) (p : Pc) : (c.transfer p).bars = c.bars := rfl
@[simp] theorem Crew.transfer_seen (c : Crew) (p : Pc) : (c.transfer p).seen = c.seen := rfl
@[simp] theorem Crew.transfer_raster (c : Crew) (p : Pc) : (c.transfer p).raster = c.raster := rfl
@[simp] theorem Crew.transfer_sealed (c : Crew) (p : Pc) : (c.transfer p).sealed = c.sealed := rfl
@[simp] theorem Crew.transfer_hasImage (c : Crew) (p : Pc) : (c.transfer p).hasImage = c.hasImage := rfl

/-! ## Reads behind updates -/

/-- A map set under one default and read under another: away from the key nothing has changed. -/
theorem SMap.get_set_other {α : Type} [DecidableEq α] (d d' : α) (m : SMap α) (x : Nat) (v : α) (y : Nat) (h : x ≠ y) :
    SMap.get d' (SMap.set d m x v) y = SMap.get d' m y := by
  have hc : y ∉ (SMap.cells d x [v]).map Prod.fst := fun hm => by
    have := SMap.cells_keys d x y [v] hm
    simp only [List.length_singleton] at this
    omega
  simp only [SMap.set, SMap.write, SMap.below, SMap.from, SMap.get_append, List.length_singleton]
  by_cases h1 : y < x
  · have hm : y ∈ (m.filter (fun c => decide (c.1 < x))).map Prod.fst ∨ y ∉ (m.filter (fun c => decide (c.1 < x))).map Prod.fst := em _
    rcases hm with hm | hm
    · rw [if_pos hm, SMap.get_filter _ _ _ _ (fun _ => by simpa using h1)]
    · have hn : y ∉ m.map Prod.fst := by
        intro hy
        apply hm
        obtain ⟨c, hin, rfl⟩ := List.mem_map.mp hy
        exact List.mem_map.mpr ⟨c, List.mem_filter.mpr ⟨hin, by simpa using h1⟩, rfl⟩
      rw [if_neg hm, if_neg hc, SMap.get_of_not_mem d' m y hn, SMap.get_of_not_mem]
      exact SMap.not_mem_filter _ _ _ (fun _ => by simp; omega)
  · rw [if_neg (SMap.not_mem_filter _ _ _ (fun _ => by simpa using h1)), if_neg hc, SMap.get_filter _ _ _ _ (fun _ => by simp; omega)]

@[simp] theorem State.die_setDie (s : State) (a b : Nat) (x : Die) : (s.setDie a x).die b = if a = b then x else s.die b := by
  simp only [State.die, State.setDie, SMap.get_set]

@[simp] theorem State.core_setCore (s : State) (a b : Nat) (x : Core) : (s.setCore a x).core b = if a = b then x else s.core b := by
  simp only [State.core, State.setCore]
  split
  · rename_i h
    subst h
    simp
  · exact SMap.get_set_other _ _ _ _ _ _ ‹_›

@[simp] theorem State.core_setDie (s : State) (a b : Nat) (x : Die) : (s.setDie a x).core b = s.core b := rfl
@[simp] theorem State.die_setCore (s : State) (a b : Nat) (x : Core) : (s.setCore a x).die b = s.die b := rfl

@[simp] theorem State.cmdq_setCmdq (s : State) (d q n : Nat) (x : CmdQueue) :
    (s.setCmdq d q x).cmdq d n = if q = n then x else s.cmdq d n := by
  simp only [State.cmdq, State.setCmdq, State.die_setDie, if_pos, SMap.get_set]

@[simp] theorem State.taskq_setTaskq (s : State) (d q n : Nat) (x : TaskQueue) :
    (s.setTaskq d q x).taskq d n = if q = n then x else s.taskq d n := by
  simp only [State.taskq, State.setTaskq, State.die_setDie, if_pos, SMap.get_set]

@[simp] theorem State.sequencer_setSequencer (s : State) (a b : Nat) (x : Sequencer) :
    (s.setSequencer a x).sequencer b = if a = b then x else s.sequencer b := by
  simp only [State.sequencer, State.setSequencer, SMap.get_set]

@[simp] theorem Crew.strm_setStrm (c : Crew) (a b : Strm) (x : Stream) : (c.setStrm a x).strm b = if a = b then x else c.strm b := by
  cases a <;> cases b <;> rfl

@[simp] theorem Crew.rdG_wrG (c : Crew) (a b : GReg) (w : Word) :
    (c.wrG a w).rdG b = if b = 0 then 0 else if a = b then w else c.rdG b := by
  simp only [Crew.rdG, Crew.wrG]
  by_cases hb : b = 0
  · simp [hb]
  · simp only [hb, if_false]
    by_cases ha : a = 0
    · subst ha
      simp only [if_true]
      rw [if_neg (fun h => hb h.symm)]
    · simp only [ha, if_false, SMap.get_set]
      by_cases h : a = b
      · simp [h]
      · rw [if_neg (fun e => h (BitVec.eq_of_toNat_eq e)), if_neg h]

@[simp] theorem Crew.rdG_zero (c : Crew) : c.rdG 0 = 0 := rfl

@[simp] theorem Crew.tokCount_raiseTok (c : Crew) (a b : Tok) :
    (c.raiseTok a).tokCount b = if a = b then c.tokCount a + 1 else c.tokCount b := by
  simp only [Crew.tokCount, Crew.raiseTok, SMap.get_set]
  by_cases h : a = b
  · simp [h]
  · rw [if_neg (fun e => h (BitVec.eq_of_toNat_eq e)), if_neg h]

@[simp] theorem Crew.tokCount_lowerTok (c : Crew) (a b : Tok) :
    (c.lowerTok a).tokCount b = if a = b then c.tokCount a - 1 else c.tokCount b := by
  simp only [Crew.tokCount, Crew.lowerTok, SMap.get_set]
  by_cases h : a = b
  · simp [h]
  · rw [if_neg (fun e => h (BitVec.eq_of_toNat_eq e)), if_neg h]

@[simp] theorem Crew.flagVal_setFlag (c : Crew) (a b : CFlag) (x : Bool) : (c.setFlag a x).flagVal b = if a = b then x else c.flagVal b := by
  simp only [Crew.flagVal, Crew.setFlag, SMap.get_set]
  by_cases h : a = b
  · simp [h]
  · rw [if_neg (fun e => h (BitVec.eq_of_toNat_eq e)), if_neg h]

/-! ## Canonical memories at reset and behind the shared writes -/

theorem State.reset_canonical : State.reset.canonical := ⟨rfl, rfl, rfl⟩

theorem State.recordWrite_canonical (s : State) (pa : Nat) (h : s.canonical) : (s.recordWrite pa).canonical := by
  unfold State.recordWrite
  split
  · exact ⟨Memory.wf_write _ _ _ h.1, h.2.1, h.2.2⟩
  · exact h

theorem State.heat_canonical (s : State) (pa n : Nat) (h : s.canonical) : (s.heat pa n).canonical := by
  simpa [State.canonical] using h

theorem State.setSpace_canonical (s : State) (sp : Space) (a : Nat) (bs : List Byte) (h : s.canonical) : (s.setSpace sp a bs).canonical := by
  cases sp <;> first
    | (simp only [State.setSpace]; split <;> first | exact h | exact ⟨Memory.wf_write _ _ _ h.1, h.2.1, h.2.2⟩)
    | exact ⟨h.1, Memory.wf_write _ _ _ h.2.1, h.2.2⟩
    | exact ⟨h.1, h.2.1, Memory.wf_write _ _ _ h.2.2⟩

end Sys2Proof.Machine
end

