-- ==== Sys2Proof/Laws/Canonical.lean ====
section
/-!
SUPPORT. The writes that reach memory keep its canonical form (log 3): a write that lands or is performed, a write that arrives at its
home, and an engine's write. What keeps the directory and the caches leaves the memories as they are.
-/

namespace Sys2Proof.Machine

/-- Two states with the same memories. -/
def State.sameMems (s t : State) : Prop := t.mem = s.mem ∧ t.spad = s.spad ∧ t.caddy = s.caddy

theorem State.sameMems.refl (s : State) : s.sameMems s := ⟨rfl, rfl, rfl⟩

theorem State.sameMems.trans {s t u : State} (h : s.sameMems t) (k : t.sameMems u) : s.sameMems u :=
  ⟨k.1.trans h.1, k.2.1.trans h.2.1, k.2.2.trans h.2.2⟩

theorem State.sameMems.canonical {s t : State} (m : s.sameMems t) (h : s.canonical) : t.canonical := by
  simpa [State.canonical, m.1, m.2.1, m.2.2] using h

/-- A fold of steps that keep a property keeps it. -/
theorem foldl_keeps {α β : Type} (P : α → Prop) (f : α → β → α) (hf : ∀ a b, P a → P (f a b)) :
    ∀ (l : List β) (a : α), P a → P (l.foldl f a) := by
  intro l
  induction l with
  | nil => exact fun _ h => h
  | cons b l ih => exact fun a h => ih _ (hf a b h)

/-- A fold of steps that leave the memories leaves them. -/
theorem State.foldl_mems {β : Type} (f : State → β → State) (hf : ∀ (s : State) (b : β), s.sameMems (f s b)) (l : List β) (s : State) :
    s.sameMems (l.foldl f s) :=
  foldl_keeps (fun t => s.sameMems t) f (fun t b h => h.trans (hf t b)) l s (State.sameMems.refl s)

/-! ## The directory and the caches -/

theorem State.setDir_mems (s : State) (b : Nat) (e : DirEntry) : s.sameMems (s.setDir b e) := ⟨rfl, rfl, rfl⟩

theorem State.demote_mems (s : State) (b : Nat) (o : Option Nat) : s.sameMems (s.demote b o) := ⟨rfl, rfl, rfl⟩

theorem State.hold_mems (s : State) (b : Nat) (e : DirEntry) (a f : Nat) : s.sameMems (s.hold b e a f) := by
  unfold State.hold
  split
  · exact ⟨rfl, rfl, rfl⟩
  · simp only
    split <;> exact ⟨rfl, rfl, rfl⟩

theorem State.settle_mems (s : State) (b : Nat) (e : DirEntry) : s.sameMems (s.settle b e) := by
  unfold State.settle
  split <;> exact ⟨rfl, rfl, rfl⟩

theorem State.receive_mems (s : State) (m : Msg) : s.sameMems (s.receive m) := by
  unfold State.receive
  simp only
  split <;> exact ⟨rfl, rfl, rfl⟩

theorem State.deliverOld_mems (s : State) (w : Write) (n : Nat) (f : Flags) : s.sameMems (s.deliverOld w n f) := ⟨rfl, rfl, rfl⟩

theorem State.endGrant_mems (s : State) (a b : Nat) : s.sameMems (s.endGrant a b) := by
  unfold State.endGrant
  simp only
  split <;> exact ⟨rfl, rfl, rfl⟩

theorem State.proxyFill_mems (s : State) (d pa : Nat) : s.sameMems (s.proxyFill d pa) := by
  unfold State.proxyFill
  simp only
  split <;> exact ⟨rfl, rfl, rfl⟩

theorem State.proxySync_mems (s : State) (d pa : Nat) : s.sameMems (s.proxySync d pa) := by
  unfold State.proxySync
  simp only
  split <;> exact ⟨rfl, rfl, rfl⟩

theorem State.release_mems (s : State) (l : Line) : s.sameMems (s.release l) := by
  unfold State.release
  simp only
  split
  · exact ⟨rfl, rfl, rfl⟩
  · generalize (s.dropLine l.agent l.pa).dirFind l.pa l.len = x
    obtain ⟨base, e⟩ := x
    exact (State.sameMems.trans (t := s.dropLine l.agent l.pa) ⟨rfl, rfl, rfl⟩ (State.settle_mems _ _ _)).trans (State.proxySync_mems _ _ _)

theorem State.evictOne_mems (s : State) (a n : Nat) : s.sameMems (s.evictOne a n) := by
  unfold State.evictOne
  simp only
  split
  · exact ⟨rfl, rfl, rfl⟩
  · split
    · exact ⟨rfl, rfl, rfl⟩
    · split
      · exact State.sameMems.trans ⟨rfl, rfl, rfl⟩ (State.release_mems _ _)
      · exact ⟨rfl, rfl, rfl⟩

theorem State.putLine_mems (s : State) (l : Line) : s.sameMems (s.putLine l) :=
  State.sameMems.trans (State.sameMems.trans (t := s.dropLine l.agent l.pa) ⟨rfl, rfl, rfl⟩
    (State.foldl_mems _ (fun t _ => State.evictOne_mems t _ _) _ _)) ⟨rfl, rfl, rfl⟩

theorem State.share_mems (s : State) (b : Nat) (e : DirEntry) : s.sameMems (s.share b e).1 := by
  unfold State.share
  split
  · exact ⟨rfl, rfl, rfl⟩
  · simp only
    split
    · exact ⟨rfl, rfl, rfl⟩
    · exact State.sameMems.trans ⟨rfl, rfl, rfl⟩ (State.hold_mems _ _ _ _ _)

theorem State.heat_mems (s : State) (pa n : Nat) : s.sameMems (s.heat pa n) := ⟨by simp, by simp, by simp⟩

theorem State.fillExact_mems (s : State) (a pa : Nat) (att : Att) : s.sameMems (s.fillExact a pa att) := by
  unfold State.fillExact
  extract_lets die alone
  generalize s.dirFind (grainKey die pa) att.grain = x
  obtain ⟨base, e⟩ := x
  simp only
  split
  · exact State.sameMems.refl s
  · refine State.sameMems.trans ?_ (State.heat_mems _ _ _)
    refine State.sameMems.trans ?_ (State.endGrant_mems _ _ _)
    refine State.sameMems.trans ?_ (State.putLine_mems _ _)
    refine State.sameMems.trans ?_ (State.proxySync_mems _ _ _)
    have h1 := (State.proxyFill_mems s die pa).trans (State.share_mems (s.proxyFill die pa) base e)
    split
    · exact h1.trans ⟨rfl, rfl, rfl⟩
    · exact h1.trans (State.hold_mems _ _ _ _ _)

theorem State.takeOwnership_mems (s : State) (a pa g : Nat) : s.sameMems (s.takeOwnership a pa g) := by
  unfold State.takeOwnership
  generalize s.dirFind pa g = x
  obtain ⟨base, e⟩ := x
  simp only
  refine State.sameMems.trans ?_ (State.endGrant_mems _ _ _)
  refine State.sameMems.trans ?_ (State.putLine_mems _ _)
  exact (State.setDir_mems _ _ _).trans (State.demote_mems _ _ _)

theorem State.dropLease_mems (s : State) (k pa : Nat) : s.sameMems (s.dropLease k pa) := by
  unfold State.dropLease
  split
  · split <;> exact ⟨rfl, rfl, rfl⟩
  · exact State.sameMems.refl s

/-! ## Writes -/

theorem State.land_canonical (s : State) (w : Write) (h : s.canonical) : (s.land w).canonical := by
  have key : ∀ (o : Option (List Byte)), (match o with
      | none => s
      | some bs =>
        let s0 := s.recordWrite w.pa
        ({ s0 with mem := s0.mem.write w.pa bs }.mapLine w.core w.pa (fun l =>
          match l.state with
          | .sub _ => l
          | _ => { l with bytes := patch l.bytes (w.pa - l.pa) bs }))).canonical := by
    intro o
    cases o with
    | none => exact h
    | some bs =>
      have hr := State.recordWrite_canonical s w.pa h
      exact ⟨Memory.wf_write _ _ _ hr.1, hr.2.1, hr.2.2⟩
  unfold State.land
  simp only
  split
  · exact (State.deliverOld_mems _ _ _ _).canonical (key _)
  · exact key _

/-- A write performed (R292). -/
theorem State.perform_canonical (s : State) (w : Write) (h : s.canonical) : (s.perform w).canonical := by
  unfold State.perform
  extract_lets fills
  generalize s.dirFind w.pa w.att.grain = x
  obtain ⟨base, e⟩ := x
  have h1 : ((((s.setDir base { e with busy := none }).demote base e.owner).land w).heat w.pa (max 1 w.span)).canonical :=
    State.heat_canonical _ _ _ (State.land_canonical _ _ (((State.setDir_mems _ _ _).trans (State.demote_mems _ _ _)).canonical h))
  have h2 : ∀ t : State, t.canonical → ({ t with writes := t.writes.filter (fun x => x.id != w.id) } : State).canonical :=
    fun t ht => State.sameMems.canonical (s := t) ⟨rfl, rfl, rfl⟩ ht
  have h3 : ∀ (t : State) (b : Bool), t.canonical → (if b = true then t.fillExact w.core w.pa w.att else
      (match w.op with
       | .atomic _ _ _ _ => t.dropLease w.core w.pa
       | _ => t)).canonical := by
    intro t b ht
    split
    · exact (State.fillExact_mems _ _ _ _).canonical ht
    · split
      · exact (State.dropLease_mems _ _ _).canonical ht
      · exact ht
  simp only
  refine h2 _ (h3 _ _ ?_)
  generalize State.heat _ w.pa (max 1 w.span) = s1 at h1 ⊢
  split
  · exact State.recordWrite_canonical _ _ ((State.takeOwnership_mems _ _ _ _).canonical h1)
  · split
    all_goals first
      | exact h1
      | (split <;> exact h1)

theorem State.engineGrain_mems (s : State) (pa : Nat) (bs : List Byte) (x : Nat × DirEntry) : s.sameMems (s.engineGrain pa bs x) := by
  unfold State.engineGrain
  exact State.sameMems.trans (t := _) ⟨rfl, rfl, rfl⟩ (State.foldl_mems _ State.receive_mems _ _)

theorem State.proxyApply_mems (s : State) (d pa : Nat) (bs : List Byte) : s.sameMems (s.proxyApply d pa bs) := by
  unfold State.proxyApply
  exact (State.foldl_mems _ (fun t x => State.engineGrain_mems t _ _ x) _ s).trans ⟨rfl, rfl, rfl⟩

theorem State.remoteStore_mems (s : State) (d pa : Nat) (bs : List Byte) : s.sameMems (s.remoteStore d pa bs) := by
  have one : ∀ (t : State) (a : Nat) (l : List Byte), t.sameMems
      (if l.isEmpty then t else ((t.proxyFill d a).proxyApply 0 a l).proxyApply 1 a l) := by
    intro t a l
    split
    · exact State.sameMems.refl t
    · exact ((State.proxyFill_mems t d a).trans (State.proxyApply_mems _ _ _ _)).trans (State.proxyApply_mems _ _ _ _)
  unfold State.remoteStore
  exact (one s pa _).trans (State.foldl_mems _ (fun t i => one t _ _) _ _)

/-- A write to another package leaves this package's memories (R295). -/
theorem State.remoteWrite_mems (s : State) (w : Write) : s.sameMems (s.remoteWrite w) := by
  unfold State.remoteWrite
  extract_lets d s0 old
  have h0 : s.sameMems s0 := State.proxyFill_mems s d w.pa
  generalize w.result old = rf
  obtain ⟨r, f⟩ := rf
  have h1 : s.sameMems (match r with
      | none => s0
      | some bs => s0.remoteStore d w.pa bs) := by
    cases r with
    | none => exact h0
    | some bs => exact h0.trans (State.remoteStore_mems _ _ _ _)
  have h2 : ∀ t u : State, s.sameMems t → t.sameMems u →
      s.sameMems (if s.atomicFills w = true then
        (({ u with writes := u.writes.filter (fun x => x.id != w.id) } : State).outDone d w.word).fillExact w.core w.pa w.att
        else (({ u with writes := u.writes.filter (fun x => x.id != w.id) } : State).outDone d w.word).dropLease w.core w.pa) := by
    intro t u ht hu
    have h3 : s.sameMems (({ u with writes := u.writes.filter (fun x => x.id != w.id) } : State).outDone d w.word) :=
      State.sameMems.trans (ht.trans hu) ⟨rfl, rfl, rfl⟩
    split
    · exact h3.trans (State.fillExact_mems _ _ _ _)
    · exact h3.trans (State.dropLease_mems _ _ _)
  refine h2 _ _ h1 ?_
  cases w.op <;> first
    | exact State.deliverOld_mems _ _ _ _
    | exact State.sameMems.refl _

theorem State.sendWrite_canonical (s : State) (w : Write) (b : Nat) (v far : Verdict) (h : s.canonical) :
    (s.sendWrite w b v far).canonical := by
  unfold State.sendWrite
  simp only
  split
  · exact State.perform_canonical _ _ (State.sameMems.canonical (s := s) ⟨rfl, rfl, rfl⟩ h)
  · exact State.sameMems.canonical (s := s) ⟨rfl, rfl, rfl⟩ h

theorem State.examineWrite_canonical (s : State) (w : Write) (b : Nat) (e : DirEntry) (home : Bool) (h : s.canonical) :
    (s.examineWrite w b e home).canonical := by
  unfold State.examineWrite
  extract_lets
  split
  · exact State.perform_canonical _ _ h
  · exact State.sendWrite_canonical _ _ _ _ _ h

/-- A write that a device takes leaves this package's memories (R424). -/
theorem State.deviceWrite_mems (s : State) (w : Write) : s.sameMems (s.deviceWrite w) := by
  unfold State.deviceWrite
  refine State.sameMems.trans (t := _) ?_ ⟨rfl, rfl, rfl⟩
  cases w.op <;> first
    | exact State.deliverOld_mems _ _ _ _
    | exact State.sameMems.refl _

/-- A write that arrives at its home (R291). -/
theorem State.arrive_canonical (s : State) (w : Write) (h : s.canonical) : (s.arrive w).canonical := by
  unfold State.arrive
  split
  · exact (State.remoteWrite_mems _ _).canonical h
  split
  · exact (State.deviceWrite_mems _ _).canonical h
  · generalize s.dirFind w.pa w.att.grain = x
    obtain ⟨b, e⟩ := x
    extract_lets
    simp only
    split
    · exact h
    split
    · exact State.sameMems.canonical (s := s.land w) ⟨rfl, rfl, rfl⟩ (State.land_canonical s w h)
    split
    · exact State.sameMems.canonical (s := s) ⟨rfl, rfl, rfl⟩ h
    · exact State.examineWrite_canonical _ _ _ _ _ h

/-! ## Engines -/

theorem State.holdBusy_mems (s : State) (id pa n : Nat) : s.sameMems (s.holdBusy id pa n) := by
  unfold State.holdBusy
  exact (State.foldl_mems _ (fun t _ => State.setDir_mems t _ _) _ s).trans (State.foldl_mems _ (fun t _ => State.setDir_mems t _ _) _ _)

theorem State.tellFar_mems (s : State) (pa : Nat) (bs : List Byte) : s.sameMems (s.tellFar pa bs) := by
  unfold State.tellFar
  extract_lets id vs s1 msgs
  have h1 : s.sameMems s1 := by
    refine State.foldl_mems _ ?_ _ s
    exact fun t x => ⟨rfl, rfl, rfl⟩
  split
  · exact h1
  · exact (h1.trans ⟨rfl, rfl, rfl⟩).trans (State.holdBusy_mems _ _ _ _)

/-- An engine's write (R433). -/
theorem State.engineWrite_canonical (s : State) (pa : Nat) (bs : List Byte) (h : s.canonical) : (s.engineWrite pa bs).canonical := by
  unfold State.engineWrite
  split
  · exact h
  have h1 := ((State.foldl_mems (fun t x => t.engineGrain pa bs x) (fun t x => State.engineGrain_mems t pa bs x)
    (s.dirIn pa bs.length) s).trans (State.tellFar_mems _ pa bs)).canonical h
  have h2 := foldl_keeps State.canonical (fun t f => t.recordWrite f) (fun t f ht => State.recordWrite_canonical t f ht)
    (framesOf pa bs.length) _ h1
  exact State.heat_canonical _ _ _ ⟨Memory.wf_write _ _ _ h2.1, h2.2.1, h2.2.2⟩

/-- An engine's store at a place of any class. -/
theorem State.engineStore_canonical (s : State) (die : Nat) (sp : Space) (x : Nat) (bs : List Byte) (h : s.canonical) :
    (s.engineStore die sp x bs).canonical := by
  cases sp with
  | phys =>
    simp only [State.engineStore]
    split
    · exact (State.remoteStore_mems _ _ _ _).canonical h
    · exact State.engineWrite_canonical _ _ _ h
  | spad k => exact State.setSpace_canonical _ _ _ _ h
  | caddy k => exact State.setSpace_canonical _ _ _ _ h

end Sys2Proof.Machine
end

