-- ==== Sys2Proof/Laws/Ops.lean ====
section
/-!
SUPPORT. What the shared operations do with a word that is ready: one lemma per operation, so that no proof unfolds the checks again.
-/

namespace Sys2Proof.Machine

theorem lowest_eq_none {l : List Nat} : lowest l = none ↔ l = [] := by
  cases l with
  | nil => simp [lowest]
  | cons d ds =>
    simp only [lowest, reduceCtorEq, iff_false]
    split <;> simp

theorem lowest_of_wf {i : Instr} {e : Env} (h : i.wf e = true) : lowest (i.details e) = none := by
  rw [lowest_eq_none]
  simpa [Instr.wf] using h

theorem Crew.ready_iff {c : Crew} {st : Strm} {i : Instr} :
    c.ready st i = true ↔ c.canIssue st = true ∧ c.pendDue st = false ∧ i.wf c.env = true := by
  simp [Crew.ready, and_assoc]

/-- A word that is ready goes on to its own meaning. -/
theorem Crew.guarded_ready {c : Crew} {st : Strm} {i : Instr} {go : Crew → Crew} (h : c.ready st i = true) :
    c.guarded st i go = go c := by
  obtain ⟨h1, h2, h3⟩ := Crew.ready_iff.mp h
  simp [Crew.guarded, h1, h2, lowest_of_wf h3]

theorem guardedState_ready {s : State} {st : Strm} {i : Instr} {go : State → Out} (h : s.crew.ready st i = true) :
    guardedState s st i go = go s := by
  obtain ⟨h1, h2, h3⟩ := Crew.ready_iff.mp h
  simp [guardedState, h1, h2, lowest_of_wf h3]

theorem Crew.readyScalar_iff {c : Crew} {i : Instr} {srcs : List GReg} {d : GReg} :
    c.readyScalar i srcs d = true ↔ c.ready .s i = true ∧ c.gPoison srcs = none ∧ c.scalarWait srcs d = none := by
  simp [Crew.readyScalar, and_assoc]

theorem Crew.readPoison_none {c : Crew} {srcs : List GReg} (h : c.gPoison srcs = none) : c.readPoison srcs = none := by
  simp [Crew.readPoison, h]

/-- A scalar word that is ready does what it is for. -/
theorem Crew.scalar_ready {c : Crew} {i : Instr} {srcs : List GReg} {d : GReg} {go : Crew → Crew}
    (h : c.readyScalar i srcs d = true) : c.scalar i srcs d go = go c := by
  obtain ⟨h1, h2, h3⟩ := Crew.readyScalar_iff.mp h
  simp [Crew.scalar, Crew.guarded_ready h1, Crew.readPoison_none h2, h3]

theorem scalarState_ready {s : State} {i : Instr} {srcs : List GReg} {d : GReg} {go : State → Out}
    (h : s.crew.readyScalar i srcs d = true) : scalarState s i srcs d go = go s := by
  obtain ⟨h1, h2, h3⟩ := Crew.readyScalar_iff.mp h
  simp [scalarState, guardedState_ready h1, Crew.readPoison_none h2, h3]

/-- A scalar register word that is ready writes its register and completes. -/
theorem onCrew_scalarTo_ready {s : State} {i : Instr} {srcs : List GReg} {d : GReg} {val : Crew → Word}
    (h : s.crew.readyScalar i srcs d = true) :
    onCrew s (fun c => c.scalarTo i srcs d val) = .next { s with crew := (s.crew.wrG d (val s.crew)).advance } := by
  simp [onCrew, Crew.scalarTo, Crew.scalar_ready h]

theorem onCrew_scalar_ready {s : State} {i : Instr} {srcs : List GReg} {d : GReg} {go : Crew → Crew}
    (h : s.crew.readyScalar i srcs d = true) :
    onCrew s (fun c => c.scalar i srcs d go) = .next { s with crew := go s.crew } := by
  simp [onCrew, Crew.scalar_ready h]

theorem Crew.readyWord_iff {c : Crew} {st : Strm} {i : Instr} {wait : BitVec 8} :
    c.readyWord st i wait = true ↔ c.ready st i = true ∧ c.tokensAtMost wait 0 = true := by
  simp [Crew.readyWord]

/-- A word of v, m or k that is ready goes on to its own meaning. -/
theorem Crew.waited_ready {c : Crew} {st : Strm} {i : Instr} {wait : BitVec 8} {go : Crew → Crew}
    (h : c.readyWord st i wait = true) : c.waited st i wait go = go c := by
  obtain ⟨h1, h2⟩ := Crew.readyWord_iff.mp h
  simp [Crew.waited, Crew.guarded_ready h1, h2]

theorem waitedState_ready {s : State} {st : Strm} {i : Instr} {wait : BitVec 8} {go : State → Out}
    (h : s.crew.readyWord st i wait = true) : waitedState s st i wait go = go s := by
  obtain ⟨h1, h2⟩ := Crew.readyWord_iff.mp h
  simp [waitedState, guardedState_ready h1, h2]

/-- A vector word that is ready goes on in the settled state. -/
theorem vectorWord_ready {i : Instr} {h : VHdr} {use : VUse} {tok : Option Tok} {s : State} {go : State → Out}
    (hr : s.readyVector i h use tok = true) : vectorWord i h use tok s go = go s.settled := by
  simp only [State.readyVector, Bool.and_eq_true, Option.isNone_iff_eq_none, Bool.not_eq_true'] at hr
  obtain ⟨⟨⟨⟨⟨⟨⟨h0, h1⟩, h2⟩, h3⟩, h4⟩, h5⟩, h6⟩, h8⟩ := hr
  simp only [vectorWord, State.settledV, h0, if_true, waitedState_ready h1, h2, h3, h4, h5, h6, Bool.false_eq_true, if_false]
  cases tok with
  | none => rfl
  | some t =>
    have : s.settled.crew.tokCount t ≠ 63 := by simpa using h8
    simp [this]

/-- A word with a latency bound that is ready opens its window. -/
theorem windowWord_ready {i : Instr} {h : VHdr} {use : VUse} {lat : Nat} {eff : Crew → Nat → VEff} {s : State}
    (hr : s.readyVector i h use none = true) :
    windowWord i h use lat eff s = .next (s.settled.openWindow h use lat (raisesFlags i) (eff s.settled.crew s.settled.free)) := by
  simp [windowWord, vectorWord_ready hr]

/-- A matrix word that is ready goes on to its own meaning. -/
theorem matrixWord_ready {i : Instr} {wait : BitVec 8} {regs : List Nat} {reads : Bool} {s : State} {go : State → Out}
    (hr : s.crew.readyMatrix i wait regs reads = true) : matrixWord i wait regs reads s go = go s := by
  simp only [Crew.readyMatrix, Bool.and_eq_true, Option.isNone_iff_eq_none] at hr
  obtain ⟨⟨h1, h2⟩, h3⟩ := hr
  simp only [matrixWord, waitedState_ready h1, h2]
  rw [h3]

/-- A word of the array side enters a free array. -/
theorem arraySide_free {s : State} {t : Option (BitVec 3)} {go : State → Out} (h : s.crew.arrayFree = true)
    (ht : ∀ x, t = some x → s.crew.tileFull x = false) : arraySide s t go = go s := by
  simp only [Crew.arrayFree, Bool.and_eq_true, Option.isNone_iff_eq_none] at h
  simp only [arraySide, h.1, h.2]
  cases t with
  | none => rfl
  | some x => simp [ht x rfl]

/-- A copy word that is ready hands its job to the engine and raises its token. -/
theorem copyWord_ready {i : Instr} {seq : Crew → Nat} {room : State → Job → Option Wait} {start : Crew → Job → Crew × Job} {s : State}
    (hr : s.readyCopy i (seq s.crew) room = true) :
    copyWord i seq room start s =
      (let x := start s.crew (s.crew.jobOf s.nextId (seq s.crew) i)
       .next { s.fresh.2 with
         crew := (({ x.1 with jobs := x.1.jobs ++ [x.2] } : Crew).raiseTok (hdrOf i).sig).pass .k (hdrOf i).gap (s.crew.k.pc + 1) }) := by
  simp only [State.readyCopy, Bool.and_eq_true, Option.isNone_iff_eq_none, Bool.not_eq_true'] at hr
  obtain ⟨⟨⟨⟨⟨⟨h1, h2⟩, h3⟩, h4⟩, h5⟩, h6⟩, h7⟩ := hr
  have h8 : s.crew.tokCount (hdrOf i).sig ≠ 63 := by simpa using h7
  simp [copyWord, waitedState_ready h1, h2, h3, h4, State.fresh, h5, h6, h8]

end Sys2Proof.Machine
end

