-- ==== Sys2Proof/Laws/Schedule.lean ====
section
/-!
SUPPORT. What a tick of the schedule changes: the stall counters of the cores, the time, the turn and the agenda (log 2, log 84).
-/

namespace Sys2Proof.Machine

/-- Counting stalls changes cores and dies, and nothing else. -/
theorem State.stalls_eq (s : State) : s.stalls = { s with cores := s.stalls.cores, dies := s.stalls.dies } := by
  let Same := fun (t : State) => t = { s with cores := t.cores, dies := t.dies }
  have cores : Same (s.npuCores.foldl (fun t k => t.setCore k (s.stallAt k [0x18, 0x20, 0x28] (t.core k))) s) :=
    foldl_keeps Same _ (fun a b ha => by show _ = _; rw [ha]; rfl) _ s rfl
  exact foldl_keeps Same (fun t die => if s.leadWaits die then t.setDie die (t.die die).leadStall else t)
    (fun a b ha => by
      show Same _
      split
      · show _ = _
        rw [ha]; rfl
      · exact ha) _ _ cores

/-- A crew that a trap has stopped has its slot marked; nothing but cores changes. -/
theorem State.haltSlots_eq (s : State) : s.haltSlots = { s with cores := s.haltSlots.cores } := by
  unfold State.haltSlots
  exact foldl_keeps (fun t => t = { s with cores := t.cores }) (fun t c => t.slotState c 3) (fun a b ha => by rw [ha]; rfl) _ s rfl

@[simp] theorem State.stalls_crew (s : State) : s.stalls.crew = s.crew := by rw [s.stalls_eq]
@[simp] theorem State.stalls_rest (s : State) : s.stalls.rest = s.rest := by rw [s.stalls_eq]
@[simp] theorem State.stalls_mem (s : State) : s.stalls.mem = s.mem := by rw [s.stalls_eq]
@[simp] theorem State.haltSlots_crew (s : State) : s.haltSlots.crew = s.crew := by rw [s.haltSlots_eq]
@[simp] theorem State.haltSlots_rest (s : State) : s.haltSlots.rest = s.rest := by rw [s.haltSlots_eq]
@[simp] theorem State.haltSlots_mem (s : State) : s.haltSlots.mem = s.mem := by rw [s.haltSlots_eq]
@[simp] theorem State.haltSlots_dies (s : State) : s.haltSlots.dies = s.dies := by rw [s.haltSlots_eq]

theorem State.stalls_mems (s : State) : s.sameMems s.stalls := by rw [s.stalls_eq]; exact ⟨rfl, rfl, rfl⟩
theorem State.haltSlots_mems (s : State) : s.sameMems s.haltSlots := by rw [s.haltSlots_eq]; exact ⟨rfl, rfl, rfl⟩

@[simp] theorem State.tick_crew (s : State) : s.tick.crew = s.crew := (State.stalls_crew _).trans s.haltSlots_crew
@[simp] theorem State.tick_rest (s : State) : s.tick.rest = s.rest := (State.stalls_rest _).trans s.haltSlots_rest
@[simp] theorem State.tick_mem (s : State) : s.tick.mem = s.mem := (State.stalls_mem _).trans s.haltSlots_mem
@[simp] theorem State.tick_now (s : State) : s.tick.now = s.now + 1 := rfl
@[simp] theorem State.tick_agenda (s : State) : s.tick.agenda = s.agenda.drop 1 := rfl

theorem State.tick_mems (s : State) : s.sameMems s.tick := s.haltSlots_mems.trans (State.stalls_mems _)

/-- A cycle counts one operand stall on a core where some crew's array waits for a slice (R401). -/
theorem State.onCore_iff (s : State) (p : Crew → Bool) (k : Nat) :
    s.onCore k p = true ↔ ∃ c ∈ s.crews, c.agent = k ∧ (c.life = .running ∨ c.life = .halting) ∧ c.place.npu = true ∧ p c = true := by
  simp [State.onCore, and_assoc]

end Sys2Proof.Machine
end

