-- ==== Sys2Proof/Tests/Slice0.lean ====
section
/-!
SUPPORT. Words written out from the spec's encodings, ill-formed terms, single steps, and for every statement a state and operands that meet
its hypotheses.
-/

namespace Sys2Proof.Tests

open Sys2Proof Sys2Proof.Machine

set_option maxRecDepth 20000

/-! ## Instructions used below -/

def hdr : VHdr := { gap := 0, wait := 0, msk := 0, mmode := 0, grp := 0, hold := 0 }
def reg (n : Nat) : VOpd := ⟨0, 0, BitVec.ofNat 10 n⟩
/-- Layout A: n32 lanes of v3 from v4 and v5. -/
def wordA : VArith := { h := hdr, ty := 7, d := reg 3, a := reg 4, b := reg 5, nab := 0, rnd := 0, sat := 0 }
/-- Layout A with one source, f32. -/
def wordF : VArith := { wordA with ty := 9, b := reg 0 }
/-- Layout L: v3 from v4 and v5. -/
def wordL : VImm := { h := hdr, ty := 7, d := reg 3, a := reg 4, b := reg 5, imm := 0 }
/-- Layout L with one source. -/
def wordL1 : VImm := { wordL with b := reg 0 }
def wordC : VCmpF := { h := hdr, ty := 7, d := reg 2, a := reg 4, b := reg 5, nab := 0, cond := 2 }
def wordV : VCvtF := { h := hdr, ty := 10, d := reg 3, a := reg 4, rnd := 0, sat := 0, sty := 9 }
/-- Layout M: n32 elements of v3 at the base in the pool's first pair, path 0, class 2, token 1. -/
def wordM : VMemF := { h := hdr, ty := 7, d := reg 3, a := reg 768, b := reg 0, path := 0, tok := 1, oc := 2, sc := 0, sub := 0 }
/-- Layout G: texture slot 1, sampler 0, token 1. -/
def wordG : VGfx := { h := hdr, ty := 9, d := reg 8, a := reg 4, b := reg 6, tok := 1, desc := 0x010 }
def stepW : MStepF :=
  { gap := 0, wait := 0, zacc := 1, fmta := 10, fmtb := 10, acc := 2, fin := 1, ha := 0, arow := 0, acol := 0, hb := 0, brow := 0, bcol := 0,
    k := 4, ta := 0, tb := 0, pro := 0, ptab := 0, oc := 0, mx := 3, nx := 3 }
def rowW : MRowF := { gap := 0, wait := 0, sig := 1, fmt := 0, acc := 2, row := 0, mx := 0, vx := 16 }
def setW : MNSetF := { gap := 0, wait := 0, lv := 5, count := 2, ar := 1, ac := 0, br := 0, bc := 0, ts := 0 }
def scaW : MScaF := { gap := 0, wait := 0, acc := 2, src := 3, sa := 16, sb := 20 }
def kh : KHdr := { gap := 0, wait := 0, sig := 1, path := 0, oc := 0 }
def kr : KR := { imm := 64, gc := 0, gb := 49, ga := 48 }
def kHandle : KH := { nx := 3, mx := 3, col := 0, row := 0, h := 0 }

/-! ## Ill-formed terms (R92): each check refuses one, with its detail -/

def graphicsEnv : Env := { Env.start with npu := false }

def refusedAs (e : Env) (l : List (Nat × Instr)) : Bool := l.all (fun x => !x.2.wf e && lowest (x.2.details e) == some x.1)

theorem test_ill_formed_scalar : refusedAs Env.start [
    (1, .cmp 0 1 2 6), (1, .cmpi 6 0 1 0), (8, .bfxS 1 2 63 1), (8, .bfxN 1 2 1 63), (8, .bfi 1 2 32 32), (1, .fcvt 1 2 7 0 0 0),
    (4, .fcvt 1 2 0 0 5 0), (4, .fadd 1 2 3 5 0), (3, .fmul 1 2 3 0 3), (2, .ld 1 2 0 0 3 1 0), (5, .amoCas 3 2 0 0 0),
    (8, .lpset 0 1 3 0), (2, .lpset 0 0 0x021 4), (4, .fence 10 1), (8, .fence 3 0), (4, .bar 0 1), (4, .bar 6 1),
    (4, .efenceCopy 10 1), (1, .drain 5), (8, .tokw 0 0), (8, .regacq 0), (8, .regacq 5), (8, .forkImm 0 0), (8, .forkImm 3 0),
    (5, .forkReg 7 62), (8, .rdv 0)] = true := by decide

theorem test_ill_formed_streams : refusedAs graphicsEnv [(6, .forkImm 2 0), (6, .rdv 1), (6, .vldDq { wordM with a := reg 0, path := 6, oc := 0 })] = true := by
  decide

theorem test_ill_formed_vector : refusedAs Env.start [
    (4, .vadd { wordA with h := { hdr with mmode := 3 } }), (2, .vadd { wordA with h := { hdr with msk := 1 } }),
    (2, .vadd { wordA with h := { hdr with grp := 1, hold := 1 }, d := ⟨0, 1, 3⟩ }), (3, .vadd { wordA with ty := 5 }),
    (2, .vadd { wordA with d := ⟨1, 0, 3⟩ }), (5, .vadd { wordA with d := reg 688 }), (5, .vadd { wordA with h := { hdr with grp := 1 } }),
    (5, .vadd { wordA with a := reg 706 }), (5, .vadd { wordA with a := ⟨0, 1, 640⟩ }), (4, .vadd { wordA with ty := 9, rnd := 5 }),
    (2, .vadd { wordA with ty := 9, sat := 1 }), (2, .vadd { wordA with rnd := 1 }), (2, .vmulh { wordA with sat := 1 }),
    (2, .vabs wordA), (2, .vshl { wordL1 with a := ⟨1, 0, 4⟩ }), (2, .vand { wordL with imm := 1 }), (1, .vbilvTwo { wordL with imm := 1 }),
    (1, .vcmp { wordC with cond := 7 }), (1, .vcmp { wordC with cond := 6 }), (5, .vcmp { wordC with d := reg 16 }),
    (1, .vmlogAnd { wordL with ty := 0, imm := 1 }), (5, .vmlogMov { wordL1 with ty := 0, a := reg 16, imm := 5 }),
    (5, .vmpop { wordL1 with ty := 0 }), (2, .vsig { wordL1 with ty := 0, d := reg 0, imm := 8 }), (2, .vsel { wordL with ty := 0, imm := 16 }),
    (3, .vcvt { wordV with sty := 14 }), (3, .vcvt { wordV with sty := 30 })] = true := by decide

theorem test_ill_formed_memory : refusedAs Env.start [
    (1, .vld { wordM with path := 6 }), (5, .vld { wordM with a := reg 4 }), (2, .vld { wordM with sub := 1 }), (2, .vld { wordM with b := reg 1 }),
    (5, .vldx { wordM with b := reg 4 }), (2, .vldDq { wordM with a := reg 0, path := 6 }), (1, .vatomAdd { wordM with sub := 1 }),
    (1, .vatomAnd { wordM with ty := 9, sub := 1 }), (5, .vatomCas { wordM with sub := 9 }), (1, .vcp16 { wordM with ty := 0 }),
    (3, .vlds wordM), (6, .tex wordG)] = true := by decide

theorem test_ill_formed_graphics : refusedAs graphicsEnv [
    (5, .tex { wordG with d := ⟨0, 1, 8⟩ }), (2, .rayq { wordG with ty := 0, b := reg 0, desc := 4 }),
    (2, .pexp { wordG with ty := 0, d := reg 0, b := reg 0, desc := 8 })] = true := by decide

theorem test_ill_formed_matrix : refusedAs Env.start [
    (3, .mstep { stepW with fmta := 9 }), (8, .mstep { stepW with k := 64 }), (8, .mngo { stepW with k := 0 }), (8, .mnset { setW with lv := 6 }),
    (8, .mnset { setW with count := 0 }), (8, .mread { rowW with row := 127, mx := 1 }), (2, .mread { rowW with fmt := 1 }), (3, .mcvt { rowW with fmt := 9 }),
    (8, .msca { scaW with src := 2 }), (2, .mproNone 0 0 0 1)] = true := by decide

theorem test_ill_formed_copy : refusedAs Env.start [
    (1, .cpyKr { kh with path := 5 } kr), (5, .cpyKr kh { kr with ga := 0 }), (2, .cpysg kh { kr with gc := 50 }), (1, .cpymcKr kh kr),
    (1, .scatStrain kh 6 { kr with gc := 50 }), (1, .collGath kh 0 kr), (2, .collGath { kh with path := 3 } 0 { kr with imm := 2 ^ 32 + 9 * 2 ^ 35 }),
    (3, .collAllred { kh with path := 3 } 0 { kr with imm := 10 * 2 ^ 35 }), (3, .xfmPsum kh { kr with gb := 0, imm := 15 * 2 ^ 35 + 1 }), (1, .dqpushKr kh 0 { kr with gb := 0 }), (2, .sqgo kh kr)] = true := by decide

/-! ## Words from the encoding tables, and the spec's worked words -/

/-- Does every word of the list decode to the instruction beside it? -/
def reads (e : Env) (st : Strm) (l : List (Nat × Instr)) : Bool := l.all (fun x => decode e st x.1 == some x.2)

/-- The worked words of spec/04_scalar_ops.md. -/
theorem test_worked_scalar : reads Env.start .s [
    (0x2121C00A, .cmpi 2 2 7 10), (0x40428152, .ld 4 10 0 2 2 1 2), (0x71014009, .lpset 0 1 5 9), (0x72240004, .lpset 1 0 144 4), (0x8010000C, .fence 4 3),
    (0x804BFFFC, .bar 2 65535), (0x83714000, .forkReg 6 20), (0x82000000, .halt)] = true := by decide

/-- The worked words of spec/05_vector_ops.md. -/
theorem test_worked_vector : reads Env.start .v [
    (0x200000024030020009000800, .vcmp ⟨⟨0, 0, 0, 0, 0, 0⟩, 9, ⟨0, 0, 3⟩, ⟨0, 0, 8⟩, ⟨0, 0, 9⟩, 0, 2⟩),
    (0x500000024100AC8000001180, .vld ⟨⟨0, 0, 0, 0, 0, 0⟩, 9, ⟨0, 0, 16⟩, ⟨0, 0, 690⟩, ⟨0, 0, 0⟩, 0, 1, 1, 4, 0⟩),
    (0x250005402B10050000000000, .vtos ⟨⟨0, 0, 5, 1, 0, 0⟩, 0, ⟨0, 0, 689⟩, ⟨0, 0, 20⟩, ⟨0, 0, 0⟩, 0⟩),
    (0xF00000001E0000000003FFFC, .vBrf 0 0 3 1 1 0x3FFFC)] = true := by decide

/-- The worked words of spec/07_copy_sync_ops.md. -/
theorem test_worked_copy : reads Env.start .k [
    (0x010002010400C00000000383, .cpyKh ⟨0, 0, 1, 4, 1⟩ ⟨3, 7, 0, 0, 3⟩), (0x01000002432CC00000001000, .cpyKr ⟨0, 0, 0, 1, 0⟩ ⟨4096, 0, 51, 50⟩),
    (0xF30000000018000000000000, .kTokw 0 0 6 0)] = true := by decide

theorem test_decode_alu : reads Env.start .s [
    (0b000001_000011_000001_000010_00000000, .add 3 1 2),
    (0b000001_000011_000001_000010_00000001, .sub 3 1 2),
    (0b000001_000011_000001_000010_00000010, .mul 3 1 2),
    (0b000001_000011_000001_000010_00000011, .mulhS 3 1 2),
    (0b000001_000011_000001_000010_00000100, .mulhN 3 1 2),
    (0b000001_000011_000001_000010_00000110, .divS 3 1 2),
    (0b000001_000011_000001_000010_00000111, .divN 3 1 2),
    (0b000001_000011_000001_000010_00001000, .remS 3 1 2),
    (0b000001_000011_000001_000010_00001001, .remN 3 1 2),
    (0b000001_000011_000001_000010_00010000, .and 3 1 2),
    (0b000001_000011_000001_000010_00010001, .or 3 1 2),
    (0b000001_000011_000001_000010_00010010, .xor 3 1 2),
    (0b000001_000011_000001_000010_00010011, .andn 3 1 2),
    (0b000001_000011_000001_000010_00011000, .sll 3 1 2),
    (0b000001_000011_000001_000010_00011001, .srl 3 1 2),
    (0b000001_000011_000001_000010_00011010, .sra 3 1 2),
    (0b000001_000011_000001_000010_00011011, .rol 3 1 2),
    (0b000001_000011_000001_000010_00011100, .ror 3 1 2),
    (0b000001_000011_000001_000010_00100000, .minS 3 1 2),
    (0b000001_000011_000001_000010_00100001, .minN 3 1 2),
    (0b000001_000011_000001_000010_00100010, .maxS 3 1 2),
    (0b000001_000011_000001_000010_00100011, .maxN 3 1 2),
    (0b000001_000011_000001_00000000101000, .clz 3 1),
    (0b000001_000011_000001_00000000101001, .ctz 3 1),
    (0b000001_000011_000001_00000000101010, .popc 3 1),
    (0b000001_000011_000001_000010_00101100, .bilv2 3 1 2),
    (0b000001_000011_000001_000010_00101101, .bilv3 3 1 2),
    (0b000001_000011_000001_000010_00110_101, .adds 3 1 2 5),
    (0b000001_000011_000001_000010_01000_110, .sel 3 1 2 6)] = true := by decide

theorem test_decode_immediate : reads Env.start .s [
    (0b000010000_110_000001_000010_00001001, .cmp 6 1 2 9),
    (0b001000_010_110_000001_00001010100101, .cmpi 2 6 1 677),
    (0b000011_000011_000001_00001010100101, .addi 3 1 677),
    (0b000100_000011_000001_00001010100101, .andi 3 1 677),
    (0b000101_000011_000001_00001010100101, .ori 3 1 677),
    (0b000110_000011_000001_00001010100101, .xori 3 1 677),
    (0b000111_000011_000001_00000000_001001, .slli 3 1 9),
    (0b000111_000011_000001_01000000_001001, .srli 3 1 9),
    (0b000111_000011_000001_10000000_001001, .srai 3 1 9),
    (0b000111_000011_000001_11000000_001001, .rori 3 1 9),
    (0b001001_000011_10000000000000000001, .lil 3 524289),
    (0b001010_000011_10000000000000000001, .lih 3 524289),
    (0b001011_000011_000001_001000_000111_10, .bfxS 3 1 8 7),
    (0b001011_000011_000001_001000_000111_00, .bfxN 3 1 8 7),
    (0b001100_000011_000001_001000_000111_00, .bfi 3 1 8 7)] = true := by decide

theorem test_decode_float : reads Env.start .s [
    (0b001110_000011_000001_000_100_011_1_0000, .fcvt 3 1 0 4 3 1),
    (0b001111_000011_000001_000010_010_01_000, .fadd 3 1 2 2 1),
    (0b001111_000011_000001_000010_010_01_001, .fsub 3 1 2 2 1),
    (0b001111_000011_000001_000010_010_01_010, .fmul 3 1 2 2 1),
    (0b001111_000011_000001_000010_010_01_011, .ffma 3 1 2 2 1),
    (0b001111_000011_000001_000010_010_01_100, .fmin 3 1 2 2 1),
    (0b001111_000011_000001_000010_010_01_101, .fmax 3 1 2 2 1),
    (0b001111_000011_000001_000000_010_01_110, .fabs 3 1 2 1),
    (0b001111_000011_000001_000000_010_01_111, .fneg 3 1 2 1)] = true := by decide

theorem test_decode_memory : reads Env.start .s [
    (0b010000_000011_000001_0101_100_10_1_1001, .ld 3 1 5 4 2 1 9),
    (0b010001_000011_000001_0101_100_01_0_1001, .st 3 1 5 4 1 9),
    (0b010010_000100_000001_0101_100_0000_1_00, .amoAdd 4 1 5 4 1),
    (0b010010_000100_000001_0101_100_0001_1_00, .amoAnd 4 1 5 4 1),
    (0b010010_000100_000001_0101_100_0010_1_00, .amoOr 4 1 5 4 1),
    (0b010010_000100_000001_0101_100_0011_1_00, .amoXor 4 1 5 4 1),
    (0b010010_000100_000001_0101_100_0100_1_00, .amoMinS 4 1 5 4 1),
    (0b010010_000100_000001_0101_100_0101_1_00, .amoMaxS 4 1 5 4 1),
    (0b010010_000100_000001_0101_100_0110_1_00, .amoMinN 4 1 5 4 1),
    (0b010010_000100_000001_0101_100_0111_1_00, .amoMaxN 4 1 5 4 1),
    (0b010010_000100_000001_0101_100_1000_1_00, .amoSwap 4 1 5 4 1),
    (0b010010_000100_000001_0101_100_1001_1_00, .amoCas 4 1 5 4 1)] = true := by decide

theorem test_decode_control : reads Env.start .s [
    (0b011000000_110_1_0_111111111111111100, .brf 6 1 0 262140),
    (0b011001_000011_00_100000000000000001, .jal 3 131073),
    (0b001101_000011_000001_00001010100101, .jalr 3 1 677),
    (0b011100_0_1_0000000101_00000000001001, .lpset 0 1 5 9),
    (0b011101_1_0000000000000000000000000, .lpbrk 1)] = true := by decide

theorem test_decode_system : reads Env.start .s [
    (0b1000000000_0100_0000000000000011_00, .fence 4 3),
    (0b1000000001_0010_1111111111111111_00, .bar 2 65535),
    (0b1000000010_0100_1000000000000001_00, .efenceCopy 4 32769),
    (0b1000000010_0100_1000000000000001_01, .efenceColl 4 32769),
    (0b1000000010_0100_1000000000000001_10, .efenceSolve 4 32769),
    (0b1000000010_0100_1000000000000001_11, .efenceInfuse 4 32769),
    (0b1000000011_000111_000000010010_0000, .srd 7 18),
    (0b1000000100_000111_000000010010_0000, .swr 7 18),
    (0b10000001010000000000000000_101010, .trap 42),
    (0b10000001100000000000000000000000, .eret),
    (0b10000001110000000000000000000000, .yield),
    (0b10000010000000000000000000000000, .halt),
    (0b1000001001_011_0000000000000000000, .drain 3),
    (0b1000001010_10000001_000110_00000000, .tokw 129 6),
    (0b10000010110000000000000000000_011, .regacq 3),
    (0b10000011000000000000000000000000, .regrel),
    (0b1000001101_100_1_100000000000000011, .forkImm 4 131075),
    (0b1000001101_110_0_010100_000000000000, .forkReg 6 20),
    (0b1000001110_101_0000000000000000000, .rdv 5)] = true := by decide

theorem test_decode_task : reads Env.start .s [
    (0b10000011110000000000000000000_110, .tnext 6),
    (0b100001_000011_000001_0000000000_1001, .tqput 3 1 9),
    (0b100001000000_000001_00000000010000, .tqwait 1),
    (0b100001_000011_000001_00000000100000, .tqtest 3 1),
    (0b100001_000011_000001_00000000110000, .gtake 3 1)] = true := by decide

theorem test_decode_vector_arithmetic : reads Env.start .v [
    (0b00000001_0001_00000000_0000_00_010_01001_00000010000100_00000100000111_11000001010000_00_0_010_0_0000000000000, .vadd ⟨⟨1, 0, 0, 0, 2, 0⟩, 9, ⟨0, 2, 8⟩, ⟨1, 3, 16⟩, ⟨0, 0, 773⟩, 0, 2, 0⟩),
    (0b00000010_0011_10000001_0101_01_000_01001_00000010000000_10101100100001_00000010010001_00_1_010_0_0000000000000, .vsub ⟨⟨3, 129, 5, 1, 0, 0⟩, 9, ⟨0, 0, 8⟩, ⟨1, 0, 690⟩, ⟨1, 0, 9⟩, 1, 2, 0⟩),
    (0b00000011_0011_10000001_0101_01_000_01001_00000010000000_10101100100001_00000010010001_00_1_010_0_0000000000000, .vmul ⟨⟨3, 129, 5, 1, 0, 0⟩, 9, ⟨0, 0, 8⟩, ⟨1, 0, 690⟩, ⟨1, 0, 9⟩, 1, 2, 0⟩),
    (0b00000100_0011_10000001_0101_01_000_01001_00000010000000_10101100100001_00000010010001_00_1_010_0_0000000000000, .vfma ⟨⟨3, 129, 5, 1, 0, 0⟩, 9, ⟨0, 0, 8⟩, ⟨1, 0, 690⟩, ⟨1, 0, 9⟩, 1, 2, 0⟩),
    (0b00000101_0011_10000001_0101_01_000_01001_00000010000000_10101100100001_00000010010001_00_1_010_0_0000000000000, .vmin ⟨⟨3, 129, 5, 1, 0, 0⟩, 9, ⟨0, 0, 8⟩, ⟨1, 0, 690⟩, ⟨1, 0, 9⟩, 1, 2, 0⟩),
    (0b00000110_0011_10000001_0101_01_000_01001_00000010000000_10101100100001_00000010010001_00_1_010_0_0000000000000, .vmax ⟨⟨3, 129, 5, 1, 0, 0⟩, 9, ⟨0, 0, 8⟩, ⟨1, 0, 690⟩, ⟨1, 0, 9⟩, 1, 2, 0⟩),
    (0b00000111_0011_10000001_0101_01_000_01010_00000010000000_00000010010000_00000000000000_00_0_010_0_0000000000000, .vabs ⟨⟨3, 129, 5, 1, 0, 0⟩, 10, ⟨0, 0, 8⟩, ⟨0, 0, 9⟩, ⟨0, 0, 0⟩, 0, 2, 0⟩),
    (0b00001000_0011_10000001_0101_01_000_01010_00000010000000_00000010010000_00000000000000_00_0_010_0_0000000000000, .vneg ⟨⟨3, 129, 5, 1, 0, 0⟩, 10, ⟨0, 0, 8⟩, ⟨0, 0, 9⟩, ⟨0, 0, 0⟩, 0, 2, 0⟩),
    (0b00001001_0011_10000001_0101_01_000_00011_00000010000000_00000010010000_00000010100000_00_0_000_0_0000000000000, .vmulh ⟨⟨3, 129, 5, 1, 0, 0⟩, 3, ⟨0, 0, 8⟩, ⟨0, 0, 9⟩, ⟨0, 0, 10⟩, 0, 0, 0⟩),
    (0b00001010_0000_00010000_0000_00_000_00111_00000010000000_00000010010000_00000010100000_10_0_000_1_0000000000000, .vmad ⟨⟨0, 16, 0, 0, 0, 2⟩, 7, ⟨0, 0, 8⟩, ⟨0, 0, 9⟩, ⟨0, 0, 10⟩, 0, 0, 1⟩),
    (0b00110000_0011_10000001_0101_01_000_01001_00000010000000_00000010010000_00000000000000_00_0_000_0_0000000000000, .vrcp ⟨⟨3, 129, 5, 1, 0, 0⟩, 9, ⟨0, 0, 8⟩, ⟨0, 0, 9⟩, ⟨0, 0, 0⟩, 0, 0, 0⟩),
    (0b00110001_0011_10000001_0101_01_000_01001_00000010000000_00000010010000_00000000000000_00_0_000_0_0000000000000, .vrsqrt ⟨⟨3, 129, 5, 1, 0, 0⟩, 9, ⟨0, 0, 8⟩, ⟨0, 0, 9⟩, ⟨0, 0, 0⟩, 0, 0, 0⟩),
    (0b00110010_0011_10000001_0101_01_000_01001_00000010000000_00000010010000_00000000000000_00_0_000_0_0000000000000, .vsqrt ⟨⟨3, 129, 5, 1, 0, 0⟩, 9, ⟨0, 0, 8⟩, ⟨0, 0, 9⟩, ⟨0, 0, 0⟩, 0, 0, 0⟩),
    (0b00110011_0011_10000001_0101_01_000_01001_00000010000000_00000010010000_00000000000000_00_0_000_0_0000000000000, .vexp2 ⟨⟨3, 129, 5, 1, 0, 0⟩, 9, ⟨0, 0, 8⟩, ⟨0, 0, 9⟩, ⟨0, 0, 0⟩, 0, 0, 0⟩),
    (0b00110100_0011_10000001_0101_01_000_01001_00000010000000_00000010010000_00000000000000_00_0_000_0_0000000000000, .vlog2 ⟨⟨3, 129, 5, 1, 0, 0⟩, 9, ⟨0, 0, 8⟩, ⟨0, 0, 9⟩, ⟨0, 0, 0⟩, 0, 0, 0⟩),
    (0b00110101_0011_10000001_0101_01_000_01001_00000010000000_00000010010000_00000000000000_00_0_000_0_0000000000000, .vsinpi ⟨⟨3, 129, 5, 1, 0, 0⟩, 9, ⟨0, 0, 8⟩, ⟨0, 0, 9⟩, ⟨0, 0, 0⟩, 0, 0, 0⟩),
    (0b00110110_0011_10000001_0101_01_000_01001_00000010000000_00000010010000_00000000000000_00_0_000_0_0000000000000, .vcospi ⟨⟨3, 129, 5, 1, 0, 0⟩, 9, ⟨0, 0, 8⟩, ⟨0, 0, 9⟩, ⟨0, 0, 0⟩, 0, 0, 0⟩),
    (0b00100000_0011_10000001_0101_01_000_01001_00000000110000_00000010000000_00000010010000_00_1_0000_010_0000000000, .vcmp ⟨⟨3, 129, 5, 1, 0, 0⟩, 9, ⟨0, 0, 3⟩, ⟨0, 0, 8⟩, ⟨0, 0, 9⟩, 1, 2⟩),
    (0b00101000_0011_10000001_0101_01_000_01100_00000010000000_00000010010000_00000000000000_00_0_010_1_01001_00000000, .vcvt ⟨⟨3, 129, 5, 1, 0, 0⟩, 12, ⟨0, 0, 8⟩, ⟨0, 0, 9⟩, 2, 1, 9⟩)] = true := by decide

theorem test_decode_vector_bits : reads Env.start .v [
    (0b00010000_0011_10000001_0101_01_000_00011_00000010000000_00000010010000_00000000000000_00_0000000000000_10011, .vshl ⟨⟨3, 129, 5, 1, 0, 0⟩, 3, ⟨0, 0, 8⟩, ⟨0, 0, 9⟩, ⟨0, 0, 0⟩, 19⟩),
    (0b00010001_0011_10000001_0101_01_000_00111_00000010000000_00000010010000_00000000000000_00_0000000000000_10011, .vshr ⟨⟨3, 129, 5, 1, 0, 0⟩, 7, ⟨0, 0, 8⟩, ⟨0, 0, 9⟩, ⟨0, 0, 0⟩, 19⟩),
    (0b00010010_0011_10000001_0101_01_000_00111_00000010000000_00000010010000_00000000000000_00_0000000000000_10011, .vrot ⟨⟨3, 129, 5, 1, 0, 0⟩, 7, ⟨0, 0, 8⟩, ⟨0, 0, 9⟩, ⟨0, 0, 0⟩, 19⟩),
    (0b00010100_0011_10000001_0101_01_000_00111_00000010000000_10110000000000_00000010100000_00_0000000000000_00000, .vand ⟨⟨3, 129, 5, 1, 0, 0⟩, 7, ⟨0, 0, 8⟩, ⟨0, 0, 704⟩, ⟨0, 0, 10⟩, 0⟩),
    (0b00010101_0011_10000001_0101_01_000_00111_00000010000000_10110000000000_00000010100000_00_0000000000000_00000, .vor ⟨⟨3, 129, 5, 1, 0, 0⟩, 7, ⟨0, 0, 8⟩, ⟨0, 0, 704⟩, ⟨0, 0, 10⟩, 0⟩),
    (0b00010110_0011_10000001_0101_01_000_00111_00000010000000_10110000000000_00000010100000_00_0000000000000_00000, .vxor ⟨⟨3, 129, 5, 1, 0, 0⟩, 7, ⟨0, 0, 8⟩, ⟨0, 0, 704⟩, ⟨0, 0, 10⟩, 0⟩),
    (0b00010111_0011_10000001_0101_01_000_00111_00000010000000_10110000000000_00000010100000_00_0000000000000_00000, .vandn ⟨⟨3, 129, 5, 1, 0, 0⟩, 7, ⟨0, 0, 8⟩, ⟨0, 0, 704⟩, ⟨0, 0, 10⟩, 0⟩),
    (0b00011000_0011_10000001_0101_01_000_00111_00000010000000_00000010010000_00000000000000_00_0000000000000_00000, .vclz ⟨⟨3, 129, 5, 1, 0, 0⟩, 7, ⟨0, 0, 8⟩, ⟨0, 0, 9⟩, ⟨0, 0, 0⟩, 0⟩),
    (0b00011001_0011_10000001_0101_01_000_00111_00000010000000_00000010010000_00000000000000_00_0000000000000_00000, .vpopc ⟨⟨3, 129, 5, 1, 0, 0⟩, 7, ⟨0, 0, 8⟩, ⟨0, 0, 9⟩, ⟨0, 0, 0⟩, 0⟩),
    (0b00011010_0011_10000001_0101_01_000_00111_00000010000000_00000010010000_00000010100000_00_0000000000000_00000, .vbilvTwo ⟨⟨3, 129, 5, 1, 0, 0⟩, 7, ⟨0, 0, 8⟩, ⟨0, 0, 9⟩, ⟨0, 0, 10⟩, 0⟩),
    (0b00011010_0011_10000001_0101_01_000_00111_00000010000000_00000010010000_00000010100000_00_0000000000000_00001, .vbilvThree ⟨⟨3, 129, 5, 1, 0, 0⟩, 7, ⟨0, 0, 8⟩, ⟨0, 0, 9⟩, ⟨0, 0, 10⟩, 1⟩),
    (0b00100001_0011_10000001_0101_01_000_00000_00000000110000_00000001000000_00000001010000_00_0000000000000_00000, .vmlogAnd ⟨⟨3, 129, 5, 1, 0, 0⟩, 0, ⟨0, 0, 3⟩, ⟨0, 0, 4⟩, ⟨0, 0, 5⟩, 0⟩),
    (0b00100001_0011_10000001_0101_01_000_00000_00000000110000_00000001000000_00000001010000_00_0000000000000_00001, .vmlogOr ⟨⟨3, 129, 5, 1, 0, 0⟩, 0, ⟨0, 0, 3⟩, ⟨0, 0, 4⟩, ⟨0, 0, 5⟩, 1⟩),
    (0b00100001_0011_10000001_0101_01_000_00000_00000000110000_00000001000000_00000001010000_00_0000000000000_00010, .vmlogXor ⟨⟨3, 129, 5, 1, 0, 0⟩, 0, ⟨0, 0, 3⟩, ⟨0, 0, 4⟩, ⟨0, 0, 5⟩, 2⟩),
    (0b00100001_0011_10000001_0101_01_000_00000_00000000110000_00000001000000_00000001010000_00_0000000000000_00011, .vmlogAndn ⟨⟨3, 129, 5, 1, 0, 0⟩, 0, ⟨0, 0, 3⟩, ⟨0, 0, 4⟩, ⟨0, 0, 5⟩, 3⟩),
    (0b00100001_0011_10000001_0101_01_000_00000_00000000110000_00000001000000_00000000000000_00_0000000000000_00100, .vmlogNot ⟨⟨3, 129, 5, 1, 0, 0⟩, 0, ⟨0, 0, 3⟩, ⟨0, 0, 4⟩, ⟨0, 0, 0⟩, 4⟩),
    (0b00100001_0011_10000001_0101_01_000_00000_00000000110000_00000001000000_00000000000000_00_0000000000000_00101, .vmlogMov ⟨⟨3, 129, 5, 1, 0, 0⟩, 0, ⟨0, 0, 3⟩, ⟨0, 0, 4⟩, ⟨0, 0, 0⟩, 5⟩),
    (0b00100010_0011_10000001_0101_01_000_00000_10101100010000_00000001000000_00000000000000_00_0000000000000_00000, .vmpop ⟨⟨3, 129, 5, 1, 0, 0⟩, 0, ⟨0, 0, 689⟩, ⟨0, 0, 4⟩, ⟨0, 0, 0⟩, 0⟩),
    (0b00100011_0011_10000001_0101_01_000_00000_00000000000000_00000001000000_00000000000000_00_0000000000000_00110, .vsig ⟨⟨3, 129, 5, 1, 0, 0⟩, 0, ⟨0, 0, 0⟩, ⟨0, 0, 4⟩, ⟨0, 0, 0⟩, 6⟩),
    (0b00100100_0011_10000001_0101_01_000_00000_00000010000000_00000010010000_00000010100000_00_0000000000000_00111, .vsel ⟨⟨3, 129, 5, 1, 0, 0⟩, 0, ⟨0, 0, 8⟩, ⟨0, 0, 9⟩, ⟨0, 0, 10⟩, 7⟩),
    (0b00100101_0011_10000001_0101_01_000_00000_10101100010000_00000010010000_00000000000000_00_0000000000000_00000, .vtos ⟨⟨3, 129, 5, 1, 0, 0⟩, 0, ⟨0, 0, 689⟩, ⟨0, 0, 9⟩, ⟨0, 0, 0⟩, 0⟩),
    (0b00100110_0011_10000001_0101_01_000_00000_00000010000000_00000010010000_00000000000000_00_0000000000000_00000, .vmov ⟨⟨3, 129, 5, 1, 0, 0⟩, 0, ⟨0, 0, 8⟩, ⟨0, 0, 9⟩, ⟨0, 0, 0⟩, 0⟩),
    (0b01000000_0011_10000001_0101_01_000_00000_00000010000000_00000010010000_00000010100000_00_0000000000000_00000, .vshuf ⟨⟨3, 129, 5, 1, 0, 0⟩, 0, ⟨0, 0, 8⟩, ⟨0, 0, 9⟩, ⟨0, 0, 10⟩, 0⟩),
    (0b01000001_0011_10000001_0101_01_000_00000_00000010000000_00000010010000_00000000000000_00_0000000000000_10101, .vrotl ⟨⟨3, 129, 5, 1, 0, 0⟩, 0, ⟨0, 0, 8⟩, ⟨0, 0, 9⟩, ⟨0, 0, 0⟩, 21⟩),
    (0b01000010_0011_10000001_0101_01_000_00000_00000010000000_00000010010000_00000000000000_00_0000000000000_10101, .vbcast ⟨⟨3, 129, 5, 1, 0, 0⟩, 0, ⟨0, 0, 8⟩, ⟨0, 0, 9⟩, ⟨0, 0, 0⟩, 21⟩),
    (0b01000011_0011_10000001_0101_01_000_01001_00000010000000_00000010010000_00000000000000_00_0000000000000_00000, .vredAdd ⟨⟨3, 129, 5, 1, 0, 0⟩, 9, ⟨0, 0, 8⟩, ⟨0, 0, 9⟩, ⟨0, 0, 0⟩, 0⟩),
    (0b01000011_0011_10000001_0101_01_000_01001_00000010000000_00000010010000_00000000000000_00_0000000000000_00001, .vredMin ⟨⟨3, 129, 5, 1, 0, 0⟩, 9, ⟨0, 0, 8⟩, ⟨0, 0, 9⟩, ⟨0, 0, 0⟩, 1⟩),
    (0b01000011_0011_10000001_0101_01_000_01001_00000010000000_00000010010000_00000000000000_00_0000000000000_00010, .vredMax ⟨⟨3, 129, 5, 1, 0, 0⟩, 9, ⟨0, 0, 8⟩, ⟨0, 0, 9⟩, ⟨0, 0, 0⟩, 2⟩)] = true := by decide

theorem test_decode_vector_memory : reads Env.start .v [
    (0b01010000_0011_10000001_0101_01_000_01001_00000010000000_10101100100000_00000000000000_00_000_110_1001_100_00000, .vld ⟨⟨3, 129, 5, 1, 0, 0⟩, 9, ⟨0, 0, 8⟩, ⟨0, 0, 690⟩, ⟨0, 0, 0⟩, 0, 6, 9, 4, 0⟩),
    (0b01010001_0011_10000001_0101_01_000_01010_00000010000000_10101100100000_10101100110000_00_100_110_1001_100_00000, .vldx ⟨⟨3, 129, 5, 1, 0, 0⟩, 10, ⟨0, 0, 8⟩, ⟨0, 0, 690⟩, ⟨0, 0, 691⟩, 4, 6, 9, 4, 0⟩),
    (0b01010010_0011_10000001_0101_01_000_00011_00000010000000_10101100100000_00000010100000_00_011_110_1001_100_00000, .vgath ⟨⟨3, 129, 5, 1, 0, 0⟩, 3, ⟨0, 0, 8⟩, ⟨0, 0, 690⟩, ⟨0, 0, 10⟩, 3, 6, 9, 4, 0⟩),
    (0b01010000_0011_00000001_0000_00_000_00111_00000010000000_00000000000000_00000000000000_00_110_110_0000_000_00010, .vldDq ⟨⟨3, 1, 0, 0, 0, 0⟩, 7, ⟨0, 0, 8⟩, ⟨0, 0, 0⟩, ⟨0, 0, 0⟩, 6, 6, 0, 0, 2⟩),
    (0b01010011_0011_10000001_0101_01_000_01001_00000010000000_10101100100000_00000000000000_00_000_110_1001_100_00000, .vst ⟨⟨3, 129, 5, 1, 0, 0⟩, 9, ⟨0, 0, 8⟩, ⟨0, 0, 690⟩, ⟨0, 0, 0⟩, 0, 6, 9, 4, 0⟩),
    (0b01010100_0011_10000001_0101_01_000_01010_00000010000000_10101100100000_10101100110000_00_101_110_1001_100_00000, .vstx ⟨⟨3, 129, 5, 1, 0, 0⟩, 10, ⟨0, 0, 8⟩, ⟨0, 0, 690⟩, ⟨0, 0, 691⟩, 5, 6, 9, 4, 0⟩),
    (0b01010101_0011_10000001_0101_01_000_00011_00000010000000_10101100100000_00000010100000_00_001_110_1001_100_00000, .vscat ⟨⟨3, 129, 5, 1, 0, 0⟩, 3, ⟨0, 0, 8⟩, ⟨0, 0, 690⟩, ⟨0, 0, 10⟩, 1, 6, 9, 4, 0⟩),
    (0b01010011_0011_00000001_0000_00_000_00111_00000010000000_00000000000000_00000000000000_00_110_110_0000_000_00010, .vstDq ⟨⟨3, 1, 0, 0, 0, 0⟩, 7, ⟨0, 0, 8⟩, ⟨0, 0, 0⟩, ⟨0, 0, 0⟩, 6, 6, 0, 0, 2⟩),
    (0b01010110_0011_10000001_0101_01_000_00011_00000010000000_10101100100000_00000010100000_00_000_110_1001_100_00000, .vatomAdd ⟨⟨3, 129, 5, 1, 0, 0⟩, 3, ⟨0, 0, 8⟩, ⟨0, 0, 690⟩, ⟨0, 0, 10⟩, 0, 6, 9, 4, 0⟩),
    (0b01010110_0011_10000001_0101_01_000_00011_00000010000000_10101100100000_00000010100000_00_000_110_1001_100_10001, .vatomAnd ⟨⟨3, 129, 5, 1, 0, 0⟩, 3, ⟨0, 0, 8⟩, ⟨0, 0, 690⟩, ⟨0, 0, 10⟩, 0, 6, 9, 4, 17⟩),
    (0b01010110_0011_10000001_0101_01_000_00011_00000010000000_10101100100000_00000010100000_00_000_110_1001_100_00010, .vatomOr ⟨⟨3, 129, 5, 1, 0, 0⟩, 3, ⟨0, 0, 8⟩, ⟨0, 0, 690⟩, ⟨0, 0, 10⟩, 0, 6, 9, 4, 2⟩),
    (0b01010110_0011_10000001_0101_01_000_00011_00000010000000_10101100100000_00000010100000_00_000_110_1001_100_10011, .vatomXor ⟨⟨3, 129, 5, 1, 0, 0⟩, 3, ⟨0, 0, 8⟩, ⟨0, 0, 690⟩, ⟨0, 0, 10⟩, 0, 6, 9, 4, 19⟩),
    (0b01010110_0011_10000001_0101_01_000_00011_00000010000000_10101100100000_00000010100000_00_000_110_1001_100_00100, .vatomMinS ⟨⟨3, 129, 5, 1, 0, 0⟩, 3, ⟨0, 0, 8⟩, ⟨0, 0, 690⟩, ⟨0, 0, 10⟩, 0, 6, 9, 4, 4⟩),
    (0b01010110_0011_10000001_0101_01_000_00011_00000010000000_10101100100000_00000010100000_00_000_110_1001_100_10101, .vatomMaxS ⟨⟨3, 129, 5, 1, 0, 0⟩, 3, ⟨0, 0, 8⟩, ⟨0, 0, 690⟩, ⟨0, 0, 10⟩, 0, 6, 9, 4, 21⟩),
    (0b01010110_0011_10000001_0101_01_000_00011_00000010000000_10101100100000_00000010100000_00_000_110_1001_100_00110, .vatomMinN ⟨⟨3, 129, 5, 1, 0, 0⟩, 3, ⟨0, 0, 8⟩, ⟨0, 0, 690⟩, ⟨0, 0, 10⟩, 0, 6, 9, 4, 6⟩),
    (0b01010110_0011_10000001_0101_01_000_00011_00000010000000_10101100100000_00000010100000_00_000_110_1001_100_10111, .vatomMaxN ⟨⟨3, 129, 5, 1, 0, 0⟩, 3, ⟨0, 0, 8⟩, ⟨0, 0, 690⟩, ⟨0, 0, 10⟩, 0, 6, 9, 4, 23⟩),
    (0b01010110_0011_10000001_0101_01_000_00011_00000010000000_10101100100000_00000010100000_00_000_110_1001_100_01000, .vatomSwap ⟨⟨3, 129, 5, 1, 0, 0⟩, 3, ⟨0, 0, 8⟩, ⟨0, 0, 690⟩, ⟨0, 0, 10⟩, 0, 6, 9, 4, 8⟩),
    (0b01010110_0011_10000001_0101_01_000_00011_00000010000000_10101100100000_00000010100000_00_000_110_1001_100_11001, .vatomCas ⟨⟨3, 129, 5, 1, 0, 0⟩, 3, ⟨0, 0, 8⟩, ⟨0, 0, 690⟩, ⟨0, 0, 10⟩, 0, 6, 9, 4, 25⟩),
    (0b01010111_0011_10000001_0101_01_000_01100_00000010000000_10101100100000_00000000000000_00_000_110_1001_100_00000, .vlds ⟨⟨3, 129, 5, 1, 0, 0⟩, 12, ⟨0, 0, 8⟩, ⟨0, 0, 690⟩, ⟨0, 0, 0⟩, 0, 6, 9, 4, 0⟩),
    (0b01011000_0011_10000001_0101_01_000_00000_00000010000000_10101100100000_00000010100000_00_100_110_1001_100_00000, .vcp16 ⟨⟨3, 129, 5, 1, 0, 0⟩, 0, ⟨0, 0, 8⟩, ⟨0, 0, 690⟩, ⟨0, 0, 10⟩, 4, 6, 9, 4, 0⟩)] = true := by decide

theorem test_decode_graphics : reads graphicsEnv .v [
    (0b01100000_0011_10000001_0101_01_000_01010_00000010000000_00000100000000_00000010100000_00_000_110_000000110001, .tex ⟨⟨3, 129, 5, 1, 0, 0⟩, 10, ⟨0, 0, 8⟩, ⟨0, 0, 16⟩, ⟨0, 0, 10⟩, 6, 49⟩),
    (0b01100001_0011_10000001_0101_01_000_01001_00000010000000_00000100000000_00000000000000_00_000_110_000000110001, .tex3 ⟨⟨3, 129, 5, 1, 0, 0⟩, 9, ⟨0, 0, 8⟩, ⟨0, 0, 16⟩, ⟨0, 0, 0⟩, 6, 49⟩),
    (0b01100010_0011_10000001_0101_01_000_00000_00000010000000_00000100000000_00000000000000_00_000_110_000000100010, .rayq ⟨⟨3, 129, 5, 1, 0, 0⟩, 0, ⟨0, 0, 8⟩, ⟨0, 0, 16⟩, ⟨0, 0, 0⟩, 6, 34⟩),
    (0b01100011_0011_10000001_0101_01_000_00000_00000000000000_00000100000000_00000010100000_00_000_110_000000010011, .pexp ⟨⟨3, 129, 5, 1, 0, 0⟩, 0, ⟨0, 0, 0⟩, ⟨0, 0, 16⟩, ⟨0, 0, 10⟩, 6, 19⟩)] = true := by decide

theorem test_decode_vector_control : reads Env.start .v [
    (0b11110000_0011_10000001_00000000000000_101_1_0_000000000_0000000000000000000000000000_00_111111111111111100, .vBrf 3 129 5 1 0 262140),
    (0b11110001_0011_10000001_0000000000000000000000000000000000000000000000000000000000000000000000000000, .vRdv 3 129),
    (0b11110010_0011_10000001_0000000000000000000000000000000000000000000000000000000000000000000000000000, .vHalt 3 129)] = true := by decide

theorem test_decode_matrix : reads Env.start .m [
    (0b00000001_00000001_0011_10000001_000_01010_01011_101_1_000000000111_1000000000000001_0000000001000000_000000001001_0000000000000011_0111111111111111_00100000_1_0_001_00000110_1001_1100100_1100011_0000000000_0000000000, .mstep ⟨3, 129, 1, 10, 11, 5, 1, 7, 32769, 64, 9, 3, 32767, 32, 1, 0, 1, 6, 9, 100, 99⟩),
    (0b00000010_00000000_0011_10000001_000_00000_00000_100_0_001111101000_1111111111111111_0000000000000010_000000000110_0000000000000011_0000000000000100_00000000_0_0_000_00000000_0000_0000000_0000000_0000000000_0000000000, .mnset ⟨3, 129, 4, 1000, 65535, 2, 3, 4, 6⟩),
    (0b00000011_00000000_0011_10000001_000_01010_01011_101_1_000000000111_1000000000000001_0000000001000000_000000001001_0000000000000011_0111111111111111_00100000_1_0_001_00000110_1001_1100100_1100011_0000000000_0000000000, .mngo ⟨3, 129, 0, 10, 11, 5, 1, 7, 32769, 64, 9, 3, 32767, 32, 1, 0, 1, 6, 9, 100, 99⟩),
    (0b00000100_00000000_0011_10000001_000_00000_00000_000_0_000000000000_0000000000000000_0000000000000000_000000000000_0000000000000000_0000000000000000_00000000_0_0_000_00000000_0000_0000000_0000000_0000000000_0000000000, .mnstop 3 129),
    (0b00000101_00000000_0011_10000001_000_00000_00000_110_0_000000000000_0000000000000000_0000000000000000_000000000000_0000000000000000_0000000000000000_00000000_0_0_000_00000000_0000_0000000_0000000_0000000000_0000000000, .mzero 3 129 6),
    (0b00000110_00000000_0011_10000001_000_00000_00000_110_0_000000000000_0000000000000000_0000000000000000_000000000000_0000000000000000_0000000000000000_00000000_0_0_000_00000000_0000_0000000_0000000_0000000000_0000000000, .mrel 3 129 6),
    (0b00000111_00000000_0011_10000001_010_00000_00000_110_0_000000000000_0000000000001000_0000000000000000_000000000000_0000000000000000_0000000000000000_00000000_0_0_000_00000000_0000_0000111_0000000_0010000000_0000000000, .mread ⟨3, 129, 2, 0, 6, 8, 7, 128⟩),
    (0b00001000_00000000_0011_10000001_000_00000_00000_110_0_000000000000_0000000000001000_0000000000000000_000000000000_0000000000000000_0000000000000000_00000000_0_0_000_00000000_0000_0000011_0000000_0010000000_0000000000, .mwrite ⟨3, 129, 0, 0, 6, 8, 3, 128⟩),
    (0b00001001_00000000_0011_10000001_000_00000_00000_100_0_000000000010_0000000000000000_0000000000000000_000011001100_0000000000000000_0000000000000000_00000000_0_0_000_00000000_0000_0000000_0000000_0011001000_0000000000, .msca ⟨3, 129, 4, 2, 200, 204⟩),
    (0b00001010_00000000_0011_10000001_010_00000_01011_110_0_000000000000_0000000000001000_0000000000000000_000000000000_0000000000000000_0000000000000000_00000000_0_0_000_00000000_0000_0000111_0000000_0010000000_0000000000, .mcvt ⟨3, 129, 2, 11, 6, 8, 7, 128⟩),
    (0b00001011_00000000_0011_10000001_101_00000_00000_000_0_000000000000_0000000000000000_0000000000000000_000000000000_0000000000000000_0000000000000000_00000000_0_0_000_00000000_0000_0000000_0000000_0000000000_0000000000, .mproNone 3 129 5 0),
    (0b00001011_00000000_0011_10000001_101_00000_00000_000_0_000000000000_0000000000000000_0000000000000000_000000000000_0000000000000000_0000000000000000_00000000_0_0_001_11001000_0000_0000000_0000000_0000000000_0000000000, .mproInt4 3 129 5 200),
    (0b00001011_00000000_0011_10000001_101_00000_00000_000_0_000000000000_0000000000000000_0000000000000000_000000000000_0000000000000000_0000000000000000_00000000_0_0_010_11001000_0000_0000000_0000000_0000000000_0000000000, .mproCb3 3 129 5 200),
    (0b00001011_00000000_0011_10000001_101_00000_00000_000_0_000000000000_0000000000000000_0000000000000000_000000000000_0000000000000000_0000000000000000_00000000_0_0_011_11001000_0000_0000000_0000000_0000000000_0000000000, .mproCb4 3 129 5 200),
    (0b00001011_00000000_0011_10000001_101_00000_00000_000_0_000000000000_0000000000000000_0000000000000000_000000000000_0000000000000000_0000000000000000_00000000_0_0_100_11001000_0000_0000000_0000000_0000000000_0000000000, .mproBmap 3 129 5 200),
    (0b11110000_00000010_0011_10000001_000_00000_00000_110_0_000000000000_1111111111111100_0000000000000000_000000000000_0000000000000000_0000000000000000_00000000_0_0_000_00000000_0000_0000000_0000000_0000000000_0000000000, .mBrf 3 129 6 1 0 65532),
    (0b11110001_00000000_0011_10000001_000_00000_00000_000_0_000000000000_0000000000000000_0000000000000000_000000000000_0000000000000000_0000000000000000_00000000_0_0_000_00000000_0000_0000000_0000000_0000000000_0000000000, .mRdv 3 129),
    (0b11110010_00000000_0011_10000001_000_00000_00000_000_0_000000000000_0000000000000000_0000000000000000_000000000000_0000000000000000_0000000000000000_00000000_0_0_000_00000000_0000_0000000_0000000_0000000000_0000000000, .mHalt 3 129)] = true := by decide

theorem test_decode_copy : reads Env.start .k [
    (0b00000001_0011_10000001_101_00000000_100_1001_101010111100_1000000000000001_0111111111111110_1100100_0000011, .cpyKh ⟨3, 129, 5, 4, 9⟩ ⟨3, 100, 32766, 32769, 2748⟩),
    (0b00000001_0011_10000001_101_00000001_011_1001_110000_110001_110010_1000000000000000000000000000000000000001, .cpyKr ⟨3, 129, 5, 3, 9⟩ ⟨549755813889, 50, 49, 48⟩),
    (0b00000010_0011_10000001_101_00000000_000_1001_110000_110001_000000_1000000000000000000000000000000000000001, .cpysg ⟨3, 129, 5, 0, 9⟩ ⟨549755813889, 0, 49, 48⟩),
    (0b00000011_0011_10000001_101_00000000_100_1001_101010111100_1000000000000001_0111111111111110_1100100_0000011, .cpymcKh ⟨3, 129, 5, 4, 9⟩ ⟨3, 100, 32766, 32769, 2748⟩),
    (0b00000011_0011_10000001_101_00000001_100_1001_110000_110001_110010_1000000000000000000000000000000000000001, .cpymcKr ⟨3, 129, 5, 4, 9⟩ ⟨549755813889, 50, 49, 48⟩),
    (0b00000100_0011_10000001_101_00000000_010_1001_110000_110001_110010_1000000000000000000000000000000000000001, .scatNative ⟨3, 129, 5, 2, 9⟩ ⟨549755813889, 50, 49, 48⟩),
    (0b00000100_0011_10000001_101_00010001_010_1001_110000_110001_110010_1000000000000000000000000000000000000001, .scatStrain ⟨3, 129, 5, 2, 9⟩ 4 ⟨549755813889, 50, 49, 48⟩),
    (0b00000101_0011_10000001_101_00000000_001_1001_110000_110001_110010_1000000000000000000000000000000000000001, .gath ⟨3, 129, 5, 1, 9⟩ ⟨549755813889, 50, 49, 48⟩),
    (0b00000110_0011_10000001_101_00010000_010_1001_110000_110001_000000_0011100000000000000000000000000000000001, .collAllred ⟨3, 129, 5, 2, 9⟩ 4 ⟨240518168577, 0, 49, 48⟩),
    (0b00000110_0011_10000001_101_00010101_011_1001_110000_110001_000000_0011100000000000000000000000000000000001, .collRedsc ⟨3, 129, 5, 3, 9⟩ 5 ⟨240518168577, 0, 49, 48⟩),
    (0b00000110_0011_10000001_101_00000010_011_1001_110000_110001_000000_1000000000000000000000000000000000000001, .collGath ⟨3, 129, 5, 3, 9⟩ 0 ⟨549755813889, 0, 49, 48⟩),
    (0b00000111_0011_10000001_101_00000000_000_1001_110000_000000_000000_1000000000000000000000000000000000000001, .xfmTr ⟨3, 129, 5, 0, 9⟩ ⟨549755813889, 0, 0, 48⟩),
    (0b00000111_0011_10000001_101_00000001_000_1001_110000_000000_000000_1000000000000000000000000000000000000001, .xfmCvt ⟨3, 129, 5, 0, 9⟩ ⟨549755813889, 0, 0, 48⟩),
    (0b00000111_0011_10000001_101_00000010_000_1001_110000_110001_000000_1000000000000000000000000000000000000001, .xfmBdb ⟨3, 129, 5, 0, 9⟩ ⟨549755813889, 0, 49, 48⟩),
    (0b00000111_0011_10000001_101_00000011_000_1001_110000_000000_000000_1000000000000000000000000000000000000001, .xfmPsum ⟨3, 129, 5, 0, 9⟩ ⟨549755813889, 0, 0, 48⟩),
    (0b00001000_0011_10000001_101_00000000_000_1001_110000_110001_000000_0000000000000000000000000000000000000000, .jsub ⟨3, 129, 5, 0, 9⟩ ⟨0, 0, 49, 48⟩),
    (0b00001001_0011_10000001_101_00000010_110_1001_101010111100_1000000000000001_0111111111111110_1100100_0000011, .dqpushKh ⟨3, 129, 5, 6, 9⟩ 2 ⟨3, 100, 32766, 32769, 2748⟩),
    (0b00001001_0011_10000001_101_00000111_110_1001_110000_000000_110010_0000000000000000000000000000000001000000, .dqpushKr ⟨3, 129, 5, 6, 9⟩ 3 ⟨64, 50, 0, 48⟩),
    (0b00001010_0011_10000001_101_00000001_110_1001_101010111100_1000000000000001_0111111111111110_1100100_0000011, .dqpopKh ⟨3, 129, 5, 6, 9⟩ 1 ⟨3, 100, 32766, 32769, 2748⟩),
    (0b00001010_0011_10000001_101_00000100_110_1001_110000_000000_110010_0000000000000000000000000000000001000000, .dqpopKr ⟨3, 129, 5, 6, 9⟩ 0 ⟨64, 50, 0, 48⟩),
    (0b00001011_0011_10000001_101_00000000_000_1001_110000_110001_000000_0000000000000000000000000000000000000000, .sqgo ⟨3, 129, 5, 0, 9⟩ ⟨0, 0, 49, 48⟩),
    (0b11110000_0011_10000001_000_00000000_000_0000_101_1_0_00000000000000000000000000000000000_111111111111111100, .kBrf 3 129 5 1 0 262140),
    (0b11110001_0011_10000001_000_00000000_000_0000_0000000000000000000000000000000000000000000000000000000000, .kRdv 3 129),
    (0b11110010_0011_10000001_000_00000000_000_0000_0000000000000000000000000000000000000000000000000000000000, .kHalt 3 129),
    (0b11110011_0011_10000001_000_00000000_000_0000_10000001_000110_00000000000000000000000000000000000000000000, .kTokw 3 129 129 6),
    (0b11110100_0011_10000001_000_00000000_011_0000_0000000000000000000000000000000000000000000000000000000000, .kDrain 3 129 3)] = true := by decide

/-! ## States for the tests -/

/-- A crew on NPU core 0 of die 0 whose scalar stream stands at its first word. -/
def crewS : Crew := Crew.absent.atWord 1 .s

/-- A trap handler at word 0x40. -/
def handled (c : Crew) : Crew := { c with bindRec := { c.bindRec with handlerValid := true, handler := 0x40 } }

/-- Every flag enabled for traps (R51). -/
def enabled (c : Crew) : Crew := { c with fcsr := 0x3E000 }

/-- The machine with a crew in front. -/
def with_ (c : Crew) : State := { State.reset with crew := c, nextId := 2 }

/-- The crew's scalar registers set. -/
def regs (c : Crew) (l : List (GReg × Word)) : Crew := l.foldl (fun c x => c.wrG x.1 x.2) c

/-- The same crew on a page whose translation its core holds: 4096 bytes from 0x10000, every right. -/
def onPage : State := State.reset.withFetchWord 32 0x82000000

def pageRegs (l : List (GReg × Word)) : State := { onPage with crew := regs onPage.crew l }

def goes (o : Host.Outcome State Fault Refusal) : Bool :=
  match o with
  | .next _ => true
  | _ => false

theorem next_of_goes {o : Host.Outcome State Fault Refusal} (h : goes o = true) : ∃ t, o = .next t := by
  cases o with
  | next t => exact ⟨t, rfl⟩
  | fault f => cases h
  | refused r => cases h

/-- What a field of the next state is. -/
def after {α : Type} (o : Host.Outcome State Fault Refusal) (f : State → α) : Option α :=
  match o with
  | .next t => some (f t)
  | _ => none

def isOk (t : Tr) : Bool :=
  match t with
  | .ok _ _ => true
  | _ => false

def readyAll (c : Crew) (l : List (Instr × List GReg × GReg)) : Bool := l.all (fun x => c.readyScalar x.1 x.2.1 x.2.2)

/-! ## Single steps, their results from the rules by hand -/

/-- R97: 0xFFFF_FFFF_FFFF_FFFF + 2 wraps to 1. -/
theorem test_add_wraps :
    after (exec (.add 3 1 2) (with_ (regs crewS [(1, 0xFFFFFFFFFFFFFFFF), (2, 2)]))) (fun t => (t.crew.rdG 3, t.crew.s.pc)) = some (1, 1) := by decide

/-- R99: the high half of 2^63 * 2^63, unsigned 2^62, signed 2^62 too; -1 * 2 has high half -1. -/
theorem test_mulh :
    (mulhN 0x8000000000000000 0x8000000000000000 = 0x4000000000000000) ∧ mulhS 0xFFFFFFFFFFFFFFFF 2 = 0xFFFFFFFFFFFFFFFF := by decide

/-- R101: a long constant is extended from bit 19, and the next piece shifts it up. -/
theorem test_lil_lih :
    after (exec (.lil 3 0x80000) (with_ crewS)) (fun t => t.crew.rdG 3) = some 0xFFFFFFFFFFF80000 ∧
    after (exec (.lih 3 0x00001) (with_ (regs crewS [(3, 0x12345)]))) (fun t => t.crew.rdG 3) = some 0x1234500001 := by decide

/-- R97: g0 discards a write. -/
theorem test_g0 : after (exec (.addi 0 1 5) (with_ (regs crewS [(1, 7)]))) (fun t => (t.crew.rdG 0, t.crew.s.pc)) = some (0, 1) := by decide

/-- R104: 1.5 + 2.25 = 3.75 in f32. -/
theorem test_fadd :
    after (exec (.fadd 3 1 2 0 0) (with_ (regs crewS [(1, 0x3FC00000), (2, 0x40100000)]))) (fun t => t.crew.rdG 3) = some 0x40700000 := by decide

/-- R111: JAL links to the word behind and goes to PC + off, backwards too. -/
theorem test_jal :
    after (exec (.jal 5 0x3FFFE) (with_ { crewS with s := { crewS.s with pc := 10 } })) (fun t => (t.crew.rdG 5, t.crew.s.pc)) = some (11, 8) := by
  decide

/-- R107: a signed byte load of 0x80 is in flight, and lands sign-extended. -/
theorem test_load_byte :
    after (exec (.ld 7 1 0 0 0 1 3) (pageRegs [(1, 0x10000)])) (fun t => (t.crew.sres.length, t.crew.s.pc)) = some (1, 1) := by decide

/-- R92, R254: the word 0xFC000000 names no instruction: class 0, detail 0, with the word in sr.tval, at the handler. -/
theorem test_unassigned :
    after (exec (.unassignedOpcode .s 0xFC000000) (with_ (handled crewS))) (fun t => (t.crew.cause, t.crew.tval, t.crew.s.pc)) =
      some (0, 0xFC000000, 0x40) := by decide

/-! ## Hypotheses met: encoding and scalar words -/

theorem test_witness_DecodeEncode :
    (Instr.stream (.add 63 0 1) = some .s ∧ (Instr.add 63 0 1).wf Env.start = true) ∧
    (Instr.stream (.mstep stepW) = some .m ∧ (Instr.mstep stepW).wf Env.start = true) := by decide

theorem test_witness_DecodedIsWellFormed : decode Env.start .s 0x2121C00A = some (.cmpi 2 2 7 10) := by decide

theorem test_witness_IntegerWords : readyAll crewS [
    (.add 3 1 2, [1, 2], 3), (.sub 3 1 2, [1, 2], 3), (.mul 3 1 2, [1, 2], 3), (.mulhS 3 1 2, [1, 2], 3), (.mulhN 3 1 2, [1, 2], 3),
    (.and 3 1 2, [1, 2], 3), (.or 3 1 2, [1, 2], 3), (.xor 3 1 2, [1, 2], 3), (.andn 3 1 2, [1, 2], 3), (.sll 3 1 2, [1, 2], 3),
    (.srl 3 1 2, [1, 2], 3), (.sra 3 1 2, [1, 2], 3), (.rol 3 1 2, [1, 2], 3), (.ror 3 1 2, [1, 2], 3), (.minS 3 1 2, [1, 2], 3),
    (.maxS 3 1 2, [1, 2], 3), (.minN 3 1 2, [1, 2], 3), (.maxN 3 1 2, [1, 2], 3), (.clz 3 1, [1], 3), (.ctz 3 1, [1], 3), (.popc 3 1, [1], 3),
    (.bilv2 3 1 2, [1, 2], 3), (.bilv3 3 1 2, [1, 2, 3], 3), (.adds 0 1 2 7, [1, 2], 0)] = true := by decide

theorem test_witness_IntegerAndFieldFunctions :
    ((1 : Word) ≠ 0 ∧ (0 : Word) = 0) ∧ ((63 : BitVec 6).toNat + (0 : BitVec 6).toNat + 1 ≤ 64 ∧ 63 < 64) ∧
    ((0 : BitVec 6).toNat + (63 : BitVec 6).toNat + 1 ≤ 64 ∧ 0 < 64) := by decide

theorem test_witness_ImmediateAndDivisionWords : readyAll crewS [
    (.addi 3 1 0x3FFF, [1], 3), (.andi 3 1 1, [1], 3), (.ori 3 1 1, [1], 3), (.xori 3 1 1, [1], 3), (.slli 3 1 63, [1], 3), (.srli 3 1 0, [1], 3),
    (.srai 3 1 63, [1], 3), (.rori 3 1 63, [1], 3), (.lil 3 0x80000, [], 3), (.lih 3 1, [3], 3), (.bfxS 3 1 63 0, [1], 3), (.bfxN 3 1 0 63, [1], 3),
    (.bfi 3 1 0 63, [1, 3], 3), (.divS 3 1 2, [1, 2], 3), (.divN 3 1 2, [1, 2], 3), (.remS 3 1 2, [1, 2], 3), (.remN 0 1 2, [1, 2], 0)] = true := by
  decide

theorem test_witness_SelectAndCompare :
    (readyAll (crewS.setFlag 7 true) [(.sel 3 1 2 7, [1, 2], 3)] = true ∧ (crewS.setFlag 7 true).flagFull 7 = true) ∧
    ((5 : BitVec 3).toNat ≤ 5 ∧ readyAll crewS [(.cmp 7 1 2 ((5 : BitVec 3).zeroExtend 8), [1, 2], 0), (.cmpi 5 0 1 0x2000, [1], 0)] = true) ∧
    (8 ≤ (8 : BitVec 8).toNat ∧ (11 : BitVec 8).toNat ≤ 11 ∧ readyAll crewS [(.cmp 0 1 2 8, [1, 2], 0), (.cmp 0 1 2 11, [1, 2], 0)] = true) ∧
    (fmtF32.value ((regs crewS [(1, 0x7FC00000)]).rdG 1).toNat).isNan = true := by decide

theorem test_witness_FloatWords : readyAll crewS [
    (.fadd 3 1 2 4 2, [1, 2], 3), (.fsub 3 1 2 0 0, [1, 2], 3), (.fmul 3 1 2 0 1, [1, 2], 3), (.ffma 3 1 2 0 0, [1, 2, 3], 3), (.fmin 3 1 2 0 0, [1, 2], 3),
    (.fmax 3 1 2 0 0, [1, 2], 3), (.fabs 3 1 0 0, [1], 3), (.fneg 3 1 0 0, [1], 3), (.fcvt 3 1 6 6 4 1, [1], 3)] = true := by decide

theorem test_witness_ScalarRegisters : ((63 : GReg) ≠ 0 ∧ (1 : GReg) ≠ 63) ∧ isShared 48 = true := by decide

theorem test_witness_TransferLeavesLoops : (1 : Nat) < 2 := by decide

theorem test_witness_BranchesJumpsAndBreaks :
    (readyAll crewS [(.brf 0 1 1 5, [], 0), (.jal 1 5, [], 1), (.jalr 1 2 0x1FFF, [2], 1), (.lpbrk 0, [], 0)] = true ∧ crewS.flagFull 0 = false) ∧
    (readyAll (crewS.setFlag 0 true) [(.brf 0 1 1 5, [], 0)] = true ∧ (crewS.setFlag 0 true).flagFull 0 = true) ∧
    SMap.get 0 crewS.lc 0 = 0 ∧
    (readyAll { crewS with lc := [(1, 3)] } [(.lpbrk 1, [], 0)] = true ∧ SMap.get 0 ({ crewS with lc := [(1, 3)] } : Crew).lc 1 ≠ 0) := by decide

/-- An active inner loop breaks LPSET at level 0; an outer one whose last word comes first breaks it at level 1. -/
theorem test_witness_LoopSetup :
    readyAll crewS [(.lpset 0 1 5 9, [], 0), (.lpset 1 0 0x090 4, [9], 0)] = true ∧
    (readyAll { crewS with lc := [(1, 3)] } [(.lpset 0 1 5 9, [], 0)] = true ∧ SMap.get 0 ({ crewS with lc := [(1, 3)] } : Crew).lc 1 ≠ 0) ∧
    (readyAll { crewS with lc := [(0, 3)], le := [(0, 4)] } [(.lpset 1 1 5 5, [], 0)] = true ∧ (4 : Nat) % 2 ^ 18 < (0 : Nat) + 5) ∧
    (SMap.get 0 crewS.lc 0 = 0 ∧ SMap.get 0 crewS.lc 1 = 0) := by decide

theorem test_witness_StreamWords :
    readyAll crewS [(.forkImm 4 7, [], 0), (.forkReg 7 20, [20, 21, 22], 0), (.rdv 7, [], 0), (.yield, [], 0), (.halt, [], 0)] = true ∧
    (∀ r ∈ forkRegs 7 20, (crewS.rdG r).toNat < 2 ^ 18) ∧
    (∀ r ∈ forkRegs 4 20, ((regs crewS [(20, 0x3FFFF)]).rdG r).toNat < 2 ^ 18) ∧ inMask 4 .v = true ∧ inMask 4 .k = false := by decide

theorem test_witness_TokenIndexAndTake :
    (readyAll crewS [(.tokw 0xFF 0, [], 0), (.tnext 1, [], 0), (.gtake 3 4, [4], 3)] = true ∧ isShared 4 = false) ∧
    (∀ i, i < 8 → (0xFF : BitVec 8).getLsbD i = true → SMap.get 0 crewS.tok i ≤ (0 : BitVec 6).toNat) ∧
    (readyAll { crewS with tok := [(7, 1)] } [(.tokw 0x80 0, [], 0)] = true ∧
      (7 < 8 ∧ (0x80 : BitVec 8).getLsbD 7 = true ∧ (0 : BitVec 6).toNat < SMap.get 0 ({ crewS with tok := [(7, 1)] } : Crew).tok 7)) ∧
    (readyAll (regs crewS [(48, 5)]) [(.gtake 3 48, [48], 3)] = true ∧ isShared 48 = true) := by decide

theorem test_witness_SpecialRegisters :
    readyAll crewS [(.srd 3 0x042, [], 3), (.swr 1 0x035, [1], 0), (.srd 3 0xFFF, [], 3), (.swr 1 0x020, [1], 0)] = true ∧
    (crewS.writeSr 0x035 5).isSome = true ∧ (crewS.writeSr 0x000 5).isSome = true := by decide

theorem test_witness_RegisterWordFrame :
    destOf (.add 3 1 2) = some 3 ∧ after (exec (.add 3 1 2) (with_ crewS)) (fun t => t.crew.act) = some crewS.act := by decide

theorem test_witness_FloatWordFrame : floatDestOf (.fadd 3 1 2 0 0) = some 3 ∧ goes (exec (.fadd 3 1 2 0 0) (with_ crewS)) = true := by decide

/-! ## Hypotheses met: traps -/

/-- A trap of the scalar stream that waits. -/
def trapping (c : Crew) : Crew := { c with trap := some { strm := .s, code := causeCode 5 1, tval := 9, epc := 3, pended := false } }

/-- A scalar result in flight. -/
def inFlight (c : Crew) : Crew := { c with sres := [{ id := 1, d := 3, kind := .value 5 }] }

theorem test_witness_TrapEntry :
    ((trapping crewS).trap = some { strm := .s, code := causeCode 5 1, tval := 9, epc := 3, pended := false } ∧ (trapping (inFlight crewS)).inFlight = true) ∧
    ((trapping (handled crewS)).inFlight = false ∧ (trapping (handled crewS)).bindRec.handlerValid = true ∧ (trapping (handled crewS)).act = false) := by
  decide

theorem test_witness_TrapsThatWaitOrHalt :
    ((trapping crewS).trap = some { strm := .s, code := causeCode 5 1, tval := 9, epc := 3, pended := false } ∧ (trapping crewS).inFlight = false ∧
      crewS.bindRec.handlerValid = false) ∧
    ((trapping { handled crewS with act := true }).inFlight = false ∧ (trapping { handled crewS with act := true }).act = true) ∧
    (let c := handled { crewS with v := { Stream.start with status := .running, pend := some ⟨causeCode 3 8, 7⟩, kept := [(⟨causeCode 4 0, 8⟩, some 2)] } }
     (c.strm .v).pend = some ⟨causeCode 3 8, 7⟩ ∧ (c.strm .v).kept = [(⟨causeCode 4 0, 8⟩, some 2)] ∧ c.bindRec.handlerValid = true ∧ c.act = false ∧
      c.inFlight = false ∧ Strm.v ≠ .s) ∧ (crewS.strm .m).pend = none := by decide

theorem test_witness_TrapWordAndFlagTrap :
    (readyAll (handled crewS) [(.trap 63, [], 0)] = true ∧ (handled crewS).bindRec.handlerValid = true ∧ (handled crewS).act = false ∧
      (handled crewS).inFlight = false) ∧
    enabledDetail (fcsrEn crewS.fcsr) 0x1F = none ∧ enabledDetail (fcsrEn (enabled crewS).fcsr) 0x1F = some 0 := by decide

/-- A handler runs, with v held and a trap of v pending. -/
def handling : Crew := { handled crewS with act := true, held := 3, v := { Stream.start with pend := some ⟨causeCode 3 8, 7⟩ } }

theorem test_witness_ReturnFromTrap :
    (readyAll crewS [(.eret, [], 0)] = true ∧ crewS.act = false) ∧ (readyAll handling [(.eret, [], 0)] = true ∧ handling.act = true) ∧
    handling.held.getLsbD (strmNo .v) = true ∧ handling.held.getLsbD (strmNo .k) = false := by decide

/-- The matrix stream at its first word. -/
def crewM : Crew := Crew.absent.atWord 1 .m

theorem test_witness_EncodingTraps :
    (Instr.stream (.mstep { stepW with k := 64 }) = some .m ∧ Strm.m ≠ .v ∧ crewM.canIssue .m = true ∧ (crewM.strm .m).pend = none ∧
      lowest ((Instr.mstep { stepW with k := 64 }).details crewM.env) = some 8) ∧
    (crewS.canIssue .s = true ∧ (crewS.strm .s).pend = none ∧ classZero crewS.env .s 0xFC000000 = some 0) ∧
    ({ crewS with s := { crewS.s with pc := 0x3FFFF } } : Crew).offGrid .s = true := by decide

/-! ## Hypotheses met: scalar memory words, fences, blocks and tasks -/

theorem test_witness_ScalarLoad :
    (let s := pageRegs [(8, 0x10001)]
     s.crew.readyScalar (.ld 7 8 2 0 2 1 1) [8] 7 = true ∧ (s.crew.rdG 8 + BitVec.ofNat 64 4).toNat % 4 ≠ 0) ∧
    (let s := pageRegs [(8, 0x10000)]
     s.crew.readyScalar (.ld 7 8 2 0 3 0 15) [8] 7 = true ∧ (s.crew.rdG 8 + BitVec.ofNat 64 120).toNat % 8 = 0 ∧ s.logged s.crew.agent s.crew.uid .s 2 = false ∧
       s.translate s.crew.agent s.crew.bindRec.asid 0x10078 1 = .ok 0x10078 Att.plain) ∧
    onPage.translate 128 0 0x20000 1 = .miss ∧ onPage.translate 128 0 0x100000000000000 1 = .now 4 ∧
    (pageRegs [(8, 0x20000)]).crew.readyScalar (.ld 7 8 2 0 2 1 0) [8] 7 = true ∧
    (pageRegs [(8, 0x100000000000000)]).crew.readyScalar (.ld 7 8 2 0 2 1 0) [8] 7 = true ∧
    (onPage.setCore 128 { onPage.core 128 with tlb := [{ fetchTlb with r := false }] }).translate 128 0 0x10000 1 = .denied 1 := by decide

theorem test_witness_ScalarStore :
    (let s := pageRegs [(8, 0x10003)]
     s.crew.readyScalar (.st 7 8 2 0 1 0) [8, 7] 0 = true ∧ (s.crew.rdG 8).toNat % 2 ≠ 0) ∧
    (let s := pageRegs [(8, 0x10000)]
     s.crew.readyScalar (.st 7 8 2 0 3 15) [8, 7] 0 = true ∧ s.crew.classPending 2 = false ∧ s.logged s.crew.agent s.crew.uid .s 2 = false ∧
       s.translate s.crew.agent s.crew.bindRec.asid 0x10078 2 = .ok 0x10078 Att.plain) := by decide

theorem test_witness_ScalarAtomics :
    (let s := pageRegs [(8, 0x10004)]
     s.crew.readyScalar (.amoAdd 6 8 2 5 1) [8, 6] 6 = true ∧ (s.crew.rdG 8).toNat % 8 ≠ 0) ∧
    (let s := pageRegs [(8, 0x10008)]
     s.crew.readyScalar (.amoMaxS 6 8 2 5 1) [8, 6] 6 = true ∧ s.crew.readyScalar (.amoCas 6 8 2 5 0) [8, 6, pairReg 6] 6 = true ∧
       s.logged s.crew.agent s.crew.uid .s 2 = false ∧ s.crew.classPending 2 = false ∧
       s.translate s.crew.agent s.crew.bindRec.asid 0x10008 3 = .ok 0x10008 Att.plain) ∧
    (0 < 32 ∧ 0xFFFFFFFF < 2 ^ 32) ∧ (0 < 1 ∧ 1 < 2 ^ 1) := by decide

/-- A store of class 2 outstanding. -/
def storing : State :=
  let s := with_ crewS
  { s with nextId := 3, writes := [s.mkWrite .s 2 2 0 2 0 0x10000 0x10000 [1] none .store Att.plain] }

theorem test_witness_FencesAndBarriers :
    readyAll crewS [(.fence 9 0xFFFF, [], 0), (.efenceCopy 3 1, [], 0), (.efenceColl 3 1, [], 0), (.efenceSolve 3 1, [], 0), (.efenceInfuse 9 1, [], 0),
      (.bar 5 0, [], 0), (.bar 1 4, [], 0)] = true ∧ crewS.kern.bar < 5 ∧ 1 ≤ crewS.kern.bar ∧
    ((with_ crewS).writesPending 4 1 (with_ crewS).markS = false ∧ (with_ crewS).readsPending 4 1 (with_ crewS).markS = false) ∧
    ({ storing with crew := { crewS with kern := { crewS.kern with bar := 3 } } } : State).writesPending 4 3 storing.markS = true := by decide

/-- Task queue 0 of die 0 open for ASID 0, 16 slots from 0x40000. -/
def tasking : State :=
  let s := with_ (regs crewS [(2, 0x30000)])
  s.setDie 0 { s.die 0 with taskQueues := [(0, { TaskQueue.reset with base := 0x40000, ctl := 0x80 })] }

theorem test_witness_FenceAndTaskFrame :
    goes (exec (.tqput 1 2 0) tasking) = true ∧ goes (exec (.tqwait 2) tasking) = true ∧ goes (exec (.tqtest 1 2) tasking) = true ∧
    (0x4000F < (0x40000 : Nat) + 16) := by decide

theorem test_witness_RegisterBlocks :
    (readyAll { crewS with ext := 1 } [(.regacq 4, [], 0), (.regrel, [], 0)] = true ∧ ({ crewS with ext := 1 } : Crew).extBusy = false) ∧
    (readyAll crewS [(.regacq 4, [], 0), (.regrel, [], 0)] = true ∧ crewS.ext = 0 ∧ ((with_ crewS).core crewS.agent).poolWait = [] ∧
      (4 : BitVec 3).toNat ≤ ((with_ crewS).core crewS.agent).poolFree) ∧
    -- at the head of a waiting line, and behind another crew that waits
    (let waiting : Crew := { crewS with uid := 9, s := { crewS.s with wait := .pool } }
     let s : State := { with_ crewS with rest := [waiting] }
     (s.findCrew 9).map (fun c => c.s.wait == .pool) = some true ∧
       (s.setCore 128 { s.core 128 with poolWait := [(9, 4)] }).crew.readyScalar (.regacq 4) [] 0 = true) := by decide

theorem test_witness_TaskWords :
    readyAll tasking.crew [(.tqput 1 2 0, [2], 1), (.tqwait 2, [2], 0), (.tqtest 1 2, [2], 1), (.drain 4, [], 0)] = true ∧
    (SMap.get TaskQueue.reset (tasking.die 0).taskQueues 1).open_ 0 = false ∧
    (let q := SMap.get TaskQueue.reset (tasking.die 0).taskQueues 0
     q.open_ 0 = true ∧ (q.tail.toNat + 1) % q.slots ≠ q.head.toNat ∧ tasking.homesFree 0x40000 16 = true ∧ (tasking.newFence 0 0 0).isSome = true) ∧
    (tasking.setDie 0 { tasking.die 0 with fences := [(0, { Fence.none with state := 0 })] }).newFence 0 0 0 = none := by decide

/-! ## Hypotheses met: vector words -/

/-- The vector stream of a crew on a core that holds the page's translation; the pool's constants are addresses. -/
def onV : State :=
  let s := State.reset.withFetchWord 96 0
  { s with crew := { s.crew with kern := { s.crew.kern with pool := [(0, 0x10000), (1, 0x10002), (2, 0x40), (3, 0x20000)] } } }

/-- A condition that every word of a list is ready in the vector stream. -/
def readyV (s : State) (l : List (Instr × VHdr × VUse)) : Bool := l.all (fun x => s.readyVector x.1 x.2.1 x.2.2 none)

theorem test_witness_VectorWords :
    (let a := laneUse hdr (reg 3) [reg 4] false
     let ab := laneUse hdr (reg 3) [reg 4, reg 5] false
     let abd := laneUse hdr (reg 3) [reg 4, reg 5] true
     let f2 : VArith := { wordA with ty := 9 }
     let n1 : VArith := { wordF with ty := 7 }
     readyV onV [(.vadd wordA, hdr, ab), (.vsub wordA, hdr, ab), (.vmul wordA, hdr, ab), (.vfma f2, hdr, abd), (.vmin wordA, hdr, ab), (.vmax wordA, hdr, ab),
       (.vabs n1, hdr, a), (.vneg n1, hdr, a), (.vmulh wordA, hdr, ab), (.vmad wordA, hdr, abd), (.vrcp wordF, hdr, a), (.vrsqrt wordF, hdr, a),
       (.vsqrt wordF, hdr, a), (.vexp2 wordF, hdr, a), (.vlog2 wordF, hdr, a), (.vsinpi wordF, hdr, a), (.vcospi wordF, hdr, a), (.vcvt wordV, hdr, a)] = true) ∧
    (let a := laneUse hdr (reg 3) [reg 4] false
     let ab := laneUse hdr (reg 3) [reg 4, reg 5] false
     let l0 : VImm := { wordL with ty := 0 }
     let l1 : VImm := { wordL1 with ty := 0 }
     readyV onV [(.vshl { wordL1 with imm := 31 }, hdr, a), (.vshr wordL1, hdr, a), (.vrot wordL1, hdr, a), (.vand wordL, hdr, ab), (.vor wordL, hdr, ab),
       (.vxor wordL, hdr, ab), (.vandn wordL, hdr, ab), (.vclz wordL1, hdr, a), (.vpopc wordL1, hdr, a), (.vbilvTwo wordL, hdr, ab),
       (.vbilvThree { wordL with imm := 1 }, hdr, laneUse hdr (reg 3) [reg 4, reg 5] true), (.vmov l1, hdr, a), (.vsel { l0 with imm := 15 }, hdr, ab),
       (.vshuf l0, hdr, ab), (.vrotl { l1 with imm := 31 }, hdr, a), (.vbcast { l1 with imm := 31 }, hdr, a)] = true) := by decide

theorem test_witness_VectorMasks :
    (let m : VImm := { wordL with ty := 0, d := reg 2, a := reg 15, b := reg 3 }
     let m1 : VImm := { m with b := reg 0 }
     let red := laneUse hdr (reg 3) [reg 4] false
     readyV onV [(.vcmp wordC, hdr, cmpUse wordC), (.vmlogAnd m, hdr, mlogUse m), (.vmlogOr { m with imm := 1 }, hdr, mlogUse m),
       (.vmlogXor { m with imm := 2 }, hdr, mlogUse m), (.vmlogAndn { m with imm := 3 }, hdr, mlogUse m), (.vmlogNot { m1 with imm := 4 }, hdr, mlogUse m1),
       (.vmlogMov { m1 with imm := 5 }, hdr, mlogUse m1), (.vmpop { m1 with d := reg 689 }, hdr, postUse [] (some (reg 689))),
       (.vsig { m1 with d := reg 0, imm := 7 }, hdr, postUse [] none),
       (.vtos { m1 with d := reg 703, a := reg 4 }, hdr, postUse [reg 4] (some (reg 703))),
       (.vredAdd wordL1, hdr, red), (.vredMin { wordL1 with imm := 1 }, hdr, red), (.vredMax { wordL1 with imm := 2 }, hdr, red)] = true) := by decide

theorem test_witness_LaneRule : (3 : BitVec 5) = 3 ∧ (7 : BitVec 5) = 7 := by decide

/-- A window over v3 lanes 0 and 1, mask 2, a shared scalar and a flag, with an enabled floating-point flag. -/
def window : VWin :=
  { id := 9, closes := 4, lanes := [(96, 5), (97, 6)], masks := [(2, 1)], shared := some (48, 7), flag := some (3, true), flags := 1, pc := 0, regs := [3],
    dmasks := [2], tok := none, en := 1, mayFlag := true }

theorem test_witness_WindowLands :
    (let s : State := { onV with crew := { onV.crew with vwin := [window] } }
     s.focus s.crew.uid = some s ∧ s.crew.life = .running ∧ s.crew.vwin.head? = some window) ∧
    (window.lanes.map Prod.fst).Nodup ∧ (window.masks.map Prod.fst).Nodup ∧ (∀ x ∈ window.masks, x.1 ≠ 0) ∧ (48 : GReg) ≠ 0 ∧
    (98 ∉ window.lanes.map Prod.fst) ∧ (enabledDetail window.en window.flags).isSome = true ∧ onV.crew.v.pend = none ∧
    (3 ∉ [4, 5]) ∧ (let w : VWin := { window with lanes := (List.range 32).map (fun j => (96 + j, 5)) }
      3 ∈ w.regs ∧ ∀ j, j < 32 → 32 * 3 + j ∈ w.lanes.map Prod.fst) ∧
    onV.crew.dqWaits window = false ∧
    (let w : VWin := { window with tok := some 1 }
     ({ onV.crew with array := some { id := 1, kind := .write 0 0 [], pc := 0, fifoA := [], fifoB := [], gotA := 0, gotB := 0, flags := 0, locks := [3],
                                      held := none, en := 0, words := [], late := [] } } : Crew).dqWaits w = true) := by
  refine ⟨⟨rfl, rfl, rfl⟩, ?_⟩
  decide

/-! ## Hypotheses met: vector memory words and messages -/

def whole (m : Mapped) : Bool := m.now.isNone && m.wait.isNone && m.out.isEmpty

/-- The places of a word's elements. -/
def places (s : State) (f : VMemF) (shape : Shape) : List Elem ⊕ Nat × Nat × Nat :=
  s.settled.elemList s.settled.crew f.path.toNat (f.ty == 0) (eltBytes f.ty.toNat)
    (s.settled.crew.cells s.settled.free f shape (eltBytes f.ty.toNat) (s.settled.crew.activeLanes (s.settled.free + 50000) f.h))

def listed {α β : Type} (x : List α ⊕ β) : List α :=
  match x with
  | .inl l => l
  | .inr _ => []

/-- The base misaligned; a local path; global memory with every element mapped. -/
theorem test_witness_VectorLoads_place :
    (let f : VMemF := { wordM with a := reg 769 }
     onV.readyVector (.vld f) hdr (loadUse f .linear) (some 1) = true ∧ places onV f .linear = .inr (4, 0, 0x10002)) ∧
    (let f : VMemF := { wordM with a := reg 770, b := reg 771, path := 4 }
     onV.readyVector (.vldx { f with b := reg 768 }) hdr (loadUse { f with b := reg 768 } .strided) (some 1) = true ∧
       (places onV { f with b := reg 0 } .linear).isLeft = true ∧ (4 : BitVec 3) ≠ 0) ∧
    (onV.readyVector (.vgath { wordM with b := reg 4 }) hdr (loadUse { wordM with b := reg 4 } .offsets) (some 1) = true ∧
       (places onV { wordM with b := reg 4 } .offsets).isLeft = true ∧ onV.settled.logged 128 onV.crew.uid .v 2 = false ∧
       whole (onV.settled.mapElems 4 (listed (places onV { wordM with b := reg 4 } .offsets))) = true) := by decide

/-- The page with f32 elements. -/
def onF32 : State := onV.setCore 128 { onV.core 128 with tlb := [{ fetchTlb with att := { Att.plain with etype := 1 } }] }

/-- Queue 2 holds one entry. -/
def queued : State := { onV with crew := { onV.crew with dq := [[], [], [{ bytes := some (List.replicate 128 1), job := 0 }], []] } }

theorem test_witness_VectorLoads_subscribe :
    (let f : VMemF := { wordM with ty := 9 }
     onV.readyVector (.vlds f) hdr (loadUse f .linear) (some 1) = true ∧ onV.settled.logged 128 onV.crew.uid .v 2 = false ∧
       onV.settled.translate 128 0 0x10000 4 = .ok 0x10000 Att.plain ∧ srcType Att.plain.etype = none) ∧
    (let f : VMemF := { wordM with ty := 9 }
     let l := listed (onF32.settled.elemList onF32.settled.crew 0 false 4 ((List.range 1).flatMap (fun i => (lanesOf (BitVec.allOnes 32)).map (fun j =>
       ({ key := 32 * 3 + j, lane := j, a := (0x10000 + (32 * i + j) * 4) % 2 ^ 64, data := 0, data2 := 0 } : Cell)))))
     onF32.readyVector (.vlds f) hdr (loadUse f .linear) (some 1) = true ∧ l.length = 32 ∧
       onF32.settled.translate 128 0 0x10000 4 = .ok 0x10000 { Att.plain with etype := 1 } ∧ srcType 1 = some 9 ∧
       whole (onF32.settled.mapElems 4 l) = true ∧ ∀ e ∈ (onF32.settled.mapElems 4 l).ok, e.att.etype = 1) ∧
    (let f : VMemF := { wordM with a := reg 0, path := 6, oc := 0, sub := 2 }
     queued.readyVector (.vldDq f) hdr (dqUse f) (some 1) = true ∧ 0 + 1 ≤ (queued.settled.crew.dqHeld 2).length ∧
       onV.readyVector (.vldDq f) hdr (dqUse f) (some 1) = true ∧ (onV.settled.crew.dqHeld 2).length < 0 + 1) := by decide

theorem test_witness_VectorStores :
    (let f : VMemF := { wordM with a := reg 770, path := 4 }
     onV.readyVector (.vst f) hdr (storeUse (storeSrcs f .linear)) (some 1) = true ∧ (places onV f .linear).isLeft = true) ∧
    (onV.readyVector (.vst wordM) hdr (storeUse (storeSrcs wordM .linear)) (some 1) = true ∧ onV.settled.crew.vPending 2 = false ∧
      onV.settled.logged 128 onV.crew.uid .v 2 = false ∧ onV.settled.logUse 128 ≤ 256 ∧
      whole (onV.settled.mapElems 5 (listed (places onV wordM .linear))) = true) ∧
    (let f : VMemF := { wordM with b := reg 5, sub := 9, d := reg 4 }
     onV.readyVector (.vatomCas f) hdr (atomUse f 9) (some 1) = true ∧ (places onV f .offsets).isLeft = true ∧
       whole (onV.settled.mapElems 3 (listed (places onV f .offsets))) = true) ∧
    (let f : VMemF := { wordM with ty := 0, b := reg 5, path := 4 }
     let t := onV.settled
     let l := t.copyPlaces t.crew 4 ((List.range 1).flatMap (fun i => (lanesOf (BitVec.allOnes 32)).map (fun j =>
       let va := ((((t.crew.base f.a).toNat : Int) + (t.crew.src (t.free + 1024 * i + 32 * j) f.b i j).toInt) % 2 ^ 64).toNat
       (({ key := 0, space := .phys, va := va, addr := va, len := 16, nib := none, att := Att.plain, tr := false, data := 0, data2 := 0, space2 := .phys,
           addr2 := 0 } : Elem), j, (t.crew.src (t.free + 1024 * i + 32 * j + 1) f.d i j).toNat))))
     onV.readyVector (.vcp16 f) hdr (storeUse [f.a, f.b, f.d]) (some 1) = true ∧ (listed l).length = 32 ∧ whole (t.mapElems 4 (listed l)) = true) ∧
    (let f : VMemF := { wordM with a := reg 0, path := 6, oc := 0, sub := 3 }
     onV.readyVector (.vstDq f) hdr (storeUse [f.d]) (some 1) = true ∧ (onV.settled.crew.dq.getD 3 []).length + 1 ≤ 16 ∧
       16 < (List.replicate 16 ({ bytes := none, job := 0 } : DqEntry)).length + 1) := by decide

/-- A store word of one element at 0x40 of the core's scratchpad. -/
def spadElem : Elem :=
  { key := 96, space := .spad 128, va := 0x40, addr := 0x40, len := 4, nib := none, att := Att.plain, tr := true, data := 7, data2 := 0, space2 := .phys, addr2 := 0 }

def spadWord (kind : VKind) : VWord :=
  { id := 5, kind := kind, tok := 1, ty := 7, oc := 2, sc := 0, elems := [spadElem], zeros := [], regs := [], closes := none, olds := [], flags := 0, pc := 0,
    poisoned := none, args := [], en := 0, mayFlag := false }

def withWord (v : VWord) : State := { onV with crew := { onV.crew with vwords := [v], tok := [(1, 1)] } }

theorem test_witness_VectorWordPerforms :
    ([VKind.store, .atomic 0 false, .load] : List VKind).all (fun k =>
      let t := withWord (spadWord k)
      decide (t.crew.life = .running) && decide (t.crew.vwords.find? (fun x => x.id == 5) = some (spadWord k)) && !(spadWord k).elems.any (fun e => e.space == .phys) &&
        !t.crew.behindWord (spadWord k) && !t.readWaits t.crew .v 2 5 0) = true ∧
    (withWord (spadWord .load)).focus (withWord (spadWord .load)).crew.uid = some (withWord (spadWord .load)) ∧ (0x44 : Nat) ≤ 0x40 + 4 ∧
    (withWord (spadWord .store)).lost 0 spadElem.space = false ∧ (spadWord .store).elems = [] ++ spadElem :: [] ∧ spadElem.nib = none := by
  refine ⟨by decide, rfl, by decide, by decide, rfl, rfl⟩

/-- A 4-bit element that holds the reserved code 8, in a load whose flag traps are enabled, behind a pending trap (R42, R155). -/
theorem test_witness_VectorWordPerforms_kept :
    (let e : Elem := { spadElem with len := 1, nib := some true }
     let v : VWord := { spadWord .load with ty := 0, elems := [e], en := 0x1F }
     let s : State := { withWord v with spad := Memory.write [] (128 * 2 ^ 20 + 0x40) [0x80] }
     let t : State := { s with crew := { s.crew with v := { s.crew.v with pend := some ⟨causeCode 3 8, 7⟩ } } }
     (enabledDetail v.en (loadLanes v (v.elems.map (fun e => t.localBytes e.space e.addr e.len))).2).isSome = true ∧ t.crew.v.pend.isSome = true ∧
       t.lost t.crew.bindRec.asid e.space = false) := by decide

/-- Page tables of ASID 0 at 0x1000: the first 2^30 bytes mapped to themselves, every right. -/
def tables : Memory :=
  (((Memory.write [] 0x1000 (leBytes 8 (1 + 2 * 2 ^ 18))).write 0x2000 (leBytes 8 (1 + 3 * 2 ^ 18))).write 0x3000 (leBytes 8 (1 + 4 * 2 ^ 18))).write 0x4000
    (leBytes 8 0x1F)

/-- The tables in memory, and their base in die 0's register. -/
def tabled (s : State) : State := ({ s with mem := tables } : State).setDie 0 { s.die 0 with atab := 0x1000 }

/-- A graphics core's crew: a 1 x 1 x 1 f32 volume at 0x10000 in slot 1, an acceleration structure in slot 2, sampler 0. -/
def onG : State :=
  let s := tabled onV
  let k := { s.crew.kern with
    npu := false
    gfx := [(1, leBytes 8 0x10000 ++ leBytes 2 1 ++ leBytes 2 1 ++ leBytes 2 1 ++ [1, 9, 2] ++ List.replicate 15 0),
      (2, leBytes 8 0x10000 ++ leBytes 8 1 ++ [3] ++ List.replicate 15 0)]
    samplers := [(0, 0x80000000)] }
  ({ s with crew := { s.crew with kern := k, place := { s.crew.place with npu := false } } } : State).setCore 0 { s.core 0 with tlb := [fetchTlb] }

def rid : RasterId :=
  { die := 0, own := 0, q := 0, seq := 0, late := false, tri := { prim := 0, draw := 0, xs := [], ys := [], zs := [] }, x0 := 0, y0 := 0, cover := [], pass := [], fe := 0 }

def pass0 : Pass :=
  { die := 0, own := 0, q := 0, asid := 0, prio := 0, flags := 0, handler := 0, set0 := 1, set1 := 0, image := 0, crec := 0, a := 0, gfx := [], samplers := [],
    at_ := 0, state := 3, held := false, target := [], attach := [], draw := [], drawNo := 0, vlaunch := none, kerns := [], nextPrim := 0, bins := [],
    stored := [], ended := 0, nextSeq := 0, cur := none, todo := [], crews := [], exports := [], tests := [], count := 0, fail := none, blocks := [],
    freed := [], taken := 0, front := none, past := [] }

def gotLanes {α : Type} (x : Option (Got α)) : Option α :=
  match x with
  | some (.ok _ l) => some l
  | _ => none

/-- The message of one lane at the middle of the volume. -/
def texWord : VWord :=
  { id := 5, kind := .message (.tex3 { wordG with b := reg 0 }), tok := 1, ty := 9, oc := 0, sc := 0, elems := [], zeros := [], regs := [8], closes := none,
    olds := [], flags := 0, pc := 0, poisoned := none, args := [(0, [0x3F000000, 0x3F000000, 0x3F000000])], en := 0, mayFlag := false }

theorem test_witness_GraphicsMessages :
    (onG.readyVector (.tex wordG) hdr (messageUse wordG 2 (some wordG.b) 4) (some 1) = true ∧
     onG.readyVector (.tex3 { wordG with b := reg 0 }) hdr (messageUse { wordG with b := reg 0 } 3 none 1) (some 1) = true ∧
     onG.readyVector (.rayq { wordG with ty := 0, b := reg 0, desc := 0x020 }) hdr (messageUse { wordG with b := reg 0, desc := 0x020 } 8 none 4) (some 1) = true ∧
     onG.readyVector (.pexp { wordG with ty := 0, d := reg 0, b := reg 0, desc := 0 }) hdr (messageUse { wordG with d := reg 0, b := reg 0 } 4 none 0) (some 1) = true) ∧
    (onG.settled.crew.kern.texture 2 1).isSome = true ∧ (onG.settled.crew.kern.sampler 0).isSome = true ∧ (onG.settled.crew.kern.structure_ 2).isSome = true ∧
    onG.settled.crew.raster = none ∧
    (({ onG with passes := [pass0] } : State).passOf rid = some pass0 ∧ 0 ∈ pass0.targets) ∧
    (let t : State := { onG with crew := { onG.crew with vwords := [texWord] } }
     t.crew.life = .running ∧ t.crew.vwords.find? (fun x => x.id == 5) = some texWord ∧
       gotLanes (t.messageLanes (.tex3 { wordG with b := reg 0 }) texWord) = some [(256, 0)]) := by decide

/-! ## Hypotheses met: control words, matrix words -/

def withFlag (c : Crew) : Crew := c.setFlag 5 true

/-- The copy stream of a crew. -/
def crewK : Crew := Crew.absent.atWord 1 .k

/-- The vector stream of a crew. -/
def crewV : Crew := Crew.absent.atWord 1 .v

theorem test_witness_StreamControl :
    (crewV.readyWord .v (.vBrf 3 0xFF 5 1 0 0x3FFFC) 0xFF = true ∧ crewV.flagFull 5 = false) ∧
    ((withFlag crewV).readyWord .v (.vBrf 3 0xFF 5 1 0 0x3FFFC) 0xFF = true ∧ (withFlag crewM).readyWord .m (.mBrf 3 0xFF 5 1 0 0xFFFC) 0xFF = true ∧
      (withFlag crewK).readyWord .k (.kBrf 3 0xFF 5 1 0 0x3FFFC) 0xFF = true ∧ (withFlag crewK).flagFull 5 = true) ∧
    (crewV.readyWord .v (.vRdv 15 1) 1 = true ∧ crewV.readyWord .v (.vHalt 0 0) 0 = true ∧ crewM.readyWord .m (.mRdv 0 0) 0 = true ∧
      crewM.readyWord .m (.mHalt 0 0) 0 = true ∧ crewK.readyWord .k (.kRdv 0 0) 0 = true ∧ crewK.readyWord .k (.kHalt 0 0) 0 = true) ∧
    crewK.readyWord .k (.kTokw 0 0 0xFF 63) 0 = true ∧ crewK.readyWord .k (.kDrain 0 0 4) 0 = true := by decide

/-- A bf16-sized handle of 128 x 128 elements at 0x10000 in global memory, and a prologue table of kind 2. -/
def crewH : Crew :=
  { crewM with kern := { crewM.kern with
      handles := [{ base := 0x10000, pitch := 256, rows := 128, cols := 128, type := 10, path := 0, ok := true }]
      ptabs := [{ tbase := 0x10000, kind := 2, gsz := 5, tpr := 1, vbase := 0, vpitch := 0, ok := true }] } }

def full (c : Crew) (t : BitVec 3) : Crew := { c with tFull := SMap.set false c.tFull t.toNat true }

def entryOf (n : Nat) (i : Instr) : PortEntry := { id := n, ins := i, rm := 0, b8d0 := 0, b8d1 := 0 }

/-- Four entries parked. -/
def fullPort (c : Crew) : Crew := { c with port := [entryOf 1 (.mrel 0 0 0), entryOf 2 (.mrel 0 0 0), entryOf 3 (.mrel 0 0 0), entryOf 4 (.mrel 0 0 0)] }

theorem test_witness_MatrixWords :
    (crewH.readyMatrix (.mstep stepW) 0 [] false = true ∧ crewH.stepFault stepW = none ∧ crewH.arrayFree = true ∧ crewM.stepFault stepW = some (4, 3) ∧
      crewM.readyMatrix (.mstep stepW) 0 [] false = true) ∧
    (let c := { crewH with array := some { id := 1, kind := .zero 0, pc := 0, fifoA := [], fifoB := [], gotA := 0, gotB := 0, flags := 0, locks := [], held := none, en := 0, words := [],
                                           late := [] } }
     c.readyMatrix (.mstep stepW) 0 [] false = true ∧ c.arrayFree = false ∧ c.stepFault stepW = none) ∧
    crewH.readyMatrix (.mngo stepW) 0 [] false = true ∧ crewM.readyWord .m (.mnset setW) 0 = true ∧ crewM.readyWord .m (.mnstop 0 0) 0 = true ∧
    crewM.readyMatrix (.mzero 0 0 7) 0 [] false = true ∧ crewM.readyMatrix (.mwrite { rowW with sig := 0 }) 0 (rowRegs rowW) true = true ∧
    crewM.readyMatrix (.msca scaW) 0 (((List.range 4).map (fun n => 16 + n)) ++ ((List.range 4).map (fun n => 20 + n))) true = true ∧ crewM.tileFull 2 = false ∧
    (full crewM 3).tileFull 3 = true ∧ crewM.readyMatrix (.mrel 0 0 7) 0 [] false = true ∧ crewM.port.length < 4 ∧
    (4 ≤ (fullPort crewM).port.length ∧ (fullPort crewM).readyMatrix (.mrel 0 0 7) 0 [] false = true) ∧
    crewM.readyMatrix (.mread rowW) 0 (rowRegs rowW) false = true ∧ crewM.readyMatrix (.mcvt { rowW with fmt := 10 }) 0 (rowRegs rowW) false = true ∧
    crewM.tokCount 1 ≠ 63 ∧ ({ crewM with tok := [(1, 63)] } : Crew).tokCount 1 = 63 ∧
    (crewM.readyMatrix (.mproNone 0 0 1 0) 0 [] false = true ∧ crewM.readyMatrix (.mproCb3 0 0 1 0) 0 [] false = true ∧ crewM.kern.ptabOf 2 0 = none ∧
      crewH.readyMatrix (.mproCb3 0 0 1 0) 0 [] false = true ∧ (crewH.kern.ptabOf 2 0).isSome = true ∧ crewH.arrayFree = true) ∧
    (crewH.proWaits stepW = false ∧ ({ crewH with proReload := some 1 } : Crew).proWaits { stepW with pro := 2 } = true) := by decide

/-- A tile step with every slice there; a zeroing; a row on its way in. -/
def arrayOf (k : ArrKind) (a b : Nat) : ArrayOp :=
  { id := 1, kind := k, pc := 0, fifoA := [], fifoB := [], gotA := a, gotB := b, flags := 0, locks := [], held := none, en := 0, words := [], late := [] }

def withArray (c : Crew) (a : ArrayOp) : State := with_ { c with array := some a }

theorem test_witness_TileStepCompletes :
    (let a := arrayOf (.step stepW 10 10 false) 128 128
     (withArray crewH a).crew.array = some a ∧ (withArray crewH a).crew.life = .running ∧ a.held = none ∧ fetchGoal stepW false ≤ a.gotA ∧ fetchGoal stepW true ≤ a.gotB) ∧
    (withArray crewH (arrayOf (.zero 7) 0 0)).crew.array = some (arrayOf (.zero 7) 0 0) ∧
    (withArray crewH (arrayOf (.write 7 127 [1]) 0 0)).crew.array = some (arrayOf (.write 7 127 [1]) 0 0) ∧ (3 ≤ stepW.mx.toNat ∧ 3 ≤ stepW.nx.toNat) ∧ 0 < [(1 : Lane)].length := by
  decide

/-- R171, R173: one step of k = 32 with every element of A 1.0 and of B 2.0 gives 64.0 at [0, 0]. -/
theorem test_tile_step :
    (let f : MStepF := { stepW with k := 1, mx := 0, nx := 0, fmta := 11, fmtb := 11 }
     let a : ArrayOp := { arrayOf (.step f 11 11 false) 32 32 with
       fifoA := (List.range 32).map (fun k => (128 * k, 0x3F80))
       fifoB := (List.range 32).map (fun k => (128 * k, 0x4000)) }
     after (exec (.tileStepComplete 1) (withArray crewH a)) (fun t => t.crew.elem 2 0 0)) = some 0x42800000 := by decide

def nestC : Crew :=
  { crewH with nest := some { tmpl := stepW, pc := 0, pt := [0, 0, 0, 0, 0, 0], fa := 10, fb := 10 } }

def parkedC (i : Instr) : Crew := { full crewM 2 with port := [entryOf 1 i] }

/-- The crew with a table awaited, its translation in the core's TLB. -/
def tableS : State :=
  let s := State.reset.withFetchWord 192 0
  let t := { s with crew := { s.crew with kern := { s.crew.kern with ptabs := crewH.kern.ptabs, handles := crewH.kern.handles }, proLoads := [{ id := 1, ptab := 0, tok := 1, oc := 0, sc := 0 }] } }
  t.setCore 128 { t.core 128 with inf := [{ id := 1, oc := 0, sc := 0, uid := t.crew.uid, ptab := 0, t := 0, bytes := none }] }

def fetched {α : Type} (x : Fetch α) : Bool :=
  match x with
  | .ok _ => true
  | _ => false

theorem test_witness_MatrixEvents :
    (nestC.nest = some { tmpl := stepW, pc := 0, pt := [0, 0, 0, 0, 0, 0], fa := 10, fb := 10 } ∧ nestC.life = .running ∧ nestC.trap = none ∧ nestC.act = false ∧
      nestC.array = none ∧ nestC.m.pend = none ∧ nestC.tileFull (nestC.nestStep { tmpl := stepW, pc := 0, pt := [0, 0, 0, 0, 0, 0], fa := 10, fb := 10 }).acc = false) ∧
    ((parkedC (.mcvt { rowW with fmt := 10 })).port = [entryOf 1 (.mcvt { rowW with fmt := 10 })] ∧ (parkedC (.mcvt { rowW with fmt := 10 })).tileFull 2 = true) ∧
    ((parkedC (.mrel 0 0 2)).port = [entryOf 1 (.mrel 0 0 2)] ∧ (parkedC (.mrel 0 0 2)).tileFull 2 = true) ∧
    (let a := arrayOf (.step { stepW with mx := 0 } 10 10 false) 0 0
     a.held = none ∧ a.gotA < stepK { stepW with mx := 0 } ∧
       fetched (({ tabled tableS with crew := { tableS.crew with array := some a } } : State).slice { stepW with mx := 0 } false 0 []) = true) ∧
    (tableS.tablesDue =
        [{ id := 1, oc := 0, sc := 0, uid := tableS.crew.uid, ptab := 0, t := 0, bytes := none }] ∧ (tableS.crew.kern.ptabs[0]?).isSome = true ∧
      nestC.proWaits stepW = false ∧ (rowRegs rowW).any (parkedC (.mread rowW)).vLocked = false ∧
      fetched ((tabled tableS).fetchTable tableS.crew { tbase := 0x10000, kind := 2, gsz := 5, tpr := 1, vbase := 0, vpitch := 0, ok := true } 0) = true) := by
  decide

/-! ## Hypotheses met: copy words -/

/-! ## Hypotheses met: copy words -/

/-- A copy word's crew: a handle, places in global memory, every shared scalar full, one entry in queue 3, a launch of its own. -/
def onK : State :=
  let s := tabled (State.reset.withFetchWord 96 0)
  let c := { s.crew with
    kern := { s.crew.kern with handles := crewH.kern.handles, bar := 3 }
    dq := [[], [], [], [{ bytes := some (List.replicate 128 1), job := 0 }]]
    k := { Stream.start with status := .running }
    launch := 7 }
  let zero := ([51, 52, 53, 54, 55, 56, 57, 58, 59, 60, 61] : List GReg).map (fun r => (r, (0 : Word)))
  { s with crew := regs c ([(48, 0x10000), (49, 0x10040), (50, 0x10080), (62, 1), (63, 0x10100)] ++ zero) }

def readyK (s : State) (room : State → Job → Option Wait) (l : List Instr) : Bool := l.all (fun i => s.readyCopy i 0 room)

def elems (ty n : Nat) : BitVec 40 := BitVec.ofNat 40 (ty * 2 ^ 35 + n)

theorem test_witness_CopyWords :
    readyK onK (fun _ _ => none) [
      .cpyKh kh kHandle, .cpyKr kh kr, .cpysg kh kr, .cpymcKh { kh with path := 4 } kHandle, .cpymcKr { kh with path := 4 } { kr with imm := 0x0100000040 },
      .scatNative kh { kr with gc := 50, imm := elems 9 4 }, .scatStrain kh 5 { kr with gc := 50, imm := elems 7 4 }, .gath kh { kr with gc := 50, imm := elems 9 4 },
      .xfmTr kh { kr with gb := 0, imm := 0x04000000 }, .xfmCvt kh { kr with gb := 0, imm := 0x5240000004 }, .xfmBdb kh { kr with imm := 0x8000000001 },
      .xfmPsum kh { kr with gb := 0, imm := elems 9 4 }] = true ∧
    readyK onK (fun _ _ => none) [.collAllred { kh with path := 3 } 2 { kr with imm := elems 9 4 }, .collRedsc { kh with path := 3 } 5 { kr with imm := elems 7 4 },
      .collGath { kh with path := 3 } 0 { kr with imm := elems 10 4 }] = true ∧ SMap.get 0 onK.crew.colls (collKey 0 3) = 0 ∧
    readyK onK (fun s j => if 16 < (s.crew.dq.getD 3 []).length + j.dqEntries s.crew then some (.queue 3 (j.dqEntries s.crew) true) else none)
      [.dqpushKh { kh with path := 6 } 3 kHandle, .dqpushKr { kh with path := 6 } 3 { kr with gb := 0, imm := 128 }] = true ∧
    readyK onK (fun s j => if (s.crew.dqHeld 3).length < j.dqEntries s.crew then some (.queue 3 (j.dqEntries s.crew) false) else none)
      [.dqpopKr { kh with path := 6 } 3 { kr with gb := 0, imm := 128 }] = true ∧
    readyK onK (fun s _ => if 256 ≤ (s.die s.crew.place.die).cards.length then some .other else none) [.jsub kh { kr with imm := 0 }] = true ∧
    readyK onK (fun s _ => if 4 ≤ (s.sequencer (s.crew.agent / 8)).queue.length then some .other else none) [.sqgo kh { kr with imm := 0 }] = true := by
  decide

def smallHandle : KH := { nx := 0, mx := 1, col := 0, row := 0, h := 0 }

/-- A 128-byte region is one entry of a queue. -/
theorem test_witness_CopyWords_pop :
    readyK onK (fun s j => if (s.crew.dqHeld 3).length < j.dqEntries s.crew then some (.queue 3 (j.dqEntries s.crew) false) else none)
      [.dqpopKh { kh with path := 6 } 3 smallHandle] = true := by decide

/-- A job in flight. -/
def withJob (s : State) (i : Instr) : State := { s with crew := { s.crew with jobs := [s.crew.jobOf 5 0 i], tok := [(1, 1)] } }

def failed {α : Type} (x : Fetch α) : Bool :=
  match x with
  | .bad _ _ => true
  | _ => false

theorem test_witness_CopyEvents_job :
    (let s := withJob onK (.cpyKr kh kr)
     let j := onK.crew.jobOf 5 0 (.cpyKr kh kr)
     s.crew.life = .running ∧ s.crew.jobs.find? (fun x => x.id == 5) = some j ∧ j.held = none ∧ collOf j.ins = none ∧ isPush j.ins = false ∧
       s.behindJob s.crew j = false ∧ fetched (s.runJob s.crew j).fin = true ∧
       -- without page tables the same copy fails
       failed (({ s with mem := [] } : State).runJob s.crew j).fin = true) ∧ (∀ h o, Instr.cpyKr kh kr ≠ .jsub h o ∧ Instr.cpyKr kh kr ≠ .sqgo h o) := by
  refine ⟨by decide, fun h o => ⟨fun e => ?_, fun e => ?_⟩⟩ <;> cases e

theorem test_witness_CopyEvents_queue :
    (let i : Instr := .dqpushKr { kh with path := 6 } 2 { kr with gb := 0, imm := 128 }
     let t := withJob onK i
     let s : State := { t with crew := { t.crew with dq := [[], [], [{ bytes := none, job := 5 }], []] } }
     (s.crew.dq.getD 2 []).find? (fun e => e.bytes.isNone) = some { bytes := none, job := 5 } ∧
       s.crew.jobs.find? (fun x => x.id == 5) = some (onK.crew.jobOf 5 0 i) ∧ (onK.crew.jobOf 5 0 i).held = none ∧
       s.behindJob s.crew (onK.crew.jobOf 5 0 i) = false ∧ fetched (s.runPush s.crew (onK.crew.jobOf 5 0 i)).1.fin = true ∧ 2 < s.crew.dq.length) := by decide

def launch0 : Launch :=
  { id := 7, src := .task 0 0 0, die := 0, asid := 0, prio := 0, flags := 0, handler := 0, set0 := 1, set1 := 0, image := 0, crec := 0, a := 0, kern := Kernel.empty,
    total := 1, bound := 1, retired := 0, killed := false, failed := false, phased := [], parts := [], agents := [128] }

/-- A launch of one crew, whose collective every participant has reached. -/
def collS : State :=
  let s := withJob onK (.collAllred { kh with path := 3 } 0 { kr with imm := elems 9 4 })
  { s with launches := [{ launch0 with parts := [{ uid := s.crew.uid, q := 0, place := s.crew.place, idx := [], arrived := [], colls := [], retired := false }] }] }

theorem test_witness_CopyEvents_collective :
    (let j := onK.crew.jobOf 5 0 (.collAllred { kh with path := 3 } 0 { kr with imm := elems 9 4 })
     collS.crew.jobs.find? (fun x => x.id == 5) = some j ∧ collOf j.ins = some (0, 0) ∧
       (collS.participants collS.crew j.path).mapM (collS.collPeer j) = some [(collS.crew, j)] ∧
       [(collS.crew, j)].all (fun x => collOf x.2.ins == some (0, 0) && x.2.imm == j.imm) = true ∧
       [(collS.crew, j)].any (fun x => collS.behindJob x.1 x.2) = false) := by decide

/-! ## Hypotheses met: events of a crew -/

/-- A scalar load from a line that the core holds. -/
def loaded : State :=
  let s := onPage
  let e := scalarElem 0x10000 4 (some (0x10000, Att.plain))
  { s with
    crew := { s.crew with sres := [{ id := 3, d := 7, kind := .load e true 2 0 }] }
    lines := [{ agent := 128, pa := 0x10000, len := 32, etype := 0, state := .excl, bytes := List.replicate 32 0xFF, pats := [], news := [] }] }

def blockedS : Crew := { crewS with s := { crewS.s with status := .blocked, wait := .flag 0 } }

theorem test_witness_CrewEvents :
    ((with_ crewS).focus 1 = some (with_ crewS) ∧ crewS.life = .running) ∧ crewS.canIssue .s = true ∧
    ((inFlight crewS).sres.find? (fun x => x.id == 1) = some { id := 1, d := 3, kind := .value 5 }) ∧
    (let e := scalarElem 0x10000 4 (some (0x10000, Att.plain))
     loaded.crew.sres.find? (fun x => x.id == 3) = some { id := 3, d := 7, kind := .load e true 2 0 } ∧ e.tr = true ∧ inPod e.addr = false ∧
       ({ loaded.crew with sres := loaded.crew.sres.takeWhile (fun x => x.id != 3) } : Crew).classPending 2 = false ∧
       loaded.readWaits loaded.crew .s 2 3 (loaded.forwarded loaded.crew .s 2 e.addr e.len) = false ∧
       loaded.readLine loaded.crew.agent e.addr e.len e.att = some [0xFF, 0xFF, 0xFF, 0xFF]) ∧
    blockedS.deadlocked (!(with_ blockedS).tablesDue.isEmpty) = true := by
  refine ⟨⟨rfl, rfl⟩, ?_⟩
  decide

/-- R107: the signed load of four bytes 0xFF lands as -1. -/
theorem test_load_lands : after (exec (.scalarResultComplete loaded.crew.uid 3) loaded) (fun t => t.crew.rdG 7) = some 0xFFFFFFFFFFFFFFFF := by decide

/-- A crew at HALT, alone on its core. -/
def retiring : State := with_ { crewS with s := { crewS.s with status := .blocked, wait := .retire } }

/-- A crew whose slot is in state 2. -/
def slotted (c : Crew) : State :=
  let s := with_ c
  s.setCore 128 { s.core 128 with slots := [(0, { state := 2, refused := 0, uid := c.uid, record := BindRec.empty })] }

theorem test_witness_CrewLeaves :
    (retiring.focus 1 = some retiring ∧ retiring.crew.life = .running ∧ retiring.mayRetire retiring.crew = true ∧ (with_ crewS).mayRetire crewS = false) ∧
    ((SMap.get Slot.free ((slotted crewS).core 128).slots 0).state = 2 ∧ (slotted crewS).findCrew 1 = some crewS ∧
      (SMap.get Slot.free ((slotted crewS).core 128).slots 1).state = 0) ∧
    (let c : Crew := { inFlight crewS with life := .preempted }
     (with_ c).findCrew 1 = some c ∧ c.vwords.any (fun v => v.id == 1) = false ∧ c.sres.any (fun r => r.id == 1) = true ∧
       goes (exec (.scalarResultComplete 1 1) ((with_ c).asBound 1)) = true) := by
  refine ⟨⟨rfl, by decide, by decide, by decide⟩, by decide, by decide⟩

/-! ## Hypotheses met: translation, the controller, writes, caches, the fabric -/

/-- An NPU core that has no translation yet, over page tables. -/
def walked : State := tabled (with_ crewS)

def entryAt (w : Walk) : Option TlbEntry :=
  match w with
  | .entry e => some e
  | _ => none

def cured (w : Walk) : Option Nat :=
  match w with
  | .fail r false _ _ => some r
  | _ => none

/-- A store in the side log, its page released, its translation in the TLB. -/
def logS : State :=
  let s := onPage
  let w := s.mkWrite .s 2 2 0 2 0 0x10000 0x10000 [1] none .store Att.plain
  s.setCore 128 { s.core 128 with log := [{ w := w, page := 0x10, released := true }] }

theorem test_witness_Translation :
    (walked.translate 128 0 0x10000 1 = .miss ∧ (entryAt (walked.walk 0 0 0x10000)).isSome = true) ∧
    (walked.translate 128 0 0x40000000 1 = .miss ∧ cured (walked.walk 0 0 0x40000000) = some 0 ∧ walked.faultOut 0 0 0x40000000 1 = none) ∧
    ((walked.postFault 0 0 0x40000000 1 0 false 128 0 0).faultOut 0 0 0x40000000 1).isSome = true ∧
    walked.translate 128 0 0x100000000000000 1 = .now 4 ∧
    ((logS.core 128).log.find? (fun e => e.w.id == 2) = (logS.core 128).log.head? ∧ (∀ e ∈ (logS.core 128).log, e.released = true ∧ e.w.id = 2) ∧
      logS.translate 128 0 0x10000 2 = .ok 0x10000 Att.plain) := by decide

/-- Die 0's controller with one descriptor in its ring at 0x8000. -/
def ctlS (op flags count va a b : Nat) (rsv : Nat) : State :=
  let s := walked
  let bytes := leBytes 1 op ++ leBytes 1 flags ++ leBytes 2 3 ++ leBytes 4 count ++ leBytes 8 va ++ leBytes 8 a ++ leBytes 8 b ++ leBytes 16 0 ++ leBytes 16 rsv
  ({ s with mem := s.mem.write 0x8000 bytes } : State).setDie 0 { s.die 0 with cqBase := 0x8000, tcTail := 1 }

def nextCtl (s : State) : Option (Nat × Nat × Bool) := (s.ctlNext 0).map (fun x => (x.1.op, x.1.flags, x.2))

/-- ASID 3's table is ASID 0's; the descriptor's leaf is the entry of a 4 KiB page at 0x20000. -/
def leafS (op : Nat) : State :=
  let s := ctlS op 0 1 0x20000 0x6100 (0x30 * 2 ^ 18 + 0x1F) 0
  let m := ((s.mem.write 0x1018 (leBytes 8 (1 + 2 * 2 ^ 18))).write 0x4000 (leBytes 8 (1 + 5 * 2 ^ 18))).write 0x5000 (leBytes 8 (1 + 6 * 2 ^ 18))
  { s with mem := m.write 0x6100 (leBytes 8 (0x20 * 2 ^ 18 + 0x1F)) }

def cmd0 (op : Nat) : CtlCmd := { op := op, flags := 0, asid := 3, count := 1, va := 0x20000, a := 0x6100, b := 0x30 * 2 ^ 18 + 0x1F, c := 0, d := 0 }

def running (s : State) (c : CtlCmd) : State := s.setDie 0 { s.die 0 with tcRun := some c }

theorem test_witness_Controller :
    ([1, 3, 4, 5, 6].all (fun op => nextCtl (ctlS op 0 1 0 0 0 1) == some (op, 0, false))) = true ∧
    (nextCtl (ctlS 1 0 1 0 0 0 0) = some (1, 0, true) ∧ nextCtl (ctlS 2 0 1 0 0 0 0) = some (2, 0, true) ∧ nextCtl (ctlS 2 1 1 0 0 0 0) = some (2, 1, true) ∧
      nextCtl (ctlS 3 1 1 0 0 0 0) = some (3, 1, true) ∧ nextCtl (ctlS 5 0 1 0 0 0 0) = some (5, 0, true)) ∧
    (nextCtl (ctlS 4 0 0 0 0 0 0) = some (4, 0, true) ∧ (ctlS 4 0 0 0 0 0 0).asidInUse 3 = false ∧ (ctlS 4 0 0 0 0 0 0).asidInUse 0 = true) ∧
    (nextCtl (leafS 6) = some (6, 0, true) ∧ (leafS 6).ctlNext 0 = some (cmd0 6, true) ∧ (leafS 6).holdsLeaf 0 (cmd0 6) = true ∧ (leafS 6).homesFree 0x20000 4096 = true ∧
      (leafS 6).homesFree 0x30000 4096 = true ∧ (leafS 6).homesFree 0x6100 8 = true) ∧
    (((running (leafS 3) (cmd0 3)).die 0).tcRun = some (cmd0 3) ∧ (cmd0 3).page.2 = 4096 ∧ (List.replicate 4096 (0 : Byte)).length = 4096 ∧
      (running (leafS 3) (cmd0 3)).homesFree 0x30000 4096 = true) ∧
    (((running walked (cmd0 4)).die 0).tcRun = some (cmd0 4) ∧ (running walked (cmd0 4)).homesFree 0x1018 8 = true) := by decide

/-- A buffered store of one byte. -/
def write0 : Write :=
  { id := 2, core := 128, uid := 1, strm := .s, word := 2, key := 0, asid := 0, oc := 2, sc := 0, va := 0x10000, pa := 0x10000, bytes := [7], nib := none, op := .store,
    att := Att.plain, sent := false, takes := false }

def writing (w : Write) : State := { with_ crewS with writes := [w], nextId := 3 }

theorem test_witness_WritesLand :
    ((writing write0).writes.find? (fun x => x.id == 2 && x.core == 128) = some write0 ∧ write0.sent = false ∧ (writing write0).heldBack write0 = false ∧
      write0.nib = none ∧ goes (exec (.homeWrite 128 2) (writing write0)) = true) ∧
    ((writing { write0 with sent := true }).writes.find? (fun x => x.id == 2) = some { write0 with sent := true } ∧
      (writing write0).msgs.any (fun m => m.write == 2) = false ∧ goes (exec (.writePerformed 2) (writing { write0 with sent := true })) = true) ∧
    (write0.op = .store ∧ recordByte (writing write0) write0.pa < write0.pa ∧ 0 < write0.bytes.length) := by decide

/-- R292: the store lands: its byte, and the write-record bit of frame 0x10. -/
theorem test_store_lands : after (exec (.homeWrite 128 2) (writing write0)) (fun t => (t.mem.byte 0x10000, t.writes.length)) = some (7, 0) := by decide

def line0 (st : LineState) : Line := { agent := 128, pa := 0x10000, len := 32, etype := 1, state := st, bytes := List.replicate 32 0, pats := [], news := [] }

def lined (l : Line) : State := { onPage with lines := [l] }

theorem test_witness_Caches :
    (let m : Msg := { agent := 128, pa := 0x10000, write := 2, update := false, off := 0, len := 32, bytes := [], sent := 0 }
     (isProxy 128 = false ∧ isProxy 384 = true ∧ (takeMsg 384 false [{ m with agent := 384 }]).isSome = true ∧ (takeMsg 128 false [m]).isSome = true ∧ (takeMsg 128 true [{ m with update := true }]).isSome = true)) ∧
    ((isHbm 0x10000 || isLpddr 0x10000) = true ∧ agentExists 128 = true ∧ onPage.line 128 0x10000 = none ∧ (onPage.pageOf 128 0x10000).bdb = false ∧
      (onPage.pageOf 128 0x10000).mtype = 0 ∧ (onPage.dirFind 0x10000 (onPage.pageOf 128 0x10000).grain).2.busy = none) ∧
    (let s := onPage.setCore 128 { onPage.core 128 with tlb := [{ fetchTlb with att := { Att.plain with mtype := 1 } }] }
     s.line 128 0x10000 = none ∧ (s.pageOf 128 0x10000).mtype = 1 ∧ (s.pageOf 128 0x10000).bdb = false) ∧
    (onF32.line 128 0x10000 = none ∧ (srcType (onF32.pageOf 128 0x10000).etype).isSome = true ∧
      (onF32.dirFind 0x10000 (onF32.pageOf 128 0x10000).grain).2.watched = false ∧ (onF32.dirFind 0x10000 (onF32.pageOf 128 0x10000).grain).2.busy = none ∧
      (onF32.dirFind 0x10000 (onF32.pageOf 128 0x10000).grain).2.len = (onF32.pageOf 128 0x10000).grain) ∧
    ((lined (line0 (.sub 1))).line 128 0x10000 = some (line0 (.sub 1)) ∧ ((lined (line0 (.sub 1))).dirFind 0x10000 32).2.busy = none) ∧
    ((lined (line0 .shrd)).line 128 0x10000 = some (line0 .shrd) ∧ (line0 .shrd).writable = false ∧ ((lined (line0 .shrd)).dirFind 0x10000 32).2.busy = none) ∧
    ((lined (line0 (.lease 0))).line 128 0x10000 = some (line0 (.lease 0))) := by decide

theorem test_witness_Caches_release : ∀ n, (line0 .shrd).state ≠ .lease n := by
  intro n h
  cases h

/-- A die with a region shared by package 3, requests at its ports, and one that has left. -/
def fabS : State :=
  let s := walked
  let r : FabReq := { id := 5, stream := 0, oc := 0, asid := 0, pkg := 3, va := 0x10000, len := 4, data := none, aop := none, fmt := 0, upd := false, etype := 0, arrived := 0 }
  let late := cyclesOf 65536
  let t := s.setDie 0 { s.die 0 with
    regions := [{ region := 32, pkg := 3, slot := true, fmt := 0, upd := false, etype := 0 }]
    fabIn := [(0, r), (1, { r with id := 6, data := some [1, 2, 3, 4] })]
    fabOut := [{ id := 7, uid := 1, word := 2, asid := 0, pkg := 3, addr := 0x10000, store := false, left := 0 }] }
  { t with now := late, msgs := [{ agent := 387, pa := 0x10000, write := 9, update := false, off := 0, len := 4, bytes := [], sent := 0 }] }

theorem test_witness_Fabric :
    (1984 + 64 ≤ 2048) ∧
    ((fabS.die 0).regions.any (fun r => r.pkg == 3 && r.region == 32) = true ∧ fabS.msgs.any (fun m => (m.agent == 512 * 0 + 384 + 3 % 128 && m.pa / 2048 == 32) &&
        decide (m.sent + cyclesOf (fabS.die 0).fxItmo.toNat ≤ fabS.now)) = true) ∧
    (((fabS.die 0).fabIn.filter (fun x => x.1 == 0)).map (fun x => x.2)).length < 512 ∧
    ((pickReq (fun r => (fabS.faultOut 0 r.asid r.va r.kind).isNone) [] (((fabS.die 0).fabIn.filter (fun x => x.1 == 0)).map (fun x => x.2))).map (fun r => (r.id, r.data)) =
        some (5, none) ∧
      (pickReq (fun r => (fabS.faultOut 0 r.asid r.va r.kind).isNone) [] (((fabS.die 0).fabIn.filter (fun x => x.1 == 1)).map (fun x => x.2))).map (fun r => (r.id, r.data)) =
        some (6, some [1, 2, 3, 4]) ∧
      isOk (fabS.engineTr 0 0 0x10000 4) = true ∧ isOk (fabS.engineTr 0 0 0x10000 5) = true ∧ isOk (fabS.engineTr 0 0 0x10000 6) = true ∧ isOk (fabS.engineTr 0 0 0x10000 7) = true ∧
      fabS.homesFree 0x10000 4 = true) ∧
    ((((fabS.die 0).fabIn.filter (fun x => x.1 == 0)).find? (fun x => decide (x.2.arrived + cyclesOf (max (fabS.die 0).fxTmo.toNat 10) ≤ fabS.now))).isSome = true) ∧
    ((fabS.die 0).fabOut.find? (fun x => x.id == 7)).isSome = true ∧ (0 + cyclesOf ((walked.die 0).fxItmo.toNat - 1) < cyclesOf (walked.die 0).fxItmo.toNat) ∧
    (0 + cyclesOf (fabS.die 0).fxItmo.toNat ≤ fabS.now) ∧
    (3 < 4 ∧ (isHbm 0x10000 || isLpddr 0x10000) = true) ∧ (1 < 2 ∧ fabS.homesFree 0x10000 [(1 : Byte)].length = true) := by decide

/-! ## A state whose page tables map the first gigabyte onto itself -/

/-- Page tables as `tables` has them, no directory entry, and nothing that a write of the firmware from 0x5000 up could meet. -/
structure Plain (t : State) : Prop where
  dir : t.dir = []
  boot : t.bsState = []
  poisoned : t.poisoned = []
  atab : (t.die 0).atab = 0x1000
  retiring : (t.die 0).retiring = []
  faults : (t.die 0).faults = []
  doomed : (t.die 0).doomed = []
  regions : ∀ d, d < 2 → (t.die d).regions = []
  wrec : ∀ d, d < 2 → (t.die d).wrec = 0x4000000000
  pages : ∀ x, x = 0x1000 ∨ x = 0x2000 ∨ x = 0x3000 ∨ x = 0x4000 → t.mem.read x 8 = tables.read x 8

theorem phys_low (t : State) {a : Nat} (h : a < 2 ^ 41) (n : Nat) : t.phys a n = t.mem.read a n := by
  have : isPcie a = false := by simp only [isPcie, Bool.and_eq_false_iff, decide_eq_false_iff_not]; omega
  simp [State.phys, this]

theorem Plain.calm {t : State} (h : Plain t) : t.reduced = false := by simp [State.reduced, h.boot, SMap.get]

theorem Plain.inReach {t : State} (h : Plain t) {a : Nat} (ha : a < 2 ^ 30) : t.tableOut a = false := by
  have pod : inPod a = false := by simp [inPod]; omega
  have hbm : isHbm a = true := by simp [isHbm]; omega
  simp [State.tableOut, localReach, h.calm, pod, hbm]

theorem Plain.walk {t : State} (h : Plain t) {a : Nat} (ha : a < 2 ^ 30) : t.walk 0 0 a = .entry (leafEntry 0 a 2 1 0x1F) := by
  have e1 : t.pte 0x1000 = 1 + 2 * 2 ^ 18 := by rw [State.pte, phys_low _ (by decide), h.pages _ (by simp)]; decide
  have e2 : t.pte 0x2000 = 1 + 3 * 2 ^ 18 := by rw [State.pte, phys_low _ (by decide), h.pages _ (by simp)]; decide
  have e3 : t.pte 0x3000 = 1 + 4 * 2 ^ 18 := by rw [State.pte, phys_low _ (by decide), h.pages _ (by simp)]; decide
  have e4 : t.pte 0x4000 = 0x1F := by rw [State.pte, phys_low _ (by decide), h.pages _ (by simp)]; decide
  have i4 : a / leafSize 4 % 512 = 0 := by simp only [leafSize]; omega
  have i3 : a / leafSize 3 % 512 = 0 := by simp only [leafSize]; omega
  have i2 : a / leafSize 2 % 512 = 0 := by simp only [leafSize]; omega
  have f1 : pteFrame (1 + 2 * 2 ^ 18) = 0x2000 := by decide
  have f2 : pteFrame (1 + 3 * 2 ^ 18) = 0x3000 := by decide
  have f3 : pteFrame (1 + 4 * 2 ^ 18) = 0x4000 := by decide
  simp only [State.walk, h.atab, h.retiring, show ¬(2 ^ 56 ≤ a) by omega, if_false, show (0x1000 : Word).toNat + 8 * 0 = 0x1000 by decide, h.inReach (a := 0x1000) (by decide), e1, List.contains_nil,
    Bool.false_eq_true, show (!pteBit (1 + 2 * 2 ^ 18) 0) = false by decide, f1]
  simp only [State.walkFrom, i4, i3, i2, Nat.mul_zero, Nat.add_zero, h.inReach (a := 0x2000) (by decide), h.inReach (a := 0x3000) (by decide), h.inReach (a := 0x4000) (by decide),
    e2, e3, e4, f2, f3,
    show (!pteBit (1 + 3 * 2 ^ 18) 0) = false by decide, show (!pteBit (1 + 4 * 2 ^ 18) 0) = false by decide, show (!pteBit 0x1F 0) = false by decide,
    show pteBad 4 (1 + 3 * 2 ^ 18) = false by decide, show pteBad 3 (1 + 4 * 2 ^ 18) = false by decide, show pteBad 2 0x1F = false by decide,
    show pteLeaf (1 + 3 * 2 ^ 18) = false by decide, show pteLeaf (1 + 4 * 2 ^ 18) = false by decide, show pteLeaf 0x1F = true by decide,
    show pteBit 0x1F 6 = false by decide, Bool.false_eq_true, if_false, if_true]

/-- An asker of ASID 0 on die 0. -/
def Asker.home (w : Asker) : Prop := w.die = 0 ∧ w.asid = 0

theorem Plain.place {t : State} (h : Plain t) {w : Asker} (hw : Asker.home w) {a k : Nat} (ha : a < 2 ^ 30) (hk : k = 6 ∨ k = 7) : t.vaPlace w a k = .ok (a, pteAtt 0x1F) := by
  have size : a / (1 * leafSize 2) = 0 := by simp only [leafSize]; omega
  have frame : pteFrame 0x1F = 0 := by decide
  have bits : pteBit 0x1F 1 = true ∧ pteBit 0x1F 2 = true ∧ pteBit 0x1F 4 = true := by decide
  obtain ⟨e, he, e1, e2, e3⟩ : ∃ e : TlbEntry, leafEntry 0 a 2 1 0x1F = e ∧ e.pa + (a - e.va) = a ∧ e.att = pteAtt 0x1F ∧ e.allows k = true := by
    refine ⟨_, rfl, ?_, rfl, ?_⟩
    · simp only [leafEntry, size, frame]
      omega
    · rcases hk with rfl | rfl <;> simp [TlbEntry.allows, leafEntry, bits]
  have pod : inPod a = false := by simp [inPod]; omega
  have hbm : isHbm a = true := by simp [isHbm]; omega
  have att : (pteAtt 0x1F).bdb = false := by decide
  have quiet : t.faultOut 0 0 a k = none := by simp [State.faultOut, h.faults]
  have one_ : pageBytesOf t.phys (pteAtt 31) a 1 = some (t.phys a 1) := by simp [pageBytesOf, att]
  simp [State.vaPlace, State.doom, State.holdsOn, hw.1, hw.2, h.doomed, quiet, one_, State.engineTr, h.walk ha, he, State.frameTr, e1, e2, e3, pod, State.reach, localReach, hbm, h.calm,
    h.poisoned, State.pageBytes, att]

theorem Plain.ofMem {t : State} (h : Plain t) {m : Memory} (hm : ∀ x, x = 0x1000 ∨ x = 0x2000 ∨ x = 0x3000 ∨ x = 0x4000 → m.read x 8 = t.mem.read x 8) :
    Plain { t with mem := m } :=
  ⟨h.dir, h.boot, h.poisoned, h.atab, h.retiring, h.faults, h.doomed, h.regions, h.wrec, fun x hx => (hm x hx).trans (h.pages x hx)⟩

theorem Plain.record {t : State} (h : Plain t) (pa : Nat) : Plain (t.recordWrite pa) := by
  unfold State.recordWrite
  split
  · refine h.ofMem fun x hx => Memory.read_write_apart _ _ _ _ _ ?_
    have : (t.die (homeDie pa)).wrec = 0x4000000000 := h.wrec _ (by unfold homeDie; omega)
    simp only [recordByte, this, show (0x4000000000 : Word).toNat = 0x4000000000 by decide]
    omega
  · exact h

theorem Plain.setHot {t : State} (h : Plain t) (d : Nat) (hot : SMap Nat) : Plain (t.setDie d { t.die d with hot := hot }) := by
  have e : ∀ k, (t.setDie d { t.die d with hot := hot }).die k = if d = k then { t.die d with hot := hot } else t.die k := fun k => State.die_setDie t d k _
  refine ⟨h.dir, h.boot, h.poisoned, ?_, ?_, ?_, ?_, fun k hk => ?_, fun k hk => ?_, h.pages⟩ <;> rw [e] <;> split
  · rename_i e
    exact e ▸ h.atab
  · exact h.atab
  · rename_i e
    exact e ▸ h.retiring
  · exact h.retiring
  · rename_i e
    exact e ▸ h.faults
  · exact h.faults
  · rename_i e
    exact e ▸ h.doomed
  · exact h.doomed
  · rename_i e
    exact e ▸ h.regions k hk
  · exact h.regions k hk
  · rename_i e
    exact e ▸ h.wrec k hk
  · exact h.wrec k hk

theorem Plain.heat {t : State} (h : Plain t) (pa n : Nat) : Plain (t.heat pa n) := by
  unfold State.heat
  split
  · exact h.setHot _ _
  · exact h

theorem Plain.engineRead {t : State} (h : Plain t) (pa n : Nat) : Plain (t.engineRead pa n) := by
  have none_ : t.dirIn pa n = [] := by simp [State.dirIn, h.dir]
  simp only [State.engineRead, none_, List.foldl_nil]
  exact h.heat _ _

theorem Plain.engineWalked {t : State} (h : Plain t) (die asid va : Nat) : Plain (t.engineWalked die asid va) :=
  foldl_keeps Plain (fun s x => s.engineRead x 8) (fun _ b ha => ha.engineRead b 8) _ _ h

theorem Plain.tellFar {t : State} (h : Plain t) (pa : Nat) (bs : List Byte) : t.tellFar pa bs = t := by
  have none_ : t.tellRegions t.nextId pa bs = [] := by
    refine List.filterMap_eq_nil_iff.mpr fun r _ => ?_
    simp [State.sharers, h.regions (homeDie r) (by unfold homeDie; omega)]
  simp [State.tellFar, none_]

theorem Plain.store {t : State} (h : Plain t) {x : Nat} (hx : 0x5000 ≤ x ∧ x < 2 ^ 30) (bs : List Byte) : Plain (t.engineStore 0 .phys x bs) := by
  have pod : inPod x = false := by simp [inPod]; omega
  have none_ : t.dirIn x bs.length = [] := by simp [State.dirIn, h.dir]
  have dev : isPcie x = false := by simp [isPcie]; omega
  simp only [State.engineStore, pod, Bool.false_eq_true, if_false, State.engineWrite, dev, none_, List.foldl_nil, h.tellFar]
  refine Plain.heat (Plain.ofMem ?_ fun y hy => Memory.read_write_apart _ _ _ _ _ (by omega)) _ _
  exact foldl_keeps Plain (fun s f => s.recordWrite f) (fun a b ha => ha.record b) _ _ h

theorem pagePieces_within {x : Nat × Nat} : ∀ (fuel a n : Nat), x ∈ pagePieces fuel a n → a ≤ x.1 ∧ x.1 < a + n
  | 0, _, _, h => by simp [pagePieces] at h
  | fuel + 1, a, n, h => by
    simp only [pagePieces] at h
    split at h
    · simp at h
    · rcases List.mem_cons.mp h with rfl | h
      · exact ⟨le_refl _, by simp only; omega⟩
      · have := pagePieces_within fuel _ _ h
        omega

theorem Fetch.all_ok {α β : Type} (f : α → Fetch β) (P : α → β → Prop) (l : List α) (h : ∀ x ∈ l, ∃ y, f x = .ok y ∧ P x y) :
    ∃ ys, Fetch.all f l = .ok ys ∧ ∀ y ∈ ys, ∃ x ∈ l, P x y := by
  induction l with
  | nil => exact ⟨[], rfl, by simp⟩
  | cons a l ih =>
    obtain ⟨y, hy, hp⟩ := h a (by simp)
    obtain ⟨ys, hys, hq⟩ := ih fun x hx => h x (by simp [hx])
    refine ⟨y :: ys, by simp [Fetch.all, hy, hys, Fetch.andThen], fun z hz => ?_⟩
    rcases List.mem_cons.mp hz with rfl | hz
    · exact ⟨a, by simp, hp⟩
    · obtain ⟨x, hx, hp⟩ := hq z hz
      exact ⟨x, by simp [hx], hp⟩

theorem foldl_keeps_on {α β : Type} (P : α → Prop) (f : α → β → α) : ∀ (l : List β) (a : α), (∀ a, ∀ b ∈ l, P a → P (f a b)) → P a → P (l.foldl f a)
  | [], _, _, h => h
  | b :: l, a, hf, h => foldl_keeps_on P f l (f a b) (fun a c hc => hf a c (by simp [hc])) (hf a b (by simp) h)

theorem Plain.vaStore {t : State} (h : Plain t) {w : Asker} (hw : Asker.home w) {a : Nat} (bs : List Byte) (ha : 0x5000 ≤ a ∧ a + bs.length ≤ 2 ^ 30) :
    ∃ u, t.vaStore w a bs = .ok u ∧ Plain u := by
  obtain ⟨ys, hys, hq⟩ := Fetch.all_ok (fun (p : Nat × Nat) => (t.vaPlace w p.1 7).andThen (fun x => .ok (x.1, p)))
    (fun p y => y = (p.1, p)) (pagePieces (bs.length / 4096 + 2) a bs.length) (fun p hp => by
      have := pagePieces_within _ _ _ hp
      exact ⟨(p.1, p), by simp [h.place hw (a := p.1) (by omega) (.inr rfl), Fetch.andThen], rfl⟩)
  have free : ys.any (fun x => !inPod x.1 && !t.homesFree x.1 x.2.2) = false := by
    simp [State.homesFree, State.dirIn, h.dir]
  refine ⟨ys.foldl (fun s x => (s.engineWalked w.die w.asid x.2.1).engineStore w.die .phys x.1 ((bs.drop (x.2.1 - a)).take x.2.2)) t, ?_, ?_⟩
  · rw [State.vaStore, hys]
    simp only [Fetch.andThen, free, Bool.false_eq_true, if_false]
  · refine foldl_keeps_on Plain _ ys t (fun s y hy hs => ?_) h
    obtain ⟨p, hp, rfl⟩ := hq y hy
    have := pagePieces_within _ _ _ hp
    rw [hw.1]
    exact (hs.engineWalked _ _ _).store (by simp only; omega) _

/-- Bytes within a page read at home. -/
theorem Plain.fetch {t : State} (h : Plain t) {w : Asker} (hw : Asker.home w) {a n : Nat} (ha : a < 2 ^ 29) (hn : 0 < n ∧ a % 4096 + n ≤ 4096) : t.vaFetch w a n = .ok (t.mem.read a n) := by
  have att : (pteAtt 0x1F).bdb = false := by decide
  have pod : inPod a = false := by simp [inPod]; omega
  have home : t.homeBytes 0 a n (pteAtt 0x1F) = some (t.mem.read a n) := by
    have p0 : ∀ k, pageRangeOf t.phys (pteAtt 0x1F) k (a + n) 0 = some [] := fun k => by cases k <;> simp [pageRangeOf]
    simp [State.homeBytes, pod, State.pageRange, pageRangeOf, show n ≠ 0 by omega, att, pageBytesOf, p0, phys_low t (show a < 2 ^ 41 by omega)]
  have calm : t.snoops a n = false := by simp [State.snoops, State.dirIn, h.dir]
  have still : t.walkSnoop 0 0 a = none := by simp [State.walkSnoop, State.snoops, State.dirIn, h.dir]
  have pieces : pagePieces (n / 4096 + 2) a n = [(a, n)] := by
    have : min n (4096 - a % 4096) = n := by omega
    have rest : pagePieces (n / 4096 + 1) (a + n) 0 = [] := by simp [pagePieces]
    show (if n = 0 then [] else (a, min n (4096 - a % 4096)) :: pagePieces (n / 4096 + 1) (a + min n (4096 - a % 4096)) (n - min n (4096 - a % 4096))) = _
    rw [if_neg (by omega), this, Nat.sub_self, rest]
  simp [State.vaFetch, pieces, Fetch.all, h.place hw (a := a) (by omega) (.inl rfl), hw.1, hw.2, Fetch.andThen, home, calm, still]

/-! ## Hypotheses met: the front end -/

def cmdBytes (op a : Nat) (set0 set1 image crec : Nat) : List Byte :=
  leBytes 1 op ++ leBytes 7 0 ++ leBytes 8 a ++ leBytes 16 set0 ++ leBytes 16 set1 ++ leBytes 8 image ++ leBytes 8 crec

/-- Page tables, a launch descriptor at 0x9000 (an NPU kernel of one level) with its loop table at 0x9100. -/
def front : State :=
  let s := walked
  let desc := leBytes 4 0 ++ leBytes 4 5 ++ leBytes 56 0 ++ leBytes 8 0x9100 ++ leBytes 1 1 ++ leBytes 55 0
  { s with mem := (s.mem.write 0x9000 desc).write 0x9100 (leBytes 4 1 ++ leBytes 4 1) }

/-- Queue 0 of die 0 with one command at 0x8000. -/
def queuedCmd (cmd : List Byte) : State :=
  let s := { front with mem := front.mem.write 0x8000 cmd }
  s.setDie 0 { s.die 0 with cmdQueues := [(0, { CmdQueue.reset with base := 0x8000, ctl := 0x80, tail := 1 })] }

def takable (s : State) : Bool :=
  s.offersCmd (s.cmdq 0 0) && s.mayTake 0 0 (ctlPrio (s.cmdq 0 0).ctl) && !s.snoops (s.cmdq 0 0).slotAt 64

/-- The state in which queue 0's command is taken. -/
def took (s : State) : State := (s.setCmdq 0 0 ((s.cmdq 0 0).take (s.command (s.cmdq 0 0)))).serves 0 0

/-- The asker of queue 0 of die 0. -/
def askQ : Asker := Asker.queue 0 0 0

def isKernel (x : Fetch (Nat ⊕ Kernel)) : Bool :=
  match x with
  | .ok (.inr _) => true
  | _ => false

/-- A wait for the 8 bytes at 0x10000 to reach 5. -/
def waitingCmd : State :=
  let s := queuedCmd (cmdBytes 4 0x10000 5 0 0 0xA000)
  (took s).setCmdq 0 0 { (took s).cmdq 0 0 with reading := false, waiting := some (0x10000, 5) }

theorem test_witness_Commands :
    (let s := queuedCmd (cmdBytes 1 0x9000 1 0 0 0xA000)
     takable s = true ∧ fieldAt (s.command (s.cmdq 0 0)) 0 1 = 1 ∧ (took s).earlyRefusal 0 0 (s.command (s.cmdq 0 0)) true = none ∧
       isKernel ((took s).readKernel askQ 0x9000 [0] 1 0 ((took s).gfxTable (s.cmdq 0 0).gs)) = true) ∧
    (let s := queuedCmd (cmdBytes 4 0x10000 5 0 0 0xA000)
     takable s = true ∧ fieldAt (s.command (s.cmdq 0 0)) 0 1 = 4 ∧ (took s).earlyRefusal 0 0 (s.command (s.cmdq 0 0)) false = none) ∧
    (let s := queuedCmd (cmdBytes 2 0xB000 1 0 0 0xA000)
     takable s = true ∧ fieldAt (s.command (s.cmdq 0 0)) 0 1 = 2 ∧ (took s).earlyRefusal 0 0 (s.command (s.cmdq 0 0)) false = none ∧
       s.chains.find? (fun c => c.die == 0 && c.q == 0) = none) ∧
    (let s := queuedCmd (cmdBytes 3 0xB000 (2 ^ 127) 0 0 0xA000)
     takable s = true ∧ fieldAt (s.command (s.cmdq 0 0)) 0 1 = 3 ∧ (took s).earlyRefusal 0 0 (s.command (s.cmdq 0 0)) true = none ∧
       s.reader 0 0 = none ∧ s.passes.find? (fun p => p.die == 0 && p.own == 0 && p.q == 0) = none ∧ fieldAt (s.command (s.cmdq 0 0)) 16 16 = 2 ^ 127) ∧
    (let s := queuedCmd (cmdBytes 1 0x9000 1 0 1 0xA000)
     takable s = true ∧ (took s).earlyRefusal 0 0 (s.command (s.cmdq 0 0)) true = some 6 ∧
       fetched ((took s).postRecord askQ 0xA000 (recordBytes 1 6 0 0 0 0 s.now 0x9000)) = true) ∧
    ((waitingCmd.cmdq 0 0).waiting = some (0x10000, 5) ∧ fetched (waitingCmd.vaFetch askQ 0x10000 8) = true ∧
      fetched (waitingCmd.postRecord askQ (fieldAt (waitingCmd.cmdq 0 0).cmd 56 8) (recordBytes 0 0 0 0 0 0 0 0x10000)) = true) ∧
    -- a taken command that is still read, and a queue that offers none
    (((took (queuedCmd (cmdBytes 1 0x9000 1 0 0 0xA000))).cmdq 0 0).reading = true ∧ front.offersCmd (front.cmdq 0 0) = false ∧
      (front.cmdq 0 0).reading = false) := by
  decide

def chain0 : Chain :=
  { id := 3, die := 0, q := 0, solver := none, asid := 0, prio := 0, flags := 0, crec := 0xA000, a := 0xB000, next := some 0xB000, active := Bank.zero, shadow := Bank.zero,
    current := none, crews := 0, ready := false, taken := false, held := false, killed := false }

/-- A chain whose record at 0xB000 writes the descriptor register; the same chain with its operator ready. -/
def chainS : State :=
  { front with
    mem := front.mem.write 0xB000 (leBytes 8 0 ++ leBytes 2 1 ++ leBytes 6 0 ++ leBytes 8 0 ++ leBytes 8 0x9000)
    chains := [chain0] }

def readyChain : Chain := { chain0 with ready := true, next := none, shadow := { Bank.zero with desc := 0x9000, set0 := 1 } }

def swapS : State := { chainS with chains := [readyChain] }

/-- A D level (kind 2) with the other die far behind. -/
def swapD : State :=
  let s := { swapS with mem := (swapS.mem.write 0x9100 (leBytes 4 2 ++ leBytes 4 2)), chains := [{ readyChain with shadow := { readyChain.shadow with set1 := 1 } }] }
  s.setDie 0 { s.die 0 with laPhase := 5 }

/-- A task queue of ASID 0 with one task, whose descriptor at 0x9200 names the kernel. -/
def taskS : State :=
  let m := (front.mem.write 0x40000 (leBytes 8 0x9200 ++ leBytes 8 0)).write 0x9200 (leBytes 8 0x9000 ++ leBytes 1 8 ++ leBytes 55 0)
  let s := { front with mem := m }
  s.setDie 0 { s.die 0 with taskQueues := [(0, { TaskQueue.reset with base := 0x40000, ctl := 0x80, tail := 1, set0 := 1 })] }

/-- The state in which its task is taken. -/
def taskTook : State := (taskS.setTaskq 0 0 ((taskS.taskq 0 0).take 0x9200 0)).serves 0 64

def card0 (kind : Nat) : Card :=
  { serial := 4, asid := 0, kind := kind, a := 0x8000, b := 0, reads := [], writes := [], preds := [], started := false, taken := false, uid := 1, cluster := 16, got := [], wrote := 0, held := none }

def cardS (kind : Nat) : State :=
  let s := queuedCmd (cmdBytes 1 0x9000 1 0 0 0xA000)
  s.setDie 0 { s.die 0 with cmdQueues := [], cards := [card0 kind] }

def overS (src : Source) : State :=
  { front with launches := [{ launch0 with src := src, retired := 1, crec := 0xA000 }], crew := Crew.absent }

theorem test_witness_ChainsTasksCards_chain :
    (chainS.chains.find? (fun c => c.die == 0 && c.q == 0) = some chain0 ∧ chain0.killed = false ∧ chain0.ready = false ∧ chain0.next = some 0xB000 ∧ 0xB000 % 64 = 0 ∧
      (let h := leBytes 8 0 ++ leBytes 2 1 ++ leBytes 6 0
       let b := leBytes 8 0 ++ leBytes 8 0x9000
       (match chainS.vaFetch askQ.ahead 0xB000 16 with | .ok x => x == h | _ => false) = true ∧ fieldAt h 8 2 ≤ 1023 ∧ fieldAt h 10 6 = 0 ∧
         (match chainS.vaFetch askQ.ahead (0xB000 + 16) 16 with | .ok x => x == b | _ => false) = true ∧ (chain0.shadow.apply false b 1).isSome = true)) ∧
    (swapS.chains.find? (fun c => c.id == 3) = some readyChain ∧ readyChain.ready = true ∧ readyChain.current = none ∧ readyChain.shadow.image.toNat % 4096 = 0 ∧ swapS.asidGood 0 0 = true ∧
      isKernel (swapS.readKernel askQ 0x9000 [0] 1 0 (swapS.gfxTable (swapS.cmdq 0 0).gs)) = true ∧ swapS.leadHolds 0 = false ∧ swapS.leadHolds 1 = false ∧ chain0.asker.ahead = askQ.ahead ∧
      readyChain.asker = askQ ∧ readyChain.offers = false) ∧
    ((swapD.leadHolds 0 || swapD.leadHolds 1) = true ∧ swapD.asidGood 0 0 = true ∧
      (match swapD.readKernel askQ 0x9000 [0] 1 1 (swapD.gfxTable (swapD.cmdq 0 0).gs) with
       | .ok (.inr k) => k.twoDies
       | _ => false) = true) := by decide

theorem test_witness_ChainsTasksCards_task :
    ((taskS.taskq 0 0).reading = none ∧ taskS.offersTask (taskS.taskq 0 0) = true ∧ taskS.mayTake 0 64 0 = true ∧ taskS.snoops (taskS.taskq 0 0).slotAt 16 = false ∧
      (match taskTook.vaFetch (Asker.task 0 0 0) 0x9200 64 with | .ok b => taskGood 0x9200 b | _ => false) = true ∧ taskTook.asidGood 0 0 = true ∧
      (match taskTook.readKernel (Asker.task 0 0 0) 0x9000 [0] 1 0 ([], []) with | .ok (.inr k) => k.npu | _ => false) = true) ∧
    (((cardS 1).die 0).cards.find? (fun k => k.serial == 4) = some (card0 1) ∧ ((cardS 1).die 0).cardReady (card0 1) = true ∧ (cardS 1).mayTake 0 cardQueueNo 0 = true ∧
      (match (cardS 1).vaFetch ((card0 1).asker 0) 0x8000 64 with | .ok b => fieldAt b 0 1 == 1 && ((cardS 1).earlyRefusal 0 0 b true).isNone | _ => false) = true ∧
      isKernel ((cardS 1).readKernel ((card0 1).asker 0) 0x9000 [0] 1 0 ([], [])) = true) ∧
    (((cardS 3).die 0).cardReady (card0 3) = true ∧ ((cardS 3).sequencer ((cardS 3).leastSequencer 0)).queue.length < 4) ∧
    (let s := overS (.queue 0 0)
     (s.launches.find? (fun l => l.id == 7)).isSome = true ∧ s.launches.all (fun l => s.launchOver l) = true ∧
       s.phaseDue launch0 = none ∧ fetched (s.postRecord askQ 0xA000 (recordBytes 0 0 0 1 0 0 s.now 0)) = true) ∧
    (overS (.card 0 4)).launches.all (fun l => (overS (.card 0 4)).launchOver l) = true := by decide

/-- An operator of a chain with a D level, whose crew on die 0 has retired. -/
def phaseS : State :=
  { front with
    launches := [{ launch0 with
      src := .chain 1, retired := 1, kern := { Kernel.empty with levels := [(2, 1)] },
      parts := [{ uid := 1, q := 0, place := front.crew.place, idx := [], arrived := [], colls := [], retired := true }] }],
    crew := Crew.absent }

theorem test_witness_ChainsTasksCards_phase :
    (match phaseS.launches.find? (fun l => l.id == 7) with
     | some l => phaseS.phaseDue l == some 0
     | none => false) = true := by decide

/-! ## Hypotheses met: the slot table and kills -/

/-- The firmware's record for the one crew of a launch. -/
def record0 : BindRec :=
  { BindRec.empty with g := List.replicate 6 0 }

def launchK : Launch := { launch0 with kern := { Kernel.empty with levels := [(1, 1)] }, bound := 0 }

def bindS : State := { with_ crewS with launches := [launchK] }

/-- A graphics crew pre-empted with a sealed image at 0x100000. -/
def resumeS : State :=
  let c := { crewS with life := .preempted, sealed := true, hasImage := true, place := { crewS.place with npu := false }, bindRec := { BindRec.empty with image := 0x100000 } }
  let s := tabled (with_ c)
  { s with mem := s.mem.write 0x100010 [1] }

def resume0 : BindRec := { BindRec.empty with resume := true, image := 0x100000 }

theorem test_witness_Bind :
    (agentExists 128 = true ∧ 7 < coreSlots (placeAt 128 7).npu ∧ record0.resume = false ∧ bindS.bindRefusal 128 7 record0 none = some 2) ∧
    (bindS.bindRefusal 128 0 record0 none = none ∧ bindS.bindTarget (placeAt 128 0) record0 = some (launchK, 0) ∧ record0.group = 0 ∧
      (∀ c ∈ bindS.crews, c.uid ≠ bindS.nextId)) ∧
    (agentExists 0 = true ∧ 0 < coreSlots (placeAt 0 0).npu ∧ resume0.resume = true ∧ resumeS.imageOf resume0 = some resumeS.crew ∧
      resumeS.bindRefusal 0 0 resume0 none = some 4) := by decide

theorem test_witness_Bind_image : (match resumeS.imageBytes (Asker.bind 0 0 0 0) resume0 resumeS.crew with
    | .ok b => (resumeS.bindRefusal 0 0 resume0 (some b)).isNone
    | _ => false) = true := by decide +kernel

theorem test_witness_Bind_source : ∀ d n, launchK.src ≠ .draw d n := by
  intro d n h
  cases h

def kill0 : Kill := { asid := 0xFFFF, crews := 1, jobs := 0, entries := 0, writes := 0 }

def leading : State := { with_ { crewS with bindRec := { crewS.bindRec with asid := 0xFFFF } } with acting := true, fwImage := some 0 }

theorem test_witness_ContextKill :
    (leading.acting = true ∧ 0xFFFF < 2 ^ 16 ∧ leading.kills.any (fun k => k.asid == 0xFFFF) = false ∧ leading.crew.killedBy 0xFFFF = true) ∧
    (({ leading with kills := [kill0] } : State).kills.any (fun k => k.asid == 0xFFFF) = true ∧
      ({ leading with kills := [kill0] } : State).kills.find? (fun k => k.asid == 0xFFFF) = some kill0 ∧ leading.writes.any (fun w => w.asid == 0xFFFF) = false ∧
      leading.dies.any (fun x => x.2.fabOut.any (fun y => y.asid == 0xFFFF && y.store)) = false) ∧
    ({ leading with writes := [{ write0 with asid := 0xFFFF }] } : State).writes.any (fun w => w.asid == 0xFFFF) = true := by decide

/-! ## Hypotheses met: the sequencer and the raster front end -/

def one : List Byte := leBytes 4 0x3F800000

def solverDesc : List Byte :=
  leBytes 8 0xC000 ++ leBytes 8 0xD000 ++ leBytes 8 0xE000 ++ leBytes 4 1 ++ leBytes 4 1 ++ leBytes 8 0xB000 ++ leBytes 8 0x20000 ++ one ++ leBytes 4 0 ++
    leBytes 4 0x3F000000 ++ one ++ leBytes 4 1 ++ leBytes 60 0

def coefTable (stages : Nat) : List Byte := leBytes 1 stages ++ [1, 2, 0] ++ leBytes 356 0

/-- A sample at t = 0 with h = 1 that ends at 1; its areas from 0x21000 up. -/
def sample0 : List Byte :=
  leBytes 4 0 ++ one ++ one ++ leBytes 12 0 ++ leBytes 8 0x21000 ++ leBytes 8 0x22000 ++ leBytes 8 0x23000 ++ leBytes 8 0x24000 ++ leBytes 8 0

/-- Sequencer 16 with one job, its descriptor at 0xA000. -/
def solverS (desc : List Byte) : State :=
  let s := walked
  let m := ((s.mem.write 0xA000 desc).write 0xC000 (coefTable 2)).write 0xE000 sample0
  ({ s with mem := m } : State).setSequencer 16 { run := none, queue := [{ serial := 4, die := 0, asid := 0, desc := 0xA000, uid := 1 }] }

/-- The asker of sequencer 16. -/
def askS : Asker := Asker.solver 16 0

def got {α : Type} [BEq α] (x : Fetch α) (v : α) : Bool :=
  match x with
  | .ok y => y == v
  | _ => false

/-- A job whose descriptor breaks a rule, at its end. -/
def badRun : SolverRun := { SolverRun.idle ⟨4, 0, 0, 0xA000, 1⟩ with fin := some (2, 0xFFFFFFFF, none) }

theorem test_witness_SolverAndRaster_start :
    ((solverS solverDesc).sequencer 16 = { run := none, queue := [{ serial := 4, die := 0, asid := 0, desc := 0xA000, uid := 1 }] } ∧
      got ((solverS solverDesc).vaFetch askS 0xA000 128) solverDesc = true ∧ solverDescGood 0xA000 solverDesc = true ∧
      solverDescGood 0xA000 (List.replicate 128 0) = false ∧ ((solverS solverDesc).setSequencer 16 { run := some badRun, queue := [] }).sequencer 16 =
        { run := some badRun, queue := [] } ∧ badRun.fin = some (2, 0xFFFFFFFF, none) ∧ badRun.phase ≠ 2 ∧
      fetched (((solverS solverDesc).setSequencer 16 { run := some badRun, queue := [] }).vaStore askS (0xA000 + 68) (leBytes 4 2 ++ leBytes 4 0xFFFFFFFF ++ [])) = true) ∧
    (got ((solverS solverDesc).vaFetch askS 0xE000 64) sample0 = true ∧ coefGood (coefTable 2) = true ∧ sampleGood 0x3F000000 sample0 = true ∧
      FVal.eq (f32 (fieldAt sample0 0 4)) (f32 (fieldAt sample0 8 4)) = false ∧
      fetched ((solverS solverDesc).solverStore askS [] [(0xE000 + 22, leBytes 1 0)]) = true) := by decide

/-- Entries 1 in the factor table. -/
def ftab1 (n : Nat) : List Byte := (List.replicate n one).flatten

theorem ftab1_drop : ∀ i n : Nat, i ≤ n → (ftab1 n).drop (4 * i) = ftab1 (n - i)
  | 0, n, _ => by simp
  | i + 1, 0, h => by omega
  | i + 1, n + 1, h => by
    have : ftab1 (n + 1) = one ++ ftab1 n := by simp [ftab1, List.replicate_succ]
    rw [this, Nat.mul_succ, Nat.add_comm, ← List.drop_drop, List.drop_left' (by rfl), ftab1_drop i n (by omega)]
    congr 1
    omega

theorem ftab1_good : ftabGood (ftab1 256) = true := by
  refine List.all_eq_true.mpr fun i hi => ?_
  have : i < 256 := List.mem_range.mp hi
  obtain ⟨k, hk⟩ : ∃ k, 256 - i = k + 1 := ⟨255 - i, by omega⟩
  have e : ftab1 (k + 1) = one ++ ftab1 k := by simp [ftab1, List.replicate_succ]
  rw [fieldAt, ftab1_drop i 256 (by omega), hk, e, List.take_left' (by rfl)]
  decide

/-- The same machine with the factor table at 0xD000, and its write records out of the way. -/
def solverT : State :=
  let s := solverS solverDesc
  let t := ({ s with mem := s.mem.write 0xD000 (ftab1 256) } : State).setDie 0 { s.die 0 with wrec := 0x4000000000 }
  t.setDie 1 { t.die 1 with wrec := 0x4000000000 }

theorem solverT_read {x n : Nat} (h : x + n ≤ 0xD000 ∨ 0xD400 ≤ x) : solverT.mem.read x n = (solverS solverDesc).mem.read x n := by
  have : (ftab1 256).length = 1024 := by decide
  exact Memory.read_write_apart _ _ _ _ _ (by omega)

theorem solverT_plain : Plain solverT := by
  refine ⟨rfl, rfl, rfl, rfl, rfl, rfl, rfl, fun d hd => ?_, fun d hd => ?_, fun x hx => ?_⟩
  · interval_cases d <;> rfl
  · interval_cases d <;> rfl
  · rw [solverT_read (by omega)]
    rcases hx with rfl | rfl | rfl | rfl <;> decide

theorem test_witness_SolverAndRaster_tables :
    solverT.sequencer 16 = { run := none, queue := [{ serial := 4, die := 0, asid := 0, desc := 0xA000, uid := 1 }] } ∧
      solverT.vaFetch askS 0xA000 128 = .ok solverDesc ∧ solverT.vaFetch askS 0xC000 360 = .ok (coefTable 2) ∧ solverT.vaFetch askS 0xD000 1024 = .ok (ftab1 256) ∧
      solverT.vaFetch askS 0xE000 64 = .ok sample0 ∧ ∃ t, solverT.solverStore askS [] [(0xE000 + 22, leBytes 1 0)] = .ok t := by
  have h := solverT_plain
  have w : Asker.home askS := ⟨rfl, rfl⟩
  refine ⟨rfl, ?_, ?_, ?_, ?_, ?_⟩
  · rw [h.fetch w (by decide) (by decide), solverT_read (by decide)]
    exact congrArg Fetch.ok (by decide)
  · rw [h.fetch w (by decide) (by decide), solverT_read (by decide)]
    exact congrArg Fetch.ok (by decide +kernel)
  · rw [h.fetch w (by decide) (by decide)]
    exact congrArg Fetch.ok (Memory.read_write_same _ 0xD000 (ftab1 256))
  · rw [h.fetch w (by decide) (by decide), solverT_read (by decide)]
    exact congrArg Fetch.ok (by decide)
  · obtain ⟨u, hu, -⟩ := h.vaStore w (a := 0xE000 + 22) (leBytes 1 0) (by decide)
    refine ⟨u, ?_⟩
    have e : solverT.clashBytes [] (0xE000 + 22) (leBytes 1 0) = leBytes 1 0 := rfl
    simp only [State.solverStore, List.foldl_cons, List.foldl_nil, Fetch.andThen, e, hu, List.isEmpty_nil, if_true]

def run0 (phase : Nat) (ended : Option Nat) : SolverRun :=
  { job := { serial := 4, die := 0, asid := 0, desc := 0xA000, uid := 1 }, dbytes := solverDesc, coef := coefTable 2, ftab := [], stage := 0, batch := [0], rows := [0],
    clash := [], rounds := 0, chain := 3, ended := ended, phase := phase, fin := none }

def solving (r : SolverRun) : State := (solverS solverDesc).setSequencer 16 { run := some r, queue := [] }

def rowsOf (x : Fetch (List ((Nat × List Byte) ⊕ (Nat × Nat × List Nat)))) : List (Nat × Nat × List Nat) :=
  match x with
  | .ok l => l.filterMap (fun x => x.getRight?)
  | _ => []

theorem test_witness_SolverAndRaster_stage :
    ((solving (run0 1 none)).sequencer 16 = { run := some (run0 1 none), queue := [] } ∧ (run0 1 none).fin = none ∧ (run0 1 none).asker 16 = askS ∧ (run0 1 none).phase ≠ 0 ∧ (run0 1 (some 4)).ended = some (3 + 1) ∧
      fetched ((solving { run0 1 (some 4) with fin := some (4, 0xFFFFFFFF, some 0) }).vaStore askS (0xA000 + 68) (leBytes 4 4 ++ leBytes 4 0xFFFFFFFF ++ leBytes 4 0)) = true) ∧
    ((run0 1 (some 0)).ended = some 0 ∧ (run0 1 (some 0)).stage + 1 < (run0 1 (some 0)).stages ∧
      (let s := solving (run0 1 (some 0))
       let r := run0 1 (some 0)
       let l := Fetch.all (fun (x : Nat × Nat) => (s.vaFetch askS (r.sampleAddr x.2) 64).andThen (fun b =>
         (s.solverRead askS r.clash (r.d 40 8 + 32832 + 4 * r.nelem * (r.rows.length + x.1)) (4 * r.nelem)).andThen (fun v => .ok (fieldAt b 32 8 + 4 * r.stage * r.nelem, v))))
         (r.rows.mapIdx (fun p k => (p, k)))
       fetched l = true ∧ (match l with | .ok w => fetched (s.solverStore askS [] w) | _ => false) = true)) := by decide

theorem test_witness_SolverAndRaster_rows :
    rowsOf (Fetch.all ((solving (run0 0 none)).stageRow askS (run0 0 none)) (run0 0 none).batch) = [(0, 0, [0])] := by decide +kernel

theorem test_witness_SolverAndRaster_batch :
    fetched ((solving (run0 0 none)).solverStore askS [] ((run0 0 none).batchWrites [(0, 0, [0])])) = true := by decide +kernel

/-- A target of 8 x 4 pixels, one sample, colour at 0x30000; a draw of one triangle whose vertices stand at 0x34000. -/
def target0 : List Byte := leBytes 4 0 ++ leBytes 2 8 ++ leBytes 2 4 ++ leBytes 8 0x30000 ++ leBytes 4 128 ++ leBytes 44 0

def draw0 (vertices : Nat) : List Byte := leBytes 4 0 ++ leBytes 4 1 ++ leBytes 16 0 ++ leBytes 8 0x34000 ++ leBytes 8 0 ++ leBytes 4 vertices ++ leBytes 20 0

/-- A pass whose tray has `free` blocks left. -/
def passB (draw : List Byte) (free : Nat) : Pass := { pass0 with state := 1, target := target0, draw := draw, taken := trayBlocks - free }

def vertex (x y : Nat) : List Byte := leBytes 4 x ++ leBytes 4 y ++ leBytes 8 0

def rasterS (p : Pass) : State :=
  { walked with mem := walked.mem.write 0x34000 (vertex 0 0 ++ vertex 0x41000000 0 ++ vertex 0 0x41000000), passes := [p] }

/-- The triangle (0, 0), (8, 0), (0, 8) in 24.8 fixed point. -/
def tri0 : Prim := { prim := 0, draw := 0, xs := [0, 2048, 0], ys := [0, 0, 2048], zs := [0, 0, 0] }

def primOf (s : State) (p : Pass) : Option Prim :=
  match s.vertices p with
  | .ok v => v.bind (makePrim p.nextPrim p.drawNo false)
  | _ => none

theorem test_witness_SolverAndRaster_bin :
    (let p := passB (draw0 3) 1
     (rasterS p).untested 0 0 = none ∧ (rasterS p).passes.find? (fun p => p.die == 0 && p.hasFront 0 && (p.state == 1 || p.state == 2)) = some p ∧ p.draw ≠ [] ∧ p.vlaunch = none ∧ p.nextPrim < fieldAt p.draw 4 4 ∧
       fetched ((rasterS p).vertices p) = true ∧ primOf (rasterS p) p = some tri0 ∧ p.blocksNeeded (p.binsOf tri0) ≤ p.free ∧
       (passB (draw0 3) 0).free < (passB (draw0 3) 0).blocksNeeded ((passB (draw0 3) 0).binsOf tri0)) ∧
    (let p := passB (draw0 0) 1
     fetched ((rasterS p).vertices p) = true ∧ primOf (rasterS p) p = none) ∧
    fieldAt (draw0 3) 4 4 ≤ ({ passB (draw0 3) 1 with nextPrim := 1 } : Pass).nextPrim := by decide

def passF : Pass := { passB [] 0 with state := 3, bins := [(0, [(0, tri0)])], stored := [0] }

/-- R389, R392: the edge x + y = 8 passes block (0, 0) of 8 x 4 pixels: its sample at (3.5, 3.5), lane 23, is inside, the one at (7.5, 3.5) is not. -/
theorem test_cover : ((passF.blockCover tri0 0 0).getD 23 0, (passF.blockCover tri0 0 0).getD 31 0) = (1, 0) := by decide

def rid1 : RasterId := { rid with tri := tri0, cover := List.replicate 32 1, pass := List.replicate 32 1 }

def export0 : Export := { id := 9, rid := rid1, lane := 0, target := 0, rgba := [0x3F800000, 0, 0, 0x3F800000], depth := none, word := 0 }

/-- An export behind one of an earlier primitive at its pixel. -/
def export1 : Export := { export0 with id := 10, rid := { rid1 with seq := 1 } }

def passE : Pass := { passF with exports := [export0, export1] }

theorem test_witness_SolverAndRaster_render :
    (passF.state = 3 ∧ passF.cur = none ∧ passF.ended < passF.binCount ∧ passF.bins.find? (fun x => x.1 == passF.ended) = some (0, [(0, tri0)]) ∧
      fetched ((rasterS passF).startBin passF 0 [(0, tri0)]) = true ∧ ({ passF with ended := 1 } : Pass).binCount ≤ 1) ∧
    ((rasterS passE).passes.find? (fun p => p.die == 0 && p.exports.any (fun e => e.id == 9 && e.rid.fe == 0)) = some passE ∧
      passE.exports.find? (fun e => e.id == 9) = some export0 ∧ (rasterS passE).blendWaits passE export0 = false ∧ (rasterS passE).blendWaits passE export1 = true ∧
      fetched ((rasterS passE).exportRun passE export0) = true) ∧
    (swapD.leadHolds 0 = true ∧ walked.leadHolds 0 = false) ∧
    ((rasterS passF).writesOver (fun u => passF.past.any (fun k => k.1 == u)) = true ∧
      ({ rasterS passF with writes := [write0] } : State).writesOver (fun u => [(1, 0)].any (fun k : Nat × Nat => k.1 == u)) = false) := by decide

/-! ## Hypotheses met: registers and firmware -/

def eventS : State :=
  walked.setDie 0 { walked.die 0 with events := [⟨4, []⟩], eqBase := 0x50000 }

theorem test_witness_RegistersAndFirmware_registers :
    ((eventS.die 0).events = [⟨4, []⟩] ∧ (eventS.die 0).eqRoom = true ∧ eventS.homesFree 0x50000 64 = true) ∧
    (({ eventS.die 0 with eqTail := 15 } : Die).eqRoom = false) ∧ walked.homesFree (walked.die 0).hcBase.toNat 786432 = true ∧
    ((0 % 16 = 0 ∨ 12 < 0 % 16) ∧ 12 < 13 % 16 ∧ (walked.die 0).splitBusy.isSome = false ∧ ¬(12 < 12 % 16) ∧ (walked.die 0).windows = []) ∧
    (walked.power = true ∧ ({ walked with power := false } : State).power = false ∧ 4 % 8 ≠ 0) ∧ 63 < 64 := by decide

def booted : State := { with_ crewS with fwImage := some 0 }

/-- The images that R425 accepts are opaque, so each case is one of the two. -/
theorem test_witness_RegistersAndFirmware_boot :
    State.reset.fwImage = none ∧ ((State.reset.imageGood 0 = true) ∨ (State.reset.imageGood 0 = false)) := by
  refine ⟨rfl, ?_⟩
  cases State.reset.imageGood 0
  · exact .inr rfl
  · exact .inl rfl

theorem test_witness_RegistersAndFirmware_firmware :
    booted.fwImage.isSome = true ∧ (leading.acting = true ∧ leading.now < leading.renewed + 54000000) ∧
    (({ leading with now := 54000000 } : State).renewed + 54000000 ≤ 54000000) ∧ (booted.acting = false ∧ ({ booted with now := 60000000 } : State).renewed + 60000000 ≤ 60000000) ∧
    booted.now < booted.renewed + 60000000 ∧
    (({ booted with bsState := [(0, 1)], trained := [0] } : State).reduced = true ∧ 1 < 2 ∧ ({ booted with bsState := [(0, 1)], trained := [0] } : State).trained = [1 - 1]) ∧
    (({ booted with bsState := [(0, 1)] } : State).reduced = true ∧ ({ booted with bsState := [(0, 1)] } : State).trained = []) ∧
    (booted.power = true ∧ 3 < 4 ∧ (3, 7) ∉ (booted.die 0).fenced) ∧
    ((booted.setDie 0 { booted.die 0 with retrying := [(3, 7)] }).die 0).retrying = (3, 7) :: [] ∧ booted.svnBlowing = false := by decide

/-! ## Hypotheses met: the machine -/

def isOkWord (x : Fetch (List Byte)) : Option (List Byte) :=
  match x with
  | .ok b => some b
  | _ => none

/-- The turn of a stream taken. -/
def turned (s : State) (u : Nat) (st : Strm) : State := (s.tick.takeTurn u st).getD State.reset

theorem test_witness_StepRunsDecoded :
    (let s := State.reset.withFetchWord 32 0b000001_000011_000001_000010_00000000
     let t := turned s 1 .s
     s.nextAct = some (.issue 1 .s) ∧ (s.tick.takeTurn 1 .s).isSome = true ∧ t.crew.canIssue .s = true ∧ (t.crew.strm .s).pend = none ∧ t.crew.offGrid .s = false ∧
       (isOkWord (t.fetchWord .s)).map leNat = some 0b000001_000011_000001_000010_00000000 ∧
       decode t.crew.env .s 0b000001_000011_000001_000010_00000000 = some (.add 3 1 2)) ∧
    (let t := turned (State.reset.withFetchWord 32 0xFC000000) 1 .s
     (isOkWord (t.fetchWord .s)).map leNat = some 0xFC000000 ∧ decode t.crew.env .s 0xFC000000 = none) ∧
    (let s := State.reset.withFetchWord 32 0
     let t := turned { s with crew := { s.crew with s := { s.crew.s with pc := 1 } } } 1 .s
     t.crew.canIssue .s = true ∧ t.crew.offGrid .s = true) ∧
    (let s := State.reset.withFetchWord 32 0
     (turned { s with crew := { s.crew with yielded := true } } 1 .s).crew.canIssue .s = false) ∧
    ({ State.reset with agenda := [.input .leaderRenew] } : State).agenda = .input .leaderRenew :: [] := by decide

theorem test_witness_StepKeepsMemoryCanonical :
    (State.reset.mem.wf = true ∧ State.reset.spad.wf = true ∧ State.reset.caddy.wf = true) ∧
    goes (step (State.reset.withFetchWord 32 0b000001_000011_000001_000010_00000000)) = true := by decide

/-- R97: a step runs the ADD it fetches. -/
theorem test_step_add : after (step (State.reset.withFetchWord 32 0b000001_000011_000001_000010_00000000)) (fun t => t.crew.s.pc) = some 1 := by decide

/-! ## Further cases of the hypotheses -/

theorem test_witness_TrapsThatWaitOrHalt_nested :
    (let c : Crew := { handled crewS with act := true }
     c.act = true ∧ c.trap = none) ∧
    (let c : Crew := { crewS with trap := some { strm := .v, code := causeCode 3 8, tval := 7, epc := 2, pended := true } }
     c.inFlight = false ∧ c.bindRec.handlerValid = false) ∧ ¬(crewS.act = true) := by decide

/-- A BAR that has arrived at its place, its group of one complete, and one that waits for a second arrival. -/
theorem test_witness_FencesAndBarriers_arrived :
    crewS.barAt = none ∧
    (let c : Crew := { crewS with bars := [(0, 2, 1)] }
     c.barAt = some (0, 2, 1) ∧ c.readyScalar (.bar 2 0) [] 0 = true ∧ (with_ c).allArrived c 2 1 = true) ∧
    (let c : Crew := { crewS with bars := [(0, 2, 5)], launch := 7 }
     let part : Part := { uid := 1, q := 0, place := c.place, idx := [], arrived := [], colls := [], retired := false }
     ({ with_ c with launches := [{ launch0 with parts := [part] }] } : State).allArrived c 2 5 = false) := by decide

theorem test_witness_TaskWords_states :
    ([0, 1, 2] : List Nat).all (fun k =>
      let s := tasking.setDie 0 { tasking.die 0 with fences := [(3, { serial := 3, asid := 0, launch := 0, state := k })] }
      let c := regs crewS [(2, fenceHandle 0 3 0)]
      ((s.fenceOf 0 (c.rdG 2)).map (fun f => f.state)) == some k) = true := by decide

/-- A load of class 2 under way in the vector stream, and one of the same class on path 4 behind it. -/
theorem test_witness_VectorLoads_waits :
    (let f : VMemF := { wordM with a := reg 770, path := 4 }
     let s := withWord { spadWord .load with elems := [{ spadElem with space := .phys, addr := 0x10000 }] }
     s.readyVector (.vld { f with d := reg 6, tok := 2 }) hdr (loadUse { f with d := reg 6 } .linear) (some 2) = true ∧ s.settled.crew.vPending 2 = true ∧
       (places s { f with d := reg 6 } .linear).isLeft = true) ∧
    (onV.crew.vPending 2 || onV.readWaits onV.crew .v 2 onV.nextId 0) = false := by decide

/-- A pixel crew whose PEXP has no lane left. -/
theorem test_witness_GraphicsMessages_export :
    (let v : VWord := { texWord with kind := .message (.pexp { wordG with ty := 0, d := reg 0, b := reg 0, desc := 0 }), args := [], regs := [] }
     let t : State := { onG with passes := [pass0], crew := { onG.crew with raster := some rid, vwords := [v] } }
     t.crew.life = .running ∧ t.crew.vwords.find? (fun x => x.id == 5) = some v ∧
       gotLanes (some (t.exportReads { wordG with ty := 0, d := reg 0, b := reg 0, desc := 0 } v)) = some []) := by decide

/-- MSCA with its scales and one with a register written late; a nest's step held back by a table to be loaded again. -/
theorem test_witness_TileStepCompletes_scale :
    (withArray crewH (arrayOf (.scale 2 3 [1] [1]) 0 0)).crew.array = some (arrayOf (.scale 2 3 [1] [1]) 0 0) ∧ (arrayOf (.scale 2 3 [1] [1]) 0 0).late = [] ∧
    (let s := tableS
     s.crew.proLoads.any (fun l => l.id == 2) = false) := by decide

theorem test_witness_CopyEvents_range :
    (let j := onK.crew.jobOf 5 0 (.cpyKr kh kr)
     let s := withJob onK (.cpyKr kh kr)
     let x := placeOr j.a
     j.reads = [] ∧ j.wrote = 0 ∧ rangePieces x.2 (j.c.toNat + 64) = [(x.2, j.c.toNat + 64)] ∧ rangePieces j.b.toNat 64 = [(j.b.toNat, 64)] ∧
       (match s.fetchBytes s.crew x.1 x.2 (j.c.toNat + 64) with
        | .ok bs => bs.length == 64 && fetched ((s.engineSees j.oc 5 x.1 x.2 64).storeRange s.crew 0 j.b.toNat bs)
        | _ => false) = true) := by decide

/-- A job held on a page that is out. -/
theorem test_witness_CopyEvents_held :
    (let s := withJob { onK with crew := regs onK.crew [(48, 0x80000000)] } (.cpyKr kh kr)
     let j := s.crew.jobOf 5 0 (.cpyKr kh kr)
     s.crew.jobs.find? (fun x => x.id == 5) = some j ∧ (match (s.runJob s.crew j).fin with | .held va _ => va == 0x80000000 | _ => false) = true) := by decide

theorem test_witness_CrewEvents_deadlock :
    blockedS.deadlocked (!(with_ blockedS).tablesDue.isEmpty) = true ∧
    (let e := scalarElem 0x10000 4 (some (0x10000, Att.plain))
     let c : Crew := { crewS with sres := [{ id := 3, d := 7, kind := .atomic e false 2 0 0 3 1 0 (some 9) }] }
     ({ c with sres := c.sres.takeWhile (fun x => x.id != 3) } : Crew).classPending 2 = false) := by decide

theorem test_witness_CrewLeaves_late :
    (let c : Crew := { inFlight crewS with life := .preempted }
     (with_ c).findCrew 1 = some c ∧ c.proLoads.any (fun p => p.id == 1) = false ∧ c.vwords.any (fun v => v.id == 1) = false ∧
       c.sres.find? (fun x => x.id == 1) = some { id := 1, d := 3, kind := .value 5 }) := by decide

theorem test_witness_Translation_core :
    (entryAt (walked.coreWalk 128 0 0x10000)).isSome = true ∧ cured (walked.coreWalk 128 0 0x40000000) = some 0 ∧
    ((walked.walked 128 0 0x40000000).faultOut 0 0 0x40000000 1 = none) := by decide

theorem test_witness_Controller_waits :
    ((ctlS 5 0 1 0 0 0 0).ctlNext 0 ≠ none ∧ (ctlS 5 0 1 0x20000 0 0 0).harvestFree 0 3 (0x20000 + 1 * 4096) 1 0x20000 = true) ∧
    ((leafS 6).sharersIn 0x20000 4096 = [] ∧ (leafS 6).migrating 0 0x20000 0x30000 4096 = false ∧
      ((leafS 6).migrateBegins 1 { cmd0 6 with va := 0x21000, b := 0x20 * 2 ^ 18 + 0x1F }).migrating 0 0x20000 0x30000 4096 = true ∧
      ((leafS 6).setDie 0 { (leafS 6).die 0 with tcRun := some (cmd0 1), tcActed := true }).ctlWaits 0 1 = some (cmd0 1)) ∧
    ((leafS 1).underWay 3 0x20000 4096 [] 9 = false ∧
      ({ leafS 1 with writes := [{ write0 with asid := 3, va := 0x20000 }] } : State).underWay 3 0x20000 4096 [] 9 = true) ∧
    ((running (leafS 3) (cmd0 3)).die 0).tcActed = false ∧ (running (leafS 3) (cmd0 3)).homesFree 0x6100 8 = true := by decide

theorem test_witness_Caches_sharers :
    isCache 128 = true ∧ onPage.sharers 0x10000 = [] ∧ (l1Size 128).isSome = true ∧ (onF32.pageOf 128 0x10000).mtype = 0 ∧
    ((onF32.dirFind 0x10000 (onF32.pageOf 128 0x10000).grain).2.isEmpty = true ∧ (onF32.dirFind 0x10000 (onF32.pageOf 128 0x10000).grain).2.etype = 0) ∧
    onPage.homesFree 0x10000 32 = true ∧ inPod (0x10000 % 2 ^ 52) = false := by decide

/-- Registers: an offset that names none, a snapshot with its array free and one with it busy. -/
theorem test_witness_RegistersAndFirmware_offsets :
    (registerNamed 0x1030 = false ∧ (0x1030 : Nat) ≠ 2 ^ 24 ∧ registerNamed 0x10 = true ∧ registerNamed 0x160 = true) ∧
    (let s := walked.setDie 0 { walked.die 0 with hot := [(3, 9)] }
     ((s.die 0).hot.map Prod.fst).Nodup ∧ s.homesFree (s.die 0).hcBase.toNat 786432 = true) ∧
    ({ walked with dir := [(0, { DirEntry.vacant 32 with busy := some 1 })] } : State).homesFree (walked.die 0).hcBase.toNat 786432 = false := by decide

/-- RESUME refused; MIGRATE whose leaf does not stand; an inbound atomic, and a port that is fenced. -/
theorem test_witness_Controller_refused :
    (nextCtl (ctlS 2 0 1 0 0 0 1) = some (2, 0, false) ∧ nextCtl (ctlS 2 1 1 0 0 0 1) = some (2, 1, false)) ∧
    (nextCtl (ctlS 6 0 1 0x20000 0x6100 (0x30 * 2 ^ 18 + 0x1F) 0) = some (6, 0, true) ∧
      ((ctlS 6 0 1 0x20000 0x6100 (0x30 * 2 ^ 18 + 0x1F) 0).ctlNext 0).map (fun x => (ctlS 6 0 1 0x20000 0x6100 (0x30 * 2 ^ 18 + 0x1F) 0).holdsLeaf 0 x.1) =
        some false) ∧
    ((leafS 2).replaying 3 0x20000 4096 = false ∧
      (let s := leafS 2
       let w : Write := { write0 with asid := 3, va := 0x20000 }
       (s.setCore 128 { s.core 128 with log := [{ w := w, page := 0x20, released := true }] }).replaying 3 0x20000 4096 = true)) := by decide

theorem test_witness_Fabric_forms :
    ((fabS.setDie 0 { fabS.die 0 with fenced := [(3, 1)] }).die 0).fenced.contains (3, 1) = true ∧ (fabS.die 0).fenced.contains (3, 1) = false ∧
    (((fabS.die 0).fabIn.map (fun x => { x.2 with aop := some (0, 3, 1, 0) })).map (fun r => (r.data, r.aop))).head? = some (none, some (0, 3, 1, 0)) ∧
    isPcie 0x10000 = false ∧ isPcie (2 ^ 41) = true := by decide

/-- A list of one element, its end, in a card of kind 2. -/
theorem test_witness_ChainsTasksCards_list :
    ((card0 2).held = none ∧ (match (cardS 2).cardRun 0 { card0 2 with a := 0x10000 } with
      | some r => fetched r.fin
      | none => false) = true) := by decide

theorem test_witness_Bind_stray :
    (let s := bindS.setDie 0 { bindS.die 0 with fenced := [(0, 128)] }
     s.coreShut 128 = true ∧ s.bindRefusal 128 0 record0 none = some 1) ∧
    -- a record that resumes what has no image, and one whose image is not sealed
    (bindS.bindRefusal 128 0 resume0 none = some 4 ∧ bindS.imageOf resume0 = none) ∧
    (let s : State := { resumeS with crew := { resumeS.crew with sealed := false } }
     s.bindRefusal 0 0 resume0 none = some 4 ∧ (s.imageOf resume0).isSome = true ∧ s.bindRefusal 0 0 resume0 (some []) = some 4) ∧
    (let s := tabled { with_ { crewS with uid := 1 } with nextId := 2 }
     let r : BindRec := { record0 with desc := 0x10000 }
     s.bindRefusal 128 0 r none = none ∧ s.bindTarget (placeAt 128 0) r = none ∧ (s.pixelTarget (placeAt 128 0) r).isNone = true ∧
       fetched (s.strayKernel (Asker.bind 0 128 0 0) 0x10000) = true ∧ ∀ c ∈ s.crews, c.uid ≠ s.nextId) := by decide

theorem test_witness_ContextKill_writes :
    ({ leading with crew := Crew.absent, kills := [kill0] } : State).mayStillWrite 0xFFFF = false ∧ leading.leads = true ∧ leading.mayStillWrite 0xFFFF = true ∧
    ({ leading with now := 54000000 } : State).leads = false ∧
    ({ leading with writes := [{ write0 with asid := 0xFFFF }] } : State).mayStillWrite 0xFFFF = true := by decide

/-- A pixel crew of a late draw that is bound and waits for its front end. -/
theorem test_witness_SolverAndRaster_pixel :
    (let t : RasterId := { rid with late := true, fe := 3 }
     let p : Pass := { passF with crews := [1] }
     let s : State := { rasterS p with crew := { crewS with life := .waiting, raster := some t } }
     (s.untested 0 3).isSome = true ∧ t.late = true) ∧ (16 * 0 + 3) % 16 = 3 := by decide

/-! ## An image that can be written -/

/-- A graphics crew that halts, its image at 0x100000. -/
def haltS : State :=
  let c := { crewS with life := .halting, place := { crewS.place with npu := false }, bindRec := { BindRec.empty with image := 0x100000 } }
  let s := tabled (with_ c)
  let t := s.setDie 0 { s.die 0 with wrec := 0x4000000000 }
  t.setDie 1 { t.die 1 with wrec := 0x4000000000 }

theorem haltS_plain : Plain haltS := by
  refine ⟨rfl, rfl, rfl, by decide, by decide, by decide, by decide, fun d hd => ?_, fun d hd => ?_, fun x hx => rfl⟩ <;> interval_cases d <;> decide

theorem writeImage_ok (c : Crew) (hc : c.place.die = 0 ∧ c.bindRec.asid = 0 ∧ c.bindRec.image = 0x100000) :
    ∀ (l : List (Nat × List Byte)) (t : State), Plain t → (∀ p ∈ l, p.1 + p.2.length ≤ 0x100000) →
      ∃ u, l.foldl (fun (x : Fetch State) p => x.andThen (fun t => t.vaStore c.imageAsker (c.bindRec.image + p.1) p.2)) (.ok t) = .ok u
  | [], t, _, _ => ⟨t, rfl⟩
  | p :: l, t, h, hl => by
    have := hl p (by simp)
    obtain ⟨u, hu, pu⟩ := h.vaStore (w := c.imageAsker) ⟨hc.1, hc.2.1⟩ (a := 0x100000 + p.1) p.2 (by omega)
    have e : (Fetch.ok t).andThen (fun t => t.vaStore c.imageAsker (c.bindRec.image + p.1) p.2) = .ok u := by
      rw [hc.2.2]
      exact hu
    rw [List.foldl_cons, e]
    exact writeImage_ok c hc l u pu (fun q hq => hl q (by simp [hq]))

theorem leBytes_length : ∀ n x : Nat, (leBytes n x).length = n
  | 0, _ => rfl
  | n + 1, x => by simp [leBytes, leBytes_length n]

theorem flatMap_length {α β : Type} (f : α → List β) (k : Nat) (l : List α) (h : ∀ a ∈ l, (f a).length = k) : (l.flatMap f).length = l.length * k := by
  induction l with
  | nil => simp
  | cons a l ih =>
    rw [List.flatMap_cons, List.length_append, h a (by simp), ih fun b hb => h b (by simp [hb]), List.length_cons]
    ring

theorem openBytes_length (free off n : Nat) : (openBytes free off n).length = n := by simp [openBytes]

theorem blockBytes_length (c : Crew) (free first n : Nat) : (c.blockBytes free first n).length = 32 * n * 4 := by
  rw [Crew.blockBytes, flatMap_length _ 4 _ fun _ _ => leBytes_length _ _, List.length_range]

theorem maskBytes_length (c : Crew) (free : Nat) : (c.maskBytes free).length = 64 := by
  rw [Crew.maskBytes, flatMap_length _ 4 _ fun _ _ => leBytes_length _ _, List.length_range]

theorem streamImage_length (x : Stream) (free off : Nat) : (x.imageBytes free off).length = 16 := by
  have pc : (if x.status = .idle then openBytes free (off + 8) 8 else leBytes 8 x.pc.toNat).length = 8 := by
    split
    · exact openBytes_length _ _ _
    · exact leBytes_length _ _
  unfold Stream.imageBytes
  split <;> simp only [List.length_append, leBytes_length, pc]

theorem imageWord_length (i : Option Instr) (a b c d : Nat) : (imageWord i a b c d).length = 32 := by
  cases i <;> simp only [imageWord, List.length_append, leBytes_length]

theorem imageMatrix_length (c : Crew) : c.imageMatrix.length = 176 := by
  have port : ∀ f : Nat → List Byte, (∀ n, (f n).length = 32) → ((List.range 4).flatMap f).length = 128 := fun f h => by
    rw [flatMap_length f 32 _ fun n _ => h n, List.length_range]
  simp only [Crew.imageMatrix, List.length_append, leBytes_length]
  rw [port _ fun n => by split <;> exact imageWord_length _ _ _ _ _]
  split <;> simp only [imageWord_length]

theorem imageReservations_length (c : Crew) : c.imageReservations.length = 128 := by
  have queue : ∀ l : List DqEntry, ∀ f : Nat → Nat,
      (leBytes 2 l.length ++ leBytes 2 (ofBits 16 (fun i => (l[i]?).any (fun e => e.bytes.isSome))) ++
        (List.range 16).flatMap (fun i => leBytes 1 (f i)) ++ leBytes 4 0).length = 24 := fun l f => by
    simp only [List.length_append, leBytes_length, flatMap_length _ 1 _ fun _ _ => leBytes_length 1 _, List.length_range]
  simp only [Crew.imageReservations, List.length_append, leBytes_length, flatMap_length _ 24 _ fun q _ => queue (c.dq.getD q []) _, List.length_range]

theorem imageNest_length (c : Crew) (h : c.nest = none ∧ c.shadow.length ≤ 6 ∧ c.active.length ≤ 6) : c.imageNest.length ≤ 256 := by
  have level : ∀ (l : List NestLevel), (l.flatMap NestLevel.bytes).length = l.length * 16 := fun l =>
    flatMap_length _ 16 _ fun _ _ => by simp only [NestLevel.bytes, List.length_append, leBytes_length]
  simp only [Crew.imageNest, h.1, List.length_append, leBytes_length, level, flatMap_length _ 2 _ fun _ _ => leBytes_length 2 _, List.length_cons, List.length_nil]
  omega

theorem slice_length (s : State) (p : Place) : (if s.hasSlice p then s.sliceBytes p else openBytes s.free 0x3000 16384).length = 16384 := by
  split
  · rw [State.sliceBytes, flatMap_length _ 1 _ fun _ _ => by simp [State.space, Memory.read, SMap.read], List.length_range]
  · exact openBytes_length _ _ _

theorem image_fits (s : State) (c : Crew) (sealed : Bool)
    (h : c.place.npu = false ∧ c.ext ≤ 4 ∧ c.vwords = [] ∧ c.sres = [] ∧ c.jobs = [] ∧ c.proLoads = [] ∧ [Strm.s, .v, .m, .k].all (fun st => (c.strm st).kept.isEmpty) = true)
    (hn : c.nest = none ∧ c.shadow.length ≤ 6 ∧ c.active.length ≤ 6) : ∀ p ∈ s.image c sealed, p.1 + p.2.length ≤ 0x100000 := by
  obtain ⟨h1, h3, h4, h5, h6, h7, h8⟩ := h
  have nest := imageNest_length c hn
  have records : c.imageRecords = [] := by
    simp only [List.all_cons, List.all_nil, Bool.and_true, Bool.and_eq_true, List.isEmpty_iff] at h8
    simp [Crew.imageRecords, h4, h5, h6, h7, h8]
  intro p hp
  simp only [State.image, h1, records, Bool.false_eq_true, if_false, List.append_nil, List.cons_append, List.nil_append, List.mem_cons, List.not_mem_nil, or_false,
    recordOffset] at hp
  rcases hp with rfl | rfl | rfl | rfl | rfl | rfl | rfl | rfl | rfl | rfl | rfl | rfl <;>
    simp only [Crew.imageHeader, List.length_append, leBytes_length, openBytes_length, blockBytes_length, maskBytes_length, streamImage_length, slice_length,
      imageMatrix_length, imageReservations_length,
      flatMap_length _ 8 _ fun _ _ => leBytes_length 8 _, List.length_range, List.length_nil] <;>
    first
      | omega
      | decide

theorem test_witness_CrewLeaves_image :
    (let h := haltS.crew.halted (haltS.tableInUse haltS.crew)
     haltS.focus 1 = some haltS ∧ haltS.mayHalt haltS.crew = true ∧ h.stop = none ∧ ∃ t1, haltS.writeImage h h.sealable = .ok t1) := by
  refine ⟨rfl, by decide, by decide, ?_⟩
  exact writeImage_ok (haltS.crew.halted (haltS.tableInUse haltS.crew)) (by decide) _ haltS haltS_plain
    (image_fits _ _ _ (by decide) (by decide))

end Sys2Proof.Tests
end

/-!
PROOFS. Scalar control and the loop registers (R110, R111, R114, R115): what a taken transfer does to the loop counts, that neither the
taking of a trap nor ERET touches a loop register, and what branches, jumps and loop breaks do once they are ready.
-/

namespace Sys2Proof.Machine

/-! ## The loop registers are kept by traps and returns -/

/-- The loop registers of the crew `d` are those of `c` (R114). -/
def Crew.sameLoops (c d : Crew) : Prop := d.ls = c.ls ∧ d.le = c.le ∧ d.lc = c.lc

theorem Crew.sameLoops.refl (c : Crew) : c.sameLoops c := ⟨rfl, rfl, rfl⟩

theorem Crew.sameLoops.trans {c d e : Crew} (h : c.sameLoops d) (k : d.sameLoops e) : c.sameLoops e := by
  obtain ⟨ls, le, lc⟩ := h
  obtain ⟨ls', le', lc'⟩ := k
  exact ⟨ls'.trans ls, le'.trans le, lc'.trans lc⟩

theorem Crew.setStrm_sameLoops (c : Crew) (st : Strm) (x : Stream) : c.sameLoops (c.setStrm st x) := ⟨rfl, rfl, rfl⟩

theorem Crew.block_sameLoops (c : Crew) (st : Strm) (w : Wait) (mark : Nat) : c.sameLoops (c.block st w mark) :=
  c.setStrm_sameLoops _ _

theorem Crew.popPend_sameLoops (c : Crew) (st : Strm) : c.sameLoops (c.popPend st) := by
  unfold Crew.popPend
  dsimp only
  split
  · exact c.setStrm_sameLoops _ _
  · split <;> exact ⟨rfl, rfl, rfl⟩

theorem Crew.enterHandler_sameLoops (c : Crew) (t : TrapReq) : c.sameLoops (c.enterHandler t) := by
  unfold Crew.enterHandler
  split
  · exact c.popPend_sameLoops t.strm
  · exact .refl c

theorem Crew.stopFor_sameLoops (c : Crew) (t : TrapReq) : c.sameLoops (c.stopFor t) := by
  unfold Crew.stopFor Crew.recordTrap
  split <;> exact ⟨rfl, rfl, rfl⟩

/-- The taking of a trap, entered or not, changes no loop register (R114, R254). -/
theorem Crew.takeTrap_sameLoops (c : Crew) : c.sameLoops c.takeTrap := by
  unfold Crew.takeTrap
  split
  · exact .refl c
  · split
    · exact .refl c
    · split
      · exact c.enterHandler_sameLoops _
      · exact c.stopFor_sameLoops _

theorem Crew.raise_sameLoops (c : Crew) (st : Strm) (code : BitVec 9) (tval : Word) (epc : Pc) :
    c.sameLoops (c.raise st code tval epc) :=
  Crew.takeTrap_sameLoops _

theorem Crew.enterPend_sameLoops (c : Crew) (st : Strm) : c.sameLoops (c.enterPend st) := by
  unfold Crew.enterPend
  dsimp only
  split
  · exact .refl c
  · exact Crew.takeTrap_sameLoops _

theorem Crew.resumeStrm_sameLoops (c : Crew) (held : BitVec 4) (st : Strm) : c.sameLoops (c.resumeStrm held st) := by
  unfold Crew.resumeStrm
  split
  · exact c.setStrm_sameLoops _ _
  · exact .refl c

theorem Crew.resumeHeld_sameLoops (c : Crew) (held : BitVec 4) :
    c.sameLoops ((((c.resumeStrm held .v).resumeStrm held .m).resumeStrm held .k).resumeStrm held .s) :=
  (((c.resumeStrm_sameLoops held .v).trans (Crew.resumeStrm_sameLoops _ held .m)).trans
    (Crew.resumeStrm_sameLoops _ held .k)).trans (Crew.resumeStrm_sameLoops _ held .s)

/-- The return itself, and the pending trap that it enters, change no loop register (R114, R257). -/
theorem Crew.eret_sameLoops (c : Crew) : c.sameLoops c.eret := by
  have cleared : c.sameLoops { c with act := false, held := 0, sHeld := false } := ⟨rfl, rfl, rfl⟩
  have resumed := cleared.trans (Crew.resumeHeld_sameLoops _ c.held)
  unfold Crew.eret
  dsimp only
  split
  · exact resumed.trans (Crew.enterPend_sameLoops _ _)
  · exact resumed

/-- The checks before a word change no loop register, so the word changes none if its own meaning does not. -/
theorem Crew.guarded_sameLoops {c : Crew} {st : Strm} {i : Instr} {go : Crew → Crew} (h : c.sameLoops (go c)) :
    c.sameLoops (c.guarded st i go) := by
  unfold Crew.guarded
  split
  · exact .refl c
  · split
    · exact c.enterPend_sameLoops st
    · split
      · exact c.raise_sameLoops ..
      · exact h

theorem Crew.scalar_sameLoops {c : Crew} {i : Instr} {srcs : List GReg} {d : GReg} {go : Crew → Crew} (h : c.sameLoops (go c)) :
    c.sameLoops (c.scalar i srcs d go) := by
  refine Crew.guarded_sameLoops ?_
  split
  · exact c.raise_sameLoops ..
  · split
    · exact c.block_sameLoops ..
    · exact h

/-- Whatever ERET does in a state, be it to wait, to trap or to return, it answers a next state with the loop registers as they were. -/
theorem exec_eret_sameLoops (s : State) : ∃ t, exec .eret s = .next t ∧ s.crew.sameLoops t.crew := by
  refine ⟨_, (rfl : exec .eret s = execEret s), Crew.scalar_sameLoops ?_⟩
  split
  · exact s.crew.eret_sameLoops
  · exact s.crew.raise_sameLoops ..

/-! ## A taken transfer -/

/-- Does the body of level `n` hold the target (R114)? -/
def Crew.bodyHolds (c : Crew) (n : Nat) (target : Pc) : Bool :=
  decide (((SMap.get 0 c.ls n).truncate 18 : Pc) ≤ target) && decide (target ≤ ((SMap.get 0 c.le n).truncate 18 : Pc))

/-- A transfer leaves a level's count where the level's body holds the target; elsewhere the count is zero, cleared or so before. -/
theorem Crew.get_transfer_lc (c : Crew) (target : Pc) {n : Nat} (hn : n < 2) :
    SMap.get 0 (c.transfer target).lc n = if c.bodyHolds n target then SMap.get 0 c.lc n else 0 := by
  have level : n = 0 ∨ n = 1 := by omega
  rcases level with rfl | rfl
  all_goals
    simp only [Crew.transfer, Crew.bodyHolds, BitVec.le_def]
    grind [SMap.get_set]

@[simp] theorem Crew.transfer_pc (c : Crew) (target : Pc) : (c.transfer target).s.pc = target := rfl

/-- Settles O11: a transfer level by level, traps and returns through the loop registers that each of their parts keeps. -/
theorem transferLeavesLoops : Obligations.TransferLeavesLoops :=
  ⟨fun c target _ hn => ⟨c.get_transfer_lc target hn, c.transfer_pc target, c.transfer_ls target, c.transfer_le target⟩,
    Crew.takeTrap_sameLoops, exec_eret_sameLoops⟩

/-! ## The end of a body -/

/-- The end of a word counts level 1 down where the word is the last of that level's body (R113). -/
theorem Crew.get_loopNext_inner (c : Crew) (p : Pc) :
    SMap.get 0 (c.loopNext p).1 1 =
      if SMap.get 0 c.lc 1 ≠ 0 ∧ p = (SMap.get 0 c.le 1).truncate 18 then SMap.get 0 c.lc 1 - 1 else SMap.get 0 c.lc 1 := by
  simp only [Crew.loopNext]
  grind [SMap.get_set]

/-- With no inner loop active, the end of a word counts level 0 down where the word is the last of that level's body (R113). -/
theorem Crew.get_loopNext_outer (c : Crew) (p : Pc) (h : SMap.get 0 c.lc 1 = 0) :
    SMap.get 0 (c.loopNext p).1 0 =
      if SMap.get 0 c.lc 0 ≠ 0 ∧ p = (SMap.get 0 c.le 0).truncate 18 then SMap.get 0 c.lc 0 - 1 else SMap.get 0 c.lc 0 := by
  simp only [Crew.loopNext, h]
  grind [SMap.get_set]

/-! ## Branches, jumps and breaks -/

section
variable {s : State} {d : GReg} {off : BitVec 18}

theorem exec_brf_ready {f : CFlag} {take sense : BitVec 1} (h : s.crew.readyScalar (.brf f take sense off) [] 0 = true) :
    exec (.brf f take sense off) s = .next { s with
      crew :=
        if !s.crew.flagFull f then s.crew.block .s (.flag f) 0
        else
          let c1 := if take = 1 then s.crew.emptyFlag f else s.crew
          if s.crew.flagVal f == (sense == 1) then c1.transfer (s.crew.s.pc + off) else c1.advance } :=
  onCrew_scalar_ready h

theorem exec_jal_ready (h : s.crew.readyScalar (.jal d off) [] d = true) :
    exec (.jal d off) s =
      .next { s with crew := (s.crew.wrG d ((s.crew.s.pc + 1).zeroExtend 64)).transfer (s.crew.s.pc + off) } :=
  onCrew_scalar_ready h

theorem exec_jalr_ready {a : GReg} {i : BitVec 14} (h : s.crew.readyScalar (.jalr d a i) [a] d = true) :
    exec (.jalr d a i) s = .next { s with
      crew :=
        let target := s.crew.rdG a + i.signExtend 64
        if target.toNat < 2 ^ 18 then (s.crew.wrG d ((s.crew.s.pc + 1).zeroExtend 64)).transfer (target.truncate 18)
        else s.crew.raise .s (causeCode 0 7) target s.crew.s.pc } :=
  onCrew_scalar_ready h

end

/-- The counts that LPBRK at level `l` ends the body with: the level's last pass, no inner loop behind an outer break (R115). -/
def Crew.breakCounts (c : Crew) (l : Nat) : SMap Word := SMap.set 0 (if l = 0 then SMap.set 0 c.lc 1 0 else c.lc) l 1

/-- The end of the level's last word behind a break (R115). -/
def Crew.breakNext (c : Crew) (l : Nat) : SMap Word × Pc :=
  ({ c with lc := c.breakCounts l } : Crew).loopNext ((SMap.get 0 c.le l).truncate 18)

theorem exec_lpbrk_ready {s : State} {lv : BitVec 1} (h : s.crew.readyScalar (.lpbrk lv) [] 0 = true) :
    exec (.lpbrk lv) s = .next { s with
      crew :=
        if SMap.get 0 s.crew.lc lv.toNat = 0 then { s.crew with s := s.crew.s.goto (s.crew.s.pc + 1) }
        else { s.crew with lc := (s.crew.breakNext lv.toNat).1, s := s.crew.s.goto (s.crew.breakNext lv.toNat).2 } } :=
  onCrew_scalar_ready h

/-- A break ends its level: the count of 1 falls to 0 at the end of the body. -/
theorem Crew.get_breakNext_lc (c : Crew) {l : Nat} (hl : l < 2) : SMap.get 0 (c.breakNext l).1 l = 0 := by
  have level : l = 0 ∨ l = 1 := by omega
  rcases level with rfl | rfl
  · rw [Crew.breakNext, Crew.get_loopNext_outer] <;> simp [Crew.breakCounts]
  · rw [Crew.breakNext, Crew.get_loopNext_inner]
    simp [Crew.breakCounts]

/-- Settles O12: each word goes on to its meaning where it is ready, and the count of 1 that a break leaves falls to 0. -/
theorem branchesJumpsAndBreaks : Obligations.BranchesJumpsAndBreaks := by
  refine ⟨fun s f take sense off d a i => ⟨fun h => ⟨fun empty => ?_, fun full => ?_⟩, exec_jal_ready, exec_jalr_ready⟩,
    fun s lv h => ⟨fun idle => ?_, fun active => ⟨?_, s.crew.get_breakNext_lc lv.isLt⟩⟩⟩
  · simp [exec_brf_ready h, empty]
  · simp [exec_brf_ready h, full, beq_eq_decide]
  · rw [exec_lpbrk_ready h, if_pos idle]
  · rw [exec_lpbrk_ready h, if_neg active]
    rfl

end Sys2Proof.Machine

/-!
PROOFS. The taking of a trap (R254, R256): a crew whose trap waits issues nothing; the trap waits while a result is in flight; which PCs
the entry saves, which streams it stops, and what it leaves as it was.
-/

namespace Sys2Proof.Machine

/-! ## A trap that waits -/

section
variable {c : Crew} {t : TrapReq}

/-- While a trap waits no stream issues (R254). -/
theorem Crew.canIssue_of_trap (h : c.trap = some t) (st : Strm) : c.canIssue st = false := by simp [Crew.canIssue, h]

/-- A trap waits for the results in flight (R91, R254). -/
theorem Crew.takeTrap_of_inFlight (h : c.inFlight = true) : c.takeTrap = c := by
  unfold Crew.takeTrap
  split
  · rfl
  · rw [if_pos h]

/-- A trap with a valid handler, none running and nothing in flight enters it (R254). -/
theorem Crew.takeTrap_enters (h : c.trap = some t) (landed : c.inFlight = false) (valid : c.bindRec.handlerValid = true)
    (idle : c.act = false) : c.takeTrap = c.enterHandler t := by
  simp [Crew.takeTrap, h, landed, valid, idle]

end

/-! ## The PCs that are saved -/

theorem strmNo_inj {a b : Strm} : strmNo a = strmNo b ↔ a = b := by cases a <;> cases b <;> decide

/-- The saving of one stream's PC, if the stream is stopped (R254). -/
def Crew.savePc (c : Crew) (e : SMap Word) (st : Strm) : SMap Word :=
  if (c.strm st).isIdle then e else SMap.set 0 e (strmNo st) ((c.strm st).pc.zeroExtend 64)

theorem Crew.savePcs_eq_foldl (c : Crew) : c.savePcs = ([.s, .v, .m, .k] : List Strm).foldl c.savePc c.epc := rfl

theorem Crew.get_savePc (c : Crew) (e : SMap Word) (st y : Strm) :
    SMap.get 0 (c.savePc e st) (strmNo y) =
      if st = y ∧ (c.strm y).isIdle = false then (c.strm y).pc.zeroExtend 64 else SMap.get 0 e (strmNo y) := by
  unfold Crew.savePc
  by_cases same : st = y
  · subst same
    cases (c.strm st).isIdle <;> simp
  · split <;> simp [same, strmNo_inj]

/-- The saving of the PCs of some streams changes the sr.epc of just those among them that are stopped. -/
theorem Crew.get_foldl_savePc (c : Crew) (y : Strm) (sts : List Strm) (e : SMap Word) :
    SMap.get 0 (sts.foldl c.savePc e) (strmNo y) =
      if y ∈ sts ∧ (c.strm y).isIdle = false then (c.strm y).pc.zeroExtend 64 else SMap.get 0 e (strmNo y) := by
  induction sts generalizing e with
  | nil => simp
  | cons st sts ih =>
    rw [List.foldl_cons, ih, c.get_savePc]
    grind

/-- Every stopped stream's PC is saved; the sr.epc of an idle-done one stays (R254). -/
theorem Crew.get_savePcs (c : Crew) (y : Strm) :
    SMap.get 0 c.savePcs (strmNo y) =
      if (c.strm y).isIdle then SMap.get 0 c.epc (strmNo y) else (c.strm y).pc.zeroExtend 64 := by
  have listed : y ∈ ([.s, .v, .m, .k] : List Strm) := by cases y <;> decide
  rw [c.savePcs_eq_foldl, c.get_foldl_savePc]
  cases (c.strm y).isIdle <;> simp [listed]

/-! ## The streams that are stopped -/

/-- A stream's bit of `live` says that it is not idle-done (R245). -/
theorem Crew.live_getLsbD (c : Crew) (y : Strm) : c.live.getLsbD (strmNo y) = !(c.strm y).isIdle := by
  have bits : ∀ s v m k : Bool, ∀ y : Strm,
      (BitVec.ofNat 4 ((if s then 0 else 1) + (if v then 0 else 2) + (if m then 0 else 4) + (if k then 0 else 8))).getLsbD (strmNo y) =
        !(match y with | .s => s | .v => v | .m => m | .k => k) := by
    intro s v m k y
    cases y <;> revert s v m k <;> decide
  cases y <;> exact bits c.s.isIdle c.v.isIdle c.m.isIdle c.k.isIdle _

theorem Crew.strm_lowerTok (c : Crew) (k : Tok) (y : Strm) : (c.lowerTok k).strm y = c.strm y := by cases y <;> rfl

/-- A stream replaced by one of the same kind, idle-done or not, leaves every stream so. -/
theorem Crew.setStrm_isIdle (c : Crew) (st y : Strm) {x : Stream} (kept : x.isIdle = (c.strm st).isIdle) :
    ((c.setStrm st x).strm y).isIdle = (c.strm y).isIdle := by
  rw [c.strm_setStrm]
  split
  next same => rw [kept, same]
  next => rfl

/-- Entering a pending trap makes no stream idle-done, and none that is idle-done live (R256). -/
theorem Crew.popPend_isIdle (c : Crew) (st y : Strm) : ((c.popPend st).strm y).isIdle = (c.strm y).isIdle := by
  unfold Crew.popPend
  dsimp only
  split
  · exact c.setStrm_isIdle st y rfl
  · split
    · rw [Crew.strm_lowerTok]
      exact c.setStrm_isIdle st y rfl
    · exact c.setStrm_isIdle st y rfl

/-! ## The handler entered -/

/-- The crew as a trap's entry finds it: a pending trap has given its place to the oldest condition kept behind it (R256). -/
def Crew.popped (c : Crew) (t : TrapReq) : Crew := if t.pended then c.popPend t.strm else c

theorem Crew.popped_isIdle (c : Crew) (t : TrapReq) (y : Strm) : ((c.popped t).strm y).isIdle = (c.strm y).isIdle := by
  unfold Crew.popped
  split
  · exact c.popPend_isIdle t.strm y
  · rfl

/-- The entry changes the scalar stream, the trap registers and what holds the streams, and nothing else of the crew (R254). -/
theorem Crew.enterHandler_eq (c : Crew) (t : TrapReq) :
    c.enterHandler t = { c.popped t with
      epc := SMap.set 0 c.savePcs (strmNo t.strm) (t.epc.zeroExtend 64)
      cause := causeWord t.code t.strm
      tval := t.tval
      act := true
      held := c.live
      trap := none
      sHeld := (c.popped t).s.pend.isSome
      s := (c.popped t).s.goto (BitVec.ofNat 18 c.bindRec.handler) } := rfl

/-- The raising stream's sr.epc is the PC that its rule gives; every other stream's is as saved (R254). -/
theorem Crew.get_enterHandler_epc (c : Crew) (t : TrapReq) (y : Strm) :
    SMap.get 0 (c.enterHandler t).epc (strmNo y) =
      if t.strm = y then t.epc.zeroExtend 64
      else if (c.strm y).isIdle then SMap.get 0 c.epc (strmNo y) else (c.strm y).pc.zeroExtend 64 := by
  rw [c.enterHandler_eq, SMap.get_set, c.get_savePcs]
  simp only [strmNo_inj]

/-- The entry itself does not touch the v, m and k streams (R254). -/
theorem Crew.enterHandler_strm (c : Crew) (t : TrapReq) {y : Strm} (h : y ≠ .s) : (c.enterHandler t).strm y = (c.popped t).strm y := by
  cases y with
  | s => exact absurd rfl h
  | v | m | k => rfl

/-- The handler runs in the scalar stream only: each other stream is idle-done or held (R254). -/
theorem Crew.enterHandler_canIssue (c : Crew) (t : TrapReq) {y : Strm} (h : y ≠ .s) : (c.enterHandler t).canIssue y = false := by
  have act : (c.enterHandler t).act = true := rfl
  have held : (c.enterHandler t).held.getLsbD (strmNo y) = !(c.strm y).isIdle := c.live_getLsbD y
  have idle : ((c.enterHandler t).strm y).isIdle = (c.strm y).isIdle := by rw [c.enterHandler_strm t h, c.popped_isIdle]
  unfold Crew.canIssue
  dsimp only
  rw [act, held, idle]
  cases (c.strm y).isIdle <;> simp [h]

/-- Settles O19: what waits while a trap waits, and the parts of the entry one by one. -/
theorem trapEntry : Obligations.TrapEntry := by
  intro c t waits
  refine ⟨Crew.canIssue_of_trap waits, Crew.takeTrap_of_inFlight, fun landed valid idle => ?_⟩
  dsimp only
  rw [Crew.takeTrap_enters waits landed valid idle]
  refine ⟨rfl, rfl, rfl, rfl, rfl, rfl, rfl, ?raising, ?stopped, fun y other => ⟨c.enterHandler_strm t other, c.enterHandler_canIssue t other⟩, rfl⟩
  case raising => rw [c.get_enterHandler_epc, if_pos rfl]
  case stopped =>
    intro y other
    rw [c.get_enterHandler_epc, if_neg other.symm]

end Sys2Proof.Machine

/-!
PROOFS. Decoding and encoding (R62-R92): a word as its fields one above the other, how each reader reads such a word, and that every reader
gives instructions of its own stream.
-/

namespace Sys2Proof

/-! ## Words as fields -/

/-- A field `x` at the bottom of a word, with the rest `r` of the word above it. -/
def cat {k : Nat} (x : BitVec k) (r : Nat) : Nat := x.toNat + 2 ^ k * r

section
variable {k w : Nat} {x : BitVec k} {r : Nat}

theorem cat_div_skip {lo : Nat} (h : k ≤ lo) : cat x r / 2 ^ lo = r / 2 ^ (lo - k) := by
  obtain ⟨n, rfl⟩ := Nat.exists_eq_add_of_le h
  rw [Nat.pow_add, ← Nat.div_div_eq_div_mul, cat, Nat.add_mul_div_left _ _ (Nat.two_pow_pos k), Nat.div_eq_of_lt x.isLt]
  simp

@[simp] theorem fld_cat_skip {lo : Nat} (h : k ≤ lo) : fld w (cat x r) lo = fld w r (lo - k) := by
  rw [fld, fld, cat_div_skip h]

@[simp] theorem bitsOf_cat_skip {lo len : Nat} (h : k ≤ lo) : bitsOf (cat x r) lo len = bitsOf r (lo - k) len := by
  rw [bitsOf, bitsOf, cat_div_skip h]

theorem cat_mod_low {len : Nat} (h : k ≤ len) : cat x r % 2 ^ len = x.toNat + 2 ^ k * (r % 2 ^ (len - k)) := by
  obtain ⟨n, rfl⟩ := Nat.exists_eq_add_of_le h
  have hlow : x.toNat + 2 ^ k * (r % 2 ^ n) < 2 ^ (k + n) := by
    have hr : r % 2 ^ n < 2 ^ n := Nat.mod_lt _ (Nat.two_pow_pos n)
    calc x.toNat + 2 ^ k * (r % 2 ^ n) < 2 ^ k + 2 ^ k * (r % 2 ^ n) := Nat.add_lt_add_right x.isLt _
      _ = 2 ^ k * (r % 2 ^ n + 1) := by ring
      _ ≤ 2 ^ k * 2 ^ n := Nat.mul_le_mul_left _ hr
      _ = 2 ^ (k + n) := (Nat.pow_add 2 k n).symm
  have split : cat x r = x.toNat + 2 ^ k * (r % 2 ^ n) + 2 ^ (k + n) * (r / 2 ^ n) := by
    rw [cat, Nat.pow_add, Nat.mul_assoc, Nat.add_assoc, ← Nat.mul_add, Nat.mod_add_div]
  rw [split, Nat.add_mul_mod_self_left, Nat.mod_eq_of_lt hlow, Nat.add_sub_cancel_left]

/-- The bits from the bottom of the word up: the field, and what is left of them above it. -/
@[simp] theorem bitsOf_cat_low {len : Nat} (h : k ≤ len) : bitsOf (cat x r) 0 len = x.toNat + 2 ^ k * bitsOf r 0 (len - k) := by
  simpa [bitsOf] using cat_mod_low h

@[simp] theorem fld_cat_here : fld k (cat x r) 0 = x := by
  refine BitVec.eq_of_toNat_eq ?_
  simpa [fld, Nat.mod_one] using cat_mod_low (x := x) (r := r) (Nat.le_refl k)

@[simp] theorem bitsOf_zero_len (n lo : Nat) : bitsOf n lo 0 = 0 := Nat.mod_one _

end

@[simp] theorem chk_false (d : Nat) : chk false d = [] := rfl

theorem chk_eq_nil {b : Bool} {d : Nat} : chk b d = [] ↔ b = false := by cases b <;> simp [chk]

theorem details_of_wf {e : Env} {i : Instr} (h : i.wf e = true) : i.details e = [] := by simpa [Instr.wf] using h

/-- A word made of fields is read as the row that its opcode names. -/
theorem read_row (lo len op : Nat) {read opcode : Nat → Reading} {n m : Nat} {i : Instr} (word : n = m) (here : bitsOf m lo len = op)
    (row : ∀ n, bitsOf n lo len = op → read n = opcode n) (fields : opcode m = ([], some i)) : read n = ([], some i) := by
  rw [word, row m here, fields]

theorem encVC_zero (op : Nat) (g : BitVec 4) (w : BitVec 8) : encVC op g w 0 = cat (0 : BitVec 76) (cat w (cat g op)) := by
  simp only [encVC, cat, BitVec.ofNat_eq_ofNat, BitVec.toNat_ofNat]; ring

/-! ## Vector words -/

/-- What every vector word holds above its mod field (R74). -/
def vUpper (op : Nat) (h : VHdr) (ty : BitVec 5) (d a b : VOpd) : Nat :=
  cat h.hold (cat b.na (cat b.str (cat b.idx (cat a.na (cat a.str (cat a.idx (cat d.na (cat d.str (cat d.idx
    (cat ty (cat h.grp (cat h.mmode (cat h.msk (cat h.wait (cat h.gap op)))))))))))))))

theorem encV_fields (op : Nat) (h : VHdr) (ty : BitVec 5) (d a b : VOpd) (mod : Nat) :
    encV op h ty (encOpd d) (encOpd a) (encOpd b) mod = mod + 2 ^ 18 * vUpper op h ty d a b := by
  simp only [encV, encOpd, cat, vUpper]; ring

theorem encA_fields (op : Nat) (f : VArith) :
    encA op f = cat (0 : BitVec 13) (cat f.sat (cat f.rnd (cat f.nab (vUpper op f.h f.ty f.d f.a f.b)))) := by
  simp only [encA, encV_fields, cat, BitVec.ofNat_eq_ofNat, BitVec.toNat_ofNat]; ring

theorem encL_fields (op : Nat) (f : VImm) :
    encL op f = cat f.imm (cat (0 : BitVec 13) (vUpper op f.h f.ty f.d f.a f.b)) := by
  simp only [encL, encV_fields, cat, BitVec.ofNat_eq_ofNat, BitVec.toNat_ofNat]; ring

theorem encM_fields (op : Nat) (f : VMemF) :
    encM op f = cat f.sub (cat f.sc (cat f.oc (cat f.tok (cat f.path (vUpper op f.h f.ty f.d f.a f.b))))) := by
  simp only [encM, encV_fields, cat]; ring

theorem encG_fields (op : Nat) (f : VGfx) :
    encG op f = cat f.desc (cat f.tok (cat (0 : BitVec 3) (vUpper op f.h f.ty f.d f.a f.b))) := by
  simp only [encG, encV_fields, cat, BitVec.ofNat_eq_ofNat, BitVec.toNat_ofNat]; ring

theorem bitsOf_of_lt {n len : Nat} (h : n < 2 ^ len) : bitsOf n 0 len = n := by
  rw [bitsOf, Nat.pow_zero, Nat.div_one, Nat.mod_eq_of_lt h]

section
variable {op : Nat}

theorem opcode_vUpper (h : VHdr) (ty : BitVec 5) (d a b : VOpd) (small : op < 2 ^ 8) : bitsOf (vUpper op h ty d a b) 70 8 = op := by
  simpa [vUpper] using bitsOf_of_lt small

theorem opcode_encA (f : VArith) (small : op < 2 ^ 8) : bitsOf (encA op f) 88 8 = op := by
  simpa [encA_fields] using opcode_vUpper f.h f.ty f.d f.a f.b small

theorem opcode_encL (f : VImm) (small : op < 2 ^ 8) : bitsOf (encL op f) 88 8 = op := by
  simpa [encL_fields] using opcode_vUpper f.h f.ty f.d f.a f.b small

theorem opcode_encM (f : VMemF) (small : op < 2 ^ 8) : bitsOf (encM op f) 88 8 = op := by
  simpa [encM_fields] using opcode_vUpper f.h f.ty f.d f.a f.b small

theorem opcode_encG (f : VGfx) (small : op < 2 ^ 8) : bitsOf (encG op f) 88 8 = op := by
  simpa [encG_fields] using opcode_vUpper f.h f.ty f.d f.a f.b small

theorem asA_encA (f : VArith) (c : VArith → Instr) : asA c (encA op f) = ([], some (c f)) := by
  simp [encA_fields, asA, readVArith, readVHdr, readVOpd, vUpper, zeroBits]

theorem asL_encL (f : VImm) (c : VImm → Instr) : asL c (encL op f) = ([], some (c f)) := by
  simp [encL_fields, asL, readVImm, readVHdr, readVOpd, vUpper, zeroBits]

theorem asM_encM (f : VMemF) (c : VMemF → Instr) : asM c (encM op f) = ([], some (c f)) := by
  simp [encM_fields, asM, readVMem, readVHdr, readVOpd, vUpper]

theorem asG_encG (f : VGfx) (c : VGfx → Instr) : asG c (encG op f) = ([], some (c f)) := by
  simp [encG_fields, asG, readVGfx, readVHdr, readVOpd, vUpper, zeroBits]

theorem encL_mod (f : VImm) : encL op f % 32 = f.imm.toNat := by
  rw [encL_fields, cat]; omega

theorem encM_mod (f : VMemF) : encM op f % 16 = f.sub.toNat % 16 := by
  rw [encM_fields, cat]; omega

theorem onDq_encM (f : VMemF) : onDq (encM op f) = (f.path.toNat == 6) := by
  simp [onDq, encM_fields]

/-- A word of layout A is read as its row where the row's opcode says so. -/
theorem readVector_encA {f : VArith} {c : VArith → Instr} (small : op < 2 ^ 8)
    (row : ∀ n, bitsOf n 88 8 = op → readVector n = asA c n) : readVector (encA op f) = ([], some (c f)) :=
  (row _ (opcode_encA f small)).trans (asA_encA f c)

theorem readVector_encL {f : VImm} {c : VImm → Instr} (small : op < 2 ^ 8)
    (row : ∀ n, bitsOf n 88 8 = op → n % 32 = f.imm.toNat → readVector n = asL c n) : readVector (encL op f) = ([], some (c f)) :=
  (row _ (opcode_encL f small) (encL_mod f)).trans (asL_encL f c)

theorem readVector_encM {f : VMemF} {c : VMemF → Instr} (small : op < 2 ^ 8)
    (row : ∀ n, bitsOf n 88 8 = op → n % 16 = f.sub.toNat % 16 → onDq n = (f.path.toNat == 6) → readVector n = asM c n) :
    readVector (encM op f) = ([], some (c f)) :=
  (row _ (opcode_encM f small) (encM_mod f) (onDq_encM f)).trans (asM_encM f c)

theorem readVector_encG {f : VGfx} {c : VGfx → Instr} (small : op < 2 ^ 8)
    (row : ∀ n, bitsOf n 88 8 = op → readVector n = asG c n) : readVector (encG op f) = ([], some (c f)) :=
  (row _ (opcode_encG f small)).trans (asG_encG f c)
end

theorem encCmp_fields (f : VCmpF) :
    encV 0x20 f.h f.ty (encOpd f.d) (encOpd f.a) (encOpd f.b) (f.nab.toNat * 2 ^ 17 + f.cond.toNat * 2 ^ 10) =
      cat (0 : BitVec 10) (cat f.cond (cat (0 : BitVec 4) (cat f.nab (vUpper 0x20 f.h f.ty f.d f.a f.b)))) := by
  simp only [encV_fields, cat, BitVec.ofNat_eq_ofNat, BitVec.toNat_ofNat]; ring

theorem readVector_encCmp (f : VCmpF) :
    readVector (encV 0x20 f.h f.ty (encOpd f.d) (encOpd f.a) (encOpd f.b) (f.nab.toNat * 2 ^ 17 + f.cond.toNat * 2 ^ 10)) =
      ([], some (.vcmp f)) := by
  rw [encCmp_fields]
  generalize hn : cat _ _ = n
  have op : bitsOf n 88 8 = 0x20 := by
    simpa [← hn] using opcode_vUpper f.h f.ty f.d f.a f.b (op := 0x20) (by decide)
  rw [readVector, op, ← hn]
  simp [readVHdr, readVOpd, vUpper, zeroBits]

theorem encCvt_fields (f : VCvtF) :
    encV 0x28 f.h f.ty (encOpd f.d) (encOpd f.a) 0 (f.rnd.toNat * 2 ^ 14 + f.sat.toNat * 2 ^ 13 + f.sty.toNat * 2 ^ 8) =
      cat (0 : BitVec 8) (cat f.sty (cat f.sat (cat f.rnd (cat (0 : BitVec 1) (vUpper 0x28 f.h f.ty f.d f.a ⟨0, 0, 0⟩))))) := by
  simp only [encV, encOpd, vUpper, cat, BitVec.ofNat_eq_ofNat, BitVec.toNat_ofNat]; ring

theorem readVector_encCvt (f : VCvtF) :
    readVector (encV 0x28 f.h f.ty (encOpd f.d) (encOpd f.a) 0 (f.rnd.toNat * 2 ^ 14 + f.sat.toNat * 2 ^ 13 + f.sty.toNat * 2 ^ 8)) =
      ([], some (.vcvt f)) := by
  rw [encCvt_fields]
  generalize hn : cat _ _ = n
  have op : bitsOf n 88 8 = 0x28 := by
    simpa [← hn] using opcode_vUpper f.h f.ty f.d f.a ⟨0, 0, 0⟩ (op := 0x28) (by decide)
  rw [readVector, op, ← hn]
  simp [readVHdr, readVOpd, vUpper, zeroBits]

theorem readVector_encode {e : Env} {i : Instr} (h : i.stream = some .v) (wf : i.wf e = true) :
    readVector (encode i) = ([], some i) := by
  have d := details_of_wf wf
  cases i with
  | vadd f | vsub f | vmul f | vfma f | vmin f | vmax f | vabs f | vneg f | vmulh f | vmad f | vrcp f | vrsqrt f | vsqrt f | vexp2 f
  | vlog2 f | vsinpi f | vcospi f => exact readVector_encA (by decide) (fun n op => by rw [readVector, op]; rfl)
  | vshl f | vshr f | vrot f | vand f | vor f | vxor f | vandn f | vclz f | vpopc f | vmpop f | vsig f | vsel f | vtos f | vmov f
  | vshuf f | vrotl f | vbcast f => exact readVector_encL (by decide) (fun n op _ => by rw [readVector, op]; rfl)
  | vbilvTwo f | vbilvThree f => 
    simp only [Instr.details, immSel, List.append_eq_nil_iff, chk_eq_nil, bne_eq_false_iff_eq] at d
    exact readVector_encL (by decide) (fun n op imm => by rw [readVector, op, imm, d.2]; rfl)
  | vmlogAnd f | vmlogOr f | vmlogXor f | vmlogAndn f | vmlogNot f | vmlogMov f  =>
    simp only [Instr.details, mlog, immSel, List.append_eq_nil_iff, chk_eq_nil, bne_eq_false_iff_eq] at d
    exact readVector_encL (by decide) (fun n op imm => by rw [readVector, op, readVmlog, imm, d.2]; rfl)
  | vredAdd f | vredMin f | vredMax f =>
    simp only [Instr.details, immSel, List.append_eq_nil_iff, chk_eq_nil, bne_eq_false_iff_eq] at d
    exact readVector_encL (by decide) (fun n op imm => by rw [readVector, op, readVred, imm, d.2]; rfl)
  | vcmp f => exact readVector_encCmp f
  | vcvt f => exact readVector_encCvt f
  | vld f | vst f =>
    simp only [Instr.details, vmemBase, List.append_eq_nil_iff, chk_eq_nil, Bool.not_eq_eq_eq_not, Bool.not_false] at d
    obtain ⟨⟨⟨_, path⟩, _⟩, _⟩ := d
    have local_ : (f.path.toNat == 6) = false := by
      rw [beq_eq_false_iff_ne]
      rintro h6
      rw [h6] at path
      exact absurd path (by decide)
    exact readVector_encM (by decide) (fun n op _ path => by rw [readVector, op, path, local_]; rfl)
  | vldDq f | vstDq f =>
    simp only [Instr.details, vmemDq, List.append_eq_nil_iff, chk_eq_nil, bne_eq_false_iff_eq] at d
    obtain ⟨⟨⟨_, onDq⟩, _⟩, _⟩ := d
    exact readVector_encM (by decide) (fun n op _ path => by rw [readVector, op, path, onDq]; rfl)
  | vldx f | vgath f | vstx f | vscat f | vlds f | vcp16 f => exact readVector_encM (by decide) (fun n op _ _ => by rw [readVector, op]; rfl)
  | vatomAdd f | vatomAnd f | vatomOr f | vatomXor f | vatomMinS f | vatomMaxS f | vatomMinN f | vatomMaxN f | vatomSwap f | vatomCas f =>
    simp only [Instr.details, vatom, List.append_eq_nil_iff, chk_eq_nil, bne_eq_false_iff_eq] at d
    obtain ⟨⟨⟨⟨_, aop⟩, _⟩, _⟩, _⟩ := d
    exact readVector_encM (by decide) (fun n op sub _ => by rw [readVector, op, readVatom, sub, aop]; rfl)
  | tex f | tex3 f | rayq f | pexp f => exact readVector_encG (by decide) (fun n op => by rw [readVector, op]; rfl)
  | vBrf g w c take sense off =>
    have word : encVC 0xF0 g w (c.toNat * 2 ^ 59 + take.toNat * 2 ^ 58 + sense.toNat * 2 ^ 57 + off.toNat) =
        cat off (cat (0 : BitVec 30) (cat (0 : BitVec 9) (cat sense (cat take (cat c (cat (0 : BitVec 14) (cat w (cat g 0xF0)))))))) := by
      simp only [encVC, cat, BitVec.ofNat_eq_ofNat, BitVec.toNat_ofNat]; ring
    exact read_row 88 8 _ word (by simp [bitsOf_of_lt]; rfl) (fun n op => by rw [readVector, op]) (by simp [zeroBits])
  | vRdv g w | vHalt g w =>
    exact read_row 88 8 _ (encVC_zero _ g w) (by simp [bitsOf_of_lt]; rfl) (fun n op => by rw [readVector, op]) (by simp [zeroBits])
  | _ => cases h

/-! ## Matrix words -/

theorem encStep_fields (op : Nat) (f : MStepF) :
    encStep op f = cat (0 : BitVec 20) (cat f.nx (cat f.mx (cat f.oc (cat f.ptab (cat f.pro (cat f.tb (cat f.ta (cat f.k (cat f.bcol
      (cat f.brow (cat f.hb (cat f.acol (cat f.arow (cat f.ha (cat f.fin (cat f.acc (cat f.fmtb (cat f.fmta (cat (0 : BitVec 3)
        (cat f.wait (cat f.gap (cat f.zacc (cat (0 : BitVec 7) op))))))))))))))))))))))) := by
  simp only [encStep, encMx, cat, BitVec.ofNat_eq_ofNat, BitVec.toNat_ofNat]; ring

theorem encRow_fields (op : Nat) (f : MRowF) :
    encRow op f = cat (0 : BitVec 10) (cat f.vx (cat (0 : BitVec 7) (cat f.mx (cat (0 : BitVec 85) (cat f.row (cat (0 : BitVec 13) (cat f.acc
      (cat f.fmt (cat (0 : BitVec 5) (cat f.sig (cat f.wait (cat f.gap (cat (0 : BitVec 8) op))))))))))))) := by
  simp only [encRow, encMx, cat, BitVec.ofNat_eq_ofNat, BitVec.toNat_ofNat]; ring

theorem encPro_fields (pro : BitVec 3) (g : BitVec 4) (w : BitVec 8) (sig : BitVec 3) (t : BitVec 8) :
    encPro pro.toNat g w sig t =
      cat (0 : BitVec 38) (cat t (cat pro (cat (0 : BitVec 112) (cat sig (cat w (cat g (cat (0 : BitVec 8) 0x0B))))))) := by
  simp only [encPro, encMx, cat, BitVec.ofNat_eq_ofNat, BitVec.toNat_ofNat]; ring

theorem encMx_zero (op : Nat) (g : BitVec 4) (w : BitVec 8) : encMx op g w 0 = cat (0 : BitVec 164) (cat w (cat g (cat (0 : BitVec 8) op))) := by
  simp only [encMx, cat, BitVec.ofNat_eq_ofNat, BitVec.toNat_ofNat]; ring

theorem encMx_acc (op : Nat) (g : BitVec 4) (w : BitVec 8) (acc : BitVec 3) :
    encMx op g w (acc.toNat * 2 ^ 148) = cat (0 : BitVec 148) (cat acc (cat (0 : BitVec 13) (cat w (cat g (cat (0 : BitVec 8) op))))) := by
  simp only [encMx, cat, BitVec.ofNat_eq_ofNat, BitVec.toNat_ofNat]; ring

theorem encMNSet_fields (f : MNSetF) :
    encMx 0x02 f.gap f.wait (f.lv.toNat * 2 ^ 148 + f.count.toNat * 2 ^ 135 + f.ar.toNat * 2 ^ 119 + f.ac.toNat * 2 ^ 103 +
      f.ts.toNat * 2 ^ 91 + f.br.toNat * 2 ^ 75 + f.bc.toNat * 2 ^ 59) =
    cat (0 : BitVec 59) (cat f.bc (cat f.br (cat f.ts (cat (0 : BitVec 9) (cat f.ac (cat f.ar (cat f.count (cat (0 : BitVec 1) (cat f.lv
      (cat (0 : BitVec 13) (cat f.wait (cat f.gap (cat (0 : BitVec 8) 0x02))))))))))))) := by
  simp only [encMx, cat, BitVec.ofNat_eq_ofNat, BitVec.toNat_ofNat]; ring

theorem encMSca_fields (f : MScaF) :
    encMx 0x09 f.gap f.wait (f.acc.toNat * 2 ^ 148 + f.src.toNat * 2 ^ 135 + f.sb.toNat * 2 ^ 91 + f.sa.toNat * 2 ^ 10) =
    cat (0 : BitVec 10) (cat f.sa (cat (0 : BitVec 71) (cat f.sb (cat (0 : BitVec 2) (cat (0 : BitVec 32) (cat f.src (cat (0 : BitVec 9)
      (cat (0 : BitVec 1) (cat f.acc (cat (0 : BitVec 13) (cat f.wait (cat f.gap (cat (0 : BitVec 8) 0x09))))))))))))) := by
  simp only [encMx, cat, BitVec.ofNat_eq_ofNat, BitVec.toNat_ofNat]; ring

theorem encMBrf_fields (g : BitVec 4) (w : BitVec 8) (c : BitVec 3) (take sense : BitVec 1) (off : BitVec 16) :
    encMx 0xF0 g w (c.toNat * 2 ^ 148 + take.toNat * 2 ^ 177 + sense.toNat * 2 ^ 176 + off.toNat * 2 ^ 119) =
    cat (0 : BitVec 119) (cat off (cat (0 : BitVec 13) (cat c (cat (0 : BitVec 13) (cat w (cat g (cat sense (cat take
      (cat (0 : BitVec 6) 0xF0))))))))) := by
  simp only [encMx, cat, BitVec.ofNat_eq_ofNat, BitVec.toNat_ofNat]; ring

/-- An MPRO word is read as the row of its prologue. -/
theorem readMatrix_encPro (pro : BitVec 3) {g : BitVec 4} {w : BitVec 8} {sig : BitVec 3} {t : BitVec 8}
    {c : BitVec 4 → BitVec 8 → BitVec 3 → BitVec 8 → Instr}
    (row : ∀ n, bitsOf n 46 3 = pro.toNat → readMpro n =
      (zeroBits n 176 8 ++ zeroBits n 49 112 ++ zeroBits n 0 38, some (c (fld 4 n 172) (fld 8 n 164) (fld 3 n 161) (fld 8 n 38)))) :
    readMatrix (encPro pro.toNat g w sig t) = ([], some (c g w sig t)) :=
  read_row 184 8 0x0B (encPro_fields pro g w sig t) (by simp [bitsOf_of_lt]) (fun n op => by rw [readMatrix, op]; rfl)
    ((row _ (by simp)).trans (by simp [zeroBits]))

theorem readMatrix_encode {i : Instr} (h : i.stream = some .m) : readMatrix (encode i) = ([], some i) := by
  cases i with
  | mstep f | mngo f =>
    exact read_row 184 8 _ (encStep_fields _ f) (by simp [bitsOf_of_lt]; rfl) (fun n op => by rw [readMatrix, op]) (by simp [zeroBits, readMStep])
  | mnset f =>
    exact read_row 184 8 _ (encMNSet_fields f) (by simp [bitsOf_of_lt]; rfl) (fun n op => by rw [readMatrix, op]) (by simp [zeroBits])
  | mnstop g w | mRdv g w | mHalt g w =>
    exact read_row 184 8 _ (encMx_zero _ g w) (by simp [bitsOf_of_lt]; rfl) (fun n op => by rw [readMatrix, op]) (by simp [zeroBits])
  | mzero g w acc | mrel g w acc =>
    exact read_row 184 8 _ (encMx_acc _ g w acc) (by simp [bitsOf_of_lt]; rfl) (fun n op => by rw [readMatrix, op]) (by simp [zeroBits, maccBits])
  | mread f | mwrite f | mcvt f =>
    exact read_row 184 8 _ (encRow_fields _ f) (by simp [bitsOf_of_lt]; rfl) (fun n op => by rw [readMatrix, op])
      (by simp [zeroBits, readMRow, mrowBits])
  | msca f =>
    exact read_row 184 8 _ (encMSca_fields f) (by simp [bitsOf_of_lt]; rfl) (fun n op => by rw [readMatrix, op]) (by simp [zeroBits])
  | mproNone g w sig t => exact readMatrix_encPro 0 (fun n pro => by rw [readMpro, pro]; rfl)
  | mproInt4 g w sig t => exact readMatrix_encPro 1 (fun n pro => by rw [readMpro, pro]; rfl)
  | mproCb3 g w sig t => exact readMatrix_encPro 2 (fun n pro => by rw [readMpro, pro]; rfl)
  | mproCb4 g w sig t => exact readMatrix_encPro 3 (fun n pro => by rw [readMpro, pro]; rfl)
  | mproBmap g w sig t => exact readMatrix_encPro 4 (fun n pro => by rw [readMpro, pro]; rfl)
  | mBrf g w c take sense off =>
    exact read_row 184 8 _ (encMBrf_fields g w c take sense off) (by simp [bitsOf_of_lt]; rfl) (fun n op => by rw [readMatrix, op])
      (by simp [zeroBits])
  | _ => cases h

/-! ## Copy words -/

/-- A field that lies within a range of the word is a field of that range. -/
theorem fld_bitsOf {w n lo a len : Nat} (low : a ≤ lo) (high : lo + w ≤ a + len) : fld w n lo = fld w (bitsOf n a len) (lo - a) := by
  refine BitVec.eq_of_getLsbD_eq fun i hi => ?_
  simp only [fld, bitsOf, BitVec.getLsbD_ofNat, Nat.testBit_div_two_pow, Nat.testBit_mod_two_pow]
  simp only [show i + (lo - a) < len by omega, show i + (lo - a) + a = i + lo by omega, decide_true, Bool.true_and]

theorem encKH_fields (op sub : Nat) (small : sub < 2 ^ 8) (h : KHdr) (o : KH) :
    encK op sub h (encKH o) = cat o.nx (cat o.mx (cat o.col (cat o.row (cat o.h (cat h.oc (cat h.path (cat (BitVec.ofNat 8 sub)
      (cat h.sig (cat h.wait (cat h.gap op)))))))))) := by
  simp only [encK, encKH, cat, BitVec.toNat_ofNat, Nat.mod_eq_of_lt small]; ring

theorem encKR_fields (op sub : Nat) (small : sub < 2 ^ 8) (h : KHdr) (o : KR) :
    encK op sub h (encKR o) = cat o.imm (cat o.gc (cat o.gb (cat o.ga (cat h.oc (cat h.path (cat (BitVec.ofNat 8 sub)
      (cat h.sig (cat h.wait (cat h.gap op))))))))) := by
  simp only [encK, encKR, cat, BitVec.toNat_ofNat, Nat.mod_eq_of_lt small]; ring

/-- What a row of the copy words reads of its sub field (R81): the field, the reduction in it, the queue in it. -/
structure KSub (n op sub : Nat) (h : KHdr) : Prop where
  opcode : bitsOf n 88 8 = op
  kind : bitsOf n 65 8 = sub
  hdr : readKHdr n = h
  red : fld 4 n 67 = fld 4 sub 2
  queue : fld 2 n 65 = fld 2 sub 0

theorem KSub.of_fields {n op sub : Nat} {h : KHdr} (opcode : bitsOf n 88 8 = op) (kind : bitsOf n 65 8 = sub) (hdr : readKHdr n = h) :
    KSub n op sub h :=
  ⟨opcode, kind, hdr, by rw [fld_bitsOf (a := 65) (len := 8) (by omega) (by omega), kind],
    by rw [fld_bitsOf (a := 65) (len := 8) (by omega) (by omega), kind]⟩

section
variable {op sub : Nat} {h : KHdr} {i : Instr}

theorem readCopy_encKH {o : KH} (smallOp : op < 2 ^ 8) (small : sub < 2 ^ 8)
    (row : ∀ n, KSub n op sub h → readKH n = o → readCopy n = ([], some i)) : readCopy (encK op sub h (encKH o)) = ([], some i) := by
  rw [encKH_fields op sub small]
  refine row _ (KSub.of_fields ?_ ?_ ?_) ?_
  · simpa using bitsOf_of_lt smallOp
  · simpa using small
  · simp [readKHdr]
  · simp [readKH]

theorem readCopy_encKR {o : KR} (smallOp : op < 2 ^ 8) (small : sub < 2 ^ 8)
    (row : ∀ n, KSub n op sub h → readKR n = o → readCopy n = ([], some i)) : readCopy (encK op sub h (encKR o)) = ([], some i) := by
  rw [encKR_fields op sub small]
  refine row _ (KSub.of_fields ?_ ?_ ?_) ?_
  · simpa using bitsOf_of_lt smallOp
  · simpa using small
  · simp [readKHdr]
  · simp [readKR]

end

theorem fld_red (red : BitVec 4) {x : Nat} (h : x < 4) : fld 4 (x + red.toNat * 4) 2 = red := by
  refine BitVec.eq_of_toNat_eq ?_
  have := red.isLt
  simp only [fld, BitVec.toNat_ofNat]
  omega

theorem fld_queue (q : BitVec 2) {x : Nat} (h : x % 4 = 0) : fld 2 (x + q.toNat) 0 = q := by
  refine BitVec.eq_of_toNat_eq ?_
  have := q.isLt
  simp only [fld, BitVec.toNat_ofNat]
  omega

theorem readCopy_encode {i : Instr} (h : i.stream = some .k) : readCopy (encode i) = ([], some i) := by
  cases i with
  | cpyKh h o | cpymcKh h o =>
    exact readCopy_encKH (by decide) (by decide) (fun n k ops => by simp [readCopy, k.opcode, k.kind, k.hdr, ops])
  | cpyKr h o | cpysg h o | cpymcKr h o | gath h o | xfmTr h o | xfmCvt h o | xfmBdb h o | xfmPsum h o | jsub h o | sqgo h o =>
    exact readCopy_encKR (by decide) (by decide) (fun n k ops => by simp [readCopy, k.opcode, k.kind, k.hdr, ops])
  | scatNative h o =>
    exact readCopy_encKR (by decide) (by decide) (fun n k ops => by simp [readCopy, k.opcode, k.kind, k.hdr, ops, k.red, show fld 4 0 2 = 0 from rfl])
  | scatStrain h red o =>
    have := red.isLt
    exact readCopy_encKR (by decide) (by omega) (fun n k ops => by
      simp [readCopy, k.opcode, k.kind, k.hdr, ops, k.red, fld_red, show ¬ 64 ≤ 1 + red.toNat * 4 by omega])
  | collAllred h red o =>
    have := red.isLt
    have same : fld 4 (red.toNat * 4) 2 = red := by simpa using fld_red red (x := 0) (by decide)
    exact readCopy_encKR (by decide) (by omega) (fun n k ops => by
      simp [readCopy, k.opcode, k.kind, k.hdr, ops, k.red, same, show ¬ 64 ≤ red.toNat * 4 by omega])
  | collRedsc h red o =>
    have := red.isLt
    exact readCopy_encKR (by decide) (by omega) (fun n k ops => by
      simp [readCopy, k.opcode, k.kind, k.hdr, ops, k.red, fld_red, show ¬ 64 ≤ 1 + red.toNat * 4 by omega])
  | collGath h red o =>
    have := red.isLt
    exact readCopy_encKR (by decide) (by omega) (fun n k ops => by
      simp [readCopy, k.opcode, k.kind, k.hdr, ops, k.red, fld_red, show ¬ 64 ≤ 2 + red.toNat * 4 by omega])
  | dqpushKh h q o | dqpopKh h q o =>
    have same : fld 2 q.toNat 0 = q := by simpa using fld_queue q (x := 0) rfl
    exact readCopy_encKH (by decide) (by omega) (fun n k ops => by
      simp [readCopy, k.opcode, k.kind, k.hdr, ops, k.queue, same, q.isLt])
  | dqpushKr h q o | dqpopKr h q o =>
    exact readCopy_encKR (by decide) (by omega) (fun n k ops => by
      simp [readCopy, k.opcode, k.kind, k.hdr, ops, k.queue, fld_queue, show 4 + q.toNat < 8 by omega])
  | kBrf g w c take sense off =>
    have word : encVC 0xF0 g w (c.toNat * 2 ^ 55 + take.toNat * 2 ^ 54 + sense.toNat * 2 ^ 53 + off.toNat) =
        cat off (cat (0 : BitVec 35) (cat sense (cat take (cat c (cat (0 : BitVec 4) (cat (0 : BitVec 3) (cat (0 : BitVec 8) (cat (0 : BitVec 3)
          (cat w (cat g 0xF0)))))))))) := by
      simp only [encVC, cat, BitVec.ofNat_eq_ofNat, BitVec.toNat_ofNat]; ring
    exact read_row 88 8 _ word (by simp [bitsOf_of_lt]; rfl) (fun n op => by rw [readCopy, op]) (by simp [zeroBits, kcBits, kcPath])
  | kRdv g w | kHalt g w =>
    have word := fun op => (encVC_zero op g w).trans (show _ =
      cat (0 : BitVec 58) (cat (0 : BitVec 4) (cat (0 : BitVec 3) (cat (0 : BitVec 8) (cat (0 : BitVec 3) (cat w (cat g op)))))) by
      simp only [cat, BitVec.ofNat_eq_ofNat, BitVec.toNat_ofNat]; ring)
    exact read_row 88 8 _ (word _) (by simp [bitsOf_of_lt]; rfl) (fun n op => by rw [readCopy, op]) (by simp [zeroBits, kcBits, kcPath])
  | kTokw g w kmask lim =>
    have word : encVC 0xF3 g w (kmask.toNat * 2 ^ 50 + lim.toNat * 2 ^ 44) =
        cat (0 : BitVec 44) (cat lim (cat kmask (cat (0 : BitVec 4) (cat (0 : BitVec 3) (cat (0 : BitVec 8) (cat (0 : BitVec 3)
          (cat w (cat g 0xF3)))))))) := by
      simp only [encVC, cat, BitVec.ofNat_eq_ofNat, BitVec.toNat_ofNat]; ring
    exact read_row 88 8 _ word (by simp [bitsOf_of_lt]; rfl) (fun n op => by rw [readCopy, op]) (by simp [zeroBits, kcBits, kcPath])
  | kDrain g w path =>
    have word : encVC 0xF4 g w (path.toNat * 2 ^ 62) =
        cat (0 : BitVec 58) (cat (0 : BitVec 4) (cat path (cat (0 : BitVec 8) (cat (0 : BitVec 3) (cat w (cat g 0xF4)))))) := by
      simp only [encVC, cat, BitVec.ofNat_eq_ofNat, BitVec.toNat_ofNat]; ring
    exact read_row 88 8 _ word (by simp [bitsOf_of_lt]; rfl) (fun n op => by rw [readCopy, op]) (by simp [zeroBits, kcBits])
  | _ => cases h

/-! ## Scalar words -/

section
variable {d a b : GReg} {i : Instr}

theorem encSA_fields (op : Nat) (fn : BitVec 8) : encSA op d a b fn.toNat = cat fn (cat b (cat a (cat d op))) := by
  simp only [encSA, cat]; ring

/-- An ALU word is read as the row of its fn (R66). -/
theorem readScalar_alu (fn : BitVec 8) (row : ∀ n, n % 256 = fn.toNat → bitsOf n 8 6 = b.toNat → fld 6 n 20 = d → fld 6 n 14 = a → fld 6 n 8 = b →
    readAlu n = ([], some i)) : readScalar (encSA 0x01 d a b fn.toNat) = ([], some i) := by
  refine read_row 26 6 0x01 (encSA_fields 0x01 fn) (by simp [bitsOf_of_lt]) (fun n op => by rw [readScalar, op]; rfl)
    (row _ ?_ (by simp) (by simp) (by simp) (by simp))
  exact (cat_mod_low (Nat.le_refl 8)).trans (by simp [Nat.mod_one])

/-- ALU words whose fn holds a field of three bits (R66). -/
theorem readScalar_aluTo (top : BitVec 5) (k : BitVec 3) (fn : Nat) (sum : fn = k.toNat + 8 * top.toNat)
    (row : ∀ n, n % 256 = fn → fld 3 n 0 = k → fld 6 n 20 = d → fld 6 n 14 = a → fld 6 n 8 = b →
    readAlu n = ([], some i)) : readScalar (encSA 0x01 d a b fn) = ([], some i) := by
  have word : encSA 0x01 d a b fn = cat k (cat top (cat b (cat a (cat d 0x01)))) := by
    simp only [encSA, sum, cat]; ring
  refine read_row 26 6 0x01 word (by simp [bitsOf_of_lt]) (fun n op => by rw [readScalar, op]; rfl)
    (row _ ?_ (by simp) (by simp) (by simp) (by simp))
  have low : cat k (cat top (cat b (cat a (cat d 0x01)))) % 256 = _ := cat_mod_low (len := 8) (by omega)
  rw [low, sum, cat_mod_low (Nat.le_refl 5)]
  simp [Nat.mod_one]

/-- A scalar floating-point word is read as the row of its operation (R65). -/
theorem readScalar_fpu (op : BitVec 3) {r : BitVec 3} {f : BitVec 2}
    (row : ∀ n, n % 8 = op.toNat → bitsOf n 8 6 = b.toNat → fld 6 n 20 = d → fld 6 n 14 = a → fld 6 n 8 = b → fld 3 n 5 = r → fld 2 n 3 = f →
      readFpu n = ([], some i)) : readScalar (encFpu d a b r f op.toNat) = ([], some i) := by
  have word : encFpu d a b r f op.toNat = cat op (cat f (cat r (cat b (cat a (cat d 0x0F))))) := by
    simp only [encFpu, encSA, cat]; ring
  refine read_row 26 6 0x0F word (by simp [bitsOf_of_lt]) (fun n op => by rw [readScalar, op]; rfl)
    (row _ ?_ (by simp) (by simp) (by simp) (by simp) (by simp) (by simp))
  exact (cat_mod_low (Nat.le_refl 3)).trans (by simp [Nat.mod_one])

theorem encSI_fields (op : Nat) (i : BitVec 14) : encSI op d a i.toNat = cat i (cat a (cat d op)) := by
  simp only [encSI, cat]; ring

/-- A shift by an immediate is read as the row of its kind (R100). -/
theorem readScalar_shi (kind : BitVec 2) (k : BitVec 6) (imm : Nat) (sum : imm = kind.toNat * 2 ^ 12 + k.toNat)
    (row : ∀ n, bitsOf n 12 2 = kind.toNat → bitsOf n 6 6 = 0 → fld 6 n 20 = d → fld 6 n 14 = a → fld 6 n 0 = k → readShi n = ([], some i)) :
    readScalar (encSI 0x07 d a imm) = ([], some i) := by
  have word : encSI 0x07 d a imm = cat k (cat (0 : BitVec 6) (cat kind (cat a (cat d 0x07)))) := by
    simp only [encSI, sum, cat, BitVec.ofNat_eq_ofNat, BitVec.toNat_ofNat]; ring
  exact read_row 26 6 0x07 word (by simp [bitsOf_of_lt]) (fun n op => by rw [readScalar, op]; rfl)
    (row _ (by simp) (by simp) (by simp) (by simp) (by simp))

/-- An atomic is read as the row of its operation (R68). -/
theorem readScalar_amo (aop : BitVec 4) {oc : BitVec 4} {sc : BitVec 3} {z : BitVec 1} {c : GReg → GReg → BitVec 4 → BitVec 3 → BitVec 1 → Instr}
    (row : ∀ n, bitsOf n 3 4 = aop.toNat → readAmo n = (zeroBits n 0 2, some (c (fld 6 n 20) (fld 6 n 14) (fld 4 n 10) (fld 3 n 7) (fld 1 n 2)))) :
    readScalar (encSM 0x12 d a oc sc (aop.toNat * 2 ^ 3 + z.toNat * 2 ^ 2)) = ([], some (c d a oc sc z)) := by
  have word : encSM 0x12 d a oc sc (aop.toNat * 2 ^ 3 + z.toNat * 2 ^ 2) =
      cat (0 : BitVec 2) (cat z (cat aop (cat sc (cat oc (cat a (cat d 0x12)))))) := by
    simp only [encSM, cat, BitVec.ofNat_eq_ofNat, BitVec.toNat_ofNat]; ring
  exact read_row 26 6 0x12 word (by simp [bitsOf_of_lt]) (fun n op => by rw [readScalar, op]; rfl) ((row _ (by simp)).trans (by simp [zeroBits]))

/-- A system word is read as the row of its sub (R71). -/
theorem readScalar_sys (sub : BitVec 4) {body low : Nat} {r : Nat → Reading} (word : encSX sub.toNat body = low)
    (op : bitsOf low 26 6 = 0x20) (here : bitsOf low 22 4 = sub.toNat) (row : ∀ n, bitsOf n 22 4 = sub.toNat → readSys n = r n)
    (fields : r low = ([], some i)) : readScalar (encSX sub.toNat body) = ([], some i) :=
  read_row 26 6 0x20 word op (fun n op => by rw [readScalar, op]; rfl) ((row low here).trans fields)

/-- A task word is read as the row of its sub (R72). -/
theorem readScalar_task (sub : BitVec 4) (q : BitVec 4) {r : Nat → Reading} (row : ∀ n, bitsOf n 4 4 = sub.toNat → readTask n = r n)
    (fields : r (cat q (cat sub (cat (0 : BitVec 6) (cat a (cat d 0x21))))) = ([], some i)) :
    readScalar (encSQ d a sub.toNat q.toNat) = ([], some i) := by
  have word : encSQ d a sub.toNat q.toNat = cat q (cat sub (cat (0 : BitVec 6) (cat a (cat d 0x21)))) := by
    simp only [encSQ, cat, BitVec.ofNat_eq_ofNat, BitVec.toNat_ofNat]; ring
  exact read_row 26 6 0x21 word (by simp [bitsOf_of_lt]) (fun n op => by rw [readScalar, op]; rfl) ((row _ (by simp)).trans fields)

end

/-- A fence word (R71) is read as the row of its sub, with what its lowest two bits say. -/
theorem readScalar_masks (sub : BitVec 4) (e : BitVec 2) {sc : BitVec 4} {cm : BitVec 16} {body : Nat} {i : Instr}
    (sum : body = sc.toNat * 2 ^ 18 + cm.toNat * 2 ^ 2 + e.toNat)
    (row : ∀ n, bitsOf n 22 4 = sub.toNat → n % 4 = e.toNat → bitsOf n 0 2 = e.toNat → fld 4 n 18 = sc → fld 16 n 2 = cm → readSys n = ([], some i)) :
    readScalar (encSX sub.toNat body) = ([], some i) := by
  have word : encSX sub.toNat body = cat e (cat cm (cat sc (cat sub 0x20))) := by
    simp only [encSX, sum, cat]; ring
  refine read_row 26 6 0x20 word (by simp [bitsOf_of_lt]) (fun n op => by rw [readScalar, op]; rfl)
    (row _ (by simp) ?_ (by simp) (by simp) (by simp))
  exact (cat_mod_low (Nat.le_refl 2)).trans (by simp [Nat.mod_one])

theorem encSX_zero (sub : BitVec 4) : encSX sub.toNat 0 = cat (0 : BitVec 22) (cat sub 0x20) := by
  simp only [encSX, cat, BitVec.ofNat_eq_ofNat, BitVec.toNat_ofNat]; ring

theorem readScalar_encode {i : Instr} (h : i.stream = some .s) : readScalar (encode i) = ([], some i) := by
  cases i with
  | add d a b => exact readScalar_alu 0x00 (fun n fn _ hd ha hb => by simp [readAlu, fn, hd, ha, hb])
  | sub d a b => exact readScalar_alu 0x01 (fun n fn _ hd ha hb => by simp [readAlu, fn, hd, ha, hb])
  | mul d a b => exact readScalar_alu 0x02 (fun n fn _ hd ha hb => by simp [readAlu, fn, hd, ha, hb])
  | mulhS d a b => exact readScalar_alu 0x03 (fun n fn _ hd ha hb => by simp [readAlu, fn, hd, ha, hb])
  | mulhN d a b => exact readScalar_alu 0x04 (fun n fn _ hd ha hb => by simp [readAlu, fn, hd, ha, hb])
  | divS d a b => exact readScalar_alu 0x06 (fun n fn _ hd ha hb => by simp [readAlu, fn, hd, ha, hb])
  | divN d a b => exact readScalar_alu 0x07 (fun n fn _ hd ha hb => by simp [readAlu, fn, hd, ha, hb])
  | remS d a b => exact readScalar_alu 0x08 (fun n fn _ hd ha hb => by simp [readAlu, fn, hd, ha, hb])
  | remN d a b => exact readScalar_alu 0x09 (fun n fn _ hd ha hb => by simp [readAlu, fn, hd, ha, hb])
  | and d a b => exact readScalar_alu 0x10 (fun n fn _ hd ha hb => by simp [readAlu, fn, hd, ha, hb])
  | or d a b => exact readScalar_alu 0x11 (fun n fn _ hd ha hb => by simp [readAlu, fn, hd, ha, hb])
  | xor d a b => exact readScalar_alu 0x12 (fun n fn _ hd ha hb => by simp [readAlu, fn, hd, ha, hb])
  | andn d a b => exact readScalar_alu 0x13 (fun n fn _ hd ha hb => by simp [readAlu, fn, hd, ha, hb])
  | sll d a b => exact readScalar_alu 0x18 (fun n fn _ hd ha hb => by simp [readAlu, fn, hd, ha, hb])
  | srl d a b => exact readScalar_alu 0x19 (fun n fn _ hd ha hb => by simp [readAlu, fn, hd, ha, hb])
  | sra d a b => exact readScalar_alu 0x1A (fun n fn _ hd ha hb => by simp [readAlu, fn, hd, ha, hb])
  | rol d a b => exact readScalar_alu 0x1B (fun n fn _ hd ha hb => by simp [readAlu, fn, hd, ha, hb])
  | ror d a b => exact readScalar_alu 0x1C (fun n fn _ hd ha hb => by simp [readAlu, fn, hd, ha, hb])
  | minS d a b => exact readScalar_alu 0x20 (fun n fn _ hd ha hb => by simp [readAlu, fn, hd, ha, hb])
  | minN d a b => exact readScalar_alu 0x21 (fun n fn _ hd ha hb => by simp [readAlu, fn, hd, ha, hb])
  | maxS d a b => exact readScalar_alu 0x22 (fun n fn _ hd ha hb => by simp [readAlu, fn, hd, ha, hb])
  | maxN d a b => exact readScalar_alu 0x23 (fun n fn _ hd ha hb => by simp [readAlu, fn, hd, ha, hb])
  | clz d a => exact readScalar_alu 0x28 (fun n fn zb hd ha _ => by simp [readAlu, fn, zeroBits, zb, hd, ha])
  | ctz d a => exact readScalar_alu 0x29 (fun n fn zb hd ha _ => by simp [readAlu, fn, zeroBits, zb, hd, ha])
  | popc d a => exact readScalar_alu 0x2A (fun n fn zb hd ha _ => by simp [readAlu, fn, zeroBits, zb, hd, ha])
  | bilv2 d a b => exact readScalar_alu 0x2C (fun n fn _ hd ha hb => by simp [readAlu, fn, hd, ha, hb])
  | bilv3 d a b => exact readScalar_alu 0x2D (fun n fn _ hd ha hb => by simp [readAlu, fn, hd, ha, hb])
  | adds d a b k =>
    exact readScalar_aluTo 6 k _ (by simp; omega) (fun n fn hk hd ha hb => by
      simp [readAlu, fn, hk, hd, ha, hb, show 48 + k.toNat ≤ 55 by omega])
  | sel d a b c =>
    exact readScalar_aluTo 8 c _ (by simp; omega) (fun n fn hc hd ha hb => by
      simp [readAlu, fn, hc, hd, ha, hb, show ¬ 64 + c.toNat ≤ 55 by omega, show 64 + c.toNat ≤ 71 by omega])
  | cmp c a b f =>
    have word : 0x02 * 2 ^ 26 + c.toNat * 2 ^ 20 + a.toNat * 2 ^ 14 + b.toNat * 2 ^ 8 + f.toNat =
        cat f (cat b (cat a (cat c (cat (0 : BitVec 3) 0x02)))) := by
      simp only [cat, BitVec.ofNat_eq_ofNat, BitVec.toNat_ofNat]; ring
    exact read_row 26 6 _ word (by simp [bitsOf_of_lt]; rfl) (fun n op => by rw [readScalar, op]) (by simp [zeroBits])
  | addi d a i | andi d a i | ori d a i | xori d a i | jalr d a i =>
    exact read_row 26 6 _ (encSI_fields _ i) (by simp [bitsOf_of_lt]; rfl) (fun n op => by rw [readScalar, op]) (by simp)
  | slli d a k => exact readScalar_shi 0 k _ (by simp) (fun n kind zb hd ha hk => by simp [readShi, kind, zeroBits, zb, hd, ha, hk])
  | srli d a k => exact readScalar_shi 1 k _ (by simp) (fun n kind zb hd ha hk => by simp [readShi, kind, zeroBits, zb, hd, ha, hk])
  | srai d a k => exact readScalar_shi 2 k _ (by simp) (fun n kind zb hd ha hk => by simp [readShi, kind, zeroBits, zb, hd, ha, hk])
  | rori d a k => exact readScalar_shi 3 k _ (by simp) (fun n kind zb hd ha hk => by simp [readShi, kind, zeroBits, zb, hd, ha, hk])
  | cmpi cond c a i =>
    have word : 0x08 * 2 ^ 26 + cond.toNat * 2 ^ 23 + c.toNat * 2 ^ 20 + a.toNat * 2 ^ 14 + i.toNat =
        cat i (cat a (cat c (cat cond 0x08))) := by
      simp only [cat]; ring
    exact read_row 26 6 _ word (by simp [bitsOf_of_lt]; rfl) (fun n op => by rw [readScalar, op]) (by simp)
  | lil d i | lih d i =>
    have word := fun op : Nat => show op * 2 ^ 26 + d.toNat * 2 ^ 20 + i.toNat = cat i (cat d op) by simp only [cat]; ring
    exact read_row 26 6 _ (word _) (by simp [bitsOf_of_lt]; rfl) (fun n op => by rw [readScalar, op]) (by simp)
  | bfxS d a pos w =>
    have word : encSI 0x0B d a (pos.toNat * 2 ^ 8 + w.toNat * 2 ^ 2 + 2) =
        cat (0 : BitVec 1) (cat (1 : BitVec 1) (cat w (cat pos (cat a (cat d 0x0B))))) := by
      simp only [encSI, cat, BitVec.ofNat_eq_ofNat, BitVec.toNat_ofNat]; ring
    exact read_row 26 6 _ word (by simp [bitsOf_of_lt]; rfl) (fun n op => by rw [readScalar, op]) (by simp [zeroBits])
  | bfxN d a pos w =>
    have word : encSI 0x0B d a (pos.toNat * 2 ^ 8 + w.toNat * 2 ^ 2) =
        cat (0 : BitVec 1) (cat (0 : BitVec 1) (cat w (cat pos (cat a (cat d 0x0B))))) := by
      simp only [encSI, cat, BitVec.ofNat_eq_ofNat, BitVec.toNat_ofNat]; ring
    exact read_row 26 6 _ word (by simp [bitsOf_of_lt]; rfl) (fun n op => by rw [readScalar, op]) (by simp [zeroBits])
  | bfi d a pos w =>
    have word : encSI 0x0C d a (pos.toNat * 2 ^ 8 + w.toNat * 2 ^ 2) = cat (0 : BitVec 2) (cat w (cat pos (cat a (cat d 0x0C)))) := by
      simp only [encSI, cat, BitVec.ofNat_eq_ofNat, BitVec.toNat_ofNat]; ring
    exact read_row 26 6 _ word (by simp [bitsOf_of_lt]; rfl) (fun n op => by rw [readScalar, op]) (by simp [zeroBits])
  | fcvt d a src tgt rnd sat =>
    have word : 0x0E * 2 ^ 26 + d.toNat * 2 ^ 20 + a.toNat * 2 ^ 14 + src.toNat * 2 ^ 11 + tgt.toNat * 2 ^ 8 + rnd.toNat * 2 ^ 5 +
        sat.toNat * 2 ^ 4 = cat (0 : BitVec 4) (cat sat (cat rnd (cat tgt (cat src (cat a (cat d 0x0E)))))) := by
      simp only [cat, BitVec.ofNat_eq_ofNat, BitVec.toNat_ofNat]; ring
    exact read_row 26 6 _ word (by simp [bitsOf_of_lt]; rfl) (fun n op => by rw [readScalar, op]) (by simp [zeroBits])
  | fadd d a b r f => exact readScalar_fpu 0 (fun n op _ hd ha hb hr hf => by simp [readFpu, op, hd, ha, hb, hr, hf])
  | fsub d a b r f => exact readScalar_fpu 1 (fun n op _ hd ha hb hr hf => by simp [readFpu, op, hd, ha, hb, hr, hf])
  | fmul d a b r f => exact readScalar_fpu 2 (fun n op _ hd ha hb hr hf => by simp [readFpu, op, hd, ha, hb, hr, hf])
  | ffma d a b r f => exact readScalar_fpu 3 (fun n op _ hd ha hb hr hf => by simp [readFpu, op, hd, ha, hb, hr, hf])
  | fmin d a b r f => exact readScalar_fpu 4 (fun n op _ hd ha hb hr hf => by simp [readFpu, op, hd, ha, hb, hr, hf])
  | fmax d a b r f => exact readScalar_fpu 5 (fun n op _ hd ha hb hr hf => by simp [readFpu, op, hd, ha, hb, hr, hf])
  | fabs d a r f => exact readScalar_fpu 6 (fun n op zb hd ha _ hr hf => by simp [readFpu, op, zeroBits, zb, hd, ha, hr, hf])
  | fneg d a r f => exact readScalar_fpu 7 (fun n op zb hd ha _ hr hf => by simp [readFpu, op, zeroBits, zb, hd, ha, hr, hf])
  | ld d a oc sc size sx off =>
    have word : encSM 0x10 d a oc sc (size.toNat * 2 ^ 5 + sx.toNat * 2 ^ 4 + off.toNat) =
        cat off (cat sx (cat size (cat sc (cat oc (cat a (cat d 0x10)))))) := by
      simp only [encSM, cat]; ring
    exact read_row 26 6 _ word (by simp [bitsOf_of_lt]; rfl) (fun n op => by rw [readScalar, op]) (by simp)
  | st d a oc sc size off =>
    have word : encSM 0x11 d a oc sc (size.toNat * 2 ^ 5 + off.toNat) =
        cat off (cat (0 : BitVec 1) (cat size (cat sc (cat oc (cat a (cat d 0x11)))))) := by
      simp only [encSM, cat, BitVec.ofNat_eq_ofNat, BitVec.toNat_ofNat]; ring
    exact read_row 26 6 _ word (by simp [bitsOf_of_lt]; rfl) (fun n op => by rw [readScalar, op]) (by simp [zeroBits])
  | amoAdd d a oc sc z => exact readScalar_amo 0 (fun n aop => by rw [readAmo, aop]; rfl)
  | amoAnd d a oc sc z => exact readScalar_amo 1 (fun n aop => by rw [readAmo, aop]; rfl)
  | amoOr d a oc sc z => exact readScalar_amo 2 (fun n aop => by rw [readAmo, aop]; rfl)
  | amoXor d a oc sc z => exact readScalar_amo 3 (fun n aop => by rw [readAmo, aop]; rfl)
  | amoMinS d a oc sc z => exact readScalar_amo 4 (fun n aop => by rw [readAmo, aop]; rfl)
  | amoMaxS d a oc sc z => exact readScalar_amo 5 (fun n aop => by rw [readAmo, aop]; rfl)
  | amoMinN d a oc sc z => exact readScalar_amo 6 (fun n aop => by rw [readAmo, aop]; rfl)
  | amoMaxN d a oc sc z => exact readScalar_amo 7 (fun n aop => by rw [readAmo, aop]; rfl)
  | amoSwap d a oc sc z => exact readScalar_amo 8 (fun n aop => by rw [readAmo, aop]; rfl)
  | amoCas d a oc sc z => exact readScalar_amo 9 (fun n aop => by rw [readAmo, aop]; rfl)
  | brf c take sense off =>
    have word : 0x18 * 2 ^ 26 + c.toNat * 2 ^ 20 + take.toNat * 2 ^ 19 + sense.toNat * 2 ^ 18 + off.toNat =
        cat off (cat sense (cat take (cat c (cat (0 : BitVec 3) 0x18)))) := by
      simp only [cat, BitVec.ofNat_eq_ofNat, BitVec.toNat_ofNat]; ring
    exact read_row 26 6 _ word (by simp [bitsOf_of_lt]; rfl) (fun n op => by rw [readScalar, op]) (by simp [zeroBits])
  | jal d off =>
    have word : 0x19 * 2 ^ 26 + d.toNat * 2 ^ 20 + off.toNat = cat off (cat (0 : BitVec 2) (cat d 0x19)) := by
      simp only [cat, BitVec.ofNat_eq_ofNat, BitVec.toNat_ofNat]; ring
    exact read_row 26 6 _ word (by simp [bitsOf_of_lt]; rfl) (fun n op => by rw [readScalar, op]) (by simp [zeroBits])
  | lpset lv ci cnt len =>
    have word : 0x1C * 2 ^ 26 + lv.toNat * 2 ^ 25 + ci.toNat * 2 ^ 24 + cnt.toNat * 2 ^ 14 + len.toNat =
        cat len (cat cnt (cat ci (cat lv 0x1C))) := by
      simp only [cat]; ring
    exact read_row 26 6 _ word (by simp [bitsOf_of_lt]; rfl) (fun n op => by rw [readScalar, op]) (by simp)
  | lpbrk lv =>
    have word : 0x1D * 2 ^ 26 + lv.toNat * 2 ^ 25 = cat (0 : BitVec 25) (cat lv 0x1D) := by
      simp only [cat, BitVec.ofNat_eq_ofNat, BitVec.toNat_ofNat]; ring
    exact read_row 26 6 _ word (by simp [bitsOf_of_lt]; rfl) (fun n op => by rw [readScalar, op]) (by simp [zeroBits])
  | fence sc cm => exact readScalar_masks 0 0 (sc := sc) (cm := cm) (by simp) (fun n sub _ low hs hc => by simp [readSys, sub, zeroBits, low, hs, hc])
  | bar sc cm => exact readScalar_masks 1 0 (sc := sc) (cm := cm) (by simp) (fun n sub _ low hs hc => by simp [readSys, sub, zeroBits, low, hs, hc])
  | efenceCopy sc cm => exact readScalar_masks 2 0 (sc := sc) (cm := cm) (by simp) (fun n sub e _ hs hc => by simp [readSys, sub, e, hs, hc])
  | efenceColl sc cm => exact readScalar_masks 2 1 (sc := sc) (cm := cm) (by simp) (fun n sub e _ hs hc => by simp [readSys, sub, e, hs, hc])
  | efenceSolve sc cm => exact readScalar_masks 2 2 (sc := sc) (cm := cm) (by simp) (fun n sub e _ hs hc => by simp [readSys, sub, e, hs, hc])
  | efenceInfuse sc cm => exact readScalar_masks 2 3 (sc := sc) (cm := cm) (by simp) (fun n sub e _ hs hc => by simp [readSys, sub, e, hs, hc])
  | srd r n =>
    have word : encSX 3 (r.toNat * 2 ^ 16 + n.toNat * 2 ^ 4) = cat (0 : BitVec 4) (cat n (cat r (cat (3 : BitVec 4) 0x20))) := by
      simp only [encSX, cat, BitVec.ofNat_eq_ofNat, BitVec.toNat_ofNat]; ring
    exact readScalar_sys 3 word (by simp [bitsOf_of_lt]) (by simp) (fun n sub => by rw [readSys, sub]) (by simp [zeroBits])
  | swr r n =>
    have word : encSX 4 (r.toNat * 2 ^ 16 + n.toNat * 2 ^ 4) = cat (0 : BitVec 4) (cat n (cat r (cat (4 : BitVec 4) 0x20))) := by
      simp only [encSX, cat, BitVec.ofNat_eq_ofNat, BitVec.toNat_ofNat]; ring
    exact readScalar_sys 4 word (by simp [bitsOf_of_lt]) (by simp) (fun n sub => by rw [readSys, sub]) (by simp [zeroBits])
  | trap code =>
    have word : encSX 5 (code.toNat) = cat code (cat (0 : BitVec 16) (cat (5 : BitVec 4) 0x20)) := by
      simp only [encSX, cat, BitVec.ofNat_eq_ofNat, BitVec.toNat_ofNat]; ring
    exact readScalar_sys 5 word (by simp [bitsOf_of_lt]) (by simp) (fun n sub => by rw [readSys, sub]) (by simp [zeroBits])
  | eret => exact readScalar_sys 6 (encSX_zero 6) (by simp [bitsOf_of_lt]) (by simp) (fun n sub => by rw [readSys, sub]) (by simp [zeroBits])
  | yield => exact readScalar_sys 7 (encSX_zero 7) (by simp [bitsOf_of_lt]) (by simp) (fun n sub => by rw [readSys, sub]) (by simp [zeroBits])
  | halt => exact readScalar_sys 8 (encSX_zero 8) (by simp [bitsOf_of_lt]) (by simp) (fun n sub => by rw [readSys, sub]) (by simp [zeroBits])
  | drain path =>
    have word : encSX 9 (path.toNat * 2 ^ 19) = cat (0 : BitVec 19) (cat path (cat (9 : BitVec 4) 0x20)) := by
      simp only [encSX, cat, BitVec.ofNat_eq_ofNat, BitVec.toNat_ofNat]; ring
    exact readScalar_sys 9 word (by simp [bitsOf_of_lt]) (by simp) (fun n sub => by rw [readSys, sub]) (by simp [zeroBits])
  | tokw kmask lim =>
    have word : encSX 10 (kmask.toNat * 2 ^ 14 + lim.toNat * 2 ^ 8) = cat (0 : BitVec 8) (cat lim (cat kmask (cat (10 : BitVec 4) 0x20))) := by
      simp only [encSX, cat, BitVec.ofNat_eq_ofNat, BitVec.toNat_ofNat]; ring
    exact readScalar_sys 10 word (by simp [bitsOf_of_lt]) (by simp) (fun n sub => by rw [readSys, sub]) (by simp [zeroBits])
  | regacq n =>
    have word : encSX 11 (n.toNat) = cat n (cat (0 : BitVec 19) (cat (11 : BitVec 4) 0x20)) := by
      simp only [encSX, cat, BitVec.ofNat_eq_ofNat, BitVec.toNat_ofNat]; ring
    exact readScalar_sys 11 word (by simp [bitsOf_of_lt]) (by simp) (fun n sub => by rw [readSys, sub]) (by simp [zeroBits])
  | regrel => exact readScalar_sys 12 (encSX_zero 12) (by simp [bitsOf_of_lt]) (by simp) (fun n sub => by rw [readSys, sub]) (by simp [zeroBits])
  | forkImm m pc =>
    have word : encSX 13 (m.toNat * 2 ^ 19 + 1 * 2 ^ 18 + pc.toNat) = cat pc (cat (1 : BitVec 1) (cat m (cat (13 : BitVec 4) 0x20))) := by
      simp only [encSX, cat, BitVec.ofNat_eq_ofNat, BitVec.toNat_ofNat]; ring
    exact readScalar_sys 13 word (by simp [bitsOf_of_lt]) (by simp) (fun n sub => by rw [readSys, sub]) (by simp )
  | forkReg m a =>
    have word : encSX 13 (m.toNat * 2 ^ 19 + a.toNat * 2 ^ 12) =
        cat (0 : BitVec 12) (cat a (cat (0 : BitVec 1) (cat m (cat (13 : BitVec 4) 0x20)))) := by
      simp only [encSX, cat, BitVec.ofNat_eq_ofNat, BitVec.toNat_ofNat]; ring
    exact readScalar_sys 13 word (by simp [bitsOf_of_lt]) (by simp) (fun n sub => by rw [readSys, sub]) (by simp [zeroBits])
  | rdv m =>
    have word : encSX 14 (m.toNat * 2 ^ 19) = cat (0 : BitVec 19) (cat m (cat (14 : BitVec 4) 0x20)) := by
      simp only [encSX, cat, BitVec.ofNat_eq_ofNat, BitVec.toNat_ofNat]; ring
    exact readScalar_sys 14 word (by simp [bitsOf_of_lt]) (by simp) (fun n sub => by rw [readSys, sub]) (by simp [zeroBits])
  | tnext c =>
    have word : encSX 15 (c.toNat) = cat c (cat (0 : BitVec 19) (cat (15 : BitVec 4) 0x20)) := by
      simp only [encSX, cat, BitVec.ofNat_eq_ofNat, BitVec.toNat_ofNat]; ring
    exact readScalar_sys 15 word (by simp [bitsOf_of_lt]) (by simp) (fun n sub => by rw [readSys, sub]) (by simp [zeroBits])
  | tqput d a q => exact readScalar_task 0 q (fun n sub => by rw [readTask, sub]) (by simp [zeroBits])
  | tqwait a => exact readScalar_task (d := 0) 1 0 (fun n sub => by rw [readTask, sub]) (by simp [zeroBits])
  | tqtest d a => exact readScalar_task 2 0 (fun n sub => by rw [readTask, sub]) (by simp [zeroBits])
  | gtake d a => exact readScalar_task 3 0 (fun n sub => by rw [readTask, sub]) (by simp [zeroBits])
  | _ => cases h

/-! ## Decoding what was encoded -/

/-- The words of an instruction are read as the instruction, with no reserved bit set. -/
theorem readWord_encode {e : Env} {st : Strm} {i : Instr} (h : i.stream = some st) (wf : i.wf e = true) :
    readWord st (encode i) = ([], some i) := by
  cases st with
  | s => exact readScalar_encode h
  | v => exact readVector_encode h wf
  | m => exact readMatrix_encode h
  | k => exact readCopy_encode h

/-- A word that is read as an instruction with nothing broken decodes to it. -/
theorem decode_of_read {e : Env} {st : Strm} {n : Nat} {i : Instr} (read : readWord st n = ([], some i)) (wf : i.wf e = true) :
    decode e st n = some i := by
  simp [decode, classZero, wordDetails, read, details_of_wf wf, lowest]

/-- Settles O2: an encoded word is read field by field, and a well-formed instruction breaks no rule. -/
theorem decodeEncode : Obligations.DecodeEncode :=
  fun _ _ _ h wf => decode_of_read (readWord_encode h wf) wf

/-! ## Decoded instructions -/

/-- A reading whose instruction, if any, is of the stream. -/
def Reading.isOf (r : Reading) (st : Strm) : Prop := ∀ i, r.2 = some i → i.stream = some st

theorem isOf_some {st : Strm} {i : Instr} (l : List Nat) (h : i.stream = some st) : Reading.isOf (l, some i) st := by
  rintro _ ⟨⟩
  exact h

theorem readAlu_isOf (n : Nat) : Reading.isOf (readAlu n) .s := by
  unfold readAlu
  dsimp only
  repeat' split
  all_goals rintro i ⟨⟩ <;> rfl

theorem readShi_isOf (n : Nat) : Reading.isOf (readShi n) .s := by
  refine isOf_some _ ?_
  split <;> rfl

theorem readFpu_isOf (n : Nat) : Reading.isOf (readFpu n) .s := by
  unfold readFpu
  dsimp only
  split <;> exact isOf_some _ rfl

theorem readAmo_isOf (n : Nat) : Reading.isOf (readAmo n) .s := by
  unfold readAmo
  dsimp only
  split
  all_goals rintro i ⟨⟩ <;> rfl

theorem readSys_isOf (n : Nat) : Reading.isOf (readSys n) .s := by
  unfold readSys
  dsimp only
  repeat' split
  all_goals exact isOf_some _ rfl

theorem readTask_isOf (n : Nat) : Reading.isOf (readTask n) .s := by
  unfold readTask
  dsimp only
  split
  all_goals rintro i ⟨⟩ <;> rfl

theorem readScalar_isOf (n : Nat) : Reading.isOf (readScalar n) .s := by
  unfold readScalar
  dsimp only
  split
  case h_1 => exact readAlu_isOf n
  case h_7 => exact readShi_isOf n
  case h_15 => exact readFpu_isOf n
  case h_18 => exact readAmo_isOf n
  case h_23 => exact readSys_isOf n
  case h_24 => exact readTask_isOf n
  case h_11 => exact isOf_some _ (by split <;> rfl)
  all_goals rintro i ⟨⟩ <;> rfl

theorem readVatom_isOf (n : Nat) : Reading.isOf (readVatom n) .v := by
  unfold readVatom
  split
  all_goals rintro i ⟨⟩ <;> rfl

theorem readVmlog_isOf (n : Nat) : Reading.isOf (readVmlog n) .v := by
  unfold readVmlog
  split
  all_goals rintro i ⟨⟩ <;> rfl

theorem readVred_isOf (n : Nat) : Reading.isOf (readVred n) .v := by
  unfold readVred
  split
  all_goals rintro i ⟨⟩ <;> rfl

theorem readVector_isOf (n : Nat) : Reading.isOf (readVector n) .v := by
  unfold readVector
  repeat' split
  case h_22 => exact readVmlog_isOf n
  case h_39 => exact readVred_isOf n
  case h_46 => exact readVatom_isOf n
  all_goals rintro i ⟨⟩ <;> rfl

theorem readMpro_isOf (n : Nat) : Reading.isOf (readMpro n) .m := by
  unfold readMpro
  dsimp only
  split
  all_goals rintro i ⟨⟩ <;> rfl

theorem readMatrix_isOf (n : Nat) : Reading.isOf (readMatrix n) .m := by
  unfold readMatrix
  dsimp only
  split
  case h_11 => exact readMpro_isOf n
  all_goals rintro i ⟨⟩ <;> rfl

theorem readCopy_isOf (n : Nat) : Reading.isOf (readCopy n) .k := by
  unfold readCopy
  dsimp only
  repeat' split
  all_goals rintro i ⟨⟩ <;> rfl

theorem readWord_isOf (st : Strm) (n : Nat) : Reading.isOf (readWord st n) st := by
  cases st with
  | s => exact readScalar_isOf n
  | v => exact readVector_isOf n
  | m => exact readMatrix_isOf n
  | k => exact readCopy_isOf n

/-- What decodes was read, and breaks no rule (R92). -/
theorem decode_eq_some {e : Env} {st : Strm} {n : Nat} {i : Instr} (h : decode e st n = some i) :
    (readWord st n).2 = some i ∧ i.details e = [] := by
  unfold decode at h
  split at h
  · rename_i clean
    have broken : wordDetails e st n = [] := Machine.lowest_eq_none.mp clean
    simp only [wordDetails, h, List.append_eq_nil_iff] at broken
    exact ⟨h, broken.2⟩
  · cases h

/-- Settles O3: the details of a word that decodes are none, and every reader gives words of its own stream. -/
theorem decodedIsWellFormed : Obligations.DecodedIsWellFormed := by
  intro e st n i h
  obtain ⟨read, clean⟩ := decode_eq_some h
  exact ⟨by simp [Instr.wf, clean], readWord_isOf st n i read⟩

end Sys2Proof

/-!
PROOFS. Scalar words on registers (R97-R105): one lemma for the words that write a register, one for those that also raise flags; then what
the functions of R99 and R102 compute.
-/

namespace Sys2Proof.Machine

/-! ## Words that write one register -/

/-- A word of R99 writes its value where it is ready, in whatever form the value is given. -/
theorem answersS_scalarTo {i : Instr} {srcs : List GReg} {d : GReg} {val : Crew → Word} {after : State → State}
    (meaning : ∀ s, exec i s = onCrew s (fun c => c.scalarTo i srcs d val)) (same : ∀ s, after s = s.wrote d (val s.crew)) :
    AnswersS i srcs d after := by
  intro s h
  rw [meaning, onCrew_scalarTo_ready h, same]
  rfl

/-- A floating-point word writes its result and raises its flags where it is ready. -/
theorem fpuWord_ready {i : Instr} {srcs : List GReg} {d : GReg} {val : Crew → Nat × Flags} {s : State}
    (h : s.crew.readyScalar i srcs d = true) : fpuWord i srcs d val s = .next (s.wroteFlags d (fpuResult (val s.crew))) :=
  onCrew_scalar_ready h

theorem minS_eq (a b : Word) : BitVec.ofInt 64 (min a.toInt b.toInt) = if b.slt a then b else a := by
  by_cases h : b.toInt < a.toInt
  · rw [if_pos (BitVec.slt_iff_toInt_lt.mpr h), min_eq_right (Int.le_of_lt h), BitVec.ofInt_toInt]
  · rw [if_neg (mt BitVec.slt_iff_toInt_lt.mp h), min_eq_left (Int.not_lt.mp h), BitVec.ofInt_toInt]

theorem maxS_eq (a b : Word) : BitVec.ofInt 64 (max a.toInt b.toInt) = if a.slt b then b else a := by
  by_cases h : a.toInt < b.toInt
  · rw [if_pos (BitVec.slt_iff_toInt_lt.mpr h), max_eq_right (Int.le_of_lt h), BitVec.ofInt_toInt]
  · rw [if_neg (mt BitVec.slt_iff_toInt_lt.mp h), max_eq_left (Int.not_lt.mp h), BitVec.ofInt_toInt]

theorem minN_eq (a b : Word) : BitVec.ofNat 64 (min a.toNat b.toNat) = if b.ult a then b else a := by
  by_cases h : b.toNat < a.toNat
  · rw [if_pos (by simpa [BitVec.ult] using h), min_eq_right (Nat.le_of_lt h), BitVec.ofNat_toNat, BitVec.setWidth_eq]
  · rw [if_neg (by simpa [BitVec.ult] using h), min_eq_left (Nat.not_lt.mp h), BitVec.ofNat_toNat, BitVec.setWidth_eq]

theorem maxN_eq (a b : Word) : BitVec.ofNat 64 (max a.toNat b.toNat) = if a.ult b then b else a := by
  by_cases h : a.toNat < b.toNat
  · rw [if_pos (by simpa [BitVec.ult] using h), max_eq_right (Nat.le_of_lt h), BitVec.ofNat_toNat, BitVec.setWidth_eq]
  · rw [if_neg (by simpa [BitVec.ult] using h), max_eq_left (Nat.not_lt.mp h), BitVec.ofNat_toNat, BitVec.setWidth_eq]

/-- Settles O4: every word writes its function of the sources; the minima and maxima as those of the numbers. -/
theorem integerWords : Obligations.IntegerWords := by
  intro d a b
  refine ⟨?_, ?_, ?_, ?_, ?_, ?_, ?_, ?_, ?_, ?_, ?_, ?_, ?_, ?_, ?minS, ?maxS, ?minN, ?maxN, ?_, ?_, ?_, ?_, ?_, fun _ => ?_⟩
  case minS => exact answersS_scalarTo (fun _ => rfl) (fun s => by rw [minS_eq])
  case maxS => exact answersS_scalarTo (fun _ => rfl) (fun s => by rw [maxS_eq])
  case minN => exact answersS_scalarTo (fun _ => rfl) (fun s => by rw [minN_eq])
  case maxN => exact answersS_scalarTo (fun _ => rfl) (fun s => by rw [maxN_eq])
  all_goals exact answersS_scalarTo (fun _ => rfl) (fun _ => rfl)

/-- Settles O8: each word is a floating-point word; FCVT gives its pattern as it is. -/
theorem floatWords : Obligations.FloatWords := by
  intro d a b r f src tgt sat
  refine ⟨fun s h => ?_, fun s h => ?_, fun s h => ?_, fun s h => ?_, fun s h => ?_, fun s h => ?_, fun s h => ?_, fun s h => ?_, fun s h => ?_⟩
  · rw [exec, execFadd, fpuWord_ready h]
  · rw [exec, execFsub, fpuWord_ready h]
  · rw [exec, execFmul, fpuWord_ready h]
  · rw [exec, execFfma, fpuWord_ready h]
  · rw [exec, execFmin, fpuWord_ready h]
  · rw [exec, execFmax, fpuWord_ready h]
  · rw [exec, execFabs, fpuWord_ready h]
  · rw [exec, execFneg, fpuWord_ready h]
  · rw [exec, execFcvt, onCrew_scalar_ready h]
    rfl

/-- Settles O9: a register read behind a write of it or of another. -/
theorem scalarRegisters : Obligations.ScalarRegisters := by
  intro c d w
  refine ⟨?_, ?_, ?_, ?_, ?_, ?_⟩
  · rfl
  · simp [Crew.wrG, isShared]
  · intro h; simp only [Crew.rdG_wrG, if_neg h, if_true]
  · intro r h
    simp only [Crew.rdG_wrG, if_neg h.symm]
    split
    · rename_i h0; rw [h0]; rfl
    · rfl
  · intro h; simp [Crew.gEmpty, Crew.wrG, h]
  · intro r h
    have other : d.toNat ≠ r.toNat := fun e => h (BitVec.eq_of_toNat_eq e.symm)
    simp only [Crew.gEmpty, Crew.wrG]
    split <;> simp [other]

/-! ## Division (R99) -/

theorem answers_div {i : Instr} {d a b : GReg} {f : Word → Word → Word} {s : State} (meaning : exec i s = divWord i d a b f s)
    (h : s.crew.readyScalar i [a, b] d = true) :
    exec i s = .next { s with
      nextId := s.nextId + 1
      crew := ({ s.crew with sres := s.crew.sres ++ [{ id := s.nextId, d := d, kind := .value (f (s.crew.rdG a) (s.crew.rdG b)) }] } :
        Crew).advance } :=
  meaning.trans (scalarState_ready h)

theorem divS_eq (a b : Word) : divS a b = if b = 0 then BitVec.allOnes 64 else BitVec.ofInt 64 (a.toInt.tdiv b.toInt) := by
  have exact_ : a.sdiv b = BitVec.ofInt 64 (a.toInt.tdiv b.toInt) :=
    BitVec.eq_of_toInt_eq (by rw [BitVec.toInt_sdiv, BitVec.toInt_ofInt])
  rw [divS, exact_]

theorem remS_eq (a b : Word) : remS a b = if b = 0 then a else BitVec.ofInt 64 (a.toInt.tmod b.toInt) := by
  rw [remS, ← BitVec.toInt_srem, BitVec.ofInt_toInt]

theorem divN_eq (a b : Word) : divN a b = if b = 0 then BitVec.allOnes 64 else BitVec.ofNat 64 (a.toNat / b.toNat) := by
  rw [divN, ← BitVec.toNat_udiv, BitVec.ofNat_toNat, BitVec.setWidth_eq]; rfl

theorem remN_eq (a b : Word) : remN a b = if b = 0 then a else BitVec.ofNat 64 (a.toNat % b.toNat) := by
  rw [remN, ← BitVec.toNat_umod, BitVec.ofNat_toNat, BitVec.setWidth_eq]; rfl

/-- Settles O6: the immediates as the other register words; a division leaves its value in flight. -/
theorem immediateAndDivisionWords : Obligations.ImmediateAndDivisionWords := by
  refine ⟨?_, ?_⟩
  · intro d a i n pos w x
    refine ⟨?_, ?_, ?_, ?_, ?_, ?_, ?_, ?_, ?_, ?_, ?_, ?_, ?_⟩
    all_goals exact answersS_scalarTo (fun _ => rfl) (fun _ => rfl)
  · intro d a b s
    refine ⟨fun h => ?_, fun h => ?_, fun h => ?_, fun h => ?_⟩
    · rw [answers_div rfl h, divS_eq]
    · rw [answers_div rfl h, divN_eq]
    · rw [answers_div rfl h, remS_eq]
    · rw [answers_div rfl h, remN_eq]

/-! ## Selects and compares -/

theorem intCond_holds (cond : Nat) (a b : Word) : intCond cond a b =
    match cond with
    | 0 => decide (a = b)
    | 1 => decide (a ≠ b)
    | 2 => decide (a.toInt < b.toInt)
    | 3 => decide (b.toInt ≤ a.toInt)
    | 4 => decide (a.toNat < b.toNat)
    | _ => decide (b.toNat ≤ a.toNat) := by
  unfold intCond
  split
  · exact beq_eq_decide a b
  · simp [bne, beq_eq_decide]
  · exact BitVec.slt_eq_decide
  · simp only [BitVec.slt_eq_decide, ← decide_not, Int.not_lt]
  · rfl
  · simp only [BitVec.ult, ← decide_not, Nat.not_lt]

/-- No comparison of values holds with a NaN on either side (R103). -/
theorem FVal.unordered {x y : FVal} (h : x.isNan = true ∨ y.isNan = true) : x.eq y = false ∧ FVal.lt false x y = false := by
  cases x <;> cases y <;> simp_all [FVal.isNan, FVal.eq, FVal.lt]

theorem fltCond_of_nan {cond a b : Nat} (low : 8 ≤ cond) (high : cond ≤ 11)
    (h : (fmtF32.value a).isNan = true ∨ (fmtF32.value b).isNan = true) : (fltCond cond a b).1 = decide (cond = 11) := by
  obtain ⟨eq, lt⟩ := FVal.unordered h
  have kinds : cond = 8 ∨ cond = 9 ∨ cond = 10 ∨ cond = 11 := by omega
  rcases kinds with rfl | rfl | rfl | rfl
  · simp [fltCond, eq]
  · simp [fltCond, lt]
  · simp [fltCond, eq, lt]
  · simpa [fltCond] using h

/-- Settles O7: selects and integer compares by the truth of their condition; a float condition on a NaN is false, unordered apart. -/
theorem selectAndCompare : Obligations.SelectAndCompare := by
  refine ⟨?_, ?_⟩
  · intro d a b f cond i s A holds
    refine ⟨fun h full => ?_, fun small h => ?_, fun h => ?_⟩
    · rw [exec, execSel, onCrew_scalar_ready h, if_pos full]
      rfl
    · have low : (cond.zeroExtend 8).toNat = cond.toNat := by simp; omega
      rw [exec, execCmp, onCrew_scalar_ready h, if_pos (by omega), low, intCond_holds] <;> rfl
    · rw [exec, execCmpi, onCrew_scalar_ready h, intCond_holds] <;> rfl
  · intro a b f cond s low high h r
    refine ⟨?_, fltCond_of_nan low high⟩
    rw [exec, execCmp, onCrew_scalar_ready h, if_neg (by omega)]

/-! ## The loop counts behind a word -/

/-- Settles O10: the two levels one after the other. -/
theorem loopSuccessor : Obligations.LoopSuccessor := by
  intro c p lc at_ back next1 outer t
  refine ⟨?_, ?_, ?_, rfl, rfl, rfl, rfl⟩
  · rw [show t.lc = (c.loopNext p).1 from rfl, c.get_loopNext_inner]
    simp only [at_, lc, p, Bool.and_eq_true, decide_eq_true_eq]
  · simp only [t, Crew.advance, Crew.loopNext, outer, next1, back, at_, lc, p]
    grind [SMap.get_set]
  · simp only [t, Crew.advance, Crew.loopNext, Stream.goto, outer, next1, back, at_, lc, p]
    grind [SMap.get_set]

/-! ## The functions of R99 -/

theorem mulhS_eq (a b : Word) : mulhS a b = BitVec.ofInt 64 (a.toInt * b.toInt / 2 ^ 64) := by
  have product : a.signExtend 128 * b.signExtend 128 = BitVec.ofInt 128 (a.toInt * b.toInt) := (BitVec.ofInt_mul a.toInt b.toInt).symm
  rw [mulhS, product]
  generalize a.toInt * b.toInt = p
  refine BitVec.eq_of_toNat_eq ?_
  simp only [BitVec.extractLsb'_toNat, BitVec.toNat_ofInt, Nat.shiftRight_eq_div_pow]
  omega

theorem mulhN_eq (a b : Word) : mulhN a b = BitVec.ofNat 64 (a.toNat * b.toNat / 2 ^ 64) := by
  refine BitVec.eq_of_toNat_eq ?_
  have small : a.toNat * b.toNat < 2 ^ 128 := by
    calc a.toNat * b.toNat < 2 ^ 64 * 2 ^ 64 := Nat.mul_lt_mul'' a.isLt b.isLt
      _ = 2 ^ 128 := by norm_num
  simp only [mulhN, BitVec.zeroExtend_eq_setWidth, BitVec.extractLsb'_toNat, BitVec.toNat_mul, BitVec.toNat_setWidth, BitVec.toNat_ofNat,
    Nat.shiftRight_eq_div_pow]
  rw [Nat.mod_eq_of_lt (show a.toNat < 2 ^ 128 by omega), Nat.mod_eq_of_lt (show b.toNat < 2 ^ 128 by omega), Nat.mod_eq_of_lt small]

theorem ctzFrom_le (n x : Nat) : ctzFrom n x ≤ n := by
  induction n generalizing x with
  | zero => exact Nat.le_refl 0
  | succ n ih =>
    have := ih (x / 2)
    simp only [ctzFrom]
    split <;> omega

/-- Every bit below the count is zero, and the bit at the count is one where some bit is. -/
theorem testBit_ctzFrom (n x : Nat) :
    (∀ i, i < ctzFrom n x → x.testBit i = false) ∧ (ctzFrom n x < n → x.testBit (ctzFrom n x) = true) := by
  induction n generalizing x with
  | zero => exact ⟨fun i h => absurd h (Nat.not_lt_zero i), fun h => absurd h (Nat.not_lt_zero _)⟩
  | succ n ih =>
    obtain ⟨below, here⟩ := ih (x / 2)
    by_cases odd : x % 2 = 1
    · simp [ctzFrom, odd, Nat.testBit_zero]
    · simp only [ctzFrom, if_neg odd]
      refine ⟨fun i h => ?_, fun h => ?_⟩
      · cases i with
        | zero => simpa [Nat.testBit_zero] using odd
        | succ i => rw [Nat.testBit_succ]; exact below i (by omega)
      · rw [Nat.add_comm, Nat.testBit_succ]
        exact here (by omega)

theorem ctzFrom_eq_top {n x : Nat} (h : ctzFrom n x = n) : x % 2 ^ n = 0 := by
  refine Nat.eq_of_testBit_eq fun i => ?_
  rw [Nat.testBit_mod_two_pow, Nat.zero_testBit]
  by_cases low : i < n
  · simp [(testBit_ctzFrom n x).1 i (by omega)]
  · simp [low]

theorem popNat_eq (n x : Nat) : popNat n x = ((List.range n).filter (fun i => x.testBit i)).length := by
  induction n generalizing x with
  | zero => rfl
  | succ n ih =>
    rw [popNat, ih, List.range_succ_eq_map, List.filter_cons, List.filter_map, Nat.testBit_zero]
    simp only [Function.comp_def, Nat.succ_eq_add_one, Nat.testBit_succ, decide_eq_true_eq]
    split
    · rename_i odd
      rw [List.length_cons, List.length_map, odd, Nat.add_comm]
    · rename_i even
      rw [List.length_map, show x % 2 = 0 by omega, Nat.zero_add]

/-- Bits of a number that holds `u` below `2 ^ k` and `r` above. -/
theorem testBit_above {k u r j : Nat} (h : u < 2 ^ k) : (u + 2 ^ k * r).testBit (k + j) = r.testBit j := by
  rw [Nat.add_comm u, Nat.testBit_two_pow_mul_add r h, if_neg (by omega), Nat.add_sub_cancel_left]

theorem testBit_bits2 (x y r : Nat) :
    ((x % 2 + 2 * (y % 2)) + 2 ^ 2 * r).testBit 0 = x.testBit 0 ∧ ((x % 2 + 2 * (y % 2)) + 2 ^ 2 * r).testBit 1 = y.testBit 0 := by
  have low : (x % 2 + 2 * (y % 2) + 2 ^ 2 * r) % 2 = x % 2 := by omega
  have high : (x % 2 + 2 * (y % 2) + 2 ^ 2 * r) / 2 % 2 = y % 2 := by omega
  simp only [Nat.testBit_eq_decide_div_mod_eq, Nat.pow_zero, Nat.div_one, Nat.pow_one, low, high, and_self]

theorem testBit_bits3 (x y z r : Nat) :
    ((x % 2 + 2 * (y % 2) + 4 * (z % 2)) + 2 ^ 3 * r).testBit 0 = x.testBit 0 ∧
    ((x % 2 + 2 * (y % 2) + 4 * (z % 2)) + 2 ^ 3 * r).testBit 1 = y.testBit 0 ∧
    ((x % 2 + 2 * (y % 2) + 4 * (z % 2)) + 2 ^ 3 * r).testBit 2 = z.testBit 0 := by
  have low : (x % 2 + 2 * (y % 2) + 4 * (z % 2) + 2 ^ 3 * r) % 2 = x % 2 := by omega
  have mid : (x % 2 + 2 * (y % 2) + 4 * (z % 2) + 2 ^ 3 * r) / 2 % 2 = y % 2 := by omega
  have high : (x % 2 + 2 * (y % 2) + 4 * (z % 2) + 2 ^ 3 * r) / 2 ^ 2 % 2 = z % 2 := by omega
  simp only [Nat.testBit_eq_decide_div_mod_eq, Nat.pow_zero, Nat.div_one, Nat.pow_one, low, mid, high, and_self]

theorem testBit_spread2 {n a b i : Nat} (h : i < n) :
    (spread 2 n a + 2 * spread 2 n b).testBit (2 * i) = a.testBit i ∧ (spread 2 n a + 2 * spread 2 n b).testBit (2 * i + 1) = b.testBit i := by
  induction n generalizing a b i with
  | zero => exact absurd h (Nat.not_lt_zero i)
  | succ n ih =>
    have pair : spread 2 (n + 1) a + 2 * spread 2 (n + 1) b =
        (a % 2 + 2 * (b % 2)) + 2 ^ 2 * (spread 2 n (a / 2) + 2 * spread 2 n (b / 2)) := by
      simp only [spread]; ring
    rw [pair]
    cases i with
    | zero => exact testBit_bits2 a b _
    | succ i =>
      obtain ⟨ha, hb⟩ := ih (a := a / 2) (b := b / 2) (Nat.lt_of_succ_lt_succ h)
      rw [show 2 * (i + 1) + 1 = 2 + (2 * i + 1) by ring, show 2 * (i + 1) = 2 + 2 * i by ring, testBit_above (by omega),
        testBit_above (by omega), ha, hb, Nat.testBit_succ, Nat.testBit_succ]
      exact ⟨rfl, rfl⟩

theorem testBit_spread3 {n a b e i : Nat} (h : i < n) :
    (spread 3 n a + 2 * spread 3 n b + 4 * spread 3 n e).testBit (3 * i) = a.testBit i ∧
    (spread 3 n a + 2 * spread 3 n b + 4 * spread 3 n e).testBit (3 * i + 1) = b.testBit i ∧
    (spread 3 n a + 2 * spread 3 n b + 4 * spread 3 n e).testBit (3 * i + 2) = e.testBit i := by
  induction n generalizing a b e i with
  | zero => exact absurd h (Nat.not_lt_zero i)
  | succ n ih =>
    have triple : spread 3 (n + 1) a + 2 * spread 3 (n + 1) b + 4 * spread 3 (n + 1) e =
        (a % 2 + 2 * (b % 2) + 4 * (e % 2)) + 2 ^ 3 * (spread 3 n (a / 2) + 2 * spread 3 n (b / 2) + 4 * spread 3 n (e / 2)) := by
      simp only [spread]; ring
    rw [triple]
    cases i with
    | zero => exact testBit_bits3 a b e _
    | succ i =>
      obtain ⟨ha, hb, he⟩ := ih (a := a / 2) (b := b / 2) (e := e / 2) (Nat.lt_of_succ_lt_succ h)
      rw [show 3 * (i + 1) + 1 = 3 + (3 * i + 1) by ring, show 3 * (i + 1) + 2 = 3 + (3 * i + 2) by ring, show 3 * (i + 1) = 3 + 3 * i by ring,
        testBit_above (by omega), testBit_above (by omega), testBit_above (by omega), ha, hb, he, Nat.testBit_succ, Nat.testBit_succ,
        Nat.testBit_succ]
      exact ⟨rfl, rfl, rfl⟩

theorem spread3_lt (n a b e : Nat) : spread 3 n a + 2 * spread 3 n b + 4 * spread 3 n e < 2 ^ (3 * n) := by
  induction n generalizing a b e with
  | zero => simp [spread]
  | succ n ih =>
    have := ih (a / 2) (b / 2) (e / 2)
    simp only [spread]
    rw [show 3 * (n + 1) = 3 + 3 * n by ring, Nat.pow_add]
    omega

/-- Bits as `getLsbD` and as those of the number. -/
theorem getLsbD_eq_testBit (a : Word) (i : Nat) : a.getLsbD i = a.toNat.testBit i := (BitVec.testBit_toNat a).symm

theorem clzNat_spec (a : Word) :
    clzNat 64 a.toNat ≤ 64 ∧ (∀ i, 64 - clzNat 64 a.toNat ≤ i → a.getLsbD i = false) ∧
      (a ≠ 0 → a.getLsbD (63 - clzNat 64 a.toNat) = true) ∧ (a = 0 → clzNat 64 a.toNat = 64) := by
  by_cases h : a = 0
  · subst h
    simp [clzNat]
  · have pos : a.toNat ≠ 0 := fun e => h (BitVec.eq_of_toNat_eq e)
    have top : a.toNat.log2 < 64 := (Nat.log2_lt pos).mpr a.isLt
    simp only [clzNat, if_neg pos, getLsbD_eq_testBit]
    refine ⟨by omega, fun i above => ?_, fun _ => ?_, fun e => absurd e h⟩
    · exact Nat.testBit_lt_two_pow ((Nat.log2_lt pos).mp (by omega))
    · rw [show 63 - (64 - 1 - a.toNat.log2) = a.toNat.log2 by omega]
      exact Nat.testBit_log2 pos

theorem ctzFrom_spec (a : Word) :
    ctzFrom 64 a.toNat ≤ 64 ∧ (∀ i, i < ctzFrom 64 a.toNat → a.getLsbD i = false) ∧
      (a ≠ 0 → a.getLsbD (ctzFrom 64 a.toNat) = true) ∧ (a = 0 → ctzFrom 64 a.toNat = 64) := by
  obtain ⟨below, here⟩ := testBit_ctzFrom 64 a.toNat
  simp only [getLsbD_eq_testBit]
  refine ⟨ctzFrom_le _ _, below, fun h => here ?_, fun h => by subst h; rfl⟩
  refine Nat.lt_of_le_of_ne (ctzFrom_le _ _) fun all => h (BitVec.eq_of_toNat_eq ?_)
  have := ctzFrom_eq_top all
  rwa [Nat.mod_eq_of_lt a.isLt] at this

/-! ## Bit fields (R102) -/

theorem getLsbD_bfx_zero (a : Word) (pos w : BitVec 6) {i : Nat} (hi : i < 64) :
    (bfx false a pos w).getLsbD i = (decide (i ≤ w.toNat) && a.getLsbD (pos.toNat + i)) := by
  simp [bfx, hi]

theorem getLsbD_bfx_sign (a : Word) (pos w : BitVec 6) {i : Nat} (hi : i < 64) :
    (bfx true a pos w).getLsbD i = a.getLsbD (pos.toNat + min i w.toNat) := by
  have top : (a.extractLsb' pos.toNat (w.toNat + 1)).msb = a.getLsbD (pos.toNat + w.toNat) := by
    simp [BitVec.msb_eq_getLsbD_last]
  simp only [bfx, if_true, BitVec.getLsbD_signExtend, hi, decide_true, Bool.true_and, top, BitVec.getLsbD_extractLsb']
  split
  · rename_i inside
    rw [decide_eq_true inside, Bool.true_and, Nat.min_eq_left (by omega)]
  · rw [Nat.min_eq_right (by omega)]

theorem getLsbD_bfi (old a : Word) (pos w : BitVec 6) {i : Nat} (hi : i < 64) :
    (bfi old a pos w).getLsbD i = (if pos.toNat ≤ i ∧ i ≤ pos.toNat + w.toNat then a.getLsbD (i - pos.toNat) else old.getLsbD i) := by
  have inField : (BitVec.ofNat 64 (2 ^ (w.toNat + 1) - 1) <<< pos.toNat : Word).getLsbD i =
      decide (pos.toNat ≤ i ∧ i ≤ pos.toNat + w.toNat) := by
    simp only [BitVec.getLsbD_shiftLeft, hi, decide_true, Bool.true_and, BitVec.getLsbD_ofNat, Nat.testBit_two_pow_sub_one]
    by_cases low : i < pos.toNat
    · simp [low, show ¬ pos.toNat ≤ i by omega]
    · simp only [low, decide_false, Bool.not_false, Bool.true_and, show i - pos.toNat < 64 by omega, decide_true]
      exact decide_eq_decide.mpr (by omega)
  simp only [bfi, BitVec.getLsbD_or, BitVec.getLsbD_and, BitVec.getLsbD_not, inField, hi, BitVec.getLsbD_shiftLeft]
  by_cases field : pos.toNat ≤ i ∧ i ≤ pos.toNat + w.toNat
  · simp [field]
  · simp [field]

/-- Settles O5: the products as those of the numbers, the counts and the interleaving bit by bit, the fields bit by bit. -/
theorem integerAndFieldFunctions : Obligations.IntegerAndFieldFunctions := by
  refine ⟨fun a b e => ⟨mulhS_eq a b, mulhN_eq a b, clzNat_spec a, ctzFrom_spec a, ?_, fun i hi => ?_, fun i hi => ?_, ?_⟩,
    fun old a pos w i _ hi => ⟨getLsbD_bfx_zero a pos w hi, getLsbD_bfx_sign a pos w hi, getLsbD_bfi old a pos w hi⟩⟩
  · simp only [popNat_eq, getLsbD_eq_testBit]
  · obtain ⟨ha, hb⟩ := testBit_spread2 (a := a.toNat) (b := b.toNat) hi
    simp only [bilv2, BitVec.getLsbD_ofNat, getLsbD_eq_testBit a, getLsbD_eq_testBit b, ha, hb]
    simp only [show 2 * i < 64 by omega, show 2 * i + 1 < 64 by omega, decide_true, Bool.true_and, and_self]
  · obtain ⟨ha, hb, he⟩ := testBit_spread3 (a := a.toNat) (b := b.toNat) (e := e.toNat) hi
    simp only [bilv3, BitVec.getLsbD_ofNat, getLsbD_eq_testBit a, getLsbD_eq_testBit b, getLsbD_eq_testBit e, ha, hb, he]
    simp only [show 3 * i < 64 by omega, show 3 * i + 1 < 64 by omega, show 3 * i + 2 < 64 by omega, decide_true, Bool.true_and, and_self]
  · simp only [bilv3, BitVec.getLsbD_ofNat, Nat.testBit_lt_two_pow (spread3_lt 21 a.toNat b.toNat e.toNat), Bool.and_false]

end Sys2Proof.Machine

/-!
PROOFS. Scalar control words (R98, R112, R117, R118, R123, R126, R128, R129): hardware loops set up, streams started and joined, waits on
tokens, temporal indices, shared scalars and special registers; and what the taking of a trap leaves of its crew.
-/

namespace Sys2Proof.Machine

/-! ## What a trap leaves of its crew -/

theorem Crew.sameData.refl (c : Crew) : c.sameData c := rfl

theorem Crew.sameData.trans {c d e : Crew} (h : c.sameData d) (k : d.sameData e) : c.sameData e := by
  unfold Crew.sameData at *
  rw [k, h]

theorem Crew.setStrm_sameData (c : Crew) (st : Strm) (x : Stream) : c.sameData (c.setStrm st x) := rfl

theorem Crew.block_sameData (c : Crew) (st : Strm) (w : Wait) (mark : Nat) : c.sameData (c.block st w mark) := rfl

theorem Crew.lowerTok_sameData (c : Crew) (k : Tok) : c.sameData (c.lowerTok k) := rfl

theorem Crew.popPend_sameData (c : Crew) (st : Strm) : c.sameData (c.popPend st) := by
  unfold Crew.popPend
  dsimp only
  split
  · exact c.setStrm_sameData st _
  · split
    · exact (c.setStrm_sameData st _).trans (Crew.lowerTok_sameData _ _)
    · exact c.setStrm_sameData st _

theorem Crew.popped_sameData (c : Crew) (t : TrapReq) : c.sameData (c.popped t) := by
  unfold Crew.popped
  split
  · exact c.popPend_sameData t.strm
  · exact .refl c

theorem Crew.enterHandler_sameData (c : Crew) (t : TrapReq) : c.sameData (c.enterHandler t) := by
  rw [c.enterHandler_eq]
  exact (c.popped_sameData t).trans rfl

theorem Crew.recordTrap_sameData (c : Crew) (t : TrapReq) : c.sameData (c.recordTrap t) := by
  unfold Crew.recordTrap
  split <;> rfl

theorem Crew.stopFor_sameData (c : Crew) (t : TrapReq) : c.sameData (c.stopFor t) :=
  (c.recordTrap_sameData t).trans rfl

/-- The taking of a trap touches the streams, tokens and trap registers of its crew, and nothing else (R254, R255). -/
theorem Crew.takeTrap_sameData (c : Crew) : c.sameData c.takeTrap := by
  unfold Crew.takeTrap
  split
  · exact .refl c
  · split
    · exact .refl c
    · split
      · exact c.enterHandler_sameData _
      · exact c.stopFor_sameData _

theorem Crew.raise_sameData (c : Crew) (st : Strm) (code : BitVec 9) (tval : Word) (epc : Pc) : c.sameData (c.raise st code tval epc) :=
  Crew.sameData.trans (d := { c with trap := some ⟨st, code, tval, epc, false⟩ }) rfl (Crew.takeTrap_sameData _)

theorem Crew.enterPend_sameData (c : Crew) (st : Strm) : c.sameData (c.enterPend st) := by
  unfold Crew.enterPend
  dsimp only
  split
  · exact .refl c
  · rename_i p _
    exact Crew.sameData.trans (d := { c with trap := some ⟨st, p.code, p.tval, (c.strm st).pc, true⟩ }) rfl (Crew.takeTrap_sameData _)

/-- What a trap leaves, field by field. -/
theorem Crew.sameData.fields {c d : Crew} (h : c.sameData d) :
    d.g = c.g ∧ d.ls = c.ls ∧ d.le = c.le ∧ d.lc = c.lc ∧ d.fcsr = c.fcsr := by
  rw [h]
  exact ⟨rfl, rfl, rfl, rfl, rfl⟩

/-! ## LPSET -/

/-- Does LPSET at level `l` break the nesting (R112)? -/
def Crew.lpBroken (c : Crew) (l : Nat) (last : Nat) : Bool :=
  if l = 0 then SMap.get 0 c.lc 1 != 0 else SMap.get 0 c.lc 0 != 0 && decide ((SMap.get 0 c.le 0).toNat % 2 ^ 18 < last)

/-- The crew with level `l` set up (R112). -/
def Crew.lpSet (c : Crew) (l : Nat) (last n : Nat) : Crew :=
  { c with
    ls := SMap.set 0 c.ls l ((c.s.pc + 1).zeroExtend 64)
    le := SMap.set 0 c.le l ((BitVec.ofNat 18 last).zeroExtend 64)
    lc := SMap.set 0 c.lc l (BitVec.ofNat 64 n)
    s := c.s.goto (if n = 0 then BitVec.ofNat 18 (last + 1) else c.s.pc + 1) }

theorem exec_lpset_ready {s : State} {lv ci : BitVec 1} {cnt : BitVec 10} {len : BitVec 14}
    (h : s.crew.readyScalar (.lpset lv ci cnt len) (if ci = 1 then [] else [cnt.extractLsb' 4 6]) 0 = true) :
    exec (.lpset lv ci cnt len) s = .next { s with
      crew := if s.crew.lpBroken lv.toNat (s.crew.s.pc.toNat + len.toNat) then s.crew.raise .s (causeCode 1 5) 0 s.crew.s.pc
        else s.crew.lpSet lv.toNat (s.crew.s.pc.toNat + len.toNat) (lpCount s.crew ci cnt) } := by
  rw [exec, execLpset, onCrew_scalar_ready h]
  rfl

theorem bit_eq_zero_or_one (b : BitVec 1) : b = 0 ∨ b = 1 := by
  revert b
  decide

/-- Settles O13: a broken nesting traps, else the level is set up. -/
theorem loopSetup : Obligations.LoopSetup := by
  intro s lv ci cnt len c i n broken h
  have brokenIff : c.lpBroken lv.toNat (c.s.pc.toNat + len.toNat) = true ↔ broken := by
    rcases bit_eq_zero_or_one lv with rfl | rfl <;> simp [Crew.lpBroken, broken]
  refine ⟨fun isBroken => ⟨?_, ?_⟩, fun sound => ⟨c.lpSet lv.toNat (c.s.pc.toNat + len.toNat) n, ?_, ?_⟩⟩
  · rw [exec_lpset_ready h, if_pos (brokenIff.mpr isBroken)]
  · obtain ⟨g, ls, le, lc, -⟩ := (c.raise_sameData .s (causeCode 1 5) 0 c.s.pc).fields
    exact ⟨ls, le, lc, g⟩
  · rw [exec_lpset_ready h, if_neg (mt brokenIff.mp sound)]
    rfl
  · refine ⟨by simp [Crew.lpSet], by simp [Crew.lpSet], by simp [Crew.lpSet], rfl, fun k other => ?_, rfl⟩
    simp [Crew.lpSet, other.symm]

/-! ## Starting and joining streams -/

/-- Streams started one after another: each stands at the last PC that the list gives it (R21). -/
theorem Crew.startAll_keeps {l : List (Strm × Pc)} (c : Crew) {st : Strm} (h : ∀ x ∈ l, x.1 ≠ st) : (c.startAll l).strm st = c.strm st := by
  induction l generalizing c with
  | nil => rfl
  | cons x l ih =>
    rw [Crew.startAll, List.foldl_cons]
    refine (ih _ (fun y hy => h y (List.mem_cons_of_mem x hy))).trans ?_
    rw [c.strm_setStrm, if_neg (h x List.mem_cons_self)]

theorem Crew.startAll_starts (c : Crew) (l : List Strm) (pc : Pc) {st : Strm} (h : st ∈ l) :
    ((c.startAll (l.map (fun x => (x, pc)))).strm st).status = .running ∧ ((c.startAll (l.map (fun x => (x, pc)))).strm st).pc = pc := by
  induction l generalizing c with
  | nil => exact absurd h List.not_mem_nil
  | cons x l ih =>
    rw [List.map_cons, Crew.startAll, List.foldl_cons]
    by_cases later : st ∈ l
    · exact ih _ later
    · have first : x = st := by simpa [later, eq_comm] using h
      have kept := Crew.startAll_keeps (l := l.map (fun x => (x, pc))) (c.setStrm x ((c.strm x).goto pc)) (st := st)
        (by rintro y hy rfl; obtain ⟨z, hz, rfl⟩ := List.mem_map.mp hy; exact later hz)
      rw [Crew.startAll] at kept
      rw [kept, c.strm_setStrm, if_pos first]
      exact ⟨rfl, rfl⟩

theorem mem_named {mask : BitVec 3} {st : Strm} : st ∈ named mask ↔ inMask mask st = true := by
  cases st <;> simp [named, inMask]

/-- FORK of a list of streams: all are started where all are idle-done, and none else (R117). -/
theorem Crew.fork_eq (c : Crew) (l : List (Strm × Pc)) :
    c.fork l = if (l.map Prod.fst).all (fun st => (c.strm st).isIdle) then (c.startAll l).advance
      else c.raise .s (causeCode 5 0) 0 c.s.pc := by
  rw [Crew.fork, List.all_map]
  rfl

theorem State.crew_ite (s : State) (p : Prop) [Decidable p] (c d : Crew) :
    ({ s with crew := if p then c else d } : State) = if p then { s with crew := c } else { s with crew := d } := by
  split <;> rfl

theorem forkRegs_length (mask : BitVec 3) (a : GReg) : (forkRegs mask a).length = (named mask).length := by simp [forkRegs]

/-- Settles O14: FORK through the list of its streams, the others by what they do where they are ready. -/
theorem streamWords : Obligations.StreamWords := by
  refine ⟨?_, ?_⟩
  · intro s mask pc a c idle busy
    refine ⟨fun h => ?_, fun h small => ?_, fun h r hr => ?_, fun h => ?_, fun h => ?_, fun h => ?_⟩
    · have fsts : ((named mask).map (fun st => (st, pc))).map Prod.fst = named mask := by
        rw [List.map_map]
        exact List.map_id _
      rw [exec, execForkImm, onCrew_scalar_ready h, Crew.fork_eq, fsts, s.crew_ite]
    · have none_ : (forkRegs mask a).find? (fun r => decide (2 ^ 18 ≤ (s.crew.rdG r).toNat)) = none := by
        simpa [List.find?_eq_none] using small
      have fsts : ((named mask).zip ((forkRegs mask a).map (fun r => ((s.crew.rdG r).truncate 18 : Pc)))).map Prod.fst = named mask :=
        List.map_fst_zip (by simp [forkRegs_length])
      rw [exec, execForkReg, onCrew_scalar_ready h, none_, Crew.fork_eq, fsts, s.crew_ite]
    · rw [exec, execForkReg, onCrew_scalar_ready h, hr]
      rfl
    · rw [exec, execRdv, onCrew_scalar_ready h]
    · rw [exec, execYield, onCrew_scalar_ready h]
    · rw [exec, execHalt, onCrew_scalar_ready h]
  · intro c mask pc st t
    refine ⟨fun inn => c.startAll_starts _ pc (mem_named.mpr inn), fun out => c.startAll_keeps ?_⟩
    rintro x hx rfl
    obtain ⟨y, hy, rfl⟩ := List.mem_map.mp hx
    rw [mem_named.mp hy] at out
    cases out

/-! ## Tokens, temporal indices and shared scalars -/

theorem Crew.tokensAtMost_iff {c : Crew} {mask : BitVec 8} {lim : Nat} :
    c.tokensAtMost mask lim = true ↔ ∀ i, i < 8 → mask.getLsbD i = true → SMap.get 0 c.tok i ≤ lim := by
  simp only [Crew.tokensAtMost, List.all_eq_true, List.mem_range, Bool.or_eq_true, Bool.not_eq_true', decide_eq_true_eq]
  refine forall_congr' fun i => imp_congr_right fun _ => ?_
  cases mask.getLsbD i <;> simp

/-- Values put at distinct keys read back, and every other key keeps its value. -/
theorem SMap.get_foldl_set {α β : Type} [DecidableEq α] (d : α) (f : β → α) (ks : List Nat) (vs : List β) (len : vs.length = ks.length)
    (m : SMap α) (distinct : ks.Nodup) :
    ks.map (SMap.get d ((ks.zip vs).foldl (fun m x => SMap.set d m x.1 (f x.2)) m)) = vs.map f ∧
    ∀ n, n ∉ ks → SMap.get d ((ks.zip vs).foldl (fun m x => SMap.set d m x.1 (f x.2)) m) n = SMap.get d m n := by
  induction ks generalizing vs m with
  | nil => cases vs with
    | nil => exact ⟨rfl, fun _ _ => rfl⟩
    | cons v vs => cases len
  | cons k ks ih =>
    cases vs with
    | nil => cases len
    | cons v vs =>
      obtain ⟨apart, distinct'⟩ := List.nodup_cons.mp distinct
      obtain ⟨here, others⟩ := ih vs (Nat.succ.inj len) (SMap.set d m k (f v)) distinct'
      simp only [List.zip_cons_cons, List.foldl_cons, List.map_cons]
      refine ⟨?_, fun n out => ?_⟩
      · rw [here, others k apart, SMap.get_set, if_pos rfl]
      · obtain ⟨hk, hks⟩ := not_or.mp (mt List.mem_cons.mpr out)
        rw [others n hks, SMap.get_set, if_neg (Ne.symm hk)]

theorem odometer_length {l : List (Nat × Nat)} {t : List Nat} (h : odometer l = some t) : t.length = l.length := by
  induction l generalizing t with
  | nil => cases h
  | cons x l ih =>
    obtain ⟨n, y⟩ := x
    simp only [odometer] at h
    split at h
    · rename_i r hr
      cases h
      simp [ih hr]
    · split at h
      · cases h; simp
      · cases h

/-- The levels of the launch whose index is a T index (R126). -/
def Crew.tLevels (c : Crew) : List Nat :=
  (List.range c.kern.levels.length).filter (fun n => (c.kern.levels.getD n (0, 0)).1 == 0)

/-- The point at which the T indices stand, with their counts. -/
def Crew.tPoint (c : Crew) : List (Nat × Nat) :=
  c.tLevels.map (fun n => ((c.kern.levels.getD n (0, 0)).2, (SMap.get 0 c.ti n).toNat))

/-- The T indices set to a point. -/
def Crew.tPut (c : Crew) (l : List Nat) : SMap Word :=
  (c.tLevels.zip l).foldl (fun m x => SMap.set 0 m x.1 (BitVec.ofNat 64 x.2)) c.ti

theorem Crew.get_tPut (c : Crew) {l : List Nat} (len : l.length = c.tLevels.length) :
    c.tLevels.map (SMap.get 0 (c.tPut l)) = l.map (BitVec.ofNat 64) ∧ ∀ n, n ∉ c.tLevels → SMap.get 0 (c.tPut l) n = SMap.get 0 c.ti n :=
  SMap.get_foldl_set 0 (BitVec.ofNat 64) c.tLevels l len c.ti (List.nodup_range.filter _)

theorem exec_tnext_ready {s : State} {f : CFlag} (h : s.crew.readyScalar (.tnext f) [] 0 = true) :
    exec (.tnext f) s = .next { s with
      crew := (({ s.crew with ti := s.crew.tPut ((odometer s.crew.tPoint).getD (s.crew.tLevels.map (fun _ => 0))) } : Crew).setFlag f
        (odometer s.crew.tPoint).isSome).advance } := by
  rw [exec, execTnext, onCrew_scalar_ready h]
  cases hp : odometer s.crew.tPoint with
  | none =>
    unfold Crew.tPoint Crew.tLevels at hp
    simp only [hp]
    rfl
  | some l =>
    unfold Crew.tPoint Crew.tLevels at hp
    simp only [hp]
    rfl

theorem onCrew_guarded_ready {s : State} {st : Strm} {i : Instr} {go : Crew → Crew} (h : s.crew.ready st i = true) :
    onCrew s (fun c => c.guarded st i go) = .next { s with crew := go s.crew } := by
  simp [onCrew, Crew.guarded_ready h]

/-- Settles O15: a token wait by its limit, TNEXT through the point that it sets, GTAKE by its source. -/
theorem tokenIndexAndTake : Obligations.TokenIndexAndTake := by
  intro s kmask lim f d a c
  refine ⟨fun h => ⟨fun low => ?_, fun ⟨i, lt, bit, high⟩ => ?_⟩, fun h => ?_, fun shared h => ?_, fun plain h => ?_⟩
  · rw [exec, execTokw, onCrew_scalar_ready h, if_pos (Crew.tokensAtMost_iff.mpr low)]
  · rw [exec, execTokw, onCrew_scalar_ready h, if_neg]
    exact fun low => Nat.not_lt.mpr (Crew.tokensAtMost_iff.mp low i lt bit) high
  · have len : ((odometer s.crew.tPoint).getD (s.crew.tLevels.map (fun _ => 0))).length = s.crew.tLevels.length := by
      cases hp : odometer s.crew.tPoint with
      | none => simp
      | some l => simp [odometer_length hp, Crew.tPoint]
    obtain ⟨here, others⟩ := s.crew.get_tPut len
    exact ⟨_, exec_tnext_ready h, here, others⟩
  · rw [exec, execGtake]
    simp only [shared, if_true]
    exact onCrew_scalar_ready h
  · rw [exec, execGtake]
    simp only [plain, Bool.false_eq_true, if_false]
    exact onCrew_guarded_ready h

/-! ## Special registers -/

/-- The numbers of R244 that name a special register. -/
theorem Crew.readSr_isSome (c : Crew) (n : Nat) :
    (c.readSr n).isSome = true ↔ n ≤ 0x004 ∨ (0x010 ≤ n ∧ n ≤ 0x015) ∨ (0x020 ≤ n ∧ n ≤ 0x025) ∨ (0x030 ≤ n ∧ n ≤ 0x036) ∨
      (0x040 ≤ n ∧ n ≤ 0x042) := by
  unfold Crew.readSr
  split
  case h_18 =>
    simp only [imp_false] at *
    split
    · simp; omega
    · split
      · simp; omega
      · simp only [Option.isSome_none, Bool.false_eq_true, false_iff]
        omega
  all_goals simp

/-- The numbers of R244 whose register a program may write. -/
theorem Crew.writeSr_isSome (c : Crew) (n : Nat) (w : Word) :
    (c.writeSr n w).isSome = true ↔ n ≤ 0x001 ∨ (0x010 ≤ n ∧ n ≤ 0x015) ∨ (0x030 ≤ n ∧ n ≤ 0x035) := by
  unfold Crew.writeSr
  dsimp only
  split
  case h_11 =>
    simp only [imp_false] at *
    split
    · simp; omega
    · simp only [Option.isSome_none, Bool.false_eq_true, false_iff]
      omega
  all_goals simp

/-- A written special register reads as its writable bits. -/
theorem Crew.readSr_writeSr {c d : Crew} {n : Nat} {w : Word} (h : c.writeSr n w = some d) :
    d.readSr n = some (w &&&
      (if n = 0x000 then fcsrMask else if n = 0x001 then 0x7F
       else if n = 0x012 ∨ n = 0x015 then 0xFFFFFFFF
       else if n = 0x034 then 0x7FF else if n = 0x035 then BitVec.allOnes 64 else 0x3FFFF)) := by
  unfold Crew.writeSr at h
  dsimp only at h
  split at h
  case h_11 =>
    split at h
    · rename_i range
      cases h
      obtain rfl | rfl | rfl | rfl : n = 0x030 ∨ n = 0x031 ∨ n = 0x032 ∨ n = 0x033 := by omega
      all_goals simp [Crew.readSr, SMap.get_set]
    · cases h
  case h_10 =>
    cases h
    exact congrArg some BitVec.and_allOnes.symm
  all_goals cases h
  all_goals simp [Crew.readSr, SMap.get_set]

/-- Settles O16: SRD and SWR by what they read and write, and the table of R244. -/
theorem specialRegisters : Obligations.SpecialRegisters := by
  refine ⟨?_,
    fun c n w => ⟨c.readSr_isSome n, c.writeSr_isSome n w, fun d written => Crew.readSr_writeSr written⟩⟩
  intro s d a n c none_
  refine ⟨fun h => ?_, fun h => ?_⟩
  · rw [exec, execSrd, onCrew_scalar_ready h]
    simp only [c, none_]
    cases s.crew.readSr n.toNat <;> rfl
  · rw [exec, execSwr, onCrew_scalar_ready h]
    simp only [c, none_]
    cases s.crew.readSr n.toNat <;> cases s.crew.advance.writeSr n.toNat (s.crew.rdG a) <;> rfl

end Sys2Proof.Machine

/-!
PROOFS. Frames of the scalar words (R92, R97, R99-R105, R111, R129): what a word leaves, whether it completes, waits or traps.
-/

namespace Sys2Proof.Machine

/-! ## A word that waits or traps -/

/-- Where no handler is entered, the trap registers are as before. -/
def Crew.sameTrapRegs (c d : Crew) : Prop := d.act = c.act → d.epc = c.epc ∧ d.cause = c.cause ∧ d.tval = c.tval ∧ d.held = c.held

theorem Crew.stopFor_sameTrapRegs (c : Crew) (t : TrapReq) : c.sameTrapRegs (c.stopFor t) := by
  intro _
  unfold Crew.stopFor Crew.recordTrap
  split <;> exact ⟨rfl, rfl, rfl, rfl⟩

theorem Crew.takeTrap_sameTrapRegs (c : Crew) : c.sameTrapRegs c.takeTrap := by
  unfold Crew.takeTrap
  split
  · exact fun _ => ⟨rfl, rfl, rfl, rfl⟩
  · split
    · exact fun _ => ⟨rfl, rfl, rfl, rfl⟩
    · split
      · rename_i _ enters
        intro same
        rw [c.enterHandler_eq] at same
        simp [← same] at enters
      · exact c.stopFor_sameTrapRegs _

theorem Crew.raise_sameTrapRegs (c : Crew) (st : Strm) (code : BitVec 9) (tval : Word) (epc : Pc) :
    c.sameTrapRegs (c.raise st code tval epc) :=
  Crew.takeTrap_sameTrapRegs _

theorem Crew.enterPend_sameTrapRegs (c : Crew) (st : Strm) : c.sameTrapRegs (c.enterPend st) := by
  unfold Crew.enterPend
  dsimp only
  split
  · exact fun _ => ⟨rfl, rfl, rfl, rfl⟩
  · exact Crew.takeTrap_sameTrapRegs _

/-- The checks before any word: it does nothing, enters a pending trap, traps, or goes on to its meaning (R92, R256). -/
theorem Crew.guarded_cases (c : Crew) (st : Strm) (i : Instr) (go : Crew → Crew) :
    c.guarded st i go = c ∨ c.guarded st i go = c.enterPend st ∨
    (∃ code tval, c.guarded st i go = c.raise st code tval (c.strm st).pc) ∨ c.guarded st i go = go c := by
  unfold Crew.guarded
  split
  · exact .inl rfl
  · split
    · exact .inr (.inl rfl)
    · split
      · exact .inr (.inr (.inl ⟨_, _, rfl⟩))
      · exact .inr (.inr (.inr rfl))

/-- A scalar word does what it is for, or waits or traps (R92, R96, R97, R264). -/
theorem Crew.scalar_cases (c : Crew) (i : Instr) (srcs : List GReg) (d : GReg) (go : Crew → Crew) :
    c.scalar i srcs d go = go c ∨ (c.sameData (c.scalar i srcs d go) ∧ c.sameTrapRegs (c.scalar i srcs d go)) := by
  unfold Crew.scalar
  obtain h | h | ⟨code, tval, h⟩ | h := c.guarded_cases .s i _ <;> rw [h]
  · exact .inr ⟨.refl c, fun _ => ⟨rfl, rfl, rfl, rfl⟩⟩
  · exact .inr ⟨c.enterPend_sameData .s, c.enterPend_sameTrapRegs .s⟩
  · exact .inr ⟨c.raise_sameData .s code tval _, c.raise_sameTrapRegs .s code tval _⟩
  · split
    · exact .inr ⟨c.raise_sameData .s _ _ _, c.raise_sameTrapRegs .s _ _ _⟩
    · split
      · exact .inr ⟨c.block_sameData .s _ 0, fun _ => ⟨rfl, rfl, rfl, rfl⟩⟩
      · exact .inl rfl

/-! ## Register words -/

/-- What a register word leaves of its crew. -/
def Crew.regFrame (d : GReg) (c e : Crew) : Prop :=
  c.sameButG e ∧ (∀ r, r ≠ d → e.rdG r = c.rdG r ∧ e.gEmpty r = c.gEmpty r) ∧ c.sameTrapRegs e

theorem Crew.sameData.sameButG {c e : Crew} (h : c.sameData e) : c.sameButG e := by
  unfold Crew.sameButG
  rw [h]

theorem Crew.sameData.sameRegs {c e : Crew} (h : c.sameData e) (r : GReg) : e.rdG r = c.rdG r ∧ e.gEmpty r = c.gEmpty r := by
  rw [h]
  exact ⟨rfl, rfl⟩

theorem Crew.sameData.regFrame {c e : Crew} (h : c.sameData e) (k : c.sameTrapRegs e) (d : GReg) : c.regFrame d e :=
  ⟨h.sameButG, fun r _ => h.sameRegs r, k⟩

/-- A register written leaves every other one, with its full bit. -/
theorem Crew.wrG_sameRegs (c : Crew) {d r : GReg} (w : Word) (h : r ≠ d) :
    (c.wrG d w).rdG r = c.rdG r ∧ (c.wrG d w).gEmpty r = c.gEmpty r := by
  have apart : d.toNat ≠ r.toNat := fun e => h (BitVec.eq_of_toNat_eq e.symm)
  refine ⟨?_, ?_⟩
  · rw [c.rdG_wrG, if_neg h.symm]
    split
    · rename_i zero
      rw [zero]
      rfl
    · rfl
  · simp only [Crew.gEmpty, Crew.wrG]
    split
    · rw [SMap.get_set, if_neg apart]
    · rfl

theorem Crew.wrG_advance_regFrame (c : Crew) (d : GReg) (w : Word) : c.regFrame d (c.wrG d w).advance :=
  ⟨rfl, fun _ h => c.wrG_sameRegs w h, fun _ => ⟨rfl, rfl, rfl, rfl⟩⟩

theorem Crew.wrG_transfer_regFrame (c : Crew) (d : GReg) (w : Word) (pc : Pc) : c.regFrame d ((c.wrG d w).transfer pc) :=
  ⟨rfl, fun _ h => c.wrG_sameRegs w h, fun _ => ⟨rfl, rfl, rfl, rfl⟩⟩

/-- What a register word leaves of the machine. -/
def State.regFrame (d : GReg) (s t : State) : Prop := s.onlyCrew t ∧ s.crew.regFrame d t.crew

theorem onCrew_scalar_regFrame {s t : State} {i : Instr} {srcs : List GReg} {d : GReg} {go : Crew → Crew}
    (done : s.crew.regFrame d (go s.crew)) (h : onCrew s (fun c => c.scalar i srcs d go) = .next t) : s.regFrame d t := by
  cases h
  refine ⟨rfl, ?_⟩
  obtain e | ⟨e, k⟩ := s.crew.scalar_cases i srcs d go
  · exact (congrArg (s.crew.regFrame d) e).mpr done
  · exact e.regFrame k d

theorem onCrew_scalarTo_regFrame {s t : State} {i : Instr} {srcs : List GReg} {d : GReg} {val : Crew → Word}
    (h : onCrew s (fun c => c.scalarTo i srcs d val) = .next t) : s.regFrame d t :=
  onCrew_scalar_regFrame (s.crew.wrG_advance_regFrame d _) h

/-- Every word that writes one scalar register leaves what it should. -/
theorem exec_regFrame {i : Instr} {d : GReg} {s t : State} (hd : destOf i = some d) (h : exec i s = .next t) : s.regFrame d t := by
  cases i
  case sel d' a b f =>
    cases hd
    refine onCrew_scalar_regFrame ?_ h
    split
    · exact s.crew.wrG_advance_regFrame d _
    · exact (s.crew.block_sameData .s _ 0).regFrame (fun _ => ⟨rfl, rfl, rfl, rfl⟩) d
  case jal d' off =>
    cases hd
    exact onCrew_scalar_regFrame (s.crew.wrG_transfer_regFrame d _ _) h
  case jalr d' a off =>
    cases hd
    refine onCrew_scalar_regFrame ?_ h
    dsimp only
    split
    · exact s.crew.wrG_transfer_regFrame d _ _
    · exact (s.crew.raise_sameData .s _ _ _).regFrame (s.crew.raise_sameTrapRegs .s _ _ _) d
  case srd d' n =>
    cases hd
    refine onCrew_scalar_regFrame ?_ h
    split
    · exact s.crew.wrG_advance_regFrame d _
    · exact (s.crew.raise_sameData .s _ _ _).regFrame (s.crew.raise_sameTrapRegs .s _ _ _) d
  all_goals cases hd
  all_goals exact onCrew_scalarTo_regFrame h

/-- Settles O17: each register word by its frame. -/
theorem registerWordFrame : Obligations.RegisterWordFrame := by
  intro i d s t hd h
  obtain ⟨only, same, regs, traps⟩ := exec_regFrame hd h
  exact ⟨only, same, regs, traps⟩

/-! ## Floating-point words -/

/-- What a floating-point word leaves of its crew: as a register word, but for the flags that it ORs in. -/
def Crew.floatFrame (d : GReg) (c e : Crew) : Prop :=
  ({ c with fcsr := e.fcsr } : Crew).sameButG e ∧ (∀ r, r ≠ d → e.rdG r = c.rdG r ∧ e.gEmpty r = c.gEmpty r) ∧
  (e.fcsr = c.fcsr ∨ ∃ f : Flags, e.fcsr = fcsrOr c.fcsr f)

theorem Crew.sameData.floatFrame {c e : Crew} (h : c.sameData e) (d : GReg) : c.floatFrame d e := by
  obtain ⟨-, -, -, -, fcsr⟩ := h.fields
  refine ⟨?_, fun r _ => h.sameRegs r, .inl fcsr⟩
  rw [fcsr]
  exact h.sameButG

/-- A word that raised flags: they are ORed in, and all else is as where it raised none, but for a trap. -/
theorem Crew.advanceFlags_sameData (c : Crew) (f : Flags) : (c.orFlags f).advance.sameData (c.advanceFlags f) := by
  unfold Crew.advanceFlags
  dsimp only
  split
  · exact Crew.raise_sameData _ _ _ _ _
  · exact .refl _

theorem Crew.wrG_advanceFlags_floatFrame (c : Crew) (d : GReg) (w : Word) (f : Flags) : c.floatFrame d ((c.wrG d w).advanceFlags f) := by
  have after := (c.wrG d w).advanceFlags_sameData f
  have fcsr : ((c.wrG d w).advanceFlags f).fcsr = fcsrOr c.fcsr f := after.fields.2.2.2.2
  refine ⟨?_, fun r h => ?_, .inr ⟨f, fcsr⟩⟩
  · rw [fcsr]
    unfold Crew.sameButG
    rw [after]
    rfl
  · obtain ⟨rd, empty⟩ := after.sameRegs r
    obtain ⟨rd', empty'⟩ := c.wrG_sameRegs w h
    exact ⟨rd.trans rd', empty.trans empty'⟩

theorem onCrew_scalar_floatFrame {s t : State} {i : Instr} {srcs : List GReg} {d : GReg} {val : Crew → Word × Flags}
    (h : onCrew s (fun c => c.scalar i srcs d (fun c => (c.wrG d (val c).1).advanceFlags (val c).2)) = .next t) :
    s.onlyCrew t ∧ s.crew.floatFrame d t.crew := by
  cases h
  refine ⟨rfl, ?_⟩
  obtain e | ⟨e, -⟩ := s.crew.scalar_cases i srcs d (fun c => (c.wrG d (val c).1).advanceFlags (val c).2)
  · dsimp only
    rw [e]
    exact s.crew.wrG_advanceFlags_floatFrame d _ _
  · exact e.floatFrame d

theorem fpuWord_floatFrame {s t : State} {i : Instr} {srcs : List GReg} {d : GReg} {val : Crew → Nat × Flags}
    (h : fpuWord i srcs d val s = .next t) : s.onlyCrew t ∧ s.crew.floatFrame d t.crew :=
  onCrew_scalar_floatFrame (val := fun c => fpuResult (val c)) h

/-- Every floating-point word leaves what it should. -/
theorem exec_floatFrame {i : Instr} {d : GReg} {s t : State} (hd : floatDestOf i = some d) (h : exec i s = .next t) :
    s.onlyCrew t ∧ s.crew.floatFrame d t.crew := by
  cases i
  case fcvt d' a src tgt rnd sat =>
    cases hd
    exact onCrew_scalar_floatFrame (val := fun c => fcvtVal (c.rdG a) src tgt (modeOf c.fcsr rnd) (sat == 1)) h
  all_goals cases hd
  all_goals simp only [exec, execFadd, execFsub, execFmul, execFfma, execFmin, execFmax, execFabs, execFneg] at h
  all_goals exact fpuWord_floatFrame h

/-- The flags stand in bits 12 to 8 of sr.fcsr (R47). -/
theorem getLsbD_fcsrOr (w : Word) (f : Flags) (n : Nat) :
    (fcsrOr w f).getLsbD n = if 8 ≤ n ∧ n ≤ 12 then w.getLsbD n || f.getLsbD (n - 8) else w.getLsbD n := by
  simp only [fcsrOr, BitVec.getLsbD_or, BitVec.getLsbD_shiftLeft, BitVec.getLsbD_setWidth, BitVec.zeroExtend_eq_setWidth]
  split
  · rename_i range
    simp [show n < 64 by omega, show ¬n < 8 by omega, show n - 8 < 64 by omega]
  · rename_i out
    by_cases low : n < 8
    · simp [low]
    · simp [low, BitVec.getLsbD_of_ge f (n - 8) (by omega)]

/-- Settles O18: each floating-point word by its frame, and the bits that ORing flags in sets. -/
theorem floatWordFrame : Obligations.FloatWordFrame := by
  refine ⟨fun i d s t hd h => ?_, getLsbD_fcsrOr⟩
  obtain ⟨only, same, regs, flags⟩ := exec_floatFrame hd h
  exact ⟨only, same, regs, flags⟩

end Sys2Proof.Machine

/-!
PROOFS. Traps (R92, R130, R254-R257): a crew that halts for a trap, conditions that wait, the TRAP word and flag traps, the return, and
words that break an encoding rule.
-/

namespace Sys2Proof.Machine

/-! ## A crew that is stopped for a trap -/

section
variable {c : Crew} {t : TrapReq}

/-- A trap without a free handler stops the crew (R255, R256). -/
theorem Crew.takeTrap_stops (h : c.trap = some t) (landed : c.inFlight = false) (busy : c.bindRec.handlerValid = false ∨ c.act = true) :
    c.takeTrap = c.stopFor t := by
  have closed : (c.bindRec.handlerValid && !c.act) = false := by rcases busy with h | h <;> simp [h]
  simp [Crew.takeTrap, h, landed, closed]

theorem Crew.stopFor_strm (c : Crew) (t : TrapReq) :
    (c.stopFor t).strm t.strm =
      if t.pended then { c.strm t.strm with pc := t.epc }
      else { c.strm t.strm with
        pc := t.epc
        pend := some ⟨t.code, t.tval⟩
        kept := (c.strm t.strm).pend.toList.map (fun q => (q, none)) ++ (c.strm t.strm).kept } := by
  have outer : ∀ e : Crew, ({ ({ e with trap := none, sHeld := c.sHeld && t.strm != .s } : Crew) with
      stop := some ⟨t.code, t.tval⟩, life := .halting } : Crew).strm t.strm = e.strm t.strm := fun e => by cases t.strm <;> rfl
  unfold Crew.stopFor Crew.recordTrap
  rw [outer, Crew.strm_setStrm, if_pos rfl]
  split
  · rfl
  · unfold Crew.putPend
    rw [Crew.strm_setStrm, if_pos rfl]
    cases (c.strm t.strm).pend <;> rfl

theorem Crew.stopFor_life (c : Crew) (t : TrapReq) : (c.stopFor t).life = .halting := rfl

theorem Crew.stopFor_act (c : Crew) (t : TrapReq) : (c.stopFor t).act = c.act := by
  unfold Crew.stopFor Crew.recordTrap
  split <;> rfl

end

/-! ## Conditions found after completion -/

theorem Crew.enterHandler_pend (c : Crew) (t : TrapReq) (y : Strm) :
    ((c.enterHandler t).strm y).pend = ((c.popped t).strm y).pend ∧ ((c.enterHandler t).strm y).kept = ((c.popped t).strm y).kept := by
  cases y <;> exact ⟨rfl, rfl⟩

/-- The oldest kept condition takes the place of the pending trap that is entered, and lowers its token (R256). -/
theorem Crew.popPend_kept {c : Crew} {st : Strm} {q : Pend} {u : Tok} {ks : List (Pend × Option Tok)}
    (h : (c.strm st).kept = (q, some u) :: ks) :
    ((c.popPend st).strm st).pend = some q ∧ ((c.popPend st).strm st).kept = ks ∧ (c.popPend st).tokCount u = c.tokCount u - 1 := by
  simp only [Crew.popPend, h, Crew.strm_lowerTok, Crew.strm_setStrm, if_true, true_and]
  rw [Crew.tokCount_lowerTok, if_pos rfl]
  rfl

/-- A pending trap that enters its handler. -/
theorem Crew.enterPend_enters {c : Crew} {st : Strm} {p : Pend} (h : (c.strm st).pend = some p) (landed : c.inFlight = false)
    (valid : c.bindRec.handlerValid = true) (idle : c.act = false) :
    c.enterPend st = ({ c with trap := some ⟨st, p.code, p.tval, (c.strm st).pc, true⟩ } : Crew).enterHandler
      ⟨st, p.code, p.tval, (c.strm st).pc, true⟩ := by
  simp only [Crew.enterPend, h]
  exact Crew.takeTrap_enters rfl landed valid idle

/-- Settles O20: the crew that stops, the condition that becomes pending or is kept, and the pending trap that is entered. -/
theorem trapsThatWaitOrHalt : Obligations.TrapsThatWaitOrHalt := by
  refine ⟨fun c t waits landed busy => ?_, fun c st p t => ?_⟩
  · dsimp only
    rw [Crew.takeTrap_stops waits landed busy]
    obtain ⟨epc, cause, tval, held⟩ := c.stopFor_sameTrapRegs t (c.stopFor_act t)
    refine ⟨rfl, rfl, ?_, fun fresh => ?_, fun pended => ?_, epc, cause, tval, c.stopFor_act t, held, fun st => ?_⟩
    · rw [c.stopFor_strm]
      split <;> rfl
    · rw [c.stopFor_strm, if_neg (by simp [fresh])]
      exact ⟨rfl, rfl⟩
    · rw [c.stopFor_strm, if_pos pended]
      exact ⟨rfl, rfl⟩
    · simp [Crew.canIssue, Crew.stopFor_life]
  · dsimp only
    have isNested : (st == .s && c.act && c.trap.isNone && c.life == .running) = true ↔
        st = .s ∧ c.act = true ∧ c.trap = none ∧ c.life = .running := by simp [and_assoc]
    refine ⟨fun nested => ?_, fun other empty => ?_, fun other q full => ?_, ?_, fun q u ks pend kept valid idle landed => ?_⟩
    · rw [Crew.postPend, if_pos (isNested.mpr nested)]
    · rw [Crew.postPend, if_neg (mt isNested.mp other), empty]
      simp only [Crew.strm_setStrm, if_true, true_and]
      rfl
    · rw [Crew.postPend, if_neg (mt isNested.mp other), full]
      simp only [Crew.strm_setStrm, if_true, true_and]
      rfl
    · rintro k rfl
      exact ⟨rfl, by simp [Crew.lowerTok?]⟩
    · rw [Crew.enterPend_enters pend landed valid idle]
      obtain ⟨isQ, isKs, lowered⟩ := Crew.popPend_kept (c := { c with trap := some ⟨st, p.code, p.tval, (c.strm st).pc, true⟩ }) (st := st)
        (by cases st <;> exact kept)
      obtain ⟨pend', kept'⟩ := Crew.enterHandler_pend { c with trap := some ⟨st, p.code, p.tval, (c.strm st).pc, true⟩ }
        ⟨st, p.code, p.tval, (c.strm st).pc, true⟩ st
      exact ⟨pend'.trans isQ, kept'.trans isKs, lowered, rfl, rfl⟩

/-! ## TRAP and flag traps -/

/-- A trap of a crew with a free handler and nothing in flight enters it. -/
theorem Crew.raise_enters {c : Crew} (st : Strm) (code : BitVec 9) (tval : Word) (epc : Pc) (landed : c.inFlight = false)
    (valid : c.bindRec.handlerValid = true) (idle : c.act = false) :
    c.raise st code tval epc = ({ c with trap := some ⟨st, code, tval, epc, false⟩ } : Crew).enterHandler ⟨st, code, tval, epc, false⟩ :=
  Crew.takeTrap_enters rfl landed valid idle

theorem Crew.advanceFlags_traps {c : Crew} {f : Flags} {d : Nat} (h : enabledDetail (fcsrEn c.fcsr) f = some d) :
    c.advanceFlags f = (c.orFlags f).advance.raise .s (causeCode 2 d) (c.s.pc.zeroExtend 64) (c.orFlags f).advance.s.pc := by
  simp only [Crew.advanceFlags, h]

/-- Settles O21: the word or the flag completes first, and its trap enters the free handler. -/
theorem trapWordAndFlagTrap : Obligations.TrapWordAndFlagTrap := by
  refine ⟨fun s code h => ⟨onCrew_scalar_ready h, fun valid idle landed => ?_⟩, fun c f => ⟨fun none_ => ?_, fun d h valid idle landed => ?_⟩⟩
  · dsimp only
    rw [Crew.raise_enters (c := s.crew.advance) .s _ 0 _ landed valid idle]
    refine ⟨?_, rfl, ?_, rfl, rfl⟩
    · have := code.isLt
      simp [Crew.enterHandler_eq, causeWord, causeCode, strmNo]
      omega
    · exact (Crew.get_enterHandler_epc _ _ .s).trans (if_pos rfl)
  · simp only [Crew.advanceFlags, none_]
  · dsimp only
    rw [Crew.advanceFlags_traps h, Crew.raise_enters (c := (c.orFlags f).advance) .s _ _ _ landed valid idle]
    refine ⟨rfl, rfl, rfl, ?_, rfl, rfl, rfl, rfl⟩
    exact (Crew.get_enterHandler_epc _ _ .s).trans (if_pos rfl)

/-! ## The return from a trap -/

/-- The crew behind ERET, before a pending trap is entered: the status cleared, each held stream at its sr.epc (R257). -/
def Crew.resumed (c : Crew) : Crew :=
  ((((({ c with act := false, held := 0, sHeld := false } : Crew).resumeStrm c.held .v).resumeStrm c.held .m).resumeStrm c.held .k).resumeStrm
    c.held .s)

theorem Crew.eret_eq (c : Crew) :
    c.eret = (match c.resumed.firstPend c.held with
      | some st => c.resumed.enterPend st
      | none => c.resumed) := rfl

theorem Crew.resumeStrm_strm (c : Crew) (held : BitVec 4) (st y : Strm) :
    (c.resumeStrm held st).strm y =
      if st = y ∧ held.getLsbD (strmNo y) = true then (c.strm y).goto ((SMap.get 0 c.epc (strmNo y)).truncate 18) else c.strm y := by
  unfold Crew.resumeStrm
  by_cases same : st = y
  · subst same
    by_cases h : held.getLsbD (strmNo st) = true
    · rw [if_pos h, c.strm_setStrm, if_pos rfl, if_pos ⟨rfl, h⟩]
    · rw [if_neg h, if_neg (fun both => h both.right)]
  · rw [if_neg (fun both : st = y ∧ _ => same both.left)]
    split
    · rw [c.strm_setStrm, if_neg same]
    · rfl

theorem Crew.resumeStrm_epc (c : Crew) (held : BitVec 4) (st : Strm) : (c.resumeStrm held st).epc = c.epc := by
  unfold Crew.resumeStrm
  split <;> rfl

/-- Each held stream resumes at its sr.epc, and no other stream changes (R257). -/
theorem Crew.resumed_strm (c : Crew) (y : Strm) :
    c.resumed.strm y = if c.held.getLsbD (strmNo y) then (c.strm y).goto ((SMap.get 0 c.epc (strmNo y)).truncate 18) else c.strm y := by
  unfold Crew.resumed
  simp only [Crew.resumeStrm_strm, Crew.resumeStrm_epc]
  cases y <;> simp <;> rfl

/-- Only the streams differ. -/
def Crew.sameButStrms (c d : Crew) : Prop := d = { c with s := d.s, v := d.v, m := d.m, k := d.k }

theorem Crew.sameButStrms.trans {c d e : Crew} (h : c.sameButStrms d) (k : d.sameButStrms e) : c.sameButStrms e := by
  unfold Crew.sameButStrms at *
  rw [k, h]

theorem Crew.resumeStrm_sameButStrms (c : Crew) (held : BitVec 4) (st : Strm) : c.sameButStrms (c.resumeStrm held st) := by
  unfold Crew.resumeStrm
  split <;> rfl

theorem Crew.resumed_only (c : Crew) :
    c.resumed = { c with
      s := c.resumed.s, v := c.resumed.v, m := c.resumed.m, k := c.resumed.k, act := false, held := 0, sHeld := false } :=
  (((Crew.resumeStrm_sameButStrms _ c.held .v).trans (Crew.resumeStrm_sameButStrms _ c.held .m)).trans
    (Crew.resumeStrm_sameButStrms _ c.held .k)).trans (Crew.resumeStrm_sameButStrms _ c.held .s)

/-- A resumed stream keeps its pending trap. -/
theorem Crew.resumed_pend (c : Crew) (y : Strm) : (c.resumed.strm y).pend = (c.strm y).pend := by
  rw [c.resumed_strm]
  split <;> rfl

/-- Settles O22: the crew behind ERET, stream by stream, and the first pending trap among the held ones. -/
theorem returnFromTrap : Obligations.ReturnFromTrap := by
  intro s h c
  have ran : exec .eret s = .next { s with crew := if s.crew.act then s.crew.eret else s.crew.raise .s (causeCode 1 6) 0 s.crew.s.pc } :=
    onCrew_scalar_ready h
  refine ⟨fun idle => ?_, fun act => ⟨c.resumed, fun st => ⟨fun held => ?_, fun out => ?_⟩, c.resumed_only, ?_⟩⟩
  · rw [ran, if_neg (by simp [show s.crew.act = false from idle])]
  · rw [c.resumed_strm, if_pos held]
    exact ⟨rfl, rfl, rfl⟩
  · rw [c.resumed_strm, if_neg (by simp [out])]
  · rw [ran, if_pos act, Crew.eret_eq, Crew.firstPend]
    simp only [Crew.resumed_pend]
    rfl

/-! ## Words that break an encoding rule -/

theorem onCrew_guarded (s : State) (st : Strm) (i : Instr) (go : Crew → Crew) :
    onCrew s (fun c => c.guarded st i go) = guardedState s st i (fun s => onCrew s go) := by
  simp only [onCrew, Crew.guarded, guardedState]
  split_ifs
  · rfl
  · rfl
  · cases lowest (i.details s.crew.env) <;> rfl

section
variable (s : State)

theorem scalarState_guarded (i : Instr) (srcs : List GReg) (d : GReg) (go : State → Out) :
    ∃ g, scalarState s i srcs d go = guardedState s .s i g := ⟨_, rfl⟩

theorem divWord_guarded (i : Instr) (d a b : GReg) (f : Word → Word → Word) : ∃ g, divWord i d a b f s = guardedState s .s i g :=
  scalarState_guarded s i _ _ _

theorem amo_guarded (i : Instr) (aop : Nat) (sx : Bool) (d a : GReg) (oc : BitVec 4) (sc : BitVec 3) (size : BitVec 1) :
    ∃ g, s.amo i aop sx d a oc sc size = guardedState s .s i g :=
  scalarState_guarded s i _ _ _

theorem efence_guarded (i : Instr) (sc : BitVec 4) (cmask : BitVec 16) : ∃ g, s.efence i sc cmask = guardedState s .s i g :=
  scalarState_guarded s i _ _ _

theorem waitedState_guarded (st : Strm) (i : Instr) (wait : BitVec 8) (go : State → Out) :
    ∃ g, waitedState s st i wait go = guardedState s st i g := ⟨_, rfl⟩

theorem matrixWord_guarded (i : Instr) (wait : BitVec 8) (regs : List Nat) (reads : Bool) (go : State → Out) :
    ∃ g, matrixWord i wait regs reads s go = guardedState s .m i g := waitedState_guarded s .m i _ _

theorem readRows_guarded (i : Instr) (f : MRowF) : ∃ g, readRows i f s = guardedState s .m i g := matrixWord_guarded s i _ _ _ _

theorem proWord_guarded (i : Instr) (pro : Nat) (gap : BitVec 4) (wait : BitVec 8) (sig : BitVec 3) (ptab : BitVec 8) :
    ∃ g, proWord i pro gap wait sig ptab s = guardedState s .m i g :=
  matrixWord_guarded s i _ _ _ _

theorem copyWord_guarded (i : Instr) (seq : Crew → Nat) (room : State → Job → Option Wait) (start : Crew → Job → Crew × Job) :
    ∃ g, copyWord i seq room start s = guardedState s .k i g := waitedState_guarded s .k i _ _

theorem plainCopy_guarded (i : Instr) : ∃ g, plainCopy i s = guardedState s .k i g := copyWord_guarded s i _ _ _

theorem collWord_guarded (i : Instr) : ∃ g, collWord i s = guardedState s .k i g := by
  unfold collWord
  exact copyWord_guarded s i _ _ _

theorem pushWord_guarded (i : Instr) (q : Nat) : ∃ g, pushWord i q s = guardedState s .k i g := copyWord_guarded s i _ _ _

theorem popWord_guarded (i : Instr) (q : Nat) : ∃ g, popWord i q s = guardedState s .k i g := copyWord_guarded s i _ _ _

theorem onCrew_scalar_guarded (i : Instr) (srcs : List GReg) (d : GReg) (go : Crew → Crew) :
    ∃ g, onCrew s (fun c => c.scalar i srcs d go) = guardedState s .s i g := ⟨_, onCrew_guarded s .s i _⟩

theorem onCrew_scalarTo_guarded (i : Instr) (srcs : List GReg) (d : GReg) (val : Crew → Word) :
    ∃ g, onCrew s (fun c => c.scalarTo i srcs d val) = guardedState s .s i g := ⟨_, onCrew_guarded s .s i _⟩

theorem fpuWord_guarded (i : Instr) (srcs : List GReg) (d : GReg) (val : Crew → Nat × Flags) :
    ∃ g, fpuWord i srcs d val s = guardedState s .s i g := ⟨_, onCrew_guarded s .s i _⟩

theorem onCrew_waited_guarded (st : Strm) (i : Instr) (wait : BitVec 8) (go : Crew → Crew) :
    ∃ g, onCrew s (fun c => c.waited st i wait go) = guardedState s st i g := ⟨_, onCrew_guarded s st i _⟩

theorem onCrew_branch_guarded (st : Strm) (i : Instr) (gap : BitVec 4) (wait : BitVec 8) (f : CFlag) (take sense : BitVec 1) (off : Pc) :
    ∃ g, onCrew s (fun c => c.branch st i gap wait f take sense off) = guardedState s st i g := ⟨_, onCrew_guarded s st i _⟩

theorem onCrew_finish_guarded (st : Strm) (i : Instr) (gap : BitVec 4) (wait : BitVec 8) :
    ∃ g, onCrew s (fun c => c.finish st i gap wait) = guardedState s st i g := ⟨_, onCrew_guarded s st i _⟩

end

/-- Every word of the scalar, matrix and copy streams passes the checks of its stream first (R92, R256). -/
theorem exec_guarded {i : Instr} {st : Strm} (h : i.stream = some st) (notV : st ≠ .v) (s : State) :
    ∃ go, exec i s = guardedState s st i go := by
  cases i
  case ld | st | fence | bar | drain | regacq | regrel | tqput | tqwait | tqtest =>
    cases h
    rw [exec]
    exact scalarState_guarded s _ _ _ _
  case divS | divN | remS | remN =>
    cases h
    rw [exec]
    exact divWord_guarded s _ _ _ _ _
  case amoAdd | amoAnd | amoOr | amoXor | amoMinS | amoMaxS | amoMinN | amoMaxN | amoSwap | amoCas =>
    cases h
    rw [exec]
    exact amo_guarded s _ _ _ _ _ _ _ _
  case efenceCopy | efenceColl | efenceSolve | efenceInfuse =>
    cases h
    rw [exec]
    exact efence_guarded s _ _ _
  case mstep | mngo | mzero | mrel | mwrite | msca =>
    cases h
    rw [exec]
    exact matrixWord_guarded s _ _ _ _ _
  case mread | mcvt =>
    cases h
    rw [exec]
    exact readRows_guarded s _ _
  case mproNone | mproInt4 | mproCb3 | mproCb4 | mproBmap =>
    cases h
    rw [exec]
    exact proWord_guarded s _ _ _ _ _ _
  case cpyKh | cpyKr | cpysg | cpymcKh | cpymcKr | scatNative | scatStrain | gath | xfmTr | xfmCvt | xfmBdb | xfmPsum =>
    cases h
    rw [exec]
    exact plainCopy_guarded s _
  case collAllred | collRedsc | collGath =>
    cases h
    rw [exec]
    exact collWord_guarded s _
  case jsub | sqgo =>
    cases h
    rw [exec]
    exact copyWord_guarded s _ _ _ _
  case dqpushKh | dqpushKr =>
    cases h
    rw [exec]
    exact pushWord_guarded s _ _
  case dqpopKh | dqpopKr =>
    cases h
    rw [exec]
    exact popWord_guarded s _ _
  case kDrain =>
    cases h
    rw [exec]
    exact waitedState_guarded s _ _ _ _
  case fadd | fsub | fmul | ffma | fmin | fmax | fabs | fneg =>
    cases h
    rw [exec]
    exact fpuWord_guarded s _ _ _ _
  case mnset | mnstop | kTokw =>
    cases h
    rw [exec]
    exact onCrew_waited_guarded s _ _ _ _
  case mBrf | kBrf =>
    cases h
    rw [exec]
    exact onCrew_branch_guarded s _ _ _ _ _ _ _ _
  case mRdv | mHalt | kRdv | kHalt =>
    cases h
    rw [exec]
    exact onCrew_finish_guarded s _ _ _ _
  case sel | cmp | cmpi | jal | jalr | fcvt | brf | lpset | lpbrk | srd | swr | trap | eret | yield | halt | tokw | forkImm | forkReg | rdv
      | tnext =>
    cases h
    rw [exec]
    exact onCrew_scalar_guarded s _ _ _ _
  case gtake d a =>
    cases h
    rw [exec, execGtake]
    by_cases shared : isShared a = true
    · simp only [shared, if_true]
      exact onCrew_scalar_guarded s _ _ _ _
    · simp only [shared, Bool.false_eq_true, if_false]
      exact ⟨_, onCrew_guarded s .s _ _⟩
  case add | sub | mul | mulhS | mulhN | and | or | xor | andn | sll | srl | sra | rol | ror | minS | minN | maxS | maxN | clz | ctz | popc
      | bilv2 | bilv3 | adds | addi | andi | ori | xori | slli | srli | srai | rori | lil | lih | bfxS | bfxN | bfi =>
    cases h
    rw [exec]
    exact onCrew_scalarTo_guarded s _ _ _ _
  all_goals cases h
  all_goals exact absurd rfl notV

theorem pendDue_of_none {c : Crew} {st : Strm} (h : (c.strm st).pend = none) : c.pendDue st = false := by simp [Crew.pendDue, h]

/-- Settles O23: the checks that every word passes, and the two meanings of what is no word. -/
theorem encodingTraps : Obligations.EncodingTraps := by
  refine ⟨fun s i st d hs notV may empty broken => ?_, fun s st w may empty => ⟨fun d broken => ?_, fun off => ?_⟩⟩
  · obtain ⟨go, h⟩ := exec_guarded hs notV s
    rw [h]
    simp only [guardedState, may, pendDue_of_none empty, broken]
    rfl
  · rw [exec, execUnassignedOpcode, onCrew]
    simp only [may, pendDue_of_none empty, broken]
    rfl
  · rw [exec, execOffGridFetch, onCrew]
    simp only [may, pendDue_of_none empty, off]
    rfl

end Sys2Proof.Machine

/-!
PROOFS. Scalar memory words, fences and barriers at issue (R96, R106-R109, R119-R122): what a ready word does, case by case.
-/

namespace Sys2Proof.Machine

/-! ## The parts of an issue -/

/-- An access to another package is noted at the die, and nothing else changes (R411). -/
theorem State.sendOut_keeps (s : State) (die id uid asid pa va : Nat) (store : Bool) :
    let t := s.sendOut die id uid asid pa va store
    t.crew = s.crew ∧ t.mem = s.mem ∧ t.spad = s.spad ∧ t.caddy = s.caddy ∧ t.writes = s.writes ∧ t.rest = s.rest := by
  unfold State.sendOut
  split <;> exact ⟨rfl, rfl, rfl, rfl, rfl, rfl⟩

/-! ## LD and ST -/

/-- The address of a scalar access with an offset (R106). -/
def Crew.vaOf (c : Crew) (a : GReg) (n : Nat) (off : BitVec 4) : Nat := (c.rdG a + BitVec.ofNat 64 (off.toNat * n)).toNat

/-- LD leaves its result in flight, translated or not (R106, R107). -/
def State.ldIssue (s : State) (d : GReg) (oc : BitVec 4) (sc : BitVec 3) (sx : BitVec 1) (va n : Nat) (tr : Option (Nat × Att)) : State :=
  let r : SRes := { id := s.nextId, d := d, kind := .load (scalarElem va n tr) (sx == 1) oc.toNat sc.toNat }
  let s2 : State := { s.fresh.2 with crew := ({ s.crew with sres := s.crew.sres ++ [r] } : Crew).advance }
  match tr with
  | some x => s2.sendOut s.crew.place.die s.nextId s.crew.uid s.crew.bindRec.asid x.1 va false
  | none => s2

theorem exec_ld_ready {s : State} {d a : GReg} {oc : BitVec 4} {sc : BitVec 3} {size : BitVec 2} {sx : BitVec 1} {off : BitVec 4}
    (h : s.crew.readyScalar (.ld d a oc sc size sx off) [a] d = true) :
    exec (.ld d a oc sc size sx off) s =
      if s.crew.vaOf a (2 ^ size.toNat) off % 2 ^ size.toNat != 0 then
        .next (s.trapW .s 4 0 (BitVec.ofNat 64 (s.crew.vaOf a (2 ^ size.toNat) off)))
      else if s.logged s.crew.agent s.crew.uid .s oc.toNat then .next (s.blockS .s .sideLog)
      else match s.translate s.crew.agent s.crew.bindRec.asid (s.crew.vaOf a (2 ^ size.toNat) off) 1 with
        | .now r => .next (s.trapW .s 3 (8 + r) (BitVec.ofNat 64 (s.crew.vaOf a (2 ^ size.toNat) off)))
        | .ok pa att => .next (s.ldIssue d oc sc sx (s.crew.vaOf a (2 ^ size.toNat) off) (2 ^ size.toNat) (some (pa, att)))
        | _ => .next (s.ldIssue d oc sc sx (s.crew.vaOf a (2 ^ size.toNat) off) (2 ^ size.toNat) none) := by
  rw [exec, execLd, scalarState_ready h]
  rfl

/-- Settles O24: LD by its address and its page. -/
theorem scalarLoad : Obligations.ScalarLoad := by
  intro s d a oc sc size sx off
  dsimp only
  intro h
  rw [exec_ld_ready h]
  refine ⟨fun odd => if_pos (bne_iff_ne.mpr odd), fun even clear => ?_⟩
  rw [if_neg (show ¬(s.crew.vaOf a (2 ^ size.toNat) off % 2 ^ size.toNat != 0) = true by simpa [Crew.vaOf] using even),
    if_neg (by simp [clear])]
  refine ⟨fun pa att mapped => ?_, fun out => ?_, fun r fatal => ?_⟩
  · rw [show s.translate s.crew.agent s.crew.bindRec.asid (s.crew.vaOf a _ off) 1 = _ from mapped]
    obtain ⟨crew, mem, spad, caddy, writes, rest⟩ := State.sendOut_keeps _
      s.crew.place.die s.nextId s.crew.uid s.crew.bindRec.asid pa (s.crew.vaOf a (2 ^ size.toNat) off) false
    exact ⟨_, rfl, crew, mem, spad, caddy, writes, rest⟩
  · rcases out with miss | ⟨r, denied⟩
    · rw [show s.translate s.crew.agent s.crew.bindRec.asid (s.crew.vaOf a _ off) 1 = _ from miss]
      exact ⟨_, rfl, rfl, rfl, rfl, rfl⟩
    · rw [show s.translate s.crew.agent s.crew.bindRec.asid (s.crew.vaOf a _ off) 1 = _ from denied]
      exact ⟨_, rfl, rfl, rfl, rfl, rfl⟩
  · rw [show s.translate s.crew.agent s.crew.bindRec.asid (s.crew.vaOf a _ off) 1 = _ from fatal]
    rfl

/-- ST hands its write to the core's buffer (R108). -/
def State.stIssue (s : State) (d : GReg) (oc : BitVec 4) (sc : BitVec 3) (va n pa : Nat) (att : Att) : State :=
  ({ s.fresh.2.buffer (s.mkWrite .s s.nextId s.nextId 0 oc.toNat sc.toNat va pa (leBytes n ((s.crew.rdG d).toNat % 2 ^ (8 * n))) none
      .store att) with crew := s.crew.advance } : State).sendOut s.crew.place.die s.nextId s.crew.uid s.crew.bindRec.asid pa va true

section
variable {s : State} {d a : GReg} {oc : BitVec 4} {sc : BitVec 3} {size : BitVec 2} {off : BitVec 4}
  (h : s.crew.readyScalar (.st d a oc sc size off) [a, d] 0 = true)
include h

theorem exec_st_misaligned (odd : s.crew.vaOf a (2 ^ size.toNat) off % 2 ^ size.toNat ≠ 0) :
    exec (.st d a oc sc size off) s = .next (s.trapW .s 4 0 (BitVec.ofNat 64 (s.crew.vaOf a (2 ^ size.toNat) off))) := by
  rw [exec, execSt, scalarState_ready h]
  exact if_pos (bne_iff_ne.mpr odd)

theorem exec_st_issues {pa : Nat} {att : Att} (even : s.crew.vaOf a (2 ^ size.toNat) off % 2 ^ size.toNat = 0)
    (clear : s.logged s.crew.agent s.crew.uid .s oc.toNat = false)
    (mapped : s.translate s.crew.agent s.crew.bindRec.asid (s.crew.vaOf a (2 ^ size.toNat) off) 2 = .ok pa att) :
    exec (.st d a oc sc size off) s = .next (s.stIssue d oc sc (s.crew.vaOf a (2 ^ size.toNat) off) (2 ^ size.toNat) pa att) := by
  rw [exec, execSt, scalarState_ready h]
  refine (if_neg (show ¬(s.crew.vaOf a (2 ^ size.toNat) off % 2 ^ size.toNat != 0) = true by simp [even])).trans ?_
  dsimp only
  rw [show s.translate s.crew.agent s.crew.bindRec.asid (s.crew.rdG a + BitVec.ofNat 64 (off.toNat * scalarBytes size.toNat)).toNat 2 = _
    from mapped]
  dsimp only
  rw [if_neg (by simp [clear])]
  rfl

end

/-- Settles O25: ST by its address and its page. -/
theorem scalarStore : Obligations.ScalarStore := by
  intro s d a oc sc size off
  dsimp only
  intro h
  refine ⟨fun odd => exec_st_misaligned h odd, fun pa att even clear mapped => ⟨_, exec_st_issues h even clear mapped, ?_⟩⟩
  obtain ⟨crew, mem, spad, caddy, writes, rest⟩ := State.sendOut_keeps _
    s.crew.place.die s.nextId s.crew.uid s.crew.bindRec.asid pa (s.crew.vaOf a (2 ^ size.toNat) off) true
  exact ⟨crew, writes, mem, spad, caddy, rest⟩

/-! ## Atomics -/

/-- The ten atomics with their operation and the sign extension of the old value (R68, R109). -/
def atomicRows (d a : GReg) (oc : BitVec 4) (sc : BitVec 3) (z : BitVec 1) : List (Instr × Nat × Bool) :=
  [(.amoAdd d a oc sc z, 0, false), (.amoAnd d a oc sc z, 1, false), (.amoOr d a oc sc z, 2, false),
    (.amoXor d a oc sc z, 3, false), (.amoMinS d a oc sc z, 4, true), (.amoMaxS d a oc sc z, 5, true),
    (.amoMinN d a oc sc z, 6, false), (.amoMaxN d a oc sc z, 7, false), (.amoSwap d a oc sc z, 8, false),
    (.amoCas d a oc sc z, 9, false)]

theorem exec_atomicRow {s : State} {d a : GReg} {oc : BitVec 4} {sc : BitVec 3} {z : BitVec 1} {x : Instr × Nat × Bool}
    (h : x ∈ atomicRows d a oc sc z) : exec x.1 s = s.amo x.1 x.2.1 x.2.2 d a oc sc z := by
  simp only [atomicRows, List.mem_cons, List.not_mem_nil, or_false] at h
  rcases h with rfl | rfl | rfl | rfl | rfl | rfl | rfl | rfl | rfl | rfl <;> rfl

/-- The result in flight of an atomic of the scalar stream. -/
def State.amoFlight (s : State) (aop : Nat) (sx : Bool) (d a : GReg) (oc : BitVec 4) (sc : BitVec 3) (z : BitVec 1) (tr : Option (Nat × Att)) :
    SRes :=
  let n := 4 * 2 ^ z.toNat
  { id := s.nextId, d := d
    kind := .atomic (scalarElem (s.crew.rdG a).toNat n tr) sx oc.toNat sc.toNat aop 3 ((s.crew.rdG d).toNat % 2 ^ (8 * n))
      ((s.crew.rdG (pairReg d)).toNat % 2 ^ (8 * n)) none }

section
variable {s : State} {i : Instr} {aop : Nat} {sx : Bool} {d a : GReg} {oc : BitVec 4} {sc : BitVec 3} {z : BitVec 1}
  (h : s.crew.readyScalar i (if aop = 9 then [a, d, pairReg d] else [a, d]) d = true)
include h

theorem amo_misaligned (odd : (s.crew.rdG a).toNat % (4 * 2 ^ z.toNat) ≠ 0) :
    s.amo i aop sx d a oc sc z =
      .next { s with crew := s.crew.raise .s (causeCode 4 0) (BitVec.ofNat 64 (s.crew.rdG a).toNat) s.crew.s.pc } := by
  simp only [State.amo, beq_iff_eq, scalarState_ready h]
  rw [if_pos (bne_iff_ne.mpr odd)]
  rfl

theorem amo_issues {pa : Nat} {att : Att} (even : (s.crew.rdG a).toNat % (4 * 2 ^ z.toNat) = 0)
    (clear : s.logged s.crew.agent s.crew.uid .s oc.toNat = false) (alone : s.crew.classPending oc.toNat = false)
    (mapped : s.translate s.crew.agent s.crew.bindRec.asid (s.crew.rdG a).toNat 3 = .ok pa att) :
    s.amo i aop sx d a oc sc z = .next
      (({ s.fresh.2.buffer (s.mkWrite .s s.nextId s.nextId 0 oc.toNat sc.toNat (s.crew.rdG a).toNat pa (leBytes (4 * 2 ^ z.toNat) 0) none
            (.atomic aop 3 ((s.crew.rdG d).toNat % 2 ^ (8 * (4 * 2 ^ z.toNat)))
              ((s.crew.rdG (pairReg d)).toNat % 2 ^ (8 * (4 * 2 ^ z.toNat)))) att) with
          crew := ({ s.crew with sres := s.crew.sres ++ [s.amoFlight aop sx d a oc sc z (some (pa, att))] } : Crew).advance } : State).sendOut
        s.crew.place.die s.nextId s.crew.uid s.crew.bindRec.asid pa (s.crew.rdG a).toNat false) := by
  simp only [State.amo, beq_iff_eq, scalarState_ready h]
  rw [if_neg (by simp [even]), if_neg (by simp [clear]), mapped]
  dsimp only
  rw [if_neg (by simp [alone])]
  rfl

end

theorem sVal_eq_toInt (w m : Nat) (h : 0 < w) (lt : m < 2 ^ w) : sVal w m = (BitVec.ofNat w m).toInt := by
  have half : 2 ^ w = 2 * 2 ^ (w - 1) := by rw [← Nat.pow_succ', Nat.succ_eq_add_one, Nat.sub_add_cancel h]
  simp only [sVal, BitVec.toInt, BitVec.toNat_ofNat, Nat.mod_eq_of_lt lt]
  split <;> split <;> push_cast <;> omega

/-- What an atomic on integers computes (R109). -/
theorem atomicNew_integer (w m x y : Nat) (h : 0 < w) (hm : m < 2 ^ w) (hx : x < 2 ^ w) :
    (∃ v, (atomicNew 4 3 w m x y).1 = some v ∧ (v = m ∨ v = x) ∧
      (BitVec.ofNat w v).toInt = min (BitVec.ofNat w m).toInt (BitVec.ofNat w x).toInt) ∧
    (∃ v, (atomicNew 5 3 w m x y).1 = some v ∧ (v = m ∨ v = x) ∧
      (BitVec.ofNat w v).toInt = max (BitVec.ofNat w m).toInt (BitVec.ofNat w x).toInt) := by
  have least : atomicNew 4 3 w m x y = (some (if sVal w m ≤ sVal w x then m else x), 0) := rfl
  have most : atomicNew 5 3 w m x y = (some (if sVal w m ≤ sVal w x then x else m), 0) := rfl
  rw [least, most, sVal_eq_toInt w m h hm, sVal_eq_toInt w x h hx]
  refine ⟨⟨_, rfl, ?_, ?_⟩, ⟨_, rfl, ?_, ?_⟩⟩ <;> split <;> rename_i le <;> simp <;> omega

/-- Settles O26: the rows through the one meaning that they share, and what each operation computes. -/
theorem scalarAtomics : Obligations.ScalarAtomics := by
  refine ⟨fun s d a oc sc z x row => ?_, fun w m x y pos hm hx hy => ?_⟩
  · rw [exec_atomicRow row]
    intro n va v h
    refine ⟨amo_misaligned h, fun pa att even clear alone mapped => ⟨_, amo_issues h even clear alone mapped, ?_⟩⟩
    obtain ⟨crew, mem, spad, caddy, writes, -⟩ := State.sendOut_keeps _ s.crew.place.die s.nextId s.crew.uid s.crew.bindRec.asid pa va false
    exact ⟨crew, writes, mem, spad, caddy⟩
  · obtain ⟨least, most⟩ := atomicNew_integer w m x y pos hm hx
    refine ⟨rfl, rfl, rfl, rfl, least, most, rfl, rfl, rfl, rfl, fun aop => ?_⟩
    unfold atomicNew
    split <;> rfl

/-! ## Fences and barriers -/

/-- What a fence waits for, or that it is done. -/
theorem exec_fence_ready {s : State} {sc : BitVec 4} {cm : BitVec 16} (h : s.crew.readyScalar (.fence sc cm) [] 0 = true) :
    exec (.fence sc cm) s =
      if s.writesPending cm sc.toNat s.markS || s.readsPending cm sc.toNat s.markS then .next (s.blockS .s .fence)
      else .next (s.fenceDone true sc.toNat) := by
  rw [exec, execFence, scalarState_ready h]

theorem efence_ready {s : State} {i : Instr} {sc : BitVec 4} {cm : BitVec 16} (h : s.crew.readyScalar i [] 0 = true) :
    s.efence i sc cm =
      if s.writesPending cm sc.toNat s.markS then .next (s.blockS .s .fence) else .next (s.fenceDone false sc.toNat) := by
  rw [State.efence, scalarState_ready h]

theorem exec_bar_ready {s : State} {sc : BitVec 4} {cm : BitVec 16} (h : s.crew.readyScalar (.bar sc cm) [] 0 = true) :
    exec (.bar sc cm) s = (match s.crew.barAt with
      | some (_, k, target) => .next (s.barStep k target)
      | none =>
        if s.crew.kern.bar < sc.toNat then .next (s.trapW .s 5 5 0)
        else if s.writesPending cm sc.toNat s.markS || s.readsPending cm sc.toNat s.markS then .next (s.blockS .s .fence)
        else .next ((s.arriveAt sc.toNat).2.barStep sc.toNat (s.arriveAt sc.toNat).1)) := by
  rw [exec, execBar, scalarState_ready h] <;> rfl

/-- Settles O27: FENCE and EFENCE by what they wait for, BAR by its arrival. -/
theorem fencesAndBarriers : Obligations.FencesAndBarriers := by
  intro s sc cm w r n
  refine ⟨fun h => ⟨fun noWrite noRead => ?_, fun pending => ?_⟩, fun i row h => ?_, fun h => ⟨fun fresh => ?_, fun p k target there => ?_⟩⟩
  · rw [exec_fence_ready h, if_neg (by simp [show s.writesPending cm sc.toNat s.markS = _ from noWrite, show s.readsPending _ _ _ = _ from noRead])]
  · rw [exec_fence_ready h, if_pos (Bool.or_eq_true_iff.mpr pending)]
  · have ran : exec i s = s.efence i sc cm := by
      simp only [List.mem_cons, List.not_mem_nil, or_false] at row
      rcases row with rfl | rfl | rfl | rfl <;> rfl
    rw [ran, efence_ready h]
    exact ⟨fun noWrite => if_neg (by simp [show s.writesPending cm sc.toNat s.markS = _ from noWrite]), fun pending => if_pos pending⟩
  · rw [exec_bar_ready h, show s.crew.barAt = _ from fresh]
    refine ⟨fun beyond => if_pos beyond, fun within pending => ?_, fun within noWrite noRead => ⟨fun all => ?_, fun missing => ?_⟩⟩
    · exact (if_neg (Nat.not_lt.mpr within)).trans (if_pos (Bool.or_eq_true_iff.mpr pending))
    all_goals
      have none_ : ¬(s.writesPending cm sc.toNat s.markS || s.readsPending cm sc.toNat s.markS) = true := by
        simp [show s.writesPending cm sc.toNat s.markS = _ from noWrite, show s.readsPending cm sc.toNat s.markS = _ from noRead]
      refine ((if_neg (Nat.not_lt.mpr within)).trans (if_neg none_)).trans (congrArg Host.Outcome.next ?_)
    · exact if_pos all
    · exact if_neg (by rw [missing]; exact Bool.false_ne_true)
  · rw [exec_bar_ready h, there]
    exact ⟨fun all => congrArg Host.Outcome.next (if_pos all),
      fun missing => congrArg Host.Outcome.next (if_neg (by rw [missing]; exact Bool.false_ne_true))⟩

end Sys2Proof.Machine

/-!
PROOFS. What the directory and the caches leave (R284-R294, R299): they touch the lines, the entries, the grants, the messages, the counters
of the home slices and the copies of other packages' regions, and nothing else of the machine.
-/

namespace Sys2Proof.Machine

/-! ## The relation -/

/-- Only a die's counters and its copies of other packages' regions differ. -/
def Die.sameRegs (d e : Die) : Prop :=
  e = { d with subInv := e.subInv, subUpd := e.subUpd, subSupp := e.subSupp, subOvf := e.subOvf, proxies := e.proxies, hot := e.hot }

theorem Die.sameRegs.refl (d : Die) : d.sameRegs d := rfl

theorem Die.sameRegs.trans {d e f : Die} (h : d.sameRegs e) (k : e.sameRegs f) : d.sameRegs f := by
  unfold Die.sameRegs at *
  rw [k, h]

/-- Only caches, directory and messages differ, with what the dies count and copy. -/
def State.cachesOnly (s t : State) : Prop :=
  t = { s with dies := t.dies, lines := t.lines, dir := t.dir, cores := t.cores, msgs := t.msgs, free := t.free, nextId := t.nextId } ∧
  ∀ k, (s.die k).sameRegs (t.die k)

theorem State.cachesOnly.refl (s : State) : s.cachesOnly s := ⟨rfl, fun k => .refl (s.die k)⟩

theorem State.cachesOnly.trans {s t u : State} (h : s.cachesOnly t) (k : t.cachesOnly u) : s.cachesOnly u :=
  ⟨by rw [k.1, h.1], fun n => (h.2 n).trans (k.2 n)⟩

theorem State.cachesOnly.fields {s t : State} (h : s.cachesOnly t) :
    t.crew = s.crew ∧ t.rest = s.rest ∧ t.mem = s.mem ∧ t.spad = s.spad ∧ t.caddy = s.caddy ∧ t.writes = s.writes := by
  rw [h.1]
  exact ⟨rfl, rfl, rfl, rfl, rfl, rfl⟩

theorem State.cachesOnly.mem {s t : State} (h : s.cachesOnly t) : t.mem = s.mem := h.fields.2.2.1

/-- The bitmap of written frames stands where it stood. -/
theorem State.cachesOnly.recordByte {s t : State} (h : s.cachesOnly t) (pa : Nat) : recordByte t pa = recordByte s pa := by
  unfold Machine.recordByte
  rw [h.2 (homeDie pa)]

theorem State.foldl_cachesOnly {β : Type} (f : State → β → State) (hf : ∀ (s : State) (b : β), s.cachesOnly (f s b)) (l : List β) (s : State) :
    s.cachesOnly (l.foldl f s) :=
  foldl_keeps (fun t => s.cachesOnly t) f (fun t b h => h.trans (hf t b)) l s (State.cachesOnly.refl s)

/-- A die whose counters or copies change. -/
theorem State.setDie_cachesOnly (s : State) {k : Nat} {d : Die} (h : (s.die k).sameRegs d) : s.cachesOnly (s.setDie k d) := by
  refine ⟨rfl, fun n => ?_⟩
  rw [s.die_setDie]
  split
  · rename_i same
    rw [← same]
    exact h
  · exact .refl _

/-! ## The directory -/

section
variable (s : State)

theorem State.setDir_cachesOnly (b : Nat) (e : DirEntry) : s.cachesOnly (s.setDir b e) := ⟨rfl, fun k => .refl (s.die k)⟩

theorem State.tally_cachesOnly (pa inv upd supp ovf : Nat) : s.cachesOnly (s.tally pa inv upd supp ovf) := s.setDie_cachesOnly rfl

theorem State.dropLine_cachesOnly (a pa : Nat) : s.cachesOnly (s.dropLine a pa) := ⟨rfl, fun k => .refl (s.die k)⟩

theorem State.mapLine_cachesOnly (a pa : Nat) (f : Line → Line) : s.cachesOnly (s.mapLine a pa f) := ⟨rfl, fun k => .refl (s.die k)⟩

theorem State.demote_cachesOnly (b : Nat) (o : Option Nat) : s.cachesOnly (s.demote b o) := ⟨rfl, fun k => .refl (s.die k)⟩

theorem State.useFree_cachesOnly (n : Nat) : s.cachesOnly (s.useFree n) := ⟨rfl, fun k => .refl (s.die k)⟩

theorem State.hold_cachesOnly (b : Nat) (e : DirEntry) (a f : Nat) : s.cachesOnly (s.hold b e a f) := by
  unfold State.hold
  split
  · exact s.setDir_cachesOnly b _
  · dsimp only
    split
    · exact s.setDir_cachesOnly b _
    · exact (s.setDir_cachesOnly b _).trans (State.tally_cachesOnly _ _ _ _ _ _)

theorem State.settle_cachesOnly (b : Nat) (e : DirEntry) : s.cachesOnly (s.settle b e) := by
  unfold State.settle
  split <;> exact s.setDir_cachesOnly b _

theorem State.receive_cachesOnly (m : Msg) : s.cachesOnly (s.receive m) := by
  unfold State.receive
  dsimp only
  split
  · exact s.dropLine_cachesOnly _ _
  · exact s.mapLine_cachesOnly _ _ _

theorem State.endGrant_cachesOnly (a b : Nat) : s.cachesOnly (s.endGrant a b) := by
  unfold State.endGrant
  dsimp only
  split
  · exact ⟨rfl, fun k => .refl (s.die k)⟩
  · exact .refl s

theorem State.proxyFill_cachesOnly (d pa : Nat) : s.cachesOnly (s.proxyFill d pa) := by
  unfold State.proxyFill
  dsimp only
  split
  · exact .refl s
  · exact State.cachesOnly.trans (by exact s.setDie_cachesOnly rfl) (State.useFree_cachesOnly _ 1)

theorem State.proxySync_cachesOnly (d pa : Nat) : s.cachesOnly (s.proxySync d pa) := by
  unfold State.proxySync
  split
  · exact .refl s
  · exact State.cachesOnly.trans (by exact s.setDie_cachesOnly rfl) (State.useFree_cachesOnly _ 1)

theorem State.heat_cachesOnly (pa n : Nat) : s.cachesOnly (s.heat pa n) := by
  unfold State.heat
  split
  · exact s.setDie_cachesOnly rfl
  · exact .refl s

/-! ## The lines -/

theorem State.release_cachesOnly (l : Line) : s.cachesOnly (s.release l) := by
  unfold State.release
  dsimp only
  split
  · exact s.dropLine_cachesOnly _ _
  · exact ((s.dropLine_cachesOnly _ _).trans (State.settle_cachesOnly _ _ _)).trans (State.proxySync_cachesOnly _ _ _)

theorem State.evictOne_cachesOnly (a n : Nat) : s.cachesOnly (s.evictOne a n) := by
  unfold State.evictOne
  dsimp only
  split
  · exact .refl s
  · split
    · exact .refl s
    · split
      · exact (s.useFree_cachesOnly 1).trans (State.release_cachesOnly _ _)
      · exact .refl s

theorem State.putLine_cachesOnly (l : Line) : s.cachesOnly (s.putLine l) :=
  ((s.dropLine_cachesOnly l.agent l.pa).trans (State.foldl_cachesOnly _ (fun t _ => t.evictOne_cachesOnly _ _) _ _)).trans
    ⟨rfl, fun k => .refl (State.die _ k)⟩

theorem State.share_cachesOnly (b : Nat) (e : DirEntry) : s.cachesOnly (s.share b e).1 := by
  unfold State.share
  split
  · exact .refl s
  · dsimp only
    split
    · exact s.mapLine_cachesOnly _ _ _
    · exact (s.mapLine_cachesOnly _ _ _).trans (State.hold_cachesOnly _ _ _ _ _)

theorem State.fillExact_cachesOnly (a pa : Nat) (att : Att) : s.cachesOnly (s.fillExact a pa att) := by
  unfold State.fillExact
  dsimp only
  split
  · exact .refl s
  · have shared := (s.proxyFill_cachesOnly (agentDie a) pa).trans (State.share_cachesOnly _ (s.dirFind (grainKey (agentDie a) pa) att.grain).1
      (s.dirFind (grainKey (agentDie a) pa) att.grain).2)
    refine (((State.cachesOnly.trans ?_ (State.proxySync_cachesOnly _ _ _)).trans (State.putLine_cachesOnly _ _)).trans
      (State.endGrant_cachesOnly _ _ _)).trans (State.heat_cachesOnly _ _ _)
    split
    · exact shared.trans (State.setDir_cachesOnly _ _ _)
    · exact shared.trans (State.hold_cachesOnly _ _ _ _ _)

theorem State.takeOwnership_cachesOnly (a pa g : Nat) : s.cachesOnly (s.takeOwnership a pa g) := by
  unfold State.takeOwnership
  dsimp only
  exact (((s.setDir_cachesOnly _ _).trans (State.demote_cachesOnly _ _ _)).trans (State.putLine_cachesOnly _ _)).trans
    (State.endGrant_cachesOnly _ _ _)

theorem State.dropLease_cachesOnly (k pa : Nat) : s.cachesOnly (s.dropLease k pa) := by
  unfold State.dropLease
  split
  · split
    · exact s.dropLine_cachesOnly _ _
    · exact .refl s
  · exact .refl s

/-! ## Engines -/

theorem State.engineGrain_cachesOnly (pa : Nat) (bs : List Byte) (x : Nat × DirEntry) : s.cachesOnly (s.engineGrain pa bs x) := by
  unfold State.engineGrain
  exact (((s.setDir_cachesOnly _ _).trans (State.tally_cachesOnly _ _ _ _ _ _)).trans (State.demote_cachesOnly _ _ _)).trans
    (State.foldl_cachesOnly _ State.receive_cachesOnly _ _)

theorem State.holdBusy_cachesOnly (id pa n : Nat) : s.cachesOnly (s.holdBusy id pa n) := by
  unfold State.holdBusy
  exact (State.foldl_cachesOnly _ (fun t _ => t.setDir_cachesOnly _ _) _ s).trans
    (State.foldl_cachesOnly _ (fun t _ => t.setDir_cachesOnly _ _) _ _)

theorem State.tellFar_cachesOnly (pa : Nat) (bs : List Byte) : s.cachesOnly (s.tellFar pa bs) := by
  unfold State.tellFar
  have told := State.foldl_cachesOnly (fun (s : State) (x : Nat × Verdict) => s.tally x.1 x.2.inv x.2.upd x.2.supp 0)
    (fun t x => t.tally_cachesOnly _ _ _ _ _) (s.tellRegions s.nextId pa bs) s
  dsimp only
  split
  · exact told
  · exact (told.trans ⟨rfl, fun k => .refl (State.die _ k)⟩).trans (State.holdBusy_cachesOnly _ _ _ _)

end

/-! ## Memory behind a record and an engine's write -/

@[simp] theorem length_leBytes (n x : Nat) : (leBytes n x).length = n := by
  induction n generalizing x with
  | zero => rfl
  | succ n ih => rw [leBytes, List.length_cons, ih]

/-- A frame noted as written changes its byte of the bitmap at most (R341). -/
theorem State.byte_recordWrite (s : State) (pa : Nat) {x : Nat} (h : x ≠ recordByte s pa) : (s.recordWrite pa).mem.byte x = s.mem.byte x := by
  unfold State.recordWrite
  split
  · dsimp only
    rw [Memory.byte_write, if_neg (by simp; omega)]
  · rfl

theorem State.recordWrite_recordByte (s : State) (pa q : Nat) : recordByte (s.recordWrite pa) q = recordByte s q := by
  unfold State.recordWrite
  split <;> rfl

/-- Frames noted as written change their bytes of the bitmap at most. -/
theorem State.byte_foldl_recordWrite (s : State) (fs : List Nat) {x : Nat} (h : ∀ f ∈ fs, x ≠ recordByte s f) :
    (fs.foldl (fun s f => s.recordWrite f) s).mem.byte x = s.mem.byte x := by
  induction fs generalizing s with
  | nil => rfl
  | cons f fs ih =>
    rw [List.foldl_cons, ih _ (fun g hg => by rw [s.recordWrite_recordByte]; exact h g (List.mem_cons_of_mem f hg)),
      s.byte_recordWrite f (h f List.mem_cons_self)]

/-- An engine's write leaves every byte outside its range, but for the bitmap's (R341, R433). -/
theorem State.byte_engineWrite (s : State) (pa : Nat) (bs : List Byte) {x : Nat} (out : x < pa ∨ pa + bs.length ≤ x)
    (apart : ∀ f ∈ framesOf pa bs.length, x ≠ recordByte s f) : (s.engineWrite pa bs).mem.byte x = s.mem.byte x := by
  unfold State.engineWrite
  split
  · rfl
  · have told := (State.foldl_cachesOnly (fun t x => t.engineGrain pa bs x) (fun t x => t.engineGrain_cachesOnly pa bs x)
      (s.dirIn pa bs.length) s).trans (State.tellFar_cachesOnly _ pa bs)
    rw [(State.heat_cachesOnly _ _ _).mem, Memory.byte_write, if_neg (by omega),
      State.byte_foldl_recordWrite _ _ (fun f hf => by rw [told.recordByte]; exact apart f hf), told.mem]

end Sys2Proof.Machine

/-!
PROOFS. Frames of the fences and of the task words, register blocks, and a task queue whose ring stands where an engine's write stores
nothing (R121, R124, R125, R127, R128, R407).
-/

namespace Sys2Proof.Machine

/-! ## What a word can do besides its meaning -/

/-- The checks before a word move its crew alone: what holds behind such a move and behind the word's meaning holds. -/
theorem guardedState_elim {P : State → Prop} {s t : State} {st : Strm} {i : Instr} {go : State → Out} (h : guardedState s st i go = .next t)
    (crew : ∀ c, P { s with crew := c }) (done : go s = .next t → P t) : P t := by
  unfold guardedState at h
  split at h
  · cases h
    exact crew s.crew
  · split at h
    · cases h
      exact crew _
    · split at h
      · cases h
        exact crew _
      · exact done h

theorem scalarState_elim {P : State → Prop} {s t : State} {i : Instr} {srcs : List GReg} {d : GReg} {go : State → Out}
    (h : scalarState s i srcs d go = .next t) (crew : ∀ c, P { s with crew := c }) (done : go s = .next t → P t) : P t := by
  refine guardedState_elim h crew fun h => ?_
  split at h
  · cases h
    exact crew _
  · split at h
    · cases h
      exact crew _
    · exact done h

/-! ## Fences and task words -/

theorem State.dropLeases_lines {s : State} {core : Nat} {l : Line} (h : l ∈ (s.dropLeases core).lines) {n : Nat} (lease : l.state = .lease n) :
    l.agent ≠ core := by
  have kept := (List.mem_filter.mp h).2
  rw [lease] at kept
  simpa using kept

theorem fenceDone_frame (s : State) (leases : Bool) (sc : Nat) :
    let t := s.fenceDone leases sc
    t.mem = s.mem ∧ t.spad = s.spad ∧ t.caddy = s.caddy ∧ t.writes = s.writes ∧ t.rest = s.rest ∧ t.cores = s.cores ∧
    t.crew = { s.crew.advance with seen := t.crew.seen } ∧
    (leases = true → 3 ≤ sc → ∀ l ∈ t.lines, ∀ k, l.state = .lease k → l.agent ≠ s.crew.agent) := by
  unfold State.fenceDone
  dsimp only
  by_cases drops : (leases && decide (3 ≤ sc)) = true
  · rw [if_pos drops]
    exact ⟨rfl, rfl, rfl, rfl, rfl, rfl, rfl, fun _ _ l hl k lease => State.dropLeases_lines hl lease⟩
  · rw [if_neg drops]
    refine ⟨rfl, rfl, rfl, rfl, rfl, rfl, rfl, fun isLease wide => absurd ?_ drops⟩
    simp [isLease, wide]

/-- A fence made changes its die's table and serial alone (R409). -/
theorem State.newFence_keeps {s s1 : State} {die asid launch n : Nat} (h : s.newFence die asid launch = some (n, s1)) :
    s1.mem = s.mem ∧ ∀ pa, recordByte s1 pa = recordByte s pa := by
  unfold State.newFence at h
  dsimp only at h
  split at h
  · cases h
  · cases h
    refine ⟨rfl, fun pa => ?_⟩
    unfold recordByte
    rw [State.die_setDie]
    split <;> simp_all

theorem tqput_frame {s t : State} {d a : GReg} {q : BitVec 4} (h : exec (.tqput d a q) s = .next t) :
    let tq := SMap.get TaskQueue.reset (s.die s.crew.place.die).taskQueues q.toNat
    let slot := tq.base.toNat + 16 * tq.tail.toNat
    ∀ x, (x < slot ∨ slot + 16 ≤ x) → (∀ f ∈ framesOf slot 16, x ≠ recordByte s f) → t.mem.byte x = s.mem.byte x := by
  intro tq slot x out apart
  rw [exec, execTqput] at h
  refine scalarState_elim (P := fun t => t.mem.byte x = s.mem.byte x) h (fun c => rfl) fun h => ?_
  dsimp only at h
  split at h
  · cases h
    rfl
  · split at h
    · cases h
      rfl
    · split at h
      · cases h
        rfl
      · rename_i n s1 made
        obtain ⟨mem, rec⟩ := State.newFence_keeps made
        cases h
        have tail : ∀ q, recordByte (s1.setDie s.crew.place.die { s1.die s.crew.place.die with taskQueues := q }) = recordByte s := by
          intro q
          funext pa
          rw [← rec pa]
          unfold recordByte
          rw [State.die_setDie]
          split <;> simp_all
        have length : (leBytes 8 (s.crew.rdG a).toNat ++ leBytes 8 (fenceHandle s.crew.place.die n s.crew.bindRec.asid).toNat).length = 16 := by
          rw [List.length_append, length_leBytes, length_leBytes]
        refine (State.byte_engineWrite _ _ _ ?_ ?_).trans (congrArg (fun m : Memory => m.byte x) mem)
        · rw [length]
          exact out
        · rw [length]
          intro f hf
          rw [tail]
          exact apart f hf

/-- Settles O28: what a fence drops, and the outcomes of each task word. -/
theorem fenceAndTaskFrame : Obligations.FenceAndTaskFrame := by
  refine ⟨fenceDone_frame, fun s t d a q => ⟨fun h => ?_, fun h => ?_, tqput_frame⟩⟩
  · rw [exec, execTqwait] at h
    refine scalarState_elim h (fun c => rfl) fun h => ?_
    split at h
    · cases h
      rfl
    · split at h <;> cases h <;> rfl
  · rw [exec, execTqtest] at h
    refine scalarState_elim h (fun c => rfl) fun h => ?_
    split at h <;> cases h <;> rfl

/-! ## Register blocks -/

/-- The line of a core's crews that wait for blocks, with this crew in it (R36, R124). -/
def State.blockLine (s : State) (n : Nat) : List (Nat × Nat) :=
  let waits := fun (x : Nat) => match s.findCrew x with
    | some y => y.s.wait == .pool
    | none => false
  let live := (s.core s.crew.agent).poolWait.filter (fun x => waits x.1 && (x.1 != s.crew.uid || x.2 == n))
  if live.any (fun x => x.1 == s.crew.uid) then live else live ++ [(s.crew.uid, n)]

theorem State.askBlocks_eq (s : State) (n : Nat) :
    s.askBlocks n = s.setCore s.crew.agent { s.core s.crew.agent with poolWait := s.blockLine n } := rfl

/-- This crew stands in the line with what it asks for now. -/
theorem State.blockLine_mine {s : State} {n m : Nat} (h : (s.crew.uid, m) ∈ s.blockLine n) : m = n := by
  unfold State.blockLine at h
  dsimp only at h
  split at h
  · have both := (List.mem_filter.mp h).2
    simp at both
    exact both.2
  · rcases List.mem_append.mp h with h | h
    · have both := (List.mem_filter.mp h).2
      simp at both
      exact both.2
    · simpa using h

theorem State.blockLine_ne_nil (s : State) (n : Nat) : s.blockLine n ≠ [] := by
  unfold State.blockLine
  dsimp only
  split
  · rename_i some_
    intro empty
    rw [empty] at some_
    cases some_
  · simp

/-- The registers of granted blocks read as zero, and the others as before (R124, R239). -/
theorem Crew.lane_clearExt (c : Crew) {r j : Nat} (hj : j < 32) :
    c.clearExt.lane r j = if 128 ≤ r ∧ r < 640 then 0 else c.lane r j := by
  unfold Crew.lane Crew.clearExt
  rw [SMap.get_clear]
  by_cases h : 128 ≤ r ∧ r < 640
  · rw [if_pos h, if_pos (by omega)]
  · rw [if_neg h, if_neg (by omega)]

/-- Settles O29: REGACQ by its place in the line, REGREL by what it holds. -/
theorem registerBlocks : Obligations.RegisterBlocks := by
  intro s n k
  refine ⟨fun h => ⟨fun holds => ?_, fun bare => ?_⟩, fun h => ⟨fun bare => ?_, fun holds free => ?_⟩⟩
  · rw [exec, execRegacq, scalarState_ready h, if_pos (bne_iff_ne.mpr holds)]
    rfl
  · have ran : exec (.regacq n) s = (match s.blockLine n.toNat with
        | (u, m) :: rest =>
          if u == s.crew.uid && decide (m ≤ (s.core k).poolFree) then
            .next { (s.askBlocks n.toNat).setCore k
                { s.core k with poolFree := (s.core k).poolFree - m, poolWait := rest } with
              crew := ({ s.crew.clearExt with ext := m } : Crew).advance }
          else .next ((s.askBlocks n.toNat).blockS .s .pool)
        | [] => .next (s.askBlocks n.toNat)) := by
      rw [exec, execRegacq, scalarState_ready h, if_neg (by simp [bare])]
      simp only [State.askBlocks_eq, State.setCore_crew, State.core_setCore, if_true]
      rfl
    dsimp only
    rw [ran]
    refine ⟨fun rest first room => ?_, fun short => ?_⟩
    · rw [show s.blockLine n.toNat = _ from first]
      refine ⟨_, if_pos (by simp [room]), rfl, ?_, ?_, fun r j lo hi hj => ?_, fun r j lo hj => ?_⟩
      · exact congrArg Core.poolFree ((State.core_setCore _ _ _ _).trans (if_pos rfl))
      · exact congrArg Core.poolWait ((State.core_setCore _ _ _ _).trans (if_pos rfl))
      · exact (s.crew.lane_clearExt hj).trans (if_pos ⟨lo, hi⟩)
      · exact (s.crew.lane_clearExt hj).trans (if_neg (by omega))
    · cases line : s.blockLine n.toNat with
      | nil => exact absurd line (s.blockLine_ne_nil _)
      | cons x rest =>
        obtain ⟨u, m⟩ := x
        refine (if_neg fun grants => ?_).trans ?_
        · obtain ⟨isMe, room⟩ := Bool.and_eq_true_iff.mp grants
          have isMe : u = s.crew.uid := by simpa using isMe
          have asked : m = n.toNat := State.blockLine_mine (by rw [line, isMe]; exact List.mem_cons_self)
          have tight := short rest (show s.blockLine n.toNat = _ by rw [line, isMe, asked])
          rw [asked] at room
          exact absurd (of_decide_eq_true room) (Nat.not_le.mpr tight)
        · rw [State.askBlocks_eq]
          rfl
  · rw [exec, execRegrel, scalarState_ready h, if_pos (by simp [bare])]
  · refine ⟨{ s.setCore k { s.core k with poolFree := (s.core k).poolFree + s.crew.ext } with
      crew := ({ s.crew.clearExt with ext := 0 } : Crew).advance }, ?_, rfl, ?_⟩
    · rw [exec, execRegrel, scalarState_ready h, if_neg (by simpa using holds), if_neg (by simp [free])]
      rfl
    · exact congrArg Core.poolFree ((State.core_setCore _ _ _ _).trans (if_pos rfl))

/-! ## A task queue below a root port -/

/-- A crew whose g2 holds a descriptor's address, on a die whose task queue 0 is open with its ring in the window of a PCIe root port. -/
def pcieTasks : State :=
  let s : State := { State.reset with crew := (Crew.absent.atWord 1 .s).wrG 2 0x30000, nextId := 2 }
  s.setDie 0 { s.die 0 with taskQueues := [(0, { TaskQueue.reset with base := 0x20000000000, ctl := 0x80 })] }

theorem pcieTasks_ready :
    pcieTasks.crew.readyScalar (.tqput 1 2 0) [2] 1 = true ∧
    (SMap.get TaskQueue.reset (pcieTasks.die 0).taskQueues 0).open_ 0 = true ∧ pcieTasks.homesFree 0x20000000000 16 = true ∧
    (pcieTasks.newFence 0 0 0).isSome = true := by decide

/-- The queue's record does not stand at its tail: the engine's write stores nothing there (R424). -/
theorem pcieTasks_stores_nothing :
    (match exec (.tqput 1 2 0) pcieTasks with
      | .next t => t.mem.byte (0x20000000000 + 2)
      | _ => 3) = 0 := by decide

/-- Refutes O30: the ring of an open queue may stand in the window of a PCIe root port, where TQPUT completes and no byte is stored. -/
theorem not_taskWords : ¬ Obligations.TaskWords := by
  intro holds
  obtain ⟨ready, isOpen, free, made⟩ := pcieTasks_ready
  obtain ⟨-, completes, -⟩ := (holds pcieTasks 1 2 0 0).1 ready
  obtain ⟨⟨n, s1⟩, fence⟩ := Option.isSome_iff_exists.mp made
  obtain ⟨t, ran, -, stored, -⟩ := completes n s1 isOpen (by decide) free fence
  have nothing := pcieTasks_stores_nothing
  rw [ran] at nothing
  have three : ∀ handle, (leBytes 8 (pcieTasks.crew.rdG 2).toNat ++ handle).getD 2 0 = 3 := fun _ => rfl
  exact absurd ((three _).symm.trans ((stored 2 (by decide)).symm.trans nothing)) (by decide)

end Sys2Proof.Machine

/-!
PROOFS. Vector words on lanes (R133, R138-R151): each opens its window with the effect that its sources give; the lane and mask rules.
-/

namespace Sys2Proof.Machine

/-! ## Words with a latency bound -/

/-- A word whose meaning is a window answers as the window does. -/
theorem answersV_of_window {i : Instr} {h : VHdr} {use : VUse} {lat : Nat} {eff : Crew → Nat → VEff}
    (meaning : exec i = windowWord i h use lat eff) : AnswersV i h use lat eff := by
  intro s ready
  rw [meaning, windowWord_ready ready]

/-- A word of layout A whose bound is the same for every type. -/
theorem arithWord_sameLat (i : Instr) (f : VArith) (two readsD : Bool) (lat : Nat) (flt : Fmt → Nat → Nat → Nat → Nat → Nat × Flags)
    (int : Int → Int → Int → Int) :
    arithWord i f two readsD lat lat flt int =
      laneWord i f.h f.d (if two then [f.a, f.b] else [f.a]) readsD lat (arithLane f two readsD flt int) := by
  funext s
  rw [arithWord, ite_self]

/-- Settles O31: each word through the window that it opens. -/
theorem vectorWords : Obligations.VectorWords := by
  refine ⟨?_, ?_⟩
  · intro f g lat a ab abd fn
    refine ⟨?_, ?_, ?_, ?_, ?_, ?_, ?_, ?_, ?_, ?_, ?_, ?_, ?_, ?_, ?_, ?_, ?_, ?_⟩
    case refine_3 => exact answersV_of_window (arithWord_sameLat _ f true false 6 _ _)
    case refine_4 => exact answersV_of_window (arithWord_sameLat _ f true true 6 _ _)
    case refine_9 => exact answersV_of_window (arithWord_sameLat _ f true false 6 _ _)
    case refine_10 => exact answersV_of_window (arithWord_sameLat _ f true true 6 _ _)
    all_goals exact answersV_of_window rfl
  · intro f a ab bits
    refine ⟨?_, ?_, ?_, ?_, ?_, ?_, ?_, ?_, ?_, ?_, ?_, ?_, ?_, ?_, ?_, ?_⟩
    all_goals exact answersV_of_window rfl

/-- Settles O32: each word through the window that it opens. -/
theorem vectorMasks : Obligations.VectorMasks := by
  intro s f g done red
  refine ⟨fun h => windowWord_ready h, fun x row h => ?_, fun h => windowWord_ready h, fun h => windowWord_ready h,
    fun h => windowWord_ready h, fun x row h => ?_⟩
  · have meaning : exec x.1 = mlogWord x.1 f x.2.1 x.2.2 := by
      simp only [List.mem_cons, List.not_mem_nil, or_false] at row
      rcases row with rfl | rfl | rfl | rfl | rfl | rfl <;> rfl
    rw [meaning]
    exact windowWord_ready h
  · have meaning : exec x.1 = redWord x.1 f x.2 := by
      simp only [List.mem_cons, List.not_mem_nil, or_false] at row
      rcases row with rfl | rfl | rfl
      · rfl
      · rfl
      · rfl
    rw [meaning]
    exact windowWord_ready h

/-! ## The lane rule -/

/-- What one lane of a group word adds to its result. -/
def laneStep (h : VHdr) (act : Lane) (d : VOpd) (val : Nat → Nat → Lane × Flags) (x : List (Nat × Lane) × Flags) (ij : Nat × Nat) :
    List (Nat × Lane) × Flags :=
  if act.getLsbD ij.2 then (x.1 ++ [(32 * opReg d ij.1 + ij.2, (val ij.1 ij.2).1)], x.2 ||| (val ij.1 ij.2).2)
  else if h.mmode = 2 then (x.1 ++ [(32 * opReg d ij.1 + ij.2, 0)], x.2)
  else x

theorem groupLanes_eq (h : VHdr) (act : Lane) (d : VOpd) (val : Nat → Nat → Lane × Flags) :
    groupLanes h act d val =
      ((List.range (h.grp.toNat + 1)).flatMap (fun i => (List.range 32).map (fun j => (i, j)))).foldl (laneStep h act d val) ([], 0) := rfl

section
variable (h : VHdr) (act : Lane) (d : VOpd) (val : Nat → Nat → Lane × Flags)

/-- What a lane of a group word holds then, if the word writes it (R133). -/
def laneHolds (ij : Nat × Nat) (key : Nat) (x : Lane) : Prop :=
  key = 32 * opReg d ij.1 + ij.2 ∧
    ((act.getLsbD ij.2 = true ∧ x = (val ij.1 ij.2).1) ∨ (act.getLsbD ij.2 = false ∧ h.mmode = 2 ∧ x = 0))

theorem mem_laneStep (y : List (Nat × Lane) × Flags) (ij : Nat × Nat) (key : Nat) (x : Lane) :
    (key, x) ∈ (laneStep h act d val y ij).1 ↔ (key, x) ∈ y.1 ∨ laneHolds h act d val ij key x := by
  unfold laneStep laneHolds
  by_cases active : act.getLsbD ij.2 = true
  · simp [active]
  · rw [if_neg active]
    by_cases zero : h.mmode = 2
    · simp [active, zero]
    · rw [if_neg zero]
      refine (or_iff_left ?_).symm
      rintro ⟨-, ⟨isActive, -⟩ | ⟨-, isZero, -⟩⟩
      · exact active isActive
      · exact zero isZero

theorem mem_foldl_laneStep (l : List (Nat × Nat)) (y : List (Nat × Lane) × Flags) (key : Nat) (x : Lane) :
    (key, x) ∈ (l.foldl (laneStep h act d val) y).1 ↔ (key, x) ∈ y.1 ∨ ∃ ij ∈ l, laneHolds h act d val ij key x := by
  induction l generalizing y with
  | nil => simp
  | cons ij l ih => rw [List.foldl_cons, ih, mem_laneStep, or_assoc, List.exists_mem_cons_iff]

theorem flag_laneStep (y : List (Nat × Lane) × Flags) (ij : Nat × Nat) (b : Nat) :
    (laneStep h act d val y ij).2.getLsbD b = true ↔
      y.2.getLsbD b = true ∨ (act.getLsbD ij.2 = true ∧ (val ij.1 ij.2).2.getLsbD b = true) := by
  unfold laneStep
  by_cases active : act.getLsbD ij.2 = true
  · simp [active]
  · rw [if_neg active]
    have none_ : ¬(act.getLsbD ij.2 = true ∧ (val ij.1 ij.2).2.getLsbD b = true) := fun both => active both.1
    split <;> exact (or_iff_left none_).symm

theorem flag_foldl_laneStep (l : List (Nat × Nat)) (y : List (Nat × Lane) × Flags) (b : Nat) :
    (l.foldl (laneStep h act d val) y).2.getLsbD b = true ↔
      y.2.getLsbD b = true ∨ ∃ ij ∈ l, act.getLsbD ij.2 = true ∧ (val ij.1 ij.2).2.getLsbD b = true := by
  induction l generalizing y with
  | nil => simp
  | cons ij l ih => rw [List.foldl_cons, ih, flag_laneStep, or_assoc, List.exists_mem_cons_iff]

end

/-- The lanes of a group, register by register. -/
theorem exists_group_iff {n : Nat} {p : Nat → Nat → Prop} :
    (∃ ij ∈ (List.range (n + 1)).flatMap (fun i => (List.range 32).map (fun j => (i, j))), p ij.1 ij.2) ↔ ∃ i j, i ≤ n ∧ j < 32 ∧ p i j := by
  constructor
  · rintro ⟨⟨i, j⟩, mem, holds⟩
    simp only [List.mem_flatMap, List.mem_map, List.mem_range, Prod.mk.injEq] at mem
    obtain ⟨i', hi, j', hj, rfl, rfl⟩ := mem
    exact ⟨i', j', by omega, hj, holds⟩
  · rintro ⟨i, j, hi, hj, holds⟩
    refine ⟨(i, j), ?_, holds⟩
    simp only [List.mem_flatMap, List.mem_map, List.mem_range, Prod.mk.injEq]
    exact ⟨i, by omega, j, hj, rfl, rfl⟩

theorem getLsbD_maskResult (h : VHdr) (act old val : Lane) (j : Nat) :
    (maskResult h act old val).getLsbD j = if act.getLsbD j then val.getLsbD j else decide (h.mmode = 1) && old.getLsbD j := by
  unfold maskResult
  rw [BitVec.getLsbD_or, BitVec.getLsbD_and]
  by_cases merge : h.mmode = 1
  · rw [if_pos merge, decide_eq_true merge, BitVec.getLsbD_and, BitVec.getLsbD_not]
    by_cases small : j < 32
    · cases act.getLsbD j <;> simp [small]
    · simp [BitVec.getLsbD_of_ge act j (by omega), BitVec.getLsbD_of_ge old j (by omega)]
  · rw [if_neg merge, decide_eq_false merge]
    cases act.getLsbD j <;> simp

theorem ofNat_patOf (e : Int) : BitVec.ofNat 32 (patOf 32 e) = BitVec.ofInt 32 e := by
  apply BitVec.eq_of_toNat_eq
  simp only [patOf, BitVec.toNat_ofNat, BitVec.toNat_ofInt]
  omega

theorem clampInt_value (lo hi e : Int) (h : lo ≤ hi) : (clampInt (lo, hi) e).1 = max lo (min hi e) := by
  unfold clampInt
  dsimp only
  split
  · omega
  · split <;> omega

/-- The integer result of a lane (R139). -/
theorem laneClip_value (ty : BitVec 5) (e : Int) (h : ty = 3 ∨ ty = 7) :
    laneInt ty (laneClip ty true e) = (if ty = 3 then max (-2 ^ 31) (min (2 ^ 31 - 1) e) else max 0 (min (2 ^ 32 - 1) e)) := by
  unfold laneClip
  rw [ofNat_patOf]
  rcases h with rfl | rfl
  · have clamped : (clampInt (eltRange (.sInt 32)) e).1 = max (-2 ^ 31) (min (2 ^ 31 - 1) e) := clampInt_value _ _ e (by decide)
    simp only [laneInt, if_true, clamped, BitVec.toInt_ofInt]
    exact Int.bmod_eq_of_le (by omega) (by omega)
  · have clamped : (clampInt (eltRange (.nInt 32)) e).1 = max 0 (min (2 ^ 32 - 1) e) := clampInt_value _ _ e (by decide)
    simp only [laneInt, if_true, BitVec.reduceEq, if_false, clamped, BitVec.toNat_ofInt]
    omega

/-- Settles O33: a fold over the lanes of the group, the mask bit by bit, and the range of the integer result. -/
theorem laneRule : Obligations.LaneRule := by
  refine ⟨fun h act d val => ⟨fun key x => ?_, fun b => ?_⟩, getLsbD_maskResult, fun ty e int => ⟨ofNat_patOf e, laneClip_value ty e int⟩⟩
  · rw [groupLanes_eq, mem_foldl_laneStep]
    simp only [List.not_mem_nil, false_or]
    exact exists_group_iff (p := fun i j => laneHolds h act d val (i, j) key x)
  · rw [groupLanes_eq, flag_foldl_laneStep]
    refine (or_iff_right (by simp)).trans ?_
    exact exists_group_iff (p := fun i j => act.getLsbD j = true ∧ (val i j).2.getLsbD b = true)

end Sys2Proof.Machine

/-!
PROOFS. Latency windows (R88, R136, R264): what the issue of a word claims, and what the landing of its result writes.
-/

namespace Sys2Proof.Machine

/-! ## Values put one after another -/

section
variable {σ κ β : Type} [DecidableEq κ] {get : σ → κ → β} {put : σ → κ × β → σ} {ok : κ → Prop}
  (law : ∀ s x k, ok k → get (put s x) k = if x.1 = k then x.2 else get s k)
include law

/-- A place that no value is put at keeps its own. -/
theorem foldl_put_of_not_mem {l : List (κ × β)} {k : κ} (hk : ok k) (s : σ) (out : k ∉ l.map Prod.fst) : get (l.foldl put s) k = get s k := by
  induction l generalizing s with
  | nil => rfl
  | cons x l ih =>
    obtain ⟨notX, notL⟩ := not_or.mp (mt List.mem_cons.mpr out)
    rw [List.foldl_cons, ih _ notL, law s x k hk, if_neg (Ne.symm notX)]

/-- At distinct places each value is there. -/
theorem foldl_put_of_mem {l : List (κ × β)} (distinct : (l.map Prod.fst).Nodup) {x : κ × β} (hx : x ∈ l) (hk : ok x.1) (s : σ) :
    get (l.foldl put s) x.1 = x.2 := by
  induction l generalizing s with
  | nil => cases hx
  | cons y l ih =>
    obtain ⟨apart, distinct'⟩ := List.nodup_cons.mp distinct
    rw [List.foldl_cons]
    rcases List.mem_cons.mp hx with rfl | later
    · rw [foldl_put_of_not_mem law hk _ apart, law s x x.1 hk, if_pos rfl]
    · exact ih distinct' later _

end

theorem Crew.lane_of_setLanes (c : Crew) (l : List (Nat × Lane)) {k : Nat} (out : k ∉ l.map Prod.fst) :
    SMap.get 0 (c.setLanes l).vreg k = SMap.get 0 c.vreg k :=
  foldl_put_of_not_mem (get := SMap.get 0) (ok := fun _ => True) (fun m x k _ => SMap.get_set 0 m x.1 x.2 k) trivial c.vreg out

theorem Crew.mem_setLanes (c : Crew) {l : List (Nat × Lane)} (distinct : (l.map Prod.fst).Nodup) {x : Nat × Lane} (hx : x ∈ l) :
    SMap.get 0 (c.setLanes l).vreg x.1 = x.2 :=
  foldl_put_of_mem (get := SMap.get 0) (ok := fun _ => True) (fun m x k _ => SMap.get_set 0 m x.1 x.2 k) distinct hx trivial c.vreg

theorem Crew.maskOf_setMask (c : Crew) (x : Nat × Lane) (m : Nat) (h : m ≠ 0) :
    (c.setMask x.1 x.2).maskOf m = if x.1 = m then x.2 else c.maskOf m := by
  simp only [Crew.maskOf, Crew.setMask, if_neg h]
  by_cases zero : x.1 = 0
  · rw [if_pos zero, if_neg (by omega)]
  · rw [if_neg zero, SMap.get_set]

/-! ## The issue -/

/-- What the claim of a word's destinations may change (R88, R136). -/
def Crew.claimed (c d : Crew) : Prop := d = { c with vreg := d.vreg, mask := d.mask, spoilV := d.spoilV, spoilM := d.spoilM }

theorem Crew.claimed.trans {c d e : Crew} (h : c.claimed d) (k : d.claimed e) : c.claimed e := by
  unfold Crew.claimed at *
  rw [k, h]

theorem Crew.claimed.fields {c d : Crew} (h : c.claimed d) : d.vwin = c.vwin ∧ d.vclock = c.vclock ∧ d.v = c.v := by
  rw [h]
  exact ⟨rfl, rfl, rfl⟩

theorem Crew.claimV_claimed (c : Crew) (free : Nat) (rs : List Nat) : c.claimed (c.claimV free rs) := by
  refine foldl_keeps (fun d => c.claimed d) _ (fun d r h => h.trans ?_) rs c rfl
  split
  · rfl
  · split <;> rfl

theorem Crew.claimM_claimed (c : Crew) (free : Nat) (ms : List Nat) : c.claimed (c.claimM free ms) := by
  refine foldl_keeps (fun d => c.claimed d) _ (fun d m h => h.trans ?_) ms c rfl
  split
  · rfl
  · split <;> rfl

/-- A claim of registers leaves the lanes of every other. -/
theorem Crew.lane_claimV (c : Crew) (free : Nat) {rs : List Nat} {r j : Nat} (hj : j < 32) (out : r ∉ rs) :
    (c.claimV free rs).lane r j = c.lane r j := by
  unfold Crew.claimV
  induction rs generalizing c with
  | nil => rfl
  | cons q rs ih =>
    obtain ⟨notQ, notRs⟩ := not_or.mp (mt List.mem_cons.mpr out)
    rw [List.foldl_cons, ih _ notRs]
    split
    · rfl
    · split
      · refine Crew.lane_of_setLanes _ _ fun listed => ?_
        simp only [List.map_map, List.mem_map, List.mem_range, Function.comp] at listed
        omega
      · rfl

theorem Crew.claimM_vreg (c : Crew) (free : Nat) (ms : List Nat) : (c.claimM free ms).vreg = c.vreg := by
  refine foldl_keeps (fun d => d.vreg = c.vreg) _ (fun d m h => ?_) ms c rfl
  split
  · exact h
  · split <;> exact h

/-- The crew with the destinations of a word claimed. -/
def State.claimed (s : State) (use : VUse) : Crew :=
  (s.crew.claimV (s.free + 32768) use.dregs).claimM (s.free + 60000) (use.dmasks.filter (· != 0))

theorem State.openWindow_eq (s : State) (h : VHdr) (use : VUse) (lat : Nat) (mayFlag : Bool) (e : VEff) :
    s.openWindow h use lat mayFlag e = { s with
      crew := ({ s.claimed use with vwin := (s.claimed use).vwin ++ [e.window s.crew s.nextId use lat mayFlag] } : Crew).passV h
      nextId := s.nextId + 1
      free := s.free + freeStep } := rfl

theorem openWindow_frame (s : State) (h : VHdr) (use : VUse) (lat : Nat) (mayFlag : Bool) (e : VEff) :
    let t := s.openWindow h use lat mayFlag e
    t = { s with crew := t.crew, nextId := s.nextId + 1, free := s.free + freeStep } ∧
    t.crew.vwin = s.crew.vwin ++ [e.window s.crew s.nextId use lat mayFlag] ∧ t.crew.vclock = s.crew.vclock + 1 + h.gap.toNat ∧
    t.crew.v.pc = s.crew.v.pc + 1 ∧ t.crew.v.gap = h.gap.toNat ∧
    (∀ r j, j < 32 → r ∉ use.dregs → t.crew.lane r j = s.crew.lane r j) ∧
    t.crew = { s.crew with vwin := t.crew.vwin, vclock := t.crew.vclock, v := t.crew.v, vreg := t.crew.vreg, mask := t.crew.mask,
                           spoilV := t.crew.spoilV, spoilM := t.crew.spoilM } := by
  have only : s.crew.claimed (s.claimed use) := (s.crew.claimV_claimed _ _).trans (Crew.claimM_claimed _ _ _)
  have lanes : ∀ r j, j < 32 → r ∉ use.dregs → (s.claimed use).lane r j = s.crew.lane r j := fun r j hj out =>
    (congrArg (fun m => SMap.get 0 m (32 * r + j)) (Crew.claimM_vreg _ _ _)).trans (s.crew.lane_claimV _ hj out)
  rw [s.openWindow_eq]
  generalize s.claimed use = c at only lanes
  obtain ⟨vwin, vclock, v⟩ := only.fields
  refine ⟨rfl, ?_, ?_, ?_, rfl, lanes, ?_⟩
  · exact congrArg (fun l => l ++ [e.window s.crew s.nextId use lat mayFlag]) vwin
  · exact congrArg (fun n => n + 1 + h.gap.toNat) vclock
  · exact congrArg (fun x : Stream => x.pc + 1) v
  · unfold Crew.claimed at only
    rw [only]
    rfl

/-! ## The landing -/

/-- The shared scalar that a window writes. -/
def Crew.putShared (c : Crew) (x : Option (GReg × Word)) : Crew :=
  match x with
  | some (r, v) => c.wrG r v
  | none => c

/-- The condition flag that a window writes. -/
def Crew.putFlag (c : Crew) (x : Option (CFlag × Bool)) : Crew :=
  match x with
  | some (f, b) => c.setFlag f b
  | none => c

/-- The masks that a window writes. -/
def Crew.putMasks (c : Crew) (l : List (Nat × Lane)) : Crew := l.foldl (fun c x => c.setMask x.1 x.2) c

/-- The crew whose window has written all but its flag trap and token. -/
def Crew.landed (c : Crew) (w : VWin) : Crew :=
  ((((({ c with vwin := c.vwin.filter (fun x => x.id != w.id) } : Crew).unpoison w.regs w.lanes).setLanes w.lanes).putMasks
    w.masks).putShared w.shared).putFlag w.flag

theorem Crew.landWin_eq (c : Crew) (w : VWin) :
    c.landWin w = ((c.landed w).orFlags w.flags).flagTrap .v w.en w.flags w.pc w.tok := by
  unfold Crew.landWin Crew.landed Crew.putShared Crew.putFlag
  cases w.shared <;> cases w.flag <;> rfl

theorem Crew.putMasks_eq (c : Crew) (l : List (Nat × Lane)) :
    c.putMasks l = { c with mask := l.foldl (fun m x => if x.1 = 0 then m else SMap.set 0 m x.1 x.2) c.mask } := by
  unfold Crew.putMasks
  induction l generalizing c with
  | nil => rfl
  | cons x l ih =>
    rw [List.foldl_cons, ih]
    rfl

theorem Crew.lowerTok?_only (c : Crew) (t : Option Tok) : c.lowerTok? t = { c with tok := (c.lowerTok? t).tok } := by
  cases t <;> rfl

/-- A condition of the vector stream touches that stream and its token alone. -/
theorem Crew.postPend_v (c : Crew) (p : Pend) (t : Option Tok) :
    c.postPend .v p t = { c with
      v := (match c.v.pend with
        | none => { c.v with pend := some p }
        | some _ => { c.v with kept := c.v.kept ++ [(p, t)] })
      tok := (match c.v.pend with
        | none => (c.lowerTok? t).tok
        | some _ => c.tok) } := by
  have notNested : ¬(Strm.v == Strm.s && c.act && c.trap.isNone && c.life == .running) = true := by simp
  unfold Crew.postPend
  rw [if_neg notNested]
  cases h : c.v.pend with
  | none =>
    simp only [Crew.strm, h]
    rw [c.lowerTok?_only]
    rfl
  | some q =>
    simp only [Crew.strm, h]
    rfl

theorem Crew.flagTrap_v_only (c : Crew) (en f : Flags) (pc : Pc) (t : Option Tok) :
    c.flagTrap .v en f pc t = { c with v := (c.flagTrap .v en f pc t).v, tok := (c.flagTrap .v en f pc t).tok } := by
  unfold Crew.flagTrap
  cases enabledDetail en f with
  | none =>
    dsimp only
    rw [c.lowerTok?_only]
  | some d =>
    dsimp only
    rw [c.postPend_v]

/-- What a landing writes of its crew, apart from the flags, the stream and its token. -/
theorem Crew.landed_eq (c : Crew) (w : VWin) :
    c.landed w = { c with
      vwin := c.vwin.filter (fun x => x.id != w.id), vreg := (c.setLanes w.lanes).vreg, mask := (c.putMasks w.masks).mask
      g := (c.putShared w.shared).g, gFull := (c.putShared w.shared).gFull, poisonG := (c.putShared w.shared).poisonG
      cVal := (c.putFlag w.flag).cVal, cFull := (c.putFlag w.flag).cFull, poisonV := (c.unpoison w.regs w.lanes).poisonV } := by
  unfold Crew.landed
  rw [Crew.putMasks_eq, Crew.putMasks_eq]
  cases w.shared <;> cases w.flag <;>
    simp only [Crew.putShared, Crew.putFlag, Crew.unpoison, Crew.setLanes, Crew.wrG, Crew.setFlag]

/-- What a landing leaves and writes, with its flags. -/
theorem Crew.landWin_only (c : Crew) (w : VWin) :
    c.landWin w = { c with
      vwin := c.vwin.filter (fun x => x.id != w.id), vreg := (c.setLanes w.lanes).vreg, mask := (c.putMasks w.masks).mask
      g := (c.putShared w.shared).g, gFull := (c.putShared w.shared).gFull, poisonG := (c.putShared w.shared).poisonG
      cVal := (c.putFlag w.flag).cVal, cFull := (c.putFlag w.flag).cFull, poisonV := (c.unpoison w.regs w.lanes).poisonV
      fcsr := fcsrOr c.fcsr w.flags, v := (c.landWin w).v, tok := (c.landWin w).tok } := by
  rw [c.landWin_eq, Crew.flagTrap_v_only, c.landed_eq]
  rfl

/-- Do some lanes cover a register wholly? -/
def coversReg (lanes : List (Nat × Lane)) (r : Nat) : Bool := (List.range 32).all (fun j => lanes.any (fun x => x.1 == 32 * r + j))

theorem coversReg_iff {lanes : List (Nat × Lane)} {r : Nat} :
    coversReg lanes r = true ↔ ∀ j, j < 32 → 32 * r + j ∈ lanes.map Prod.fst := by simp [coversReg]

/-- The registers that some lanes cover wholly are poisoned no more, and the others keep their poison (R264). -/
theorem Crew.get_unpoison (c : Crew) (rs : List Nat) (lanes : List (Nat × Lane)) (r : Nat) :
    SMap.get 0 (c.unpoison rs lanes).poisonV r = if r ∈ rs ∧ coversReg lanes r = true then 0 else SMap.get 0 c.poisonV r := by
  have one : ∀ (m : SMap Nat) (q : Nat), SMap.get 0 (if SMap.get 0 m q != 0 && coversReg lanes q then SMap.set 0 m q 0 else m) r =
      if q = r ∧ coversReg lanes r = true then 0 else SMap.get 0 m r := by
    intro m q
    by_cases same : q = r
    · subst same
      by_cases zero : SMap.get 0 m q = 0
      · simp [zero]
      · cases coversReg lanes q <;> simp [zero]
    · rw [if_neg (fun both : q = r ∧ _ => same both.1)]
      split
      · exact (SMap.get_set 0 m q 0 r).trans (if_neg same)
      · rfl
  unfold Crew.unpoison
  dsimp only
  generalize c.poisonV = m
  induction rs generalizing m with
  | nil => simp
  | cons q rs ih =>
    rw [List.foldl_cons, ih]
    by_cases later : r ∈ rs ∧ coversReg lanes r = true
    · rw [if_pos later, if_pos ⟨List.mem_cons_of_mem q later.1, later.2⟩]
    · rw [if_neg later]
      refine (one m q).trans (if_congr ?_ rfl rfl)
      simp only [List.mem_cons]
      exact ⟨fun ⟨same, covers⟩ => ⟨.inl same.symm, covers⟩,
        fun ⟨listed, covers⟩ => ⟨(listed.resolve_right fun deep => later ⟨deep, covers⟩).symm, covers⟩⟩

theorem flagTrap_v_cases {c d : Crew} (w : VWin) (v : d.v = c.v) (tok : d.tok = c.tok) :
    let t := d.flagTrap .v w.en w.flags w.pc w.tok
    let low := c.lowerTok? w.tok
    (enabledDetail w.en w.flags = none → t.v = c.v ∧ t.tok = low.tok) ∧
    (∀ d, enabledDetail w.en w.flags = some d →
      let p : Pend := ⟨causeCode 2 d, w.pc.zeroExtend 64⟩
      (c.v.pend = none → t.v = { c.v with pend := some p } ∧ t.tok = low.tok) ∧
      (∀ q, c.v.pend = some q → t.v = { c.v with kept := c.v.kept ++ [(p, w.tok)] } ∧ t.tok = c.tok)) := by
  have low : (d.lowerTok? w.tok).tok = (c.lowerTok? w.tok).tok := by
    cases w.tok with
    | none => exact tok
    | some k => simp only [Crew.lowerTok?, Crew.lowerTok, Crew.tokCount, tok]
  unfold Crew.flagTrap
  refine ⟨fun quiet => ?_, fun n raised => ⟨fun empty => ?_, fun q full => ?_⟩⟩
  · rw [quiet]
    dsimp only
    refine ⟨?_, low⟩
    rw [d.lowerTok?_only]
    exact v
  · have posted := d.postPend_v ⟨causeCode 2 n, w.pc.zeroExtend 64⟩ w.tok
    rw [v, empty] at posted
    rw [raised]
    dsimp only
    rw [posted]
    exact ⟨rfl, low⟩
  · have posted := d.postPend_v ⟨causeCode 2 n, w.pc.zeroExtend 64⟩ w.tok
    rw [v, full] at posted
    rw [raised]
    dsimp only
    rw [posted]
    exact ⟨rfl, tok⟩

/-- A shared scalar written, or left (R97, R145). -/
theorem Crew.putShared_some (c : Crew) {r : GReg} {v : Word} (h : r ≠ 0) :
    (c.putShared (some (r, v))).rdG r = v ∧ (c.putShared (some (r, v))).gEmpty r = false := by
  refine ⟨?_, ?_⟩
  · show (c.wrG r v).rdG r = v
    rw [c.rdG_wrG, if_neg h, if_pos rfl]
  · show (c.wrG r v).gEmpty r = false
    simp only [Crew.gEmpty, Crew.wrG]
    cases isShared r <;> simp

theorem Crew.putShared_other (c : Crew) {x : Option (GReg × Word)} {r : GReg} (h : ∀ v, x ≠ some (r, v)) :
    (c.putShared x).rdG r = c.rdG r ∧ (c.putShared x).gEmpty r = c.gEmpty r ∧
    SMap.get 0 (c.putShared x).poisonG r.toNat = SMap.get 0 c.poisonG r.toNat := by
  match x with
  | none => exact ⟨rfl, rfl, rfl⟩
  | some (d, v) =>
    have apart : r ≠ d := fun same => h v (by rw [same])
    obtain ⟨value, empty⟩ := c.wrG_sameRegs v apart
    refine ⟨value, empty, ?_⟩
    show SMap.get 0 (c.wrG d v).poisonG r.toNat = _
    simp only [Crew.wrG]
    split
    · rfl
    · exact (SMap.get_set _ _ _ _ _).trans (if_neg fun same => apart (BitVec.eq_of_toNat_eq same.symm))

theorem Crew.putFlag_some (c : Crew) (f : CFlag) (b : Bool) :
    (c.putFlag (some (f, b))).flagVal f = b ∧ (c.putFlag (some (f, b))).flagFull f = true ∧
    ∀ y, y ≠ f → (c.putFlag (some (f, b))).flagVal y = c.flagVal y ∧ (c.putFlag (some (f, b))).flagFull y = c.flagFull y := by
  have apart : ∀ {y : CFlag}, y ≠ f → f.toNat ≠ y.toNat := fun h same => h (BitVec.eq_of_toNat_eq same.symm)
  refine ⟨?_, ?_, fun y other => ⟨?_, ?_⟩⟩
  · exact (SMap.get_set _ _ _ _ _).trans (if_pos rfl)
  · exact (SMap.get_set _ _ _ _ _).trans (if_pos rfl)
  · exact (SMap.get_set _ _ _ _ _).trans (if_neg (apart other))
  · exact (SMap.get_set _ _ _ _ _).trans (if_neg (apart other))

/-- An event of a crew that is bound to a core is performed with its record in reach. -/
theorem onUid_front {s t : State} {u : Nat} (h : s.front u t) (f : State → Out) : onUid s u f = f t := by
  obtain ⟨found, life⟩ := h
  have bound : (t.crew.life == .running || t.crew.life == .halting) = true := by simpa using life
  unfold onUid
  rw [found]
  exact if_pos bound

/-- The landing of a crew's first open window, which nothing goes before. -/
theorem exec_vectorResultLand_first {s t : State} {u : Nat} {w : VWin} (front : s.front u t) (first : t.crew.vwin.head? = some w) :
    exec (.vectorResultLand u w.id) s = .next { t with crew := if t.crew.dqWaits w then t.crew else t.crew.landWin w } := by
  obtain ⟨ws, open_⟩ : ∃ ws, t.crew.vwin = w :: ws := by
    cases h : t.crew.vwin with
    | nil =>
      rw [h] at first
      cases first
    | cons x ws =>
      rw [h] at first
      cases first
      exact ⟨ws, rfl⟩
  rw [exec, execVectorResultLand, onUid_front front, onCrew]
  simp [open_]

/-- Settles O34: the claim at the issue, the parts of the landing, and the event that lands a window. -/
theorem windowLands : Obligations.WindowLands := by
  refine ⟨openWindow_frame, fun c w => ?_, fun s t u w front first => ⟨fun free => ?_, fun waits => ?_⟩⟩
  · have trap := flagTrap_v_cases (c := c) (d := (c.landed w).orFlags w.flags) w (by rw [c.landed_eq]; rfl) (by rw [c.landed_eq]; rfl)
    rw [← c.landWin_eq] at trap
    have only := c.landWin_only w
    generalize c.landWin w = t at only trap
    refine ⟨fun distinct x hx => ?_, fun k out => ?_, fun distinct x hx nonzero => ?_, fun m out => ?_, fun r v shared nonzero => ?_,
      fun r other => ?_, fun r other => ?_, fun f b flag => ?_, fun none_ => ?_, ?_, ?_, trap, fun r covers => ?_, fun r bare => ?_, ?_⟩
    · rw [only]
      exact c.mem_setLanes distinct hx
    · rw [only]
      exact c.lane_of_setLanes w.lanes out
    · rw [only]
      exact foldl_put_of_mem (get := Crew.maskOf) (ok := fun m => m ≠ 0) Crew.maskOf_setMask distinct hx nonzero c
    · rw [only]
      by_cases zero : m = 0
      · simp [Crew.maskOf, zero]
      · exact foldl_put_of_not_mem (get := Crew.maskOf) (ok := fun m => m ≠ 0) Crew.maskOf_setMask zero c out
    · rw [only, shared]
      exact c.putShared_some nonzero
    · rw [only]
      obtain ⟨value, empty, -⟩ := c.putShared_other other
      exact ⟨value, empty⟩
    · rw [only]
      obtain ⟨-, -, poison⟩ := c.putShared_other other
      exact poison
    · rw [only, flag]
      exact c.putFlag_some f b
    · rw [only, none_]
      exact ⟨rfl, rfl⟩
    · rw [only]
    · rw [only]
    · rw [only]
      exact (c.get_unpoison _ _ _).trans (if_pos ⟨covers.1, coversReg_iff.mpr covers.2⟩)
    · rw [only]
      exact (c.get_unpoison _ _ _).trans (if_neg fun both => bare ⟨both.1, coversReg_iff.mp both.2⟩)
    · rw [only]
  · rw [exec_vectorResultLand_first front first, if_neg (by simp [free])]
  · rw [exec_vectorResultLand_first front first, if_pos waits]

end Sys2Proof.Machine

/-!
PROOFS. Vector memory words at issue (R152-R160): loads, stores, atomics, subscribing loads, copies and data queues.
-/

namespace Sys2Proof.Machine

theorem exec_load {f : VMemF} {x : Instr × Shape}
    (h : x ∈ ([(.vld f, .linear), (.vldx f, .strided), (.vgath f, .offsets)] : List (Instr × Shape))) : exec x.1 = loadWord x.1 f x.2 := by
  simp only [List.mem_cons, List.not_mem_nil, or_false] at h
  obtain rfl | rfl | rfl := h <;> rfl

theorem exec_store {f : VMemF} {x : Instr × Shape}
    (h : x ∈ ([(.vst f, .linear), (.vstx f, .strided), (.vscat f, .offsets)] : List (Instr × Shape))) : exec x.1 = storeWord x.1 f x.2 := by
  simp only [List.mem_cons, List.not_mem_nil, or_false] at h
  obtain rfl | rfl | rfl := h <;> rfl

theorem exec_atom {f : VMemF} {x : Instr × Nat}
    (h : x ∈ ([(.vatomAdd f, 0), (.vatomAnd f, 1), (.vatomOr f, 2), (.vatomXor f, 3), (.vatomMinS f, 4), (.vatomMaxS f, 5),
        (.vatomMinN f, 6), (.vatomMaxN f, 7), (.vatomSwap f, 8), (.vatomCas f, 9)] : List (Instr × Nat))) :
    exec x.1 = atomWord x.1 x.2 f := by
  simp only [List.mem_cons, List.not_mem_nil, or_false] at h
  obtain rfl | rfl | rfl | rfl | rfl | rfl | rfl | rfl | rfl | rfl := h <;> rfl

/-- A data-queue word takes its entries, or waits for them. -/
theorem exec_vldDq_ready {s : State} {f : VMemF} (ready : s.readyVector (.vldDq f) f.h (dqUse f) (some f.tok) = true) :
    exec (.vldDq f) s = if (s.settled.crew.dqHeld (f.sub.toNat % 4)).length < f.h.grp.toNat + 1
      then .next (s.settled.blockS .v (.queue (f.sub.toNat % 4) (f.h.grp.toNat + 1) false))
      else .next (s.settled.popDq f (f.sub.toNat % 4) (f.h.grp.toNat + 1)) := by
  rw [exec, execVldDq, vectorWord_ready ready]

theorem exec_vstDq_ready {s : State} {f : VMemF} (ready : s.readyVector (.vstDq f) f.h (storeUse [f.d]) (some f.tok) = true) :
    exec (.vstDq f) s = if 16 < (s.settled.crew.dq.getD (f.sub.toNat % 4) []).length + (f.h.grp.toNat + 1)
      then .next (s.settled.blockS .v (.queue (f.sub.toNat % 4) (f.h.grp.toNat + 1) true))
      else .next (s.settled.pushDq f (f.sub.toNat % 4) (f.h.grp.toNat + 1)) := by
  rw [exec, execVstDq, vectorWord_ready ready]

/-- Settles O35, by the places of the elements, then by path. -/
theorem vectorLoads : Obligations.VectorLoads := by
  intro s f
  dsimp only
  refine ⟨fun x hx ready => ?_, fun ready free pa att mapped => ?_, fun ready => ?_⟩
  · rw [exec_load hx, loadWord, vectorWord_ready ready]
    dsimp only
    refine ⟨fun k d a failed => ?_, fun el placed path free => ?_, fun el placed path waits => ?_, fun el placed path free whole => ?_⟩
    · rw [failed]
    · rw [placed]
      dsimp only
      rw [if_neg path, if_neg (by rintro ⟨local_, waits⟩; rw [free local_] at waits; exact Bool.false_ne_true waits)]
      split <;> rfl
    · rw [placed]
      dsimp only
      rw [if_neg (by rcases path with h | h <;> rw [h] <;> decide), if_pos ⟨path, waits⟩]
    · obtain ⟨now, wait, out⟩ := whole
      have notLocal : ¬(f.path = 4 ∨ f.path = 5) := by rw [path]; decide
      rw [placed]
      dsimp only
      rw [if_pos path, if_neg (by rw [free]; decide), now, wait, out]
      dsimp only
      rw [if_neg notLocal, if_neg notLocal]
      rfl
  · rw [exec, execVlds, vectorWord_ready ready]
    dsimp only
    rw [if_neg (by rw [free]; decide), mapped]
    refine ⟨fun none_ => ?_, fun src el some_ placed whole same => ?_⟩
    · dsimp only
      rw [none_]
      simp only [Option.isNone_none, if_true, BitVec.ofNat_toNat, BitVec.setWidth_eq]
    · obtain ⟨now, wait, out⟩ := whole
      have alike : List.find? (fun e => e.att.etype != att.etype) (s.settled.mapElems 4 el).ok = none :=
        List.find?_eq_none.mpr fun e he => by simp [same e he]
      dsimp only
      rw [some_, if_neg (by simp), placed]
      dsimp only
      rw [now, wait, out]
      dsimp only
      rw [alike]
      rfl
  · rw [exec_vldDq_ready ready]
    exact ⟨fun held => if_neg (Nat.not_lt.mpr held), fun short => if_pos short⟩

/-- A word that writes on path 0, whole and with nothing logged before it, is under way. -/
theorem State.writeWord_whole {s : State} {f : VMemF} {mayFlag : Bool} {kind : Nat} {last : (Elem → Nat) → List Elem → List Elem} {vk : VKind}
    {op : Elem → WOp} {bytes : Elem → List Byte} {regs zeros : List Nat} {mayLog : Bool} {el : List Elem}
    (whole : (s.mapElems kind el).whole) (free : s.logged s.crew.agent s.crew.uid .v f.oc.toNat = false) (room : s.logUse s.crew.agent ≤ 256)
    (none_ : last Elem.va [] = []) :
    s.writeWord f mayFlag kind last vk op bytes regs zeros mayLog el =
      .next (s.putWord f mayFlag vk op bytes regs zeros (last Elem.addr (s.mapElems kind el).ok) (s.mapElems kind el).ok) := by
  obtain ⟨now, wait, out⟩ := whole
  unfold State.writeWord
  dsimp only
  rw [now, wait]
  dsimp only
  rw [free, out]
  simp only [Bool.false_eq_true, if_false, none_, List.isEmpty_nil, Bool.not_true, Bool.and_false, Bool.false_or, List.append_nil]
  rw [if_neg (by simpa [blocksOf] using room)]
  rfl

/-- What the issue of a vector word leaves: its crew alone, and what a message to another package changes. -/
theorem State.issueV_frame (s : State) (h : VHdr) (v : VWord) :
    (s.issueV h v).mem = s.mem ∧ (s.issueV h v).spad = s.spad ∧ (s.issueV h v).caddy = s.caddy ∧ (s.issueV h v).writes = s.writes ∧
    (s.issueV h v).crew.tokCount v.tok = s.crew.tokCount v.tok + 1 := by
  have tok : (((s.crew.claimV (s.free + 32768) v.regs).raiseTok v.tok)).tokCount v.tok = s.crew.tokCount v.tok + 1 := by
    have same : (s.crew.claimV (s.free + 32768) v.regs).tok = s.crew.tok := by rw [(s.crew.claimV_claimed _ _)]
    rw [Crew.tokCount_raiseTok, if_pos rfl, Crew.tokCount, same, Crew.tokCount]
  unfold State.issueV
  dsimp only
  split
  · next e _ =>
    obtain ⟨crew, mem, spad, caddy, writes, -⟩ := State.sendOut_keeps _ s.crew.place.die v.id s.crew.uid s.crew.bindRec.asid e.addr e.va _
    rw [mem, spad, caddy, writes, crew]
    exact ⟨rfl, rfl, rfl, rfl, tok⟩
  · exact ⟨rfl, rfl, rfl, rfl, tok⟩

/-- Settles O36, by the places of the elements, then by path; and by the frame of an issue. -/
theorem vectorStores : Obligations.VectorStores := by
  intro s f
  dsimp only
  refine ⟨fun x hx ready el placed => ?_, fun x hx ready el placed => ?_, fun ready free el placed whole => ?_, fun ready => ?_,
    fun v => s.settled.issueV_frame f.h v⟩
  · rw [exec_store hx, storeWord, vectorWord_ready ready]
    dsimp only
    rw [placed]
    refine ⟨fun path => if_neg path, fun path clear whole => ?_⟩
    obtain ⟨pending, free, room⟩ := clear
    dsimp only
    rw [if_pos path, if_neg (by rw [pending]; decide)]
    exact State.writeWord_whole whole free room rfl
  · rw [exec_atom hx, atomWord, vectorWord_ready ready]
    dsimp only
    rw [placed]
    refine ⟨fun path => if_neg path, fun path clear whole => ?_⟩
    obtain ⟨pending, free, room⟩ := clear
    dsimp only
    rw [if_pos path, if_neg (by rw [pending]; decide)]
    exact State.writeWord_whole whole free room rfl
  · obtain ⟨now, wait, out⟩ := whole
    rw [exec, execVcp16, vectorWord_ready ready]
    dsimp only
    rw [placed]
    dsimp only
    rw [if_neg (by rw [free]; decide), now, wait, out]
    rfl
  · rw [exec_vstDq_ready ready]
    exact ⟨fun fits => if_neg (Nat.not_lt.mpr fits), fun full => if_pos full⟩

end Sys2Proof.Machine

/-!
PROOFS. Local memories byte by byte (R156, R268-R274), and how vector words and graphics messages end (R155-R165).
-/

namespace Sys2Proof.Machine

/-! ## Caddies whose bytes are undefined until written (R274) -/

/-- The free value of a byte of a caddy that is undefined. -/
def openAt (l : List (Nat × Nat × Nat)) (x : Nat) : Option Byte :=
  (l.find? (fun r => decide (r.1 ≤ x) && decide (x < r.2.1))).map (fun r => Config.freeByte (r.2.2 + (x - r.1)))

theorem openAt_append (l m : List (Nat × Nat × Nat)) (x : Nat) : openAt (l ++ m) x = (openAt l x).or (openAt m x) := by
  unfold openAt
  rw [List.find?_append]
  cases List.find? _ l <;> rfl

theorem openAt_one (lo hi v x : Nat) :
    openAt [(lo, hi, v)] x = if lo ≤ x ∧ x < hi then some (Config.freeByte (v + (x - lo))) else none := by
  unfold openAt
  by_cases h : lo ≤ x ∧ x < hi
  · simp [h]
  · simp only [List.find?_singleton, Bool.and_eq_true, decide_eq_true_eq, if_neg h, Option.map_none]

/-- What is left of one interval outside a range that is written. -/
theorem openAt_closeRange_one (lo hi v a n x : Nat) :
    openAt (closeRange [(lo, hi, v)] a n) x = if a ≤ x ∧ x < a + n then none else openAt [(lo, hi, v)] x := by
  have none_ : openAt [] x = none := rfl
  simp only [closeRange, List.flatMap_cons, List.flatMap_nil, List.append_nil, openAt_one]
  by_cases apart : hi ≤ a ∨ a + n ≤ lo
  · rw [if_pos apart, openAt_one]
    by_cases within : a ≤ x ∧ x < a + n
    · rw [if_pos within, if_neg (by omega)]
    · rw [if_neg within]
  · have left : openAt (if lo < a then [(lo, a, v)] else []) x = if lo ≤ x ∧ x < a then some (Config.freeByte (v + (x - lo))) else none := by
      split
      · exact openAt_one lo a v x
      · rw [if_neg (by omega)]
        rfl
    have right : openAt (if a + n < hi then [(a + n, hi, v + (a + n - lo))] else []) x =
        if a + n ≤ x ∧ x < hi then some (Config.freeByte (v + (a + n - lo) + (x - (a + n)))) else none := by
      split
      · exact openAt_one _ _ _ x
      · rw [if_neg (by omega)]
        rfl
    rw [if_neg apart, openAt_append, left, right]
    by_cases below : x < a
    · rw [if_neg (show ¬(a ≤ x ∧ x < a + n) by omega), if_neg (show ¬(a + n ≤ x ∧ x < hi) by omega), Option.or_none]
      exact if_congr (by omega) rfl rfl
    · rw [if_neg (show ¬(lo ≤ x ∧ x < a) by omega), Option.none_or]
      by_cases within : x < a + n
      · rw [if_neg (by omega), if_pos ⟨by omega, within⟩]
      · rw [if_neg (show ¬(a ≤ x ∧ x < a + n) by omega), show v + (a + n - lo) + (x - (a + n)) = v + (x - lo) by omega]
        exact if_congr (by omega) rfl rfl

/-- A range that is written is undefined no more; every other byte is as it was. -/
theorem openAt_closeRange (l : List (Nat × Nat × Nat)) (a n x : Nat) :
    openAt (closeRange l a n) x = if a ≤ x ∧ x < a + n then none else openAt l x := by
  induction l with
  | nil => exact (ite_self none).symm
  | cons r l ih =>
    obtain ⟨lo, hi, v⟩ := r
    have split_ : closeRange ((lo, hi, v) :: l) a n = closeRange [(lo, hi, v)] a n ++ closeRange l a n :=
      List.flatMap_append (xs := [(lo, hi, v)])
    rw [split_, openAt_append, openAt_closeRange_one, ih, show (lo, hi, v) :: l = [(lo, hi, v)] ++ l from rfl, openAt_append]
    split <;> rfl

/-- A byte of the caddies. -/
def State.caddyByte (s : State) (x : Nat) : Byte := (openAt s.caddyOpen x).getD (s.caddy.byte x)

theorem State.caddyBytes_eq (s : State) (a n : Nat) : s.caddyBytes a n = (List.range n).map (fun i => s.caddyByte (a + i)) := by
  unfold State.caddyBytes
  rw [Memory.read_eq]
  by_cases closed : s.caddyOpen.isEmpty = true
  · have empty := List.isEmpty_iff.mp closed
    rw [if_pos closed]
    refine List.map_congr_left fun i _ => ?_
    unfold State.caddyByte
    rw [empty]
    rfl
  · rw [if_neg closed]
    refine List.ext_getElem (by simp) fun i h1 h2 => ?_
    rw [List.getElem_mapIdx, List.getElem_map, List.getElem_map, List.getElem_range]
    unfold State.caddyByte openAt
    cases List.find? _ s.caddyOpen <;> rfl

/-! ## A local memory written (R268-R273) -/

/-- A byte of a local memory, by its kind of memory and its place there. -/
def State.localByte (s : State) (k : Nat × Nat) : Byte :=
  match k.1 with
  | 1 => s.spad.byte k.2
  | 2 => s.caddyByte k.2
  | _ => 0

/-- The place of an address of a local memory. -/
def Space.at_ (sp : Space) (a : Nat) : Nat × Nat :=
  match sp with
  | .phys => (0, a)
  | .spad core => (1, core * 2 ^ 20 + a)
  | .caddy die => (2, die * 2 ^ 29 + a)

theorem State.space_eq (s : State) {sp : Space} (h : sp ≠ .phys) (a n : Nat) :
    s.space sp a n = (List.range n).map (fun i => s.localByte ((sp.at_ a).1, (sp.at_ a).2 + i)) := by
  cases sp with
  | phys => exact absurd rfl h
  | spad core => exact Memory.read_eq _ _ _
  | caddy die => exact s.caddyBytes_eq _ _

/-- A write reads back, and no other byte of any local memory changes. -/
theorem State.localByte_setSpace (s : State) {sp : Space} (h : sp ≠ .phys) (a : Nat) (bs : List Byte) (k : Nat × Nat) :
    (s.setSpace sp a bs).localByte k = if k.1 = (sp.at_ a).1 ∧ (sp.at_ a).2 ≤ k.2 ∧ k.2 < (sp.at_ a).2 + bs.length
      then bs.getD (k.2 - (sp.at_ a).2) 0 else s.localByte k := by
  obtain ⟨kind, x⟩ := k
  cases sp with
  | phys => exact absurd rfl h
  | spad core =>
    match kind with
    | 1 =>
      refine (Memory.byte_write _ _ _ _).trans (if_congr ?_ rfl rfl)
      simp [Space.at_]
    | 0 | 2 | _ + 3 => exact (if_neg (by simp [Space.at_])).symm
  | caddy die =>
    match kind with
    | 2 =>
      show (openAt (closeRange s.caddyOpen (die * 2 ^ 29 + a) bs.length) x).getD
        (Memory.byte (s.caddy.write (die * 2 ^ 29 + a) bs) x) = _
      rw [openAt_closeRange, Memory.byte_write]
      simp only [Space.at_, true_and]
      split <;> rfl
    | 0 | 1 | _ + 3 => exact (if_neg (by simp [Space.at_])).symm

/-- A range that a write does not meet reads as before. -/
theorem State.localByte_setSpace_apart (s : State) {sp : Space} (h : sp ≠ .phys) {a : Nat} {bs : List Byte} {k : Nat × Nat}
    (apart : k.1 = (sp.at_ a).1 → k.2 < (sp.at_ a).2 ∨ (sp.at_ a).2 + bs.length ≤ k.2) :
    (s.setSpace sp a bs).localByte k = s.localByte k := by
  refine (s.localByte_setSpace h a bs k).trans (if_neg ?_)
  rintro ⟨kind, low, high⟩
  rcases apart kind with lower | higher <;> omega

/-! ## The elements of a local store (R156) -/

/-- The bytes that an element of a local store writes: its own, or the byte with its nibble replaced. -/
def State.bytesPut (s : State) (ty : Nat) (e : Elem) : List Byte :=
  match e.nib with
  | some h =>
    let old := leNat (s.space e.space e.addr 1)
    leBytes 1 (if h then old % 16 + 16 * (leNat (storeBytes ty e.data) % 16) else old / 16 * 16 + leNat (storeBytes ty e.data) % 16)
  | none => storeBytes ty e.data

/-- An element of a local store performs. -/
def State.storeElem (s : State) (ty : Nat) (e : Elem) : State := s.setLocal e.space e.addr (s.bytesPut ty e)

theorem State.storeLocal_eq (s : State) (ty : Nat) (l : List Elem) : s.storeLocal ty l = l.foldl (fun s e => s.storeElem ty e) s := by
  refine congrFun (congrFun (congrArg List.foldl (funext fun s => funext fun e => ?_)) s) l
  unfold State.storeElem State.bytesPut State.setLocal State.setNibble
  cases e.nib <;> rfl

theorem State.bytesPut_length (s : State) (ty : Nat) (e : Elem) : (s.bytesPut ty e).length ≤ max 1 (storeBytes ty e.data).length := by
  unfold State.bytesPut
  split
  · rw [length_leBytes]
    exact Nat.le_max_left _ _
  · exact Nat.le_max_right _ _

/-- A local write changes no physical byte, no crew and no core. -/
theorem State.setLocal_keeps (s : State) {sp : Space} (h : sp ≠ .phys) (a : Nat) (bs : List Byte) :
    (s.setLocal sp a bs).mem = s.mem ∧ (s.setLocal sp a bs).crew = s.crew ∧ (s.setLocal sp a bs).cores = s.cores := by
  unfold State.setLocal
  split
  · exact ⟨rfl, rfl, rfl⟩
  · cases sp with
    | phys => exact absurd rfl h
    | spad core => exact ⟨rfl, rfl, rfl⟩
    | caddy die => exact ⟨rfl, rfl, rfl⟩

theorem State.lost_congr {s t : State} (h : t.cores = s.cores) (asid : Nat) (sp : Space) : t.lost asid sp = s.lost asid sp := by
  cases sp with
  | spad core => simp only [State.lost, State.core, h]
  | _ => rfl

/-- An element leaves every byte outside its own place. -/
theorem State.localByte_storeElem_apart (s : State) {ty : Nat} {e : Elem} (h : e.space ≠ .phys) {k : Nat × Nat}
    (apart : k.1 = (e.space.at_ e.addr).1 →
      k.2 < (e.space.at_ e.addr).2 ∨ (e.space.at_ e.addr).2 + max 1 (storeBytes ty e.data).length ≤ k.2) :
    (s.storeElem ty e).localByte k = s.localByte k := by
  have len := s.bytesPut_length ty e
  unfold State.storeElem State.setLocal
  split
  · rfl
  · exact s.localByte_setSpace_apart h fun kind => (apart kind).imp_right fun high => by omega

theorem State.storeElem_keeps (s : State) (ty : Nat) {e : Elem} (h : e.space ≠ .phys) :
    (s.storeElem ty e).mem = s.mem ∧ (s.storeElem ty e).crew = s.crew ∧ (s.storeElem ty e).cores = s.cores := s.setLocal_keeps h _ _

/-- The elements of a local store leave memory, the crew and the cores. -/
theorem State.foldl_storeElem_keeps (s : State) (ty : Nat) {l : List Elem} (h : ∀ e ∈ l, e.space ≠ .phys) :
    (l.foldl (fun s e => s.storeElem ty e) s).mem = s.mem ∧ (l.foldl (fun s e => s.storeElem ty e) s).crew = s.crew ∧
    (l.foldl (fun s e => s.storeElem ty e) s).cores = s.cores := by
  induction l generalizing s with
  | nil => exact ⟨rfl, rfl, rfl⟩
  | cons e l ih =>
    obtain ⟨headLocal, tailLocal⟩ := List.forall_mem_cons.mp h
    obtain ⟨mem, crew, cores⟩ := ih (s.storeElem ty e) tailLocal
    obtain ⟨mem', crew', cores'⟩ := s.storeElem_keeps ty headLocal
    exact ⟨mem.trans mem', crew.trans crew', cores.trans cores'⟩

/-- The elements of a local store leave every byte outside their places. -/
theorem State.localByte_foldl_storeElem (s : State) {ty : Nat} {l : List Elem} (h : ∀ e ∈ l, e.space ≠ .phys) {k : Nat × Nat}
    (apart : ∀ e ∈ l, k.1 = (e.space.at_ e.addr).1 →
      k.2 < (e.space.at_ e.addr).2 ∨ (e.space.at_ e.addr).2 + max 1 (storeBytes ty e.data).length ≤ k.2) :
    (l.foldl (fun s e => s.storeElem ty e) s).localByte k = s.localByte k := by
  induction l generalizing s with
  | nil => rfl
  | cons e l ih =>
    obtain ⟨headLocal, tailLocal⟩ := List.forall_mem_cons.mp h
    obtain ⟨headApart, tailApart⟩ := List.forall_mem_cons.mp apart
    exact (ih _ tailLocal tailApart).trans (s.localByte_storeElem_apart headLocal headApart)

/-- An element of a scratchpad that is still its ASID's has its bytes there. -/
theorem State.localByte_storeElem (s : State) {ty : Nat} {e : Elem} (h : e.space ≠ .phys) (held : s.lost s.crew.bindRec.asid e.space = false)
    {i : Nat} (hi : i < (s.bytesPut ty e).length) :
    (s.storeElem ty e).localByte ((e.space.at_ e.addr).1, (e.space.at_ e.addr).2 + i) = (s.bytesPut ty e).getD i 0 := by
  unfold State.storeElem State.setLocal
  rw [if_neg (by rw [held]; decide), s.localByte_setSpace h, if_pos ⟨rfl, Nat.le_add_right _ _, Nat.add_lt_add_left hi _⟩,
    Nat.add_sub_cancel_left]

/-- An element that no later one meets reads back. -/
theorem State.space_storeElem (s : State) {ty : Nat} {e : Elem} (h : e.space ≠ .phys) (held : s.lost s.crew.bindRec.asid e.space = false) :
    (s.storeElem ty e).space e.space e.addr (s.bytesPut ty e).length = s.bytesPut ty e := by
  rw [State.space_eq _ h]
  refine List.ext_getElem (by simp) fun i h1 h2 => ?_
  rw [List.getElem_map, List.getElem_range, s.localByte_storeElem h held h2]
  exact (List.getElem_eq_getD 0).symm

theorem Elem.at_eq (e : Elem) : e.at_ = e.space.at_ e.addr := by
  unfold Elem.at_ Space.at_
  cases e.space <;> rfl

/-- Bytes of an element outlive the later ones that are clear of it. -/
theorem State.space_foldl_clear (s : State) {ty : Nat} {e : Elem} {l : List Elem} (he : e.space ≠ .phys) (h : ∀ y ∈ l, y.space ≠ .phys)
    {n : Nat} (hn : n ≤ max 1 (storeBytes ty e.data).length) (clear : ∀ y ∈ l, e.clearOf ty y) :
    (l.foldl (fun s e => s.storeElem ty e) s).space e.space e.addr n = s.space e.space e.addr n := by
  rw [State.space_eq _ he, State.space_eq _ he]
  refine List.map_congr_left fun i hi => s.localByte_foldl_storeElem h fun y hy kind => ?_
  have below : i < n := List.mem_range.mp hi
  have disjoint := clear y hy
  rw [Elem.clearOf, y.at_eq, e.at_eq] at disjoint
  rcases disjoint with other | after | before
  · exact absurd kind.symm other
  · exact .inl (by dsimp only; omega)
  · exact .inr (by dsimp only; omega)

theorem leNat_leBytes_one (n : Nat) : leNat (leBytes 1 n) = n % 256 := by simp [leNat, leBytes]

theorem State.leNat_space_one_lt (s : State) {sp : Space} (h : sp ≠ .phys) (a : Nat) : leNat (s.space sp a 1) < 256 := by
  rw [State.space_eq _ h]
  simp only [List.range_one, List.map_cons, List.map_nil, leNat, Nat.mul_zero, Nat.add_zero]
  exact BitVec.isLt _

/-- The nibble of a byte. -/
def nibbleOf (high : Bool) (x : Nat) : Nat := x / (if high then 16 else 1) % 16

theorem State.bytesPut_nib (s : State) (ty : Nat) {e : Elem} {h : Bool} (nib : e.nib = some h) :
    s.bytesPut ty e = leBytes 1 (if h then leNat (s.space e.space e.addr 1) % 16 + 16 * (leNat (storeBytes ty e.data) % 16)
      else leNat (s.space e.space e.addr 1) / 16 * 16 + leNat (storeBytes ty e.data) % 16) := by
  unfold State.bytesPut
  rw [nib]

/-- A nibble stored reads back, and the other nibble of its byte stays. -/
theorem State.nibble_storeElem (s : State) {ty : Nat} {e : Elem} {h : Bool} (nib : e.nib = some h) (he : e.space ≠ .phys)
    (held : s.lost s.crew.bindRec.asid e.space = false) :
    nibbleOf h (leNat ((s.storeElem ty e).space e.space e.addr 1)) = leNat (storeBytes ty e.data) % 16 ∧
    nibbleOf (!h) (leNat ((s.storeElem ty e).space e.space e.addr 1)) = nibbleOf (!h) (leNat (s.space e.space e.addr 1)) := by
  have back := s.space_storeElem (ty := ty) he held
  have byte := s.leNat_space_one_lt he e.addr
  rw [s.bytesPut_nib ty nib, length_leBytes] at back
  rw [back, leNat_leBytes_one]
  cases h <;> simp only [nibbleOf, Bool.not_true, Bool.not_false, if_true, if_false, Bool.false_eq_true] <;> omega

/-- A nibble outlives the later elements that are clear of it or write the other half of its byte. -/
theorem State.nibble_foldl (s : State) {ty : Nat} {e : Elem} {h : Bool} {l : List Elem} (he : e.space ≠ .phys) (hl : ∀ y ∈ l, y.space ≠ .phys)
    (held : s.lost s.crew.bindRec.asid e.space = false)
    (clear : ∀ y ∈ l, e.clearOf ty y ∨ (y.space = e.space ∧ y.addr = e.addr ∧ y.nib = some (!h))) :
    nibbleOf h (leNat ((l.foldl (fun s e => s.storeElem ty e) s).space e.space e.addr 1)) =
      nibbleOf h (leNat (s.space e.space e.addr 1)) := by
  induction l generalizing s with
  | nil => rfl
  | cons y l ih =>
    obtain ⟨headLocal, tailLocal⟩ := List.forall_mem_cons.mp hl
    obtain ⟨headClear, tailClear⟩ := List.forall_mem_cons.mp clear
    obtain ⟨-, crew, cores⟩ := s.storeElem_keeps ty headLocal
    rw [List.foldl_cons, ih _ tailLocal (by rw [crew, State.lost_congr cores, held]) tailClear]
    rcases headClear with disjoint | ⟨space, addr, nib⟩
    · exact congrArg (fun b => nibbleOf h (leNat b))
        (s.space_foldl_clear (l := [y]) he (by simpa using headLocal) (Nat.le_max_left _ _) (by simpa using disjoint))
    · have other := (s.nibble_storeElem (ty := ty) nib headLocal (by rw [space]; exact held)).2
      rwa [Bool.not_not, space, addr] at other

end Sys2Proof.Machine

/-!
PROOFS. How vector words on local paths and graphics messages issue and end (R155-R165).
-/

namespace Sys2Proof.Machine

/-- A local word is one without an element in global memory. -/
theorem local_of_any {l : List Elem} (h : l.any (fun e => e.space == .phys) = false) : ∀ e ∈ l, e.space ≠ .phys := by
  simpa using h

/-- A caddy byte read alone. -/
theorem State.caddyBytes_one (s : State) (x : Nat) : s.caddyBytes x 1 = [s.caddyByte x] := by rw [s.caddyBytes_eq]; rfl

/-- What a local store writes and leaves (R156). -/
theorem State.storeLocal_writes (t : State) (ty : Nat) {l : List Elem} (h : ∀ e ∈ l, e.space ≠ .phys) :
    (t.storeLocal ty l).mem = t.mem ∧
    (∀ x, (∀ e ∈ l, ∀ core, e.space = .spad core →
        x < core * 2 ^ 20 + e.addr ∨ core * 2 ^ 20 + e.addr + max 1 (storeBytes ty e.data).length ≤ x) →
      (t.storeLocal ty l).spad.byte x = t.spad.byte x) ∧
    (∀ x, (∀ e ∈ l, ∀ die, e.space = .caddy die →
        x < die * 2 ^ 29 + e.addr ∨ die * 2 ^ 29 + e.addr + max 1 (storeBytes ty e.data).length ≤ x) →
      (t.storeLocal ty l).caddyBytes x 1 = t.caddyBytes x 1) ∧
    (∀ pre e post, l = pre ++ e :: post → e.nib = none → t.lost t.crew.bindRec.asid e.space = false →
      (∀ y ∈ post, e.clearOf ty y) →
      (t.storeLocal ty l).space e.space e.addr (storeBytes ty e.data).length = storeBytes ty e.data) ∧
    (∀ pre e post h, l = pre ++ e :: post → e.nib = some h → t.lost t.crew.bindRec.asid e.space = false →
      (∀ y ∈ post, e.clearOf ty y ∨ (y.space = e.space ∧ y.addr = e.addr ∧ y.nib = some (!h))) →
      leNat ((t.storeLocal ty l).space e.space e.addr 1) / (if h then 16 else 1) % 16 = leNat (storeBytes ty e.data) % 16) := by
  rw [t.storeLocal_eq]
  refine ⟨(t.foldl_storeElem_keeps ty h).1, fun x apart => ?_, fun x apart => ?_, fun pre e post split_ whole held clear => ?_,
    fun pre e post high split_ nib held clear => ?_⟩
  · exact t.localByte_foldl_storeElem (k := (1, x)) h fun e he kind => match space : e.space with
      | .spad core => apart e he core space
      | .phys => absurd space (h e he)
      | .caddy die => by simp [space, Space.at_] at kind
  · rw [State.caddyBytes_one, State.caddyBytes_one]
    exact congrArg (fun b => [b]) (t.localByte_foldl_storeElem (k := (2, x)) h fun e he kind => match space : e.space with
      | .caddy die => apart e he die space
      | .phys => absurd space (h e he)
      | .spad core => by simp [space, Space.at_] at kind)
  all_goals
    subst split_
    obtain ⟨before, hereOn⟩ := List.forall_mem_append.mp h
    obtain ⟨here, after⟩ := List.forall_mem_cons.mp hereOn
    obtain ⟨-, crew, cores⟩ := t.foldl_storeElem_keeps ty before
    rw [List.foldl_append, List.foldl_cons]
    generalize pre.foldl (fun s e => s.storeElem ty e) t = s at crew cores
    have heldS : s.lost s.crew.bindRec.asid e.space = false := by rw [crew, State.lost_congr cores, held]
  · have own : s.bytesPut ty e = storeBytes ty e.data := by rw [State.bytesPut, whole]
    have back := s.space_storeElem (ty := ty) here heldS
    rw [own] at back
    rw [State.space_foldl_clear _ here after (Nat.le_max_right _ _) clear, back]
  · obtain ⟨-, crew', cores'⟩ := s.storeElem_keeps ty here
    exact ((s.storeElem ty e).nibble_foldl here after (by rw [crew', State.lost_congr cores', heldS]) clear).trans
      (s.nibble_storeElem nib here heldS).1

/-- A word that raises no trap lowers its token. -/
theorem Crew.landWord_tokCount (c : Crew) (v : VWord) (l : List (Nat × Lane)) (f : Flags) :
    (c.landWord v l f false).tokCount v.tok = c.tokCount v.tok - 1 := by
  show ((c.landData v l f).lowerTok v.tok).tokCount v.tok = _
  rw [Crew.tokCount_lowerTok, if_pos rfl]
  rfl

/-- A load lowers its token, unless its flag trap is kept behind a pending one. -/
theorem Crew.landWord_traps (c : Crew) (v : VWord) (l : List (Nat × Lane)) (f : Flags) :
    (enabledDetail v.en f = none ∨ c.v.pend = none → (c.landWord v l f true).tokCount v.tok = c.tokCount v.tok - 1) ∧
    (∀ d q, enabledDetail v.en f = some d → c.v.pend = some q → (c.landWord v l f true).tokCount v.tok = c.tokCount v.tok) := by
  have lowered : ((c.landData v l f).lowerTok v.tok).tokCount v.tok = c.tokCount v.tok - 1 := c.landWord_tokCount v l f
  show (_ → ((c.landData v l f).flagTrap .v v.en f v.pc (some v.tok)).tokCount v.tok = _) ∧
    ∀ d q, _ → _ → ((c.landData v l f).flagTrap .v v.en f v.pc (some v.tok)).tokCount v.tok = _
  refine ⟨fun quiet => ?_, fun d q raised full => ?_⟩
  · unfold Crew.flagTrap
    cases detail : enabledDetail v.en f with
    | none => exact lowered
    | some d =>
      have empty : (c.landData v l f).v.pend = none := (quiet.resolve_left (by rw [detail]; simp))
      dsimp only
      rw [Crew.postPend_v, empty]
      exact lowered
  · have full' : (c.landData v l f).v.pend = some q := full
    unfold Crew.flagTrap
    rw [raised]
    dsimp only
    rw [Crew.postPend_v, full']
    rfl

/-- Settles O37, by the kind of the word. -/
theorem vectorWordPerforms : Obligations.VectorWordPerforms := by
  intro s t u id v front found isLocal first readable
  have run : exec (.vectorWordComplete u id) s = execVectorWordComplete u id s := rfl
  rw [run, execVectorWordComplete, onUid_front front]
  dsimp only
  rw [found]
  dsimp only
  rw [isLocal, first, readable]
  refine ⟨fun kind => ?_, fun aop nr kind => ?_, fun kind => ?_⟩
  · rw [kind]
    obtain ⟨mem, spad, caddy, bytes, nibbles⟩ := t.storeLocal_writes v.ty (local_of_any isLocal)
    exact ⟨rfl, mem, spad, caddy, bytes, nibbles, t.crew.landWord_tokCount v [] 0⟩
  · rw [kind]
    exact ⟨rfl, t.crew.landWord_tokCount v _ _⟩
  · rw [kind]
    obtain ⟨lowers, stays⟩ := t.crew.landWord_traps v
      (loadLanes v (v.elems.map (fun e => t.localBytes e.space e.addr e.len))).1
      (loadLanes v (v.elems.map (fun e => t.localBytes e.space e.addr e.len))).2
    exact ⟨rfl, lowers, stays⟩

/-- A message whose slots are judged issues, or traps with the detail found. -/
theorem messageWord_ready {i : Instr} {f : VGfx} {nA nD : Nat} {b : Option VOpd} {bad : State → Option Nat} {s : State}
    (ready : s.readyVector i f.h (messageUse f nA b nD) (some f.tok) = true) :
    (bad s.settled = none → messageWord i f nA b nD bad s = .next (s.settled.sendMessage i f nA b nD)) ∧
    (∀ d, bad s.settled = some d → messageWord i f nA b nD bad s = .next (s.settled.trapW .v 5 d 0)) := by
  rw [messageWord, vectorWord_ready ready]
  exact ⟨fun good => by rw [good], fun d broken => by rw [broken]⟩

/-- Present or not: a message with a slot that is there, and one without. -/
theorem messageWord_present {i : Instr} {f : VGfx} {nA nD : Nat} {b : Option VOpd} {here : State → Bool} {s : State}
    (ready : s.readyVector i f.h (messageUse f nA b nD) (some f.tok) = true) :
    (here s.settled = true →
      messageWord i f nA b nD (fun s => if here s then none else some 7) s = .next (s.settled.sendMessage i f nA b nD)) ∧
    (here s.settled = false → messageWord i f nA b nD (fun s => if here s then none else some 7) s = .next (s.settled.trapW .v 5 7 0)) :=
  ⟨fun present => (messageWord_ready ready).1 (if_pos present),
    fun absent => (messageWord_ready ready).2 7 (if_neg (by rw [absent]; decide))⟩

/-- Settles O38, message by message, and by the event that ends one. -/
theorem graphicsMessages : Obligations.GraphicsMessages := by
  intro s f
  dsimp only
  refine ⟨fun ready => ?_, fun ready => ?_, fun ready => ?_, fun ready => ⟨fun none_ => ?_, fun r p pixel found => ⟨fun listed => ?_, fun out => ?_⟩⟩,
    fun s t u id v i front found kind => ?_⟩
  · rw [exec, execTex]
    exact messageWord_present (here := fun s => s.crew.kern.hasTexture 1 f.desc) ready
  · rw [exec, execTex3]
    exact messageWord_present (here := fun s => s.crew.kern.hasTexture 2 f.desc) ready
  · rw [exec, execRayq]
    exact messageWord_present (here := fun s => (s.crew.kern.structure_ (f.desc.toNat / 16)).isSome) ready
  · rw [exec, execPexp]
    exact (messageWord_ready (bad := fun s => s.exportBad (f.desc.toNat % 8)) ready).2 6 (by rw [State.exportBad, none_])
  · rw [exec, execPexp]
    refine (messageWord_ready (bad := fun s => s.exportBad (f.desc.toNat % 8)) ready).1 ?_
    rw [State.exportBad, pixel]
    dsimp only
    rw [found]
    exact if_pos (List.contains_iff_mem.mpr listed)
  · rw [exec, execPexp]
    refine (messageWord_ready (bad := fun s => s.exportBad (f.desc.toNat % 8)) ready).2 7 ?_
    rw [State.exportBad, pixel]
    dsimp only
    rw [found]
    exact if_neg (mt List.contains_iff_mem.mp out)
  · have run : exec (.graphicsMessageComplete u id) s = execGraphicsMessageComplete u id s := rfl
    rw [run, execGraphicsMessageComplete, onUid_front front]
    dsimp only
    rw [found]
    dsimp only
    rw [kind]
    refine ⟨fun seen l notExport lanes => ?_, fun g seen l export_ reads => ?_⟩
    · split
      · next g same => exact absurd (VKind.message.inj same) (notExport g)
      · next j _ same =>
        cases same
        rw [lanes]
      · next _ none_ => exact absurd rfl (none_ i)
    · subst export_
      dsimp only
      rw [reads]

end Sys2Proof.Machine

/-!
PROOFS. Control words of the vector, matrix and copy streams (R148, R186, R212, R213).
-/

namespace Sys2Proof.Machine

theorem Crew.pass_strm (c : Crew) (st : Strm) (gap : BitVec 4) (pc : Pc) :
    ((c.pass st gap pc).strm st).pc = pc ∧ ((c.pass st gap pc).strm st).gap = gap.toNat ∧ ((c.pass st gap pc).strm st).status = .running := by
  cases st <;> exact ⟨rfl, rfl, rfl⟩

/-- What a word of v, m or k that goes on leaves. -/
theorem Crew.pass_keeps (c : Crew) {st : Strm} (h : st ≠ .s) (gap : BitVec 4) (pc : Pc) :
    (c.pass st gap pc).lc = c.lc ∧ (c.pass st gap pc).s = c.s ∧ (c.pass st gap pc).g = c.g ∧ (c.pass st gap pc).cVal = c.cVal ∧
    (c.pass st gap pc).cFull = c.cFull := by
  cases st with
  | s => exact absurd rfl h
  | v | m | k => exact ⟨rfl, rfl, rfl, rfl, rfl⟩

theorem Crew.flagFull_emptyFlag (c : Crew) (f : CFlag) : (c.emptyFlag f).flagFull f = false :=
  (SMap.get_set _ _ _ _ _).trans (if_pos rfl)

/-- A branch waits on an empty flag. -/
theorem Crew.branch_empty {c : Crew} {st : Strm} {i : Instr} {gap : BitVec 4} {wait : BitVec 8} {f : CFlag} {take sense : BitVec 1} {off : Pc}
    (ready : c.readyWord st i wait = true) (empty : c.flagFull f = false) :
    c.branch st i gap wait f take sense off = c.block st (.flag f) 0 := by
  rw [Crew.branch, Crew.waited_ready ready, empty]
  rfl

/-- A branch on a full flag goes to its target or on, and takes the flag where it is told to. -/
theorem Crew.branch_full {c : Crew} {st : Strm} {i : Instr} {gap : BitVec 4} {wait : BitVec 8} {f : CFlag} {take sense : BitVec 1} {off : Pc}
    (other : st ≠ .s) (ready : c.readyWord st i wait = true) (full : c.flagFull f = true) :
    let d := c.branch st i gap wait f take sense off
    (d.strm st).pc = (c.strm st).pc + (if c.flagVal f = decide (sense = 1) then off else 1) ∧ (d.strm st).gap = gap.toNat ∧
    (d.strm st).status = .running ∧ d.flagFull f = decide (take = 0) ∧ d.lc = c.lc ∧ d.s = c.s ∧ d.g = c.g ∧ d.cVal = c.cVal := by
  have run : c.branch st i gap wait f take sense off =
      (if take = 1 then c.emptyFlag f else c).pass st gap ((c.strm st).pc + (if c.flagVal f = decide (sense = 1) then off else 1)) := by
    rw [Crew.branch, Crew.waited_ready ready, full]
    simp only [Bool.not_true, Bool.false_eq_true, if_false, beq_iff_eq]
    congr 1
    rw [show (sense == 1) = decide (sense = 1) from rfl]
    split <;> rfl
  rw [run]
  generalize (c.strm st).pc + _ = pc
  rcases bit_eq_zero_or_one take with rfl | rfl
  · rw [if_neg (by decide)]
    obtain ⟨at_, gap_, status⟩ := c.pass_strm st gap pc
    obtain ⟨lc, s, g, cVal, cFull⟩ := c.pass_keeps other gap pc
    refine ⟨at_, gap_, status, ?_, lc, s, g, cVal⟩
    rw [Crew.flagFull, cFull]
    exact full
  · rw [if_pos rfl]
    obtain ⟨at_, gap_, status⟩ := (c.emptyFlag f).pass_strm st gap pc
    obtain ⟨lc, s, g, cVal, cFull⟩ := (c.emptyFlag f).pass_keeps other gap pc
    refine ⟨at_, gap_, status, ?_, lc, s, g, cVal⟩
    rw [Crew.flagFull, cFull]
    exact c.flagFull_emptyFlag f

/-- RDV and HALT of v, m or k: the stream is idle-done, the others stay. -/
theorem Crew.finish_ready {c : Crew} {st : Strm} {i : Instr} {gap : BitVec 4} {wait : BitVec 8} (ready : c.readyWord st i wait = true) :
    let d := c.finish st i gap wait
    (d.strm st).isIdle = true ∧ (∀ x, x ≠ st → d.strm x = c.strm x) ∧ d.g = c.g ∧ d.tok = c.tok := by
  rw [Crew.finish, Crew.waited_ready ready]
  refine ⟨?_, fun x other => ?_, ?_, ?_⟩
  · rw [Crew.strm_setStrm, if_pos rfl]
    rfl
  · rw [Crew.strm_setStrm, if_neg (Ne.symm other)]
    cases st <;> cases x <;> rfl
  · cases st <;> rfl
  · cases st <;> rfl

theorem State.settledV_ready {s : State} (h : s.crew.canIssue .v = true) : s.settledV = s.settled := if_pos h

/-- Settles O39, stream by stream. -/
theorem streamControl : Obligations.StreamControl := by
  intro s gap wait kmask f take sense off off16 lim path
  dsimp only
  refine ⟨fun x hx can ready => ?_, fun x hx can ready => ?_, fun ready => ⟨fun all => ?_, fun some_ => ?_⟩,
    fun ready => ⟨fun none_ => ?_, fun some_ => ?_⟩⟩
  · have branches : ∀ {t : State} {st : Strm} {i : Instr} {o : Pc}, st ≠ .s → t.crew.readyWord st i wait = true →
        (t.crew.flagFull f = false →
          Host.Outcome.next { t with crew := t.crew.branch st i gap wait f take sense o } =
            (.next { t with crew := t.crew.block st (.flag f) 0 } : Out)) ∧
        (t.crew.flagFull f = true → ∃ d, Host.Outcome.next { t with crew := t.crew.branch st i gap wait f take sense o } =
            (.next { t with crew := d } : Out) ∧
          (d.strm st).pc = (t.crew.strm st).pc + (if t.crew.flagVal f = decide (sense = 1) then o else 1) ∧
          (d.strm st).gap = gap.toNat ∧ (d.strm st).status = .running ∧ d.flagFull f = decide (take = 0) ∧
          d.lc = t.crew.lc ∧ d.s = t.crew.s ∧ d.g = t.crew.g ∧ d.cVal = t.crew.cVal) := fun other ready =>
      ⟨fun empty => by rw [Crew.branch_empty ready empty], fun full => ⟨_, rfl, Crew.branch_full other ready full⟩⟩
    simp only [List.mem_cons, List.not_mem_nil, or_false] at hx
    obtain rfl | rfl | rfl := hx
    · rw [exec, execVBrf, State.settledV_ready can]
      exact branches (by decide) ready
    · exact branches (t := s) (by decide) ready
    · exact branches (t := s) (by decide) ready
  · simp only [List.mem_cons, List.not_mem_nil, or_false] at hx
    obtain rfl | rfl | rfl | rfl | rfl | rfl := hx
    · rw [exec, execVRdv, State.settledV_ready can]
      exact ⟨_, rfl, Crew.finish_ready ready⟩
    · rw [exec, execVHalt, State.settledV_ready can]
      exact ⟨_, rfl, Crew.finish_ready ready⟩
    · exact ⟨_, rfl, Crew.finish_ready ready⟩
    · exact ⟨_, rfl, Crew.finish_ready ready⟩
    · exact ⟨_, rfl, Crew.finish_ready ready⟩
    · exact ⟨_, rfl, Crew.finish_ready ready⟩
  · rw [exec, execKTokw, onCrew, Crew.waited_ready ready, if_pos (Crew.tokensAtMost_iff.mpr all)]
  · rw [exec, execKTokw, onCrew, Crew.waited_ready ready, if_neg]
    intro all
    obtain ⟨i, hi, named_, above⟩ := some_
    exact absurd (Crew.tokensAtMost_iff.mp all i hi named_) (Nat.not_le.mpr above)
  · rw [exec, execKDrain, waitedState_ready ready, none_]
    rfl
  · rw [exec, execKDrain, waitedState_ready ready, some_]
    rfl

end Sys2Proof.Machine

/-!
PROOFS. Words of the matrix stream at issue (R167-R185, R358).
-/

namespace Sys2Proof.Machine

/-! ## The array side -/

/-- A word of the array side waits while the array is busy. -/
theorem arraySide_busy {s : State} {t : Option (BitVec 3)} {go : State → Out} (h : s.crew.arrayFree = false) :
    arraySide s t go = .next (s.blockS .m .array) := by
  have busy : (s.crew.nest.isSome || s.crew.array.isSome) = true := by
    unfold Crew.arrayFree at h
    cases hn : s.crew.nest <;> cases ha : s.crew.array <;> simp [hn, ha] at h ⊢
  unfold arraySide
  rw [if_pos busy]

/-- A word that writes a tile waits while it is full. -/
theorem arraySide_full {s : State} {x : BitVec 3} {go : State → Out} (h : s.crew.arrayFree = true) (full : s.crew.tileFull x = true) :
    arraySide s (some x) go = .next (s.blockS .m (.tileFull x)) := by
  simp only [Crew.arrayFree, Bool.and_eq_true, Option.isNone_iff_eq_none] at h
  simp only [arraySide, h.1, h.2, Option.isSome_none, Bool.or_self, Bool.false_eq_true, if_false, full, if_true]

/-- A word that writes a tile enters a free array where it is empty. -/
theorem arraySide_empty {s : State} {x : BitVec 3} {go : State → Out} (h : s.crew.arrayFree = true) (empty : s.crew.tileFull x = false) :
    arraySide s (some x) go = go s := arraySide_free h fun y same => by cases same; exact empty

theorem arraySide_none {s : State} {go : State → Out} (h : s.crew.arrayFree = true) : arraySide s none go = go s :=
  arraySide_free h fun y same => by cases same

theorem matrixWordsOfTheArray (s : State) :
    let c := s.crew
    let ty := resolveType (fcsrB8d0 c.fcsr) (fcsrB8d1 c.fcsr)
    let wait := s.blockS .m .array
    (∀ f : MStepF, c.readyMatrix (.mstep f) f.wait [] false = true →
      (c.arrayFree = false → exec (.mstep f) s = .next wait) ∧
      (c.arrayFree = true → c.tileFull f.acc = true → exec (.mstep f) s = .next (s.blockS .m (.tileFull f.acc))) ∧
      (c.arrayFree = true → c.tileFull f.acc = false → c.proWaits f = true → exec (.mstep f) s = .next wait) ∧
      (c.arrayFree = true → c.tileFull f.acc = false → c.proWaits f = false →
        (∀ k d, c.stepFault f = some (k, d) → exec (.mstep f) s = .next (s.trapW .m k d (if k = 0 then tval0 (.mstep f) else 0))) ∧
        (c.stepFault f = none →
          exec (.mstep f) s = .next (s.issueArray f.gap (.step f (ty f.fmta.toNat) (ty f.fmtb.toNat) false) [])))) ∧
    (∀ f : MStepF, c.readyMatrix (.mngo f) f.wait [] false = true →
      (c.arrayFree = false → exec (.mngo f) s = .next wait) ∧
      (∀ k d, c.arrayFree = true → c.stepFault f = some (k, d) →
        exec (.mngo f) s = .next (s.trapW .m k d (if k = 0 then tval0 (.mngo f) else 0))) ∧
      (c.stepFault f = none → c.arrayFree = true → exec (.mngo f) s = .next { s with crew :=
        (({ c with active := c.shadow, nest := some { tmpl := f, pc := c.m.pc, pt := List.replicate 6 0, fa := ty f.fmta.toNat,
                                                      fb := ty f.fmtb.toNat } } : Crew).pass .m f.gap (c.m.pc + 1)) })) := by
  dsimp only
  refine ⟨fun f ready => ⟨fun busy => ?_, fun free full => ?_, fun free empty held => ?_, fun free empty go => ⟨fun k d fault => ?_, fun good => ?_⟩⟩,
    fun f ready => ⟨fun busy => ?_, fun k d free fault => ?_, fun good free => ?_⟩⟩
  · rw [exec, execMstep, matrixWord_ready ready, arraySide_busy busy]
  · rw [exec, execMstep, matrixWord_ready ready, arraySide_full free full]
  · rw [exec, execMstep, matrixWord_ready ready, arraySide_empty free empty, if_pos held]
  · rw [exec, execMstep, matrixWord_ready ready, arraySide_empty free empty, if_neg (by rw [go]; decide), fault]
    rfl
  · rw [exec, execMstep, matrixWord_ready ready, arraySide_empty free empty, if_neg (by rw [go]; decide), good]
  · rw [exec, execMngo, matrixWord_ready ready, arraySide_busy busy]
  · rw [exec, execMngo, matrixWord_ready ready, arraySide_none free, fault]
    rfl
  · rw [exec, execMngo, matrixWord_ready ready, arraySide_none free, good]

/-- An operation in the array after MNSTOP: a step of the nest is one of its own (R177). -/
def ArrayOp.unnested (a : ArrayOp) : ArrayOp :=
  match a.kind with
  | .step f fa fb true => { a with kind := .step f fa fb false }
  | _ => a

/-- MNSTOP leaves the operation in the array its identity and what it has fetched. -/
theorem map_unnested (x : Option ArrayOp) :
    (x.map ArrayOp.unnested).map (fun a => (a.id, a.gotA, a.gotB, a.held)) = x.map (fun a => (a.id, a.gotA, a.gotB, a.held)) := by
  cases x with
  | none => rfl
  | some a =>
    refine congrArg some ?_
    dsimp only
    unfold ArrayOp.unnested
    split <;> rfl

/-! ## The tile-read port -/

/-- What parks in the port. -/
def State.portEntry (s : State) (i : Instr) : PortEntry :=
  { id := s.nextId, ins := i, rm := BitVec.ofNat 2 (fcsrRm s.crew.fcsr), b8d0 := fcsrB8d0 s.crew.fcsr, b8d1 := fcsrB8d1 s.crew.fcsr }

/-- The token that a parked word raises, if any. -/
def Crew.raiseTok? (c : Crew) (sig : Option Tok) : Crew :=
  match sig with
  | some t => c.raiseTok t
  | none => c

/-- A word with room in the port and for its token parks. -/
theorem State.park_room {s : State} {gap : BitVec 4} {i : Instr} {sig : Option Tok} {regs : List Nat} (room : s.crew.port.length < 4)
    (low : ∀ t, sig = some t → s.crew.tokCount t ≠ 63) :
    let c2 := (s.crew.claimV (s.free + 32768) regs).raiseTok? sig
    s.park gap i sig regs = .next (({ s.fresh.2 with
      crew := ({ c2 with port := c2.port ++ [s.portEntry i] } : Crew).pass .m gap (s.crew.m.pc + 1) } : State).useFree freeStep) := by
  cases sig with
  | none =>
    unfold State.park
    rw [if_neg (Nat.not_le.mpr room)]
    rfl
  | some t =>
    unfold State.park
    rw [if_neg (Nat.not_le.mpr room)]
    dsimp only
    rw [if_neg (by simpa using low t rfl)]
    rfl

/-- What a parked word changes: the port, its token, and what its destinations' claim changes. -/
theorem State.park_parks {s : State} {gap : BitVec 4} {i : Instr} {sig : Option Tok} {regs : List Nat} (room : s.crew.port.length < 4)
    (low : ∀ t, sig = some t → s.crew.tokCount t ≠ 63) :
    ∃ t, s.park gap i sig regs = .next t ∧ t = { s with crew := t.crew, nextId := s.nextId + 1, free := s.free + freeStep } ∧
      t.crew.port = s.crew.port ++ [s.portEntry i] ∧ t.crew.m.pc = s.crew.m.pc + 1 ∧ t.crew.m.gap = gap.toNat ∧
      t.crew.tile = s.crew.tile ∧ t.crew.tFull = s.crew.tFull ∧ t.crew.tok = (s.crew.raiseTok? sig).tok := by
  have only : s.crew.claimed (s.crew.claimV (s.free + 32768) regs) := s.crew.claimV_claimed _ _
  refine ⟨_, State.park_room room low, rfl, ?_⟩
  unfold Crew.claimed at only
  rw [only]
  cases sig <;> exact ⟨rfl, rfl, rfl, rfl, rfl, rfl⟩

theorem State.park_full {s : State} {gap : BitVec 4} {i : Instr} {sig : Option Tok} {regs : List Nat} (full : 4 ≤ s.crew.port.length) :
    s.park gap i sig regs = .next (s.blockS .m .port) := by
  unfold State.park
  exact if_pos full

theorem State.park_limit {s : State} {gap : BitVec 4} {i : Instr} {t : Tok} {regs : List Nat} (room : s.crew.port.length < 4)
    (limit : s.crew.tokCount t = 63) : s.park gap i (some t) regs = .next (s.blockS .m .tokenLimit) := by
  unfold State.park
  rw [if_neg (Nat.not_le.mpr room)]
  exact if_pos (by simpa using limit)

theorem exec_readRows {f : MRowF} {i : Instr} (h : i ∈ ([.mread f, .mcvt f] : List Instr)) : exec i = readRows i f := by
  simp only [List.mem_cons, List.not_mem_nil, or_false] at h
  obtain rfl | rfl := h <;> rfl

/-! ## Prologues -/

theorem exec_pro {gap : BitVec 4} {w : BitVec 8} {sig : BitVec 3} {tab : BitVec 8} {x : Instr × Nat}
    (h : x ∈ ([(.mproNone gap w sig tab, 0), (.mproInt4 gap w sig tab, 1), (.mproCb3 gap w sig tab, 2), (.mproCb4 gap w sig tab, 3),
      (.mproBmap gap w sig tab, 4)] : List (Instr × Nat))) : exec x.1 = proWord x.1 x.2 gap w sig tab := by
  simp only [List.mem_cons, List.not_mem_nil, or_false] at h
  obtain rfl | rfl | rfl | rfl | rfl := h <;> rfl

/-- MPRO with its prologue there selects it, and requests its first table where it has tables. -/
theorem proWord_selects {s : State} {i : Instr} {pro : Nat} {gap : BitVec 4} {w : BitVec 8} {sig : BitVec 3} {tab : BitVec 8}
    (ready : s.crew.readyMatrix i w [] false = true) (there : pro = 0 ∨ (s.crew.kern.ptabOf pro tab.toNat).isSome = true)
    (free : s.crew.arrayFree = true) (low : s.crew.tokCount sig ≠ 63) :
    ∃ t, proWord i pro gap w sig tab s = .next t ∧ t.crew.pro = pro ∧ t.crew.ptab = tab.toNat ∧ t.crew.m.pc = s.crew.m.pc + 1 ∧
      t.crew.tile = s.crew.tile ∧
      t.crew.proLoads = s.crew.proLoads ++ (if pro = 0 ∨ pro = 4 then [] else
        [{ id := s.nextId, ptab := tab.toNat, tok := sig, oc := s.crew.ocdef.toNat % 16, sc := s.crew.ocdef.toNat / 16 % 8 }]) ∧
      t.crew.proReload = none ∧ t.crew.tokCount sig = s.crew.tokCount sig + (if pro = 0 ∨ pro = 4 then 0 else 1) ∧
      (t.core s.crew.agent).inf = (if pro = 0 ∨ pro = 4 then [] else [s.tableLoad tab.toNat 0]) := by
  have judged : ¬(pro != 0 && (s.crew.kern.ptabOf pro tab.toNat).isNone) = true := by
    rcases there with rfl | some_
    · simp
    · rw [← Option.not_isSome, some_]
      simp
  rw [proWord, matrixWord_ready ready]
  dsimp only
  rw [if_neg judged, arraySide_none free, if_neg low]
  by_cases bare : pro = 0 ∨ pro = 4
  · simp only [if_pos bare]
    refine ⟨_, rfl, rfl, rfl, rfl, rfl, (List.append_nil _).symm, rfl, rfl, ?_⟩
    show ((s.setCore s.crew.agent _).core s.crew.agent).inf = []
    rw [State.core_setCore, if_pos rfl]
  · simp only [if_neg bare]
    refine ⟨_, rfl, rfl, rfl, rfl, rfl, rfl, rfl, ?_, ?_⟩
    · exact (Crew.tokCount_raiseTok _ _ _).trans (if_pos rfl)
    · show ((s.fresh.2.setCore s.crew.agent _).core s.crew.agent).inf = _
      rw [State.core_setCore, if_pos rfl]

/-- Settles O40: the array side, then the port and the prologues. -/
theorem matrixWords : Obligations.MatrixWords := by
  refine ⟨fun s => ?_, fun s => ?_⟩
  · obtain ⟨steps, nests⟩ := matrixWordsOfTheArray s
    refine ⟨steps, nests, fun f ready => ?_, fun gap w ready => ?_, fun gap w t ready free => ⟨fun empty => ?_, fun full => ?_⟩,
      fun f ready free => ⟨fun empty => ?_, fun full => ?_⟩, fun f => ?_⟩
    · rw [exec, execMnset, onCrew, Crew.waited_ready ready]
    · rw [exec, execMnstop, onCrew, Crew.waited_ready ready]
      exact ⟨_, rfl, rfl, rfl, rfl, map_unnested _⟩
    · rw [exec, execMzero, matrixWord_ready ready, arraySide_empty free empty]
    · rw [exec, execMzero, matrixWord_ready ready, arraySide_full free full]
    · rw [exec, execMwrite, matrixWord_ready ready, arraySide_empty free empty]
    · rw [exec, execMwrite, matrixWord_ready ready, arraySide_full free full]
    · intro ra rb ready free empty
      refine ⟨fun full => ?_, fun lacking => ?_⟩
      · rw [exec, execMsca, matrixWord_ready ready, arraySide_empty free empty, if_neg (by rw [full]; decide)]
      · rw [exec, execMsca, matrixWord_ready ready, arraySide_empty free empty, if_pos (by rw [lacking]; rfl)]
  · dsimp only
    refine ⟨fun gap w a ready => ⟨fun room => ?_, fun full => ?_⟩,
      fun f i hi ready => ⟨fun room low => ⟨?_, fun t run => ?_⟩, fun full => ?_, fun room limit => ?_⟩,
      fun gap w sig tab x hx ready => ⟨fun other none_ => ?_, fun there free low => ?_⟩⟩
    · rw [exec, execMrel, matrixWord_ready ready]
      obtain ⟨t, run, only, port, pc, behind, tile, full, -⟩ :=
        State.park_parks (gap := gap) (i := .mrel gap w a) (sig := none) (regs := []) room (by simp)
      exact ⟨t, run, only, port, pc, behind, tile, full⟩
    · rw [exec, execMrel, matrixWord_ready ready, State.park_full full]
    · rw [exec_readRows hi, readRows, matrixWord_ready ready]
      obtain ⟨t, run, only, port, pc, behind, tile, full, -⟩ :=
        State.park_parks (gap := f.gap) (i := i) (sig := some f.sig) (regs := rowRegs f) room (fun t same => by cases same; exact low)
      exact ⟨t, run, only, port, pc, behind, tile, full⟩
    · rw [exec_readRows hi, readRows, matrixWord_ready ready] at run
      obtain ⟨t', run', -, -, -, -, -, -, tok⟩ :=
        State.park_parks (gap := f.gap) (i := i) (sig := some f.sig) (regs := rowRegs f) room (fun t same => by cases same; exact low)
      rw [run] at run'
      cases run'
      rw [Crew.tokCount, tok]
      exact (Crew.tokCount_raiseTok _ _ _).trans (if_pos rfl)
    · rw [exec_readRows hi, readRows, matrixWord_ready ready, State.park_full full]
    · rw [exec_readRows hi, readRows, matrixWord_ready ready, State.park_limit room limit]
    · rw [exec_pro hx, proWord, matrixWord_ready ready]
      dsimp only
      rw [if_pos (by rw [none_]; simpa using other)]
    · rw [exec_pro hx]
      exact proWord_selects ready there free low

end Sys2Proof.Machine

/-!
PROOFS. The tile array completes (R59, R173, R180, R181), and the other events of the matrix unit (R168, R176, R182, R183, R358, R401).
-/

namespace Sys2Proof.Machine

/-! ## Elements written one after another -/

/-- A key that is written, always with one value, holds it. -/
theorem SMap.get_foldl_same {l : List (Nat × Lane)} {k : Nat} {v : Lane} (m : SMap Lane) (same : ∀ x ∈ l, x.1 = k → x.2 = v)
    (written : (∃ x ∈ l, x.1 = k) ∨ SMap.get 0 m k = v) : SMap.get 0 (l.foldl (fun m x => SMap.set 0 m x.1 x.2) m) k = v := by
  induction l generalizing m with
  | nil => simpa using written
  | cons y l ih =>
    obtain ⟨head, tail⟩ := List.forall_mem_cons.mp same
    refine ih _ tail ?_
    rw [SMap.get_set]
    by_cases here : y.1 = k
    · exact .inr ((if_pos here).trans (head here))
    · rw [if_neg here]
      refine written.imp_left ?_
      rintro ⟨x, hx, key⟩
      rcases List.mem_cons.mp hx with rfl | later
      · exact absurd key here
      · exact ⟨x, later, key⟩

/-- A key that is not written keeps its value. -/
theorem SMap.get_foldl_other {l : List (Nat × Lane)} {k : Nat} (m : SMap Lane) (out : ∀ x ∈ l, x.1 ≠ k) :
    SMap.get 0 (l.foldl (fun m x => SMap.set 0 m x.1 x.2) m) k = SMap.get 0 m k := by
  induction l generalizing m with
  | nil => rfl
  | cons y l ih =>
    obtain ⟨head, tail⟩ := List.forall_mem_cons.mp out
    rw [List.foldl_cons, ih _ tail, SMap.get_set, if_neg head]

theorem tileKey_inj {t i j i' j' : Nat} (hj : j < 128) (hj' : j' < 128) (h : tileKey t i j = tileKey t i' j') : i = i' ∧ j = j' := by
  unfold tileKey at h
  omega

/-- Elements of a block of rows and columns. -/
def tileBlock (t m n : Nat) (val : Nat → Nat → Lane) : List (Nat × Lane) :=
  (List.range m).flatMap (fun i => (List.range n).map (fun j => (tileKey t i j, val i j)))

theorem mem_tileBlock {t m n : Nat} {val : Nat → Nat → Lane} {x : Nat × Lane} :
    x ∈ tileBlock t m n val ↔ ∃ i, i < m ∧ ∃ j, j < n ∧ (tileKey t i j, val i j) = x := by
  simp [tileBlock, List.mem_flatMap]

/-- An element of a block that is written has its value. -/
theorem Crew.elem_setElems_tileBlock (c : Crew) {t m n i j : Nat} {val : Nat → Nat → Lane} (hn : n ≤ 128) (hi : i < m) (hj : j < n) :
    (c.setElems (tileBlock t m n val)).elem t i j = val i j := by
  refine SMap.get_foldl_same c.tile (fun x hx key => ?_) (.inl ⟨_, mem_tileBlock.mpr ⟨i, hi, j, hj, rfl⟩, rfl⟩)
  obtain ⟨i', -, j', hj', rfl⟩ := mem_tileBlock.mp hx
  obtain ⟨rfl, rfl⟩ := tileKey_inj (by omega) (by omega) key
  rfl

/-- Every element outside a block that is written stays. -/
theorem Crew.tile_setElems_tileBlock (c : Crew) {t m n k : Nat} {val : Nat → Nat → Lane} (out : ∀ i j, i < m → j < n → k ≠ tileKey t i j) :
    SMap.get 0 (c.setElems (tileBlock t m n val)).tile k = SMap.get 0 c.tile k := by
  refine SMap.get_foldl_other c.tile fun x hx => ?_
  obtain ⟨i, hi, j, hj, rfl⟩ := mem_tileBlock.mp hx
  exact Ne.symm (out i j hi hj)

/-! ## A word leaves the array -/

/-- A condition of the matrix stream without a token touches that stream alone. -/
theorem Crew.postPend_m (c : Crew) (p : Pend) : c.postPend .m p none = { c with m := (c.postPend .m p none).m } := by
  have notNested : ¬(Strm.m == Strm.s && c.act && c.trap.isNone && c.life == .running) = true := by simp
  unfold Crew.postPend
  rw [if_neg notNested]
  cases c.m.pend with
  | none =>
    dsimp only [Crew.strm]
    split <;> rfl
  | some q =>
    dsimp only [Crew.strm]
    split <;> rfl

/-- A word that leaves the array changes the array, its stream and the flags. -/
theorem Crew.arrayDone_only (c : Crew) (a : ArrayOp) (own : Flags) :
    c.arrayDone a own = { c with array := none, fcsr := fcsrOr c.fcsr (own ||| a.flags), m := (c.arrayDone a own).m } := by
  unfold Crew.arrayDone
  cases enabledDetail a.en own with
  | none => rfl
  | some d =>
    dsimp only
    rw [Crew.postPend_m]
    rfl

theorem Crew.arrayDone_leaves (c : Crew) (a : ArrayOp) (own : Flags) :
    let d := c.arrayDone a own
    d.array = none ∧ d.tile = c.tile ∧ d.tFull = c.tFull ∧ d.g = c.g ∧ d.vreg = c.vreg ∧ d.mask = c.mask ∧ d.port = c.port ∧ d.s = c.s ∧
    d.v = c.v ∧ d.k = c.k := by
  rw [Crew.arrayDone_only]
  exact ⟨rfl, rfl, rfl, rfl, rfl, rfl, rfl, rfl, rfl, rfl⟩

/-- An element of a step's tile after the step (R173). -/
def Crew.stepElem (c : Crew) (f : MStepF) (ea eb : Elt) (a : ArrayOp) (i j : Nat) : Nat × Flags :=
  accumulate (if f.zacc = 1 then 0 else (c.elem f.acc.toNat i j).toNat)
    (pieces (groupSize f) (stepK f) ((List.range (stepK f)).map (fun k =>
      (eltValue ea (SMap.get 0 a.fifoA (fifoKey k i)).toNat, eltValue eb (SMap.get 0 a.fifoB (fifoKey k j)).toNat))))

theorem Crew.stepResult_tileBlock (c : Crew) (f : MStepF) (ea eb : Elt) (a : ArrayOp) :
    (c.stepResult f ea eb a).1 =
      tileBlock f.acc.toNat (f.mx.toNat + 1) (f.nx.toNat + 1) (fun i j => BitVec.ofNat 32 (c.stepElem f ea eb a i j).1) := by
  simp only [Crew.stepResult, tileBlock, List.map_flatMap, List.map_map]
  rfl

/-- A crew whose step has completed, given its new elements and flags. -/
def Crew.stepDone (c : Crew) (f : MStepF) (nest : Bool) (a : ArrayOp) (r : List (Nat × Lane) × Flags) : Crew :=
  let c1 := (c.setElems r.1).arrayDone a r.2
  let c2 := if f.fin = 1 then c1.setTileFull f.acc true else c1
  if nest then c2.nestNext else c2

/-- What is seen of a completed step. -/
theorem Crew.stepDone_leaves (c : Crew) (f : MStepF) (nest : Bool) (a : ArrayOp) (r : List (Nat × Lane) × Flags) :
    let d := c.stepDone f nest a r
    d.array = none ∧ d.tile = (c.setElems r.1).tile ∧ (f.fin = 1 → d.tileFull f.acc = true) ∧ (f.fin = 0 → d.tFull = c.tFull) ∧
    d.g = c.g ∧ d.vreg = c.vreg ∧ d.mask = c.mask ∧ d.port = c.port ∧ d.s = c.s ∧ d.v = c.v ∧ d.k = c.k := by
  obtain ⟨array, tile, tFull, g, vreg, mask, port, s, v, k⟩ := (c.setElems r.1).arrayDone_leaves a r.2
  unfold Crew.stepDone
  dsimp only
  generalize (c.setElems r.1).arrayDone a r.2 = d at *
  rcases bit_eq_zero_or_one f.fin with fin | fin <;> rw [fin]
  · rw [if_neg (show ¬(0 : BitVec 1) = 1 by decide)]
    cases nest <;> exact ⟨array, tile, fun absurd_ => absurd absurd_ (by decide), fun _ => tFull, g, vreg, mask, port, s, v, k⟩
  · rw [if_pos (rfl : (1 : BitVec 1) = 1)]
    have full : (d.setTileFull f.acc true).tileFull f.acc = true := (SMap.get_set _ _ _ _ _).trans (if_pos rfl)
    cases nest <;> exact ⟨array, tile, fun _ => full, fun absurd_ => absurd absurd_ (by decide), g, vreg, mask, port, s, v, k⟩

theorem length_lockedLanes (c : Crew) (free : Nat) (a : ArrayOp) (regs : List Nat) (vals : List Lane) :
    (c.lockedLanes free a regs vals).length = vals.length := by simp [Crew.lockedLanes]

/-- With nothing written meanwhile the locked lanes are those read at issue. -/
theorem lockedLanes_early (c : Crew) (free : Nat) {a : ArrayOp} (regs : List Nat) (vals : List Lane) (early : a.late = []) :
    c.lockedLanes free a regs vals = vals := by
  refine List.ext_getElem (length_lockedLanes _ _ _ _ _) fun n h1 h2 => ?_
  simp [Crew.lockedLanes, early]

/-- A crew whose MWRITE has completed. -/
def Crew.writeDone (c : Crew) (a : ArrayOp) (t row : Nat) (w : List Lane) : Crew :=
  ({ c with tile := SMap.write 0 c.tile (tileKey t row 0) w } : Crew).arrayDone a 0

theorem Crew.writeDone_leaves (c : Crew) (a : ArrayOp) (t row : Nat) (w : List Lane) :
    let d := c.writeDone a t row w
    d.array = none ∧ (∀ n, n < w.length → SMap.get 0 d.tile (tileKey t row 0 + n) = w.getD n 0) ∧
    (∀ k, (k < tileKey t row 0 ∨ tileKey t row 0 + w.length ≤ k) → SMap.get 0 d.tile k = SMap.get 0 c.tile k) := by
  obtain ⟨array, tile, -⟩ := ({ c with tile := SMap.write 0 c.tile (tileKey t row 0) w } : Crew).arrayDone_leaves a 0
  refine ⟨array, fun n hn => ?_, fun k out => ?_⟩
  · refine (congrArg (fun m => SMap.get 0 m (tileKey t row 0 + n)) tile).trans
      ((SMap.get_write _ _ _ _ _).trans ((if_pos (by omega)).trans ?_))
    rw [Nat.add_sub_cancel_left]
  · exact (congrArg (fun m => SMap.get 0 m k) tile).trans ((SMap.get_write _ _ _ _ _).trans (if_neg (by omega)))

/-- The elements of a scaled tile with their flags (R59, R180). -/
def Crew.scaleGrid (c : Crew) (t src : Nat) (A B : List Lane) : List ((Nat × Lane) × Flags) :=
  (List.range 128).flatMap (fun i => (List.range 128).map (fun j =>
    let r := scaleElem (c.elem t i j).toNat (c.elem src i j).toNat (A.getD i 0).toNat (B.getD j 0).toNat
    ((tileKey t i j, (BitVec.ofNat 32 r.1 : Lane)), r.2)))

/-- A crew whose MSCA has completed. -/
def Crew.scaleDone (c : Crew) (a : ArrayOp) (t src : Nat) (A B : List Lane) : Crew :=
  (c.setElems ((c.scaleGrid t src A B).map (fun x => x.1))).arrayDone a ((c.scaleGrid t src A B).foldl (fun fl x => fl ||| x.2) 0)

theorem Crew.scaleDone_leaves (c : Crew) (a : ArrayOp) (t src : Nat) (A B : List Lane) :
    let d := c.scaleDone a t src A B
    d.array = none ∧
    (∀ i j, i < 128 → j < 128 → d.elem t i j = BitVec.ofNat 32
      (scaleElem (c.elem t i j).toNat (c.elem src i j).toNat (A.getD i 0).toNat (B.getD j 0).toNat).1) ∧
    (∀ k, (k < tileKey t 0 0 ∨ tileKey t 0 0 + 16384 ≤ k) → SMap.get 0 d.tile k = SMap.get 0 c.tile k) := by
  obtain ⟨val, is, grid⟩ : ∃ val : Nat → Nat → Lane,
      (∀ i j, val i j = BitVec.ofNat 32 (scaleElem (c.elem t i j).toNat (c.elem src i j).toNat (A.getD i 0).toNat (B.getD j 0).toNat).1) ∧
      (c.scaleGrid t src A B).map (fun x => x.1) = tileBlock t 128 128 val :=
    ⟨_, fun _ _ => rfl, by simp only [Crew.scaleGrid, tileBlock, List.map_flatMap, List.map_map]; rfl⟩
  obtain ⟨array, tile, -⟩ := (c.setElems ((c.scaleGrid t src A B).map (fun x => x.1))).arrayDone_leaves a
    ((c.scaleGrid t src A B).foldl (fun fl x => fl ||| x.2) 0)
  have written : (c.scaleDone a t src A B).tile = (c.setElems (tileBlock t 128 128 val)).tile := tile.trans (by rw [grid])
  refine ⟨array, fun i j hi hj => ?_, fun k out => ?_⟩
  · have own : (c.setElems (tileBlock t 128 128 val)).elem t i j = val i j :=
      c.elem_setElems_tileBlock (t := t) (m := 128) (n := 128) (Nat.le_refl 128) hi hj
    rw [← is, ← own]
    exact congrArg (fun m => SMap.get 0 m (tileKey t i j)) written
  · rw [written]
    refine c.tile_setElems_tileBlock fun i j hi hj => ?_
    unfold tileKey at *
    omega

/-- Settles O41, by the kind of the operation in the array. -/
theorem tileStepCompletes : Obligations.TileStepCompletes := by
  intro s t u a front busy
  have run : exec (.tileStepComplete u) s = execTileStepComplete u s := rfl
  rw [run, execTileStepComplete, onUid_front front, onCrew]
  dsimp only
  rw [show (t.useFree freeStep).crew.array = some a from busy]
  refine ⟨fun f fa fb nest kind free gotA gotB => ?_, fun x kind => ?_, fun x row vals kind => ⟨fun early => ?_, ?_⟩,
    fun x src sa sb kind => ⟨fun early => ⟨?_, ?_⟩, ?_⟩⟩
  · have ends : ¬(a.held.isSome || decide (a.gotA < fetchGoal f false) || decide (a.gotB < fetchGoal f true)) = true := by
      simp [free, gotA, gotB]
    obtain ⟨array, tile, full, notFull, rest⟩ := t.crew.stepDone_leaves f nest a (t.crew.stepResult f (eltOf 0 0 fa) (eltOf 0 0 fb) a)
    rw [Crew.stepResult_tileBlock] at tile
    dsimp only
    rw [kind]
    dsimp only
    rw [if_neg ends]
    refine ⟨t.crew.stepDone f nest a (t.crew.stepResult f (eltOf 0 0 fa) (eltOf 0 0 fb) a), rfl, array, fun i j hi hj => ?_, fun k out => ?_,
      full, notFull, rest⟩
    · refine (congrArg (fun m => SMap.get 0 m (tileKey f.acc.toNat i j)) tile).trans ?_
      exact t.crew.elem_setElems_tileBlock (by omega) (by omega) (by omega)
    · refine (congrArg (fun m => SMap.get 0 m k) tile).trans ?_
      exact t.crew.tile_setElems_tileBlock fun i j hi hj => out i j (by omega) (by omega)
  · dsimp only
    rw [kind]
    dsimp only
    obtain ⟨array, tile, -⟩ :=
      ({ t.crew with tile := SMap.clear t.crew.tile (tileKey x.toNat 0 0) 16384 } : Crew).arrayDone_leaves a 0
    refine ⟨_, rfl, array, fun i j hi hj => ?_, fun k out => ?_⟩
    · refine (congrArg (fun m => SMap.get 0 m (tileKey x.toNat i j)) tile).trans ((SMap.get_clear _ _ _ _ _).trans (if_pos ?_))
      unfold tileKey
      omega
    · exact (congrArg (fun m => SMap.get 0 m k) tile).trans ((SMap.get_clear _ _ _ _ _).trans (if_neg (by omega)))
  · exact lockedLanes_early _ _ _ _ early
  · dsimp only
    rw [kind]
    obtain ⟨array, elems, rest⟩ := t.crew.writeDone_leaves a x.toNat row (t.crew.lockedLanes t.free a a.locks vals)
    rw [length_lockedLanes] at elems rest
    exact ⟨_, rfl, array, elems, rest⟩
  · exact lockedLanes_early _ _ _ _ early
  · exact lockedLanes_early _ _ _ _ early
  · dsimp only
    rw [kind]
    dsimp only
    obtain ⟨array, elems, rest⟩ := t.crew.scaleDone_leaves a x.toNat src.toNat (t.crew.lockedLanes t.free a (a.locks.take 4) sa)
      (t.crew.lockedLanes (t.free + 4096) a (a.locks.drop 4) sb)
    exact ⟨_, rfl, array, elems, rest⟩

end Sys2Proof.Machine

/-!
PROOFS. What an engine's read leaves (R305, R433), and the events of the matrix unit (R168, R176, R182, R183, R358, R401).
-/

namespace Sys2Proof.Machine

/-! ## An engine's read -/

/-- Only lines, the directory and the dies differ. -/
def State.linesOnly (s t : State) : Prop := t = { s with dies := t.dies, lines := t.lines, dir := t.dir }

theorem State.linesOnly.refl (s : State) : s.linesOnly s := rfl

theorem State.linesOnly.trans {s t u : State} (h : s.linesOnly t) (k : t.linesOnly u) : s.linesOnly u := by
  unfold State.linesOnly at *
  rw [k, h]

theorem State.linesOnly.fields {s t : State} (h : s.linesOnly t) :
    t.crew = s.crew ∧ t.rest = s.rest ∧ t.cores = s.cores ∧ t.mem = s.mem ∧ t.spad = s.spad ∧ t.caddy = s.caddy ∧ t.writes = s.writes := by
  unfold State.linesOnly at h
  rw [h]
  exact ⟨rfl, rfl, rfl, rfl, rfl, rfl, rfl⟩

theorem State.hold_linesOnly (s : State) (b : Nat) (e : DirEntry) (a f : Nat) : s.linesOnly (s.hold b e a f) := by
  unfold State.hold
  split
  · rfl
  · dsimp only
    split <;> rfl

theorem State.heat_linesOnly (s : State) (pa n : Nat) : s.linesOnly (s.heat pa n) := by
  unfold State.heat
  split <;> rfl

/-- An engine's read passes an M holder to O and counts; it changes no memory (R433). -/
theorem State.engineRead_linesOnly (s : State) (pa len : Nat) : s.linesOnly (s.engineRead pa len) := by
  unfold State.engineRead
  refine State.linesOnly.trans ?_ (State.heat_linesOnly _ _ _)
  refine foldl_keeps (fun t => s.linesOnly t) _ (fun t x h => h.trans ?_) _ _ (State.linesOnly.refl s)
  split
  · split
    · split
      · exact (show t.linesOnly (t.mapLine _ x.1 _) from rfl).trans (State.hold_linesOnly _ _ _ _ _)
      · rfl
    · rfl
  · rfl

theorem State.engineWalked_linesOnly (s : State) (die asid va : Nat) : s.linesOnly (s.engineWalked die asid va) :=
  foldl_keeps (fun t => s.linesOnly t) _ (fun t x h => h.trans (t.engineRead_linesOnly x 8)) _ _ (State.linesOnly.refl s)

/-- What an engine's read leaves: of its crew, the buffered stores that it has seen. -/
theorem State.engineSees_leaves (s : State) (oc sc path a len : Nat) :
    let t := s.engineSees oc sc path a len
    t.cores = s.cores ∧ t.mem = s.mem ∧ t.spad = s.spad ∧ t.caddy = s.caddy ∧ t.writes = s.writes ∧
    t.crew = { s.crew with seen := t.crew.seen } := by
  unfold State.engineSees
  dsimp only
  split
  · next pa _ _ =>
    have seen : ∀ (t : State), State.linesOnly { s with crew := s.noteSeen s.crew oc sc pa len } t →
        t.cores = s.cores ∧ t.mem = s.mem ∧ t.spad = s.spad ∧ t.caddy = s.caddy ∧ t.writes = s.writes ∧
        t.crew = { s.crew with seen := t.crew.seen } := by
      intro t h
      obtain ⟨crew, -, cores, mem, spad, caddy, writes⟩ := h.fields
      rw [crew]
      exact ⟨cores, mem, spad, caddy, writes, rfl⟩
    split
    · exact seen _ (State.engineWalked_linesOnly _ _ _ _)
    · exact seen _ ((State.engineWalked_linesOnly _ _ _ _).trans (State.engineRead_linesOnly _ _ _))
  · exact ⟨rfl, rfl, rfl, rfl, rfl, rfl⟩

/-! ## The nest and the tile-read port -/

/-- The lanes of a tile read, row after row. -/
def rowList (f : MRowF) (val : Nat → Lane) : List (Nat × Lane) :=
  (List.range (128 * (f.mx.toNat + 1))).map (fun n => (32 * f.vx.toNat + n, val n))

theorem Crew.rowLanes_eq (c : Crew) (f : MRowF) (val : Lane → Lane × Flags) :
    (c.rowLanes f val).1 = rowList f (fun n => (val (c.elem f.acc.toNat (f.row.toNat + n / 128) (n % 128))).1) := by
  simp only [Crew.rowLanes, rowList, List.map_map]
  rfl

/-- A tile read whose tile is full writes its lanes and lowers its token (R182). -/
theorem Crew.readOut_full (c : Crew) {f : MRowF} (val : Lane → Lane × Flags) (full : c.tileFull f.acc = true)
    (free : (rowRegs f).any c.vLocked = false) :
    let d := c.readOut f val
    d.port = c.port.drop 1 ∧ d.tokCount f.sig = c.tokCount f.sig - 1 ∧
    (∀ n, n < 128 * (f.mx.toNat + 1) →
      SMap.get 0 d.vreg (32 * f.vx.toNat + n) = (val (c.elem f.acc.toNat (f.row.toNat + n / 128) (n % 128))).1) ∧
    (∀ k, (k < 32 * f.vx.toNat ∨ 32 * f.vx.toNat + 128 * (f.mx.toNat + 1) ≤ k) → SMap.get 0 d.vreg k = SMap.get 0 c.vreg k) ∧
    d.tile = c.tile ∧ d.tFull = c.tFull ∧ d.g = c.g := by
  have run : c.readOut f val =
      ((({ c with port := c.port.drop 1, poisonV := (rowRegs f).foldl (fun m r => SMap.set 0 m r 0) c.poisonV } : Crew).setLanes
        (c.rowLanes f val).1).orFlags (c.rowLanes f val).2).lowerTok f.sig := by
    rw [Crew.readOut, full, free]
    rfl
  have vreg : (c.readOut f val).vreg = (c.rowLanes f val).1.foldl (fun m x => SMap.set 0 m x.1 x.2) c.vreg := by
    rw [run]
    rfl
  rw [c.rowLanes_eq] at vreg
  have rest : (c.readOut f val).tile = c.tile ∧ (c.readOut f val).tFull = c.tFull ∧ (c.readOut f val).g = c.g := by
    rw [run]
    generalize c.rowLanes f val = r
    exact ⟨rfl, rfl, rfl⟩
  refine ⟨?_, ?_, fun n hn => ?_, fun k out => ?_, rest⟩
  · rw [run]
    rfl
  · rw [run]
    exact (Crew.tokCount_lowerTok _ _ _).trans (if_pos rfl)
  · rw [vreg]
    refine SMap.get_foldl_same c.vreg (fun x hx key => ?_) (.inl ⟨_, List.mem_map.mpr ⟨n, List.mem_range.mpr hn, rfl⟩, rfl⟩)
    obtain ⟨m, -, rfl⟩ := List.mem_map.mp hx
    rw [Nat.add_left_cancel key]
  · rw [vreg]
    refine SMap.get_foldl_other c.vreg fun x hx => ?_
    obtain ⟨m, hm, rfl⟩ := List.mem_map.mp hx
    have := List.mem_range.mp hm
    dsimp only
    omega

/-- A parked MREL empties its tile, which keeps its elements (R183). -/
theorem Crew.setTileFull_false (c : Crew) (a : BitVec 3) :
    (c.setTileFull a false).tileFull a = false ∧ ∀ x, x ≠ a → (c.setTileFull a false).tileFull x = c.tileFull x :=
  ⟨(SMap.get_set _ _ _ _ _).trans (if_pos rfl),
    fun _ other => (SMap.get_set _ _ _ _ _).trans (if_neg fun same => other (BitVec.eq_of_toNat_eq same.symm))⟩

/-! ## Tables -/

/-- What the arrival of a table changes (R358). -/
theorem State.tableIn_leaves (t : State) (b : InfBuf) (bytes : List Byte) :
    let r := t.tableIn b bytes
    let c := t.crew
    (b.id ≠ 0 → (r.core c.agent).inf = (t.core c.agent).inf.map (fun x => if x.id = b.id then { x with bytes := some bytes } else x)) ∧
    (b.id = 0 → (r.core c.agent).inf = (t.core c.agent).inf.take 1 ++ [{ b with bytes := some bytes }]) ∧
    (∀ l, c.proLoads.find? (fun l => l.id == b.id) = some l → r.crew.tokCount l.tok = c.tokCount l.tok - 1 ∧
      r.crew.proLoads = c.proLoads.filter (fun x => x.id != b.id)) ∧
    (c.proLoads.any (fun l => l.id == b.id) = false → r.crew.tok = c.tok) ∧ r.mem = t.mem := by
  have inf : ((t.tableIn b bytes).core t.crew.agent).inf = if b.id = 0 then (t.core t.crew.agent).inf.take 1 ++ [{ b with bytes := some bytes }]
      else (t.core t.crew.agent).inf.map (fun x => if x.id = b.id then { x with bytes := some bytes } else x) := by
    show ((t.setCore t.crew.agent _).core t.crew.agent).inf = _
    rw [State.core_setCore, if_pos rfl]
  refine ⟨fun own => ?_, fun reload => ?_, fun l found => ?_, fun none_ => ?_, rfl⟩
  · rw [inf, if_neg own]
  · rw [inf, if_pos reload]
  · unfold State.tableIn
    dsimp only
    rw [found]
    exact ⟨(Crew.tokCount_lowerTok _ _ _).trans (if_pos rfl), rfl⟩
  · have absent : t.crew.proLoads.find? (fun l => l.id == b.id) = none := by
      rw [List.find?_eq_none]
      simpa using none_
    unfold State.tableIn
    dsimp only
    rw [absent]

/-- Settles O42, event by event. -/
theorem matrixEvents : Obligations.MatrixEvents := by
  intro s t u front
  dsimp only
  refine ⟨fun n nest running noTrap notAct idle noPend empty ready => ?_, fun e rest f port ins full free => ?_,
    fun e rest gap w a port ins full => ?_, fun a f fa fb nest b l array kind free plain more got => ?_,
    fun b bs p bytes due table fetched => ?_⟩
  · have due : t.crew.pendDue .m = false := pendDue_of_none noPend
    have run : exec (.nestStepGenerate u) s = execNestStepGenerate u s := rfl
    rw [run, execNestStepGenerate, onUid_front front]
    dsimp only
    rw [nest]
    dsimp only
    rw [running, noTrap, notAct, idle, due, empty, ready]
    rfl
  · have run : exec (.tileReadPerform u) s = execTileReadPerform u s := rfl
    rw [run, execTileReadPerform, onUid_front front, onCrew]
    dsimp only
    rw [port]
    dsimp only
    rcases ins with read | cvt
    · obtain ⟨left, tok, rows, others, tile, tFull, g⟩ := t.crew.readOut_full (fun x => (x, 0)) full free
      rw [port] at left
      rw [read]
      refine ⟨_, rfl, left, tok, fun n hn => ?_, others, tile, tFull, g⟩
      rw [if_pos rfl]
      exact rows n hn
    · obtain ⟨left, tok, rows, others, tile, tFull, g⟩ := t.crew.readOut_full (fun x =>
        (laneOf f.fmt.toNat (convert e.b8d0 e.b8d1 9 f.fmt.toNat e.rm.toNat true x.toNat).1,
          (convert e.b8d0 e.b8d1 9 f.fmt.toNat e.rm.toNat true x.toNat).2)) full free
      rw [port] at left
      rw [cvt]
      refine ⟨_, rfl, left, tok, fun n hn => ?_, others, tile, tFull, g⟩
      rw [if_neg (by nofun)]
      exact rows n hn
  · have run : exec (.mrelPerform u) s = execMrelPerform u s := rfl
    obtain ⟨empty, others⟩ := ({ t.crew with port := t.crew.port.drop 1 } : Crew).setTileFull_false a
    rw [run, execMrelPerform, onUid_front front, onCrew, port]
    dsimp only
    rw [ins]
    dsimp only
    rw [if_pos full]
    rw [port] at empty others
    exact ⟨_, rfl, rfl, empty, rfl, others, rfl⟩
  · have ends : ¬(a.held.isSome || decide (fetchGoal f b ≤ if b then a.gotB else a.gotA)) = true := by
      have goal : fetchGoal f b = stepK f := by
        unfold fetchGoal
        refine if_neg ?_
        cases b with
        | false => simp
        | true => simp [plain rfl]
      rw [free, goal]
      simpa using more
    have direct : ¬(b && f.pro != 0) = true := by
      cases b with
      | false => simp
      | true => simp [plain rfl]
    have run : exec (.operandSliceArrive u b) s = execOperandSliceArrive u b s := rfl
    rw [run, execOperandSliceArrive, onUid_front front]
    dsimp only
    rw [array]
    dsimp only
    rw [kind]
    dsimp only
    rw [if_neg ends, if_neg direct, got]
    rfl
  · have run : exec (.infuserTableArrive u) s = execInfuserTableArrive u s := rfl
    rw [run, execInfuserTableArrive, onUid_front front, due, State.tablesArrive]
    dsimp only
    rw [table]
    dsimp only
    rw [fetched]
    obtain ⟨cores, mem, -, -, -, crew⟩ := t.engineSees_leaves b.oc b.sc (p.tbase.toNat / 2 ^ 61) (p.tbase.toNat % 2 ^ 56 + b.t * p.tableBytes)
      p.tableBytes
    refine ⟨rfl, ?_⟩
    have leaves := (t.tableSees p b).tableIn_leaves b bytes
    generalize (t.tableSees p b).tableIn b bytes = r at leaves ⊢
    have core : (t.tableSees p b).core t.crew.agent = t.core t.crew.agent := congrArg (fun m => SMap.get _ m t.crew.agent) cores
    have seen : (t.tableSees p b).crew = { t.crew with seen := (t.tableSees p b).crew.seen } := crew
    rw [seen] at leaves
    obtain ⟨own, reload, found, none_, same⟩ := leaves
    refine ⟨fun h => (own h).trans ?_, fun h => (reload h).trans ?_, found, none_, same.trans mem⟩
    · exact congrArg (fun k : Core => k.inf.map _) core
    · exact congrArg (fun k : Core => k.inf.take 1 ++ _) core

end Sys2Proof.Machine

/-!
PROOFS. Copy words at issue, and what becomes of their jobs (R189, R194-R211, R403).
-/

namespace Sys2Proof.Machine

theorem answersK_of_plain {i : Instr} (h : exec i = plainCopy i) : AnswersK i (fun _ => 0) (fun _ _ => none) (fun c j => (c, j)) := by
  intro s ready
  rw [h, plainCopy, copyWord_ready ready]

/-- A crew that has joined a collective of a class and extent (R205). -/
def Crew.joinColl (c : Crew) (key : Nat) : Crew := { c with colls := SMap.set 0 c.colls key (SMap.get 0 c.colls key + 1) }

/-- Settles O43, by what the word takes at issue. -/
theorem copyWords : Obligations.CopyWords := by
  intro h o p q red
  dsimp only
  refine ⟨fun i hi => answersK_of_plain ?_, fun i hi s ready => ?_, fun i hi s ready => ?_, fun i hi s ready => ?_,
    fun s ready => ?_, fun s ready => ?_⟩
  · simp only [List.mem_cons, List.not_mem_nil, or_false] at hi
    obtain rfl | rfl | rfl | rfl | rfl | rfl | rfl | rfl | rfl | rfl | rfl | rfl := hi <;> rfl
  · have run : exec i = copyWord i (fun c => SMap.get 0 c.colls (collKey h.oc.toNat h.path.toNat)) (fun _ _ => none)
        (fun c j => (c.joinColl (collKey h.oc.toNat h.path.toNat), j)) := by
      simp only [List.mem_cons, List.not_mem_nil, or_false] at hi
      obtain rfl | rfl | rfl := hi <;> rfl
    rw [run]
    exact copyWord_ready (seq := fun c => SMap.get 0 c.colls (collKey h.oc.toNat h.path.toNat)) ready
  · have run : exec i = pushWord i q.toNat := by
      simp only [List.mem_cons, List.not_mem_nil, or_false] at hi
      obtain rfl | rfl := hi <;> rfl
    rw [run]
    exact copyWord_ready (seq := fun _ => 0) ready
  · have run : exec i = popWord i q.toNat := by
      simp only [List.mem_cons, List.not_mem_nil, or_false] at hi
      obtain rfl | rfl := hi <;> rfl
    rw [run]
    exact copyWord_ready (seq := fun _ => 0) ready
  · rw [exec, execJsub]
    exact copyWord_ready (seq := fun _ => 0) ready
  · rw [exec, execSqgo]
    exact copyWord_ready (seq := fun _ => 0) ready

/-! ## The end of a job -/

theorem Crew.jobDone_leaves (c : Crew) (j : Job) (fl : Flags) :
    (c.jobDone j fl).tokCount (jobTok j.ins) = c.tokCount (jobTok j.ins) - 1 ∧ (c.jobDone j fl).jobs = c.jobs.filter (fun x => x.id != j.id) ∧
    (c.jobDone j fl).fcsr = fcsrOr c.fcsr fl ∧ (c.jobDone j fl).dq = c.dq :=
  ⟨(Crew.tokCount_lowerTok _ _ _).trans (if_pos rfl), rfl, rfl, rfl⟩

/-- One read of a range that crosses no page (R195). -/
theorem JobRun.range_one {c : Crew} {oc sc path a n : Nat} {r : JobRun} {bs : List Byte} (one : rangePieces a n = [(a, n)]) (ok : r.fin = .ok ())
    (new : r.old = []) (got : r.s.fetchBytes c path a n = .ok bs) :
    r.range c oc sc path a n = ({ r with s := r.s.engineSees oc sc path a n, reads := bs :: r.reads }, bs) := by
  have going : r.going = true := by rw [JobRun.going, ok]
  rw [JobRun.range, one]
  simp only [List.map_cons, List.map_nil, JobRun.readAll, JobRun.read, going, new, got, Fetch.andThen, Bool.not_true, Bool.false_eq_true, if_false,
    List.flatten_cons, List.flatten_nil, List.append_nil]

/-- One write of a range that crosses no page (R195). -/
theorem JobRun.store_one {c : Crew} {path a : Nat} {bs : List Byte} {r : JobRun} {t : State} (one : rangePieces a bs.length = [(a, bs.length)])
    (ok : r.fin = .ok ()) (new : r.skip = 0) (put : r.s.storeRange c path a bs = .ok t) :
    (r.store c path a bs).fin = .ok () ∧ (r.store c path a bs).s = t := by
  have going : r.going = true := by rw [JobRun.going, ok]
  rw [JobRun.store, one]
  simp only [List.foldl_cons, List.foldl_nil, JobRun.act, going, new, Nat.sub_self, List.drop_zero, List.take_length, put, Fetch.andThen,
    Bool.not_true, Bool.false_eq_true, if_false, ne_eq, not_true_eq_false]
  exact ⟨ok, trivial⟩

/-- A job that is found, free and first comes to its end or to a pause, an SQGO apart (R194). -/
def State.endJob (t : State) (j : Job) : Out :=
  let r := t.runJob t.crew j
  match r.fin with
  | .ok _ =>
    if isCard j.ins then .next (r.s.acceptCard j r.reads.reverse.flatten)
    else if r.s.farOut j.id then .next (r.keep j)
    else .next (({ r.s with crew := r.s.crew.jobDone j r.flags } : State).useFree 1)
  | _ => t.pauseJob j r (t.faultKind t.crew)

section
variable {s t : State} {u id : Nat} {j : Job} (front : s.front u t) (found : t.crew.jobs.find? (fun x => x.id == id) = some j)
  (free : j.held = none) (notColl : collOf j.ins = none) (notPush : isPush j.ins = false) (first : t.behindJob t.crew j = false)
include front found free notColl notPush first

theorem exec_copyJobComplete (notSolver : ∀ h o, j.ins ≠ .sqgo h o) : exec (.copyJobComplete u id) s = t.endJob j := by
  have run : exec (.copyJobComplete u id) s = execCopyJobComplete u id s := rfl
  rw [run, execCopyJobComplete, onUid_front front]
  dsimp only
  rw [found]
  dsimp only
  rw [free, notColl, notPush, first]
  simp only [Option.isSome_none, Bool.or_self, Bool.false_eq_true, if_false]
  rfl

/-- A solver job goes to its sequencer (R211). -/
theorem exec_copyJobComplete_sqgo {h : KHdr} {o : KR} (solver : j.ins = .sqgo h o) :
    exec (.copyJobComplete u id) s = .next (t.acceptSolver j) := by
  have run : exec (.copyJobComplete u id) s = execCopyJobComplete u id s := rfl
  rw [run, execCopyJobComplete, onUid_front front]
  dsimp only
  rw [found]
  dsimp only
  rw [free, notColl, notPush, first]
  simp only [Option.isSome_none, Bool.or_self, Bool.false_eq_true, if_false]
  rw [solver]

/-- A job whose end is to be a failure ends with it (R196). -/
theorem exec_copyJobFail
    {code : BitVec 9} {a : Nat} (bad : (t.runJob t.crew j).fin = .bad code a) :
    exec (.copyJobFail u id) s = .next { t.mix (t.reached t.crew j) with
      crew := (t.crew.orFlags (t.runJob t.crew j).flags).failJob j code (BitVec.ofNat 64 a) } := by
  have run : exec (.copyJobFail u id) s = execCopyJobFail u id s := rfl
  rw [run, execCopyJobFail, onUid_front front]
  dsimp only
  rw [found]
  dsimp only
  rw [free, notColl, notPush, first]
  simp only [Option.isSome_none, Bool.or_self, Bool.false_eq_true, if_false]
  rw [bad]

end

/-- The run of a CPY of a byte range that crosses no page (R199). -/
theorem State.runJob_cpyKr {t t1 : State} {j : Job} {h : KHdr} {o : KR} {bs : List Byte} (ins : j.ins = .cpyKr h o) (reads : j.reads = [])
    (wrote : j.wrote = 0) (one : rangePieces (placeOr j.a).2 j.length = [((placeOr j.a).2, j.length)])
    (one' : rangePieces j.b.toNat bs.length = [(j.b.toNat, bs.length)])
    (got : t.fetchBytes t.crew (placeOr j.a).1 (placeOr j.a).2 j.length = .ok bs)
    (put : (t.engineSees j.oc 5 (placeOr j.a).1 (placeOr j.a).2 j.length).storeRange t.crew j.path j.b.toNat bs = .ok t1) :
    (t.runJob t.crew j).fin = .ok () ∧ (t.runJob t.crew j).s = t1 := by
  have run : t.runJob t.crew j = ((j.run t).from_ t.crew j.oc j.a j.length).1.store t.crew j.path j.b.toNat
      ((j.run t).from_ t.crew j.oc j.a j.length).2 := by
    rw [State.runJob, ins]
  have read : (j.run t).from_ t.crew j.oc j.a j.length = _ := JobRun.range_one (oc := j.oc) (sc := 5) one rfl reads got
  rw [run, read]
  exact JobRun.store_one one' rfl wrote put

/-- Jobs of some crews changed leave the memories. -/
theorem foldl_onCrewOf_mems {β : Type} (f : β → Nat) (g : β → Crew → Crew) (l : List β) (s : State) :
    let t := l.foldl (fun s x => s.onCrewOf (f x) (g x)) s
    t.mem = s.mem ∧ t.spad = s.spad ∧ t.caddy = s.caddy :=
  foldl_keeps (fun t => t.mem = s.mem ∧ t.spad = s.spad ∧ t.caddy = s.caddy) (fun s x => s.onCrewOf (f x) (g x)) (fun _ _ h => h) l s
    ⟨rfl, rfl, rfl⟩

/-- Scratchpads written one after another. -/
theorem foldl_spad_write {β : Type} (at_ : β → Nat) (bs : β → List Byte) (l : List β) (s : State) :
    let t := l.foldl (fun s x => ({ s with spad := s.spad.write (at_ x) (bs x) } : State)) s
    t.spad = l.foldl (fun m x => m.write (at_ x) (bs x)) s.spad ∧ t.mem = s.mem ∧ t.caddy = s.caddy := by
  induction l generalizing s with
  | nil => exact ⟨rfl, rfl, rfl⟩
  | cons x l ih => exact ih _

theorem find?_id {l : List Job} {id : Nat} {j : Job} (found : l.find? (fun x => x.id == id) = some j) : j.id = id := by
  simpa using List.find?_some found

/-- Settles O44, by what the run of the job comes to. -/
theorem copyEvents : Obligations.CopyEvents := by
  intro s t u front
  dsimp only
  refine ⟨fun j id found free notColl notPush first => ⟨fun x ok data => ⟨fun far => ?_, fun near => ?_, ?_⟩,
      fun h o bs t1 ins reads wrote one one' got put => ?_, fun x h o ins ok => ?_, fun h o ins => ?_, fun va k held notSolver => ?_,
      fun code a bad => ?_⟩, fun q e j reserved found free first y ok => ?_, fun id j kind op peers found coll all there same first => ?_⟩
  · rw [exec_copyJobComplete front found free notColl notPush first (fun h o => (data h o).2), State.endJob]
    dsimp only
    have notCard : isCard j.ins = false := by
      unfold isCard
      split
      · next h o card => exact absurd card (data h o).1
      · rfl
    rw [ok, notCard]
    simp only [Bool.false_eq_true, if_false, far, if_true]
  · rw [exec_copyJobComplete front found free notColl notPush first (fun h o => (data h o).2), State.endJob]
    dsimp only
    have notCard : isCard j.ins = false := by
      unfold isCard
      split
      · next h o card => exact absurd card (data h o).1
      · rfl
    rw [ok, notCard]
    simp only [Bool.false_eq_true, if_false, near]
  · obtain ⟨tok, jobs, fcsr, -⟩ := (t.runJob t.crew j).s.crew.jobDone_leaves j (t.runJob t.crew j).flags
    rw [find?_id found] at jobs
    exact ⟨tok, jobs, fcsr⟩
  · have length : j.length = j.c.toNat + o.imm.toNat := by rw [Job.length, ins]; rfl
    have path : j.path = h.path.toNat := by rw [Job.path, ins]; rfl
    exact State.runJob_cpyKr ins reads wrote (by rw [length]; exact one) one' (by rw [length]; exact got) (by rw [length, path]; exact put)
  · rw [exec_copyJobComplete front found free notColl notPush first (by rw [ins]; nofun), State.endJob]
    dsimp only
    rw [ok, ins]
    rfl
  · exact exec_copyJobComplete_sqgo front found free notColl notPush first ins
  · rw [exec_copyJobComplete front found free notColl notPush first notSolver, State.endJob]
    dsimp only
    rw [held]
    dsimp only
    rw [State.pauseJob, held]
  · exact ⟨_, exec_copyJobFail front found free notColl notPush first bad, rfl⟩
  · have run : exec (.dqEntryArrive u q) s = execDqEntryArrive u q s := rfl
    rw [run, execDqEntryArrive, onUid_front front]
    dsimp only
    rw [reserved]
    dsimp only
    rw [found]
    dsimp only
    rw [free, first]
    simp only [Option.isSome_none, Bool.or_self, Bool.false_eq_true, if_false]
    rw [ok]
    dsimp only
    generalize (t.runPush t.crew j).1.s = r
    refine ⟨_, rfl, rfl, fun within => ?_⟩
    have filled : (r.crew.setDq q (fillEntry (t.runPush t.crew j).2 (t.crew.dq.getD q []))).dq.getD q [] =
        fillEntry (t.runPush t.crew j).2 (t.crew.dq.getD q []) := by
      show (r.crew.dq.set q _).getD q [] = _
      simp [List.getD, within]
    have tok : (r.crew.setDq q (fillEntry (t.runPush t.crew j).2 (t.crew.dq.getD q []))).tok = r.crew.tok := rfl
    generalize r.crew.setDq q (fillEntry (t.runPush t.crew j).2 (t.crew.dq.getD q [])) = c1 at filled tok ⊢
    obtain ⟨lowered, -, -, dq⟩ := c1.jobDone_leaves j 0
    by_cases last : c1.awaited j.id = 0
    · rw [if_pos last]
      refine ⟨(congrArg (fun l : List (List DqEntry) => l.getD q []) dq).trans filled, fun _ => lowered.trans ?_⟩
      rw [Crew.tokCount, tok]
      rfl
    · rw [if_neg last]
      exact ⟨filled, fun none_ => absurd none_ last⟩
  · have run : exec (.collectivePerform u id) s = execCollectivePerform u id s := rfl
    rw [run, execCollectivePerform, onUid_front front]
    dsimp only
    rw [found]
    dsimp only
    rw [coll, all]
    dsimp only
    rw [if_neg (Nat.not_lt.mpr there), if_neg (by rw [same]; decide), if_neg (by rw [first]; decide)]
    refine ⟨_, rfl, ?_⟩
    obtain ⟨mem, spad, caddy⟩ := foldl_onCrewOf_mems (β := (Crew × Job) × List Nat × Flags) (fun x => x.1.1.uid) (fun x c => c.jobDone x.1.2 x.2.2)
      (peers.zip ((List.range peers.length).map (fun k => collResult kind j.path j.type op (j.imm % 2 ^ 32) peers.length k
        (peers.map (fun x => unpackElems j.type (j.imm % 2 ^ 32)
          (t.spad.read (x.1.agent * 2 ^ 20 + x.2.a.toNat) (j.imm % 2 ^ 32 * alignOf j.type))))))) _
    obtain ⟨written, mem', caddy'⟩ := foldl_spad_write (β := (Crew × Job) × List Nat × Flags) (fun x => x.1.1.agent * 2 ^ 20 + x.1.2.b.toNat)
      (fun x => x.2.1.flatMap (leBytes (alignOf j.type)))
      (peers.zip ((List.range peers.length).map (fun k => collResult kind j.path j.type op (j.imm % 2 ^ 32) peers.length k
        (peers.map (fun x => unpackElems j.type (j.imm % 2 ^ 32)
          (t.spad.read (x.1.agent * 2 ^ 20 + x.2.a.toNat) (j.imm % 2 ^ 32 * alignOf j.type))))))) t
    exact ⟨mem.trans mem', caddy.trans caddy', spad.trans written⟩

end Sys2Proof.Machine

/-!
PROOFS. Issue and results of a crew (R28, R35, R86, R96, R97, R107, R109, R118, R254).
-/

namespace Sys2Proof.Machine

theorem Crew.gEmpty_wrG_same (c : Crew) (d : GReg) (v : Word) : (c.wrG d v).gEmpty d = false := by
  simp only [Crew.gEmpty, Crew.wrG]
  cases isShared d <;> simp

/-- A scalar result lands in its register, full; every other register stays (R97). -/
theorem Crew.landG_lands (c : Crew) (r : SRes) (v : Word) :
    (c.landG r v).rdG r.d = (if r.d = 0 then 0 else v) ∧ (c.landG r v).gEmpty r.d = false ∧
    (c.landG r v).sres = c.sres.filter (fun x => x.id != r.id) ∧
    (∀ g, g ≠ r.d → (c.landG r v).rdG g = c.rdG g ∧ (c.landG r v).gEmpty g = c.gEmpty g) ∧ (c.landG r v).s = c.s := by
  unfold Crew.landG
  refine ⟨?_, Crew.gEmpty_wrG_same _ _ _, ?_, fun g other => Crew.wrG_sameRegs _ v other, ?_⟩
  · rw [Crew.rdG_wrG, if_pos rfl]
  · unfold Crew.wrG
    split <;> rfl
  · unfold Crew.wrG
    split <;> rfl

/-- A result of a bound crew, as the event that lands it finds it. -/
theorem exec_scalarResultComplete {s t : State} {u id : Nat} {r : SRes} (front : s.front u t)
    (found : t.crew.sres.find? (fun x => x.id == id) = some r) :
    (∀ v, r.kind = .value v → exec (.scalarResultComplete u id) s = .next { t with crew := t.crew.landG r v }) ∧
    (∀ e sx oc sc, r.kind = .load e sx oc sc → e.tr = true →
      ({ t.crew with sres := t.crew.sres.takeWhile (fun x => x.id != id) } : Crew).classPending oc = false →
      exec (.scalarResultComplete u id) s = .next (t.finishLoad r e sx oc sc)) ∧
    (∀ e sx oc sc aop ty x y old, r.kind = .atomic e sx oc sc aop ty x y (some old) →
      ({ t.crew with sres := t.crew.sres.takeWhile (fun x => x.id != id) } : Crew).classPending oc = false →
      exec (.scalarResultComplete u id) s =
        .next (({ t with crew := t.crew.landG r (scalarValue sx e.len old) } : State).outDone t.crew.place.die id)) := by
  have run : exec (.scalarResultComplete u id) s = execScalarResultComplete u id s := rfl
  rw [run, execScalarResultComplete, onUid_front front]
  dsimp only
  rw [found]
  dsimp only
  refine ⟨fun v kind => ?_, fun e sx oc sc kind tr first => ?_, fun e sx oc sc aop ty x y old kind first => ?_⟩
  · rw [kind]
  · rw [kind]
    dsimp only
    rw [if_neg (by simpa using first), if_pos tr]
  · rw [kind]
    dsimp only
    rw [if_neg (by simpa using first)]

/-- A load's bytes land in its register; its request is done and its read counted. -/
def State.loadLands (t : State) (r : SRes) (e : Elem) (sx : Bool) (oc sc : Nat) (bs : List Byte) : State :=
  let c := (t.noteTo t.crew oc sc e.addr e.len (t.readLimit t.crew.uid oc r.id)).landG r (scalarValue sx e.len (leNat bs))
  (({ t with crew := c } : State).outDone t.crew.place.die r.id).readHeat e.addr e.len e.att

/-- A translated load of this package whose class lets it and whose line is there lands (R107, R304). -/
theorem State.finishLoad_lands {t : State} {r : SRes} {e : Elem} {sx : Bool} {oc sc : Nat} {bs : List Byte} (near : inPod e.addr = false)
    (turn : t.readWaits t.crew .s oc r.id (t.forwarded t.crew .s oc e.addr e.len) = false)
    (good : t.blockBad t.crew.agent e.addr e.len e.att = false)
    (there : t.readTo t.crew.agent e.addr e.len e.att (t.readLimit t.crew.uid oc r.id) = some bs) :
    t.finishLoad r e sx oc sc = t.loadLands r e sx oc sc bs := by
  unfold State.finishLoad
  have here : ¬inPod e.addr = true := by
    rw [near]
    decide
  dsimp only
  simp only [if_neg here]
  rw [turn, if_neg (by decide), good, if_neg (by decide), there]
  rfl

/-- Settles O45, event by event. -/
theorem crewEvents : Obligations.CrewEvents := by
  intro s t u id st front
  dsimp only
  have onFront : ∀ go : Crew → Crew, onUid s u (fun s => onCrew s go) = .next { t with crew := go t.crew } := fun go => onUid_front front _
  have heat : ∀ (t : State) (pa n : Nat) (att : Att),
      (t.readHeat pa n att).crew = t.crew ∧ (t.readHeat pa n att).mem = t.mem ∧ (t.readHeat pa n att).spad = t.spad := by
    intro t pa n att
    unfold State.readHeat
    split
    · obtain ⟨crew, -, mem, spad, -⟩ := (t.heat_cachesOnly (pa / (8 * bdbBits att.etype) * (8 * bdbBits att.etype)) (8 * bdbBits att.etype)).fields
      exact ⟨crew, mem, spad⟩
    · split
      · obtain ⟨crew, -, mem, spad, -⟩ := (t.heat_cachesOnly pa n).fields
        exact ⟨crew, mem, spad⟩
      · exact ⟨rfl, rfl, rfl⟩
  refine ⟨onFront _, fun can late => ?_, onFront _, fun running => ?_, fun r v found kind => ?_,
    fun r e sx oc sc bs found kind tr near first turn good there => ?_, fun r e sx oc sc aop ty x y old found kind first => ?_, fun dead => ?_⟩
  · have starves : (t.crew.strm st).starves t.now = true := decide_eq_true late
    have run : exec (.issueStarvationBoost u st) s = execIssueStarvationBoost u st s := rfl
    rw [run, execIssueStarvationBoost, onUid_front front, onCrew, can, starves]
    rfl
  · have run : exec (.trapEntry u) s = execTrapEntry u s := rfl
    rw [run, execTrapEntry, onUid_front front, onCrew, running]
    rfl
  · obtain ⟨value, full, sres, others, s_⟩ := t.crew.landG_lands r v
    exact ⟨_, (exec_scalarResultComplete front found).1 v kind, value, full, sres, others, rfl, rfl, s_⟩
  · obtain ⟨value, full, sres, others, s_⟩ := (t.noteTo t.crew oc sc e.addr e.len (t.readLimit t.crew.uid oc r.id)).landG_lands r
      (scalarValue sx e.len (leNat bs))
    refine ⟨_, (exec_scalarResultComplete front found).2.1 e sx oc sc kind tr first, ?_⟩
    rw [State.finishLoad_lands near turn good there, State.loadLands]
    generalize (t.noteTo t.crew oc sc e.addr e.len (t.readLimit t.crew.uid oc r.id)).landG r (scalarValue sx e.len (leNat bs)) = c at *
    obtain ⟨crew, mem, spad⟩ := heat (({ t with crew := c } : State).outDone t.crew.place.die r.id) e.addr e.len e.att
    rw [crew]
    exact ⟨value, full, sres, others, mem, spad, s_⟩
  · obtain ⟨value, full, sres, others, s_⟩ := t.crew.landG_lands r (scalarValue sx e.len old)
    exact ⟨_, (exec_scalarResultComplete front found).2.2 e sx oc sc aop ty x y old kind first, value, full, sres, others, rfl, rfl, s_⟩
  · have run : exec (.couplingDeadlockDetect u) s = execCouplingDeadlockDetect u s := rfl
    rw [run, execCouplingDeadlockDetect, onUid_front front]
    dsimp only
    rw [onCrew, dead]
    rfl

end Sys2Proof.Machine

/-!
PROOFS. What a store of an engine leaves (R295, R341, R433), and a crew that leaves its slot (R23, R258-R260, R352).
-/

namespace Sys2Proof.Machine

/-! ## An engine's store -/

/-- Only memory and caches differ: every crew, every register of a die and every work list is as before. -/
def State.storesOnly (s t : State) : Prop :=
  t = { s with mem := t.mem, dies := t.dies, lines := t.lines, dir := t.dir, cores := t.cores, msgs := t.msgs, free := t.free,
               nextId := t.nextId } ∧
  ∀ k, (s.die k).sameRegs (t.die k)

theorem State.storesOnly.refl (s : State) : s.storesOnly s := ⟨rfl, fun k => .refl (s.die k)⟩

theorem State.storesOnly.trans {s t u : State} (h : s.storesOnly t) (k : t.storesOnly u) : s.storesOnly u :=
  ⟨by rw [k.1, h.1], fun n => (h.2 n).trans (k.2 n)⟩

theorem State.storesOnly.fields {s t : State} (h : s.storesOnly t) :
    t.crew = s.crew ∧ t.rest = s.rest ∧ t.spad = s.spad ∧ t.caddy = s.caddy ∧ t.writes = s.writes := by
  rw [h.1]
  exact ⟨rfl, rfl, rfl, rfl, rfl⟩

theorem State.cachesOnly.stores {s t : State} (h : s.cachesOnly t) : s.storesOnly t :=
  ⟨by rw [h.1], h.2⟩

theorem State.foldl_storesOnly {β : Type} (f : State → β → State) (hf : ∀ (s : State) (b : β), s.storesOnly (f s b)) (l : List β) (s : State) :
    s.storesOnly (l.foldl f s) :=
  foldl_keeps (fun t => s.storesOnly t) f (fun t b h => h.trans (hf t b)) l s (State.storesOnly.refl s)

theorem State.recordWrite_storesOnly (s : State) (pa : Nat) : s.storesOnly (s.recordWrite pa) := by
  unfold State.recordWrite
  split <;> exact ⟨rfl, fun k => .refl (s.die k)⟩

theorem State.engineWrite_storesOnly (s : State) (pa : Nat) (bs : List Byte) : s.storesOnly (s.engineWrite pa bs) := by
  unfold State.engineWrite
  split
  · exact .refl s
  · have told := (State.foldl_cachesOnly (fun t x => t.engineGrain pa bs x) (fun t x => t.engineGrain_cachesOnly pa bs x)
      (s.dirIn pa bs.length) s).trans (State.tellFar_cachesOnly _ pa bs)
    have recorded := State.foldl_storesOnly (fun t f => t.recordWrite f) (fun t f => t.recordWrite_storesOnly f) (framesOf pa bs.length)
      (((s.dirIn pa bs.length).foldl (fun s x => s.engineGrain pa bs x) s).tellFar pa bs)
    exact ((told.stores.trans recorded).trans ⟨rfl, fun k => .refl (State.die _ k)⟩).trans (State.heat_cachesOnly _ _ _).stores

theorem State.proxyApply_cachesOnly (s : State) (die pa : Nat) (bs : List Byte) : s.cachesOnly (s.proxyApply die pa bs) := by
  unfold State.proxyApply
  exact (State.foldl_cachesOnly _ (fun t x => t.engineGrain_cachesOnly _ _ x) _ s).trans (State.setDie_cachesOnly _ rfl)

/-- A piece of a store to another package. -/
theorem State.remotePiece_cachesOnly (s : State) (die pa : Nat) (bs : List Byte) :
    s.cachesOnly (if bs.isEmpty then s else ((s.proxyFill die pa).proxyApply 0 pa bs).proxyApply 1 pa bs) := by
  split
  · exact .refl s
  · exact ((s.proxyFill_cachesOnly die pa).trans (State.proxyApply_cachesOnly _ _ _ _)).trans (State.proxyApply_cachesOnly _ _ _ _)

theorem State.remoteStore_cachesOnly (s : State) (die pa : Nat) (bs : List Byte) : s.cachesOnly (s.remoteStore die pa bs) := by
  unfold State.remoteStore
  exact (s.remotePiece_cachesOnly die pa _).trans (State.foldl_cachesOnly _ (fun t _ => t.remotePiece_cachesOnly die _ _) _ _)

theorem State.engineRead_cachesOnly (s : State) (pa len : Nat) : s.cachesOnly (s.engineRead pa len) := by
  unfold State.engineRead
  refine State.cachesOnly.trans ?_ (State.heat_cachesOnly _ _ _)
  refine foldl_keeps (fun t => s.cachesOnly t) _ (fun t x h => h.trans ?_) _ _ (State.cachesOnly.refl s)
  split
  · split
    · split
      · exact (t.mapLine_cachesOnly _ x.1 _).trans (State.hold_cachesOnly _ _ _ _ _)
      · exact .refl t
    · exact .refl t
  · exact .refl t

theorem State.engineWalked_cachesOnly (s : State) (die asid va : Nat) : s.cachesOnly (s.engineWalked die asid va) :=
  State.foldl_cachesOnly _ (fun t x => t.engineRead_cachesOnly x 8) _ s

theorem State.engineStore_storesOnly (s : State) (die x : Nat) (bs : List Byte) : s.storesOnly (s.engineStore die .phys x bs) := by
  unfold State.engineStore
  dsimp only
  split
  · exact (s.remoteStore_cachesOnly die x bs).stores
  · exact s.engineWrite_storesOnly x bs

/-- A store by virtual address of the front end, the firmware or a crew's image. -/
theorem State.vaStore_storesOnly {s t : State} {w : Asker} {a : Nat} {bs : List Byte} (h : s.vaStore w a bs = .ok t) : s.storesOnly t := by
  unfold State.vaStore at h
  cases placed : Fetch.all (fun (p : Nat × Nat) => (s.vaPlace w p.1 7).andThen (fun x => .ok (x.1, p)))
      (pagePieces (bs.length / 4096 + 2) a bs.length) with
  | ok l =>
    rw [placed] at h
    simp only [Fetch.andThen] at h
    split at h
    · cases h
    · cases h
      exact State.foldl_storesOnly _ (fun t x => (t.engineWalked_cachesOnly _ _ _).stores.trans (State.engineStore_storesOnly _ _ _ _)) _ s
  | held _ _ | bad _ _ | busy | snoop _ _ =>
    rw [placed] at h
    cases h

/-- What has changed in an image is stored; no crew changes. -/
theorem State.syncImage_storesOnly (s0 s1 : State) (u : Nat) : s1.storesOnly (s0.syncImage s1 u) := by
  unfold State.syncImage
  split
  · split
    · refine State.foldl_storesOnly _ (fun t x => ?_) _ s1
      split
      · next t1 h => exact State.vaStore_storesOnly h
      · exact .refl t
    · exact .refl s1
  · exact .refl s1

end Sys2Proof.Machine

/-!
PROOFS. A crew retires, halts and leaves its slot, and results that arrive later (R23, R258-R260, R352).
-/

namespace Sys2Proof.Machine

/-! ## Crews by name -/

theorem State.findCrew_first {s : State} {u : Nat} (h : s.crew.uid = u) : s.findCrew u = some s.crew := by
  rw [State.findCrew, State.crews, List.find?_cons_of_pos (by simpa using h)]

/-- The crew in reach is the one named. -/
theorem front_uid {s t : State} {u : Nat} (h : s.front u t) : t.crew.uid = u := by
  obtain ⟨found, -⟩ := h
  unfold State.focus at found
  split at found
  · next same =>
    cases found
    exact same
  · split at found
    · next c listed =>
      cases found
      simpa using List.find?_some listed
    · cases found

/-- A crew that stands in the machine can be brought in reach. -/
theorem State.focus_of_findCrew {s : State} {u : Nat} {c : Crew} (h : s.findCrew u = some c) : ∃ t, s.focus u = some t ∧ t.crew = c := by
  unfold State.focus
  by_cases first : s.crew.uid = u
  · rw [State.findCrew_first first] at h
    cases h
    exact ⟨s, if_pos first, rfl⟩
  · rw [State.findCrew, State.crews, List.find?_cons_of_neg (by simpa using first)] at h
    rw [if_neg first, h]
    exact ⟨_, rfl, rfl⟩

/-- A crew changed, its name apart, is found changed. -/
theorem State.findCrew_onCrewOf (s : State) (u : Nat) {f : Crew → Crew} (keep : ∀ c, (f c).uid = c.uid) :
    (s.onCrewOf u f).findCrew u = (s.findCrew u).map f := by
  have one : ∀ c : Crew, (if c.uid = u then f c else c).uid = c.uid := by
    intro c
    split
    · exact keep c
    · rfl
  have all : ∀ l : List Crew, (l.map (fun c => if c.uid = u then f c else c)).find? (fun c => c.uid == u) =
      (l.find? (fun c => c.uid == u)).map f := by
    intro l
    induction l with
    | nil => rfl
    | cons c l ih =>
      rw [List.map_cons, List.find?_cons, List.find?_cons, one]
      by_cases same : c.uid = u
      · simp [same]
      · simp only [beq_eq_false_iff_ne.mpr same, ih]
  exact all s.crews

theorem State.findCrew_storesOnly {s t : State} (h : s.storesOnly t) (u : Nat) : t.findCrew u = s.findCrew u := by
  obtain ⟨crew, rest, -⟩ := h.fields
  rw [State.findCrew, State.crews, crew, rest]
  rfl

/-! ## Results that arrive later -/

/-- A scalar result of a crew that has halted lands as a bound crew's does, and goes to the image (R259). -/
theorem exec_pendingCompletionArrive {s t : State} {u id : Nat} {c : Crew} (found : s.findCrew u = some c)
    (life : c.life = .preempted ∨ c.life = .stopped) (noTable : c.proLoads.any (fun p => p.id == id) = false)
    (noWord : c.vwords.any (fun v => v.id == id) = false) (result : c.sres.any (fun r => r.id == id) = true)
    (lands : exec (.scalarResultComplete u id) (s.asBound u) = .next t) :
    exec (.pendingCompletionArrive u id) s =
      .next (s.syncImage (t.onCrewOf u (fun x => { x with life := c.life, sealed := c.sealed || x.sealable })) u) := by
  have off : ¬(!(c.life == .preempted || c.life == .stopped)) = true := by
    rcases life with h | h <;> rw [h] <;> decide
  have lands' : execScalarResultComplete u id (s.asBound u) = .next t := lands
  have run : exec (.pendingCompletionArrive u id) s = execPendingCompletionArrive u id s := rfl
  rw [run, execPendingCompletionArrive, found]
  dsimp only
  rw [if_neg off, noTable, if_neg (by decide), noWord, if_neg (by decide), if_pos result, lands']

/-- What the image's crew is after a value has landed in it. -/
theorem pendingValue_lands {s : State} {u id : Nat} {c : Crew} {r : SRes} {v : Word} (found : s.findCrew u = some c)
    (life : c.life = .preempted ∨ c.life = .stopped) (noTable : c.proLoads.any (fun p => p.id == id) = false)
    (noWord : c.vwords.any (fun v => v.id == id) = false) (result : c.sres.find? (fun x => x.id == id) = some r) (kind : r.kind = .value v) :
    ∃ (w : State) (x : Crew), exec (.pendingCompletionArrive u id) s = .next w ∧ w.findCrew u = some x ∧ x.life = c.life ∧
      x.rdG r.d = (if r.d = 0 then 0 else v) ∧ x.gEmpty r.d = false ∧ x.sres = c.sres.filter (fun y => y.id != r.id) := by
  have bound : (s.asBound u).findCrew u = some { c with life := .halting } := by
    rw [State.asBound, State.findCrew_onCrewOf s u (f := fun c => { c with life := .halting }) (fun _ => rfl), found]
    rfl
  obtain ⟨t, focused, crew⟩ := State.focus_of_findCrew bound
  have front : (s.asBound u).front u t := ⟨focused, .inr (by rw [crew])⟩
  have listed : t.crew.sres.find? (fun x => x.id == id) = some r := by rw [crew]; exact result
  have lands := (exec_scalarResultComplete front listed).1 v kind
  have any : c.sres.any (fun r => r.id == id) = true := by
    rw [List.any_eq_true]
    exact ⟨r, List.mem_of_find?_eq_some result, List.find?_some (p := fun x : SRes => x.id == id) result⟩
  obtain ⟨value, full, sres, -, -⟩ := t.crew.landG_lands r v
  have name : (t.crew.landG r v).uid = u := front_uid front
  refine ⟨_, { t.crew.landG r v with life := c.life, sealed := c.sealed || (t.crew.landG r v).sealable },
    exec_pendingCompletionArrive found life noTable noWord any lands, ?_, rfl, value, full, sres.trans (by rw [crew])⟩
  rw [State.findCrew_storesOnly (State.syncImage_storesOnly _ _ _),
    State.findCrew_onCrewOf _ u (f := fun x => { x with life := c.life, sealed := c.sealed || x.sealable }) (fun _ => rfl),
    State.findCrew_first (s := { t with crew := t.crew.landG r v }) name]
  rfl

/-! ## Retirement, halting and pre-emption -/

/-- A retired crew is gone, its slot free, its blocks returned (R23). -/
theorem exec_crewRetire {s t : State} {u : Nat} (front : s.front u t) (may : t.mayRetire t.crew = true) :
    ∃ w, exec (.crewRetire u) s = .next w ∧ w.crew = Crew.absent ∧ w.rest = t.rest.filter (fun x => x.uid != u) ∧
      (SMap.get Slot.free (w.core t.crew.agent).slots t.crew.place.slot).state = 0 ∧
      (w.core t.crew.agent).poolFree = (t.core t.crew.agent).poolFree + t.crew.ext ∧ w.mem = t.mem ∧ w.writes = t.writes := by
  have run : exec (.crewRetire u) s = execCrewRetire u s := rfl
  rw [run, execCrewRetire, onUid_front front]
  dsimp only
  rw [if_neg (by rw [may]; decide)]
  refine ⟨_, rfl, if_pos (front_uid front), rfl, ?_, ?_, rfl, rfl⟩
  · show (SMap.get Slot.free ((t.setCore t.crew.agent _).core t.crew.agent).slots t.crew.place.slot).state = 0
    rw [State.core_setCore, if_pos rfl]
    dsimp only
    rw [SMap.get_set, if_pos rfl]
  · show ((t.setCore t.crew.agent _).core t.crew.agent).poolFree = _
    rw [State.core_setCore, if_pos rfl]

/-- Settles O46: the crew's own leaving, PREEMPT, and what arrives later. -/
theorem crewLeaves : Obligations.CrewLeaves := by
  refine ⟨fun s t u front => ⟨exec_crewRetire front, fun may => ?_, ?_⟩, fun s core slot => ⟨fun running => ?_, fun free => ?_⟩,
    fun s u id c r v found life noTable noWord result kind => pendingValue_lands found life noTable noWord result kind,
    fun s t u id c found life noTable noWord result lands => exec_pendingCompletionArrive found life noTable noWord result lands⟩
  · have run : exec (.crewRetire u) s = execCrewRetire u s := rfl
    rw [run, execCrewRetire, onUid_front front]
    dsimp only
    rw [if_pos (by rw [may]; rfl)]
  · intro t1
    dsimp only
    intro may going written
    have run : exec (.preemptHalt u) s = execPreemptHalt u s := rfl
    rw [run, execPreemptHalt, onUid_front front]
    dsimp only
    rw [if_neg (by rw [may]; decide), written, State.settleFetch]
    rw [going]
    rfl
  · have run : exec (.preempt core slot) s = execPreempt core slot s := rfl
    rw [run, execPreempt]
    dsimp only
    rw [running]
    refine ⟨_, rfl, ?_, rfl, fun c found life => ?_⟩
    · show (SMap.get Slot.free ((s.setCore core _).core core).slots slot).state = 3
      rw [State.core_setCore, if_pos rfl]
      dsimp only
      rw [SMap.get_set, if_pos rfl]
    · have same : ∀ c : Crew, (if c.life == .running then { c with life := .halting } else c).uid = c.uid := by
        intro c
        split <;> rfl
      refine (State.findCrew_onCrewOf _ _ same).trans ?_
      have kept : ∀ x, (s.setCore core x).findCrew (SMap.get Slot.free (s.core core).slots slot).uid = some c := fun _ => found
      rw [kept, Option.map_some, life]
      rfl
  · have run : exec (.preempt core slot) s = execPreempt core slot s := rfl
    rw [run, execPreempt]
    dsimp only
    rw [free]
    rfl

end Sys2Proof.Machine

/-!
PROOFS. Walks, fault records and the side log (R333-R336), and the controller's descriptors (R337-R342).
-/

namespace Sys2Proof.Machine

/-! ## Fault records -/

/-- A record handed to a die's queue stands at its end, and that die's other registers are as before. -/
theorem State.die_tell (s : State) (die type : Nat) (body : List Byte) (k : Nat) :
    (s.tell die type body).die k = if die = k then { s.die die with events := (s.die die).events ++ [⟨type, body⟩] } else s.die k :=
  s.die_setDie die k _

theorem State.postFault_posted {s : State} {die asid va kind : Nat} (posted : (s.faultOut die asid va kind).isSome = true)
    (reason : Nat) (fabric : Bool) (agent pa val : Nat) : s.postFault die asid va kind reason fabric agent pa val = s :=
  if_pos posted

/-- A fault that no outstanding one stands for posts its record and is outstanding (R335). -/
theorem State.postFault_posts {s : State} {die asid va kind : Nat} (fresh : s.faultOut die asid va kind = none)
    (reason : Nat) (fabric : Bool) (agent pa val : Nat) :
    let w := s.postFault die asid va kind reason fabric agent pa val
    (w.die die).events = (s.die die).events ++ [⟨1, faultBody asid kind reason fabric agent va pa val⟩] ∧
      (w.faultOut die asid va kind).isSome = true ∧ w.mem = s.mem ∧ w.crew = s.crew := by
  dsimp only [State.postFault]
  rw [if_neg (by rw [fresh]; decide)]
  refine ⟨?_, ?_, rfl, rfl⟩
  · rw [State.die_tell, if_pos rfl, State.die_setDie, if_pos rfl]
  · unfold State.faultOut
    rw [State.die_tell, if_pos rfl, State.die_setDie, if_pos rfl]
    simp

/-! ## Walks -/

theorem exec_walk_entry {s : State} {core asid va kind : Nat} {e : TlbEntry} (miss : s.translate core asid va kind = .miss)
    (found : s.coreWalk core asid va = .entry e) :
    exec (.translationWalk core asid va kind) s = .next ((s.walked core asid va).fillTlb core e) := by
  have run : exec (.translationWalk core asid va kind) s = execTranslationWalk core asid va kind s := rfl
  rw [run, execTranslationWalk, miss]
  dsimp only
  rw [found]

theorem exec_walk_recoverable {s : State} {core asid va kind r pa v : Nat} (miss : s.translate core asid va kind = .miss)
    (absent : s.coreWalk core asid va = .fail r false pa v) :
    exec (.translationWalk core asid va kind) s =
      .next ((s.walked core asid va).postFault (agentDie core) asid va kind r false core pa v) := by
  have run : exec (.translationWalk core asid va kind) s = execTranslationWalk core asid va kind s := rfl
  rw [run, execTranslationWalk, miss]
  dsimp only
  rw [absent]

theorem exec_walk_fatal {s : State} {core asid va kind r pa v : Nat} (miss : s.translate core asid va kind = .miss)
    (absent : s.coreWalk core asid va = .fail r true pa v) :
    exec (.translationWalk core asid va kind) s = .next ((s.walked core asid va).failHeld core asid va kind r) := by
  have run : exec (.translationWalk core asid va kind) s = execTranslationWalk core asid va kind s := rfl
  rw [run, execTranslationWalk, miss]
  dsimp only
  rw [absent]

theorem exec_walk_denied {s : State} {core asid va kind r : Nat} (denied : s.translate core asid va kind = .denied r) :
    exec (.translationWalk core asid va kind) s = .next (s.postFault (agentDie core) asid va kind r false core
      (s.lastEntry (agentDie core) asid va).1 (s.lastEntry (agentDie core) asid va).2) := by
  have run : exec (.translationWalk core asid va kind) s = execTranslationWalk core asid va kind s := rfl
  rw [run, execTranslationWalk, denied]

theorem exec_walk_now {s : State} {core asid va kind r : Nat} (now : s.translate core asid va kind = .now r) :
    exec (.translationWalk core asid va kind) s = .next (s.failHeld core asid va kind r) := by
  have run : exec (.translationWalk core asid va kind) s = execTranslationWalk core asid va kind s := rfl
  rw [run, execTranslationWalk, now]

/-! ## The side log -/

theorem State.core_sendOut (s : State) (die id uid asid pa va : Nat) (store : Bool) (k : Nat) :
    (s.sendOut die id uid asid pa va store).core k = s.core k := by
  unfold State.sendOut
  split <;> rfl

/-- A released entry that nothing of its stream and class precedes goes to the core's buffer (R336). -/
theorem exec_sideLogReplay {s : State} {core id pa : Nat} {e : LogEntry} {att : Att}
    (found : (s.core core).log.find? (fun e => e.w.id == id) = some e) (released : e.released = true)
    (first : ∀ x ∈ (s.core core).log, x.w.uid = e.w.uid → x.w.strm = e.w.strm → x.w.oc = e.w.oc → id ≤ x.w.id)
    (mapped : s.translate core e.w.asid e.w.va e.w.kind = .ok pa att) :
    exec (.sideLogReplay core id) s = .next (((s.unlog core id).buffer { e.w with pa := pa, att := att }).sendOut (agentDie core)
      e.w.word e.w.uid e.w.asid pa e.w.va true) := by
  have run : exec (.sideLogReplay core id) s = execSideLogReplay core id s := rfl
  have none_earlier : (s.core core).log.any
      (fun x => x.w.uid == e.w.uid && x.w.strm == e.w.strm && x.w.oc == e.w.oc && decide (x.w.id < id)) = false := by
    rw [List.any_eq_false]
    intro x hx earlier
    simp only [Bool.and_eq_true, beq_iff_eq, decide_eq_true_eq] at earlier
    obtain ⟨⟨⟨uid, strm⟩, oc⟩, lt⟩ := earlier
    have := first x hx uid strm oc
    omega
  rw [run]
  simp only [execSideLogReplay, found, none_earlier, released, mapped, Bool.not_true, Bool.or_self, Bool.false_eq_true, if_false]

/-- Settles O47: a walk has one outcome per case of the translation and of what it reads, and a replay takes the log's first entry. -/
theorem translation : Obligations.Translation := by
  unfold Obligations.Translation
  intro s core asid va kind
  dsimp only
  refine ⟨fun miss e found => exec_walk_entry miss found, fun miss r pa v absent => ⟨exec_walk_recoverable miss absent, ?_, ?_⟩,
    fun miss r pa v absent => exec_walk_fatal miss absent, fun r denied => exec_walk_denied denied, fun r now => exec_walk_now now, ?_⟩
  · intro posted
    rw [exec_walk_recoverable miss absent, State.postFault_posted posted]
  · intro fresh
    exact ⟨_, exec_walk_recoverable miss absent, State.postFault_posts fresh r false core pa v⟩
  · intro id e pa att found released first mapped
    refine ⟨_, exec_sideLogReplay found released first mapped, ?_, ?_, ?_⟩
    · obtain ⟨_, _, _, _, writes, _⟩ := State.sendOut_keeps ((s.unlog core id).buffer { e.w with pa := pa, att := att })
        (agentDie core) e.w.word e.w.uid e.w.asid pa e.w.va true
      exact writes
    · rw [State.core_sendOut]
      have kept : ((s.unlog core id).core core).log = (s.core core).log.filter (fun e => e.w.id != id) := by
        rw [State.unlog, State.core_setCore, if_pos rfl]
      exact kept
    · obtain ⟨_, mem, _⟩ := State.sendOut_keeps ((s.unlog core id).buffer { e.w with pa := pa, att := att })
        (agentDie core) e.w.word e.w.uid e.w.asid pa e.w.va true
      exact mem

end Sys2Proof.Machine

/-!
PROOFS. The controller's descriptors (R337-R342).
-/

namespace Sys2Proof.Machine

/-! ## A descriptor taken -/

/-- A descriptor done: what stands in the die's registers and its queue, and the memory as before (R338). -/
theorem State.ctlDone_leaves (s : State) (die : Nat) (c : CtlCmd) (status n : Nat) :
    let r := s.ctlDone die c status n
    (r.die die).tcRun = none ∧ (r.die die).tcHead = BitVec.ofNat 16 (((s.die die).tcHead.toNat + 1) % (s.die die).ctlSlots) ∧
      (r.die die).events = (s.die die).events ++ [⟨2, ctlBody c status n⟩] ∧ r.mem = s.mem := by
  dsimp only [State.ctlDone]
  rw [State.die_tell, if_pos rfl, State.die_setDie, if_pos rfl]
  exact ⟨rfl, rfl, rfl, rfl⟩

/-- The ASIDs retiring are as before a descriptor ends. -/
theorem State.ctlDone_retiring (s : State) (die : Nat) (c : CtlCmd) (status n k : Nat) :
    ((s.ctlDone die c status n).die k).retiring = (s.die k).retiring := by
  dsimp only [State.ctlDone]
  rw [State.die_tell, State.die_setDie, State.die_setDie, if_pos rfl]
  by_cases h : die = k
  · rw [if_pos h, h]
  · rw [if_neg h, if_neg h]

/-- A die that may take a descriptor runs none (R338). -/
theorem State.tcRun_of_ctlNext {s : State} {die : Nat} {x : CtlCmd × Bool} (next : s.ctlNext die = some x) : (s.die die).tcRun = none := by
  by_contra running
  have busy : (s.die die).tcRun.isSome = true := Option.isSome_iff_ne_none.2 running
  unfold State.ctlNext at next
  dsimp only at next
  rw [busy, Bool.true_or, Bool.true_or, if_pos rfl] at next
  cases next

/-- A die that may take a descriptor has none that waits for its end. -/
theorem State.ctlWaits_of_ctlNext {s : State} {die : Nat} {x : CtlCmd × Bool} (next : s.ctlNext die = some x) (op : Nat) :
    s.ctlWaits die op = none := by
  unfold State.ctlWaits
  rw [State.tcRun_of_ctlNext next]
  split <;> rfl

theorem State.ctl_refused {s : State} {die : Nat} {c : CtlCmd} (next : s.ctlNext die = some (c, false)) {mine : CtlCmd → Bool}
    (own : mine c = true) (go : CtlCmd → Out) : s.ctl die mine go = .next (s.ctlDone die c 1 0) := by
  unfold State.ctl
  rw [next]
  dsimp only
  rw [own]
  rfl

theorem State.ctl_good {s : State} {die : Nat} {c : CtlCmd} (next : s.ctlNext die = some (c, true)) {mine : CtlCmd → Bool}
    (own : mine c = true) (go : CtlCmd → Out) : s.ctl die mine go = go c := by
  unfold State.ctl
  rw [next]
  dsimp only
  rw [own]
  rfl

/-! ## What each op does with a descriptor that the die may take -/

section
variable {s : State} {die : Nat} {c : CtlCmd} {good : Bool} (next : s.ctlNext die = some (c, good))
include next

theorem exec_inval_takes : exec (.inval die) s = s.ctl die (fun c => c.op == 1 || c.op == 0 || decide (6 < c.op)) (fun c =>
    ((s.dropTlb (invalHits c) (ptrHits c)).ctlActs die c (s.allTlb.filter (invalHits c))).invalEnds die c) := by
  have run : exec (.inval die) s = execInval die s := rfl
  rw [run, execInval, State.ctlWaits_of_ctlNext next]

theorem exec_resume_takes : exec (.resume die) s = s.ctl die (fun c => c.op == 2 && c.flags % 2 == 0) (fun c =>
    ((s.resumePage c.asid (c.va / 4096)).ctlActs die c []).resumeEnds die c c.onePage 4096) := by
  have run : exec (.resume die) s = execResume die s := rfl
  rw [run, execResume, State.ctlWaits_of_ctlNext next]
  rfl

theorem exec_fill_takes : exec (.fill die) s = s.ctl die (fun c => c.op == 3) (fun c =>
    if !s.holdsLeaf die c then .next (s.ctlDone die c 5 0) else .next (s.setDie die { s.die die with tcRun := some c })) := by
  have run : exec (.fill die) s = execFill die s := rfl
  rw [run, execFill, State.ctlWaits_of_ctlNext next]

theorem exec_migrate_takes : exec (.migrate die) s = s.ctl die (fun c => c.op == 6) (fun c =>
    if !s.holdsLeaf die c then .next (s.ctlDone die c 5 0)
    else if s.migrating die (pteFrame (s.pte c.a)) (pteFrame c.b) c.page.2 then .next (s.ctlDone die c 3 0)
    else (s.migrateBegins die c).migrateEnds die c) := by
  have run : exec (.migrate die) s = execMigrate die s := rfl
  rw [run, execMigrate, State.ctlWaits_of_ctlNext next]

/-- RETIRE's two ends of its first turn (R340). -/
theorem exec_retire_takes : ∃ go, exec (.retire die) s = s.ctl die (fun c => c.op == 4) go ∧
    ∀ c, go c = if s.asidInUse c.asid then .next (s.ctlDone die c 2 0)
      else
        let s1 := (List.range 2).foldl (fun s d => s.setDie d { s.die d with retiring := (s.die d).retiring ++ [c.asid] }) s
        let s2 := s1.dropTlb (fun e => !e.global && e.asid == c.asid) (fun e => e.asid == c.asid)
        .next (s2.setDie die { s2.die die with tcRun := some c }) := by
  have run : exec (.retire die) s = execRetire die s := rfl
  rw [run, execRetire, State.tcRun_of_ctlNext next]
  exact ⟨_, rfl, fun _ => rfl⟩

end

/-- A descriptor that breaks a rule on its values is refused by the op it names (R338). -/
theorem exec_ctl_refused {s : State} {die : Nat} {c : CtlCmd} (next : s.ctlNext die = some (c, false)) :
    (c.op = 1 → exec (.inval die) s = .next (s.ctlDone die c 1 0)) ∧ (c.op = 3 → exec (.fill die) s = .next (s.ctlDone die c 1 0)) ∧
      (c.op = 4 → exec (.retire die) s = .next (s.ctlDone die c 1 0)) ∧ (c.op = 5 → exec (.harvest die) s = .next (s.ctlDone die c 1 0)) ∧
      (c.op = 6 → exec (.migrate die) s = .next (s.ctlDone die c 1 0)) := by
  refine ⟨fun op => ?_, fun op => ?_, fun op => ?_, fun op => ?_, fun op => ?_⟩
  · rw [exec_inval_takes next]
    exact State.ctl_refused next (by rw [op]; rfl) _
  · rw [exec_fill_takes next]
    exact State.ctl_refused next (by rw [op]; rfl) _
  · obtain ⟨go, run, _⟩ := exec_retire_takes next
    rw [run]
    exact State.ctl_refused next (by rw [op]; rfl) _
  · exact State.ctl_refused (mine := fun c => c.op == 5) next (by rw [op]; rfl) _
  · rw [exec_migrate_takes next]
    exact State.ctl_refused next (by rw [op]; rfl) _

/-- A RESUME, fatal or not, that breaks a rule on its values is refused (R338). -/
theorem exec_resume_refused {s : State} {die : Nat} {c : CtlCmd} (next : s.ctlNext die = some (c, false)) (op : c.op = 2) :
    exec (if c.flags % 2 = 0 then .resume die else .resumeFatal die) s = .next (s.ctlDone die c 1 0) := by
  rcases Nat.mod_two_eq_zero_or_one c.flags with flag | flag
  · rw [if_pos flag, exec_resume_takes next]
    exact State.ctl_refused next (by rw [op, flag]; rfl) _
  · rw [if_neg (by omega)]
    exact State.ctl_refused (mine := fun c => c.op == 2 && c.flags % 2 == 1) next (by rw [op, flag]; rfl) _

/-! ## INVAL -/

/-- Dropping TLB entries changes the cores alone. -/
theorem State.dropTlb_coresOnly (s : State) (p : TlbEntry → Bool) (q : PtrEntry → Bool) :
    s.dropTlb p q = { s with cores := (s.dropTlb p q).cores } := by
  have one : ∀ (t : State) (k : Nat) (x : Core), t = { s with cores := t.cores } →
      t.setCore k x = { s with cores := (t.setCore k x).cores } := by
    intro t k x only
    rw [only]
    rfl
  unfold State.dropTlb
  exact foldl_keeps (fun t => t = { s with cores := t.cores }) _ (fun t k only => one t k _ only) _ s rfl

theorem State.dropTlb_nextId (s : State) (p : TlbEntry → Bool) (q : PtrEntry → Bool) : (s.dropTlb p q).nextId = s.nextId := by
  rw [s.dropTlb_coresOnly p q]

theorem State.dropTlb_mem (s : State) (p : TlbEntry → Bool) (q : PtrEntry → Bool) : (s.dropTlb p q).mem = s.mem := by
  rw [s.dropTlb_coresOnly p q]

theorem State.dropTlb_die (s : State) (p : TlbEntry → Bool) (q : PtrEntry → Bool) (k : Nat) : (s.dropTlb p q).die k = s.die k := by
  rw [s.dropTlb_coresOnly p q]
  rfl

/-- A descriptor that acts keeps its dropped entries and the mark of the moment. -/
theorem State.die_ctlActs (s : State) (die : Nat) (c : CtlCmd) (drop : List TlbEntry) :
    ((s.ctlActs die c drop).die die).tcDrop = drop ∧ ((s.ctlActs die c drop).die die).tcMark = s.nextId := by
  rw [State.ctlActs, State.die_setDie, if_pos rfl]
  exact ⟨rfl, rfl⟩

theorem State.invalEnds_cases (s : State) (die : Nat) (c : CtlCmd) :
    let on := s.underWay c.asid c.va (c.count * 4096) (s.die die).tcDrop (s.die die).tcMark
    (on = false → s.invalEnds die c = .next (s.ctlDone die c 0 0)) ∧ (on = true → s.invalEnds die c = .next s) := by
  refine ⟨fun ended => ?_, fun on => ?_⟩
  · exact if_neg (by rw [ended]; decide)
  · exact if_pos on

theorem State.resumeEnds_cases (s : State) (die : Nat) (c : CtlCmd) (va len : Nat) :
    (s.replaying c.asid va len = false → s.resumeEnds die c va len = .next (s.ctlDone die c 0 0)) ∧
      (s.replaying c.asid va len = true → s.resumeEnds die c va len = .next s) := by
  refine ⟨fun ended => ?_, fun on => ?_⟩
  · exact if_neg (by rw [ended]; decide)
  · exact if_pos on

theorem exec_inval_acts {s : State} {die : Nat} {c : CtlCmd} (next : s.ctlNext die = some (c, true)) (op : c.op = 1) :
    let drop := s.allTlb.filter (invalHits c)
    let t := (s.dropTlb (invalHits c) (ptrHits c)).ctlActs die c drop
    (t.underWay c.asid c.va (c.count * 4096) drop s.nextId = false → exec (.inval die) s = .next (t.ctlDone die c 0 0)) ∧
      (t.underWay c.asid c.va (c.count * 4096) drop s.nextId = true → exec (.inval die) s = .next t) := by
  dsimp only
  rw [exec_inval_takes next, State.ctl_good next (by rw [op]; rfl)]
  have ends := State.invalEnds_cases ((s.dropTlb (invalHits c) (ptrHits c)).ctlActs die c (s.allTlb.filter (invalHits c))) die c
  obtain ⟨drop, mark⟩ := State.die_ctlActs (s.dropTlb (invalHits c) (ptrHits c)) die c (s.allTlb.filter (invalHits c))
  dsimp only at ends
  rw [drop, mark, State.dropTlb_nextId] at ends
  exact ends

/-- An INVAL that waits ends once no access it covers is under way (R338). -/
theorem exec_inval_waits {s : State} {die : Nat} {c : CtlCmd} (waits : s.ctlWaits die 1 = some c) :
    exec (.inval die) s = s.invalEnds die c := by
  have run : exec (.inval die) s = execInval die s := rfl
  rw [run, execInval, waits]

/-! ## RESUME and FILL -/

theorem exec_resume_acts {s : State} {die : Nat} {c : CtlCmd} (next : s.ctlNext die = some (c, true)) (op : c.op = 2)
    (flag : c.flags % 2 = 0) :
    exec (.resume die) s = ((s.resumePage c.asid (c.va / 4096)).ctlActs die c []).resumeEnds die c c.onePage 4096 := by
  rw [exec_resume_takes next, State.ctl_good next (by rw [op, flag]; rfl)]

theorem exec_resumeFatal_acts {s : State} {die : Nat} {c : CtlCmd} (next : s.ctlNext die = some (c, true)) (op : c.op = 2)
    (flag : c.flags % 2 = 1) : exec (.resumeFatal die) s = .next ((s.fatalPage c.asid (c.va / 4096)).ctlDone die c 0 0) :=
  State.ctl_good (mine := fun c => c.op == 2 && c.flags % 2 == 1) next (by rw [op, flag]; rfl) _

theorem exec_fill_acts {s : State} {die : Nat} {c : CtlCmd} (next : s.ctlNext die = some (c, true)) (op : c.op = 3) :
    (s.holdsLeaf die c = true → exec (.fill die) s = .next (s.setDie die { s.die die with tcRun := some c })) ∧
      (s.holdsLeaf die c = false → exec (.fill die) s = .next (s.ctlDone die c 5 0)) := by
  rw [exec_fill_takes next, State.ctl_good next (by rw [op]; rfl)]
  refine ⟨fun leaf => ?_, fun leaf => ?_⟩
  · rw [leaf]; rfl
  · rw [leaf]; rfl

/-- A failed read of the storage port ends its FILL (R338). -/
theorem exec_nvme_fails {s : State} {die : Nat} {c : CtlCmd} {bytes : List Byte} (running : (s.die die).tcRun = some c)
    (waiting : (s.die die).tcActed = false) (op : c.op = 3) :
    exec (.nvmeReadComplete die false bytes) s = .next (s.ctlDone die c 4 0) := by
  have run : exec (.nvmeReadComplete die false bytes) s = execNvmeReadComplete die false bytes s := rfl
  rw [run, execNvmeReadComplete, running]
  dsimp only
  rw [waiting, op]
  rfl

/-- A read of the storage port writes the frame and the leaf, and releases the page (R338, R339). -/
theorem exec_nvme_fills {s : State} {die : Nat} {c : CtlCmd} {bytes : List Byte} (running : (s.die die).tcRun = some c)
    (waiting : (s.die die).tcActed = false) (op : c.op = 3) (len : bytes.length = c.page.2)
    (frame : s.homesFree (pteFrame c.b) c.page.2 = true) (leaf : s.homesFree c.a 8 = true) :
    exec (.nvmeReadComplete die true bytes) s =
      ((((s.engineWrite (pteFrame c.b) bytes).engineWrite c.a (leBytes 8 c.b)).resumeAll c.asid c.page.1 c.page.2).ctlActs die c
        []).resumeEnds die c c.page.1 c.page.2 := by
  have run : exec (.nvmeReadComplete die true bytes) s = execNvmeReadComplete die true bytes s := rfl
  rw [run, execNvmeReadComplete, running]
  dsimp only
  rw [waiting, op, if_neg (by decide), if_neg (by rw [len]; simp), if_neg (by rw [frame, leaf]; decide)]

/-! ## RETIRE -/

/-- A list of ASIDs retiring changed on both dies. -/
def State.mapRetiring (s : State) (f : List Nat → List Nat) : State :=
  (List.range 2).foldl (fun s d => s.setDie d { s.die d with retiring := f (s.die d).retiring }) s

theorem State.die_mapRetiring (s : State) (f : List Nat → List Nat) {d : Nat} (small : d < 2) :
    ((s.mapRetiring f).die d).retiring = f (s.die d).retiring := by
  have two : s.mapRetiring f = (s.setDie 0 { s.die 0 with retiring := f (s.die 0).retiring }).setDie 1
      { (s.setDie 0 { s.die 0 with retiring := f (s.die 0).retiring }).die 1 with
        retiring := f ((s.setDie 0 { s.die 0 with retiring := f (s.die 0).retiring }).die 1).retiring } := rfl
  obtain rfl | rfl : d = 0 ∨ d = 1 := by omega
  · rw [two]
    simp
  · rw [two]
    simp

/-- RETIRE's first turn (R340): the ASID is retiring on both dies. -/
theorem exec_retire_marks {s : State} {die : Nat} {c : CtlCmd} (next : s.ctlNext die = some (c, true)) (op : c.op = 4)
    (unused : s.asidInUse c.asid = false) : ∃ w, exec (.retire die) s = .next w ∧ (w.die die).tcRun = some c ∧ w.mem = s.mem ∧
      ∀ d, d < 2 → c.asid ∈ (w.die d).retiring := by
  obtain ⟨go, run, does⟩ := exec_retire_takes next
  rw [run, State.ctl_good next (by rw [op]; rfl), does, if_neg (by rw [unused]; decide)]
  have marked : (List.range 2).foldl (fun s d => s.setDie d { s.die d with retiring := (s.die d).retiring ++ [c.asid] }) s =
      s.mapRetiring (· ++ [c.asid]) := rfl
  dsimp only
  rw [marked]
  refine ⟨_, rfl, ?_, ?_, fun d small => ?_⟩
  · rw [State.die_setDie, if_pos rfl]
  · rw [State.setDie_mem, State.dropTlb_mem]
    rfl
  · have here : c.asid ∈ ((s.mapRetiring (· ++ [c.asid])).die d).retiring := by
      rw [State.die_mapRetiring s _ small]
      exact List.mem_append_right _ (List.mem_singleton.2 rfl)
    rw [State.die_setDie, State.dropTlb_die, State.dropTlb_die]
    by_cases h : die = d
    · rw [if_pos h, h]
      exact here
    · rw [if_neg h]
      exact here

/-- RETIRE's last turn (R340): the ASID is retiring no more. -/
theorem exec_retire_ends {s : State} {die : Nat} {c : CtlCmd} (running : (s.die die).tcRun = some c) (op : c.op = 4)
    (free : s.homesFree ((s.die die).atab.toNat + 8 * c.asid) 8 = true) : ∃ w, exec (.retire die) s = .next w ∧
      (w.die die).tcRun = none ∧ ∀ d, d < 2 → c.asid ∉ (w.die d).retiring := by
  have run : exec (.retire die) s = execRetire die s := rfl
  rw [run, execRetire, running]
  dsimp only
  rw [if_neg (by rw [op]; decide), if_neg (by rw [free]; decide)]
  refine ⟨_, rfl, ?_, fun d small => ?_⟩
  · obtain ⟨ended, _⟩ := State.ctlDone_leaves
      ((List.range 2).foldl (fun s d => s.setDie d { s.die d with retiring := (s.die d).retiring.filter (· != c.asid) })
      (s.engineWrite ((s.die die).atab.toNat + 8 * c.asid) (leBytes 8 (s.pte ((s.die die).atab.toNat + 8 * c.asid) / 2 * 2)))) die c 0 0
    exact ended
  · rw [State.ctlDone_retiring]
    have gone := State.die_mapRetiring
      (s.engineWrite ((s.die die).atab.toNat + 8 * c.asid) (leBytes 8 (s.pte ((s.die die).atab.toNat + 8 * c.asid) / 2 * 2)))
      (fun l => l.filter (· != c.asid)) small
    intro here
    have : c.asid ∈ ((s.engineWrite ((s.die die).atab.toNat + 8 * c.asid)
        (leBytes 8 (s.pte ((s.die die).atab.toNat + 8 * c.asid) / 2 * 2))).die d).retiring.filter (· != c.asid) := gone ▸ here
    simp at this

/-! ## HARVEST and MIGRATE -/

theorem exec_harvest_acts {s : State} {die : Nat} {c : CtlCmd} (next : s.ctlNext die = some (c, true)) (op : c.op = 5)
    (free : s.harvestFree die c.asid (c.va + c.count * 4096) c.count c.va = true) :
    let r := s.harvestFrom die c.asid (c.va + c.count * 4096) c.count c.va 0
    exec (.harvest die) s = .next (r.2.ctlDone die c 0 r.1) := by
  have run : exec (.harvest die) s = execHarvest die s := rfl
  dsimp only
  rw [run, execHarvest, State.ctl_good next (by rw [op]; rfl), if_neg (by rw [free]; decide)]

/-- A migration's mark leaves the sharers of every region. -/
theorem State.sharersIn_migrateBegins (s : State) (die : Nat) (c : CtlCmd) (pa len : Nat) :
    (s.migrateBegins die c).sharersIn pa len = s.sharersIn pa len := by
  have regions : ∀ d, ((s.migrateBegins die c).die d).regions = (s.die d).regions := by
    intro d
    rw [State.migrateBegins, State.die_setDie]
    by_cases h : die = d
    · rw [if_pos h, h]
    · rw [if_neg h]
  unfold State.sharersIn
  simp only [regions]

/-- A page migrated once nothing holds it (R342): the frame copied, the leaf stored, the old translations dropped. -/
def State.migrated (s : State) (die : Nat) (c : CtlCmd) (old : Nat) : State :=
  let t := s.evict old c.page.2
  let t1 := (t.engineWrite (pteFrame c.b) (t.mem.read old c.page.2)).engineWrite c.a (leBytes 8 c.b)
  let t2 := t1.dropTlb
    (fun e => decide (e.va < c.page.1 + c.page.2) && decide (c.page.1 < e.va + e.size) && (e.global || e.asid == c.asid))
    (fun e => e.asid == c.asid && e.meets c.page.1 c.page.2)
  (t2.moved die old c.page.2).ctlDone die c 0 0

theorem State.migrateEnds_free {s : State} {die : Nat} {c : CtlCmd} (old : s.homesFree (s.die die).tcMark c.page.2 = true)
    (new : s.homesFree (pteFrame c.b) c.page.2 = true) (leaf : s.homesFree c.a 8 = true)
    (alone : s.sharersIn (s.die die).tcMark c.page.2 = []) : s.migrateEnds die c = .next (s.migrated die c (s.die die).tcMark) := by
  have cut : s.migrateEnds die c =
      if !s.homesFree (s.die die).tcMark c.page.2 || !s.homesFree (pteFrame c.b) c.page.2 || !s.homesFree c.a 8 then .next s
      else if !(s.sharersIn (s.die die).tcMark c.page.2).isEmpty then .next (s.recallSharers (s.die die).tcMark c.page.2)
      else .next (s.migrated die c (s.die die).tcMark) := rfl
  rw [cut, if_neg (by rw [old, new, leaf]; decide), if_neg (by rw [alone]; decide)]

/-- A MIGRATE whose leaf stands, whose frames meet no other and that nothing holds ends at once (R342). -/
theorem exec_migrate_acts {s : State} {die : Nat} {c : CtlCmd} (next : s.ctlNext die = some (c, true)) (op : c.op = 6)
    (leaf : s.holdsLeaf die c = true) (apart : s.migrating die (pteFrame (s.pte c.a)) (pteFrame c.b) c.page.2 = false)
    (old : s.homesFree (pteFrame (s.pte c.a)) c.page.2 = true) (new : s.homesFree (pteFrame c.b) c.page.2 = true)
    (entry : s.homesFree c.a 8 = true) (alone : s.sharersIn (pteFrame (s.pte c.a)) c.page.2 = []) :
    exec (.migrate die) s = .next ((s.migrateBegins die c).migrated die c (pteFrame (s.pte c.a))) := by
  have mark : ((s.migrateBegins die c).die die).tcMark = pteFrame (s.pte c.a) := by
    rw [State.migrateBegins, State.die_setDie, if_pos rfl]
  rw [exec_migrate_takes next, State.ctl_good next (by rw [op]; rfl), if_neg (by rw [leaf]; decide), if_neg (by rw [apart]; decide),
    State.migrateEnds_free (s := s.migrateBegins die c) (die := die) (by rw [mark]; exact old) new entry
      (by rw [mark, State.sharersIn_migrateBegins]; exact alone), mark]

theorem exec_migrate_refuses {s : State} {die : Nat} {c : CtlCmd} (next : s.ctlNext die = some (c, true)) (op : c.op = 6) :
    (s.holdsLeaf die c = false → exec (.migrate die) s = .next (s.ctlDone die c 5 0)) ∧
      (s.holdsLeaf die c = true → s.migrating die (pteFrame (s.pte c.a)) (pteFrame c.b) c.page.2 = true →
        exec (.migrate die) s = .next (s.ctlDone die c 3 0)) := by
  rw [exec_migrate_takes next, State.ctl_good next (by rw [op]; rfl)]
  refine ⟨fun leaf => ?_, fun leaf meets => ?_⟩
  · rw [if_pos (by rw [leaf]; rfl)]
  · rw [if_neg (by rw [leaf]; decide), if_pos meets]

/-! ## The statement -/

/-- What a good descriptor's op does (R338-R342), RETIRE apart. -/
theorem exec_retire_acts {s : State} {die : Nat} {c : CtlCmd} (next : s.ctlNext die = some (c, true)) (op : c.op = 4)
    (used : s.asidInUse c.asid = true) : exec (.retire die) s = .next (s.ctlDone die c 2 0) := by
  obtain ⟨go, run, does⟩ := exec_retire_takes next
  rw [run, State.ctl_good next (by rw [op]; rfl), does, if_pos used]

/-- Settles O48: each descriptor's op, taken or waiting. -/
theorem controller : Obligations.Controller := by
  unfold Obligations.Controller
  intro s die
  refine ⟨fun c status n => s.ctlDone_leaves die c status n, fun c next x hx op => ?_, fun c next op => exec_resume_refused next op,
    fun c next => ?_, fun c waits => ?_, fun c bytes running waiting => ?_⟩
  · obtain ⟨inval, fill, retire, harvest, migrate⟩ := exec_ctl_refused next
    simp only [List.mem_cons, List.not_mem_nil, or_false] at hx
    obtain rfl | rfl | rfl | rfl | rfl := hx
    · exact inval op
    · exact fill op
    · exact retire op
    · exact harvest op
    · exact migrate op
  · refine ⟨fun op => exec_inval_acts next op, fun op flag => ?_, fun op flag => exec_resumeFatal_acts next op flag,
      fun op => exec_fill_acts next op, fun op used => exec_retire_acts next op used, fun op unused => exec_retire_marks next op unused,
      fun op free => exec_harvest_acts next op free, fun op => (exec_migrate_refuses next op).1, fun op leaf => ?_⟩
    · rw [exec_resume_acts next op flag]
      exact State.resumeEnds_cases _ die c c.onePage 4096
    · exact ⟨(exec_migrate_refuses next op).2 leaf,
        fun apart old new entry alone => exec_migrate_acts next op leaf apart old new entry alone⟩
  · rw [exec_inval_waits waits]
    exact s.invalEnds_cases die c
  · refine ⟨fun op => exec_nvme_fails running waiting op, fun op len frame leaf => ?_, fun op free => exec_retire_ends running op free⟩
    rw [exec_nvme_fills running waiting op len frame leaf]
    exact State.resumeEnds_cases _ die c c.page.1 c.page.2

end Sys2Proof.Machine

/-!
PROOFS. Where a write lands, and what it leaves (R291, R292, R341).
-/

namespace Sys2Proof.Machine

/-! ## The bytes that a write leaves -/

/-- A write of its own span: of whole bytes, or of one byte's half. -/
def Write.whole (w : Write) : Prop := w.nib = none ∨ w.bytes.length = 1

/-- The memory changes at a write's own bytes and at its frame's byte of the bitmap alone. -/
def State.landsAt (s t : State) (w : Write) : Prop :=
  t.spad = s.spad ∧ t.caddy = s.caddy ∧ ∀ a, (a < w.pa ∨ w.pa + w.span ≤ a) → a ≠ recordByte s w.pa → t.mem.byte a = s.mem.byte a

theorem State.sameMems.landsAt {s t : State} (h : s.sameMems t) (w : Write) : s.landsAt t w := by
  obtain ⟨mem, spad, caddy⟩ := h
  exact ⟨spad, caddy, fun a _ _ => by rw [mem]⟩

theorem State.cachesOnly.mems {s t : State} (h : s.cachesOnly t) : s.sameMems t := by
  obtain ⟨_, _, mem, spad, caddy, _⟩ := h.fields
  exact ⟨mem, spad, caddy⟩

/-- A write leaves bytes of its own range alone (R109, R292). -/
theorem Write.length_result {w : Write} (whole : w.whole) {old : List Byte} (len : old.length = w.span) {bs : List Byte}
    (writes : (w.result old).1 = some bs) : bs.length = w.span := by
  unfold Write.result at writes
  unfold Write.span at len ⊢
  cases op : w.op with
  | own =>
    rw [op] at writes
    cases writes
  | store =>
    rw [op] at writes
    dsimp only at writes ⊢
    cases nib : w.nib with
    | none =>
      rw [nib] at writes
      cases writes
      rfl
    | some h =>
      rw [nib] at writes
      cases writes
      obtain none | one := whole
      · rw [none] at nib
        cases nib
      · rw [one, length_leBytes]
  | atomic aop ty x y =>
    rw [op] at writes len
    dsimp only at writes len ⊢
    generalize atomicNew aop ty (8 * old.length) (leNat old) x y = r at writes
    obtain ⟨r, f⟩ := r
    cases r with
    | none => cases writes
    | some n =>
      cases writes
      rw [length_leBytes]
      exact len

theorem Memory.length_read (m : Memory) (a n : Nat) : (m.read a n).length = n := by
  rw [Memory.read_eq, List.length_map, List.length_range]

/-! ## A write lands -/

/-- What lands at home: the bytes that a write leaves, its frame's record, and the writer's own line. -/
def State.landBytes (s : State) (w : Write) (bs : List Byte) : State :=
  let s0 := s.recordWrite w.pa
  { s0 with mem := s0.mem.write w.pa bs }.mapLine w.core w.pa (fun l =>
    match l.state with
    | .sub _ => l
    | _ => { l with bytes := patch l.bytes (w.pa - l.pa) bs })

/-- What a write's landing leaves but for the memory: the local memories, the buffer of writes and the dies' registers. -/
def State.landsOnly (s t : State) : Prop := t.spad = s.spad ∧ t.caddy = s.caddy ∧ t.writes = s.writes ∧ t.dies = s.dies

theorem State.landBytes_landsOnly (s : State) (w : Write) (bs : List Byte) : s.landsOnly (s.landBytes w bs) := by
  have recorded : s.landsOnly (s.recordWrite w.pa) := by
    unfold State.recordWrite
    split <;> exact ⟨rfl, rfl, rfl, rfl⟩
  exact recorded

/-- The memory after a landing: the write's bytes over the recorded frame. -/
theorem State.mem_landBytes (s : State) (w : Write) (bs : List Byte) :
    (s.landBytes w bs).mem = (s.recordWrite w.pa).mem.write w.pa bs := rfl

/-- A landing is that of the write's bytes, or nothing lands; the old value goes to the word that waits for it. -/
theorem State.land_cases (s : State) (w : Write) :
    s.landsOnly (s.land w) ∧ (((w.result (s.mem.read w.pa w.span)).1 = none ∧ (s.land w).mem = s.mem) ∨
      ∃ bs, (w.result (s.mem.read w.pa w.span)).1 = some bs ∧ (s.land w).mem = (s.landBytes w bs).mem) := by
  have cut : s.land w =
      (fun t => match w.op with
        | .atomic _ _ _ _ => t.deliverOld w (leNat (s.mem.read w.pa w.span)) (w.result (s.mem.read w.pa w.span)).2
        | _ => t)
      (match (w.result (s.mem.read w.pa w.span)).1 with
        | none => s
        | some bs => s.landBytes w bs) := by
    unfold State.land
    rfl
  have told : ∀ t : State, ∀ n f, t.landsOnly (t.deliverOld w n f) ∧ (t.deliverOld w n f).mem = t.mem :=
    fun t n f => ⟨⟨rfl, rfl, rfl, rfl⟩, rfl⟩
  rw [cut]
  cases (w.result (s.mem.read w.pa w.span)).1 with
  | none =>
    cases w.op with
    | own | store => exact ⟨⟨rfl, rfl, rfl, rfl⟩, .inl ⟨rfl, rfl⟩⟩
    | atomic aop ty x y => exact ⟨(told s _ _).1, .inl ⟨rfl, (told s _ _).2⟩⟩
  | some bs =>
    cases w.op with
    | own | store => exact ⟨s.landBytes_landsOnly w bs, .inr ⟨bs, rfl, rfl⟩⟩
    | atomic aop ty x y => exact ⟨s.landBytes_landsOnly w bs, .inr ⟨bs, rfl, (told (s.landBytes w bs) _ _).2⟩⟩

theorem State.land_recordByte (s : State) (w : Write) (pa : Nat) : recordByte (s.land w) pa = recordByte s pa := by
  obtain ⟨⟨_, _, _, dies⟩, _⟩ := s.land_cases w
  unfold recordByte State.die
  rw [dies]

theorem State.land_landsAt (s : State) {w : Write} (whole : w.whole) : s.landsAt (s.land w) w := by
  obtain ⟨⟨spad, caddy, _, _⟩, ⟨_, mem⟩ | ⟨bs, writes, mem⟩⟩ := s.land_cases w
  · exact ⟨spad, caddy, fun a _ _ => by rw [mem]⟩
  · have len := Write.length_result whole (Memory.length_read _ _ _) writes
    refine ⟨spad, caddy, fun a out apart => ?_⟩
    rw [mem, State.mem_landBytes, Memory.byte_write, if_neg (by omega), State.byte_recordWrite s w.pa apart]

/-- A store of whole bytes that lands leaves them at its address. -/
theorem State.land_store (s : State) {w : Write} (op : w.op = .store) (nib : w.nib = none) {i : Nat} (here : i < w.bytes.length) :
    (s.land w).mem.byte (w.pa + i) = w.bytes.getD i 0 := by
  have result : (w.result (s.mem.read w.pa w.span)).1 = some w.bytes := by
    unfold Write.result
    rw [op]
    dsimp only
    rw [nib]
  obtain ⟨_, ⟨none, _⟩ | ⟨bs, writes, mem⟩⟩ := s.land_cases w
  · rw [result] at none
    cases none
  · rw [result] at writes
    cases writes
    rw [mem, State.mem_landBytes, Memory.byte_write, if_pos (by omega), Nat.add_sub_cancel_left]

/-! ## A write is performed -/

/-- The state in which a performed write lands: its grain's entry waits for nothing more (R292). -/
def State.unbusy (s : State) (w : Write) : State :=
  (s.setDir (s.dirFind w.pa w.att.grain).1 { (s.dirFind w.pa w.att.grain).2 with busy := none }).demote (s.dirFind w.pa w.att.grain).1
    (s.dirFind w.pa w.att.grain).2.owner

theorem State.unbusy_cachesOnly (s : State) (w : Write) : s.cachesOnly (s.unbusy w) :=
  (s.setDir_cachesOnly _ _).trans (State.demote_cachesOnly _ _ _)

/-- A line filled or a lease dropped behind an atomic. -/
def State.behind (s : State) (w : Write) (fills : Bool) : State :=
  if fills then s.fillExact w.core w.pa w.att else
    (match w.op with
     | .atomic _ _ _ _ => s.dropLease w.core w.pa
     | _ => s)

theorem State.behind_cachesOnly (s : State) (w : Write) (fills : Bool) : s.cachesOnly (s.behind w fills) := by
  unfold State.behind
  split
  · exact s.fillExact_cachesOnly _ _ _
  · split
    · exact s.dropLease_cachesOnly _ _
    · exact .refl s

/-- A write performed (R292): it lands, its frame may be recorded once more where it takes ownership, and caches and directory alone change
besides. -/
theorem State.perform_cases (s : State) (w : Write) : ∃ u, s.perform w = { u with writes := u.writes.filter (fun x => x.id != w.id) } ∧
    (((s.unbusy w).land w).cachesOnly u ∨
      ∃ t, ((s.unbusy w).land w).cachesOnly t ∧ (t.recordWrite w.pa).cachesOnly u) := by
  have heated := State.heat_cachesOnly ((s.unbusy w).land w) w.pa (max 1 w.span)
  have cut : ∃ tracked : Bool, s.perform w =
      (fun u : State => ({ u with writes := u.writes.filter (fun x => x.id != w.id) } : State))
        ((if w.takes then ((((s.unbusy w).land w).heat w.pa (max 1 w.span)).takeOwnership w.core w.pa w.att.grain).recordWrite w.pa
          else if tracked && !(s.dirFind w.pa w.att.grain).2.names w.core then
            (((s.unbusy w).land w).heat w.pa (max 1 w.span)).dropLine w.core w.pa
          else ((s.unbusy w).land w).heat w.pa (max 1 w.span)).behind w (s.atomicFills w)) := ⟨_, rfl⟩
  obtain ⟨tracked, cut⟩ := cut
  refine ⟨_, cut, ?_⟩
  split
  · exact .inr ⟨_, heated.trans (State.takeOwnership_cachesOnly _ _ _ _), State.behind_cachesOnly _ _ _⟩
  · split
    · exact .inl ((heated.trans (State.dropLine_cachesOnly _ _ _)).trans (State.behind_cachesOnly _ _ _))
    · exact .inl (heated.trans (State.behind_cachesOnly _ _ _))

/-- What stands in memory after a write is performed, but at its frame's byte of the bitmap: what its landing leaves. -/
theorem State.perform_mem (s : State) (w : Write) : (s.perform w).spad = s.spad ∧ (s.perform w).caddy = s.caddy ∧
    ∀ a, a ≠ recordByte s w.pa → (s.perform w).mem.byte a = ((s.unbusy w).land w).mem.byte a := by
  obtain ⟨u, cut, rest⟩ := s.perform_cases w
  obtain ⟨⟨spad, caddy, _, _⟩, _⟩ := (s.unbusy w).land_cases w
  obtain ⟨_, _, _, freeSpad, freeCaddy, _⟩ := (s.unbusy_cachesOnly w).fields
  rw [cut]
  obtain only | ⟨t, only, last⟩ := rest
  · obtain ⟨_, _, mem, spad', caddy', _⟩ := only.fields
    exact ⟨(spad'.trans spad).trans freeSpad, (caddy'.trans caddy).trans freeCaddy, fun a _ => by rw [mem]⟩
  · obtain ⟨_, _, mem, spad', caddy', _⟩ := only.fields
    obtain ⟨_, _, mem'', spad'', caddy'', _⟩ := last.fields
    have recorded : (t.recordWrite w.pa).spad = t.spad ∧ (t.recordWrite w.pa).caddy = t.caddy := by
      unfold State.recordWrite
      split <;> exact ⟨rfl, rfl⟩
    refine ⟨((spad''.trans recorded.1).trans (spad'.trans spad)).trans freeSpad,
      ((caddy''.trans recorded.2).trans (caddy'.trans caddy)).trans freeCaddy, fun a apart => ?_⟩
    have place : recordByte t w.pa = recordByte s w.pa := by
      rw [only.recordByte, State.land_recordByte, (s.unbusy_cachesOnly w).recordByte]
    have last_byte : u.mem.byte a = t.mem.byte a := by
      rw [mem'', State.byte_recordWrite t w.pa (by rw [place]; exact apart)]
    rw [← mem]
    exact last_byte

theorem State.perform_landsAt (s : State) {w : Write} (whole : w.whole) : s.landsAt (s.perform w) w := by
  obtain ⟨spad, caddy, mem⟩ := s.perform_mem w
  obtain ⟨_, _, landed⟩ := (s.unbusy w).land_landsAt whole
  refine ⟨spad, caddy, fun a out apart => ?_⟩
  rw [mem a apart, landed a out (by rw [(s.unbusy_cachesOnly w).recordByte]; exact apart), (s.unbusy_cachesOnly w).mem]

/-- A performed write leaves the buffer (R292, R301). -/
theorem State.perform_writes (s : State) (w : Write) : (s.perform w).writes = s.writes.filter (fun x => x.id != w.id) := by
  obtain ⟨u, cut, rest⟩ := s.perform_cases w
  obtain ⟨⟨_, _, landed, _⟩, _⟩ := (s.unbusy w).land_cases w
  obtain ⟨_, _, _, _, _, freed⟩ := (s.unbusy_cachesOnly w).fields
  have kept : u.writes = s.writes := by
    obtain only | ⟨t, only, last⟩ := rest
    · obtain ⟨_, _, _, _, _, writes⟩ := only.fields
      exact (writes.trans landed).trans freed
    · obtain ⟨_, _, _, _, _, writes⟩ := only.fields
      obtain ⟨_, _, _, _, _, writes'⟩ := last.fields
      have recorded : (t.recordWrite w.pa).writes = t.writes := by
        unfold State.recordWrite
        split <;> rfl
      exact ((writes'.trans recorded).trans (writes.trans landed)).trans freed
  rw [cut]
  dsimp only
  rw [kept]

/-- A performed store leaves its bytes at its address. -/
theorem State.perform_store (s : State) {w : Write} (op : w.op = .store) (nib : w.nib = none)
    (apart : recordByte s w.pa < w.pa ∨ w.pa + w.bytes.length ≤ recordByte s w.pa) {i : Nat} (here : i < w.bytes.length) :
    (s.perform w).mem.byte (w.pa + i) = w.bytes.getD i 0 := by
  obtain ⟨_, _, mem⟩ := s.perform_mem w
  rw [mem _ (by omega), State.land_store _ op nib here]

/-! ## A write arrives -/

theorem State.sendWrite_landsAt (s : State) {w : Write} (whole : w.whole) (b : Nat) (v far : Verdict) :
    s.landsAt (s.sendWrite w b v far) w := by
  have told : s.cachesOnly ((s.setDir b { v.entry with busy := some w.id }).tally b (v.inv + far.inv) (v.upd + far.upd) (v.supp + far.supp) 0) :=
    (s.setDir_cachesOnly b _).trans (State.tally_cachesOnly _ _ _ _ _ _)
  unfold State.sendWrite
  dsimp only
  split
  · refine (State.perform_landsAt _ whole).imp (fun spad => spad.trans told.mems.2.1) (And.imp (fun caddy => caddy.trans told.mems.2.2) ?_)
    intro byte a out apart
    exact (byte a out fun here => apart (here.trans (told.recordByte w.pa))).trans (congrArg (Memory.byte · a) told.mem)
  · exact State.sameMems.landsAt told.mems w

theorem State.examineWrite_landsAt (s : State) {w : Write} (whole : w.whole) (b : Nat) (e : DirEntry) (home : Bool) :
    s.landsAt (s.examineWrite w b e home) w := by
  unfold State.examineWrite
  extract_lets
  split
  · exact s.perform_landsAt whole
  · exact s.sendWrite_landsAt (w := { w with sent := true, takes := !home }) whole b _ _

theorem State.arrive_landsAt (s : State) {w : Write} (whole : w.whole) : s.landsAt (s.arrive w) w := by
  unfold State.arrive
  split
  · exact (s.remoteWrite_mems w).landsAt w
  split
  · exact (s.deviceWrite_mems w).landsAt w
  · generalize s.dirFind w.pa w.att.grain = x
    obtain ⟨b, e⟩ := x
    extract_lets
    dsimp only
    split
    · exact State.sameMems.landsAt (.refl s) w
    split
    · exact s.land_landsAt whole
    split
    · exact State.sameMems.landsAt ⟨rfl, rfl, rfl⟩ w
    · exact s.examineWrite_landsAt whole b e _

/-! ## The statement -/

theorem exec_homeWrite_cases {s t : State} {core id : Nat} {w : Write} (found : s.writes.find? (fun x => x.id == id && x.core == core) = some w)
    (run : exec (.homeWrite core id) s = .next t) : t = s ∨ t = s.arrive w := by
  have does : exec (.homeWrite core id) s = if w.sent || s.heldBack w then .next s else .next (s.arrive w) := by
    have run : exec (.homeWrite core id) s = execHomeWrite core id s := rfl
    rw [run, execHomeWrite, found]
  rw [does] at run
  split at run
  · cases run
    exact .inl rfl
  · cases run
    exact .inr rfl

theorem exec_writePerformed {s : State} {id : Nat} {w : Write} (found : s.writes.find? (fun x => x.id == id) = some w) :
    exec (.writePerformed id) s = if w.sent && !s.msgs.any (fun m => m.write == id) then .next (s.perform w) else .next s := by
  have run : exec (.writePerformed id) s = execWritePerformed id s := rfl
  rw [run, execWritePerformed, found]

/-- Settles O49: a write's landing keeps every other byte, by the branches of its arrival. -/
theorem writesLand : Obligations.WritesLand := by
  unfold Obligations.WritesLand
  refine ⟨fun s core id w found => ⟨fun sent free => ?_, fun t whole run => ?_⟩,
    fun s id w found => ⟨fun sent quiet => ⟨?_, s.perform_writes w⟩, fun t whole run => ?_⟩,
    fun s w op nib apart i here => s.perform_store op nib apart here⟩
  · have run : exec (.homeWrite core id) s = execHomeWrite core id s := rfl
    rw [run, execHomeWrite, found]
    dsimp only
    rw [if_neg (by rw [sent, free]; decide)]
  · obtain rfl | rfl := exec_homeWrite_cases found run
    · exact State.sameMems.landsAt (.refl t) w
    · exact s.arrive_landsAt whole
  · rw [exec_writePerformed found, if_pos (by rw [sent, quiet]; rfl)]
  · rw [exec_writePerformed found] at run
    split at run
    · cases run
      exact s.perform_landsAt whole
    · cases run
      exact State.sameMems.landsAt (.refl s) w

end Sys2Proof.Machine

/-!
PROOFS. The L1s and the directory (R284-R294, R428, R433): an engine's read of HBM in reduced service.
-/

namespace Sys2Proof.Machine

/-- A die in reduced service, where HBM is out of reach (R428). -/
def reducedState : State := { State.reset with bsState := [(0, 1)] }

/-- In reduced service the engine's read of an HBM address does nothing. -/
theorem exec_homeEngineRead_reduced : exec (.homeEngineRead 0) reducedState = .next reducedState := by
  have run : exec (.homeEngineRead 0) reducedState = execHomeEngineRead 0 reducedState := rfl
  rw [run, execHomeEngineRead, if_neg (by decide)]

/-- A read at home would be counted in its region (R420). -/
theorem hot_engineRead_reduced : SMap.get 0 ((reducedState.engineRead 0 1).die 0).hot 0 = 1 ∧ SMap.get 0 (reducedState.die 0).hot 0 = 0 := by
  decide

/-- Refutes O50: the clause on an engine's read asks for the read wherever the address is HBM, and in reduced service HBM is out of reach
(R428). -/
theorem not_caches : ¬ Obligations.Caches := by
  unfold Obligations.Caches
  intro all
  obtain ⟨_, _, _, read, _⟩ := all reducedState 0 0
  obtain ⟨run, _⟩ := read (by decide)
  rw [exec_homeEngineRead_reduced] at run
  have same : reducedState = reducedState.engineRead 0 1 := Host.Outcome.next.inj run
  obtain ⟨counted, uncounted⟩ := hot_engineRead_reduced
  rw [← same, uncounted] at counted
  cases counted

end Sys2Proof.Machine

/-!
PROOFS. The fabric, display and PCIe (R264, R283, R295-R297, R300, R411, R412).
-/

namespace Sys2Proof.Machine

/-! ## What the fabric's events leave -/

/-- The lines and messages that a copy of another package's region leaves. -/
theorem State.proxySync_lines (s : State) (die pa : Nat) : (s.proxySync die pa).lines = s.lines := by
  unfold State.proxySync
  split <;> rfl

theorem State.freeHomes_cachesOnly (s : State) : s.cachesOnly s.freeHomes :=
  State.foldl_cachesOnly _ (fun t _ => t.setDir_cachesOnly _ _) _ s

theorem State.freeHomes_dies (s : State) : s.freeHomes.dies = s.dies := by
  unfold State.freeHomes
  refine foldl_keeps (fun t => t.dies = s.dies) _ ?_ _ s rfl
  intro t x kept
  exact kept

theorem State.freeHomes_msgs (s : State) : s.freeHomes.msgs = s.msgs := by
  unfold State.freeHomes
  refine foldl_keeps (fun t => t.msgs = s.msgs) _ ?_ _ s rfl
  intro t x kept
  exact kept

/-- An invalidation drops every local copy of the named bytes (R296). -/
theorem exec_fabricInvalidate (s : State) (die region off len : Nat) (inside : off + len ≤ 2048) :
    let key := grainKey die (regionAddr region off)
    ∃ w, exec (.fabricInvalidate die region off len) s = .next w ∧ w.mem = s.mem ∧ w.crew = s.crew ∧ w.rest = s.rest ∧
      ∀ l, l ∈ w.lines ↔ l ∈ s.lines ∧ ¬(l.pa < key + len ∧ key < l.pa + l.len) := by
  have run : exec (.fabricInvalidate die region off len) s = execFabricInvalidate die region off len s := rfl
  dsimp only
  rw [run]
  unfold execFabricInvalidate
  rw [if_neg (by omega)]
  refine ⟨_, rfl, ?_, ?_, ?_, fun l => ?_⟩
  · exact (State.proxySync_cachesOnly _ _ _).mem
  · exact (State.proxySync_cachesOnly _ _ _).fields.1
  · exact (State.proxySync_cachesOnly _ _ _).fields.2.1
  · rw [State.proxySync_lines]
    have kept : ∀ k, l ∈ s.lines.filter (fun l => !(decide (l.pa < k + len) && decide (k < l.pa + l.len))) ↔
        l ∈ s.lines ∧ ¬(l.pa < k + len ∧ k < l.pa + l.len) := by
      intro k
      rw [List.mem_filter, Bool.not_eq_true', Bool.and_eq_false_iff, decide_eq_false_iff_not, decide_eq_false_iff_not]
      exact and_congr_right fun _ => not_and_or.symm
    exact kept _

theorem exec_fabricUpdate (s : State) (die region off : Nat) (bytes : List Byte) (inside : off + bytes.length ≤ 2048) :
    exec (.fabricUpdate die region off bytes) s =
      .next ((s.proxyApply die (regionAddr region off) bytes).proxySync die (regionAddr region off)) := by
  have run : exec (.fabricUpdate die region off bytes) s = execFabricUpdate die region off bytes s := rfl
  rw [run, execFabricUpdate, if_neg (by omega)]

/-- A die without its copies of a package's regions. -/
def State.dropProxies (s : State) (die pkg : Nat) : State :=
  let d := s.die die
  s.setDie die { d with proxies := d.proxies.filter (fun r => r.pkg != pkg) }

theorem State.die_dropProxies (s : State) (die pkg k : Nat) :
    (((s.dropProxies die pkg).die k)).proxies = if die = k then (s.die die).proxies.filter (fun r => r.pkg != pkg) else (s.die k).proxies := by
  dsimp only [State.dropProxies]
  rw [State.die_setDie]
  split <;> rfl

/-- A lost link drops every copy of its package on both dies (R297). -/
theorem exec_linkLoss (s : State) (die pkg : Nat) :
    ∃ w, exec (.linkLoss die pkg) s = .next w ∧ w.mem = s.mem ∧ w.crew = s.crew ∧ w.rest = s.rest ∧
      (∀ x, (x = die ∨ x = 1 - die) → (w.die x).proxies = (s.die x).proxies.filter (fun r => r.pkg != pkg)) ∧
      ∀ l, l ∈ w.lines ↔ l ∈ s.lines ∧ ¬(2 ^ 52 ≤ l.pa ∧ podPkg (l.pa % 2 ^ 52) = pkg) := by
  have run : exec (.linkLoss die pkg) s =
      .next (((s.dropNamed (fun a _ => decide (2 ^ 52 ≤ a) && podPkg (a % 2 ^ 52) == pkg)).dropProxies die pkg).dropProxies (1 - die) pkg) := rfl
  refine ⟨_, run, rfl, rfl, rfl, fun x side => ?_, fun l => ?_⟩
  · have same : ∀ k, (s.dropNamed (fun a _ => decide (2 ^ 52 ≤ a) && podPkg (a % 2 ^ 52) == pkg)).die k = s.die k := fun _ => rfl
    rw [State.die_dropProxies, State.die_dropProxies, State.die_dropProxies, same, same]
    obtain rfl | rfl := side
    · rw [if_neg (by omega), if_pos rfl]
    · rw [if_pos rfl, if_neg (by omega)]
  · have kept : l ∈ s.lines.filter (fun l => !(decide (2 ^ 52 ≤ l.pa) && podPkg (l.pa % 2 ^ 52) == pkg)) ↔
        l ∈ s.lines ∧ ¬(2 ^ 52 ≤ l.pa ∧ podPkg (l.pa % 2 ^ 52) = pkg) := by
      rw [List.mem_filter, Bool.not_eq_true', Bool.and_eq_false_iff, decide_eq_false_iff_not, beq_eq_false_iff_ne]
      exact and_congr_right fun _ => not_and_or.symm
    exact kept

/-! ## Records of the fabric -/

theorem State.die_fwLog (s : State) (die : Nat) (x : LogRec) :
    (s.fwLog die x).die die = { s.die die with log := (s.die die).log ++ [x] } := by
  rw [State.fwLog, State.die_setDie, if_pos rfl]

/-- A package dropped from a region, with its messages (R297). -/
def State.dropSharer (s : State) (die pkg region : Nat) : State :=
  { s.setDie die { s.die die with regions := (s.die die).regions.filter (fun r => !(r.pkg == pkg && r.region == region)) } with
    msgs := s.msgs.filter (fun m => !(m.agent == 512 * die + 384 + pkg % 128 && m.pa / 2048 == region)) }

/-- The die of a dropped package, once the homes are free. -/
theorem State.die_dropSharer (s : State) (die pkg region : Nat) : (s.dropSharer die pkg region).freeHomes.die die =
    { s.die die with regions := (s.die die).regions.filter (fun r => !(r.pkg == pkg && r.region == region)) } := by
  have free : (s.dropSharer die pkg region).freeHomes.die die = (s.dropSharer die pkg region).die die := by
    unfold State.die
    rw [State.freeHomes_dies]
  have set := s.die_setDie die die { s.die die with regions := (s.die die).regions.filter (fun r => !(r.pkg == pkg && r.region == region)) }
  rw [if_pos rfl] at set
  rw [free]
  exact set

/-- A package that does not acknowledge is dropped from the region (R297). -/
theorem exec_sharerAckTimeout {s : State} {die pkg region : Nat}
    (shares : (s.die die).regions.any (fun r => r.pkg == pkg && r.region == region) = true)
    (late : s.msgs.any (fun m => (m.agent == 512 * die + 384 + pkg % 128 && m.pa / 2048 == region) &&
      decide (m.sent + cyclesOf (s.die die).fxItmo.toNat ≤ s.now)) = true) :
    ∃ asid, exec (.sharerAckTimeout die pkg region) s = .next (((s.dropSharer die pkg region).freeHomes.fabricError die asid 3
      (Config.fabricPort pkg).toNat pkg 0).fwLog die (.sharerDropped pkg region)) := by
  have run : exec (.sharerAckTimeout die pkg region) s = execSharerAckTimeout die pkg region s := rfl
  rw [run]
  unfold execSharerAckTimeout
  exact ⟨_, if_pos (by rw [shares, late]; rfl)⟩

/-- What is left of a package that did not acknowledge. -/
theorem State.dropSharer_leaves (s : State) (die pkg region asid port : Nat) :
    let w := ((s.dropSharer die pkg region).freeHomes.fabricError die asid 3 port pkg 0).fwLog die (.sharerDropped pkg region)
    (w.die die).regions = (s.die die).regions.filter (fun r => !(r.pkg == pkg && r.region == region)) ∧
      w.msgs = s.msgs.filter (fun m => !(m.agent == 512 * die + 384 + pkg % 128 && m.pa / 2048 == region)) ∧
      (w.die die).events.length = (s.die die).events.length + 1 ∧ (w.die die).log = (s.die die).log ++ [.sharerDropped pkg region] ∧
      w.mem = s.mem := by
  dsimp only
  refine ⟨?_, (s.dropSharer die pkg region).freeHomes_msgs, ?_, ?_, (s.dropSharer die pkg region).freeHomes_cachesOnly.mem⟩
  · rw [State.die_fwLog, State.fabricError, State.die_tell, if_pos rfl, State.die_dropSharer]
  · rw [State.die_fwLog, State.fabricError, State.die_tell, if_pos rfl, State.die_dropSharer]
    exact List.length_append
  · rw [State.die_fwLog, State.fabricError, State.die_tell, if_pos rfl, State.die_dropSharer]

/-! ## Requests of other packages -/

section
variable {s : State} {die port : Nat} (small : port < 8) (open_ : (s.die die).fenced.contains (3, port) = false)
include small open_

theorem exec_inbound_arrives (a : FabArrival)
    (room : (((s.die die).fabIn.filter (fun x => x.1 == port)).map (fun x => x.2)).length < 512) :
    exec (.inboundFabricRequest die port (some a)) s = .next (s.fresh.2.setDie die { s.die die with fabIn := (s.die die).fabIn ++ [(port,
      { id := s.nextId, stream := a.stream, oc := a.oc, asid := a.asid, pkg := a.pkg, va := a.va, len := a.len, data := a.data,
        aop := a.aop, fmt := a.fmt, upd := a.upd, etype := a.etype, arrived := s.now })] }) := by
  have run : exec (.inboundFabricRequest die port (some a)) s = execInboundFabricRequest die port (some a) s := rfl
  rw [run]
  unfold execInboundFabricRequest
  dsimp only
  rw [open_, if_neg (by simp; omega)]
  exact if_pos room

/-- The first request of a port that may be performed is: a write, an atomic or a read at its home (R411, R433). -/
theorem exec_inbound_performs {r : FabReq} {pa : Nat} {att : Att}
    (first : pickReq (fun r => (s.faultOut die r.asid r.va r.kind).isNone) []
      (((s.die die).fabIn.filter (fun x => x.1 == port)).map (fun x => x.2)) = some r)
    (mapped : s.engineTr die r.asid r.va r.kind = .ok pa att) (free : s.homesFree pa r.len = true) :
    exec (.inboundFabricRequest die port none) s =
      match r.data, r.aop with
      | some bs, _ => .next ((s.reqDone die r.id).engineWrite pa bs)
      | none, some a => .next ((s.reqDone die r.id).engineAtomic pa r.len a)
      | none, none => .next (if isPcie pa then (s.reqDone die r.id).engineRead pa r.len
          else ((s.reqDone die r.id).engineRead pa r.len).noteSharer pa r) := by
  have run : exec (.inboundFabricRequest die port none) s = execInboundFabricRequest die port none s := rfl
  rw [run]
  unfold execInboundFabricRequest
  dsimp only
  rw [open_, if_neg (by simp; omega), first]
  dsimp only
  rw [mapped]
  dsimp only
  rw [free, if_neg (by decide)] <;> rfl

end

theorem exec_inbound_closed {s : State} {die port : Nat} (closed : 8 ≤ port ∨ (s.die die).fenced.contains (3, port) = true)
    (a : Option FabArrival) : exec (.inboundFabricRequest die port a) s = .next s := by
  have run : exec (.inboundFabricRequest die port a) s = execInboundFabricRequest die port a s := rfl
  rw [run]
  unfold execInboundFabricRequest
  dsimp only
  refine if_pos ?_
  obtain far | fenced := closed
  · rw [decide_eq_true (show 7 < port by omega), Bool.true_or]
  · rw [fenced, Bool.or_true]

theorem exec_targetTimeout {s : State} {die port : Nat} {x : Nat × FabReq}
    (late : ((s.die die).fabIn.filter (fun x => x.1 == port)).find?
      (fun x => decide (x.2.arrived + cyclesOf (max (s.die die).fxTmo.toNat 10) ≤ s.now)) = some x) :
    exec (.targetTimeout die port) s =
      .next (((s.reqDone die x.2.id).fabricError die x.2.asid 1 port x.2.pkg x.2.va).fwLog die (.inboundFault x.2.asid x.2.va true)) := by
  have run : exec (.targetTimeout die port) s = execTargetTimeout die port s := rfl
  rw [run]
  unfold execTargetTimeout
  dsimp only
  rw [late]

/-! ## Requests to other packages -/

theorem exec_initiatorTimeout {s : State} {die id : Nat} {x : FabOut} (out : (s.die die).fabOut.find? (fun x => x.id == id) = some x) :
    exec (.initiatorTimeout die id) s =
      if x.left + cyclesOf (s.die die).fxItmo.toNat ≤ s.now then .next (s.poisonOut die x 2) else .next s := by
  have run : exec (.initiatorTimeout die id) s = execInitiatorTimeout die id s := rfl
  rw [run]
  unfold execInitiatorTimeout
  rw [out]

theorem exec_poisonedCompletion {s : State} {die id : Nat} {x : FabOut} (out : (s.die die).fabOut.find? (fun x => x.id == id) = some x) :
    exec (.poisonedCompletion die id) s = .next (s.poisonOut die x 1) := by
  have run : exec (.poisonedCompletion die id) s = execPoisonedCompletion die id s := rfl
  rw [run]
  unfold execPoisonedCompletion
  rw [out]

/-! ## Display and PCIe -/

theorem exec_scanoutRead {s : State} {head addr : Nat} (small : head < 4) (memory : (localReach s.reduced addr == .memory) = true) (len : Nat) :
    exec (.scanoutRead head addr len) s = .next { (s.engineRead addr len) with
      scanout := s.scanout.filter (fun x => x.1 != head) ++ [(head, s.mem.read addr len)] } := by
  have run : exec (.scanoutRead head addr len) s = execScanoutRead head addr len s := rfl
  rw [run]
  unfold execScanoutRead
  rw [memory, decide_eq_true small]
  rfl

theorem exec_pcieInbound {s : State} {port addr : Nat} (small : port < 2) (memory : (localReach s.reduced addr == .memory) = true) (len : Nat)
    (wr : Option (List Byte)) : exec (.pcieInboundRequest port addr len wr) s =
      match wr with
      | none => .next (s.engineRead addr len)
      | some bs => if s.homesFree addr bs.length then .next (s.engineWrite addr bs) else .next s := by
  have run : exec (.pcieInboundRequest port addr len wr) s = execPcieInboundRequest port addr len wr s := rfl
  rw [run]
  unfold execPcieInboundRequest
  rw [memory, decide_eq_true small]
  rfl

/-- Settles O51: each event of the fabric, by its branch. -/
theorem fabric : Obligations.Fabric := by
  unfold Obligations.Fabric
  intro s die
  dsimp only
  refine ⟨fun region off len inside => exec_fabricInvalidate s die region off len inside,
    fun region off bytes inside => exec_fabricUpdate s die region off bytes inside, fun pkg => exec_linkLoss s die pkg,
    fun pkg region shares late => ?_, fun port a small open_ room => exec_inbound_arrives small open_ a room,
    fun port a closed => exec_inbound_closed closed a, fun port r pa att small open_ first mapped free => ?_,
    fun port x late => exec_targetTimeout late, fun id x out => ⟨fun late => ?_, fun early => ?_, exec_poisonedCompletion out⟩,
    fun head addr len small memory => ?_, fun port addr len small memory => ⟨exec_pcieInbound small memory len none, fun bs free => ?_⟩⟩
  · obtain ⟨asid, run⟩ := exec_sharerAckTimeout shares late
    exact ⟨_, run, s.dropSharer_leaves die pkg region asid _⟩
  · have performs := exec_inbound_performs small open_ first mapped free
    refine ⟨fun bs data => ?_, fun a data aop => ?_, fun data aop page => ?_, fun data aop page => ?_⟩
    · rw [performs, data]
    · rw [performs, data, aop]
    · rw [performs, data, aop, page]
      rfl
    · rw [performs, data, aop, page]
      rfl
  · rw [exec_initiatorTimeout out, if_pos late]
  · rw [exec_initiatorTimeout out, if_neg (by omega)]
  · exact ⟨_, exec_scanoutRead small memory len, List.mem_append_right _ (List.mem_singleton.2 rfl), (s.engineRead_cachesOnly addr len).mem⟩
  · rw [exec_pcieInbound small memory len (some bs)]
    exact if_pos free

end Sys2Proof.Machine

/-!
PROOFS. Command queues and their commands (R346-R348, R386).
-/

namespace Sys2Proof.Machine

/-! ## A command taken -/

/-- A command to take, or the one that a queue has taken and still reads what it names of (R346). -/
def State.commandOf (s : State) (die q : Nat) : List Byte :=
  if (s.cmdq die q).reading then (s.cmdq die q).cmd else s.command (s.cmdq die q)

/-- The state in which a command goes on: its queue has taken it. -/
def State.takenState (s : State) (die q : Nat) : State :=
  if (s.cmdq die q).reading then s else (s.setCmdq die q ((s.cmdq die q).take (s.commandOf die q))).serves die q

theorem State.takenState_fields (s : State) (die q : Nat) : (s.takenState die q).mem = s.mem ∧ (s.takenState die q).crew = s.crew ∧
    (s.takenState die q).rest = s.rest ∧ (s.takenState die q).launches = s.launches ∧ (s.takenState die q).chains = s.chains ∧
    (s.takenState die q).passes = s.passes ∧ (s.takenState die q).now = s.now := by
  unfold State.takenState
  split <;> exact ⟨rfl, rfl, rfl, rfl, rfl, rfl, rfl⟩

theorem State.cmdq_serves (s : State) (die q n k : Nat) : (s.serves die n).cmdq k q = s.cmdq k q := by
  unfold State.serves State.cmdq
  rw [State.die_setDie]
  by_cases h : die = k
  · rw [if_pos h, h]
  · rw [if_neg h]

/-- A queue that takes its next command: its head moves (R346). -/
theorem State.cmdq_takenState {s : State} {die q : Nat} (next : (s.cmdq die q).reading = false) :
    (s.takenState die q).cmdq die q = (s.cmdq die q).take (s.commandOf die q) := by
  unfold State.takenState
  rw [next, if_neg Bool.false_ne_true, State.cmdq_serves, State.cmdq_setCmdq, if_pos rfl]

/-- Taking a command leaves its queue's control register and slot table. -/
theorem State.cmdq_takenState_ctl (s : State) (die q : Nat) : ((s.takenState die q).cmdq die q).ctl = (s.cmdq die q).ctl ∧
    ((s.takenState die q).cmdq die q).gs = (s.cmdq die q).gs := by
  cases reading : (s.cmdq die q).reading with
  | false =>
    rw [State.cmdq_takenState reading]
    exact ⟨rfl, rfl⟩
  | true =>
    unfold State.takenState
    rw [reading, if_pos rfl]
    exact ⟨rfl, rfl⟩

/-- May a queue go on with a command: one taken before, or the next, which nothing keeps it from taking (R346)? -/
def State.goesOn (s : State) (die q : Nat) : Prop :=
  (s.cmdq die q).reading = true ∨ (s.offersCmd (s.cmdq die q) = true ∧ s.mayTake die q (ctlPrio (s.cmdq die q).ctl) = true ∧
    s.snoops (s.cmdq die q).slotAt 64 = false)

theorem State.takeCommand_takes {s : State} {die q : Nat} (goes : s.goesOn die q) {mine : Nat → Bool}
    (own : mine (fieldAt (s.commandOf die q) 0 1) = true) (k : List Byte → State → Out) :
    s.takeCommand die q mine k = k (s.commandOf die q) (s.takenState die q) := by
  unfold State.takeCommand
  dsimp only
  cases reading : (s.cmdq die q).reading with
  | true =>
    have cmd : s.commandOf die q = (s.cmdq die q).cmd := if_pos reading
    have taken : s.takenState die q = s := if_pos reading
    rw [cmd] at own
    rw [if_pos rfl, if_pos own, cmd, taken]
  | false =>
    have cmd : s.commandOf die q = s.command (s.cmdq die q) := if_neg (by rw [reading]; decide)
    have taken : s.takenState die q = (s.setCmdq die q ((s.cmdq die q).take (s.command (s.cmdq die q)))).serves die q := by
      unfold State.takenState
      rw [if_neg (by rw [reading]; decide), cmd]
    rw [cmd] at own
    obtain before | ⟨offers, may, alone⟩ := goes
    · rw [before] at reading
      cases reading
    · rw [if_neg Bool.false_ne_true, if_neg (by rw [offers, may, own]; decide), if_neg (by rw [alone]; decide), cmd, taken]

/-- A queue that offers nothing, or behind other work, takes nothing. -/
theorem State.takeCommand_waits {s : State} {die q : Nat} (next : (s.cmdq die q).reading = false)
    (kept : s.offersCmd (s.cmdq die q) = false ∨ s.mayTake die q (ctlPrio (s.cmdq die q).ctl) = false) (mine : Nat → Bool)
    (k : List Byte → State → Out) : s.takeCommand die q mine k = .next s := by
  unfold State.takeCommand
  dsimp only
  rw [next, if_neg Bool.false_ne_true]
  refine if_pos ?_
  obtain offers | may := kept
  · rw [offers]
    rfl
  · rw [may, Bool.not_false, Bool.or_true, Bool.true_or]

/-! ## A command goes on -/

/-- Reading is done, in a state that differs from the one after the command was taken in other registers at most. -/
def State.taken (s t : State) (die q : Nat) : Prop :=
  (t.cmdq die q).busy = ((s.takenState die q).cmdq die q).busy ∧ (t.cmdq die q).reading = false ∧
    (t.cmdq die q).head = ((s.takenState die q).cmdq die q).head ∧ t.mem = s.mem ∧ t.crew = s.crew ∧ t.rest = s.rest

/-- A queue register's change that keeps the head and `busy`, and ends the reading. -/
theorem State.taken_setCmdq {s t : State} {die q : Nat} {x : CmdQueue} (dies : t.dies = ((s.takenState die q).setCmdq die q x).dies)
    (busy : x.busy = ((s.takenState die q).cmdq die q).busy) (head : x.head = ((s.takenState die q).cmdq die q).head) (read : x.reading = false)
    (mem : t.mem = s.mem) (crew : t.crew = s.crew) (rest : t.rest = s.rest) : s.taken t die q := by
  have here : t.cmdq die q = x := by
    have set := State.cmdq_setCmdq (s.takenState die q) die q q x
    rw [if_pos rfl] at set
    unfold State.cmdq State.die at set ⊢
    rw [dies]
    exact set
  unfold State.taken
  rw [here]
  exact ⟨busy, read, head, mem, crew, rest⟩

section
variable {s : State} {die q : Nat} (goes : s.goesOn die q)
include goes

/-- A launch whose tables are good begins (R347). -/
theorem exec_launch_begins {k : Kernel} (op : fieldAt (s.commandOf die q) 0 1 = 1)
    (good : (s.takenState die q).earlyRefusal die (ctlAsid (s.cmdq die q).ctl) (s.commandOf die q) true = none)
    (read : (s.takenState die q).readKernel (Asker.queue die q (ctlAsid (s.cmdq die q).ctl)) (fieldAt (s.commandOf die q) 8 8) [0]
      (fieldAt (s.commandOf die q) 16 16) (fieldAt (s.commandOf die q) 32 16) ((s.takenState die q).gfxTable (s.cmdq die q).gs) = .ok (.inr k)) :
    exec (.launch die q) s = .next (((s.takenState die q).readDone die q).begin (.queue die q) die (ctlAsid (s.cmdq die q).ctl)
      (ctlPrio (s.cmdq die q).ctl) (fieldAt (s.commandOf die q) 1 1) (fieldAt (s.commandOf die q) 4 4) (fieldAt (s.commandOf die q) 16 16)
      (fieldAt (s.commandOf die q) 32 16) (fieldAt (s.commandOf die q) 48 8) (fieldAt (s.commandOf die q) 56 8)
      (fieldAt (s.commandOf die q) 8 8) (crewCount k.levels) k).2 := by
  obtain ⟨ctl, gs⟩ := s.cmdq_takenState_ctl die q
  have run : exec (.launch die q) s = execLaunch die q s := rfl
  rw [run, execLaunch, State.takeCommand_takes goes (by rw [op]; rfl)]
  dsimp only
  rw [ctl, gs, good]
  dsimp only
  rw [read]
  rfl

/-- A launch that breaks a rule is refused (R348). -/
theorem exec_launch_refused {r : Nat} (op : fieldAt (s.commandOf die q) 0 1 = 1)
    (bad : (s.takenState die q).earlyRefusal die (ctlAsid (s.cmdq die q).ctl) (s.commandOf die q) true = some r) :
    exec (.launch die q) s = (s.takenState die q).refuseCommand die q (s.commandOf die q) r := by
  obtain ⟨ctl, _⟩ := s.cmdq_takenState_ctl die q
  have run : exec (.launch die q) s = execLaunch die q s := rfl
  rw [run, execLaunch, State.takeCommand_takes goes (by rw [op]; rfl)]
  dsimp only
  rw [ctl, bad]

/-- A wait holds its queue (R347). -/
theorem exec_waitCommand_holds (op : fieldAt (s.commandOf die q) 0 1 = 4)
    (good : (s.takenState die q).earlyRefusal die (ctlAsid (s.cmdq die q).ctl) (s.commandOf die q) false = none) :
    exec (.waitCommand die q) s = .next ((s.takenState die q).setCmdq die q { (s.takenState die q).cmdq die q with
      reading := false, waiting := some (fieldAt (s.commandOf die q) 8 8, fieldAt (s.commandOf die q) 16 8) }) := by
  obtain ⟨ctl, _⟩ := s.cmdq_takenState_ctl die q
  have run : exec (.waitCommand die q) s = execWaitCommand die q s := rfl
  rw [run, execWaitCommand, State.takeCommand_takes goes (by rw [op]; rfl)]
  dsimp only
  rw [ctl, good]

/-- A chain starts (R350). -/
theorem exec_operatorChain_starts (op : fieldAt (s.commandOf die q) 0 1 = 2) (small : q < 64)
    (free : s.chains.find? (fun c => c.die == die && c.q == q) = none)
    (good : (s.takenState die q).earlyRefusal die (ctlAsid (s.cmdq die q).ctl) (s.commandOf die q) false = none) :
    exec (.operatorChain die q) s = .next (((s.takenState die q).readDone die q).newChain die q none (ctlAsid (s.cmdq die q).ctl)
      (ctlPrio (s.cmdq die q).ctl) (fieldAt (s.commandOf die q) 1 1) (fieldAt (s.commandOf die q) 56 8)
      (fieldAt (s.commandOf die q) 8 8)).2 := by
  obtain ⟨ctl, _⟩ := s.cmdq_takenState_ctl die q
  have run : exec (.operatorChain die q) s = execOperatorChain die q s := rfl
  rw [run, execOperatorChain, free]
  rw [if_neg (by omega), State.takeCommand_takes goes (by rw [op]; rfl)]
  dsimp only
  rw [ctl, good]

/-- The core set of a die in a draw stream's command. -/
def ownSet (die : Nat) (b : List Byte) : Nat := if die = 0 then fieldAt b 16 16 else fieldAt b 32 16

/-- A draw stream starts at its first record (R386). -/
theorem exec_drawStream_starts (op : fieldAt (s.commandOf die q) 0 1 = 3) (idle : s.reader die q = none)
    (free : s.passes.find? (fun p => p.die == die && p.own == die && p.q == q) = none)
    (good : (s.takenState die q).earlyRefusal die (ctlAsid (s.cmdq die q).ctl) (s.commandOf die q) true = none)
    (some_ : 0 < ownSet die (s.commandOf die q)) (fits : ownSet die (s.commandOf die q) < 2 ^ 128) :
    ∃ p : Pass, exec (.drawStream die q) s = .next { (s.takenState die q).readDone die q with passes := (s.takenState die q).passes ++ [p] } ∧
      p.at_ = fieldAt (s.commandOf die q) 8 8 ∧ p.state = 0 ∧ p.asid = ctlAsid (s.cmdq die q).ctl := by
  obtain ⟨ctl, _⟩ := s.cmdq_takenState_ctl die q
  have run : exec (.drawStream die q) s = execDrawStream die q s := rfl
  rw [run, execDrawStream, idle]
  dsimp only
  rw [free]
  rw [State.takeCommand_takes goes (by rw [op]; rfl)]
  dsimp only
  rw [ctl, good]
  dsimp only
  have set : ¬ ((if die = 0 then fieldAt (s.commandOf die q) 16 16 else fieldAt (s.commandOf die q) 32 16) = 0 ∨
      2 ^ 128 ≤ (if die = 0 then fieldAt (s.commandOf die q) 16 16 else fieldAt (s.commandOf die q) 32 16)) := by
    unfold ownSet at some_ fits
    omega
  rw [if_neg set]
  exact ⟨_, rfl, rfl, rfl, rfl⟩

end

/-! ## A command's end -/

/-- What asked for a command lets its faults go; no queue changes. -/
theorem State.cmdq_letGo (s : State) (w : Asker) (k q : Nat) : (s.letGo w).cmdq k q = s.cmdq k q := by
  unfold State.letGo State.cmdq
  dsimp only
  rw [State.die_setDie]
  by_cases h : w.die = k
  · rw [if_pos h, h]
  · rw [if_neg h]

theorem State.cmdq_interrupt (s : State) (die : Nat) (asked : Bool) (k q : Nat) : (s.interrupt die asked).cmdq k q = s.cmdq k q := by
  unfold State.interrupt
  split
  · unfold State.cmdq
    rw [State.die_setDie]
    by_cases h : die = k
    · rw [if_pos h, h]
    · rw [if_neg h]
  · rfl

/-- A queue freed is not busy (R346). -/
theorem freed_busy (t : State) (die q asid : Nat) : ((t.freed die q asid).cmdq die q).busy = false := by
  unfold State.freed State.queueLetsGo
  rw [State.cmdq_letGo, State.cmdq_letGo, State.cmdq_letGo, State.cmdq_letGo, State.cmdq_interrupt, State.cmdq_setCmdq, if_pos rfl]
  rfl

/-- A command whose record is written frees its queue (R347, R348). -/
theorem State.endCommand_ends {s t : State} {die q asid crec : Nat} {bytes : List Byte}
    (posted : s.postRecord (Asker.queue die q asid) crec bytes = .ok t) :
    s.endCommand die q asid crec bytes .next = .next (t.freed die q asid) := by
  unfold State.endCommand
  dsimp only
  rw [posted]
  rfl

/-- A wait's end once the word that it watches is read (R347). -/
theorem exec_waitCommandPoll {s : State} {die q a v : Nat} {c : List Byte} (waiting : (s.cmdq die q).waiting = some (a, v))
    (read : s.vaFetch (Asker.queue die q (ctlAsid (s.cmdq die q).ctl)) a 8 = .ok c) :
    exec (.waitCommandPoll die q) s = if leNat c < v then .next s else
      s.endCommand die q (ctlAsid (s.cmdq die q).ctl) (fieldAt (s.cmdq die q).cmd 56 8)
        (recordBytes 0 0 (ctlAsid (s.cmdq die q).ctl) 0 0 0 s.now a) .next := by
  have run : exec (.waitCommandPoll die q) s = execWaitCommandPoll die q s := rfl
  rw [run, execWaitCommandPoll, waiting]
  dsimp only
  rw [read]
  rfl

/-! ## The statement -/

/-- Settles O52: a command goes on in the state in which its queue has taken it. -/
theorem commands : Obligations.Commands := by
  unfold Obligations.Commands
  intro s die q
  have b : (if (s.cmdq die q).reading then (s.cmdq die q).cmd else s.command (s.cmdq die q)) = s.commandOf die q := rfl
  have s1 : (if (s.cmdq die q).reading then s else (s.setCmdq die q ((s.cmdq die q).take (s.commandOf die q))).serves die q) =
    s.takenState die q := rfl
  dsimp only
  rw [b, s1]
  obtain ⟨mem, crew, rest, launches, chains, passes, now⟩ := s.takenState_fields die q
  obtain ⟨ctl, _⟩ := s.cmdq_takenState_ctl die q
  refine ⟨fun next => ?_, fun goes => ⟨fun k op good read => ?_, fun op good => ?_, fun op small free good => ?_,
    fun op idle free good some_ fits => ?_, fun r t op bad posted => ?_⟩, fun next kept => ?_, fun a v c waiting read => ⟨fun low => ?_,
    fun t high posted => ?_⟩⟩
  · rw [State.cmdq_takenState next]
    exact ⟨rfl, rfl⟩
  · exact ⟨_, _, exec_launch_begins goes op good read, State.taken_setCmdq rfl rfl rfl rfl mem crew rest,
      congrArg (· ++ [_]) launches, rfl, rfl, rfl, rfl, rfl, rfl, rfl, rfl, rfl, rfl, rfl⟩
  · refine ⟨_, exec_waitCommand_holds goes op good, State.taken_setCmdq rfl rfl rfl rfl mem crew rest, ?_⟩
    rw [State.cmdq_setCmdq, if_pos rfl]
  · exact ⟨_, _, exec_operatorChain_starts goes op small free good, State.taken_setCmdq rfl rfl rfl rfl mem crew rest,
      congrArg (· ++ [_]) chains, rfl, rfl, rfl, rfl, rfl, rfl, rfl⟩
  · obtain ⟨p, run, at_, state, asid⟩ := exec_drawStream_starts goes op idle free good some_ fits
    refine ⟨_, p, run, State.taken_setCmdq rfl rfl rfl rfl mem crew rest, ?_, at_, state, asid⟩
    exact congrArg (· ++ [p]) passes
  · refine ⟨?_, freed_busy t die q _⟩
    rw [exec_launch_refused goes op bad, State.refuseCommand, ctl, now]
    exact State.endCommand_ends posted
  · have run : exec (.launch die q) s = execLaunch die q s := rfl
    rw [run, execLaunch]
    exact State.takeCommand_waits next kept _ _
  · rw [exec_waitCommandPoll waiting read, if_pos low]
  · rw [exec_waitCommandPoll waiting read, if_neg (by omega)]
    exact State.endCommand_ends posted

end Sys2Proof.Machine

/-!
PROOFS. Chains, tasks and job cards, and the end of a launch (R308, R349, R350, R354, R407, R408, R419).
-/

namespace Sys2Proof.Machine

/-! ## A work list's queue served -/

theorem State.taskq_serves (s : State) (die q n k : Nat) : (s.serves die n).taskq k q = s.taskq k q := by
  unfold State.serves State.taskq
  rw [State.die_setDie]
  by_cases h : die = k
  · rw [if_pos h, h]
  · rw [if_neg h]

/-- Serving a queue leaves what makes an ASID good. -/
theorem State.asidGood_serves (s : State) (die n k asid : Nat) : (s.serves die n).asidGood k asid = s.asidGood k asid := by
  have regs : ((s.serves die n).die k).atab = (s.die k).atab ∧ ((s.serves die n).die k).retiring = (s.die k).retiring := by
    unfold State.serves
    rw [State.die_setDie]
    by_cases h : die = k
    · rw [if_pos h, h]
      exact ⟨rfl, rfl⟩
    · rw [if_neg h]
      exact ⟨rfl, rfl⟩
  unfold State.asidGood
  rw [regs.1, regs.2]
  rfl

/-! ## Operator chains -/

/-- A chain's next record is applied to its shadow (R350). -/
theorem exec_operatorChain_expands {s : State} {die q at_ : Nat} {c : Chain} {h b : List Byte} {k : Bank}
    (found : s.chains.find? (fun c => c.die == die && c.q == q) = some c) (alive : c.killed = false) (empty : c.ready = false)
    (next : c.next = some at_) (aligned : at_ % 64 = 0) (head : s.vaFetch c.asker.ahead at_ 16 = .ok h) (few : fieldAt h 8 2 ≤ 1023)
    (zeros : fieldAt h 10 6 = 0) (body : s.vaFetch c.asker.ahead (at_ + 16) (16 * fieldAt h 8 2) = .ok b)
    (applied : c.shadow.apply c.solver.isSome b (fieldAt h 8 2) = some k) :
    exec (.operatorChain die q) s = .next (s.mapChain c.id (fun c =>
      { c with shadow := k, ready := true, next := if fieldAt h 0 8 = 0 then none else some (fieldAt h 0 8) })) := by
  have run : exec (.operatorChain die q) s = execOperatorChain die q s := rfl
  have expands : s.expandRecord c at_ = .next (s.mapChain c.id (fun c =>
      { c with shadow := k, ready := true, next := if fieldAt h 0 8 = 0 then none else some (fieldAt h 0 8) })) := by
    unfold State.expandRecord
    dsimp only
    rw [if_neg (by omega), head]
    dsimp only [State.settleFetch]
    rw [if_neg (by omega), body]
    dsimp only
    rw [applied]
  rw [run, execOperatorChain, found]
  dsimp only
  rw [alive, empty, next, if_neg Bool.false_ne_true, if_neg Bool.false_ne_true]
  exact expands

/-- The state in which a chain's operator starts: a sequencer's chain takes its turn among the die's queues (R346, R350). -/
def State.swapState (s : State) (id : Nat) (c : Chain) : State :=
  if c.offers then (s.serves c.die c.queueNo).mapChain id (fun c => { c with taken := true }) else s

theorem State.swapState_fields (s : State) (id : Nat) (c : Chain) :
    (s.swapState id c).launches = s.launches ∧ (s.swapState id c).mem = s.mem ∧
      (s.swapState id c).asidGood c.die c.asid = s.asidGood c.die c.asid := by
  unfold State.swapState
  split
  · exact ⟨rfl, rfl, s.asidGood_serves c.die c.queueNo c.die c.asid⟩
  · exact ⟨rfl, rfl, rfl⟩

/-- The kernel of an operator with its pool patched (R350). -/
def Chain.patched (c : Chain) (kern : Kernel) : Kernel := { kern with pool := c.shadow.poolOver kern.pool }

/-- A ready chain whose operator's tables are good: held by a lead allowance, or its operator begins (R350, R419). -/
theorem exec_operatorSwap_good {s : State} {id : Nat} {c : Chain} {kern : Kernel} (found : s.chains.find? (fun c => c.id == id) = some c)
    (ready : c.ready = true) (alive : c.killed = false) (idle : c.current = none)
    (turn : c.offers = true → s.mayTake c.die c.queueNo c.prio = true) (aligned : c.shadow.image.toNat % 4096 = 0)
    (asid : s.asidGood c.die c.asid = true)
    (read : (s.swapState id c).readKernel c.asker c.shadow.desc.toNat [0] c.shadow.set0.toNat c.shadow.set1.toNat
      (if c.solver.isSome then ([], []) else (s.swapState id c).gfxTable ((s.swapState id c).cmdq c.die c.q).gs) = .ok (.inr kern)) :
    exec (.operatorSwap id) s =
      if kern.twoDies && ((s.swapState id c).leadHolds 0 || (s.swapState id c).leadHolds 1) then
        .next ((s.swapState id c).mapChain id (fun c => { c with held := true }))
      else
        let r := (s.swapState id c).begin (.chain id) c.die c.asid c.prio (c.flags / 2 * 2 + (if c.shadow.hdl.getLsbD 63 then 1 else 0))
          (c.shadow.hdl.toNat % 2 ^ 18) c.shadow.set0.toNat c.shadow.set1.toNat c.shadow.image.toNat c.crec c.shadow.desc.toNat
          (crewCount kern.levels) (c.patched kern)
        .next (r.2.mapChain id (fun x => { x with active := c.shadow, current := some r.1, ready := false, taken := false, held := false })) := by
  have run : exec (.operatorSwap id) s = execOperatorSwap id s := rfl
  have goes : ¬ ((!c.ready || c.killed || c.current.isSome || (c.offers && !s.mayTake c.die c.queueNo c.prio)) = true) := by
    rw [ready, alive, idle]
    cases offers : c.offers with
    | false => simp
    | true =>
      rw [turn offers]
      simp
  have good : (s.swapState id c).asidGood c.die c.asid = true := (s.swapState_fields id c).2.2.trans asid
  rw [run, execOperatorSwap, found]
  dsimp only
  rw [if_neg goes]
  unfold State.swapState at good read ⊢
  dsimp only [State.settleKernel]
  rw [if_neg (by omega), if_neg (by rw [good]; decide), read]
  rfl

/-! ## Tasks -/

/-- A list's entries written over a pool from its start (R407). -/
theorem SMap.get_foldl_range (m : SMap Lane) (f : Nat → Lane) (n i : Nat) :
    SMap.get 0 ((List.range n).foldl (fun m i => SMap.set 0 m i (f i)) m) i = if i < n then f i else SMap.get 0 m i := by
  induction n with
  | zero => rw [if_neg (by omega)]; rfl
  | succ n ih =>
    rw [List.range_succ, List.foldl_append, List.foldl_cons, List.foldl_nil, SMap.get_set, ih]
    by_cases last : n = i
    · subst last
      rw [if_pos rfl, if_pos (by omega)]
    · rw [if_neg last]
      by_cases before : i < n
      · rw [if_pos before, if_pos (by omega)]
      · rw [if_neg before, if_neg (by omega)]

/-- The address of a task's descriptor and the serial of its fence, as the next slot of a task queue gives them (R407). -/
def State.taskDesc (s : State) (die q : Nat) : Nat := fieldAt (s.phys (s.taskq die q).slotAt 16) 0 8

/-- The serial of a task's fence. -/
def State.taskSerial (s : State) (die q : Nat) : Nat := fieldAt (s.phys (s.taskq die q).slotAt 16) 8 8 / 2 ^ 16 % 2 ^ 32

/-- The state in which a task goes on: its queue has taken it. -/
def State.taskState (s : State) (die q : Nat) : State :=
  (s.setTaskq die q ((s.taskq die q).take (s.taskDesc die q) (s.taskSerial die q))).serves die (64 + q)

theorem State.taskq_taskState (s : State) (die q : Nat) :
    (s.taskState die q).taskq die q = (s.taskq die q).take (s.taskDesc die q) (s.taskSerial die q) := by
  rw [State.taskState, State.taskq_serves, State.taskq_setTaskq, if_pos rfl]

/-- A task's parameters over its kernel's pool (R407). -/
def taskPool (b : List Byte) (k : Kernel) : SMap Lane :=
  (List.range (fieldAt b 8 1)).foldl (fun m i => SMap.set 0 m i (BitVec.ofNat 32 (fieldAt b (16 + 4 * i) 4))) k.pool

theorem exec_taskLaunch_begins {s : State} {die q : Nat} {b : List Byte} {k : Kernel} (fresh : (s.taskq die q).reading = none)
    (offers : s.offersTask (s.taskq die q) = true) (may : s.mayTake die (64 + q) (ctlPrio (s.taskq die q).ctl) = true)
    (alone : s.snoops (s.taskq die q).slotAt 16 = false)
    (read : (s.taskState die q).vaFetch (Asker.task die q (ctlAsid (s.taskq die q).ctl)) (s.taskDesc die q) 64 = .ok b)
    (good : taskGood (s.taskDesc die q) b = true) (asid : (s.taskState die q).asidGood die (ctlAsid (s.taskq die q).ctl) = true)
    (aligned : (s.taskq die q).image.toNat % 4096 = 0)
    (tables : (s.taskState die q).readKernel (Asker.task die q (ctlAsid (s.taskq die q).ctl)) (fieldAt b 0 8) [0] (s.taskq die q).set0.toNat
      (s.taskq die q).set1.toNat ([], []) = .ok (.inr k)) (npu : k.npu = true) :
    exec (.taskLaunch die q) s = .next (((s.taskState die q).setTaskq die q
      { (s.taskq die q).take (s.taskDesc die q) (s.taskSerial die q) with reading := none }).begin (.task die q (s.taskSerial die q)) die
      (ctlAsid (s.taskq die q).ctl) (ctlPrio (s.taskq die q).ctl) (fieldAt b 9 1) (fieldAt b 12 4) (s.taskq die q).set0.toNat
      (s.taskq die q).set1.toNat (s.taskq die q).image.toNat 0 (fieldAt b 0 8) (crewCount k.levels) { k with pool := taskPool b k }).2 := by
  have run : exec (.taskLaunch die q) s = execTaskLaunch die q s := rfl
  have takes : ∀ go : Nat → Nat → State → Out, s.takeTask die q go = go (s.taskDesc die q) (s.taskSerial die q) (s.taskState die q) := by
    intro go
    unfold State.takeTask
    dsimp only
    rw [fresh]
    dsimp only
    rw [if_neg (by rw [offers, may]; decide), if_neg (by rw [alone]; decide)]
    rfl
  rw [run, execTaskLaunch, takes, State.taskq_taskState]
  dsimp only [TaskQueue.take]
  rw [read]
  dsimp only [State.settleFetch]
  rw [if_neg (by rw [good, asid]; simp [aligned]), tables]
  dsimp only [State.settleKernel, State.settleFetch]
  rw [if_neg (by rw [npu]; decide)]
  rfl

/-- What a task that begins leaves in its queue. -/
theorem State.taskq_begun (s : State) (die q : Nat) {t : State}
    (dies : t.dies = ((s.taskState die q).setTaskq die q
      { (s.taskq die q).take (s.taskDesc die q) (s.taskSerial die q) with reading := none }).dies) :
    (t.taskq die q).busy = true ∧
      (t.taskq die q).head = BitVec.ofNat 16 (((s.taskq die q).head.toNat + 1) % (s.taskq die q).slots) := by
  have set := State.taskq_setTaskq (s.taskState die q) die q q
    { (s.taskq die q).take (s.taskDesc die q) (s.taskSerial die q) with reading := none }
  rw [if_pos rfl] at set
  have here : t.taskq die q = { (s.taskq die q).take (s.taskDesc die q) (s.taskSerial die q) with reading := none } := by
    unfold State.taskq State.die at set ⊢
    rw [dies]
    exact set
  rw [here]
  exact ⟨rfl, rfl⟩

/-! ## Job cards -/

section
variable {s : State} {die serial : Nat} {k : Card} (found : (s.die die).cards.find? (fun k => k.serial == serial) = some k)
  (ready : (s.die die).cardReady k = true)
include found

/-- A card found by its serial has it. -/
theorem card_serial : k.serial = serial := by
  simpa using List.find?_some found

include ready

/-- A card that may start does what its kind says (R354). -/
theorem exec_jobCardStart_ready : exec (.jobCardStart die serial) s =
    if k.kind = 1 then (if !k.taken && !s.mayTake die cardQueueNo 0 then .next s else s.launchCard die k)
    else if k.kind = 2 then s.runListCard die k
    else
      let q := s.leastSequencer die
      let x := s.sequencer q
      if 4 ≤ x.queue.length then .next s
      else .next ((s.mapCard die serial (fun x => { x with started := true })).setSequencer q { x with queue := x.queue ++
          [{ serial := serial, die := die, asid := k.asid, desc := k.a, uid := k.uid }] }) := by
  have run : exec (.jobCardStart die serial) s = execJobCardStart die serial s := rfl
  rw [run]
  unfold execJobCardStart
  dsimp only
  rw [found]
  dsimp only
  rw [ready, if_neg (by decide)]

/-- The state in which a card's launch goes on. -/
def cardState (s : State) (die : Nat) (k : Card) : State :=
  if k.taken then s else (s.mapCard die k.serial (fun x => { x with taken := true })).serves die cardQueueNo

theorem exec_jobCardStart_launches {b : List Byte} {kern : Kernel} (kind : k.kind = 1)
    (may : k.taken = true ∨ s.mayTake die cardQueueNo 0 = true) (read : (cardState s die k).vaFetch (k.asker die) k.a 64 = .ok b)
    (op : fieldAt b 0 1 = 1) (good : (cardState s die k).earlyRefusal die k.asid b true = none)
    (tables : (cardState s die k).readKernel (k.asker die) (fieldAt b 8 8) [0] (fieldAt b 16 16) (fieldAt b 32 16) ([], []) =
      .ok (.inr kern)) :
    exec (.jobCardStart die serial) s = .next (((cardState s die k).mapCard die k.serial (fun x => { x with started := true, taken := false
      })).begin (.card die k.serial) die k.asid 0 (fieldAt b 1 1) (fieldAt b 4 4) (fieldAt b 16 16) (fieldAt b 32 16) (fieldAt b 48 8)
      (fieldAt b 56 8) (fieldAt b 8 8) (crewCount kern.levels) kern).2 := by
  have goes : ¬ ((!k.taken && !s.mayTake die cardQueueNo 0) = true) := by
    obtain taken | may := may
    · rw [taken]; simp
    · rw [may]; simp
  rw [exec_jobCardStart_ready found ready, if_pos kind, if_neg goes]
  unfold State.launchCard cardState at *
  dsimp only
  rw [read]
  dsimp only [State.settleFetch]
  rw [if_neg (by rw [op, good]; simp), tables]
  rfl

theorem exec_jobCardStart_lists {r : JobRun} (kind : k.kind = 2) (free : k.held = none) (runs : s.cardRun die k = some r)
    (fin : r.fin = .ok ()) :
    exec (.jobCardStart die serial) s = .next (if r.s.farOut 0 then r.keepCard die k none else r.s.endCard die k.serial true) := by
  rw [exec_jobCardStart_ready found ready, if_neg (by omega), if_pos kind]
  unfold State.runListCard
  dsimp only
  rw [free, if_neg (by simp), if_neg (by simp), runs]
  dsimp only
  rw [fin]

theorem exec_jobCardStart_solves (kind : k.kind = 3) (room : (s.sequencer (s.leastSequencer die)).queue.length < 4) :
    exec (.jobCardStart die serial) s = .next ((s.mapCard die serial (fun x => { x with started := true })).setSequencer
      (s.leastSequencer die) { s.sequencer (s.leastSequencer die) with queue := (s.sequencer (s.leastSequencer die)).queue ++
        [{ serial := serial, die := die, asid := k.asid, desc := k.a, uid := k.uid }] }) := by
  rw [exec_jobCardStart_ready found ready, if_neg (by omega), if_neg (by omega)]
  exact if_neg (by omega)

end

/-! ## The end of a launch -/

/-- A core's emptied L1 changes caches alone. -/
theorem State.flushCore_cachesOnly (s : State) (agent : Nat) : s.cachesOnly (s.flushCore agent) :=
  State.foldl_cachesOnly _ (fun t l => t.release_cachesOnly l) _ s

/-- The L1s of some cores emptied. -/
def State.emptied (s : State) (l : Launch) : State := l.agents.dedup.foldl (fun s k => s.flushCore k) s

theorem State.emptied_cachesOnly (s : State) (l : Launch) : s.cachesOnly (s.emptied l) :=
  State.foldl_cachesOnly _ (fun t k => t.flushCore_cachesOnly k) _ s

/-- A launch no longer listed. -/
def State.launchGone (s : State) (id : Nat) : State := { s with launches := s.launches.filter (fun x => x.id != id) }

section
variable {s : State} {id : Nat} {l : Launch} (found : s.launches.find? (fun l => l.id == id) = some l)
include found

theorem exec_launchEnd_phase {d : Nat} (due : s.phaseDue l = some d) :
    exec (.launchEnd id) s = .next ((s.phaseDone d).mapLaunch id (fun l => { l with phased := l.phased ++ [d] })) := by
  have run : exec (.launchEnd id) s = execLaunchEnd id s := rfl
  rw [run, execLaunchEnd, found]
  dsimp only
  rw [due]

theorem exec_launchEnd_waits (due : s.phaseDue l = none) (runs : s.launchOver l = false) : exec (.launchEnd id) s = .next s := by
  have run : exec (.launchEnd id) s = execLaunchEnd id s := rfl
  rw [run, execLaunchEnd, found]
  dsimp only
  rw [due]
  dsimp only
  rw [runs]
  rfl

/-- A launch of a queue that is over ends its command (R308). -/
theorem exec_launchEnd_queue {die q : Nat} (due : s.phaseDue l = none) (ended : s.launchOver l = true) (src : l.src = .queue die q) :
    exec (.launchEnd id) s = (s.emptied l).endCommand die q l.asid l.crec
      (recordBytes (if l.killed then 3 else 0) 0 l.asid l.retired 0 0 s.now l.a) (fun t => .next (t.launchGone id)) := by
  have run : exec (.launchEnd id) s = execLaunchEnd id s := rfl
  rw [run, execLaunchEnd, found]
  dsimp only
  rw [due]
  dsimp only
  rw [ended, if_neg (by decide), src]
  rfl

/-- A launch of a card that is over ends its card (R308, R354). -/
theorem exec_launchEnd_card {die serial : Nat} (due : s.phaseDue l = none) (ended : s.launchOver l = true) (src : l.src = .card die serial) :
    exec (.launchEnd id) s = .next (((s.emptied l).launchGone id).endCard die serial (!l.killed)) := by
  have run : exec (.launchEnd id) s = execLaunchEnd id s := rfl
  rw [run, execLaunchEnd, found]
  dsimp only
  rw [due]
  dsimp only
  rw [ended, if_neg (by decide), src]
  rfl

end

/-- A fence's end: its state changes, and a failed one is known to its launch (R408, R409). -/
theorem State.endFence_cases (s : State) (die serial : Nat) (ok : Bool) : s.endFence die serial ok = s ∨
    ∃ fences n, s.endFence die serial ok = s.setDie die { s.die die with fences := fences } ∨
      s.endFence die serial ok = { s.setDie die { s.die die with fences := fences } with
        launches := s.launches.map (fun l => if l.id = n then { l with failed := true } else l) } := by
  unfold State.endFence
  extract_lets d f
  split
  · exact .inl rfl
  · refine .inr ⟨SMap.set Fence.none d.fences (serial % 4096) { f with state := if ok then 1 else 2 }, f.launch, ?_⟩
    cases ok with
    | true => exact .inl rfl
    | false => exact .inr rfl

/-- A fence's end leaves the cards and the launches' identities. -/
theorem State.endFence_leaves (s : State) (die serial : Nat) (ok : Bool) : (s.endFence die serial ok).mem = s.mem ∧
    ((s.endFence die serial ok).die die).cards = (s.die die).cards ∧
    (s.endFence die serial ok).launches.map (fun x => x.id) = s.launches.map (fun x => x.id) := by
  obtain same | ⟨fences, n, told | failed⟩ := s.endFence_cases die serial ok
  · rw [same]
    exact ⟨rfl, rfl, rfl⟩
  · rw [told]
    refine ⟨rfl, ?_, rfl⟩
    rw [State.die_setDie, if_pos rfl]
  · rw [failed]
    refine ⟨rfl, ?_, ?_⟩
    · have set := s.die_setDie die die { s.die die with fences := fences }
      rw [if_pos rfl] at set
      have cards := congrArg Die.cards set
      exact cards
    · rw [List.map_map]
      refine List.map_congr_left fun x _ => ?_
      dsimp only [Function.comp_apply]
      split <;> rfl

/-- A card done leaves its scheduler (R354). -/
theorem State.endCard_leaves (s : State) (die serial : Nat) (ok : Bool) : (s.endCard die serial ok).mem = s.mem ∧
    ((s.endCard die serial ok).die die).cards = (s.die die).cards.filter (fun k => k.serial != serial) ∧
    (s.endCard die serial ok).launches.map (fun x => x.id) = s.launches.map (fun x => x.id) := by
  obtain ⟨mem, cards, ids⟩ := State.endFence_leaves
    (s.setDie die { s.die die with cards := (s.die die).cards.filter (fun k => k.serial != serial) }) die serial ok
  rw [State.die_setDie, if_pos rfl] at cards
  refine ⟨mem, ?_, ids⟩
  unfold State.endCard State.letGo
  dsimp only [Asker.card]
  rw [State.die_setDie, if_pos rfl]
  exact cards

theorem State.interrupt_fields (s : State) (die : Nat) (asked : Bool) :
    (s.interrupt die asked).mem = s.mem ∧ (s.interrupt die asked).launches = s.launches := by
  unfold State.interrupt
  split <;> exact ⟨rfl, rfl⟩

theorem State.queueLetsGo_fields (s : State) (die q asid : Nat) :
    (s.queueLetsGo die q asid).mem = s.mem ∧ (s.queueLetsGo die q asid).launches = s.launches := by
  have one : ∀ (t : State) (w : Asker), (t.letGo w).mem = t.mem ∧ (t.letGo w).launches = t.launches := fun _ _ => ⟨rfl, rfl⟩
  unfold State.queueLetsGo
  simp only [one, and_self]

/-- A command's end leaves the memory and the launches. -/
theorem freed_fields (t : State) (die q asid : Nat) : (t.freed die q asid).mem = t.mem ∧ (t.freed die q asid).launches = t.launches := by
  unfold State.freed
  dsimp only
  obtain ⟨mem, launches⟩ := State.queueLetsGo_fields ((t.setCmdq die q (t.cmdq die q).release).interrupt die
    (bitOf (fieldAt (t.cmdq die q).cmd 1 1) 1)) die q asid
  obtain ⟨mem', launches'⟩ := State.interrupt_fields (t.setCmdq die q (t.cmdq die q).release) die (bitOf (fieldAt (t.cmdq die q).cmd 1 1) 1)
  exact ⟨mem.trans mem', launches.trans launches'⟩

/-- What a command's end leaves of a launch's own queue, memory and list. -/
theorem freed_launchGone (t : State) (die q asid id : Nat) : ((t.freed die q asid).launchGone id).mem = t.mem ∧
    ((t.freed die q asid).launchGone id).cmdq die q = (t.cmdq die q).release ∧
    ((t.freed die q asid).launchGone id).launches = t.launches.filter (fun x => x.id != id) := by
  have queue : (t.freed die q asid).cmdq die q = (t.cmdq die q).release := by
    unfold State.freed State.queueLetsGo
    rw [State.cmdq_letGo, State.cmdq_letGo, State.cmdq_letGo, State.cmdq_letGo, State.cmdq_interrupt, State.cmdq_setCmdq, if_pos rfl]
  obtain ⟨mem, launches⟩ := freed_fields t die q asid
  exact ⟨mem, queue, congrArg (List.filter (fun x : Launch => x.id != id)) launches⟩

/-! ## The statement -/

/-- Settles O53: each event, in the state in which its work has been taken. -/
theorem chainsTasksCards : Obligations.ChainsTasksCards := by
  unfold Obligations.ChainsTasksCards
  intro s
  refine ⟨fun die q c at_ h b k found alive empty next aligned head few zeros body applied =>
      exec_operatorChain_expands found alive empty next aligned head few zeros body applied,
    fun id c kern found ready alive idle turn aligned asid => ?_, fun die q b k => ?_, fun die serial k found ready =>
      ⟨fun b kern kind may => ?_, fun r kind free runs fin => exec_jobCardStart_lists found ready kind free runs fin, fun kind room => ?_⟩,
    fun id l d found due => exec_launchEnd_phase found due, fun id l found due runs => exec_launchEnd_waits found due runs,
    fun id l found due ended => ?_⟩
  · intro s1 holds read
    have swap := exec_operatorSwap_good found ready alive idle turn aligned asid read
    refine ⟨fun two held => ?_, fun apart => ?_⟩
    · rw [swap]
      exact if_pos (by rw [two, Bool.true_and]; exact held)
    · obtain ⟨launches, mem, _⟩ := s.swapState_fields id c
      have free : ¬ ((kern.twoDies && ((s.swapState id c).leadHolds 0 || (s.swapState id c).leadHolds 1)) = true) := by
        obtain one | open_ := apart
        · rw [one]; simp
        · rw [show ((s.swapState id c).leadHolds 0 || (s.swapState id c).leadHolds 1) = false from open_]
          simp
      rw [if_neg free] at swap
      exact ⟨_, _, swap, congrArg (· ++ [_]) launches, rfl, rfl, rfl, mem, rfl⟩
  · intro x slot desc serial w s1 fresh offers may alone read good asid aligned tables npu
    refine ⟨_, _, exec_taskLaunch_begins fresh offers may alone read good asid aligned tables npu, (s.taskq_begun die q rfl).1,
      (s.taskq_begun die q rfl).2, rfl, rfl, rfl, rfl, fun i small => ?_, fun i large => ?_⟩
    · exact (SMap.get_foldl_range k.pool _ _ i).trans (if_pos small)
    · exact (SMap.get_foldl_range k.pool _ _ i).trans (if_neg (by omega))
  · intro s1 read op good tables
    have launched := exec_jobCardStart_launches found ready kind may read op good tables
    have fields : (cardState s die k).launches = s.launches ∧ (cardState s die k).mem = s.mem := by
      unfold cardState
      split <;> exact ⟨rfl, rfl⟩
    rw [card_serial found] at launched
    exact ⟨_, _, launched, congrArg (· ++ [_]) fields.1, rfl, rfl, rfl, fields.2⟩
  · refine ⟨_, exec_jobCardStart_solves found ready kind room, ?_, rfl⟩
    rw [State.sequencer_setSequencer, if_pos rfl]
  · refine ⟨fun die q t src posted => ?_, fun die serial src => ?_⟩
    · have ends : exec (.launchEnd id) s = .next ((t.freed die q l.asid).launchGone id) := by
        rw [exec_launchEnd_queue found due ended src, State.endCommand]
        dsimp only
        rw [show (s.emptied l).postRecord (Asker.queue die q l.asid) l.crec _ = .ok t from posted]
        rfl
      exact ⟨_, ends, freed_launchGone t die q l.asid id⟩
    · obtain ⟨mem, cards, ids⟩ := ((s.emptied l).launchGone id).endCard_leaves die serial (!l.killed)
      have only := s.emptied_cachesOnly l
      refine ⟨_, exec_launchEnd_card found due ended src, mem.trans only.mem, cards.trans ?_, ids.trans ?_⟩
      · have here : ((s.emptied l).die die).cards = (s.die die).cards := by
          rw [only.2 die]
        exact congrArg (List.filter (fun k => k.serial != serial)) here
      · have here : (s.emptied l).launches = s.launches := by
          rw [only.1]
        exact congrArg (fun x => (x.filter (fun x : Launch => x.id != id)).map (fun x => x.id)) here

end Sys2Proof.Machine

/-!
PROOFS. Binding a crew to a slot (R34, R351, R352): a fresh crew whose name a side log still holds.
-/

namespace Sys2Proof.Machine

/-- A launch of one crew on the NPU cores of die 0. -/
def loneLaunch : Launch :=
  { id := 0, src := .queue 0 0, die := 0, asid := 0, prio := 0, flags := 0, handler := 0, set0 := 1, set1 := 0, image := 0, crec := 0, a := 0,
    kern := { Kernel.empty with levels := [(1, 1)] }, total := 1, bound := 0, retired := 0, killed := false, failed := false, phased := [],
    parts := [], agents := [] }

/-- A store under the name that the next crew takes. -/
def strayStore : Write :=
  { id := 0, core := 129, uid := 1, strm := .s, word := 0, key := 0, asid := 1, oc := 0, sc := 0, va := 0, pa := 0, bytes := [], nib := none,
    op := .store, att := Att.plain, sent := false, takes := false }

/-- The launch waits to be bound, and another core's side log holds the store. -/
def loggedState : State :=
  { State.reset with launches := [loneLaunch], cores := [(129, { Core.reset true with log := [{ w := strayStore, page := 0, released := false }] })] }

/-- The record that the firmware writes for the launch's crew. -/
def loneRecord : BindRec := loneLaunch.record 0 0

theorem loggedState_binds : loggedState.bindRefusal 128 0 loneRecord none = none ∧
    loggedState.bindTarget (placeAt 128 0) loneRecord = some (loneLaunch, 0) ∧ loneRecord.group = 0 ∧
    ∀ c ∈ loggedState.crews, c.uid ≠ loggedState.nextId := by
  decide

set_option maxRecDepth 20000 in
/-- The crew is bound, but it waits: a side log holds a store of its name (R336). -/
theorem loggedState_waits : ((loggedState.bindFresh (placeAt 128 0) loneRecord loneLaunch 0).findCrew 1).map (fun c => c.life) = some .waiting := by
  decide

/-- Refutes O54: the clause on a fresh crew asks that it runs, and nothing keeps its name out of the side logs; while one holds it, the crew
waits. -/
theorem not_bind : ¬ Obligations.Bind := by
  unfold Obligations.Bind
  intro all
  obtain ⟨refusal, target, group, fresh⟩ := loggedState_binds
  obtain ⟨_, _, bound, _⟩ := all loggedState 128 0 loneRecord (by decide) (by decide)
  obtain ⟨_, starts⟩ := bound loneLaunch 0 refusal target
  obtain ⟨c, found, running, _⟩ := starts group (fun d n eq => by cases eq) fresh
  have waits := loggedState_waits
  have found' : (loggedState.bindFresh (placeAt 128 0) loneRecord loneLaunch 0).findCrew 1 = some c := found
  rw [found', Option.map_some, running] at waits
  cases waits

end Sys2Proof.Machine

/-!
PROOFS. What the copy engine's runs keep (R195, R199-R209): whatever its stores, its reads and its walks keep.
-/

namespace Sys2Proof.Machine

/-- What every access of a copy engine keeps: a store, a claim of a scratchpad, a read at home, a walk, and the note of what a read returned
(R195, R272, R305, R433). -/
structure EngineKeeps (P : State → Prop) : Prop where
  store : ∀ (s : State) (die : Nat) (sp : Space) (x : Nat) (bs : List Byte), P s → P (s.engineStore die sp x bs)
  claim : ∀ (s : State) (asid : Nat) (sp : Space), P s → P (s.claim asid sp)
  read : ∀ (s : State) (pa len : Nat), P s → P (s.engineRead pa len)
  walked : ∀ (s : State) (die asid va : Nat), P s → P (s.engineWalked die asid va)
  seen : ∀ (s : State) (oc sc pa len : Nat), P s → P { s with crew := s.noteSeen s.crew oc sc pa len }

section
variable {P : State → Prop}

/-! ## Runs -/

/-- What an access ends with, taken apart. -/
theorem Fetch.andThen_ok {α β : Type} {x : Fetch α} {f : α → Fetch β} {b : β} (h : x.andThen f = .ok b) : ∃ a, x = .ok a ∧ f a = .ok b := by
  cases x with
  | ok a => exact ⟨a, rfl, h⟩
  | held va r => cases h
  | bad k t => cases h
  | busy => cases h
  | snoop pa len => cases h

/-- A read that keeps what holds of its state. -/
def ReadKeeps (P : State → Prop) (x : State → Fetch (List Byte × State)) : Prop := ∀ s b t, P s → x s = .ok (b, t) → P t

theorem JobRun.read_keeps {x : State → Fetch (List Byte × State)} (hx : ReadKeeps P x) (r : JobRun) (h : P r.s) : P (r.read x).1.s := by
  unfold JobRun.read
  split
  · exact h
  · split
    · exact h
    · split
      · next got => exact hx _ _ _ h got
      · exact h

theorem JobRun.readAll_keeps (xs : List (State → Fetch (List Byte × State))) (hx : ∀ x ∈ xs, ReadKeeps P x) (r : JobRun) (h : P r.s) :
    P (r.readAll xs).1.s := by
  induction xs generalizing r with
  | nil => exact h
  | cons x xs ih =>
    exact ih (fun y hy => hx y (List.mem_cons_of_mem x hy)) _ (r.read_keeps (hx x List.mem_cons_self) h)

theorem JobRun.act_keeps {x : State → Fetch (State × Flags)} (hx : ∀ s t f, P s → x s = .ok (t, f) → P t) (r : JobRun) (h : P r.s) :
    P (r.act x).s := by
  unfold JobRun.act
  split
  · exact h
  · split
    · exact h
    · split
      · next got => exact hx _ _ _ h got
      · exact h

theorem JobRun.check_keeps (bad : Option (Fetch Unit)) (r : JobRun) (h : P r.s) : P (r.check bad).s := by
  unfold JobRun.check
  split
  · split <;> exact h
  · exact h

end

section
variable {P : State → Prop} (keeps : EngineKeeps P)
include keeps

/-! ## Accesses -/

theorem EngineKeeps.engineSees (s : State) (oc sc path a len : Nat) (h : P s) : P (s.engineSees oc sc path a len) := by
  unfold State.engineSees
  split
  · next pa _ _ =>
    have walked := keeps.walked _ s.crew.place.die s.crew.bindRec.asid a (keeps.seen s oc sc pa len h)
    split
    · exact walked
    · exact keeps.read _ _ _ walked
  · exact h

theorem EngineKeeps.storeMany {s t : State} {c : Crew} {path : Nat} {l : List (Nat × List Byte)} (h : P s) (stored : s.storeMany c path l = .ok t) :
    P t := by
  unfold State.storeMany at stored
  obtain ⟨placed, _, stores⟩ := Fetch.andThen_ok stored
  split at stores
  · cases stores
  · cases stores
    refine foldl_keeps P _ (fun s x h => ?_) placed s h
    refine keeps.claim _ _ _ (keeps.store _ _ _ _ _ ?_)
    split
    · exact keeps.walked _ _ _ _ h
    · exact h

theorem EngineKeeps.storeRange {s t : State} {c : Crew} {path a : Nat} {bs : List Byte} (h : P s) (stored : s.storeRange c path a bs = .ok t) :
    P t := keeps.storeMany h stored

theorem EngineKeeps.run_range (c : Crew) (oc sc path a n : Nat) (r : JobRun) (h : P r.s) : P (r.range c oc sc path a n).1.s := by
  unfold JobRun.range
  refine JobRun.readAll_keeps _ (fun x hx => ?_) r h
  obtain ⟨p, _, rfl⟩ := List.mem_map.1 hx
  intro s b t hs got
  obtain ⟨bs, _, ok⟩ := Fetch.andThen_ok got
  cases ok
  exact keeps.engineSees _ _ _ _ _ _ hs

theorem EngineKeeps.run_from (c : Crew) (oc : Nat) (w : Word) (n : Nat) (r : JobRun) (h : P r.s) : P (r.from_ c oc w n).1.s :=
  keeps.run_range c oc 5 _ _ n r h

theorem EngineKeeps.run_store (c : Crew) (path a : Nat) (bs : List Byte) (r : JobRun) (h : P r.s) : P (r.store c path a bs).s := by
  unfold JobRun.store
  refine foldl_keeps (fun r : JobRun => P r.s) _ (fun r p h => r.act_keeps (fun s t f hs got => ?_) h) _ r h
  obtain ⟨u, stored, ok⟩ := Fetch.andThen_ok got
  cases ok
  exact keeps.storeRange hs stored

theorem EngineKeeps.run_storeAll (c : Crew) (path : Nat) (l : List (Nat × List Byte)) (r : JobRun) (h : P r.s) : P (r.storeAll c path l).s := by
  refine r.act_keeps (fun s t f hs got => ?_) h
  obtain ⟨u, stored, ok⟩ := Fetch.andThen_ok got
  cases ok
  exact keeps.storeMany hs stored

theorem EngineKeeps.run_region (c : Crew) (oc : Nat) (hd : Handle) (o : KH) (r : JobRun) (h : P r.s) : P (r.region c oc hd o).1.s := by
  unfold JobRun.region
  refine JobRun.readAll_keeps _ (fun x hx => ?_) r h
  obtain ⟨p, _, rfl⟩ := List.mem_map.1 hx
  intro s b t hs got
  obtain ⟨bs, _, ok⟩ := Fetch.andThen_ok got
  cases ok
  split
  · exact keeps.engineSees _ _ _ _ _ _ hs
  · exact hs

theorem EngineKeeps.run_sectors (c : Crew) (oc : Nat) (hd : Handle) (o : KH) (r : JobRun) (h : P r.s) : P (r.sectors c oc hd o).1.s := by
  unfold JobRun.sectors
  refine JobRun.readAll_keeps _ (fun x hx => ?_) r h
  obtain ⟨k, _, rfl⟩ := List.mem_map.1 hx
  intro s b t hs got
  obtain ⟨bs, _, ok⟩ := Fetch.andThen_ok got
  cases ok
  exact keeps.engineSees _ _ _ _ _ _ hs

theorem EngineKeeps.run_multicast (c : Crew) (cores : List Nat) (off : Nat) (bs : List Byte) (r : JobRun) (h : P r.s) :
    P (r.multicast c cores off bs).s :=
  foldl_keeps (fun r : JobRun => P r.s) _ (fun r _ h => keeps.run_store c 3 _ bs r h) cores r h

/-! ## Lists, indices and transforms -/

theorem EngineKeeps.run_walk (c : Crew) (oc ol sl : Nat) (pred : Option Nat) (left e : Nat) (r : JobRun) (h : P r.s) :
    P (r.walk c oc ol sl pred left e).s := by
  induction left generalizing e r with
  | zero =>
    unfold JobRun.walk
    split
    · exact h
    · exact r.check_keeps _ h
  | succ n ih =>
    unfold JobRun.walk
    split
    · exact h
    · have element := keeps.run_range c ol sl 0 e 32 r h
      generalize r.range c ol sl 0 e 32 = x at element ⊢
      obtain ⟨r1, b⟩ := x
      have tested : ∀ (test : Bool) (r : JobRun), P r.s → P (if test then r.range c oc 5 0 (pred.getD 0) 8 else (r, ([] : List Byte))).1.s := by
        intro test r h
        cases test with
        | true => exact keeps.run_range c oc 5 0 _ 8 r h
        | false => exact h
      have copied : ∀ (go : Bool) (w : Word) (n : Nat) (r : JobRun), P r.s → P (if go then r.from_ c oc w n else (r, ([] : List Byte))).1.s := by
        intro go w n r h
        cases go with
        | true => exact keeps.run_from c oc w n r h
        | false => exact h
      dsimp only
      generalize (fieldAt b 20 4 % 2 == 1) = test
      generalize checked : JobRun.check _ r1 = r2
      have second : P r2.s := checked ▸ r1.check_keeps _ element
      have third := tested test r2 second
      generalize (if test then r2.range c oc 5 0 (pred.getD 0) 8 else (r2, ([] : List Byte))) = y at third ⊢
      obtain ⟨r3, p⟩ := y
      dsimp only
      split
      · exact ih _ _ third
      · generalize checked : JobRun.check _ r3 = r4
        have fourth : P r4.s := checked ▸ r3.check_keeps _ third
        have fifth := copied r4.going (BitVec.ofNat 64 (fieldAt b 0 8)) (fieldAt b 16 4) r4 fourth
        generalize (if r4.going then r4.from_ c oc (BitVec.ofNat 64 (fieldAt b 0 8)) (fieldAt b 16 4) else (r4, ([] : List Byte))) = z
          at fifth ⊢
        exact ih _ _ (keeps.run_store _ _ _ _ z.1 fifth)

theorem EngineKeeps.scatOne {s t : State} {c : Crew} {path ty : Nat} {red : Option Nat} {a v : Nat} {f : Flags} (h : P s)
    (stored : s.scatOne c path ty red a v = .ok (t, f)) : P t := by
  have put : ∀ (bs : List Byte) (g : Flags), ((s.storeRange c path a bs).andThen (fun s1 => .ok (s1, g))) = .ok (t, f) → P t := by
    intro bs g both
    obtain ⟨u, stored, ok⟩ := Fetch.andThen_ok both
    cases ok
    exact keeps.storeRange h stored
  unfold State.scatOne at stored
  cases red with
  | none => exact put _ _ stored
  | some op =>
    obtain ⟨x, _, stored⟩ := Fetch.andThen_ok stored
    exact put _ _ stored

theorem EngineKeeps.run_scat (c : Crew) (j : Job) (red : Option Nat) (r : JobRun) (h : P r.s) : P (r.scat c j red).s := by
  have indices : P (r.indices c j).1.s := keeps.run_from c j.oc j.b _ r h
  unfold JobRun.scat
  refine foldl_keeps (fun r : JobRun => P r.s) _ (fun r x h => ?_) _ _ (keeps.run_from c j.oc j.a _ _ indices)
  exact JobRun.act_keeps (fun s t f hs stored => keeps.scatOne hs stored) _ (r.check_keeps _ h)

theorem EngineKeeps.run_gath (c : Crew) (j : Job) (r : JobRun) (h : P r.s) : P (r.gath c j).s := by
  have indices : P (r.indices c j).1.s := keeps.run_from c j.oc j.b _ r h
  unfold JobRun.gath
  refine keeps.run_store _ _ _ _ _ (JobRun.readAll_keeps _ (fun x hx => ?_) _ indices)
  obtain ⟨i, _, rfl⟩ := List.mem_map.1 hx
  intro s b t hs got
  dsimp only at got
  split at got
  · cases got
  · obtain ⟨bs, _, ok⟩ := Fetch.andThen_ok got
    cases ok
    exact keeps.engineSees _ _ _ _ _ _ hs

theorem EngineKeeps.run_rows (c : Crew) (oc path a pitch n : Nat) (is : List Nat) (x : JobRun × List (List Byte)) (h : P x.1.s) :
    P (is.foldl (fun (x : JobRun × List (List Byte)) i =>
      let (r, b) := x.1.range c oc 5 path (a + i * pitch) n
      (r, x.2 ++ [b])) x).1.s :=
  foldl_keeps (fun x : JobRun × List (List Byte) => P x.1.s)
    (fun (x : JobRun × List (List Byte)) i =>
      let (r, b) := x.1.range c oc 5 path (a + i * pitch) n
      (r, x.2 ++ [b]))
    (fun x i h => keeps.run_range c oc 5 path (a + i * pitch) n x.1 h) is x h

theorem EngineKeeps.run_xfm (c : Crew) (j : Job) (r : JobRun) (h : P r.s) : P (r.xfm c j).s := by
  have read : ∀ n, P (JobRun.range c j.oc 5 (placeOr j.a).1 (placeOr j.a).2 n { r with old := [] }).1.s :=
    fun n => keeps.run_range _ _ _ _ _ _ _ h
  unfold JobRun.xfm JobRun.transform
  dsimp only
  split
  · exact h
  · split
    · have rows := keeps.run_rows c j.oc (placeOr j.a).1 (placeOr j.a).2 (j.imm / 2 ^ 24) (4 * (j.imm % 32 + 1)) (List.range (j.imm % 32 + 1))
        ({ r with old := [] }, []) h
      generalize List.foldl _ _ _ = x at rows ⊢
      exact keeps.run_storeAll _ _ _ x.1 rows
    · have got := read ((j.imm % 2 ^ 24 * max (eltBits (j.imm / 2 ^ 30 % 32)) (eltBits (j.imm / 2 ^ 35)) + 7) / 8)
      generalize JobRun.range _ _ _ _ _ _ _ = x at got ⊢
      exact keeps.run_storeAll _ _ _ x.1 got
    · have got := read (j.imm % 2 ^ 16 * 64 * (if j.imm / 2 ^ 39 = 1 then 4 else 2))
      generalize JobRun.range _ _ _ _ _ _ _ = x at got ⊢
      exact keeps.run_storeAll _ _ _ _ (x.1.check_keeps _ got)
    · have got := read (4 * (j.imm % 2 ^ 24))
      generalize JobRun.range _ _ _ _ _ _ _ = x at got ⊢
      obtain ⟨r1, b⟩ := x
      dsimp only at got ⊢
      split
      · exact got
      · exact keeps.run_storeAll _ _ _ r1 got

/-! ## Jobs -/

/-- A data-moving job's run keeps what every access of an engine keeps. -/
theorem EngineKeeps.runJob (s : State) (c : Crew) (j : Job) (h : P s) : P (s.runJob c j).s := by
  have r : P (j.run s).s := h
  unfold State.runJob
  extract_lets _ region
  have regions : ∀ (o : KH) (go : JobRun × List Byte → JobRun), (∀ x, P x.1.s → P (go x).s) → P (region o go).s := by
    intro o go hgo
    dsimp only [region]
    split
    · exact hgo _ (keeps.run_region _ _ _ _ _ r)
    · exact r
  split
  · exact regions _ _ (fun x hx => keeps.run_store _ _ _ _ _ hx)
  · exact keeps.run_store _ _ _ _ _ (keeps.run_from _ _ _ _ _ r)
  · split
    · exact keeps.run_multicast _ _ _ _ _ (keeps.run_sectors _ _ _ _ _ r)
    · exact r
  · exact keeps.run_multicast _ _ _ _ _ (keeps.run_from _ _ _ _ _ r)
  · exact keeps.run_walk _ _ _ _ _ _ _ _ r
  · exact keeps.run_scat _ _ _ _ r
  · exact keeps.run_scat _ _ _ _ r
  · exact keeps.run_gath _ _ _ r
  · exact keeps.run_xfm _ _ _ r
  · exact keeps.run_xfm _ _ _ r
  · exact keeps.run_xfm _ _ _ r
  · exact keeps.run_xfm _ _ _ r
  · exact keeps.run_store _ _ _ _ _ r
  · exact keeps.run_store _ _ _ _ _ r
  · exact keeps.run_from _ _ _ _ _ r
  · exact JobRun.check_keeps _ _ r

theorem EngineKeeps.storeTries (s : State) (c : Crew) (j : Job) (path : Nat) (starts : List Nat) (l : List (Fetch Byte)) (h : P s) :
    P (s.storeTries c j path starts l) := by
  unfold State.storeTries
  refine foldl_keeps P _ (fun s p h => ?_) _ s h
  split
  · split
    · next stored => exact keeps.storeRange h stored
    · exact h
  · exact h

/-- So does what a job that ends early could have written (R196, R262). -/
theorem EngineKeeps.reached (s : State) (c : Crew) (j : Job) (h : P s) : P (s.reached c j) := by
  unfold State.reached
  extract_lets region cores data
  have regions : ∀ (o : KH) (go : List (Fetch Byte) → State), (∀ l, P (go l)) → P (region o go) := by
    intro o go hgo
    dsimp only [region]
    split
    · exact hgo _
    · exact h
  split
  · exact regions _ _ (fun l => keeps.storeTries _ _ _ _ _ l h)
  · exact keeps.storeTries _ _ _ _ _ _ h
  · exact regions _ _ (fun l => keeps.storeTries _ _ _ _ _ l h)
  · exact keeps.storeTries _ _ _ _ _ _ h
  · exact keeps.storeTries _ _ _ _ _ _ h
  · exact keeps.storeTries _ _ _ _ _ _ h
  · exact keeps.runJob s c j h

end

end Sys2Proof.Machine

/-!
PROOFS. A kill of a context (R262, R263, R427).
-/

namespace Sys2Proof.Machine

/-! ## What a kill goes by -/

/-- Two states with the same crews and kills. -/
def State.sameRoll (s t : State) : Prop := t.crew = s.crew ∧ t.rest = s.rest ∧ t.kills = s.kills

theorem State.sameRoll.refl (s : State) : s.sameRoll s := ⟨rfl, rfl, rfl⟩

theorem State.sameRoll.trans {s t u : State} (h : s.sameRoll t) (k : t.sameRoll u) : s.sameRoll u :=
  ⟨k.1.trans h.1, k.2.1.trans h.2.1, k.2.2.trans h.2.2⟩

theorem State.foldl_sameRoll {β : Type} (f : State → β → State) (hf : ∀ (s : State) (b : β), s.sameRoll (f s b)) (l : List β) (s : State) :
    s.sameRoll (l.foldl f s) :=
  foldl_keeps (fun t => s.sameRoll t) f (fun t b h => h.trans (hf t b)) l s (State.sameRoll.refl s)

theorem State.storesOnly.roll {s t : State} (h : s.storesOnly t) : s.sameRoll t := by
  rw [h.1]
  exact ⟨rfl, rfl, rfl⟩

theorem State.cachesOnly.roll {s t : State} (h : s.cachesOnly t) : s.sameRoll t := h.stores.roll

/-- What a kill asks of a crew: its name, its ASID, and whether it is there. -/
def Crew.killEntry (c : Crew) : Nat × Nat × Life := (c.uid, c.bindRec.asid, c.life)

/-- The front crew's entry, the other crews and the kills are the given ones. -/
def State.rollIs (e : Nat × Nat × Life) (rest : List Crew) (kills : List Kill) (t : State) : Prop :=
  t.crew.killEntry = e ∧ t.rest = rest ∧ t.kills = kills

theorem State.sameRoll.rollIs {s t : State} (h : s.sameRoll t) {e : Nat × Nat × Life} {rest : List Crew} {kills : List Kill}
    (k : s.rollIs e rest kills) : t.rollIs e rest kills := by
  obtain ⟨entry, others, killing⟩ := k
  exact ⟨by rw [h.1]; exact entry, h.2.1.trans others, h.2.2.trans killing⟩

/-- No access of a copy engine changes it. -/
theorem engineKeeps_rollIs (e : Nat × Nat × Life) (rest : List Crew) (kills : List Kill) : EngineKeeps (State.rollIs e rest kills) where
  store s die sp x bs h := by
    refine State.sameRoll.rollIs ?_ h
    unfold State.engineStore
    split
    · split
      · exact (s.remoteStore_cachesOnly die x bs).roll
      · exact (s.engineWrite_storesOnly x bs).roll
    · unfold State.setSpace
      split
      · split <;> exact ⟨rfl, rfl, rfl⟩
      · exact ⟨rfl, rfl, rfl⟩
      · exact ⟨rfl, rfl, rfl⟩
  claim s asid sp h := by
    refine State.sameRoll.rollIs ?_ h
    unfold State.claim
    split
    · dsimp only
      split <;> exact ⟨rfl, rfl, rfl⟩
    · exact .refl s
  read s pa len h := (s.engineRead_cachesOnly pa len).roll.rollIs h
  walked s die asid va h := (s.engineWalked_cachesOnly die asid va).roll.rollIs h
  seen _ _ _ _ _ h := h

/-! ## Jobs that stop -/

theorem State.mix_roll (s t : State) : t.sameRoll (s.mix t) := ⟨rfl, rfl, rfl⟩

theorem State.stopJobs_roll (s : State) (c : Crew) : (s.stopJobs c).rollIs s.crew.killEntry s.rest s.kills :=
  foldl_keeps (State.rollIs s.crew.killEntry s.rest s.kills) (fun t j => t.mix (t.reached c j))
    (fun t j h => (t.mix_roll _).rollIs ((engineKeeps_rollIs _ _ _).reached t c j h)) c.jobs s ⟨rfl, rfl, rfl⟩

/-- The jobs of some crews stop: no crew leaves. -/
theorem State.foldl_stopJobs_roll (s : State) (gone : List Crew) :
    (gone.foldl (fun s c => s.stopJobs c) s).rollIs s.crew.killEntry s.rest s.kills := by
  refine foldl_keeps (State.rollIs s.crew.killEntry s.rest s.kills) _ (fun t c h => ?_) gone s ⟨rfl, rfl, rfl⟩
  obtain ⟨entry, rest, kills⟩ := h
  obtain ⟨entry', rest', kills'⟩ := t.stopJobs_roll c
  exact ⟨entry'.trans entry, rest'.trans rest, kills'.trans kills⟩

/-- A scatter-gather list runs with the engine standing for a crew; the crews stand as before (R354). -/
theorem State.cardRun_roll {s : State} {die : Nat} {k : Card} {r : JobRun} (runs : s.cardRun die k = some r) : s.sameRoll r.s := by
  unfold State.cardRun at runs
  dsimp only at runs
  obtain ⟨p, _, rfl⟩ := Option.map_eq_some_iff.1 runs
  obtain ⟨_, rest, kills⟩ := (engineKeeps_rollIs (k.crew die).killEntry (s.crew :: s.rest) s.kills).run_walk (k.crew die) 0 0 5 p (2 ^ 20) k.a
    { s := { s with crew := k.crew die, rest := s.crew :: s.rest }, old := k.got, reads := [], skip := k.wrote, wrote := 0, flags := 0,
      fin := .ok () } ⟨rfl, rfl, rfl⟩
  generalize JobRun.walk _ _ _ _ _ _ _ _ = r at rest kills ⊢
  rw [rest]
  exact ⟨rfl, rfl, kills⟩

/-! ## Work outside the crews -/

theorem State.muteFence_roll (s : State) (die serial : Nat) : s.sameRoll (s.muteFence die serial) := ⟨rfl, rfl, rfl⟩

theorem State.endFence_roll (s : State) (die serial : Nat) (ok : Bool) : s.sameRoll (s.endFence die serial ok) := by
  obtain same | ⟨_, _, told | failed⟩ := s.endFence_cases die serial ok
  · rw [same]
    exact .refl s
  · rw [told]
    exact ⟨rfl, rfl, rfl⟩
  · rw [failed]
    exact ⟨rfl, rfl, rfl⟩

theorem State.endTask_roll (s : State) (die q serial : Nat) (ok : Bool) : s.sameRoll (s.endTask die q serial ok) := by
  have freed : s.sameRoll (s.setTaskq die q { s.taskq die q with busy := false, reading := none }) := ⟨rfl, rfl, rfl⟩
  have ended := freed.trans (State.endFence_roll _ die serial ok)
  exact ended

theorem State.killCards_roll (s : State) (asid die : Nat) : s.sameRoll (s.killCards asid die).2 := by
  unfold State.killCards
  extract_lets d mine gone stop s0 _ s1
  have stopped : s.sameRoll s0 := by
    refine State.foldl_sameRoll stop (fun t k => ?_) gone s
    dsimp only [stop]
    split
    · exact .refl t
    · split
      · next runs => exact (State.cardRun_roll runs).trans (State.mix_roll _ _)
      · exact .refl t
  have left : s0.sameRoll s1 := ⟨rfl, rfl, rfl⟩
  exact (stopped.trans left).trans (State.foldl_sameRoll _ (fun t k => t.muteFence_roll die k.serial) gone s1)

theorem State.killSequencer_roll (s : State) (asid n : Nat) : s.sameRoll (s.killSequencer asid n).2 := by
  unfold State.killSequencer
  extract_lets x run queued s1 jobs
  have left : s.sameRoll s1 := ⟨rfl, rfl, rfl⟩
  exact left.trans (State.foldl_sameRoll _ (fun t j => t.muteFence_roll j.die j.serial) jobs s1)

theorem State.killWork_roll (s : State) (asid : Nat) : s.sameRoll (s.killWork asid) := by
  unfold State.killWork
  extract_lets dieOne taskOne s1 stop
  have dies : s.sameRoll ((List.range 2).foldl dieOne s) := State.foldl_sameRoll dieOne (fun _ _ => ⟨rfl, rfl, rfl⟩) _ s
  have tasks : ∀ (t : State) (die : Nat), t.sameRoll (taskOne t die) := by
    intro t die
    refine State.foldl_sameRoll _ (fun t x => ?_) _ t
    split
    · split
      · exact t.endTask_roll die x.1 _ false
      · exact .refl t
    · exact .refl t
  have done : s.sameRoll s1 := dies.trans (State.foldl_sameRoll taskOne tasks _ _)
  exact done

/-! ## The cores' side logs -/

theorem State.endFence_cores (s : State) (die serial : Nat) (ok : Bool) : (s.endFence die serial ok).cores = s.cores := by
  obtain same | ⟨_, _, told | failed⟩ := s.endFence_cases die serial ok
  · rw [same]
  · rw [told]
    rfl
  · rw [failed]
    rfl

theorem State.killWork_cores (s : State) (asid : Nat) : (s.killWork asid).cores = s.cores := by
  have tasks : ∀ (t : State) (die q serial : Nat), (t.endTask die q serial false).cores = t.cores := by
    intro t die q serial
    exact State.endFence_cores (t.setTaskq die q { t.taskq die q with busy := false, reading := none }) die serial false
  have keepsTask : ∀ (t : State) (die : Nat), ((t.die die).taskQueues.foldl (fun s x =>
      match x.2.reading with
      | some (_, serial) => if ctlAsid x.2.ctl = asid then s.endTask die x.1 serial false else s
      | none => s) t).cores = t.cores := by
    intro t die
    refine foldl_keeps (fun u : State => u.cores = t.cores) _ (fun u x h => ?_) _ t rfl
    split
    · split
      · exact (tasks _ _ _ _).trans h
      · exact h
    · exact h
  unfold State.killWork
  extract_lets dieOne taskOne s1 stop
  have dies : ((List.range 2).foldl dieOne s).cores = s.cores :=
    foldl_keeps (fun u : State => u.cores = s.cores) dieOne (fun _ _ h => h) _ s rfl
  have done : s1.cores = s.cores :=
    foldl_keeps (fun u : State => u.cores = s.cores) taskOne (fun u die h => (keepsTask u die).trans h) _ _ dies
  exact done

/-- One core's log rid of an ASID's entries. -/
def State.dropLog (asid : Nat) (s : State) (k : Nat) : State :=
  s.setCore k { s.core k with log := (s.core k).log.filter (fun e => e.w.asid != asid) }

theorem State.core_dropLog (asid : Nat) (s : State) (k n : Nat) : ((s.dropLog asid k).core n).log =
    if k = n then (s.core n).log.filter (fun e => e.w.asid != asid) else (s.core n).log := by
  rw [State.dropLog, State.core_setCore]
  by_cases h : k = n
  · rw [if_pos h, if_pos h, h]
  · rw [if_neg h, if_neg h]

/-- The logs of some cores rid of an ASID's entries stay so. -/
theorem State.foldl_dropLog_kept (asid : Nat) (ks : List Nat) (s : State) {n : Nat} (clean : ∀ e ∈ (s.core n).log, e.w.asid ≠ asid) :
    ∀ e ∈ ((ks.foldl (State.dropLog asid) s).core n).log, e.w.asid ≠ asid := by
  refine foldl_keeps (fun t : State => ∀ e ∈ (t.core n).log, e.w.asid ≠ asid) _ (fun t k h e he => ?_) ks s clean
  rw [State.core_dropLog] at he
  split at he
  · exact h e (List.mem_of_mem_filter he)
  · exact h e he

theorem State.foldl_dropLog_clean (asid : Nat) (ks : List Nat) (s : State) {n : Nat} (named : n ∈ ks) :
    ∀ e ∈ ((ks.foldl (State.dropLog asid) s).core n).log, e.w.asid ≠ asid := by
  induction ks generalizing s with
  | nil => cases named
  | cons k ks ih =>
    by_cases later : n ∈ ks
    · exact ih _ later
    · obtain rfl : n = k := (List.mem_cons.1 named).resolve_right later
      refine State.foldl_dropLog_kept asid ks _ (fun e he => ?_)
      rw [State.core_dropLog, if_pos rfl] at he
      simpa using (List.mem_filter.1 he).2

/-- A core that no list names has an empty log. -/
theorem State.log_unlisted {s : State} {n : Nat} (unlisted : n ∉ s.cores.map (fun x => x.1)) : (s.core n).log = [] := by
  have get : ∀ (d : Core) (l : SMap Core), n ∉ l.map (fun x => x.1) → SMap.get d l n = d := by
    intro d l
    induction l with
    | nil => exact fun _ => rfl
    | cons x l ih =>
      obtain ⟨k, v⟩ := x
      intro out
      rw [List.map_cons, List.mem_cons, not_or] at out
      rw [SMap.get, if_neg (fun h => out.1 h.symm)]
      exact ih out.2
  unfold State.core
  rw [get _ _ unlisted]
  rfl

/-- No core keeps an entry of an ASID whose logs were dropped. -/
theorem State.dropLogs_clean (s : State) (asid n : Nat) :
    ∀ e ∈ (((s.cores.map (fun x => x.1)).foldl (State.dropLog asid) s).core n).log, e.w.asid ≠ asid := by
  by_cases listed : n ∈ s.cores.map (fun x => x.1)
  · exact State.foldl_dropLog_clean asid _ s listed
  · refine State.foldl_dropLog_kept asid _ s (fun e he => ?_)
    rw [State.log_unlisted listed] at he
    cases he

/-! ## The crews that go -/

/-- Some crews gone from their slots, and from the machine. -/
def State.dropCrews (s : State) (gone : List Crew) : State :=
  gone.foldl (fun s c =>
    let s := if c.life == .preempted || c.life == .stopped then s else s.freeSlot c
    s.dropCrew c.uid) s

theorem Crew.absent_killedBy (asid : Nat) : Crew.absent.killedBy asid = false := by
  unfold Crew.killedBy
  exact Bool.and_false _

/-- A crew that is left after some are gone stood there before and is none of them. -/
theorem State.crews_dropCrews (s : State) (gone : List Crew) (asid : Nat) {c : Crew} (left : c ∈ (s.dropCrews gone).crews)
    (mine : c.killedBy asid = true) : c ∈ s.crews ∧ ∀ g ∈ gone, c.uid ≠ g.uid := by
  induction gone generalizing s with
  | nil => exact ⟨left, fun g hg => by cases hg⟩
  | cons g gone ih =>
    obtain ⟨before, others⟩ := ih _ left
    have freed : ∀ t : State, t.crews = s.crews → c ∈ (t.dropCrew g.uid).crews → c ∈ s.crews ∧ c.uid ≠ g.uid := by
      intro t same here
      unfold State.dropCrew State.crews at here
      rw [List.mem_cons] at here
      obtain front | behind := here
      · dsimp only at front
        split at front
        · rw [front, Crew.absent_killedBy] at mine
          cases mine
        · next other =>
          rw [← same, front]
          exact ⟨List.mem_cons_self, other⟩
      · obtain ⟨inside, other⟩ := List.mem_filter.1 behind
        rw [← same]
        exact ⟨List.mem_cons_of_mem _ inside, by simpa using other⟩
    have here : c ∈ s.crews ∧ c.uid ≠ g.uid := by
      refine freed _ ?_ before
      split <;> rfl
    refine ⟨here.1, fun x hx => ?_⟩
    obtain rfl | hx := List.mem_cons.1 hx
    · exact here.2
    · exact others x hx

theorem State.dropCrews_kills (s : State) (gone : List Crew) : (s.dropCrews gone).kills = s.kills := by
  refine foldl_keeps (fun t : State => t.kills = s.kills) _ (fun t c h => ?_) gone s rfl
  dsimp only
  split <;> exact h

/-! ## The kill -/

/-- The jobs of some crews stop, and the crews go (R262). -/
def State.killCrews (s : State) (gone : List Crew) : State := (gone.foldl (fun s c => s.stopJobs c) s).dropCrews gone

/-- No crew of the ASID is left. -/
theorem State.killCrews_none (s : State) (asid : Nat) :
    ∀ c ∈ (s.killCrews (s.crews.filter (fun c => c.killedBy asid))).crews, c.killedBy asid = false := by
  intro c left
  by_contra mine
  rw [Bool.not_eq_false] at mine
  obtain ⟨before, apart⟩ := State.crews_dropCrews _ _ asid left mine
  obtain ⟨entry, rest, _⟩ := s.foldl_stopJobs_roll (s.crews.filter (fun c => c.killedBy asid))
  obtain front | behind := List.mem_cons.1 before
  · have same : c.killEntry = s.crew.killEntry := by rw [front]; exact entry
    unfold Crew.killEntry at same
    simp only [Prod.mk.injEq] at same
    obtain ⟨uid, asids, life⟩ := same
    have first : s.crew.killedBy asid = true := by
      unfold Crew.killedBy at mine ⊢
      rw [← asids, ← life]
      exact mine
    exact apart s.crew (List.mem_filter.2 ⟨List.mem_cons_self, first⟩) uid
  · rw [rest] at behind
    exact apart c (List.mem_filter.2 ⟨List.mem_cons_of_mem _ behind, mine⟩) rfl

theorem State.killCrews_kills (s : State) (gone : List Crew) : (s.killCrews gone).kills = s.kills := by
  obtain ⟨_, _, kills⟩ := s.foldl_stopJobs_roll gone
  exact (State.dropCrews_kills _ _).trans kills

/-- The requests to other packages of an ASID dropped, but for its stores. -/
def State.dropOuts (asid : Nat) (s : State) (die : Nat) : State :=
  let d := s.die die
  s.setDie die { d with fabOut := d.fabOut.filter (fun x => x.asid != asid || x.store) }

/-- A kill of an ASID that none is under way for (R262): behind the crews' end no stage changes the crews, and the side logs are rid of the
ASID's entries. -/
theorem State.killContext_leaves {s : State} {asid : Nat} (idle : s.kills.any (fun k => k.asid == asid) = false) :
    ∃ (t : State) (k : Kill), (s.killCrews (s.crews.filter (fun c => c.killedBy asid))).sameRoll t ∧
      (∀ n, ∀ e ∈ (t.core n).log, e.w.asid ≠ asid) ∧ s.killContext asid = { t with kills := t.kills ++ [k] } ∧ k.asid = asid ∧
      k.crews = (s.crews.filter (fun c => c.killedBy asid)).length := by
  unfold State.killContext
  rw [if_neg (by rw [idle]; decide)]
  extract_lets gone s1 s2 out
  have killed : s2 = s.killCrews (s.crews.filter (fun c => c.killedBy asid)) := rfl
  rw [← killed]
  clear_value s2
  have cards := foldl_keeps (fun x : Nat × State => s2.sameRoll x.2)
    (fun (x : Nat × State) die =>
      let (n, s) := x.2.killCards asid die
      (x.1 + n, s)) (fun x die h => h.trans (x.2.killCards_roll asid die)) (List.range 2) (0, s2) (.refl s2)
  generalize List.foldl _ (0, s2) _ = x at cards ⊢
  obtain ⟨cards_, s3⟩ := x
  have solves := foldl_keeps (fun x : Nat × State => s3.sameRoll x.2)
    (fun (x : Nat × State) n =>
      let (m, s) := x.2.killSequencer asid n
      (x.1 + m, s)) (fun x n h => h.trans (x.2.killSequencer_roll asid n)) (s3.solvers.map (fun x => x.1)) (0, s3) (.refl s3)
  dsimp -zeta only at cards ⊢
  generalize List.foldl _ (0, s3) _ = y at solves ⊢
  obtain ⟨solves_, s4⟩ := y
  dsimp -zeta only at solves ⊢
  extract_lets entries s5 writes s6 s7
  have logs : s4.sameRoll s5 := State.foldl_sameRoll (State.dropLog asid) (fun _ _ => ⟨rfl, rfl, rfl⟩) _ s4
  have outs : s5.sameRoll s6 := State.foldl_sameRoll (State.dropOuts asid) (fun _ _ => ⟨rfl, rfl, rfl⟩) _ s5
  have cores : s7.cores = s5.cores := (s6.killWork_cores asid).trans
    (foldl_keeps (fun u : State => u.cores = s5.cores) (State.dropOuts asid) (fun _ _ h => h) _ s5 rfl)
  have clean : ∀ n, ∀ e ∈ (s5.core n).log, e.w.asid ≠ asid := s4.dropLogs_clean asid
  have worked : s6.sameRoll s7 := s6.killWork_roll asid
  refine ⟨s7, _, (((cards.trans solves).trans logs).trans outs).trans worked, fun n e he => ?_, rfl, rfl, rfl⟩
  unfold State.core at he clean
  rw [cores] at he
  exact clean n e he

/-! ## The statement -/

/-- Settles O55: the crews go first, and none of a kill's later stages brings one back. -/
theorem contextKill : Obligations.ContextKill := by
  unfold Obligations.ContextKill
  intro s asid
  have kill : exec (.contextKill asid) s = execContextKill asid s := rfl
  have complete : exec (.killComplete asid) s = execKillComplete asid s := rfl
  have still : s.leads = false ∨ s.mayStillWrite asid = true → exec (.killComplete asid) s = .next s := by
    intro kept
    rw [complete, execKillComplete]
    split
    · rfl
    · refine if_pos ?_
      obtain lost | writes := kept
      · rw [lost]; rfl
      · rw [writes, Bool.or_true]
  refine ⟨fun lost => ⟨?_, still (.inl lost)⟩, fun leads => ⟨fun small idle => ?_, fun small under => ?_, fun k found quiet => ?_,
    fun writes => still (.inr writes)⟩⟩
  · rw [kill, execContextKill, if_pos (by rw [lost]; exact .inr rfl)]
  · obtain ⟨t, k, ⟨crew, rest, kills⟩, clean, stages, name, count⟩ := State.killContext_leaves idle
    refine ⟨s.killContext asid, ?_, fun c hc => ?_, fun n e he => ?_, k, ?_, name, count⟩
    · rw [kill, execContextKill, if_neg (by rw [leads]; simp; omega)]
    · rw [stages] at hc
      have there : ∀ u : State, t.crew = u.crew → t.rest = u.rest → c ∈ u.crews := by
        intro u front others
        unfold State.crews at hc ⊢
        rw [← front, ← others]
        exact hc
      exact s.killCrews_none asid c (there _ crew rest)
    · rw [stages] at he
      exact clean n e he
    · rw [stages]
      exact congrArg (· ++ [k]) (kills.trans (s.killCrews_kills _))
  · rw [kill, execContextKill, if_neg (by rw [leads]; simp; omega), State.killContext, if_pos under]
  · refine ⟨({ s with kills := s.kills.filter (fun x => x.asid != asid) } : State).tell s.leader 3 (k.body s.now), ?_, rfl, ?_, rfl⟩
    · rw [complete, execKillComplete, found]
      dsimp only
      rw [leads, quiet]
      rfl
    · rw [State.die_tell, if_pos rfl]
      rfl

end Sys2Proof.Machine

/-!
PROOFS. The solver sequencer and the raster front end (R367, R371-R375, R387-R394, R419).
-/

namespace Sys2Proof.Machine

/-! ## What a seat and a slice leave -/

theorem State.slotState_mems (s : State) (c : Crew) (n : Nat) : s.sameMems (s.slotState c n) := ⟨rfl, rfl, rfl⟩

theorem State.startCrew_mems (s : State) (u : Nat) : s.sameMems (s.startCrew u) := by
  unfold State.startCrew
  split
  · exact ⟨rfl, rfl, rfl⟩
  · exact State.sameMems.refl s

theorem State.start_mems (s : State) (c : Crew) : s.sameMems (s.start c) := by
  unfold State.start
  dsimp only
  split
  · exact State.sameMems.refl s
  · split
    · exact s.startCrew_mems _
    · split
      · exact State.foldl_mems _ (fun s x => s.startCrew_mems _) _ s
      · exact State.sameMems.refl s

theorem State.seat_mems (s : State) (c : Crew) : s.sameMems (s.seat c) := by
  unfold State.seat
  dsimp only
  split
  · exact (s.slotState_mems c 1).trans (State.start_mems _ _)
  · exact s.slotState_mems c 1

theorem State.pixelSlices_mem (s : State) (p : Place) (t : RasterId) : (s.pixelSlices p t).mem = s.mem := by
  unfold State.pixelSlices
  split
  · rfl
  · refine foldl_keeps (fun t => t.mem = s.mem) _ ?_ _ s rfl
    intro s' j h
    refine foldl_keeps (fun t => t.mem = s.mem) _ ?_ _ s' h
    intro s'' z h'
    exact h'

/-! ## The end of a job -/

theorem State.solverSettle_ok {α : Type} {s : State} {w : Asker} {kind : Nat} {x : Fetch α} {a : α} {bad : Out} {ok : α → Out} (h : x = .ok a) :
    s.solverSettle w kind x bad ok = ok a := by
  rw [h, State.solverSettle, State.settleFetch]

theorem endSolver_ended {s : State} {seq : Nat} {r : SolverRun} (queue : List SolverJob) (rounds : Option Nat) (status fsamp : Nat)
    (phase : r.phase = 2) : s.endSolver seq r queue rounds status fsamp = .next (if s.farOut 0 then s else
      ((s.setSequencer seq { run := none, queue := queue }).endCard r.job.die r.job.serial (status == 1)).letGo (r.asker seq)) := by
  unfold State.endSolver
  dsimp only
  rw [if_pos phase]
  split <;> rfl

theorem endSolver_writes {s t : State} {seq : Nat} {r : SolverRun} {queue : List SolverJob} {rounds : Option Nat} {status fsamp : Nat}
    (phase : r.phase ≠ 2)
    (stored : (s.setSequencer seq { run := some { r with fin := some (status, fsamp, rounds) }, queue := queue }).vaStore (r.asker seq)
      (r.job.desc + 68) (leBytes 4 status ++ leBytes 4 fsamp ++ (match rounds with
        | some k => leBytes 4 k
        | none => [])) = .ok t) :
    s.endSolver seq r queue rounds status fsamp = .next (if t.farOut 0 then
        t.setSequencer seq { run := some { r with fin := some (status, fsamp, rounds), phase := 2 }, queue := queue }
      else ((t.setSequencer seq { run := none, queue := queue }).endCard r.job.die r.job.serial (status == 1)).letGo (r.asker seq)) := by
  unfold State.endSolver
  dsimp only
  rw [if_neg phase]
  refine (State.solverSettle_ok stored).trans ?_
  split <;> rfl

/-! ## The start of a job -/

/-- The part of a sample table that is sample `i`'s record. -/
def samplePart (m : List Byte) (i : Nat) : List Byte := (m.drop (64 * i)).take 64

theorem exec_solverJobStart {s : State} {seq : Nat} {j : SolverJob} {rest : List SolverJob} {d : List Byte}
    (idle : (s.sequencer seq).run = none) (queued : (s.sequencer seq).queue = j :: rest)
    (read : s.vaFetch (Asker.solver seq j.asid) j.desc 128 = .ok d) (bad : solverDescGood j.desc d = false) :
    exec (.solverJobStart seq) s = s.endSolver seq (SolverRun.idle j) rest none 2 0xFFFFFFFF := by
  have run : exec (.solverJobStart seq) s = execSolverJobStart seq s := rfl
  rw [run, execSolverJobStart, idle, queued]
  dsimp only [State.solverSettle]
  rw [read]
  dsimp only [State.settleFetch]
  rw [if_pos (by rw [bad]; rfl)] <;> rfl

theorem solverJobStart_starts {s t : State} {seq : Nat} {j : SolverJob} {rest : List SolverJob} {d c f m : List Byte}
    (idle : (s.sequencer seq).run = none) (queued : (s.sequencer seq).queue = j :: rest)
    (read : s.vaFetch (Asker.solver seq j.asid) j.desc 128 = .ok d) (good : solverDescGood j.desc d = true)
    (coef : s.vaFetch (Asker.solver seq j.asid) (fieldAt d 0 8) 360 = .ok c)
    (ftab : s.vaFetch (Asker.solver seq j.asid) (fieldAt d 8 8) 1024 = .ok f)
    (table : s.vaFetch (Asker.solver seq j.asid) (fieldAt d 16 8) (64 * fieldAt d 24 4) = .ok m)
    (coefs : coefGood c = true) (factors : ftabGood f = true)
    (samples : ∀ i, i < fieldAt d 24 4 → sampleGood (fieldAt d 56 4) (samplePart m i) = true)
    (active : (List.range (fieldAt d 24 4)).filter
      (fun i => !FVal.eq (f32 (fieldAt (samplePart m i) 0 4)) (f32 (fieldAt (samplePart m i) 8 4))) ≠ [])
    (stored : s.solverStore (Asker.solver seq j.asid) [] (((List.range (fieldAt d 24 4)).map (samplePart m)).mapIdx
      (fun i b => (fieldAt d 16 8 + 64 * i + 22, leBytes 1 (if FVal.eq (f32 (fieldAt b 0 4)) (f32 (fieldAt b 8 4)) then 1 else 0)))) = .ok t) :
    ∃ r : SolverRun, exec (.solverJobStart seq) s = .next (t.setSequencer seq { run := some r, queue := rest }) ∧ r.job = j ∧ r.dbytes = d ∧
      r.coef = c ∧ r.ftab = f ∧ r.stage = 0 ∧ r.phase = 0 ∧ r.rounds = 0 ∧ r.batch = (List.range (fieldAt d 24 4)).filter
        (fun i => !FVal.eq (f32 (fieldAt (samplePart m i) 0 4)) (f32 (fieldAt (samplePart m i) 8 4))) := by
  have run : exec (.solverJobStart seq) s = execSolverJobStart seq s := rfl
  have allGood : ((List.range (fieldAt d 24 4)).map (samplePart m)).all (sampleGood (fieldAt d 56 4)) = true := by
    rw [List.all_map, List.all_eq_true]
    exact fun i mem => samples i (List.mem_range.1 mem)
  have batch : (List.range (fieldAt d 24 4)).filter (fun i => !FVal.eq
        (f32 (fieldAt (((List.range (fieldAt d 24 4)).map (samplePart m)).getD i []) 0 4))
        (f32 (fieldAt (((List.range (fieldAt d 24 4)).map (samplePart m)).getD i []) 8 4))) =
      (List.range (fieldAt d 24 4)).filter
        (fun i => !FVal.eq (f32 (fieldAt (samplePart m i) 0 4)) (f32 (fieldAt (samplePart m i) 8 4))) := by
    refine List.filter_congr ?_
    intro i mem
    have part : ((List.range (fieldAt d 24 4)).map (samplePart m)).getD i [] = samplePart m i := by
      have h := List.mem_range.1 mem
      simp [List.getD, h]
    rw [part]
  have listed : ∀ {α : Type} (x y : α), (if ((List.range (fieldAt d 24 4)).filter (fun i =>
      !FVal.eq (f32 (fieldAt (samplePart m i) 0 4)) (f32 (fieldAt (samplePart m i) 8 4)))).isEmpty then x else y) = y := by
    intro α x y
    rw [if_neg]
    rw [List.isEmpty_iff]
    exact active
  rw [run, execSolverJobStart, idle, queued]
  dsimp only [State.solverSettle]
  rw [read]
  dsimp only [State.settleFetch]
  rw [if_neg (by rw [good]; decide), coef, ftab]
  dsimp only [Fetch.andThen]
  rw [table]
  dsimp only
  rw [show (List.range (fieldAt d 24 4)).map (fun i => (m.drop (64 * i)).take 64) = (List.range (fieldAt d 24 4)).map (samplePart m) from rfl,
    if_neg (by rw [coefs, factors, allGood]; decide)]
  dsimp only [SolverRun.sampleAddr, SolverRun.d]
  rw [stored]
  dsimp only
  rw [batch, listed]
  exact ⟨_, rfl, rfl, rfl, rfl, rfl, rfl, rfl, rfl, rfl⟩

/-! ## Stages -/

theorem exec_solverStageComplete {s : State} {seq : Nat} {r : SolverRun} (running : (s.sequencer seq).run = some r) (open_ : r.fin = none) :
    exec (.solverStageComplete seq) s = if r.phase = 0 then s.buildStage seq r
      else match r.ended with
        | none => .next s
        | some 0 => s.takeOutputs seq r
        | some _ => s.endSolver seq r (s.sequencer seq).queue (some r.rounds) 4 0xFFFFFFFF := by
  have run : exec (.solverStageComplete seq) s = execSolverStageComplete seq s := rfl
  rw [run, execSolverStageComplete, running]
  dsimp only
  rw [open_] <;> rfl

theorem buildStage_submits {s t : State} {seq : Nat} {r : SolverRun} {l : List ((Nat × List Byte) ⊕ (Nat × Nat × List Nat))}
    (built : Fetch.all (s.stageRow (r.asker seq) r) r.batch = .ok l) (some_ : l.filterMap (fun x => x.getRight?) ≠ [])
    (stored : s.solverStore (r.asker seq) r.clash
      (l.filterMap (fun x => x.getLeft?) ++ r.batchWrites (l.filterMap (fun x => x.getRight?))) = .ok t) :
    s.buildStage seq r = .next ((t.newChain (seq / 64) (64 + seq % 64) (some seq) r.job.asid (r.d 66 1 % 8) 0 0 (r.d 32 8)).2.setRun seq
      { r with phase := 1, ended := none, rows := (l.filterMap (fun x => x.getRight?)).map (fun x => x.1),
               chain := (t.newChain (seq / 64) (64 + seq % 64) (some seq) r.job.asid (r.d 66 1 % 8) 0 0 (r.d 32 8)).1 }) := by
  have listed : (l.filterMap (fun x => x.getRight?)).isEmpty ≠ true := by
    rw [ne_eq, List.isEmpty_iff]
    exact some_
  have rows : ∀ f : (Nat × List Byte) ⊕ (Nat × Nat × List Nat) → Option (Nat × Nat × List Nat), (∀ x, f x = x.getRight?) →
      l.filterMap f = l.filterMap (fun x => x.getRight?) := fun f same => congrArg (fun g => l.filterMap g) (funext same)
  have copies : ∀ f : (Nat × List Byte) ⊕ (Nat × Nat × List Nat) → Option (Nat × List Byte), (∀ x, f x = x.getLeft?) →
      l.filterMap f = l.filterMap (fun x => x.getLeft?) := fun f same => congrArg (fun g => l.filterMap g) (funext same)
  unfold State.buildStage
  dsimp only
  refine (State.solverSettle_ok built).trans ?_
  rw [rows _ (fun x => by cases x <;> rfl), copies _ (fun x => by cases x <;> rfl), if_neg listed]
  refine (State.solverSettle_ok stored).trans ?_
  exact if_neg listed

theorem takeOutputs_goesOn {s t : State} {seq : Nat} {r : SolverRun} {l : List (Nat × List Byte)}
    (outputs : Fetch.all (fun (x : Nat × Nat) => (s.vaFetch (r.asker seq) (r.sampleAddr x.2) 64).andThen (fun b =>
            (s.solverRead (r.asker seq) r.clash (r.d 40 8 + 32832 + 4 * r.nelem * (r.rows.length + x.1)) (4 * r.nelem)).andThen (fun v =>
              .ok (fieldAt b 32 8 + 4 * r.stage * r.nelem, v)))) (r.rows.mapIdx (fun p k => (p, k))) = .ok l)
    (stored : s.solverStore (r.asker seq) r.clash (l ++ r.clash.map (fun x => (x.1, List.replicate x.2 0))) = .ok t)
    (more : r.stage + 1 < r.stages) :
    s.takeOutputs seq r = .next (t.setRun seq { r with stage := r.stage + 1, phase := 0, ended := none }) := by
  unfold State.takeOutputs
  dsimp only [State.solverSettle]
  rw [outputs]
  dsimp only [State.settleFetch]
  rw [stored]
  dsimp only [State.stageDone]
  exact if_pos more

/-! ## Primitives -/

theorem primitiveBin_tests {s : State} {fe : Nat} {u : Crew} {x : Pass} {t : RasterId} {y : State × List Nat}
    (found : s.untested (fe / 16) (fe % 16) = some (u, x, t)) (tested : (if t.late then .ok (s, t.cover) else s.blockTest x t) = .ok y) :
    ∃ w : State, exec (.primitiveBin fe) s = .next w ∧ w.mem = y.1.mem := by
  have run : exec (.primitiveBin fe) s = execPrimitiveBin fe s := rfl
  rw [run, execPrimitiveBin]
  dsimp only
  rw [found]
  dsimp only [State.readyPixel, State.settleFront]
  rw [tested]
  exact ⟨_, rfl, (State.seat_mems _ _).1.trans (State.pixelSlices_mem _ _ _)⟩

theorem exec_primitiveBin {s : State} {fe : Nat} {p : Pass} (none_ : s.untested (fe / 16) (fe % 16) = none)
    (found : s.passes.find? (fun p => p.die == fe / 16 && p.hasFront (fe % 16) && (p.state == 1 || p.state == 2)) = some p)
    (state : p.state = 1) (draw : p.draw ≠ []) (alone : p.vlaunch = none) :
    exec (.primitiveBin fe) s =
      if fieldAt p.draw 4 4 ≤ p.nextPrim then .next (s.mapPass p (fun x => { x with draw := [], drawNo := x.drawNo + 1, nextPrim := 0 }))
      else if p.nextPrim = 0 ∧ p.drawNo ≠ 0 ∧ p.drawNo % 64 = 0 ∧ !p.bins.isEmpty then .next (s.mapPass p (fun x => { x with state := 2 }))
      else s.settleFront p (fe % 16) 6 (s.vertices p) (fun _ => s.failStream p 8) (fun v =>
        match v.bind (makePrim p.nextPrim p.drawNo (fieldAt p.draw 1 1 % 2 == 1)) with
        | none => .next (s.mapPass p (fun x => { x with nextPrim := x.nextPrim + 1 }))
        | some t =>
          if p.free < p.blocksNeeded (p.binsOf t) then .next (s.mapPass p (fun x => { x with state := 2 }))
          else .next (s.binPrim p t (p.binsOf t))) := by
  have run : exec (.primitiveBin fe) s = execPrimitiveBin fe s := rfl
  have idle : ¬(p.draw.isEmpty || p.vlaunch.isSome) = true := by
    simp [draw, alone]
  rw [run, execPrimitiveBin]
  dsimp only
  rw [none_, found]
  dsimp only
  rw [if_neg (by rw [state]; decide), if_neg idle] <;> rfl

theorem primitiveBin_bins {s : State} {fe : Nat} {p : Pass} {v : Option (List (Nat × Nat × Nat))}
    (none_ : s.untested (fe / 16) (fe % 16) = none)
    (found : s.passes.find? (fun p => p.die == fe / 16 && p.hasFront (fe % 16) && (p.state == 1 || p.state == 2)) = some p)
    (state : p.state = 1) (draw : p.draw ≠ []) (alone : p.vlaunch = none) (more : p.nextPrim < fieldAt p.draw 4 4)
    (whole : ¬(p.nextPrim = 0 ∧ p.drawNo ≠ 0 ∧ p.drawNo % 64 = 0 ∧ p.bins ≠ [])) (read : s.vertices p = .ok v) :
    exec (.primitiveBin fe) s = match v.bind (makePrim p.nextPrim p.drawNo (fieldAt p.draw 1 1 % 2 == 1)) with
        | none => .next (s.mapPass p (fun x => { x with nextPrim := x.nextPrim + 1 }))
        | some t =>
          if p.free < p.blocksNeeded (p.binsOf t) then .next (s.mapPass p (fun x => { x with state := 2 }))
          else .next (s.binPrim p t (p.binsOf t)) := by
  have stays : ¬(p.nextPrim = 0 ∧ p.drawNo ≠ 0 ∧ p.drawNo % 64 = 0 ∧ (!p.bins.isEmpty) = true) := by
    simpa [List.isEmpty_iff] using whole
  rw [exec_primitiveBin none_ found state draw alone, if_neg (by omega), if_neg stays, read] <;> rfl

/-! ## Bins and exports -/

/-- The rendering step that PASS_FINAL makes, whichever front end makes it. -/
theorem exec_passFinal {s : State} {die q : Nat} {p : Pass} (found : s.passes.find? (fun p => p.die == die && p.q == q && p.state == 3) = some p) :
    ∃ c, exec (.passFinal die q) s = s.renderStep p c true (fun t =>
      if !t.writesOver (fun u => p.past.any (fun k => k.1 == u)) then .next t
      else .next (if splitOf p.target then (t.mapPass p (fun x => { x with state := 0 })).phaseDone die
        else t.mapPass p (fun x => { x with state := 0 }))) := by
  have run : exec (.passFinal die q) s = execPassFinal die q s := rfl
  rw [run, execPassFinal, found]
  exact ⟨_, rfl⟩

theorem renderStep_current {s : State} {p : Pass} {b : Nat} (c : Nat) (all : Bool) (done : State → Out) (current : p.cur = some b) :
    s.renderStep p c all done = .next (if p.binDone then (s.trayFree p b).mapPass p (fun x => x.storeBin b) else s) := by
  unfold State.renderStep
  dsimp only
  rw [current]
  dsimp only
  split <;> rfl

theorem renderStep_starts {s t : State} {p : Pass} {b : Nat} {l : List (Nat × Prim)} (c : Nat) (done : State → Out) (current : p.cur = none)
    (left : p.ended < p.binCount) (listed : p.bins.find? (fun x => x.1 == p.ended) = some (b, l)) (starts : s.startBin p p.ended l = .ok t) :
    s.renderStep p c true done = .next t := by
  unfold State.renderStep
  dsimp only
  rw [current]
  dsimp only
  rw [if_pos rfl, if_neg (by omega), listed]
  dsimp only [State.settleFront]
  rw [starts, State.settleFetch]

theorem renderStep_done {s : State} {p : Pass} (c : Nat) (done : State → Out) (current : p.cur = none) (over_ : p.binCount ≤ p.ended) :
    s.renderStep p c true done = done s := by
  unfold State.renderStep
  dsimp only
  rw [current]
  dsimp only
  rw [if_pos rfl, if_pos over_]

theorem exec_blendExport {s : State} {fe id : Nat} {p : Pass} {e : Export}
    (found : s.passes.find? (fun p => p.die == fe / 16 && p.exports.any (fun e => e.id == id && e.rid.fe == fe % 16)) = some p)
    (listed : p.exports.find? (fun e => e.id == id) = some e) :
    exec (.blendExport fe id) s = if s.blendWaits p e then .next s
      else s.settleFront p e.rid.fe 8 (s.exportRun p e) (fun _ => s.failStream p 8) (fun t =>
          .next ((t.1.mapPass p (fun x => { x with
            exports := x.exports.filter (fun y => y.id != id)
            tests := if e.rid.late && (p.knownTest e).isNone then (e.rid.seq, e.rid.x0, e.rid.y0, e.lane, t.2) :: x.tests
              else x.tests })).useFree 1)) := by
  have run : exec (.blendExport fe id) s = execBlendExport fe id s := rfl
  rw [run, execBlendExport, found]
  dsimp only
  rw [listed]

/-- Settles O56, event by event: what the sequencer reads, builds and writes, and what each step of a front end does. -/
theorem solverAndRaster : Obligations.SolverAndRaster := by
  unfold Obligations.SolverAndRaster
  refine ⟨?_, ?_⟩
  · intro s seq
    refine ⟨fun r queue rounds status fsamp => ⟨endSolver_ended queue rounds status fsamp, fun t phase stored => endSolver_writes phase stored⟩,
      ?_, ?_⟩
    · intro j rest d w idle queued read
      refine ⟨fun bad => exec_solverJobStart idle queued read bad, ?_⟩
      intro c f m t part n active good coef ftab table coefs factors samples some_ stored
      obtain ⟨r, runs, fields⟩ := solverJobStart_starts idle queued read good coef ftab table coefs factors samples some_ stored
      obtain ⟨job, bytes, rcoef, rftab, stage, phase, rounds, batch⟩ := fields
      exact ⟨_, r, runs, State.sequencer_setSequencer _ _ _ _ |>.trans (if_pos rfl), job, bytes, rcoef, rftab, stage, phase, rounds, batch, rfl⟩
    · intro r w running
      refine ⟨?_, ?_, ?_, ?_, ?_⟩
      · intro status fsamp rounds fin
        have run : exec (.solverStageComplete seq) s = execSolverStageComplete seq s := rfl
        rw [run, execSolverStageComplete, running]
        dsimp only
        rw [fin]
      · intro open_ phase ended
        rw [exec_solverStageComplete running open_, if_neg phase, ended]
      · intro n open_ phase ended
        rw [exec_solverStageComplete running open_, if_neg phase, ended] <;> rfl
      · intro l t open_ phase built rows some_ stored
        rw [exec_solverStageComplete running open_, if_pos phase, buildStage_submits built some_ stored]
        refine ⟨_, _, rfl, rfl, rfl, rfl, ?_, rfl⟩
        rw [State.setRun, State.sequencer_setSequencer, if_pos rfl] <;> rfl
      · intro l t open_ phase ended more outputs stored
        rw [exec_solverStageComplete running open_, if_neg phase, ended]
        exact takeOutputs_goesOn outputs stored more
  · intro s die fe
    refine ⟨fun u x t y found tested => primitiveBin_tests found tested, ?_, ?_, ?_, ?_, ?_⟩
    · intro p none_ found state draw alone
      refine ⟨fun end_ => ?_, ?_⟩
      · rw [exec_primitiveBin none_ found state draw alone, if_pos end_]
      · intro v more whole read
        have bins := primitiveBin_bins none_ found state draw alone more whole read
        refine ⟨fun discarded => ?_, fun t prim room => ?_, fun t prim full => ?_⟩
        · rw [bins, discarded]
        · rw [bins, prim]
          exact if_neg (by omega)
        · rw [bins, prim]
          exact if_pos full
    · intro q p found
      obtain ⟨c, final⟩ := exec_passFinal found
      refine ⟨?_, ?_, ?_, ?_⟩
      · intro b current
        rw [final, renderStep_current c true _ current]
      · intro t b l current left listed starts
        rw [final, renderStep_starts c _ current left listed starts]
      · intro current ended writes
        rw [final, renderStep_done c _ current ended, if_pos (by rw [writes]; rfl)]
      · intro current ended writes
        rw [final, renderStep_done c _ current ended, if_neg (by rw [writes]; decide)]
    · intro id p e t found listed
      refine ⟨fun waits => ?_, fun free ran => ?_⟩
      · rw [exec_blendExport found listed, if_pos waits]
      · rw [exec_blendExport found listed, if_neg (by rw [free]; decide), ran]
        exact ⟨_, rfl, rfl, rfl⟩
    · intro held
      exact if_pos held
    · intro goes
      exact if_neg (by rw [goes]; decide)

end Sys2Proof.Machine

/-!
PROOFS. Registers (R410): an event ring whose base lies below a PCIe root port, of which memory holds nothing.
-/

namespace Sys2Proof.Machine

/-- A die whose event ring stands at the first PCIe address, with one record to post. -/
def pcieRing : Die := { Die.reset with eqBase := 2 ^ 41, events := [{ type := 0, body := [] }] }

/-- The ring's die at reset, with a byte of memory listed at the ring's base. -/
def pcieRingState : State := { State.reset with dies := [(0, pcieRing)], mem := [(2 ^ 41, 1)] }

/-- The record can be posted: the ring has room, no home keeps it waiting, and its first byte is 0. -/
theorem pcieRingState_posts : pcieRingState.die 0 = pcieRing ∧ pcieRing.eqRoom = true ∧
    pcieRing.eqBase.toNat + 64 * (pcieRing.eqTail.toNat % pcieRing.eqSlots) = 2 ^ 41 ∧ pcieRingState.homesFree (2 ^ 41) 64 = true ∧
    (({ type := 0, body := [] } : Event).bytes pcieRing.eqPhase pcieRing.eqSeq.toNat pcieRingState.now).getD 0 0 = 0 ∧
    0 < (({ type := 0, body := [] } : Event).bytes pcieRing.eqPhase pcieRing.eqSeq.toNat pcieRingState.now).length := by
  decide

/-- An engine's write below a root port leaves memory as it was (R424). -/
theorem engineWrite_pcie {s : State} {pa : Nat} (bs : List Byte) (h : isPcie pa = true) : s.engineWrite pa bs = s := by
  unfold State.engineWrite
  exact if_pos h

/-- A posted record reaches memory as an engine's write at the ring's tail, and as nothing else. -/
theorem eventRecordPost_mem {s t : State} {die : Nat} {e : Event} {rest : List Event} (events : (s.die die).events = e :: rest)
    (room : (s.die die).eqRoom = true)
    (free : s.homesFree ((s.die die).eqBase.toNat + 64 * ((s.die die).eqTail.toNat % (s.die die).eqSlots)) 64 = true)
    (run : exec (.eventRecordPost die) s = .next t) :
    t.mem = (s.engineWrite ((s.die die).eqBase.toNat + 64 * ((s.die die).eqTail.toNat % (s.die die).eqSlots))
      (e.bytes (s.die die).eqPhase (s.die die).eqSeq.toNat s.now)).mem := by
  have post : exec (.eventRecordPost die) s = execEventRecordPost die s := rfl
  rw [post, execEventRecordPost] at run
  dsimp only at run
  rw [events] at run
  dsimp only at run
  rw [if_neg (by rw [room, free]; decide)] at run
  rw [← Host.Outcome.next.inj run] <;> rfl

/-- Posting the record leaves the byte at the ring's base. -/
theorem pcieRingState_keeps (t : State) (run : exec (.eventRecordPost 0) pcieRingState = .next t) : t.mem.byte (2 ^ 41) = 1 := by
  obtain ⟨die, room, at_, free, _⟩ := pcieRingState_posts
  rw [eventRecordPost_mem (s := pcieRingState) (by rw [die]; rfl) (by rw [die]; exact room) (by rw [die, at_]; exact free) run, die, at_,
    engineWrite_pcie _ (by decide)]
  decide

/-- Refutes O57: the clause on a posted record asks that its bytes stand in memory, and no rule keeps a ring's base off the PCIe addresses,
which reach a device (R424). -/
theorem not_registersAndFirmware : ¬ Obligations.RegistersAndFirmware := by
  unfold Obligations.RegistersAndFirmware
  intro all
  obtain ⟨die, room, at_, free, first, long⟩ := pcieRingState_posts
  obtain ⟨_, posts, _⟩ := all.1 pcieRingState 0
  rw [die] at posts
  obtain ⟨t, run, bytes, _⟩ := posts { type := 0, body := [] } [] rfl room (by rw [at_]; exact free)
  have zero := bytes 0 long
  rw [at_, Nat.add_zero, first, pcieRingState_keeps t run] at zero
  cases zero

end Sys2Proof.Machine

/-!
PROOFS. The machine's step, its inputs and its reset state (R62, R63, R92), and words written from the tables of the encoding (R64-R85).
-/

namespace Sys2Proof.Machine

/-- Settles O1: each word decodes by the tables. -/
theorem writtenWordsDecode : Obligations.WrittenWordsDecode := by
  unfold Obligations.WrittenWordsDecode
  refine ⟨?_, ?_, ?_, ?_, ?_, ?_, ?_, ?_⟩ <;> decide

/-! ## A turn -/

theorem step_issue {s s1 : State} {u : Nat} {st : Strm} (act : s.nextAct = some (.issue u st)) (turn : s.tick.takeTurn u st = some s1) :
    step s = match s1.fetched st with
      | .instr i => exec i s1
      | .out o => o := by
  unfold step
  rw [act]
  dsimp only [State.perform_]
  rw [turn] <;> rfl

theorem Crew.pendDue_none {c : Crew} {st : Strm} (h : (c.strm st).pend = none) : c.pendDue st = false := by
  rw [Crew.pendDue, h]
  rfl

theorem fetched_idle {s : State} {st : Strm} (h : s.crew.canIssue st = false) : s.fetched st = .out (.next s) := by
  unfold State.fetched
  exact if_pos (by rw [h]; rfl)

theorem fetched_offGrid {s : State} {st : Strm} (ready : s.crew.canIssue st = true) (pend : (s.crew.strm st).pend = none)
    (off : s.crew.offGrid st = true) : s.fetched st = .out (execOffGridFetch st s) := by
  unfold State.fetched
  dsimp only
  rw [if_neg (by rw [ready]; decide), if_neg (by rw [Crew.pendDue_none pend]; decide), if_pos off]

theorem fetched_word {s : State} {st : Strm} {b : List Byte} (ready : s.crew.canIssue st = true) (pend : (s.crew.strm st).pend = none)
    (on : s.crew.offGrid st = false) (word : s.fetchWord st = .ok b) : s.fetched st = match decode s.crew.env st (leNat b) with
      | some i => .instr i
      | none => .out (execUnassignedOpcode st (leNat b) s) := by
  unfold State.fetched
  dsimp only
  rw [if_neg (by rw [ready]; decide), if_neg (by rw [Crew.pendDue_none pend]; decide), if_neg (by rw [on]; decide), word] <;> rfl

/-! ## A cycle -/

theorem State.stalls_turn (s : State) : s.stalls.turn = s.turn := by rw [s.stalls_eq]
theorem State.haltSlots_turn (s : State) : s.haltSlots.turn = s.turn := by rw [s.haltSlots_eq]

theorem State.tick_input {s : State} {a : Act} {rest : List Act} (agenda : s.agenda = a :: rest) :
    s.tick = { s.haltSlots.stalls with now := s.now + 1, agenda := rest } := by
  have turn : (if ((a :: rest).isEmpty && s.boosted.isNone) = true then s.turn + 1 else s.turn) = s.haltSlots.stalls.turn := by
    rw [State.stalls_turn, State.haltSlots_turn]
    exact if_neg Bool.false_ne_true
  unfold State.tick
  rw [agenda]
  exact congrArg (fun n => ({ s.haltSlots.stalls with now := s.now + 1, turn := n, agenda := rest } : State)) turn

/-- Settles O58, by the branch that the fetch takes; an input is the head of the agenda. -/
theorem stepRunsDecoded : Obligations.StepRunsDecoded := by
  unfold Obligations.StepRunsDecoded
  refine ⟨?_, ?_⟩
  · intro s s1 u st act turn
    refine ⟨?_, ?_, ?_, ?_⟩
    · intro b i ready pend on word decoded
      rw [step_issue act turn, fetched_word ready pend on word, decoded]
    · intro b ready pend on word decoded
      rw [step_issue act turn, fetched_word ready pend on word, decoded] <;> rfl
    · intro ready pend off
      rw [step_issue act turn, fetched_offGrid ready pend off] <;> rfl
    · intro idle
      rw [step_issue act turn, fetched_idle idle]
  · intro s i rest agenda
    have act : s.nextAct = some (.input i) := by
      rw [State.nextAct, agenda]
    unfold step
    rw [act]
    dsimp only [State.perform_]
    rw [State.tick_input agenda]

/-- Settles O60: the reset state written out; no register or memory is listed, so each reads its reset value. -/
theorem resetState : Obligations.ResetState := by
  unfold Obligations.ResetState
  refine ⟨⟨?_, rfl, rfl, rfl, rfl, ?_, rfl, ?_, rfl, rfl, rfl, rfl, ?_⟩, ?_, rfl, rfl, rfl⟩
  · intro c listed
    rw [List.mem_singleton.1 (show c ∈ [Crew.absent] from listed)]
    rfl
  · intro core slot
    rfl
  · exact fun die q => ⟨rfl, rfl⟩
  · intro die
    exact ⟨rfl, rfl, rfl, rfl, rfl, rfl, rfl, rfl⟩
  · unfold State.canonical
    decide

end Sys2Proof.Machine

/-!
PROOFS. The canonical form of the memories (log 3): what an outcome owes, and the words of the scalar stream.
-/

namespace Sys2Proof.Machine

/-! ## Outcomes and fetches -/

/-- The next state of an outcome, where there is one, has canonical memories. -/
def Out.canonical (o : Out) : Prop :=
  match o with
  | .next t => t.canonical
  | _ => True

/-- What a fetch gives, where it gives something, has a property. -/
def Fetch.Gives {α : Type} (P : α → Prop) (x : Fetch α) : Prop := ∀ a, x = .ok a → P a

theorem Fetch.gives_ok {α : Type} {P : α → Prop} {a : α} (h : P a) : (Fetch.ok a).Gives P := by
  intro b eq
  cases eq
  exact h

theorem Fetch.gives_any {α : Type} (x : Fetch α) : x.Gives (fun _ => True) := fun _ _ => trivial

theorem Fetch.Gives.andThen {α β : Type} {P : α → Prop} {Q : β → Prop} {x : Fetch α} {f : α → Fetch β} (hx : x.Gives P)
    (hf : ∀ a, P a → (f a).Gives Q) : (x.andThen f).Gives Q := by
  intro b eq
  obtain ⟨a, got, rest⟩ := Fetch.andThen_ok eq
  exact hf a (hx a got) b rest

/-- A fetch behind one whose value is not a state. -/
theorem Fetch.gives_then {α β : Type} {Q : β → Prop} (x : Fetch α) {f : α → Fetch β} (hf : ∀ a, (f a).Gives Q) : (x.andThen f).Gives Q :=
  (Fetch.gives_any x).andThen (fun a _ => hf a)

/-- A fold of fetches gives what each step keeps. -/
theorem Fetch.gives_foldl {α β : Type} {P : α → Prop} {f : α → β → Fetch α} (hf : ∀ a b, P a → (f a b).Gives P) (l : List β) {x : Fetch α}
    (hx : x.Gives P) : (l.foldl (fun acc b => acc.andThen (fun a => f a b)) x).Gives P :=
  foldl_keeps (fun y => Fetch.Gives P y) _ (fun _ b hy => hy.andThen (fun a ha => hf a b ha)) l x hx

/-- A state with the same memories; what else differs is not unfolded to see it. -/
theorem State.canonical.same {s t : State} (h : s.canonical) (m : s.sameMems t) : t.canonical := m.canonical h

/-- Another crew in front. -/
theorem State.canonical.crew {s : State} (h : s.canonical) (c : Crew) : ({ s with crew := c } : State).canonical := h

theorem State.ite_canonical {p : Prop} [Decidable p] {s t : State} (hs : s.canonical) (ht : t.canonical) : (if p then s else t).canonical := by
  split
  · exact hs
  · exact ht

theorem Out.ite_canonical {p : Prop} [Decidable p] {a b : Out} (ha : a.canonical) (hb : b.canonical) : Out.canonical (if p then a else b) := by
  split
  · exact ha
  · exact hb

/-- A fold of steps that keep the canonical form keeps it. -/
theorem State.foldl_canonical {β : Type} {s : State} (h : s.canonical) {f : State → β → State} {l : List β}
    (hf : ∀ t b, t.canonical → (f t b).canonical) : (l.foldl f s).canonical := foldl_keeps State.canonical f hf l s h

/-! ## What every word and event goes through -/

theorem guardedState_canonical {s : State} (h : s.canonical) {st : Strm} {i : Instr} {go : State → Out} (hgo : (go s).canonical) :
    (guardedState s st i go).canonical := by
  unfold guardedState
  split
  · exact h
  · split
    · exact h
    · split
      · exact h
      · exact hgo

theorem scalarState_canonical {s : State} (h : s.canonical) {i : Instr} {srcs : List GReg} {d : GReg} {go : State → Out}
    (hgo : (go s).canonical) : (scalarState s i srcs d go).canonical := by
  refine guardedState_canonical h ?_
  split
  · exact h
  · split
    · exact h
    · exact hgo

theorem State.focus_canonical {s t : State} (h : s.canonical) {u : Nat} (found : s.focus u = some t) : t.canonical := by
  unfold State.focus at found
  split at found
  · cases found
    exact h
  · split at found
    · cases found
      exact h
    · cases found

theorem onUid_canonical {s : State} (h : s.canonical) {u : Nat} {f : State → Out} (hf : ∀ t, t.canonical → (f t).canonical) :
    (onUid s u f).canonical := by
  unfold onUid
  split
  · next t found =>
    have front := State.focus_canonical h found
    split
    · exact hf t front
    · exact h
  · exact h

theorem spendIn_canonical {w : Asker} {met : FaultOut → Bool} {o : Out} (h : o.canonical) : (spendIn w met o).canonical := by
  unfold spendIn
  split
  · exact h
  · exact h

/-! ## Faults -/

theorem State.postFault_canonical {s : State} (h : s.canonical) (die asid va kind reason : Nat) (fabric : Bool) (agent pa val : Nat) :
    (s.postFault die asid va kind reason fabric agent pa val).canonical := by
  unfold State.postFault
  split
  · exact h
  · exact h

theorem State.frontFault_canonical {s : State} (h : s.canonical) (w : Asker) (va kind reason : Nat) : (s.frontFault w va kind reason).canonical := by
  unfold State.frontFault
  split
  · exact h
  · exact State.postFault_canonical h _ _ _ _ _ _ _ _ _

theorem State.engineRead_canonical {s : State} (h : s.canonical) (pa len : Nat) : (s.engineRead pa len).canonical :=
  (s.engineRead_cachesOnly pa len).mems.canonical h

theorem State.engineWalked_canonical {s : State} (h : s.canonical) (die asid va : Nat) : (s.engineWalked die asid va).canonical :=
  (s.engineWalked_cachesOnly die asid va).mems.canonical h

theorem State.settleFetch_canonical {α : Type} {s : State} (h : s.canonical) {w : Asker} {kind : Nat} {x : Fetch α} {bad : Nat → Out}
    {ok : α → Out} {P : α → Prop} (hx : x.Gives P) (hbad : ∀ va, (bad va).canonical) (hok : ∀ a, P a → (ok a).canonical) :
    (s.settleFetch w kind x bad ok).canonical := by
  unfold State.settleFetch
  split
  · exact hok _ (hx _ rfl)
  · exact State.frontFault_canonical h _ _ _ _
  · exact spendIn_canonical (hbad _)
  · exact h
  · exact State.engineRead_canonical h _ _

/-! ## Stores of engines -/

theorem State.claim_canonical {s : State} (h : s.canonical) (asid : Nat) (sp : Space) : (s.claim asid sp).canonical := by
  unfold State.claim
  split
  · dsimp only
    split
    · exact h
    · exact h
  · exact h

theorem State.vaStore_canonical {s : State} (h : s.canonical) (w : Asker) (a : Nat) (bs : List Byte) :
    (s.vaStore w a bs).Gives State.canonical := by
  unfold State.vaStore
  refine Fetch.gives_then _ (fun l => ?_)
  split
  · intro t eq
    cases eq
  · exact Fetch.gives_ok (foldl_keeps State.canonical _
      (fun t x ht => State.engineStore_canonical _ _ _ _ _ (State.engineWalked_canonical ht _ _ _)) l s h)

/-- The accesses of a copy engine keep the canonical form. -/
theorem engineKeeps_canonical : EngineKeeps State.canonical where
  store := State.engineStore_canonical
  claim := fun _ asid sp h => State.claim_canonical h asid sp
  read := fun _ pa len h => State.engineRead_canonical h pa len
  walked := fun _ die asid va h => State.engineWalked_canonical h die asid va
  seen := fun _ _ _ _ _ h => h

theorem State.postRecord_canonical {s : State} (h : s.canonical) (w : Asker) (crec : Nat) (bs : List Byte) :
    (s.postRecord w crec bs).Gives State.canonical := by
  unfold State.postRecord
  split
  · exact Fetch.gives_ok h
  · exact State.vaStore_canonical h w crec bs

theorem State.writeImage_canonical {s : State} (h : s.canonical) (c : Crew) (sealed : Bool) : (s.writeImage c sealed).Gives State.canonical :=
  Fetch.gives_foldl (fun _ p ht => State.vaStore_canonical ht _ (c.bindRec.image + p.1) p.2) _ (Fetch.gives_ok h)

theorem State.syncImage_canonical {s : State} (h : s.canonical) (s0 : State) (u : Nat) : (s0.syncImage s u).canonical := by
  unfold State.syncImage
  split
  · dsimp only
    split
    · refine State.foldl_canonical h (fun t x ht => ?_)
      split
      · next t1 stored => exact State.vaStore_canonical ht _ _ _ t1 stored
      · exact ht
    · exact h
  · exact h

theorem State.restoreSlices_canonical {s : State} (h : s.canonical) (p : Place) (b : List Byte) : (s.restoreSlices p b).canonical := by
  unfold State.restoreSlices
  split
  · exact h
  · exact foldl_keeps State.canonical _ (fun t n ht => State.setSpace_canonical _ _ _ _ ht) _ s h

/-! ## Loads, stores and atomics of the scalar stream -/

theorem State.sendOut_canonical {s : State} (h : s.canonical) (die id uid asid pa va : Nat) (store : Bool) :
    (s.sendOut die id uid asid pa va store).canonical := by
  unfold State.sendOut
  split
  · exact h
  · exact h

theorem State.outDone_canonical {s : State} (h : s.canonical) (die id : Nat) : (s.outDone die id).canonical := h

theorem State.proxyFill_canonical {s : State} (h : s.canonical) (die pa : Nat) : (s.proxyFill die pa).canonical :=
  (s.proxyFill_mems die pa).canonical h

theorem State.readHeat_canonical {s : State} (h : s.canonical) (pa len : Nat) (att : Att) : (s.readHeat pa len att).canonical := by
  unfold State.readHeat
  split
  · exact (s.heat_mems _ _).canonical h
  · split
    · exact (s.heat_mems _ _).canonical h
    · exact h

theorem State.finishLoad_canonical {s : State} (h : s.canonical) (r : SRes) (e : Elem) (sx : Bool) (oc sc : Nat) :
    (s.finishLoad r e sx oc sc).canonical := by
  unfold State.finishLoad
  have filled : (if inPod e.addr then s.proxyFill s.crew.place.die e.addr else s).canonical := by
    split
    · exact State.proxyFill_canonical h _ _
    · exact h
  dsimp only
  generalize (if inPod e.addr then s.proxyFill s.crew.place.die e.addr else s) = t at filled ⊢
  split
  · exact filled
  · split
    · exact filled
    · split
      · exact filled
      · refine State.readHeat_canonical ?_ _ _ _
        exact filled

theorem execScalarResultComplete_canonical {s : State} (h : s.canonical) (u id : Nat) : (execScalarResultComplete u id s).canonical := by
  refine onUid_canonical h (fun s h => ?_)
  dsimp only
  split
  · exact h
  · split
    · exact h
    · split
      · exact h
      · split
        · exact State.finishLoad_canonical h _ _ _ _ _
        · split
          · refine State.finishLoad_canonical (State.sendOut_canonical ?_ _ _ _ _ _ _ _) _ _ _ _ _
            exact h
          · exact h
          · exact h
    · split
      · exact h
      · split
        · exact h
        · split
          · exact h
          · split
            · refine State.sendOut_canonical ?_ _ _ _ _ _ _ _
              exact h
            · exact h
            · exact h

theorem execLd_canonical {s : State} (h : s.canonical) (d a : GReg) (oc : BitVec 4) (sc : BitVec 3) (size : BitVec 2) (sx : BitVec 1)
    (off : BitVec 4) : (execLd d a oc sc size sx off s).canonical := by
  refine scalarState_canonical h ?_
  dsimp only [State.fresh]
  split
  · exact h
  · split
    · exact h
    · split
      · exact h
      · refine State.sendOut_canonical ?_ _ _ _ _ _ _ _
        exact h
      · exact h

theorem execSt_canonical {s : State} (h : s.canonical) (d a : GReg) (oc : BitVec 4) (sc : BitVec 3) (size : BitVec 2) (off : BitVec 4) :
    (execSt d a oc sc size off s).canonical := by
  refine scalarState_canonical h ?_
  have log : ∀ (p : Prop) [Decidable p] (x : State), x.canonical → (if p then x else s.blockS .s .sideLog).canonical := by
    intro p _ x hx
    split
    · exact hx
    · exact h
  dsimp only [State.fresh]
  split
  · exact h
  · split
    · exact h
    · split
      · exact log _ _ h
      · split
        · refine State.sendOut_canonical ?_ _ _ _ _ _ _ _
          exact h
        · split
          · exact log _ _ h
          · exact h

theorem State.amo_canonical {s : State} (h : s.canonical) (i : Instr) (aop : Nat) (sx : Bool) (d a : GReg) (oc : BitVec 4) (sc : BitVec 3)
    (size : BitVec 1) : (s.amo i aop sx d a oc sc size).canonical := by
  refine scalarState_canonical h ?_
  dsimp only [State.fresh]
  split
  · exact h
  · split
    · exact h
    · split
      · exact h
      · split
        · exact h
        · refine State.sendOut_canonical ?_ _ _ _ _ _ _ _
          exact h
      · exact h

/-! ## Fences, barriers and register blocks -/

theorem State.fenceDone_canonical {s : State} (h : s.canonical) (leases : Bool) (sc : Nat) : (s.fenceDone leases sc).canonical := by
  have dropped : (if leases && decide (3 ≤ sc) then s.dropLeases s.crew.agent else s).canonical := by
    split
    · exact h
    · exact h
  exact dropped

theorem State.efence_canonical {s : State} (h : s.canonical) (i : Instr) (sc : BitVec 4) (cmask : BitVec 16) : (s.efence i sc cmask).canonical := by
  refine scalarState_canonical h ?_
  split
  · exact h
  · exact State.fenceDone_canonical h _ _

theorem execFence_canonical {s : State} (h : s.canonical) (sc : BitVec 4) (cmask : BitVec 16) : (execFence sc cmask s).canonical := by
  refine scalarState_canonical h ?_
  split
  · exact h
  · exact State.fenceDone_canonical h _ _

theorem State.barStep_canonical {s : State} (h : s.canonical) (k target : Nat) : (s.barStep k target).canonical := by
  unfold State.barStep
  split
  · refine State.fenceDone_canonical ?_ _ _
    exact h
  · exact h

theorem execBar_canonical {s : State} (h : s.canonical) (sc : BitVec 4) (cmask : BitVec 16) : (execBar sc cmask s).canonical := by
  refine scalarState_canonical h ?_
  dsimp only [State.arriveAt]
  split
  · exact State.barStep_canonical h _ _
  · split
    · exact h
    · split
      · exact h
      · refine State.barStep_canonical ?_ _ _
        exact h

theorem execRegacq_canonical {s : State} (h : s.canonical) (n : BitVec 3) : (execRegacq n s).canonical := by
  refine scalarState_canonical h ?_
  dsimp only
  split
  · exact h
  · split
    · split
      · exact h
      · exact h
    · exact h

theorem execRegrel_canonical {s : State} (h : s.canonical) : (execRegrel s).canonical := by
  refine scalarState_canonical h ?_
  dsimp only
  split
  · exact h
  · split
    · exact h
    · exact h

/-! ## Task words -/

theorem State.newFence_canonical {s t : State} (h : s.canonical) {die asid launch n : Nat} (made : s.newFence die asid launch = some (n, t)) :
    t.canonical := by
  unfold State.newFence at made
  dsimp only at made
  split at made
  · cases made
  · cases made
    exact h

theorem State.endFence_canonical {s : State} (h : s.canonical) (die serial : Nat) (ok : Bool) : (s.endFence die serial ok).canonical := by
  unfold State.endFence
  dsimp only
  split
  · exact h
  · split
    · exact h
    · exact h

theorem execTqput_canonical {s : State} (h : s.canonical) (d a : GReg) (q : BitVec 4) : (execTqput d a q s).canonical := by
  refine scalarState_canonical h ?_
  dsimp only
  split
  · exact h
  · split
    · exact h
    · split
      · exact h
      · next made =>
        have held := State.newFence_canonical h made
        refine State.engineWrite_canonical _ _ _ ?_
        exact held

theorem execTqwait_canonical {s : State} (h : s.canonical) (a : GReg) : (execTqwait a s).canonical := by
  refine scalarState_canonical h ?_
  split
  · exact h
  · split
    · exact h
    · exact h
    · exact h

theorem execTqtest_canonical {s : State} (h : s.canonical) (d a : GReg) : (execTqtest d a s).canonical := by
  refine scalarState_canonical h ?_
  split
  · exact h
  · exact h

end Sys2Proof.Machine

/-!
PROOFS. The canonical form of the memories (log 3): walks, the side log and the controller's commands.
-/

namespace Sys2Proof.Machine

/-! ## Walks and the side log -/

theorem State.fillTlb_canonical {s : State} (h : s.canonical) (core : Nat) (e : TlbEntry) : (s.fillTlb core e).canonical := by
  unfold State.fillTlb
  dsimp only
  split
  · exact h
  · exact h

theorem State.fillWalks_canonical {s : State} (h : s.canonical) (core : Nat) (l : List PtrEntry) : (s.fillWalks core l).canonical := by
  refine foldl_keeps State.canonical _ (fun t p ht => ?_) l s h
  dsimp only
  split
  · exact ht
  · split
    · exact ht
    · exact ht

theorem State.walked_canonical {s : State} (h : s.canonical) (core asid va : Nat) : (s.walked core asid va).canonical :=
  State.foldl_canonical (State.fillWalks_canonical h _ _) (fun _ x ht => State.engineRead_canonical ht x.1 8)

theorem State.keepTr_canonical {s : State} (h : s.canonical) (core asid va : Nat) : (s.keepTr core asid va).canonical := by
  unfold State.keepTr
  split
  · exact State.fillTlb_canonical (State.walked_canonical h _ _ _) _ _
  · exact h

theorem execTranslationWalk_canonical {s : State} (h : s.canonical) (core asid va kind : Nat) :
    (execTranslationWalk core asid va kind s).canonical := by
  have walked := State.walked_canonical h core asid va
  unfold execTranslationWalk
  dsimp only
  split
  · exact h
  · exact h
  · exact State.postFault_canonical h _ _ _ _ _ _ _ _ _
  · split
    · exact State.fillTlb_canonical walked _ _
    · exact walked
    · exact State.postFault_canonical walked _ _ _ _ _ _ _ _ _

theorem execSideLogReplay_canonical {s : State} (h : s.canonical) (core id : Nat) : (execSideLogReplay core id s).canonical := by
  unfold execSideLogReplay
  dsimp only
  split
  · exact h
  · split
    · exact h
    · split
      · refine State.sendOut_canonical ?_ _ _ _ _ _ _ _
        exact h
      · refine State.syncImage_canonical ?_ _ _
        exact h
      · split
        · exact h
        · exact h

theorem State.resumePage_canonical {s : State} (h : s.canonical) (asid page : Nat) : (s.resumePage asid page).canonical := by
  unfold State.resumePage
  have dies : ((List.range 2).foldl (fun s d =>
      s.setDie d { s.die d with faults := (s.die d).faults.filter (fun f => !(f.page == page && f.asid == asid)) }) s).canonical :=
    State.foldl_canonical h (fun t d ht => ht)
  exact State.foldl_canonical dies (fun t k ht => ht)

theorem State.discardLog_canonical {s : State} (h : s.canonical) (asid page k : Nat) : (s.discardLog asid page k).canonical := by
  unfold State.discardLog
  dsimp only
  refine State.foldl_canonical ?_ (fun t e ht => ?_)
  · exact h
  · refine State.syncImage_canonical ?_ _ _
    exact ht

theorem State.inboundFatal_canonical {s : State} (h : s.canonical) (die asid page : Nat) : (s.inboundFatal die asid page).canonical :=
  State.foldl_canonical h (fun _ _ ht => ht)

theorem State.fatalPage_canonical {s : State} (h : s.canonical) (asid page : Nat) : (s.fatalPage asid page).canonical := by
  unfold State.fatalPage
  have logs : ((s.cores.map (fun x => x.1)).foldl (fun t k => t.discardLog asid page k) s).canonical :=
    State.foldl_canonical h (fun t k ht => State.discardLog_canonical ht asid page k)
  extract_lets s1 hit s1a s2
  have crews : s2.canonical := by
    refine State.foldl_canonical ?_ (fun t c ht => State.syncImage_canonical ht s1 _)
    exact logs.same ⟨rfl, rfl, rfl⟩
  refine State.foldl_canonical crews (fun t d ht => ?_)
  exact State.inboundFatal_canonical ht d asid page

/-! ## Commands -/

theorem State.ctl_canonical {s : State} (h : s.canonical) {die : Nat} {mine : CtlCmd → Bool} {go : CtlCmd → Out}
    (hgo : ∀ c, (go c).canonical) : (s.ctl die mine go).canonical := by
  unfold State.ctl
  split
  · exact h
  · split
    · exact h
    · split
      · exact h
      · exact hgo _

theorem State.dropTlb_canonical {s : State} (h : s.canonical) (p : TlbEntry → Bool) (q : PtrEntry → Bool) : (s.dropTlb p q).canonical :=
  State.foldl_canonical h (fun _ _ ht => ht)

theorem State.invalEnds_canonical {s : State} (h : s.canonical) (die : Nat) (c : CtlCmd) : (s.invalEnds die c).canonical := by
  unfold State.invalEnds
  dsimp only
  split
  · exact h
  · exact h

theorem execInval_canonical {s : State} (h : s.canonical) (die : Nat) : (execInval die s).canonical := by
  unfold execInval
  split
  · exact State.invalEnds_canonical h _ _
  · refine State.ctl_canonical h (fun c => State.invalEnds_canonical ?_ _ _)
    exact State.dropTlb_canonical h _ _

theorem State.resumeEnds_canonical {s : State} (h : s.canonical) (die : Nat) (c : CtlCmd) (va len : Nat) : (s.resumeEnds die c va len).canonical := by
  unfold State.resumeEnds
  split
  · exact h
  · exact h

theorem execResume_canonical {s : State} (h : s.canonical) (die : Nat) : (execResume die s).canonical := by
  unfold execResume
  split
  · exact State.resumeEnds_canonical h _ _ _ _
  · refine State.ctl_canonical h (fun c => State.resumeEnds_canonical ?_ _ _ _ _)
    exact State.resumePage_canonical h _ _

theorem execResumeFatal_canonical {s : State} (h : s.canonical) (die : Nat) : (execResumeFatal die s).canonical := by
  refine State.ctl_canonical h (fun c => ?_)
  have fatal := State.fatalPage_canonical h c.asid (c.va / 4096)
  generalize s.fatalPage c.asid (c.va / 4096) = t at fatal ⊢
  exact fatal

theorem execFill_canonical {s : State} (h : s.canonical) (die : Nat) : (execFill die s).canonical := by
  unfold execFill
  split
  · exact State.resumeEnds_canonical h _ _ _ _
  · refine State.ctl_canonical h (fun c => ?_)
    split
    · exact h
    · exact h

theorem State.resumeAll_canonical {s : State} (h : s.canonical) (asid va len : Nat) : (s.resumeAll asid va len).canonical :=
  State.foldl_canonical h (fun _ _ ht => State.resumePage_canonical ht _ _)

theorem execNvmeReadComplete_canonical {s : State} (h : s.canonical) (die : Nat) (ok : Bool) (bytes : List Byte) :
    (execNvmeReadComplete die ok bytes s).canonical := by
  unfold execNvmeReadComplete
  split
  · split
    · exact h
    · split
      · exact h
      · split
        · exact h
        · refine State.resumeEnds_canonical ?_ _ _ _ _
          exact State.resumeAll_canonical (State.engineWrite_canonical _ _ _ (State.engineWrite_canonical _ _ _ h)) _ _ _
  · exact h

theorem execRetire_canonical {s : State} (h : s.canonical) (die : Nat) : (execRetire die s).canonical := by
  have marks : ∀ (t : State) (f : State → Nat → List Nat), t.canonical →
      ((List.range 2).foldl (fun s d => s.setDie d { s.die d with retiring := f s d }) t).canonical :=
    fun t f ht => State.foldl_canonical ht (fun _ _ hu => hu)
  unfold execRetire
  dsimp only
  split
  · split
    · exact h
    · split
      · exact h
      · next c _ _ _ =>
        exact (marks _ (fun s d => (s.die d).retiring.filter (· != c.asid)) (State.engineWrite_canonical _ _ _ h)).same ⟨rfl, rfl, rfl⟩
  · refine State.ctl_canonical h (fun c => ?_)
    split
    · exact h
    · exact (State.dropTlb_canonical (marks _ (fun s d => (s.die d).retiring ++ [c.asid]) h) _ _).same ⟨rfl, rfl, rfl⟩

/-! ## Harvest and migration -/

theorem State.hold_canonical {s : State} (h : s.canonical) (b : Nat) (e : DirEntry) (a f : Nat) : (s.hold b e a f).canonical :=
  (s.hold_mems b e a f).canonical h

theorem State.recall_canonical {s : State} (h : s.canonical) (pa len : Nat) : (s.recall pa len).canonical := by
  refine State.foldl_canonical h (fun t x ht => ?_)
  split
  · dsimp only
    split
    · exact ht
    · exact State.hold_canonical (s := t.mapLine _ _ _) ht _ _ _ _
  · exact ht

theorem State.harvestLeaf_canonical {s : State} (h : s.canonical) (pa len : Nat) : (s.harvestLeaf pa len).2.canonical := by
  refine foldl_keeps (fun x : Bool × State => x.2.canonical) _ (fun x f hx => ?_) _ _ (State.recall_canonical h pa len)
  dsimp only
  split
  · exact ⟨Memory.wf_write _ _ _ hx.1, hx.2.1, hx.2.2⟩
  · exact hx

theorem State.harvestFrom_canonical (die asid stop fuel : Nat) : ∀ {s : State}, s.canonical → ∀ va n,
    (s.harvestFrom die asid stop fuel va n).2.canonical := by
  induction fuel with
  | zero => exact fun h va n => h
  | succ fuel ih =>
    intro s h va n
    unfold State.harvestFrom
    split
    · exact h
    · split
      · exact ih h _ _
      · dsimp only
        split
        · refine ih ?_ _ _
          have leaf := fun pa len => State.harvestLeaf_canonical h pa len
          split
          · exact State.engineWrite_canonical _ _ _ (leaf _ _)
          · exact leaf _ _
        · exact ih h _ _

theorem execHarvest_canonical {s : State} (h : s.canonical) (die : Nat) : (execHarvest die s).canonical := by
  refine State.ctl_canonical h (fun c => ?_)
  split
  · exact h
  · exact (State.harvestFrom_canonical die _ _ _ h _ _).same ⟨rfl, rfl, rfl⟩

theorem State.recallSharers_canonical {s : State} (h : s.canonical) (pa len : Nat) : (s.recallSharers pa len).canonical := by
  refine State.foldl_canonical h (fun t x ht => ?_)
  dsimp only
  split
  · exact ht
  · exact ht

theorem State.evict_canonical {s : State} (h : s.canonical) (pa len : Nat) : (s.evict pa len).canonical := by
  refine State.foldl_canonical h (fun t x ht => ?_)
  dsimp only
  refine State.foldl_canonical ?_ (fun u a hu => hu)
  exact ht

theorem State.moved_canonical {s : State} (h : s.canonical) (die old len : Nat) : (s.moved die old len).canonical := by
  unfold State.moved
  extract_lets gone again redo lost s1 out s2 el
  have writes : s2.canonical := by
    refine State.foldl_canonical ?_ (fun t w ht => ?_)
    · exact h
    · dsimp only [out]
      split
      · exact ht
      · exact State.postFault_canonical (s := t.logWrite w false) ht _ _ _ _ _ _ _ _ _
      · exact State.postFault_canonical (s := t.logWrite w false) ht _ _ _ _ _ _ _ _ _
  exact writes.same ⟨rfl, rfl, rfl⟩

theorem State.migrateEnds_canonical {s : State} (h : s.canonical) (die : Nat) (c : CtlCmd) : (s.migrateEnds die c).canonical := by
  unfold State.migrateEnds
  dsimp only
  split
  · exact h
  · split
    · exact State.recallSharers_canonical h _ _
    · have stored := State.engineWrite_canonical _ c.a (leBytes 8 c.b) (State.engineWrite_canonical _ (pteFrame c.b)
        ((s.evict (s.die die).tcMark c.page.2).mem.read (s.die die).tcMark c.page.2) (State.evict_canonical h (s.die die).tcMark c.page.2))
      exact (State.moved_canonical (State.dropTlb_canonical stored _ _) die _ _).same ⟨rfl, rfl, rfl⟩

theorem execMigrate_canonical {s : State} (h : s.canonical) (die : Nat) : (execMigrate die s).canonical := by
  unfold execMigrate
  split
  · exact State.migrateEnds_canonical h _ _
  · refine State.ctl_canonical h (fun c => ?_)
    split
    · exact h
    · split
      · exact h
      · exact State.migrateEnds_canonical (s := s.migrateBegins die c) h _ _

end Sys2Proof.Machine

/-!
PROOFS. The canonical form of the memories (log 3): homes, the L1s and the directory, the fabric, display and PCIe.
-/

namespace Sys2Proof.Machine

/-! ## Writes and messages -/

theorem execHomeWrite_canonical {s : State} (h : s.canonical) (core id : Nat) : (execHomeWrite core id s).canonical := by
  unfold execHomeWrite
  split
  · split
    · exact h
    · exact State.arrive_canonical _ _ h
  · exact h

theorem execWritePerformed_canonical {s : State} (h : s.canonical) (id : Nat) : (execWritePerformed id s).canonical := by
  unfold execWritePerformed
  split
  · split
    · exact State.perform_canonical _ _ h
    · exact h
  · exact h

theorem State.freeHomes_canonical {s : State} (h : s.canonical) : s.freeHomes.canonical := s.freeHomes_cachesOnly.mems.canonical h

theorem State.takeFor_canonical {s : State} (h : s.canonical) (agent : Nat) (update : Bool) : (s.takeFor agent update).canonical := by
  unfold State.takeFor
  split
  · exact h
  · dsimp only
    split
    · refine (State.receive_mems _ _).canonical ?_
      exact h
    · split
      · exact State.freeHomes_canonical h
      · exact State.freeHomes_canonical h

/-! ## Fills -/

theorem execExactFill_canonical {s : State} (h : s.canonical) (agent pa : Nat) : (execExactFill agent pa s).canonical := by
  unfold execExactFill
  extract_lets att die present
  split
  · exact h
  · split
    · split
      · exact h
      · refine (State.heat_mems _ _ _).canonical ((State.putLine_mems _ _).canonical ?_)
        exact State.proxyFill_canonical h _ _
    · exact (State.fillExact_mems _ _ _ _).canonical h

theorem execSubscribeFill_canonical {s : State} (h : s.canonical) (core pa fmt : Nat) : (execSubscribeFill core pa fmt s).canonical := by
  unfold execSubscribeFill
  dsimp only
  split
  · exact h
  · split
    · exact (State.fillExact_mems _ _ _ _).canonical h
    · refine (State.heat_mems _ _ _).canonical ((State.endGrant_mems _ _ _).canonical ((State.putLine_mems _ _).canonical ?_))
      refine (State.proxySync_mems _ _ _).canonical (State.hold_canonical ?_ _ _ _ _)
      exact (State.share_mems _ _ _).canonical (State.proxyFill_canonical h _ _)

theorem execUpgrade_canonical {s : State} (h : s.canonical) (core pa : Nat) : (execUpgrade core pa s).canonical := by
  unfold execUpgrade
  split
  · split
    · dsimp only
      split
      · exact h
      · refine (State.heat_mems _ _ _).canonical ((State.endGrant_mems _ _ _).canonical ?_)
        exact ((State.proxySync_mems _ _ _).canonical (State.hold_canonical h _ _ _ _)).same ⟨rfl, rfl, rfl⟩
    · exact h
  · exact h

theorem execSubscriptionRelease_canonical {s : State} (h : s.canonical) (core pa : Nat) : (execSubscriptionRelease core pa s).canonical := by
  unfold execSubscriptionRelease
  split
  · exact (State.release_mems _ _).canonical h
  · exact h

theorem execWriteOwnershipRequest_canonical {s : State} (h : s.canonical) (agent pa : Nat) : (execWriteOwnershipRequest agent pa s).canonical := by
  unfold execWriteOwnershipRequest
  extract_lets att writable
  split
  · exact h
  · dsimp only [State.fresh]
    split
    · exact h
    · refine State.arrive_canonical _ _ ?_
      exact h

theorem execLeaseExpire_canonical {s : State} (h : s.canonical) (core pa : Nat) : (execLeaseExpire core pa s).canonical := by
  unfold execLeaseExpire
  split
  · split
    · exact h
    · exact h
  · exact h

theorem execHomeEngineRead_canonical {s : State} (h : s.canonical) (pa : Nat) : (execHomeEngineRead pa s).canonical := by
  unfold execHomeEngineRead
  split
  · exact State.engineRead_canonical h _ _
  · exact h

/-! ## The fabric -/

theorem execFabricInvalidate_canonical {s : State} (h : s.canonical) (die region off len : Nat) :
    (execFabricInvalidate die region off len s).canonical := by
  unfold execFabricInvalidate
  dsimp only
  split
  · exact h
  · refine (State.proxySync_mems _ _ _).canonical ?_
    exact h

theorem execFabricUpdate_canonical {s : State} (h : s.canonical) (die region off : Nat) (bytes : List Byte) :
    (execFabricUpdate die region off bytes s).canonical := by
  unfold execFabricUpdate
  split
  · exact h
  · exact (State.proxySync_mems _ _ _).canonical ((State.proxyApply_mems _ _ _ _).canonical h)

theorem execSharerAckTimeout_canonical {s : State} (h : s.canonical) (die pkg region : Nat) : (execSharerAckTimeout die pkg region s).canonical := by
  unfold execSharerAckTimeout
  extract_lets d mine waits asid s1 s2
  split
  · have freed : s2.canonical := State.freeHomes_canonical h
    exact freed.same ⟨rfl, rfl, rfl⟩
  · exact h

theorem State.noteSharer_canonical {s : State} (h : s.canonical) (pa : Nat) (r : FabReq) : (s.noteSharer pa r).canonical := by
  unfold State.noteSharer
  extract_lets region s1 d mine free
  have shared : s1.canonical :=
    State.foldl_canonical h (fun t x ht => ((State.share_mems t x.1 x.2).canonical ht).same ⟨rfl, rfl, rfl⟩)
  exact shared.same ⟨rfl, rfl, rfl⟩

theorem State.engineAtomic_canonical {s : State} (h : s.canonical) (pa len : Nat) (a : Nat × Nat × Nat × Nat) :
    (s.engineAtomic pa len a).canonical := by
  unfold State.engineAtomic
  split
  · exact State.engineWrite_canonical _ _ _ h
  · exact State.engineRead_canonical h _ _

theorem execInboundFabricRequest_canonical {s : State} (h : s.canonical) (die port : Nat) (arrival : Option FabArrival) :
    (execInboundFabricRequest die port arrival s).canonical := by
  unfold execInboundFabricRequest
  dsimp only [State.fresh]
  split
  · exact h
  · split
    · split
      · exact h
      · exact h
    · split
      · exact h
      · next r _ =>
        have done : (s.reqDone die r.id).canonical := h
        split
        · split
          · exact h
          · split
            · exact State.engineWrite_canonical _ _ _ done
            · exact State.engineAtomic_canonical done _ _ _
            · have read := fun pa => State.engineRead_canonical done pa r.len
              split
              · exact read _
              · exact State.noteSharer_canonical (read _) _ _
        · exact h
        · exact State.postFault_canonical h _ _ _ _ _ _ _ _ _
        · exact h

theorem execTargetTimeout_canonical {s : State} (h : s.canonical) (die port : Nat) : (execTargetTimeout die port s).canonical := by
  unfold execTargetTimeout
  dsimp only
  split
  · exact h
  · exact h

theorem State.poisonOut_canonical {s : State} (h : s.canonical) (die : Nat) (x : FabOut) (detail : Nat) : (s.poisonOut die x detail).canonical := by
  unfold State.poisonOut
  extract_lets sealing s0 s1 s2
  have synced : s1.canonical := State.syncImage_canonical (s := s0) h s x.uid
  split
  · exact synced.same ⟨rfl, rfl, rfl⟩
  · exact synced.same ⟨rfl, rfl, rfl⟩

theorem execInitiatorTimeout_canonical {s : State} (h : s.canonical) (die id : Nat) : (execInitiatorTimeout die id s).canonical := by
  unfold execInitiatorTimeout
  split
  · split
    · exact State.poisonOut_canonical h _ _ _
    · exact h
  · exact h

theorem execPoisonedCompletion_canonical {s : State} (h : s.canonical) (die id : Nat) : (execPoisonedCompletion die id s).canonical := by
  unfold execPoisonedCompletion
  split
  · exact State.poisonOut_canonical h _ _ _
  · exact h

/-! ## Display and PCIe -/

theorem execScanoutRead_canonical {s : State} (h : s.canonical) (head addr len : Nat) : (execScanoutRead head addr len s).canonical := by
  unfold execScanoutRead
  split
  · exact (State.engineRead_canonical h addr len).same ⟨rfl, rfl, rfl⟩
  · exact h

theorem execPcieInboundRequest_canonical {s : State} (h : s.canonical) (port addr len : Nat) (wr : Option (List Byte)) :
    (execPcieInboundRequest port addr len wr s).canonical := by
  unfold execPcieInboundRequest
  split
  · split
    · exact State.engineRead_canonical h _ _
    · split
      · exact State.engineWrite_canonical _ _ _ h
      · exact h
  · exact h

end Sys2Proof.Machine

/-!
PROOFS. The canonical form of the memories (log 3): the words of the vector stream.
-/

namespace Sys2Proof.Machine

/-! ## Issue -/

theorem State.landLocal_canonical {s : State} (h : s.canonical) (v : VWord) : (s.landLocal v).canonical := h

theorem State.settleLoads_canonical {s : State} (h : s.canonical) : s.settleLoads.canonical :=
  State.foldl_canonical h (fun _ v ht => State.landLocal_canonical ht v)

theorem State.settledV_canonical {s : State} (h : s.canonical) : s.settledV.canonical := by
  unfold State.settledV
  split
  · exact State.settleLoads_canonical (s := { s with crew := s.crew.settleV }) h
  · exact h

theorem waitedState_canonical {s : State} (h : s.canonical) {st : Strm} {i : Instr} {wait : BitVec 8} {go : State → Out}
    (hgo : (go s).canonical) : (waitedState s st i wait go).canonical := by
  refine guardedState_canonical h ?_
  split
  · exact hgo
  · exact h

theorem vectorWord_canonical {s : State} (h : s.canonical) {i : Instr} {hd : VHdr} {use : VUse} {tok : Option Tok} {go : State → Out}
    (hgo : ∀ t, t.canonical → (go t).canonical) : (vectorWord i hd use tok s go).canonical := by
  have settled := State.settledV_canonical h
  refine waitedState_canonical settled ?_
  dsimp only
  split
  · exact settled
  · exact settled
  · split
    · exact settled
    · split
      · exact settled
      · split
        · exact settled
        · split
          · split
            · exact settled
            · exact hgo _ settled
          · exact hgo _ settled

theorem windowWord_canonical {s : State} (h : s.canonical) (i : Instr) (hd : VHdr) (use : VUse) (lat : Nat) (eff : Crew → Nat → VEff) :
    (windowWord i hd use lat eff s).canonical := vectorWord_canonical h (fun _ ht => ht)

theorem State.issueV_canonical {s : State} (h : s.canonical) (hd : VHdr) (v : VWord) : (s.issueV hd v).canonical := by
  unfold State.issueV
  dsimp only
  split
  · refine State.sendOut_canonical ?_ _ _ _ _ _ _ _
    exact h
  · exact h

/-! ## Memory words -/

theorem loadWord_canonical {s : State} (h : s.canonical) (i : Instr) (f : VMemF) (shape : Shape) : (loadWord i f shape s).canonical := by
  refine vectorWord_canonical h (fun t ht => ?_)
  extract_lets c act es
  split
  · exact ht
  · have goes : ∀ v, (State.issueV { t with nextId := t.nextId + 1 } f.h v).canonical :=
      fun v => State.issueV_canonical (s := { t with nextId := t.nextId + 1 }) ht _ v
    refine Out.ite_canonical (Out.ite_canonical ht ?_) (Out.ite_canonical ht (goes _))
    extract_lets m
    split
    · exact ht
    · exact ht
    · exact ht
    · exact goes _

theorem execVldDq_canonical {s : State} (h : s.canonical) (f : VMemF) : (execVldDq f s).canonical := by
  refine vectorWord_canonical h (fun t ht => ?_)
  dsimp only
  split
  · exact ht
  · exact ht

theorem execVstDq_canonical {s : State} (h : s.canonical) (f : VMemF) : (execVstDq f s).canonical := by
  refine vectorWord_canonical h (fun t ht => ?_)
  dsimp only
  split
  · exact ht
  · exact ht

theorem State.putWrites_canonical {s : State} (h : s.canonical) (word : Nat) (f : VMemF) (op : Elem → WOp) (bytes : Elem → List Byte) (log : Bool)
    (released : Elem → Bool) (l : List Elem) : (s.putWrites word f op bytes log released l).canonical := by
  refine State.foldl_canonical h (fun t e ht => ?_)
  dsimp only [State.fresh]
  split
  · exact ht
  · exact ht

theorem State.writeWord_canonical {s : State} (h : s.canonical) (f : VMemF) (mayFlag : Bool) (kind : Nat)
    (last : (Elem → Nat) → List Elem → List Elem) (vk : VKind) (op : Elem → WOp) (bytes : Elem → List Byte) (regs zeros : List Nat)
    (mayLog : Bool) (el : List Elem) : (s.writeWord f mayFlag kind last vk op bytes regs zeros mayLog el).canonical := by
  unfold State.writeWord
  extract_lets c m behind
  split
  · exact h
  · exact h
  · have stored := fun l => State.putWrites_canonical (s := { s with nextId := s.nextId + 1 }) h s.nextId f op bytes true (fun e => e.tr) l
    refine Out.ite_canonical h (Out.ite_canonical h (State.issueV_canonical ?_ _ _))
    exact State.ite_canonical (stored _) (State.putWrites_canonical (stored _) _ _ _ _ _ _ _)

theorem State.claims_canonical {s : State} (h : s.canonical) (l : List Elem) : (s.claims l).canonical :=
  State.foldl_canonical h (fun _ _ ht => State.claim_canonical (State.claim_canonical ht _ _) _ _)

theorem storeWord_canonical {s : State} (h : s.canonical) (i : Instr) (f : VMemF) (shape : Shape) : (storeWord i f shape s).canonical := by
  refine vectorWord_canonical h (fun t ht => ?_)
  dsimp only [State.fresh]
  split
  · exact ht
  · split
    · split
      · exact ht
      · exact State.writeWord_canonical ht _ _ _ _ _ _ _ _ _ _ _
    · refine State.issueV_canonical (State.claims_canonical ?_ _) _ _
      exact ht

theorem atomWord_canonical {s : State} (h : s.canonical) (i : Instr) (aop : Nat) (f : VMemF) : (atomWord i aop f s).canonical := by
  refine vectorWord_canonical h (fun t ht => ?_)
  dsimp only [State.fresh]
  split
  · exact ht
  · split
    · split
      · exact ht
      · exact State.writeWord_canonical ht _ _ _ _ _ _ _ _ _ _ _
    · refine State.issueV_canonical (State.claims_canonical ?_ _) _ _
      exact ht

theorem execVlds_canonical {s : State} (h : s.canonical) (f : VMemF) : (execVlds f s).canonical := by
  refine vectorWord_canonical h (fun t ht => ?_)
  dsimp only [State.fresh]
  split
  · exact ht
  · split
    · exact ht
    · exact ht
    · exact ht
    · split
      · exact ht
      · split
        · exact ht
        · split
          · exact ht
          · exact ht
          · exact ht
          · split
            · exact ht
            · refine State.issueV_canonical ?_ _ _
              exact ht

theorem execVcp16_canonical {s : State} (h : s.canonical) (f : VMemF) : (execVcp16 f s).canonical := by
  refine vectorWord_canonical h (fun t ht => ?_)
  dsimp only [State.fresh]
  split
  · exact ht
  · split
    · exact ht
    · split
      · exact ht
      · exact ht
      · exact ht
      · refine State.issueV_canonical (State.claims_canonical ?_ _) _ _
        exact ht

/-! ## A word performs -/

theorem State.setLocal_canonical {s : State} (h : s.canonical) (sp : Space) (a : Nat) (bs : List Byte) : (s.setLocal sp a bs).canonical := by
  unfold State.setLocal
  split
  · exact h
  · exact State.setSpace_canonical _ _ _ _ h

theorem State.storeLocal_canonical {s : State} (h : s.canonical) (ty : Nat) (l : List Elem) : (s.storeLocal ty l).canonical := by
  refine State.foldl_canonical h (fun t e ht => ?_)
  split
  · split
    · exact ht
    · exact State.setSpace_canonical _ _ _ _ ht
  · exact State.setLocal_canonical ht _ _ _

theorem State.atomLocal_canonical {s : State} (h : s.canonical) (aop ty : Nat) (l : List Elem) : (s.atomLocal aop ty l).2.2.canonical := by
  refine foldl_keeps (fun x : List (Nat × Lane) × Flags × State => x.2.2.canonical) _ (fun x e hx => ?_) l _ h
  obtain ⟨olds, fl, t⟩ := x
  dsimp only
  split
  · exact State.setLocal_canonical hx _ _ _
  · exact hx

theorem State.copy16_canonical {s : State} (h : s.canonical) (l : List Elem) : (s.copy16 l).canonical :=
  State.foldl_canonical h (fun _ _ ht => State.setLocal_canonical ht _ _ _)

theorem State.proxiesFor_canonical {s : State} (h : s.canonical) (l : List Elem) : (s.proxiesFor l).canonical := by
  refine State.foldl_canonical h (fun t e ht => ?_)
  split
  · exact State.proxyFill_canonical ht _ _
  · exact ht

theorem State.foldl_readHeat_canonical {s : State} (h : s.canonical) (l : List Elem) :
    (l.foldl (fun s e => s.readHeat e.addr e.len e.att) s).canonical :=
  State.foldl_canonical h (fun _ _ ht => State.readHeat_canonical ht _ _ _)

theorem State.finishGlobal_canonical {s : State} (h : s.canonical) (v : VWord) : (s.finishGlobal v).canonical := by
  unfold State.finishGlobal
  split
  · exact h
  · next el _ =>
    have filled := State.proxiesFor_canonical h el
    dsimp only
    generalize s.proxiesFor el = t at filled ⊢
    split
    · exact filled
    · split
      · exact filled
      · split
        · exact filled
        · refine State.foldl_readHeat_canonical ?_ _
          exact filled

theorem State.finishSub_canonical {s : State} (h : s.canonical) (v : VWord) : (s.finishSub v).canonical := by
  unfold State.finishSub
  split
  · exact h
  · next el _ =>
    have filled := State.proxiesFor_canonical h el
    dsimp only
    generalize s.proxiesFor el = t at filled ⊢
    split
    · exact filled
    · split
      · refine State.foldl_readHeat_canonical ?_ _
        exact filled
      · exact filled

theorem State.dropLease_canonical {s : State} (h : s.canonical) (core pa : Nat) : (s.dropLease core pa).canonical :=
  (s.dropLease_mems core pa).canonical h

/-- The reads of a copy, behind the lease lines that it drops. -/
theorem State.copyReads_canonical {s : State} (h : s.canonical) (agent : Nat) (el : List Elem) :
    (el.foldl (fun s e => if inPod e.addr then s else s.engineRead e.addr e.len)
      (el.foldl (fun s e => s.dropLease agent e.addr) (s.copy16 el))).canonical := by
  refine State.foldl_canonical (State.foldl_canonical (State.copy16_canonical h el) (fun _ _ ht => State.dropLease_canonical ht _ _))
    (fun t e ht => ?_)
  split
  · exact ht
  · exact State.engineRead_canonical ht _ _

theorem execVectorWordComplete_canonical {s : State} (h : s.canonical) (u id : Nat) : (execVectorWordComplete u id s).canonical := by
  refine onUid_canonical h (fun s h => ?_)
  extract_lets c
  split
  · exact h
  · next v _ =>
    extract_lets everywhere mine
    split
    · exact h
    · refine Out.ite_canonical (Out.ite_canonical h (State.outDone_canonical (h.crew _) _ _)) (Out.ite_canonical h ?_)
      exact (State.storeLocal_canonical h v.ty v.elems).same ⟨rfl, rfl, rfl⟩
    · exact Out.ite_canonical h (Out.ite_canonical (State.finishGlobal_canonical h v)
        (Out.ite_canonical h (State.landLocal_canonical h v)))
    · exact Out.ite_canonical h (State.finishSub_canonical h v)
    · refine Out.ite_canonical (Out.ite_canonical h (State.outDone_canonical (h.crew _) _ _)) (Out.ite_canonical h ?_)
      exact (State.atomLocal_canonical h _ v.ty v.elems).same ⟨rfl, rfl, rfl⟩
    · refine Out.ite_canonical h ?_
      split
      · next el _ => exact (State.copyReads_canonical h s.crew.agent el).same ⟨rfl, rfl, rfl⟩
      · exact h

theorem execVectorResultLand_canonical {s : State} (h : s.canonical) (u id : Nat) : (execVectorResultLand u id s).canonical :=
  onUid_canonical h (fun _ ht => ht)

end Sys2Proof.Machine

/-!
PROOFS. The canonical form of the memories (log 3): the words of the copy stream and their jobs.
-/

namespace Sys2Proof.Machine

theorem copyWord_canonical {s : State} (h : s.canonical) (i : Instr) (seq : Crew → Nat) (room : State → Job → Option Wait)
    (start : Crew → Job → Crew × Job) : (copyWord i seq room start s).canonical := by
  refine waitedState_canonical h ?_
  extract_lets c regs
  refine Out.ite_canonical h ?_
  split
  · exact h
  · split
    · exact h
    · dsimp only [State.fresh]
      split
      · exact h
      · split
        · exact h
        · refine Out.ite_canonical h ?_
          exact h.same ⟨rfl, rfl, rfl⟩

theorem execDrain_canonical {s : State} (h : s.canonical) (path : BitVec 3) : (execDrain path s).canonical :=
  scalarState_canonical h (Out.ite_canonical h (h.crew _))

theorem execKDrain_canonical {s : State} (h : s.canonical) (gap : BitVec 4) (wait : BitVec 8) (path : BitVec 3) :
    (execKDrain gap wait path s).canonical :=
  waitedState_canonical h (Out.ite_canonical h (h.crew _))

/-! ## Jobs -/

theorem State.runJob_canonical {s : State} (h : s.canonical) (c : Crew) (j : Job) : (s.runJob c j).s.canonical :=
  engineKeeps_canonical.runJob s c j h

theorem State.runPush_canonical {s : State} (h : s.canonical) (c : Crew) (j : Job) : (s.runPush c j).1.s.canonical := by
  have start : (j.run s).s.canonical := h
  unfold State.runPush
  dsimp only
  split
  · split
    · refine JobRun.readAll_keeps _ (fun x listed => ?_) _ start
      obtain ⟨p, _, rfl⟩ := List.mem_map.1 listed
      intro t b u ht got
      obtain ⟨bs, _, ok⟩ := Fetch.andThen_ok got
      cases ok
      exact State.ite_canonical (engineKeeps_canonical.engineSees _ _ _ _ _ _ ht) ht
    · exact start
  · exact engineKeeps_canonical.run_range _ _ _ _ _ _ _ start

theorem State.mix_canonical {s : State} (h : s.canonical) (old : State) : (old.mix s).canonical := by
  obtain ⟨mem, spad, caddy⟩ := h
  exact ⟨Memory.wf_mix _ _ _ mem, Memory.wf_mix _ _ _ spad, Memory.wf_mix _ _ _ caddy⟩

theorem JobRun.keep_canonical {r : JobRun} (h : r.s.canonical) (j : Job) : (r.keep j).canonical := h

theorem State.holdJob_canonical {s : State} (h : s.canonical) (j : Job) (va kind reason : Nat) : (s.holdJob j va kind reason).canonical :=
  State.postFault_canonical (s := { s with crew := _ }) (h.crew _) _ _ _ _ _ _ _ _ _

theorem State.pauseJob_canonical {s : State} (h : s.canonical) (j : Job) {r : JobRun} (hr : r.s.canonical) (kind : Nat → Nat) :
    (s.pauseJob j r kind).canonical := by
  unfold State.pauseJob
  split
  · exact State.holdJob_canonical (JobRun.keep_canonical hr j) _ _ _ _
  · exact JobRun.keep_canonical hr j
  · exact h

theorem State.acceptCard_canonical {s : State} (h : s.canonical) (j : Job) (b : List Byte) : (s.acceptCard j b).canonical := by
  unfold State.acceptCard
  extract_lets c die asid
  refine State.ite_canonical h ?_
  split
  · exact h
  · next made =>
    have held := State.newFence_canonical h made
    exact State.ite_canonical (State.endFence_canonical (held.crew _) _ _ _) (held.same ⟨rfl, rfl, rfl⟩)

theorem State.acceptSolver_canonical {s : State} (h : s.canonical) (j : Job) : (s.acceptSolver j).canonical := by
  unfold State.acceptSolver
  extract_lets c die k q
  refine State.ite_canonical h ?_
  split
  · exact h
  · next made => exact (State.newFence_canonical h made).same ⟨rfl, rfl, rfl⟩

theorem execCopyJobComplete_canonical {s : State} (h : s.canonical) (u id : Nat) : (execCopyJobComplete u id s).canonical := by
  refine onUid_canonical h (fun s h => ?_)
  extract_lets c
  split
  · exact h
  · next j _ =>
    refine Out.ite_canonical h (Out.ite_canonical (Out.ite_canonical (h.crew _) h) ?_)
    split
    · exact State.acceptSolver_canonical h j
    · have ran := State.runJob_canonical h c j
      extract_lets r
      split
      · exact Out.ite_canonical (State.acceptCard_canonical ran j _)
          (Out.ite_canonical (JobRun.keep_canonical ran j) (ran.same ⟨rfl, rfl, rfl⟩))
      · exact State.pauseJob_canonical h j ran _

theorem execCopyJobFail_canonical {s : State} (h : s.canonical) (u id : Nat) : (execCopyJobFail u id s).canonical := by
  refine onUid_canonical h (fun s h => ?_)
  extract_lets c
  split
  · exact h
  · next j _ =>
    refine Out.ite_canonical h (Out.ite_canonical (Out.ite_canonical h ?_) ?_)
    · split
      · exact h.crew _
      · exact h
    · extract_lets r
      split
      · exact (State.mix_canonical (engineKeeps_canonical.reached s c j h) s).crew _
      · exact h

theorem execDqEntryArrive_canonical {s : State} (h : s.canonical) (u q : Nat) : (execDqEntryArrive u q s).canonical := by
  refine onUid_canonical h (fun s h => ?_)
  extract_lets c
  split
  · exact h
  · split
    · exact h
    · next j _ =>
      refine Out.ite_canonical h ?_
      have ran := State.runPush_canonical h c j
      generalize s.runPush c j = x at ran ⊢
      obtain ⟨r, b⟩ := x
      dsimp only
      split
      · exact ran.same ⟨rfl, rfl, rfl⟩
      · exact State.pauseJob_canonical h j ran _

/-! ## Collectives -/

theorem State.foldl_onCrewOf_canonical {β : Type} {s : State} (h : s.canonical) (f : β → Nat) (g : β → Crew → Crew) (l : List β) :
    (l.foldl (fun s x => s.onCrewOf (f x) (g x)) s).canonical := State.foldl_canonical h (fun _ _ ht => ht)

theorem State.foldl_spadWrite_canonical {β : Type} {s : State} (h : s.canonical) (at_ : β → Nat) (bytes : β → List Byte) (l : List β) :
    (l.foldl (fun s x => { s with spad := s.spad.write (at_ x) (bytes x) }) s).canonical :=
  State.foldl_canonical h (fun _ _ ht => ⟨ht.1, Memory.wf_write _ _ _ ht.2.1, ht.2.2⟩)

theorem execCollectivePerform_canonical {s : State} (h : s.canonical) (u id : Nat) : (execCollectivePerform u id s).canonical := by
  refine onUid_canonical h (fun s h => ?_)
  split
  · exact h
  · split
    · extract_lets same
      refine Out.ite_canonical h (Out.ite_canonical (State.foldl_onCrewOf_canonical h _ _ _) (Out.ite_canonical h ?_))
      exact State.foldl_onCrewOf_canonical (State.foldl_spadWrite_canonical h _ _ _) _ _ _
    · exact h

end Sys2Proof.Machine

/-!
PROOFS. The canonical form of the memories (log 3): the matrix unit and the Infuser's tables.
-/

namespace Sys2Proof.Machine

/-! ## Words -/

theorem matrixWord_canonical {s : State} (h : s.canonical) {i : Instr} {wait : BitVec 8} {regs : List Nat} {reads : Bool} {go : State → Out}
    (hgo : (go s).canonical) : (matrixWord i wait regs reads s go).canonical := by
  refine waitedState_canonical h ?_
  split
  · exact h
  · split
    · exact h
    · exact hgo

theorem arraySide_canonical {s : State} (h : s.canonical) {tile : Option (BitVec 3)} {go : State → Out} (hgo : (go s).canonical) :
    (arraySide s tile go).canonical := by
  unfold arraySide
  refine Out.ite_canonical h ?_
  split
  · exact Out.ite_canonical h hgo
  · exact hgo

theorem State.issueArray_canonical {s : State} (h : s.canonical) (gap : BitVec 4) (kind : ArrKind) (locks : List Nat) :
    (s.issueArray gap kind locks).canonical := h

theorem execMstep_canonical {s : State} (h : s.canonical) (f : MStepF) : (execMstep f s).canonical := by
  refine matrixWord_canonical h (arraySide_canonical h (Out.ite_canonical h ?_))
  split
  · exact h
  · exact State.issueArray_canonical h _ _ _

theorem execMngo_canonical {s : State} (h : s.canonical) (f : MStepF) : (execMngo f s).canonical := by
  refine matrixWord_canonical h (arraySide_canonical h ?_)
  split
  · exact h
  · exact h.crew _

theorem execNestStepGenerate_canonical {s : State} (h : s.canonical) (u : Nat) : (execNestStepGenerate u s).canonical := by
  refine onUid_canonical h (fun s h => ?_)
  extract_lets c
  split
  · exact h
  · exact Out.ite_canonical h (Out.ite_canonical (h.crew _) (Out.ite_canonical h (h.same ⟨rfl, rfl, rfl⟩)))

theorem execTileStepComplete_canonical {s : State} (h : s.canonical) (u : Nat) : (execTileStepComplete u s).canonical :=
  onUid_canonical h (fun _ h => h.same ⟨rfl, rfl, rfl⟩)

theorem execMzero_canonical {s : State} (h : s.canonical) (gap : BitVec 4) (wait : BitVec 8) (acc : BitVec 3) :
    (execMzero gap wait acc s).canonical :=
  matrixWord_canonical h (arraySide_canonical h (State.issueArray_canonical h _ _ _))

theorem State.useFree_canonical {s : State} (h : s.canonical) (n : Nat) : (s.useFree n).canonical := h

theorem execMwrite_canonical {s : State} (h : s.canonical) (f : MRowF) : (execMwrite f s).canonical :=
  matrixWord_canonical h (arraySide_canonical h (State.useFree_canonical (State.issueArray_canonical h _ _ _) _))

theorem execMsca_canonical {s : State} (h : s.canonical) (f : MScaF) : (execMsca f s).canonical :=
  matrixWord_canonical h (arraySide_canonical h (Out.ite_canonical h (State.useFree_canonical (State.issueArray_canonical h _ _ _) _)))

theorem State.park_canonical {s : State} (h : s.canonical) (gap : BitVec 4) (i : Instr) (sig : Option Tok) (regs : List Nat) :
    (s.park gap i sig regs).canonical := by
  unfold State.park
  extract_lets c full
  exact Out.ite_canonical h (Out.ite_canonical h (h.same ⟨rfl, rfl, rfl⟩))

theorem execMrel_canonical {s : State} (h : s.canonical) (gap : BitVec 4) (wait : BitVec 8) (acc : BitVec 3) :
    (execMrel gap wait acc s).canonical := matrixWord_canonical h (State.park_canonical h _ _ _ _)

theorem readRows_canonical {s : State} (h : s.canonical) (i : Instr) (f : MRowF) : (readRows i f s).canonical :=
  matrixWord_canonical h (State.park_canonical h _ _ _ _)

theorem execTileReadPerform_canonical {s : State} (h : s.canonical) (u : Nat) : (execTileReadPerform u s).canonical :=
  onUid_canonical h (fun _ h => h.crew _)

theorem execMrelPerform_canonical {s : State} (h : s.canonical) (u : Nat) : (execMrelPerform u s).canonical :=
  onUid_canonical h (fun _ h => h.crew _)

theorem proWord_canonical {s : State} (h : s.canonical) (i : Instr) (pro : Nat) (gap : BitVec 4) (wait : BitVec 8) (sig : BitVec 3)
    (ptab : BitVec 8) : (proWord i pro gap wait sig ptab s).canonical := by
  refine matrixWord_canonical h ?_
  refine Out.ite_canonical h (arraySide_canonical h (Out.ite_canonical h (Out.ite_canonical ?_ ?_)))
  · exact h.same ⟨rfl, rfl, rfl⟩
  · exact h.same ⟨rfl, rfl, rfl⟩

/-! ## Tables -/

theorem State.request_canonical {s : State} (h : s.canonical) (ptab t : Nat) : (s.request ptab t).canonical := h

theorem State.engineSees_canonical {s : State} (h : s.canonical) (oc sc path a len : Nat) : (s.engineSees oc sc path a len).canonical :=
  engineKeeps_canonical.engineSees s oc sc path a len h

theorem State.engineFault_canonical {s : State} (h : s.canonical) (va kind reason : Nat) : (s.engineFault va kind reason).canonical :=
  State.postFault_canonical h _ _ _ _ _ _ _ _ _

theorem State.tablesArrive_canonical (l : List InfBuf) : ∀ {s : State}, s.canonical → (s.tablesArrive l).canonical := by
  induction l with
  | nil => exact fun h => h
  | cons b l ih =>
    intro s h
    unfold State.tablesArrive
    extract_lets c
    split
    · exact ih h
    · split
      · exact (State.engineSees_canonical h _ _ _ _ _).same ⟨rfl, rfl, rfl⟩
      · exact ih (State.engineFault_canonical (h.crew _) _ _ _)
      · exact h.same ⟨rfl, rfl, rfl⟩
      · exact ih h
      · exact State.engineRead_canonical h _ _

theorem execInfuserTableArrive_canonical {s : State} (h : s.canonical) (u : Nat) : (execInfuserTableArrive u s).canonical :=
  onUid_canonical h (fun _ h => State.tablesArrive_canonical _ h)

/-! ## Operand slices -/

theorem State.postReach_canonical {s : State} (h : s.canonical) (f : MStepF) : (s.postReach f).canonical := by
  refine State.foldl_canonical h (fun t a ht => ?_)
  split
  · exact State.engineFault_canonical ht _ _ _
  · exact ht

theorem State.fetchEnd_canonical {α : Type} {s : State} (h : s.canonical) (a : ArrayOp) (x : Fetch α) {go : α → State}
    (hgo : ∀ v, (go v).canonical) : (s.fetchEnd a x go).canonical := by
  unfold State.fetchEnd
  split
  · exact hgo _
  · have faulted := fun va k r => State.engineFault_canonical (h.crew { s.crew with array := some (a.holdFor va) }) va k r
    cases a.step? with
    | none => exact faulted _ _ _
    | some f => exact State.postReach_canonical (faulted _ _ _) f
  · exact h.crew _
  · exact h
  · exact State.engineRead_canonical h _ _

theorem State.takeTable_canonical {s : State} (h : s.canonical) (f : MStepF) (hd : Handle) (p : PTab) (t : Nat) :
    (s.takeTable f hd p t).2.canonical := by
  unfold State.takeTable
  extract_lets c k core n
  split
  · exact State.request_canonical h _ _
  · split
    · exact h
    · exact State.ite_canonical (h.same ⟨rfl, rfl, rfl⟩) (h.same ⟨rfl, rfl, rfl⟩)

theorem State.keepReach_canonical {s : State} (h : s.canonical) (oc : Nat) (l : List (Nat × Nat)) : (s.keepReach oc l).canonical := by
  refine State.foldl_canonical (State.foldl_canonical h ?_) ?_
  · exact fun t a ht => State.keepTr_canonical ht _ _ _
  · exact fun t x ht => State.engineSees_canonical ht _ _ _ _ _

theorem State.expandNext_canonical {s : State} (h : s.canonical) (f : MStepF) (a : ArrayOp) (hd : Handle) (p : PTab) :
    (s.expandNext f a hd p).canonical := by
  unfold State.expandNext
  dsimp only
  split
  · exact State.keepReach_canonical (h.crew _) _ _
  · refine Out.ite_canonical (State.fetchEnd_canonical h _ _ (fun got => State.keepReach_canonical (h.crew _) _ _)) ?_
    have taken := fun t => State.takeTable_canonical h f hd p t
    split
    · exact taken _
    · exact State.fetchEnd_canonical (taken _) _ _ (fun got => State.keepReach_canonical ((taken _).crew _) _ _)

theorem execOperandSliceArrive_canonical {s : State} (h : s.canonical) (u : Nat) (sideB : Bool) : (execOperandSliceArrive u sideB s).canonical := by
  refine onUid_canonical h (fun s h => ?_)
  extract_lets c
  split
  · exact h
  · split
    · extract_lets got
      refine Out.ite_canonical h (Out.ite_canonical ?_ ?_)
      · split
        · exact Out.ite_canonical (State.expandNext_canonical h _ _ _ _) h
        · exact h
      · exact State.fetchEnd_canonical h _ _ (fun l => State.keepReach_canonical (h.crew _) _ _)
    · exact h

end Sys2Proof.Machine

/-!
PROOFS. The canonical form of the memories (log 3): graphics messages, and a crew's events.
-/

namespace Sys2Proof.Machine

/-! ## Messages -/

theorem messageWord_canonical {s : State} (h : s.canonical) (i : Instr) (f : VGfx) (nA : Nat) (b : Option VOpd) (nD : Nat)
    (bad : State → Option Nat) : (messageWord i f nA b nD bad s).canonical := by
  refine vectorWord_canonical h (fun t ht => ?_)
  split
  · exact ht
  · refine State.issueV_canonical ?_ _ _
    exact ht

theorem State.acceptExports_canonical {s : State} (h : s.canonical) (f : VGfx) (v : VWord) : (s.acceptExports f v).canonical := by
  unfold State.acceptExports
  split
  · exact h
  · exact State.foldl_canonical h (fun t x ht => State.ite_canonical ht (ht.same ⟨rfl, rfl, rfl⟩))

theorem State.unitSees_canonical {s : State} (h : s.canonical) (seen : List (Nat × Nat)) : (s.unitSees seen).canonical :=
  State.foldl_canonical h (fun _ _ ht => State.ite_canonical ht (State.engineRead_canonical ht _ _))

theorem execGraphicsMessageComplete_canonical {s : State} (h : s.canonical) (u id : Nat) : (execGraphicsMessageComplete u id s).canonical := by
  refine onUid_canonical h (fun s h => ?_)
  extract_lets c
  split
  · exact h
  · extract_lets zeros
    split
    · split
      · exact (State.acceptExports_canonical h _ _).crew _
      · exact h.crew _
    · split
      · exact h
      · exact State.useFree_canonical ((State.unitSees_canonical h _).crew _) _
      · exact State.useFree_canonical (h.crew _) _
    · exact h

/-! ## Issue and traps -/

theorem execIssueStarvationBoost_canonical {s : State} (h : s.canonical) (u : Nat) (st : Strm) : (execIssueStarvationBoost u st s).canonical :=
  onUid_canonical h (fun _ h => h.crew _)

theorem execIssueGapElapse_canonical {s : State} (h : s.canonical) (u : Nat) (st : Strm) : (execIssueGapElapse u st s).canonical :=
  onUid_canonical h (fun _ h => h.crew _)

theorem execYieldRelease_canonical {s : State} (h : s.canonical) (u : Nat) : (execYieldRelease u s).canonical :=
  onUid_canonical h (fun _ h => h.crew _)

theorem execTrapEntry_canonical {s : State} (h : s.canonical) (u : Nat) : (execTrapEntry u s).canonical :=
  onUid_canonical h (fun _ h => h.crew _)

theorem execCouplingDeadlockDetect_canonical {s : State} (h : s.canonical) (u : Nat) : (execCouplingDeadlockDetect u s).canonical :=
  onUid_canonical h (fun _ h => h.crew _)

/-! ## Leaving a slot -/

theorem execCrewRetire_canonical {s : State} (h : s.canonical) (u : Nat) : (execCrewRetire u s).canonical := by
  refine onUid_canonical h (fun s h => ?_)
  exact Out.ite_canonical h (h.same ⟨rfl, rfl, rfl⟩)

theorem execPreempt_canonical {s : State} (h : s.canonical) (core slot : Nat) : (execPreempt core slot s).canonical := by
  unfold execPreempt
  extract_lets x put
  split
  · exact h.same ⟨rfl, rfl, rfl⟩
  · split
    · exact h
    · exact Out.ite_canonical (h.same ⟨rfl, rfl, rfl⟩) (h.same ⟨rfl, rfl, rfl⟩)
  · exact h

theorem State.failTask_canonical {s : State} (h : s.canonical) (c : Crew) (p : Pend) : (s.failTask c p).canonical := by
  unfold State.failTask
  split
  · exact h
  · split
    · exact State.ite_canonical (State.endFence_canonical h _ _ _) h
    · exact h

theorem State.trapEvent_canonical {s : State} (h : s.canonical) (c : Crew) (p : Pend) : (s.trapEvent c p).Gives State.canonical := by
  unfold State.trapEvent
  extract_lets onQueue
  split
  · exact State.postRecord_canonical h _ _ _
  · exact Fetch.gives_ok (State.failTask_canonical (s := onQueue) h c p)

theorem execPreemptHalt_canonical {s : State} (h : s.canonical) (u : Nat) : (execPreemptHalt u s).canonical := by
  refine onUid_canonical h (fun s h => ?_)
  extract_lets c c1 bad
  refine Out.ite_canonical h (State.settleFetch_canonical h (State.writeImage_canonical h _ _) (fun _ => h) (fun s1 h1 => ?_))
  have left : ∀ c, (({ s1 with crew := c } : State).freeSlot c).canonical := fun c => h1.same ⟨rfl, rfl, rfl⟩
  dsimp only
  split
  · exact left _
  · exact State.settleFetch_canonical h (State.trapEvent_canonical (left _) _ _) (fun _ => h) (fun _ ht => ht)

theorem execPendingCompletionArrive_canonical {s : State} (h : s.canonical) (u id : Nat) : (execPendingCompletionArrive u id s).canonical := by
  unfold execPendingCompletionArrive
  split
  · exact h
  · next c _ =>
    refine Out.ite_canonical h ?_
    extract_lets carried land
    have landed : land.canonical := by
      have bound : (s.asBound u).canonical := h
      refine Out.ite_canonical (execInfuserTableArrive_canonical bound u) (Out.ite_canonical (Out.ite_canonical
        (execGraphicsMessageComplete_canonical bound u id) (execVectorWordComplete_canonical bound u id)) (Out.ite_canonical
        (execScalarResultComplete_canonical bound u id) (Out.ite_canonical h ?_)))
      have failed := execCopyJobFail_canonical bound u id
      split
      · next t eq =>
        rw [eq] at failed
        exact Out.ite_canonical (execCopyJobComplete_canonical bound u id) failed
      · exact failed
    clear_value land
    cases land with
    | next t =>
      refine State.syncImage_canonical ?_ _ _
      exact landed
    | fault r => exact trivial
    | refused r => exact trivial

/-! ## Seats -/

theorem State.seat_canonical {s : State} (h : s.canonical) (c : Crew) : (s.seat c).canonical := (s.seat_mems c).canonical h

theorem State.seatNow_canonical {s : State} (h : s.canonical) (u : Nat) : (s.seatNow u).canonical := by
  unfold State.seatNow
  split
  · exact (State.start_mems _ _).canonical h
  · exact h

theorem State.pushOut_canonical {s : State} (h : s.canonical) (core slot : Nat) : (s.pushOut core slot).canonical := by
  have out := execPreempt_canonical h core slot
  unfold State.pushOut
  extract_lets u
  split
  · next t eq =>
    rw [eq] at out
    exact out
  · exact out

end Sys2Proof.Machine

/-!
PROOFS. The canonical form of the memories (log 3): commands, chains, tasks, job cards and the end of a launch.
-/

namespace Sys2Proof.Machine

/-! ## Command queues -/

theorem State.setCmdq_canonical {s : State} (h : s.canonical) (die q : Nat) (x : CmdQueue) : (s.setCmdq die q x).canonical := h

theorem State.setTaskq_canonical {s : State} (h : s.canonical) (die q : Nat) (x : TaskQueue) : (s.setTaskq die q x).canonical := h

theorem State.takeCommand_canonical {s : State} (h : s.canonical) (die q : Nat) (mine : Nat → Bool) {k : List Byte → State → Out}
    (hk : ∀ b t, t.canonical → (k b t).canonical) : (s.takeCommand die q mine k).canonical := by
  unfold State.takeCommand
  extract_lets x
  refine Out.ite_canonical (Out.ite_canonical (hk _ _ h) h) (Out.ite_canonical h (Out.ite_canonical (State.engineRead_canonical h _ _) ?_))
  refine hk _ _ ?_
  exact h

theorem State.interrupt_canonical {s : State} (h : s.canonical) (die : Nat) (asked : Bool) : (s.interrupt die asked).canonical :=
  State.ite_canonical h h

theorem State.queueLetsGo_canonical {s : State} (h : s.canonical) (die q asid : Nat) : (s.queueLetsGo die q asid).canonical := h

theorem State.endCommand_canonical {s : State} (h : s.canonical) (die q asid crec : Nat) (bytes : List Byte) {k : State → Out}
    (hk : ∀ t, t.canonical → (k t).canonical) : (s.endCommand die q asid crec bytes k).canonical := by
  unfold State.endCommand
  refine State.settleFetch_canonical h (State.postRecord_canonical h _ _ _) (fun _ => h) (fun t ht => hk _ ?_)
  exact State.queueLetsGo_canonical (State.interrupt_canonical (State.setCmdq_canonical ht _ _ _) _ _) _ _ _

theorem State.refuseCommand_canonical {s : State} (h : s.canonical) (die q : Nat) (b : List Byte) (reason : Nat) :
    (s.refuseCommand die q b reason).canonical := State.endCommand_canonical h _ _ _ _ _ (fun _ ht => ht)

theorem State.settleKernel_canonical {s : State} (h : s.canonical) (w : Asker) (x : Fetch (Nat ⊕ Kernel)) {bad : Nat → Out} {ok : Nat ⊕ Kernel → Out}
    (hbad : ∀ va, (bad va).canonical) (hok : ∀ k, (ok k).canonical) : (s.settleKernel w x bad ok).canonical := by
  unfold State.settleKernel
  refine State.settleFetch_canonical h (Fetch.gives_any x) hbad (fun k _ => ?_)
  split
  · exact spendIn_canonical (hok _)
  · exact hok _

theorem State.begin_canonical {s : State} (h : s.canonical) (src : Source) (die asid prio flags handler set0 set1 image crec a total : Nat)
    (k : Kernel) : (s.begin src die asid prio flags handler set0 set1 image crec a total k).2.canonical := h

theorem execLaunch_canonical {s : State} (h : s.canonical) (die q : Nat) : (execLaunch die q s).canonical := by
  refine State.takeCommand_canonical h _ _ _ (fun b t ht => ?_)
  dsimp only
  split
  · exact State.refuseCommand_canonical ht _ _ _ _
  · refine State.settleKernel_canonical ht _ _ (fun _ => ht) (fun k => ?_)
    split
    · exact State.refuseCommand_canonical ht _ _ _ _
    · exact State.begin_canonical (State.setCmdq_canonical ht _ _ _) _ _ _ _ _ _ _ _ _ _ _ _ _

theorem execWaitCommand_canonical {s : State} (h : s.canonical) (die q : Nat) : (execWaitCommand die q s).canonical := by
  refine State.takeCommand_canonical h _ _ _ (fun b t ht => ?_)
  dsimp only
  split
  · exact State.refuseCommand_canonical ht _ _ _ _
  · exact State.setCmdq_canonical ht _ _ _

theorem execWaitCommandPoll_canonical {s : State} (h : s.canonical) (die q : Nat) : (execWaitCommandPoll die q s).canonical := by
  unfold execWaitCommandPoll
  extract_lets x
  split
  · exact Out.ite_canonical (State.endCommand_canonical h _ _ _ _ _ (fun _ ht => ht)) h
  · refine State.settleFetch_canonical h (Fetch.gives_any _) (fun _ => State.endCommand_canonical h _ _ _ _ _ (fun _ ht => ht)) (fun b _ => ?_)
    exact Out.ite_canonical h (State.endCommand_canonical h _ _ _ _ _ (fun _ ht => ht))

/-! ## Chains -/

theorem State.newChain_canonical {s : State} (h : s.canonical) (die q : Nat) (solver : Option Nat) (asid prio flags crec a : Nat) :
    (s.newChain die q solver asid prio flags crec a).2.canonical := h

theorem State.endChain_canonical {s : State} (h : s.canonical) (c : Chain) (status reason : Nat) {k : State → State}
    (hk : ∀ t, t.canonical → (k t).canonical) : (s.endChain c status reason k).canonical := by
  unfold State.endChain
  extract_lets gone
  have goes : ∀ t : State, t.canonical → (gone t).canonical := fun t ht => hk _ ht
  split
  · exact (goes s h).same ⟨rfl, rfl, rfl⟩
  · exact State.endCommand_canonical h _ _ _ _ _ goes

theorem State.expandRecord_canonical {s : State} (h : s.canonical) (c : Chain) (at_ : Nat) : (s.expandRecord c at_).canonical := by
  have ends : ∀ reason, (s.endChain c 1 reason (fun t => t)).canonical := fun reason => State.endChain_canonical h c 1 reason (fun _ ht => ht)
  have broken : ∀ reason, Out.canonical (if c.current.isSome then .next s else s.endChain c 1 reason (fun t => t)) :=
    fun reason => Out.ite_canonical h (ends reason)
  unfold State.expandRecord
  refine Out.ite_canonical (broken 7) (State.settleFetch_canonical h (Fetch.gives_any _) (fun _ => broken 8) (fun hd _ => ?_))
  refine Out.ite_canonical (broken 7) (State.settleFetch_canonical h (Fetch.gives_any _) (fun _ => broken 8) (fun b _ => ?_))
  split
  · exact broken 7
  · exact h

theorem execOperatorChain_canonical {s : State} (h : s.canonical) (die q : Nat) : (execOperatorChain die q s).canonical := by
  unfold execOperatorChain
  split
  · refine Out.ite_canonical (Out.ite_canonical h (State.endChain_canonical h _ _ _ (fun _ ht => ht))) (Out.ite_canonical h ?_)
    split
    · exact State.expandRecord_canonical h _ _
    · exact h
  · refine Out.ite_canonical h (State.takeCommand_canonical h _ _ _ (fun b t ht => ?_))
    dsimp only
    split
    · exact State.refuseCommand_canonical ht _ _ _ _
    · exact State.newChain_canonical (State.setCmdq_canonical ht _ _ _) _ _ _ _ _ _ _ _

theorem State.mapChain_canonical {s : State} (h : s.canonical) (id : Nat) (f : Chain → Chain) : (s.mapChain id f).canonical := h

theorem State.serves_canonical {s : State} (h : s.canonical) (die n : Nat) : (s.serves die n).canonical := h

theorem execOperatorSwap_canonical {s : State} (h : s.canonical) (id : Nat) : (execOperatorSwap id s).canonical := by
  unfold execOperatorSwap
  split
  · exact h
  · next c _ =>
    refine Out.ite_canonical h ?_
    extract_lets k w s' gfx fail
    have served : s'.canonical := State.ite_canonical (State.mapChain_canonical (State.serves_canonical h _ _) _ _) h
    have fails : ∀ r, (fail r).canonical := fun r => State.endChain_canonical (State.mapChain_canonical served _ _) _ _ _ (fun _ ht => ht)
    refine Out.ite_canonical (fails 6) (Out.ite_canonical (fails 5) (State.settleKernel_canonical served _ _ (fun _ => fails 8) (fun r => ?_)))
    split
    · exact fails _
    · refine Out.ite_canonical (State.mapChain_canonical served _ _) ?_
      exact State.mapChain_canonical (State.begin_canonical served _ _ _ _ _ _ _ _ _ _ _ _ _) _ _

/-! ## Tasks -/

theorem State.endTask_canonical {s : State} (h : s.canonical) (die q serial : Nat) (ok : Bool) : (s.endTask die q serial ok).canonical := by
  have ended := State.endFence_canonical (State.setTaskq_canonical h die q { s.taskq die q with busy := false, reading := none }) die serial ok
  exact ended.same ⟨rfl, rfl, rfl⟩

theorem State.takeTask_canonical {s : State} (h : s.canonical) (die q : Nat) {k : Nat → Nat → State → Out}
    (hk : ∀ a b t, t.canonical → (k a b t).canonical) : (s.takeTask die q k).canonical := by
  unfold State.takeTask
  extract_lets x
  split
  · exact hk _ _ _ h
  · refine Out.ite_canonical h (Out.ite_canonical (State.engineRead_canonical h _ _) ?_)
    exact hk _ _ _ (State.serves_canonical (State.setTaskq_canonical h _ _ _) _ _)

theorem execTaskLaunch_canonical {s : State} (h : s.canonical) (die q : Nat) : (execTaskLaunch die q s).canonical := by
  refine State.takeTask_canonical h _ _ (fun desc serial t ht => ?_)
  have refuse : (t.endTask die q serial false).canonical := State.endTask_canonical ht _ _ _ _
  refine State.settleFetch_canonical ht (Fetch.gives_any _) (fun _ => refuse) (fun b _ => ?_)
  refine Out.ite_canonical refuse (State.settleKernel_canonical ht _ _ (fun _ => refuse) (fun r => ?_))
  split
  · exact refuse
  · exact Out.ite_canonical refuse (State.begin_canonical (State.setTaskq_canonical ht _ _ _) _ _ _ _ _ _ _ _ _ _ _ _ _)

/-! ## Job cards -/

theorem State.endCard_canonical {s : State} (h : s.canonical) (die serial : Nat) (ok : Bool) : (s.endCard die serial ok).canonical := by
  have gone : (s.setDie die { s.die die with cards := (s.die die).cards.filter (fun k => k.serial != serial) }).canonical := h
  exact (State.endFence_canonical gone die serial ok).same ⟨rfl, rfl, rfl⟩

theorem State.cardRun_canonical {s : State} (h : s.canonical) {die : Nat} {k : Card} {r : JobRun} (runs : s.cardRun die k = some r) :
    r.s.canonical := by
  unfold State.cardRun at runs
  obtain ⟨p, _, rfl⟩ := Option.map_eq_some_iff.1 runs
  have walked := engineKeeps_canonical.run_walk (k.crew die) 0 0 5 p (2 ^ 20) k.a
    { s := { s with crew := k.crew die, rest := s.crew :: s.rest }, old := k.got, reads := [], skip := k.wrote, wrote := 0, flags := 0,
      fin := .ok () } h
  dsimp only
  split
  · exact walked
  · exact walked

theorem JobRun.keepCard_canonical {r : JobRun} (h : r.s.canonical) (die : Nat) (k : Card) (held : Option (Nat × Nat)) :
    (r.keepCard die k held).canonical := h

theorem State.runListCard_canonical {s : State} (h : s.canonical) (die : Nat) (k : Card) : (s.runListCard die k).canonical := by
  unfold State.runListCard
  extract_lets c w fail met
  have fails : ∀ t : State, t.canonical → (fail t).canonical := fun t ht => State.endCard_canonical ht _ _ _
  refine Out.ite_canonical h (Out.ite_canonical (fails s h) ?_)
  split
  · exact fails s h
  · next r runs =>
    have ran := State.cardRun_canonical h runs
    split
    · exact State.ite_canonical (JobRun.keepCard_canonical ran _ _ _) (State.endCard_canonical ran _ _ _)
    · exact State.frontFault_canonical (JobRun.keepCard_canonical ran _ _ _) _ _ _ _
    · exact JobRun.keepCard_canonical ran _ _ _
    · exact State.engineRead_canonical (JobRun.keepCard_canonical ran _ _ _) _ _
    · exact fails _ ran

theorem State.mapCard_canonical {s : State} (h : s.canonical) (die serial : Nat) (f : Card → Card) : (s.mapCard die serial f).canonical := h

theorem State.launchCard_canonical {s : State} (h : s.canonical) (die : Nat) (k : Card) : (s.launchCard die k).canonical := by
  unfold State.launchCard
  extract_lets s' w fail
  have served : s'.canonical := State.ite_canonical h (State.serves_canonical (State.mapCard_canonical h _ _ _) _ _)
  have fails : ∀ va, Out.canonical (fail va) := fun _ => State.endCard_canonical served _ _ _
  refine State.settleFetch_canonical served (Fetch.gives_any _) fails (fun b _ => ?_)
  refine Out.ite_canonical (fails 0) (State.settleKernel_canonical served _ _ fails (fun r => ?_))
  split
  · exact fails 0
  · exact State.begin_canonical (State.mapCard_canonical served _ _ _) _ _ _ _ _ _ _ _ _ _ _ _ _

theorem execJobCardStart_canonical {s : State} (h : s.canonical) (die serial : Nat) : (execJobCardStart die serial s).canonical := by
  unfold execJobCardStart
  extract_lets d
  split
  · exact h
  · refine Out.ite_canonical h (Out.ite_canonical (Out.ite_canonical h (State.launchCard_canonical h _ _))
      (Out.ite_canonical (State.runListCard_canonical h _ _) (Out.ite_canonical h ?_)))
    exact (State.mapCard_canonical h die serial (fun x => { x with started := true })).same ⟨rfl, rfl, rfl⟩

/-! ## The end of a launch -/

theorem State.flushCore_canonical {s : State} (h : s.canonical) (agent : Nat) : (s.flushCore agent).canonical :=
  (s.flushCore_cachesOnly agent).mems.canonical h

theorem execLaunchEnd_canonical {s : State} (h : s.canonical) (id : Nat) : (execLaunchEnd id s).canonical := by
  unfold execLaunchEnd
  split
  · exact h
  · next l _ =>
    split
    · exact h.same ⟨rfl, rfl, rfl⟩
    · refine Out.ite_canonical h ?_
      extract_lets s1 gone s2
      have flushed : s1.canonical := State.foldl_canonical h (fun _ k ht => State.flushCore_canonical ht k)
      have goes : ∀ t : State, t.canonical → (gone t).canonical := fun t ht => ht
      clear_value s1
      split
      · exact State.endCommand_canonical flushed _ _ _ _ _ goes
      · exact State.endTask_canonical (goes s1 flushed) _ _ _ _
      · exact State.endCard_canonical (goes s1 flushed) _ _ _
      · exact flushed.same ⟨rfl, rfl, rfl⟩
      · split
        · exact goes s1 flushed
        · exact Out.ite_canonical (State.endChain_canonical flushed _ _ _ goes) (Out.ite_canonical (State.endChain_canonical flushed _ _ _ goes)
            (State.mapChain_canonical (goes s1 flushed) _ _))

end Sys2Proof.Machine

/-!
PROOFS. The canonical form of the memories (log 3): draw streams, primitives, bins and blending.
-/

namespace Sys2Proof.Machine

theorem Fetch.ite_gives {α : Type} {P : α → Prop} {p : Prop} [Decidable p] {x y : Fetch α} (hx : x.Gives P) (hy : y.Gives P) :
    Fetch.Gives P (if p then x else y) := by
  split
  · exact hx
  · exact hy

/-- What a test gives: a state with canonical memories, and its verdict. -/
def testedCanonical {α : Type} (x : State × α) : Prop := x.1.canonical

/-! ## Tests and blending -/

theorem State.rasterWrite_canonical {s : State} (h : s.canonical) (p : Pass) (a : Nat) (bs : List Byte) :
    (s.rasterWrite p a bs).Gives State.canonical := State.vaStore_canonical h _ _ _

theorem State.sampleTest_canonical {s : State} (h : s.canonical) (p : Pass) (x y i z : Nat) : (s.sampleTest p x y i z).Gives testedCanonical := by
  unfold State.sampleTest
  refine Fetch.ite_gives (Fetch.gives_ok h) (Fetch.gives_then _ (fun db => Fetch.gives_then _ (fun sb => ?_)))
  refine Fetch.ite_gives (Fetch.gives_ok h) ?_
  refine (Fetch.ite_gives (State.rasterWrite_canonical h _ _ _) (Fetch.gives_ok h)).andThen (fun s1 h1 => ?_)
  exact (State.rasterWrite_canonical h1 _ _ _).andThen (fun s2 h2 => Fetch.gives_ok h2)

theorem State.laneTest_canonical {s : State} (h : s.canonical) (p : Pass) (x y cover : Nat) (z : Nat → Nat) :
    (s.laneTest p x y cover z).Gives testedCanonical := by
  unfold State.laneTest
  refine Fetch.gives_foldl (P := testedCanonical) (fun r i hr => ?_) _ (Fetch.gives_ok h)
  exact Fetch.ite_gives ((State.sampleTest_canonical hr p x y i (z i)).andThen (fun _ ht => Fetch.gives_ok ht)) (Fetch.gives_ok hr)

theorem State.blockTest_canonical {s : State} (h : s.canonical) (p : Pass) (r : RasterId) : (s.blockTest p r).Gives testedCanonical := by
  unfold State.blockTest
  refine Fetch.gives_foldl (P := testedCanonical) (fun x j hx => ?_) _ (Fetch.gives_ok h)
  exact (State.laneTest_canonical hx _ _ _ _ _).andThen (fun _ ht => Fetch.gives_ok ht)

theorem State.blendSample_canonical {s : State} (h : s.canonical) (p : Pass) (target x y i : Nat) (rgba : List Nat) :
    (s.blendSample p target x y i rgba).Gives State.canonical := by
  unfold State.blendSample
  split
  · exact Fetch.gives_ok h
  · exact Fetch.gives_then _ (fun b => State.rasterWrite_canonical h _ _ _)

theorem State.exportRun_canonical {s : State} (h : s.canonical) (p : Pass) (e : Export) : (s.exportRun p e).Gives testedCanonical := by
  unfold State.exportRun
  dsimp only
  have tested : ∀ z, Fetch.Gives testedCanonical (if !e.rid.late then .ok (s, e.rid.pass.getD e.lane 0)
      else match p.knownTest e with
        | some t => .ok (s, t.2.2.2.2)
        | none => s.laneTest p (blockPixel e.rid.x0 e.rid.y0 e.lane).1 (blockPixel e.rid.x0 e.rid.y0 e.lane).2 (e.rid.cover.getD e.lane 0) z) := by
    intro z
    refine Fetch.ite_gives (Fetch.gives_ok h) ?_
    split
    · exact Fetch.gives_ok h
    · exact State.laneTest_canonical h _ _ _ _ _
  refine Fetch.Gives.andThen (P := testedCanonical) (tested _) (fun t ht => ?_)
  refine Fetch.Gives.andThen (P := State.canonical) ?_ (fun s1 h1 => Fetch.gives_ok h1)
  refine foldl_keeps (fun x : Fetch State => x.Gives State.canonical) _ (fun x i hx => ?_) _ _ (Fetch.gives_ok ht)
  exact Fetch.ite_gives (hx.andThen (fun s hs => State.blendSample_canonical hs _ _ _ _ _ _)) hx

/-! ## Streams -/

theorem State.mapPass_canonical {s : State} (h : s.canonical) (p : Pass) (f : Pass → Pass) : (s.mapPass p f).canonical := h

theorem State.endStream_canonical {s : State} (h : s.canonical) (p : Pass) (status reason : Nat) : (s.endStream p status reason).canonical := by
  unfold State.endStream
  refine Out.ite_canonical h (State.endCommand_canonical ?_ _ _ _ _ _ (fun t ht => ht))
  exact State.foldl_canonical h (fun _ k ht => State.flushCore_canonical ht k)

theorem State.failStream_canonical {s : State} (h : s.canonical) (p : Pass) (reason : Nat) : (s.failStream p reason).canonical := by
  unfold State.failStream
  extract_lets l idle s1 stop
  have dropped : s1.canonical := State.foldl_canonical h (fun _ _ ht => ht)
  exact State.endStream_canonical (s := { s1 with passes := s1.passes.map stop }) dropped _ _ _

theorem State.settleFront_canonical {α : Type} {s : State} (h : s.canonical) (p : Pass) (c kind : Nat) {x : Fetch α} {bad : Nat → Out}
    {ok : α → Out} {P : α → Prop} (hx : x.Gives P) (hbad : ∀ va, (bad va).canonical) (hok : ∀ a, P a → (ok a).canonical) :
    (s.settleFront p c kind x bad ok).canonical := State.settleFetch_canonical h hx hbad hok

/-! ## The tray -/

theorem State.trayPut_canonical {s : State} (h : s.canonical) (p : Pass) (off : Nat) (bs : List Byte) : (s.trayPut p off bs).canonical :=
  State.setSpace_canonical _ _ _ _ h

theorem State.trayClear_canonical {s : State} (h : s.canonical) (p : Pass) : (s.trayClear p).canonical := by
  unfold State.trayClear
  refine State.foldl_canonical ?_ (fun t i ht => State.trayPut_canonical ht p _ _)
  exact ⟨h.1, h.2.1, Memory.wf_zero _ _ _ h.2.2⟩

theorem State.trayAdd_canonical {s : State} (h : s.canonical) (p : Pass) (b : Nat) (t : Prim) : (s.trayAdd p b t).1.canonical := by
  unfold State.trayAdd
  dsimp only
  split
  · have put := State.trayPut_canonical h
    exact State.trayPut_canonical (State.ite_canonical (put _ _ _) (State.trayPut_canonical (put _ _ _) _ _ _)) _ _ _
  · exact State.trayPut_canonical (State.trayPut_canonical h _ _ _) _ _ _

theorem State.trayFree_canonical {s : State} (h : s.canonical) (p : Pass) (b : Nat) : (s.trayFree p b).canonical :=
  State.trayPut_canonical (State.foldl_canonical h (fun _ _ ht => State.trayPut_canonical ht _ _ _)) _ _ _

theorem State.beginPass_canonical {s : State} (h : s.canonical) (p : Pass) (b : List Byte) : (s.beginPass p b).canonical :=
  State.trayClear_canonical (State.mapPass_canonical h _ _) _

/-! ## Records -/

theorem State.targetRecord_canonical {s : State} (h : s.canonical) (p : Pass) (b : List Byte) : (s.targetRecord p b).canonical := by
  unfold State.targetRecord
  extract_lets split past s1
  have added : s1.canonical := State.ite_canonical h h
  refine Out.ite_canonical h (Out.ite_canonical ?_ (Out.ite_canonical (State.failStream_canonical h _ _) (Out.ite_canonical ?_ ?_)))
  · exact State.ite_canonical (State.beginPass_canonical h _ _) (State.mapPass_canonical h _ _)
  · exact State.mapPass_canonical added _ _
  · exact State.beginPass_canonical added _ _

theorem State.drawRecord_canonical {s : State} (h : s.canonical) (p : Pass) (b : List Byte) : (s.drawRecord p b).canonical := by
  have fails := State.failStream_canonical h p
  unfold State.drawRecord
  refine State.settleKernel_canonical h _ _ (fun _ => fails 8) (fun v => State.settleKernel_canonical h _ _ (fun _ => fails 8) (fun x => ?_))
  split
  · exact State.mapPass_canonical (State.begin_canonical h _ _ _ _ _ _ _ _ _ _ _ _ _) _ _
  · exact fails _
  · exact fails _
  · exact fails _

theorem State.nextRecord_canonical {s : State} (h : s.canonical) (p : Pass) : (s.nextRecord p).canonical := by
  have fails := State.failStream_canonical h p
  have maps := State.mapPass_canonical h p
  unfold State.nextRecord
  refine State.settleFetch_canonical h (Fetch.gives_any _) (fun _ => fails 8) (fun b _ => ?_)
  refine Out.ite_canonical (fails 7) (Out.ite_canonical (Out.ite_canonical (maps _) (maps _)) (Out.ite_canonical
    (Out.ite_canonical (maps _) (State.targetRecord_canonical h _ _)) (Out.ite_canonical (maps _) (Out.ite_canonical (fails 7)
      (Out.ite_canonical (Out.ite_canonical (fails 7) (maps _)) (State.drawRecord_canonical h _ _))))))

theorem execDrawStream_canonical {s : State} (h : s.canonical) (die q : Nat) : (execDrawStream die q s).canonical := by
  unfold execDrawStream
  split
  · exact State.nextRecord_canonical h _
  · split
    · exact Out.ite_canonical (State.endStream_canonical h _ _ _) (Out.ite_canonical (State.endStream_canonical h _ _ _) h)
    · refine State.takeCommand_canonical h _ _ _ (fun b t ht => ?_)
      dsimp only
      split
      · exact State.refuseCommand_canonical ht _ _ _ _
      · exact Out.ite_canonical (State.refuseCommand_canonical ht _ _ _ _) (ht.same ⟨rfl, rfl, rfl⟩)

theorem execLeadAllowanceRelease_canonical {s : State} (h : s.canonical) (die : Nat) : (execLeadAllowanceRelease die s).canonical :=
  Out.ite_canonical h h

/-! ## Bins -/

theorem State.clearSample_canonical {s : State} (h : s.canonical) (p : Pass) (x y i : Nat) : (s.clearSample p x y i).Gives State.canonical := by
  unfold State.clearSample
  extract_lets one s1
  have cleared : s1.Gives State.canonical := by
    refine foldl_keeps (fun x : Fetch State => x.Gives State.canonical) one (fun acc n hacc => ?_) _ _ (Fetch.gives_ok h)
    dsimp only [one]
    split
    · exact Fetch.ite_gives hacc (hacc.andThen (fun s hs => State.rasterWrite_canonical hs _ _ _))
    · exact hacc
  refine Fetch.ite_gives cleared (cleared.andThen (fun s hs => ?_))
  exact (State.rasterWrite_canonical hs _ _ _).andThen (fun t ht => State.rasterWrite_canonical ht _ _ _)

theorem State.clearBin_canonical {s : State} (h : s.canonical) (p : Pass) (b : Nat) : (s.clearBin p b).Gives State.canonical :=
  foldl_keeps (fun x : Fetch State => x.Gives State.canonical) _ (fun _ x hacc =>
    Fetch.gives_foldl (fun _ i hs => State.clearSample_canonical hs p x.1 x.2 i) _ hacc) _ _ (Fetch.gives_ok h)

theorem State.startBin_canonical {s : State} (h : s.canonical) (p : Pass) (b : Nat) (l : List (Nat × Prim)) :
    (s.startBin p b l).Gives State.canonical :=
  (Fetch.ite_gives (Fetch.gives_ok h) (State.clearBin_canonical h p b)).andThen
    (fun _ ht => Fetch.gives_ok (State.mapPass_canonical ht _ _))

theorem State.renderStep_canonical {s : State} (h : s.canonical) (p : Pass) (c : Nat) (all : Bool) {done : State → Out}
    (hdone : (done s).canonical) : (s.renderStep p c all done).canonical := by
  have fails : ∀ va : Nat, (s.failStream p 8).canonical := fun _ => State.failStream_canonical h p 8
  have starts : ∀ b l, (s.settleFront p c 7 (s.startBin p b l) (fun _ => s.failStream p 8) .next).canonical :=
    fun b l => State.settleFront_canonical h p c 7 (State.startBin_canonical h p b l) fails (fun _ ht => ht)
  have cleared := State.clearBin_canonical h p p.ended
  unfold State.renderStep
  dsimp only
  generalize s.clearBin p p.ended = bin at cleared ⊢
  split
  · exact Out.ite_canonical (State.mapPass_canonical (State.trayFree_canonical h _ _) _ _) h
  · refine Out.ite_canonical (Out.ite_canonical hdone ?_) ?_
    · split
      · exact starts _ _
      · split
        · exact State.mapPass_canonical h _ _
        · exact State.settleFront_canonical h p c 7 cleared fails (fun _ ht => State.mapPass_canonical ht _ _)
    · split
      · exact starts _ _
      · exact hdone

/-! ## Primitives -/

theorem State.binPrim_canonical {s : State} (h : s.canonical) (p : Pass) (t : Prim) (bins : List Nat) : (s.binPrim p t bins).canonical := by
  unfold State.binPrim
  extract_lets put
  have listed : testedCanonical (bins.foldl put (s, p)) :=
    foldl_keeps (testedCanonical (α := Pass)) put (fun x b hx => State.trayAdd_canonical hx x.2 b t) bins (s, p) h
  exact State.mapPass_canonical (s := (bins.foldl put (s, p)).1) listed _ _

theorem State.pixelSlices_canonical {s : State} (h : s.canonical) (p : Place) (t : RasterId) : (s.pixelSlices p t).canonical := by
  unfold State.pixelSlices
  refine State.ite_canonical h (State.foldl_canonical h (fun u j hu => ?_))
  exact State.foldl_canonical hu (fun v z hv => State.setSpace_canonical _ _ _ _ hv)

theorem State.readyPixel_canonical {s : State} (h : s.canonical) (u : Crew) (x : Pass) (t : RasterId) : (s.readyPixel u x t).canonical := by
  unfold State.readyPixel
  have tested : Fetch.Gives testedCanonical (if t.late then .ok (s, t.cover) else s.blockTest x t) :=
    Fetch.ite_gives (Fetch.gives_ok h) (State.blockTest_canonical h x t)
  refine State.settleFront_canonical h _ _ _ tested (fun _ => State.failStream_canonical h x 8) (fun y hy => ?_)
  refine State.useFree_canonical (State.seat_canonical ?_ u) 1
  exact State.pixelSlices_canonical hy _ _

theorem execPrimitiveBin_canonical {s : State} (h : s.canonical) (fe : Nat) : (execPrimitiveBin fe s).canonical := by
  have maps := State.mapPass_canonical h
  unfold execPrimitiveBin
  dsimp only
  split
  · exact State.readyPixel_canonical h _ _ _
  · split
    · exact h
    · next p _ =>
      refine Out.ite_canonical (State.renderStep_canonical h _ _ _ (maps _ _)) (Out.ite_canonical h (Out.ite_canonical (maps _ _)
        (Out.ite_canonical (maps _ _) (State.settleFront_canonical h _ _ _ (Fetch.gives_any _) (fun _ => State.failStream_canonical h p 8)
          (fun v _ => ?_)))))
      split
      · exact maps _ _
      · exact Out.ite_canonical (maps _ _) (State.binPrim_canonical h _ _ _)

theorem execPassFinal_canonical {s : State} (h : s.canonical) (die q : Nat) : (execPassFinal die q s).canonical := by
  unfold execPassFinal
  split
  · exact h
  · refine State.renderStep_canonical h _ _ _ (Out.ite_canonical h ?_)
    exact State.ite_canonical h h

theorem execBlendExport_canonical {s : State} (h : s.canonical) (fe id : Nat) : (execBlendExport fe id s).canonical := by
  unfold execBlendExport
  split
  · exact h
  · split
    · exact h
    · exact Out.ite_canonical h (State.settleFront_canonical h _ _ _ (State.exportRun_canonical h _ _) (fun _ => State.failStream_canonical h _ _)
        (fun _ ht => State.useFree_canonical (State.mapPass_canonical ht _ _) _))

end Sys2Proof.Machine

/-!
PROOFS. The canonical form of the memories (log 3): binding a crew, and the kill of a context.
-/

namespace Sys2Proof.Machine

/-! ## Binds -/

theorem State.takeSpad_canonical {s : State} (h : s.canonical) (core asid : Nat) : (s.takeSpad core asid).canonical := by
  unfold State.takeSpad
  exact State.ite_canonical h ⟨h.1, Memory.wf_zero _ _ _ h.2.1, h.2.2⟩

theorem State.refuseBind_canonical {s : State} (h : s.canonical) (core slot : Nat) (r : BindRec) (reason : Nat) :
    (s.refuseBind core slot r reason).canonical := h

theorem State.dropLeaseLines_canonical {s : State} (h : s.canonical) (agents : List Nat) : (s.dropLeaseLines agents).canonical := h

theorem State.freshLines_canonical {s : State} (h : s.canonical) (l : Launch) : (s.freshLines l).canonical :=
  State.dropLeaseLines_canonical h _

theorem State.mapLaunch_canonical {s : State} (h : s.canonical) (id : Nat) (f : Launch → Launch) : (s.mapLaunch id f).canonical := h

theorem State.canonical.rest {s : State} (h : s.canonical) (l : List Crew) : ({ s with rest := l } : State).canonical := h

theorem State.bindFresh_canonical {s : State} (h : s.canonical) (p : Place) (r : BindRec) (l : Launch) (q : Nat) :
    (s.bindFresh p r l q).canonical := by
  unfold State.bindFresh
  dsimp only [State.fresh]
  refine State.seat_canonical (State.canonical.rest (State.takeSpad_canonical (State.mapLaunch_canonical ?_ _ _) _ _) _) _
  exact State.ite_canonical (State.freshLines_canonical h l) h

theorem State.bindPixel_canonical {s : State} (h : s.canonical) (p : Place) (r : BindRec) (x : Pass) (t : RasterId) (k : Kernel) :
    (s.bindPixel p r x t k).canonical := by
  have taken : ∀ s' : State, s'.canonical → (((s'.takeSpad p.agent r.asid).dropLeaseLines [p.agent])).canonical :=
    fun s' h' => State.dropLeaseLines_canonical (State.takeSpad_canonical h' _ _) _
  unfold State.bindPixel
  dsimp only [State.fresh]
  refine (State.slotState_mems _ _ _).canonical (State.canonical.rest (taken _ ?_) _)
  exact h

theorem State.bindStray_canonical {s : State} (h : s.canonical) (p : Place) (r : BindRec) : (s.bindStray p r).canonical := by
  refine State.settleFetch_canonical h (Fetch.gives_any _) (fun _ => h) (fun k _ => ?_)
  dsimp only [State.fresh]
  refine State.seat_canonical (State.canonical.rest (State.dropLeaseLines_canonical (State.takeSpad_canonical ?_ _ _) _) _) _
  exact h

theorem State.bindResume_canonical {s : State} (h : s.canonical) (p : Place) (r : BindRec) (c : Crew) (image : List Byte) :
    (s.bindResume p r c image).canonical := by
  unfold State.bindResume
  extract_lets s1 c0 c1 s2 x s3 used move
  have taken : s1.canonical := State.dropLeaseLines_canonical (State.takeSpad_canonical h _ _) _
  have restored : s2.canonical := State.restoreSlices_canonical (s := s1.onCrewOf c.uid (fun _ => c1)) taken _ _
  clear_value s2
  exact State.seat_canonical (s := { s3 with passes := s3.passes.map used, writes := s3.writes.map move }) restored _

theorem State.bindNew_canonical {s : State} (h : s.canonical) (p : Place) (r : BindRec) : (s.bindNew p r).canonical := by
  unfold State.bindNew
  split
  · exact State.bindFresh_canonical h _ _ _ _
  · split
    · exact State.bindPixel_canonical h _ _ _ _ _
    · exact State.bindStray_canonical h _ _

theorem State.letGo_canonical {s : State} (h : s.canonical) (w : Asker) : (s.letGo w).canonical := h

theorem State.bindImage_canonical {s : State} (h : s.canonical) (core slot : Nat) (r : BindRec) : (s.bindImage core slot r).canonical := by
  unfold State.bindImage
  extract_lets p w refuse
  have refuses : ∀ n, Out.canonical (refuse n) := fun n => State.letGo_canonical (State.refuseBind_canonical h _ _ _ _) _
  split
  · exact refuses 4
  · refine State.settleFetch_canonical h (Fetch.gives_any _) (fun _ => refuses 4) (fun b _ => ?_)
    split
    · exact refuses _
    · exact State.letGo_canonical (State.bindResume_canonical h _ _ _ _) _

theorem execBind_canonical {s : State} (h : s.canonical) (core slot : Nat) (r : BindRec) : (execBind core slot r s).canonical := by
  unfold execBind
  refine Out.ite_canonical h ?_
  split
  · exact Out.ite_canonical (State.bindImage_canonical h _ _ _) (State.refuseBind_canonical h _ _ _ _)
  · exact State.bindNew_canonical h _ _

/-! ## Kills -/

theorem State.muteFence_canonical {s : State} (h : s.canonical) (die serial : Nat) : (s.muteFence die serial).canonical := h

theorem State.stopJobs_canonical {s : State} (h : s.canonical) (c : Crew) : (s.stopJobs c).canonical :=
  State.foldl_canonical h (fun t j ht => State.mix_canonical (engineKeeps_canonical.reached t c j ht) t)

theorem State.killCards_canonical {s : State} (h : s.canonical) (asid die : Nat) : (s.killCards asid die).2.canonical := by
  unfold State.killCards
  extract_lets d mine gone stop s0 old s1
  have stopped : s0.canonical := by
    refine State.foldl_canonical h (fun t k ht => ?_)
    dsimp only [stop]
    refine State.ite_canonical ht ?_
    split
    · next runs => exact State.mix_canonical (State.cardRun_canonical ht runs) t
    · exact ht
  clear_value s0
  exact State.foldl_canonical (s := s1) stopped (fun _ k ht => State.muteFence_canonical ht die k.serial)

theorem State.killSequencer_canonical {s : State} (h : s.canonical) (asid n : Nat) : (s.killSequencer asid n).2.canonical := by
  unfold State.killSequencer
  extract_lets x run queued s1 jobs
  exact State.foldl_canonical (s := s1) h (fun _ j ht => State.muteFence_canonical ht j.die j.serial)

theorem State.killWork_canonical {s : State} (h : s.canonical) (asid : Nat) : (s.killWork asid).canonical := by
  unfold State.killWork
  extract_lets dieOne taskOne s1 stop
  have dies : ((List.range 2).foldl dieOne s).canonical := State.foldl_canonical h (fun _ _ ht => ht)
  have tasks : s1.canonical := by
    refine State.foldl_canonical dies (fun t die ht => State.foldl_canonical ht (fun u x hu => ?_))
    split
    · exact State.ite_canonical (State.endTask_canonical hu _ _ _ _) hu
    · exact hu
  exact tasks.same ⟨rfl, rfl, rfl⟩

/-- A kill that adds what it has counted to the count so far. -/
def counted (f : Nat → State → Nat × State) (x : Nat × State) (n : Nat) : Nat × State :=
  let (m, s) := f n x.2
  (x.1 + m, s)

theorem foldl_counted_canonical {s : State} (h : s.canonical) {f : Nat → State → Nat × State} (hf : ∀ n t, t.canonical → (f n t).2.canonical)
    (l : List Nat) (k : Nat) : (l.foldl (counted f) (k, s)).2.canonical :=
  foldl_keeps (fun x : Nat × State => x.2.canonical) (counted f) (fun x n hx => hf n x.2 hx) l (k, s) h

/-- A pair that has a canonical state, taken apart. -/
theorem canonical_of_pair {α : Type} {x : α × State} {a : α} {s : State} (eq : x = (a, s)) (h : x.2.canonical) : s.canonical := by
  subst eq
  exact h

theorem State.canonical.kills {s : State} (h : s.canonical) (l : List Kill) : ({ s with kills := l } : State).canonical := h

/-- What a kill leaves once its crews and jobs are gone. -/
theorem killRest_canonical {s : State} (h : s.canonical) (asid : Nat) :
    (((List.range 2).foldl (fun s die => s.setDie die { s.die die with fabOut := (s.die die).fabOut.filter (fun x => x.asid != asid || x.store) })
      ((s.cores.map (fun x => x.1)).foldl (fun s k => s.setCore k { s.core k with log := (s.core k).log.filter (fun e => e.w.asid != asid) })
        s)).killWork asid).canonical := by
  refine State.killWork_canonical (State.foldl_canonical (State.foldl_canonical h ?_) ?_) asid
  · exact fun _ _ ht => ht
  · exact fun _ _ ht => ht

theorem State.killContext_canonical {s : State} (h : s.canonical) (asid : Nat) : (s.killContext asid).canonical := by
  unfold State.killContext
  refine State.ite_canonical h ?_
  extract_lets gone s1 s2
  have stopped : s1.canonical := State.foldl_canonical h (fun _ c ht => State.stopJobs_canonical ht c)
  clear_value s1
  have crews : s2.canonical := by
    refine State.foldl_canonical stopped (fun t c ht => ?_)
    exact State.ite_canonical (p := (c.life == .preempted || c.life == .stopped) = true) ht (t := t.freeSlot c) ht
  clear_value s2
  have cards := foldl_counted_canonical crews (fun die t ht => State.killCards_canonical ht asid die) (List.range 2) 0
  split
  next n s3 eq =>
  have cards3 : s3.canonical := canonical_of_pair eq cards
  have solves := foldl_counted_canonical cards3 (fun n t ht => State.killSequencer_canonical ht asid n) (s3.solvers.map (fun x => x.1)) 0
  clear eq
  split
  next m s4 eq =>
  have rest := killRest_canonical (canonical_of_pair eq solves) asid
  clear eq
  refine State.canonical.kills ?_ _
  exact rest

theorem execContextKill_canonical {s : State} (h : s.canonical) (asid : Nat) : (execContextKill asid s).canonical :=
  Out.ite_canonical h (State.killContext_canonical h asid)

theorem execKillComplete_canonical {s : State} (h : s.canonical) (asid : Nat) : (execKillComplete asid s).canonical := by
  unfold execKillComplete
  split
  · exact h
  · exact Out.ite_canonical h (h.same ⟨rfl, rfl, rfl⟩)

end Sys2Proof.Machine

/-!
PROOFS. The canonical form of the memories (log 3): the solver sequencer, the register space and the firmware.
-/

namespace Sys2Proof.Machine

/-! ## The solver sequencer -/

theorem State.setSequencer_canonical {s : State} (h : s.canonical) (n : Nat) (x : Sequencer) : (s.setSequencer n x).canonical := h

theorem State.setRun_canonical {s : State} (h : s.canonical) (n : Nat) (r : SolverRun) : (s.setRun n r).canonical := h

theorem State.solverSettle_canonical {α : Type} {s : State} (h : s.canonical) {w : Asker} {kind : Nat} {x : Fetch α} {bad : Out} {ok : α → Out}
    {P : α → Prop} (hx : x.Gives P) (hbad : bad.canonical) (hok : ∀ a, P a → (ok a).canonical) :
    (s.solverSettle w kind x bad ok).canonical :=
  State.settleFetch_canonical h hx (fun _ => hbad) hok

theorem State.solverStore_canonical {s : State} (h : s.canonical) (w : Asker) (clash : List (Nat × Nat)) (l : List (Nat × List Byte)) :
    (s.solverStore w clash l).Gives State.canonical :=
  Fetch.gives_foldl (fun _ x ht => (State.vaStore_canonical ht w x.1 _).andThen (fun _ hu =>
    Fetch.gives_ok (State.ite_canonical hu (State.useFree_canonical hu 1)))) l (Fetch.gives_ok h)

theorem State.endSolver_canonical {s : State} (h : s.canonical) (n : Nat) (r : SolverRun) (queue : List SolverJob) (rounds : Option Nat)
    (status fsamp : Nat) : (s.endSolver n r queue rounds status fsamp).canonical := by
  unfold State.endSolver
  extract_lets j w s0 ends bytes
  have ended : ∀ ok t, State.canonical t → Out.canonical (ends ok t) := fun ok t ht =>
    State.letGo_canonical (State.endCard_canonical (State.setSequencer_canonical ht _ _) _ _ _) _
  have kept : s0.canonical := h
  refine Out.ite_canonical (Out.ite_canonical h (ended _ _ h)) ?_
  clear_value ends bytes s0
  exact State.solverSettle_canonical kept (State.vaStore_canonical kept _ _ _) (ended _ _ kept)
    (fun t ht => Out.ite_canonical (State.setSequencer_canonical ht _ _) (ended _ _ ht))

theorem execSolverJobStart_canonical {s : State} (h : s.canonical) (seq : Nat) : (execSolverJobStart seq s).canonical := by
  unfold execSolverJobStart
  extract_lets x nil done
  split
  · next j rest _ _ =>
    extract_lets w fatal breach
    have fatals : fatal.canonical := State.endSolver_canonical h _ _ _ _ _ _
    have breaches : breach.canonical := State.endSolver_canonical h _ _ _ _ _ _
    clear_value fatal breach
    refine State.solverSettle_canonical h (Fetch.gives_any _) fatals (fun d _ => Out.ite_canonical breaches ?_)
    extract_lets nsamp tables
    clear_value tables
    refine State.solverSettle_canonical h (Fetch.gives_any _) fatals (fun t _ => ?_)
    extract_lets samples active clash run writes
    refine Out.ite_canonical breaches ?_
    clear_value writes run
    refine State.solverSettle_canonical h (State.solverStore_canonical h _ _ _) fatals (fun s1 h1 => ?_)
    exact Out.ite_canonical (State.endSolver_canonical h1 _ _ _ _ _ _) (State.setSequencer_canonical h1 _ _)
  · exact h

theorem State.stageDone_canonical {s : State} (h : s.canonical) (n : Nat) (r : SolverRun) : (s.stageDone n r).canonical := by
  unfold State.stageDone
  extract_lets w none_ rest fatal
  have fatals : fatal.canonical := State.endSolver_canonical h _ _ _ _ _ _
  clear_value fatal
  refine Out.ite_canonical (State.setRun_canonical h _ _) (State.solverSettle_canonical h (Fetch.gives_any _) fatals (fun l _ => ?_))
  refine State.solverSettle_canonical h (State.solverStore_canonical h _ _ _) fatals (fun s1 h1 => ?_)
  extract_lets failed going
  clear_value failed
  split
  · exact State.endSolver_canonical h1 _ _ _ _ _ _
  · exact Out.ite_canonical (State.endSolver_canonical h1 _ _ _ _ _ _) (State.setRun_canonical h1 _ _)

theorem State.buildStage_canonical {s : State} (h : s.canonical) (n : Nat) (r : SolverRun) : (s.buildStage n r).canonical := by
  unfold State.buildStage
  extract_lets die j w fatal
  have fatals : fatal.canonical := State.endSolver_canonical h _ _ _ _ _ _
  clear_value fatal
  refine State.solverSettle_canonical h (Fetch.gives_any _) fatals (fun l _ => ?_)
  extract_lets copies rows writes
  refine State.solverSettle_canonical h (State.solverStore_canonical h _ _ _) fatals (fun s1 h1 => ?_)
  refine Out.ite_canonical (State.stageDone_canonical h1 _ _) ?_
  exact State.setRun_canonical (State.newChain_canonical h1 _ _ _ _ _ _ _ _) _ _

theorem State.takeOutputs_canonical {s : State} (h : s.canonical) (n : Nat) (r : SolverRun) : (s.takeOutputs n r).canonical := by
  unfold State.takeOutputs
  extract_lets w m fatal one
  have fatals : fatal.canonical := State.endSolver_canonical h _ _ _ _ _ _
  clear_value fatal
  refine State.solverSettle_canonical h (Fetch.gives_any _) fatals (fun l _ => ?_)
  exact State.solverSettle_canonical h (State.solverStore_canonical h _ _ _) fatals (fun s1 h1 => State.stageDone_canonical h1 _ _)

theorem execSolverStageComplete_canonical {s : State} (h : s.canonical) (seq : Nat) : (execSolverStageComplete seq s).canonical := by
  unfold execSolverStageComplete
  split
  · exact h
  · split
    · exact State.endSolver_canonical h _ _ _ _ _ _
    · refine Out.ite_canonical (State.buildStage_canonical h _ _) ?_
      split
      · exact h
      · exact State.takeOutputs_canonical h _ _
      · exact State.endSolver_canonical h _ _ _ _ _ _

/-! ## The register space -/

theorem State.setDie_canonical {s : State} (h : s.canonical) (die : Nat) (d : Die) : (s.setDie die d).canonical := h

theorem execEventRecordPost_canonical {s : State} (h : s.canonical) (die : Nat) : (execEventRecordPost die s).canonical := by
  unfold execEventRecordPost
  extract_lets d
  split
  · exact h
  · extract_lets at_
    refine Out.ite_canonical h ?_
    exact State.setDie_canonical (State.engineWrite_canonical _ _ _ h) _ _

theorem execHotnessSnapshot_canonical {s : State} (h : s.canonical) (die : Nat) (halve : Bool) : (execHotnessSnapshot die halve s).canonical := by
  unfold execHotnessSnapshot
  extract_lets d s1
  exact Out.ite_canonical (State.setDie_canonical h _ _) (State.engineWrite_canonical (s := s1) _ _ h)

theorem execMcSplitWrite_canonical {s : State} (h : s.canonical) (die val : Nat) : (execMcSplitWrite die val s).canonical := by
  obtain ⟨mem, spad, caddy⟩ := h
  unfold execMcSplitWrite
  refine Out.ite_canonical ⟨mem, spad, caddy⟩ ?_
  exact ⟨mem, spad, Memory.wf_zero _ _ _ caddy⟩

theorem execRegisterWrite_canonical {s : State} (h : s.canonical) (die addr val : Nat) (fw : Bool) :
    (execRegisterWrite die addr val fw s).canonical := by
  unfold execRegisterWrite
  extract_lets v d n off
  refine Out.ite_canonical h ?_
  split
  · refine Out.ite_canonical h (Out.ite_canonical h ?_)
    split
    · exact Out.ite_canonical (execHotnessSnapshot_canonical h _ _) h
    · exact State.ite_canonical h h
    · exact Out.ite_canonical (execMcSplitWrite_canonical h _ _) h
    · exact h
    · exact h
  · exact State.ite_canonical h h
  · exact State.ite_canonical h h
  · exact State.ite_canonical h h
  · exact h
  · exact h

/-! ## The firmware -/

theorem State.bootFrom_canonical {s : State} (h : s.canonical) (i : Nat) : (s.bootFrom i).canonical := State.ite_canonical h h

theorem execPowerOnBoot_canonical {s : State} (h : s.canonical) (image : Nat) : (execPowerOnBoot image s).canonical := by
  unfold execPowerOnBoot
  refine Out.ite_canonical h ?_
  split
  · exact State.bootFrom_canonical h _
  · exact h

theorem State.serve_canonical {s : State} (h : s.canonical) (kind : SpdmKind) (req : Nat) (blocks : List Measured) :
    (s.serve kind req blocks).canonical := Out.ite_canonical h h

theorem execLeaderRenew_canonical {s : State} (h : s.canonical) : (execLeaderRenew s).canonical := Out.ite_canonical h h

theorem execLeaderStepDown_canonical {s : State} (h : s.canonical) : (execLeaderStepDown s).canonical := Out.ite_canonical h h

theorem execLeadershipTakeover_canonical {s : State} (h : s.canonical) : (execLeadershipTakeover s).canonical := Out.ite_canonical h h

theorem execTrainingComplete_canonical {s : State} (h : s.canonical) (link : Nat) : (execTrainingComplete link s).canonical :=
  Out.ite_canonical h h

/-- A reset loses the memories, and what lists nothing is canonical. -/
theorem State.packageReset_canonical (s : State) (power : Bool) : (s.packageReset power).canonical := by
  have listless : State.reset.canonical := by
    unfold State.canonical
    decide
  exact listless

theorem execUnitError_canonical {s : State} (h : s.canonical) (die kind unit : Nat) : (execUnitError die kind unit s).canonical :=
  Out.ite_canonical h (Out.ite_canonical h h)

theorem State.fenceCore_canonical {s : State} (h : s.canonical) (core : Nat) : (s.fenceCore core).canonical := by
  unfold State.fenceCore
  extract_lets mine lost
  refine State.foldl_canonical (State.foldl_canonical h (fun _ asid ht => State.killContext_canonical ht asid)) (fun t slot ht => ?_)
  have pushed := State.pushOut_canonical ht core slot
  split
  · next t1 eq => exact (congrArg Out.canonical eq).mp pushed
  · exact ht

theorem State.fwLog_canonical {s : State} (h : s.canonical) (die : Nat) (e : LogRec) : (s.fwLog die e).canonical := h

theorem execErrorRetryResult_canonical {s : State} (h : s.canonical) (die : Nat) (ok : Bool) : (execErrorRetryResult die ok s).canonical := by
  unfold execErrorRetryResult
  extract_lets d
  split
  · exact h
  · extract_lets s1 base d1 fenced s2 lost
    have fencedOff : s2.canonical := State.setDie_canonical (State.fwLog_canonical h _ _) _ _
    clear_value s2
    refine Out.ite_canonical (State.setDie_canonical (State.fwLog_canonical h _ _) _ _) ?_
    exact Out.ite_canonical (State.packageReset_canonical _ _) (Out.ite_canonical (State.fenceCore_canonical fencedOff _) fencedOff)

end Sys2Proof.Machine

/-!
PROOFS. The canonical form of the memories (log 3) through a step: every instruction, every event and every action of the schedule.
-/

namespace Sys2Proof.Machine

/-- A word that changes its crew alone. -/
theorem onCrew_canonical {s : State} (h : s.canonical) (f : Crew → Crew) : (onCrew s f).canonical := h.crew (f s.crew)

/-! ## The families of words that the instructions belong to -/

theorem divWord_canonical {s : State} (h : s.canonical) (i : Instr) (d a b : GReg) (f : Word → Word → Word) : (divWord i d a b f s).canonical :=
  scalarState_canonical h h

theorem laneWord_canonical {s : State} (h : s.canonical) (i : Instr) (hd : VHdr) (d : VOpd) (srcs : List VOpd) (readsD : Bool) (lat : Nat)
    (val : Crew → Nat → Nat → Nat → Lane × Flags) : (laneWord i hd d srcs readsD lat val s).canonical :=
  windowWord_canonical h _ _ _ _ _

theorem arithWord_canonical {s : State} (h : s.canonical) (i : Instr) (f : VArith) (two readsD : Bool) (fpLat intLat : Nat)
    (flt : Fmt → Nat → Nat → Nat → Nat → Nat × Flags) (int : Int → Int → Int → Int) :
    (arithWord i f two readsD fpLat intLat flt int s).canonical :=
  laneWord_canonical h _ _ _ _ _ _ _

theorem bitWord_canonical {s : State} (h : s.canonical) (i : Instr) (f : VImm) (two readsD : Bool) (lat : Nat)
    (op : Lane → Lane → Lane → Nat → Lane) : (bitWord i f two readsD lat op s).canonical :=
  laneWord_canonical h _ _ _ _ _ _ _

theorem funcWord_canonical {s : State} (h : s.canonical) (i : Instr) (f : VArith) (lat : Nat) (fn : Nat → Nat → Nat × Flags) :
    (funcWord i f lat fn s).canonical :=
  laneWord_canonical h _ _ _ _ _ _ _

theorem mlogWord_canonical {s : State} (h : s.canonical) (i : Instr) (f : VImm) (two : Bool) (op : Lane → Lane → Lane) :
    (mlogWord i f two op s).canonical :=
  windowWord_canonical h _ _ _ _ _

theorem redWord_canonical {s : State} (h : s.canonical) (i : Instr) (f : VImm) (comb : Lane → Lane → Lane × Flags) :
    (redWord i f comb s).canonical :=
  windowWord_canonical h _ _ _ _ _

theorem plainCopy_canonical {s : State} (h : s.canonical) (i : Instr) : (plainCopy i s).canonical := copyWord_canonical h _ _ _ _

theorem collWord_canonical {s : State} (h : s.canonical) (i : Instr) : (collWord i s).canonical := by
  unfold collWord
  extract_lets key
  exact copyWord_canonical h i _ _ _

theorem pushWord_canonical {s : State} (h : s.canonical) (i : Instr) (q : Nat) : (pushWord i q s).canonical := copyWord_canonical h _ _ _ _

theorem popWord_canonical {s : State} (h : s.canonical) (i : Instr) (q : Nat) : (popWord i q s).canonical := copyWord_canonical h _ _ _ _

/-! ## Every instruction and event -/

/-- Every instruction of the focused crew, and every event, keeps the memories canonical. -/
theorem exec_canonical {s : State} (h : s.canonical) (i : Instr) : Out.canonical (exec i s) :=
  match i with
  | .add .. | .sub .. | .mul .. | .mulhS .. | .mulhN .. | .and .. | .or .. | .xor .. | .andn .. | .sll .. | .srl .. | .sra .. | .rol ..
  | .ror .. | .minS .. | .minN .. | .maxS .. | .maxN .. | .clz .. | .ctz .. | .popc .. | .bilv2 .. | .bilv3 .. | .adds .. | .sel ..
  | .cmp .. | .addi .. | .andi .. | .ori .. | .xori .. | .slli .. | .srli .. | .srai .. | .rori .. | .cmpi .. | .lil .. | .lih ..
  | .bfxS .. | .bfxN .. | .bfi .. | .jalr .. | .fcvt .. | .fadd .. | .fsub .. | .fmul .. | .ffma .. | .fmin .. | .fmax .. | .fabs ..
  | .fneg .. | .brf .. | .jal .. | .lpset .. | .lpbrk .. | .srd .. | .swr .. | .trap .. | .eret | .yield | .halt | .tokw .. | .forkImm ..
  | .forkReg .. | .rdv .. | .tnext .. | .gtake .. | .mnset .. | .mnstop .. | .mBrf .. | .mRdv .. | .mHalt .. | .kBrf .. | .kRdv ..
  | .kHalt .. | .kTokw .. | .linkLoss .. | .splitChangeComplete .. | .eqHeadWrite .. | .tchiefSensorRead .. | .tchiefPowerRequest ..
  | .tchiefFwUpdate .. | .powerRequestWrite .. | .profileChange | .unassignedOpcode .. | .offGridFetch .. => h
  | .divS d a b => (divWord_canonical h _ _ _ _ _ : (execDivS d a b s).canonical)
  | .divN d a b => (divWord_canonical h _ _ _ _ _ : (execDivN d a b s).canonical)
  | .remS d a b => (divWord_canonical h _ _ _ _ _ : (execRemS d a b s).canonical)
  | .remN d a b => (divWord_canonical h _ _ _ _ _ : (execRemN d a b s).canonical)
  | .ld .. => execLd_canonical h _ _ _ _ _ _ _
  | .st .. => execSt_canonical h _ _ _ _ _ _
  | .amoAdd d a oc sc size => (State.amo_canonical h _ _ _ _ _ _ _ _ : (execAmoAdd d a oc sc size s).canonical)
  | .amoAnd d a oc sc size => (State.amo_canonical h _ _ _ _ _ _ _ _ : (execAmoAnd d a oc sc size s).canonical)
  | .amoOr d a oc sc size => (State.amo_canonical h _ _ _ _ _ _ _ _ : (execAmoOr d a oc sc size s).canonical)
  | .amoXor d a oc sc size => (State.amo_canonical h _ _ _ _ _ _ _ _ : (execAmoXor d a oc sc size s).canonical)
  | .amoMinS d a oc sc size => (State.amo_canonical h _ _ _ _ _ _ _ _ : (execAmoMinS d a oc sc size s).canonical)
  | .amoMaxS d a oc sc size => (State.amo_canonical h _ _ _ _ _ _ _ _ : (execAmoMaxS d a oc sc size s).canonical)
  | .amoMinN d a oc sc size => (State.amo_canonical h _ _ _ _ _ _ _ _ : (execAmoMinN d a oc sc size s).canonical)
  | .amoMaxN d a oc sc size => (State.amo_canonical h _ _ _ _ _ _ _ _ : (execAmoMaxN d a oc sc size s).canonical)
  | .amoSwap d a oc sc size => (State.amo_canonical h _ _ _ _ _ _ _ _ : (execAmoSwap d a oc sc size s).canonical)
  | .amoCas d a oc sc size => (State.amo_canonical h _ _ _ _ _ _ _ _ : (execAmoCas d a oc sc size s).canonical)
  | .fence .. => execFence_canonical h _ _
  | .bar .. => execBar_canonical h _ _
  | .efenceCopy sc cmask => (State.efence_canonical h _ _ _ : (execEfenceCopy sc cmask s).canonical)
  | .efenceColl sc cmask => (State.efence_canonical h _ _ _ : (execEfenceColl sc cmask s).canonical)
  | .efenceSolve sc cmask => (State.efence_canonical h _ _ _ : (execEfenceSolve sc cmask s).canonical)
  | .efenceInfuse sc cmask => (State.efence_canonical h _ _ _ : (execEfenceInfuse sc cmask s).canonical)
  | .drain .. => execDrain_canonical h _
  | .regacq .. => execRegacq_canonical h _
  | .regrel => execRegrel_canonical h
  | .tqput .. => execTqput_canonical h _ _ _
  | .tqwait .. => execTqwait_canonical h _
  | .tqtest .. => execTqtest_canonical h _ _
  | .vadd f => (arithWord_canonical h _ _ _ _ _ _ _ _ : (execVadd f s).canonical)
  | .vsub f => (arithWord_canonical h _ _ _ _ _ _ _ _ : (execVsub f s).canonical)
  | .vmul f => (arithWord_canonical h _ _ _ _ _ _ _ _ : (execVmul f s).canonical)
  | .vfma f => (arithWord_canonical h _ _ _ _ _ _ _ _ : (execVfma f s).canonical)
  | .vmin f => (laneWord_canonical h _ _ _ _ _ _ _ : (execVmin f s).canonical)
  | .vmax f => (laneWord_canonical h _ _ _ _ _ _ _ : (execVmax f s).canonical)
  | .vabs f => (arithWord_canonical h _ _ _ _ _ _ _ _ : (execVabs f s).canonical)
  | .vneg f => (arithWord_canonical h _ _ _ _ _ _ _ _ : (execVneg f s).canonical)
  | .vmulh f => (arithWord_canonical h _ _ _ _ _ _ _ _ : (execVmulh f s).canonical)
  | .vmad f => (arithWord_canonical h _ _ _ _ _ _ _ _ : (execVmad f s).canonical)
  | .vshl f => (bitWord_canonical h _ _ _ _ _ _ : (execVshl f s).canonical)
  | .vshr f => (bitWord_canonical h _ _ _ _ _ _ : (execVshr f s).canonical)
  | .vrot f => (bitWord_canonical h _ _ _ _ _ _ : (execVrot f s).canonical)
  | .vand f => (bitWord_canonical h _ _ _ _ _ _ : (execVand f s).canonical)
  | .vor f => (bitWord_canonical h _ _ _ _ _ _ : (execVor f s).canonical)
  | .vxor f => (bitWord_canonical h _ _ _ _ _ _ : (execVxor f s).canonical)
  | .vandn f => (bitWord_canonical h _ _ _ _ _ _ : (execVandn f s).canonical)
  | .vclz f => (bitWord_canonical h _ _ _ _ _ _ : (execVclz f s).canonical)
  | .vpopc f => (bitWord_canonical h _ _ _ _ _ _ : (execVpopc f s).canonical)
  | .vbilvTwo f => (bitWord_canonical h _ _ _ _ _ _ : (execVbilvTwo f s).canonical)
  | .vbilvThree f => (bitWord_canonical h _ _ _ _ _ _ : (execVbilvThree f s).canonical)
  | .vcmp f => (windowWord_canonical h _ _ _ _ _ : (execVcmp f s).canonical)
  | .vmlogAnd f => (mlogWord_canonical h _ _ _ _ : (execVmlogAnd f s).canonical)
  | .vmlogOr f => (mlogWord_canonical h _ _ _ _ : (execVmlogOr f s).canonical)
  | .vmlogXor f => (mlogWord_canonical h _ _ _ _ : (execVmlogXor f s).canonical)
  | .vmlogAndn f => (mlogWord_canonical h _ _ _ _ : (execVmlogAndn f s).canonical)
  | .vmlogNot f => (mlogWord_canonical h _ _ _ _ : (execVmlogNot f s).canonical)
  | .vmlogMov f => (mlogWord_canonical h _ _ _ _ : (execVmlogMov f s).canonical)
  | .vmpop f => (windowWord_canonical h _ _ _ _ _ : (execVmpop f s).canonical)
  | .vsig f => (windowWord_canonical h _ _ _ _ _ : (execVsig f s).canonical)
  | .vsel f => (laneWord_canonical h _ _ _ _ _ _ _ : (execVsel f s).canonical)
  | .vtos f => (windowWord_canonical h _ _ _ _ _ : (execVtos f s).canonical)
  | .vmov f => (bitWord_canonical h _ _ _ _ _ _ : (execVmov f s).canonical)
  | .vcvt f => (laneWord_canonical h _ _ _ _ _ _ _ : (execVcvt f s).canonical)
  | .vrcp f => (funcWord_canonical h _ _ _ _ : (execVrcp f s).canonical)
  | .vrsqrt f => (funcWord_canonical h _ _ _ _ : (execVrsqrt f s).canonical)
  | .vsqrt f => (funcWord_canonical h _ _ _ _ : (execVsqrt f s).canonical)
  | .vexp2 f => (funcWord_canonical h _ _ _ _ : (execVexp2 f s).canonical)
  | .vlog2 f => (funcWord_canonical h _ _ _ _ : (execVlog2 f s).canonical)
  | .vsinpi f => (funcWord_canonical h _ _ _ _ : (execVsinpi f s).canonical)
  | .vcospi f => (funcWord_canonical h _ _ _ _ : (execVcospi f s).canonical)
  | .vshuf f => (laneWord_canonical h _ _ _ _ _ _ _ : (execVshuf f s).canonical)
  | .vrotl f => (laneWord_canonical h _ _ _ _ _ _ _ : (execVrotl f s).canonical)
  | .vbcast f => (laneWord_canonical h _ _ _ _ _ _ _ : (execVbcast f s).canonical)
  | .vredAdd f => (redWord_canonical h _ _ _ : (execVredAdd f s).canonical)
  | .vredMin f => (redWord_canonical h _ _ _ : (execVredMin f s).canonical)
  | .vredMax f => (redWord_canonical h _ _ _ : (execVredMax f s).canonical)
  | .vld f => (loadWord_canonical h _ _ _ : (execVld f s).canonical)
  | .vldDq .. => execVldDq_canonical h _
  | .vldx f => (loadWord_canonical h _ _ _ : (execVldx f s).canonical)
  | .vgath f => (loadWord_canonical h _ _ _ : (execVgath f s).canonical)
  | .vst f => (storeWord_canonical h _ _ _ : (execVst f s).canonical)
  | .vstDq .. => execVstDq_canonical h _
  | .vstx f => (storeWord_canonical h _ _ _ : (execVstx f s).canonical)
  | .vscat f => (storeWord_canonical h _ _ _ : (execVscat f s).canonical)
  | .vatomAdd f => (atomWord_canonical h _ _ _ : (execVatomAdd f s).canonical)
  | .vatomAnd f => (atomWord_canonical h _ _ _ : (execVatomAnd f s).canonical)
  | .vatomOr f => (atomWord_canonical h _ _ _ : (execVatomOr f s).canonical)
  | .vatomXor f => (atomWord_canonical h _ _ _ : (execVatomXor f s).canonical)
  | .vatomMinS f => (atomWord_canonical h _ _ _ : (execVatomMinS f s).canonical)
  | .vatomMaxS f => (atomWord_canonical h _ _ _ : (execVatomMaxS f s).canonical)
  | .vatomMinN f => (atomWord_canonical h _ _ _ : (execVatomMinN f s).canonical)
  | .vatomMaxN f => (atomWord_canonical h _ _ _ : (execVatomMaxN f s).canonical)
  | .vatomSwap f => (atomWord_canonical h _ _ _ : (execVatomSwap f s).canonical)
  | .vatomCas f => (atomWord_canonical h _ _ _ : (execVatomCas f s).canonical)
  | .vlds .. => execVlds_canonical h _
  | .vcp16 .. => execVcp16_canonical h _
  | .tex f => (messageWord_canonical h _ _ _ _ _ _ : (execTex f s).canonical)
  | .tex3 f => (messageWord_canonical h _ _ _ _ _ _ : (execTex3 f s).canonical)
  | .rayq f => (messageWord_canonical h _ _ _ _ _ _ : (execRayq f s).canonical)
  | .pexp f => (messageWord_canonical h _ _ _ _ _ _ : (execPexp f s).canonical)
  | .vBrf .. | .vRdv .. | .vHalt .. => State.settledV_canonical h
  | .mstep .. => execMstep_canonical h _
  | .mngo .. => execMngo_canonical h _
  | .mzero .. => execMzero_canonical h _ _ _
  | .mrel .. => execMrel_canonical h _ _ _
  | .mread f => (readRows_canonical h _ _ : (execMread f s).canonical)
  | .mwrite .. => execMwrite_canonical h _
  | .msca .. => execMsca_canonical h _
  | .mcvt f => (readRows_canonical h _ _ : (execMcvt f s).canonical)
  | .mproNone gap wait sig ptab => (proWord_canonical h _ _ _ _ _ _ : (execMproNone gap wait sig ptab s).canonical)
  | .mproInt4 gap wait sig ptab => (proWord_canonical h _ _ _ _ _ _ : (execMproInt4 gap wait sig ptab s).canonical)
  | .mproCb3 gap wait sig ptab => (proWord_canonical h _ _ _ _ _ _ : (execMproCb3 gap wait sig ptab s).canonical)
  | .mproCb4 gap wait sig ptab => (proWord_canonical h _ _ _ _ _ _ : (execMproCb4 gap wait sig ptab s).canonical)
  | .mproBmap gap wait sig ptab => (proWord_canonical h _ _ _ _ _ _ : (execMproBmap gap wait sig ptab s).canonical)
  | .cpyKh hd o => (plainCopy_canonical h _ : (execCpyKh hd o s).canonical)
  | .cpyKr hd o => (plainCopy_canonical h _ : (execCpyKr hd o s).canonical)
  | .cpysg hd o => (plainCopy_canonical h _ : (execCpysg hd o s).canonical)
  | .cpymcKh hd o => (plainCopy_canonical h _ : (execCpymcKh hd o s).canonical)
  | .cpymcKr hd o => (plainCopy_canonical h _ : (execCpymcKr hd o s).canonical)
  | .scatNative hd o => (plainCopy_canonical h _ : (execScatNative hd o s).canonical)
  | .scatStrain hd red o => (plainCopy_canonical h _ : (execScatStrain hd red o s).canonical)
  | .gath hd o => (plainCopy_canonical h _ : (execGath hd o s).canonical)
  | .collAllred hd red o => (collWord_canonical h _ : (execCollAllred hd red o s).canonical)
  | .collRedsc hd red o => (collWord_canonical h _ : (execCollRedsc hd red o s).canonical)
  | .collGath hd red o => (collWord_canonical h _ : (execCollGath hd red o s).canonical)
  | .xfmTr hd o => (plainCopy_canonical h _ : (execXfmTr hd o s).canonical)
  | .xfmCvt hd o => (plainCopy_canonical h _ : (execXfmCvt hd o s).canonical)
  | .xfmBdb hd o => (plainCopy_canonical h _ : (execXfmBdb hd o s).canonical)
  | .xfmPsum hd o => (plainCopy_canonical h _ : (execXfmPsum hd o s).canonical)
  | .jsub hd o => (copyWord_canonical h _ _ _ _ : (execJsub hd o s).canonical)
  | .dqpushKh hd q o => (pushWord_canonical h _ _ : (execDqpushKh hd q o s).canonical)
  | .dqpushKr hd q o => (pushWord_canonical h _ _ : (execDqpushKr hd q o s).canonical)
  | .dqpopKh hd q o => (popWord_canonical h _ _ : (execDqpopKh hd q o s).canonical)
  | .dqpopKr hd q o => (popWord_canonical h _ _ : (execDqpopKr hd q o s).canonical)
  | .sqgo hd o => (copyWord_canonical h _ _ _ _ : (execSqgo hd o s).canonical)
  | .kDrain .. => execKDrain_canonical h _ _ _
  | .issueGapElapse .. => execIssueGapElapse_canonical h _ _
  | .issueStarvationBoost .. => execIssueStarvationBoost_canonical h _ _
  | .yieldRelease .. => execYieldRelease_canonical h _
  | .scalarResultComplete .. => execScalarResultComplete_canonical h _ _
  | .vectorResultLand .. => execVectorResultLand_canonical h _ _
  | .vectorWordComplete .. => execVectorWordComplete_canonical h _ _
  | .graphicsMessageComplete .. => execGraphicsMessageComplete_canonical h _ _
  | .blendExport .. => execBlendExport_canonical h _ _
  | .crewRetire .. => execCrewRetire_canonical h _
  | .couplingDeadlockDetect .. => execCouplingDeadlockDetect_canonical h _
  | .trapEntry .. => execTrapEntry_canonical h _
  | .tileStepComplete .. => execTileStepComplete_canonical h _
  | .nestStepGenerate .. => execNestStepGenerate_canonical h _
  | .tileReadPerform .. => execTileReadPerform_canonical h _
  | .mrelPerform .. => execMrelPerform_canonical h _
  | .operandSliceArrive .. => execOperandSliceArrive_canonical h _ _
  | .infuserTableArrive .. => execInfuserTableArrive_canonical h _
  | .copyJobComplete .. => execCopyJobComplete_canonical h _ _
  | .copyJobFail .. => execCopyJobFail_canonical h _ _
  | .collectivePerform .. => execCollectivePerform_canonical h _ _
  | .dqEntryArrive .. => execDqEntryArrive_canonical h _ _
  | .sideLogReplay .. => execSideLogReplay_canonical h _ _
  | .translationWalk .. => execTranslationWalk_canonical h _ _ _ _
  | .inval .. => execInval_canonical h _
  | .resume .. => execResume_canonical h _
  | .resumeFatal .. => execResumeFatal_canonical h _
  | .fill .. => execFill_canonical h _
  | .retire .. => execRetire_canonical h _
  | .harvest .. => execHarvest_canonical h _
  | .migrate .. => execMigrate_canonical h _
  | .homeWrite .. => execHomeWrite_canonical h _ _
  | .writePerformed .. => execWritePerformed_canonical h _
  | .homeEngineRead .. => execHomeEngineRead_canonical h _
  | .subscribeFill .. => execSubscribeFill_canonical h _ _ _
  | .upgrade .. => execUpgrade_canonical h _ _
  | .subscriptionRelease .. => execSubscriptionRelease_canonical h _ _
  | .invalidationReceive .. | .updateReceive .. => State.takeFor_canonical h _ _
  | .fabricInvalidate .. => execFabricInvalidate_canonical h _ _ _ _
  | .fabricUpdate .. => execFabricUpdate_canonical h _ _ _ _
  | .sharerAckTimeout .. => execSharerAckTimeout_canonical h _ _ _
  | .leaseExpire .. => execLeaseExpire_canonical h _ _
  | .inboundFabricRequest .. => execInboundFabricRequest_canonical h _ _ _
  | .targetTimeout .. => execTargetTimeout_canonical h _ _
  | .initiatorTimeout .. => execInitiatorTimeout_canonical h _ _
  | .poisonedCompletion .. => execPoisonedCompletion_canonical h _ _
  | .launch .. => execLaunch_canonical h _ _
  | .operatorChain .. => execOperatorChain_canonical h _ _
  | .operatorSwap .. => execOperatorSwap_canonical h _
  | .drawStream .. => execDrawStream_canonical h _ _
  | .waitCommand .. => execWaitCommand_canonical h _ _
  | .waitCommandPoll .. => execWaitCommandPoll_canonical h _ _
  | .launchEnd .. => execLaunchEnd_canonical h _
  | .taskLaunch .. => execTaskLaunch_canonical h _ _
  | .jobCardStart .. => execJobCardStart_canonical h _ _
  | .bind .. => execBind_canonical h _ _ _
  | .preempt .. => execPreempt_canonical h _ _
  | .preemptHalt .. => execPreemptHalt_canonical h _
  | .pendingCompletionArrive .. => execPendingCompletionArrive_canonical h _ _
  | .contextKill .. => execContextKill_canonical h _
  | .killComplete .. => execKillComplete_canonical h _
  | .solverJobStart .. => execSolverJobStart_canonical h _
  | .solverStageComplete .. => execSolverStageComplete_canonical h _
  | .primitiveBin .. => execPrimitiveBin_canonical h _
  | .passFinal .. => execPassFinal_canonical h _ _
  | .leadAllowanceRelease .. => execLeadAllowanceRelease_canonical h _
  | .hotnessSnapshot .. => execHotnessSnapshot_canonical h _ _
  | .mcSplitWrite .. => execMcSplitWrite_canonical h _ _
  | .eventRecordPost .. => execEventRecordPost_canonical h _
  | .registerWrite .. => execRegisterWrite_canonical h _ _ _ _
  | .powerOnBoot .. => execPowerOnBoot_canonical h _
  | .getVersion .. | .getCapabilities .. | .negotiateAlgorithms .. | .getDigests .. | .getCertificate .. | .challenge ..
  | .getMeasurements .. => State.serve_canonical h _ _ _
  | .leaderRenew => execLeaderRenew_canonical h
  | .leaderStepDown => execLeaderStepDown_canonical h
  | .leadershipTakeover => execLeadershipTakeover_canonical h
  | .trainingComplete .. => execTrainingComplete_canonical h _
  | .unitError .. => execUnitError_canonical h _ _ _
  | .errorRetryResult .. => execErrorRetryResult_canonical h _ _
  | .tchiefReset | .powerLoss => State.packageReset_canonical s _
  | .exactFill .. => execExactFill_canonical h _ _
  | .writeOwnershipRequest .. => execWriteOwnershipRequest_canonical h _ _
  | .scanoutRead .. => execScanoutRead_canonical h _ _ _
  | .pcieInboundRequest .. => execPcieInboundRequest_canonical h _ _ _ _
  | .nvmeReadComplete .. => execNvmeReadComplete_canonical h _ _ _

/-- What a fetch comes to without an instruction changes no memory. -/
theorem State.fetched_out_canonical {s : State} (h : s.canonical) {st : Strm} {o : Out} (gave : s.fetched st = .out o) : o.canonical := by
  unfold State.fetched at gave
  dsimp only at gave
  repeat' split at gave
  all_goals
    cases gave
  · exact h
  · exact h
  · exact onCrew_canonical h _
  · exact onCrew_canonical h _
  · exact h
  · exact h
  · exact h
  · exact State.engineRead_canonical h _ _

theorem State.takeTurn_canonical {s t : State} (h : s.canonical) {u : Nat} {st : Strm} (taken : s.takeTurn u st = some t) : t.canonical := by
  obtain ⟨s1, found, rfl⟩ := Option.map_eq_some_iff.1 taken
  exact (State.focus_canonical h found).crew _

/-- Every event that the device offers keeps the memories canonical. -/
theorem Act.run_canonical {s : State} (h : s.canonical) (a : Act) : (a.run s).canonical :=
  match a with
  | .issue .. | .input .. | .splitChangeComplete .. | .profileChange => h
  | .issueGapElapse .. => execIssueGapElapse_canonical h _ _
  | .issueStarvationBoost .. => execIssueStarvationBoost_canonical h _ _
  | .yieldRelease .. => execYieldRelease_canonical h _
  | .scalarResultComplete .. => execScalarResultComplete_canonical h _ _
  | .vectorResultLand .. => execVectorResultLand_canonical h _ _
  | .vectorWordComplete .. => execVectorWordComplete_canonical h _ _
  | .graphicsMessageComplete .. => execGraphicsMessageComplete_canonical h _ _
  | .blendExport .. => execBlendExport_canonical h _ _
  | .crewRetire .. => execCrewRetire_canonical h _
  | .couplingDeadlockDetect .. => execCouplingDeadlockDetect_canonical h _
  | .trapEntry .. => execTrapEntry_canonical h _
  | .tileStepComplete .. => execTileStepComplete_canonical h _
  | .nestStepGenerate .. => execNestStepGenerate_canonical h _
  | .tileReadPerform .. => execTileReadPerform_canonical h _
  | .mrelPerform .. => execMrelPerform_canonical h _
  | .operandSliceArrive .. => execOperandSliceArrive_canonical h _ _
  | .infuserTableArrive .. => execInfuserTableArrive_canonical h _
  | .copyJobComplete .. => execCopyJobComplete_canonical h _ _
  | .copyJobFail .. => execCopyJobFail_canonical h _ _
  | .collectivePerform .. => execCollectivePerform_canonical h _ _
  | .dqEntryArrive .. => execDqEntryArrive_canonical h _ _
  | .sideLogReplay .. => execSideLogReplay_canonical h _ _
  | .translationWalk .. => execTranslationWalk_canonical h _ _ _ _
  | .inval .. => execInval_canonical h _
  | .resume .. => execResume_canonical h _
  | .resumeFatal .. => execResumeFatal_canonical h _
  | .fill .. => execFill_canonical h _
  | .retire .. => execRetire_canonical h _
  | .harvest .. => execHarvest_canonical h _
  | .migrate .. => execMigrate_canonical h _
  | .homeWrite .. => execHomeWrite_canonical h _ _
  | .writePerformed .. => execWritePerformed_canonical h _
  | .subscribeFill .. => execSubscribeFill_canonical h _ _ _
  | .invalidationReceive .. | .updateReceive .. => State.takeFor_canonical h _ _
  | .upgrade .. => execUpgrade_canonical h _ _
  | .leaseExpire .. => execLeaseExpire_canonical h _ _
  | .inboundFabricRequest .. => execInboundFabricRequest_canonical h _ _ _
  | .targetTimeout .. => execTargetTimeout_canonical h _ _
  | .initiatorTimeout .. => execInitiatorTimeout_canonical h _ _
  | .launch .. => execLaunch_canonical h _ _
  | .operatorChain .. => execOperatorChain_canonical h _ _
  | .operatorSwap .. => execOperatorSwap_canonical h _
  | .drawStream .. => execDrawStream_canonical h _ _
  | .waitCommand .. => execWaitCommand_canonical h _ _
  | .waitCommandPoll .. => execWaitCommandPoll_canonical h _ _
  | .launchEnd .. => execLaunchEnd_canonical h _
  | .taskLaunch .. => execTaskLaunch_canonical h _ _
  | .jobCardStart .. => execJobCardStart_canonical h _ _
  | .bind .. => execBind_canonical h _ _ _
  | .preemptHalt .. => execPreemptHalt_canonical h _
  | .pendingCompletionArrive .. => execPendingCompletionArrive_canonical h _ _
  | .killComplete .. => execKillComplete_canonical h _
  | .solverJobStart .. => execSolverJobStart_canonical h _
  | .solverStageComplete .. => execSolverStageComplete_canonical h _
  | .primitiveBin .. => execPrimitiveBin_canonical h _
  | .passFinal .. => execPassFinal_canonical h _ _
  | .leadAllowanceRelease .. => execLeadAllowanceRelease_canonical h _
  | .eventRecordPost .. => execEventRecordPost_canonical h _
  | .leaderRenew => execLeaderRenew_canonical h
  | .leaderStepDown => execLeaderStepDown_canonical h
  | .leadershipTakeover => execLeadershipTakeover_canonical h
  | .exactFill .. => execExactFill_canonical h _ _
  | .evict .. => State.pushOut_canonical h _ _
  | .seat .. => State.seatNow_canonical h _
  | .hotnessSnapshot .. => Out.ite_canonical (execHotnessSnapshot_canonical h _ _) h

/-- The next word of a stream keeps the memories canonical. -/
theorem State.issue_canonical {s : State} (h : s.canonical) (u : Nat) (st : Strm) : Out.canonical (s.perform_ (.issue u st)) := by
  unfold State.perform_
  dsimp only
  split
  · exact h
  · next s1 taken =>
    have h1 : s1.canonical := State.takeTurn_canonical h taken
    split
    · exact exec_canonical h1 _
    · next o gave => exact State.fetched_out_canonical h1 gave

/-- An action performed: an input, a word, or an event. -/
theorem State.perform_act_canonical {s : State} (h : s.canonical) (a : Act) : Out.canonical (s.perform_ a) := by
  unfold State.perform_
  split
  · exact exec_canonical h _
  · exact State.issue_canonical h _ _
  · exact Act.run_canonical h a

/-- Every step keeps the memories canonical: the tick leaves them, and what the schedule picks keeps them. -/
theorem step_canonical {s : State} (h : s.canonical) : Out.canonical (step s) := by
  have ticked : s.tick.canonical := s.tick_mems.canonical h
  unfold step
  split
  · exact State.perform_act_canonical ticked _
  · exact ticked

/-- Settles O59, by a lemma for each instruction, event and action, over the rules for a write and for a range zeroed. -/
theorem stepKeepsMemoryCanonical : Obligations.StepKeepsMemoryCanonical := by
  unfold Obligations.StepKeepsMemoryCanonical
  intro s t h stepped
  have kept := step_canonical h
  exact (congrArg Out.canonical stepped).mp kept

end Sys2Proof.Machine
